-- ==== Sys2Proof/Word.lean ====
section
/-!
DEFINITION. The machine's word types, sparse tables and little-endian byte helpers (R6).
-/

namespace Sys2Proof

/-- A 64-bit register or virtual address. -/
abbrev Word := BitVec 64

/-- The smallest addressable unit (R6). -/
abbrev Byte := BitVec 8

/-- Bits `[lo + len - 1 : lo]` of a word, as a number (R6: bit 0 is least significant). -/
def bits {w : Nat} (v : BitVec w) (lo len : Nat) : Nat := (v.toNat / 2 ^ lo) % 2 ^ len

/-- One bit of a word. -/
def bitAt {w : Nat} (v : BitVec w) (i : Nat) : Bool := v.getLsbD i

/-- A number read as a two's-complement integer of `n` bits. -/
def toSigned (n v : Nat) : Int :=
  let m := v % 2 ^ n
  if n ≠ 0 ∧ 2 ^ (n - 1) ≤ m then (m : Int) - 2 ^ n else m

/-- `sext(val, n)` of Table 04-19: the low `n` bits, sign-extended to 64 bits. -/
def sextN (n v : Nat) : Word := BitVec.ofInt 64 (toSigned n v)

/-- The least-significant-first bytes of a number (R6). -/
def toBytes : Nat → Nat → List Byte
  | 0, _ => []
  | n + 1, v => BitVec.ofNat 8 v :: toBytes n (v / 256)

/-- The number that bytes hold, least significant first (R6). -/
def ofBytes : List Byte → Nat
  | [] => 0
  | b :: bs => b.toNat + 256 * ofBytes bs

/-- A sparse table: keys strictly rising, at most one entry a key. -/
abbrev Tab (α : Type) := List (Nat × α)

/-- The entry at a key, if there is one. -/
def Tab.get? {α : Type} : Tab α → Nat → Option α
  | [], _ => none
  | (k, a) :: t, i => if i = k then some a else if i < k then none else Tab.get? t i

/-- Put an entry at a key, replacing one that stands there. -/
def Tab.put {α : Type} : Tab α → Nat → α → Tab α
  | [], i, b => [(i, b)]
  | (k, a) :: t, i, b =>
    if i < k then (i, b) :: (k, a) :: t
    else if i = k then (i, b) :: t
    else (k, a) :: Tab.put t i b

/-- Remove the entry at a key. -/
def Tab.drop {α : Type} : Tab α → Nat → Tab α
  | [], _ => []
  | (k, a) :: t, i => if i = k then t else (k, a) :: Tab.drop t i

/-- The keys of a table rise strictly. -/
def Tab.sorted {α : Type} : Tab α → Bool
  | [] => true
  | [_] => true
  | (k, _) :: (k', b) :: t => k < k' && Tab.sorted ((k', b) :: t)

end Sys2Proof
end

