-- ==== Sys2Proof/Machine/Fp.lean ====
section
/-!
DEFINITION. Exact floating-point arithmetic and its one rounding: the formats of Table 05-2 and FP64, the
conversions of Table 05-5, sat_fp8 (R116), minimumNumber and maximumNumber (R115), square root and exp2 (R363).
Operands become exact values, results are narrowed once at the end.
-/

namespace Sys2Proof.Machine

/-- A floating-point format (Table 05-2). `finite` marks FP8 E4M3, which has neither infinity nor NaN (R113). -/
structure FloatFmt where
  ebits : Nat
  fbits : Nat
  finite : Bool
  deriving DecidableEq, Repr

namespace Fmt
def f8 : FloatFmt := { ebits := 4, fbits := 3, finite := true }
def bf16 : FloatFmt := { ebits := 8, fbits := 7, finite := false }
def f16 : FloatFmt := { ebits := 5, fbits := 10, finite := false }
def f32 : FloatFmt := { ebits := 8, fbits := 23, finite := false }
def a40 : FloatFmt := { ebits := 8, fbits := 31, finite := false }
def f64 : FloatFmt := { ebits := 11, fbits := 52, finite := false }
end Fmt

def FloatFmt.bias (f : FloatFmt) : Nat := 2 ^ (f.ebits - 1) - 1
def FloatFmt.width (f : FloatFmt) : Nat := 1 + f.ebits + f.fbits
def FloatFmt.expMax (f : FloatFmt) : Nat := 2 ^ f.ebits - 1
/-- The exponent of the smallest normal. -/
def FloatFmt.emin (f : FloatFmt) : Int := 1 - (f.bias : Int)

/-- Rounding modes (Table 02-1; the same codes as RISC-V frm). -/
inductive Rm | rne | rtz | rdn | rup | rmm
  deriving DecidableEq, Repr

def rmOf (n : Nat) : Option Rm :=
  match n with
  | 0 => some .rne | 1 => some .rtz | 2 => some .rdn | 3 => some .rup | 4 => some .rmm | _ => none

/-- An exact value: (-1)^neg · m · 2^e, an infinity, or a NaN with its signalling bit. -/
inductive Fx
  | fin (neg : Bool) (m : Nat) (e : Int)
  | inf (neg : Bool)
  | nan (signalling : Bool)
  deriving DecidableEq, Repr

/-- The flags of Table 05-3, bit by bit: NX, UF, OF, DZ, NV, SAT, IB. -/
abbrev FlagSet := BitVec 7
def flNX : FlagSet := 1
def flUF : FlagSet := 2
def flOF : FlagSet := 4
def flDZ : FlagSet := 8
def flNV : FlagSet := 16
def flSAT : FlagSet := 32
def flIB : FlagSet := 64

/-- The value that a bit pattern encodes (R112, R113). -/
def decodeF (f : FloatFmt) (v : Nat) : Fx :=
  let frac := v % 2 ^ f.fbits
  let ex := (v / 2 ^ f.fbits) % 2 ^ f.ebits
  let neg := (v / 2 ^ (f.fbits + f.ebits)) % 2 = 1
  if ex = 0 then .fin neg frac (f.emin - f.fbits)
  else if ex = f.expMax ∧ !f.finite then
    (if frac = 0 then .inf neg else .nan (frac < 2 ^ (f.fbits - 1)))
  else .fin neg (2 ^ f.fbits + frac) ((ex : Int) - f.bias - f.fbits)

def signBit (f : FloatFmt) (neg : Bool) : Nat := if neg then 2 ^ (f.fbits + f.ebits) else 0

/-- R114: the canonical NaN. -/
def canonicalNan (f : FloatFmt) : Nat := f.expMax * 2 ^ f.fbits + 2 ^ (f.fbits - 1)
def infBits (f : FloatFmt) (neg : Bool) : Nat := signBit f neg + f.expMax * 2 ^ f.fbits
/-- The largest finite magnitude. -/
def maxFinite (f : FloatFmt) (neg : Bool) : Nat :=
  signBit f neg + (if f.finite then f.expMax * 2 ^ f.fbits else (f.expMax - 1) * 2 ^ f.fbits) + (2 ^ f.fbits - 1)

/-- Does a discarded part `r` of `2^s` round the kept part `k` away from zero? -/
def roundsUp (rm : Rm) (neg : Bool) (k r s : Nat) : Bool :=
  if r = 0 then false
  else match rm with
    | .rne => 2 * r > 2 ^ s || (2 * r = 2 ^ s && k % 2 = 1)
    | .rtz => false
    | .rdn => neg
    | .rup => !neg
    | .rmm => 2 * r ≥ 2 ^ s

/-- `m · 2^e` as a multiple of `2^q`, rounded: the multiple and whether it is inexact. -/
def roundAt (rm : Rm) (neg : Bool) (m : Nat) (e q : Int) : Nat × Bool :=
  if q ≤ e then (m * 2 ^ (e - q).toNat, false)
  else
    let s := (q - e).toNat
    let k := m / 2 ^ s
    let r := m % 2 ^ s
    (if roundsUp rm neg k r s then k + 1 else k, r ≠ 0)

/-- The single rounding of a nonzero finite value, with IEEE overflow and underflow, tininess detected after
rounding (R115), or FP8's saturation (R116). -/
def roundFinite (f : FloatFmt) (rm : Rm) (neg : Bool) (m : Nat) (e : Int) : Nat × FlagSet :=
  let top := e + (Nat.log2 m : Int)              -- the value lies in [2^top, 2^(top+1))
  let q := max top f.emin - f.fbits
  let (k, inexact) := roundAt rm neg m e q
  let (k, q) := if k ≥ 2 ^ (f.fbits + 1) then (k / 2, q + 1) else (k, q)
  let biased : Int := if k < 2 ^ f.fbits then 0 else q + f.fbits + f.bias
  let limit : Int := if f.finite then f.expMax else (f.expMax : Int) - 1
  if limit < biased then
    let v :=
      if f.finite then maxFinite f neg
      else match rm with
        | .rtz => maxFinite f neg
        | .rdn => if neg then infBits f neg else maxFinite f neg
        | .rup => if neg then maxFinite f neg else infBits f neg
        | _ => infBits f neg
    (v, flOF ||| flNX)
  else
    let tiny :=
      if f.emin ≤ top then false
      else if top + 1 < f.emin then true
      else (roundAt rm neg m e (top - f.fbits)).1 < 2 ^ (f.fbits + 1)
    let v := signBit f neg + (if biased ≤ 0 then k else biased.toNat * 2 ^ f.fbits + (k - 2 ^ f.fbits))
    (v, if inexact then (if tiny then flUF ||| flNX else flNX) else 0)

/-- `round(x, fmt, rm)` of Table 04-19; for FP8, `sat_fp8` whatever the mode (R116). -/
def roundFx (f : FloatFmt) (rm : Rm) (x : Fx) : Nat × FlagSet :=
  if f.finite then
    match x with
    | .nan _ => (0, flNV)
    | .inf neg => (maxFinite f neg, flOF ||| flNX)
    | .fin neg m e => if m = 0 then (signBit f neg, 0) else roundFinite f .rne neg m e
  else
    match x with
    | .nan _ => (canonicalNan f, 0)
    | .inf neg => (infBits f neg, 0)
    | .fin neg m e => if m = 0 then (signBit f neg, 0) else roundFinite f rm neg m e

def Fx.isSnan : Fx → Bool
  | .nan true => true
  | _ => false

def Fx.isNan : Fx → Bool
  | .nan _ => true
  | _ => false

def Fx.neg : Fx → Fx
  | .fin n m e => .fin (!n) m e
  | .inf n => .inf (!n)
  | x => x

/-- A signed mantissa. -/
def signedMant (neg : Bool) (m : Nat) : Int := if neg then -(m : Int) else m

/-- The exact sum; an exact zero from operands of opposite sign is +0, or −0 under RDN (IEEE 754-2019). -/
def addFx (rm : Rm) (x y : Fx) : Fx × FlagSet :=
  match x, y with
  | .nan a, .nan b => (.nan false, if a || b then flNV else 0)
  | .nan a, _ => (.nan false, if a then flNV else 0)
  | _, .nan b => (.nan false, if b then flNV else 0)
  | .inf a, .inf b => if a = b then (.inf a, 0) else (.nan false, flNV)
  | .inf a, _ => (.inf a, 0)
  | _, .inf b => (.inf b, 0)
  | .fin n1 m1 e1, .fin n2 m2 e2 =>
    let e := min e1 e2
    let s := signedMant n1 m1 * 2 ^ (e1 - e).toNat + signedMant n2 m2 * 2 ^ (e2 - e).toNat
    if s = 0 then
      (.fin (if m1 = 0 ∧ m2 = 0 ∧ n1 = n2 then n1 else rm = .rdn) 0 0, 0)
    else (.fin (s < 0) s.natAbs e, 0)

/-- The exact product. -/
def mulFx (x y : Fx) : Fx × FlagSet :=
  match x, y with
  | .nan a, .nan b => (.nan false, if a || b then flNV else 0)
  | .nan a, _ => (.nan false, if a then flNV else 0)
  | _, .nan b => (.nan false, if b then flNV else 0)
  | .inf a, .inf b => (.inf (a != b), 0)
  | .inf a, .fin b m _ => if m = 0 then (.nan false, flNV) else (.inf (a != b), 0)
  | .fin a m _, .inf b => if m = 0 then (.nan false, flNV) else (.inf (a != b), 0)
  | .fin a m1 e1, .fin b m2 e2 => (.fin (a != b) (m1 * m2) (e1 + e2), 0)

/-- The quotient, to far more bits than any format keeps, its last bit sticky, so that the one rounding that
follows is correct (R115, R362). -/
def divFx (x y : Fx) : Fx × FlagSet :=
  match x, y with
  | .nan a, .nan b => (.nan false, if a || b then flNV else 0)
  | .nan a, _ => (.nan false, if a then flNV else 0)
  | _, .nan b => (.nan false, if b then flNV else 0)
  | .inf _, .inf _ => (.nan false, flNV)
  | .inf a, .fin b _ _ => (.inf (a != b), 0)
  | .fin a _ _, .inf b => (.fin (a != b) 0 0, 0)
  | .fin a m1 e1, .fin b m2 e2 =>
    if m2 = 0 then (if m1 = 0 then (.nan false, flNV) else (.inf (a != b), flDZ))
    else if m1 = 0 then (.fin (a != b) 0 0, 0)
    else
      let k := Nat.log2 m2 + 128
      let n := m1 * 2 ^ k
      (.fin (a != b) (2 * (n / m2) + (if n % m2 = 0 then 0 else 1)) (e1 - e2 - k - 1), 0)

/-- The integer square root of a number below `4^fuel`. -/
def isqrt : Nat → Nat → Nat
  | 0, _ => 0
  | fuel + 1, n =>
    let r := 2 * isqrt fuel (n / 4)
    if (r + 1) * (r + 1) ≤ n then r + 1 else r

/-- The square root, its last bit sticky (R363). -/
def sqrtFx (x : Fx) : Fx × FlagSet :=
  match x with
  | .nan s => (.nan false, if s then flNV else 0)
  | .inf false => (.inf false, 0)
  | .inf true => (.nan false, flNV)
  | .fin neg m e =>
    if m = 0 then (.fin neg 0 0, 0)
    else if neg then (.nan false, flNV)
    else
      let k : Nat := 140 + (e.emod 2).toNat
      let n := m * 2 ^ k
      let r := isqrt (Nat.log2 n / 2 + 1) n
      (.fin false (2 * r + (if r * r = n then 0 else 1)) ((e - k) / 2 - 1), 0)

/-- a × b + d, exact (R364): the NaN of 0 × ∞ raises NV whatever d holds. -/
def fmaFx (rm : Rm) (a b d : Fx) : Fx × FlagSet :=
  let (p, fl) := mulFx a b
  let (s, fl') := addFx rm p d
  (s, fl ||| fl')

/-! ## exp2 -/

/-- The fixed-point scale of the exp2 computation. -/
def expScale : Nat := 2 ^ 400

/-- ln 2 = Σ 2 / ((2k+1) 3^(2k+1)), at the scale. -/
def ln2Sum : Nat → Nat → Nat → Nat
  | 0, _, _ => 0
  | fuel + 1, k, p => p / (2 * k + 1) + ln2Sum fuel (k + 1) (p / 9)

def ln2Fixed : Nat := ln2Sum 140 0 (2 * expScale / 3)

/-- Σ y^k / k!, at the scale, from the term `t` of index `k - 1`. -/
def expSum (y : Nat) : Nat → Nat → Nat → Nat
  | 0, _, t => t
  | fuel + 1, k, t => t + expSum y fuel (k + 1) (t * y / expScale / k)

/-- 2^x (R363). The power of a non-integer dyadic is irrational, so its value is taken to 2^-380 with a sticky
bit (DEDUCED log 12). -/
def exp2Fx (x : Fx) : Fx × FlagSet :=
  match x with
  | .nan s => (.nan false, if s then flNV else 0)
  | .inf false => (.inf false, 0)
  | .inf true => (.fin false 0 0, 0)
  | .fin neg m e =>
    if m = 0 then (.fin false 1 0, 0)
    else if e + (Nat.log2 m : Int) > 20 then (.fin false 1 (if neg then -2000000 else 2000000), 0)
    else
      -- the exponent as a multiple of 2^-200, exact: every format's least bit weighs more
      let s : Int := signedMant neg m * 2 ^ (e + 200).toNat
      let n := s / 2 ^ 200
      let f := (s - n * 2 ^ 200).toNat
      if f = 0 then (.fin false 1 n, 0)
      else
        let y := f * 2 ^ 200 * ln2Fixed / expScale
        (.fin false (2 * (expSum y 100 1 expScale / 2 ^ 20) + 1) (n - 381), 0)

/-! ## Integral values, conversions, comparisons -/

/-- A finite value rounded to an integer: sign, magnitude, inexact. -/
def roundInt (rm : Rm) (neg : Bool) (m : Nat) (e : Int) : Nat × Bool := roundAt rm neg m e 0

/-- VFRND (R363): the integral value that the mode selects. -/
def rndFx (rm : Rm) (x : Fx) : Fx × FlagSet :=
  match x with
  | .nan s => (.nan false, if s then flNV else 0)
  | .inf n => (.inf n, 0)
  | .fin neg m e =>
    if m = 0 then (x, 0)
    else
      let (k, inexact) := roundInt rm neg m e
      (.fin neg k 0, if inexact then flNX else 0)

/-- Float to integer (Table 05-5): the clamped integer and the flags. -/
def toIntFx (rm : Rm) (lo hi : Int) (nanValue : Int) (x : Fx) : Int × FlagSet :=
  match x with
  | .nan _ => (nanValue, flNV)
  | .inf n => (if n then lo else hi, flNV)
  | .fin neg m e =>
    let (k, inexact) := roundInt rm neg m e
    let v := signedMant neg k
    if v < lo then (lo, flNV) else if hi < v then (hi, flNV) else (v, if inexact then flNX else 0)

def ofInt (v : Int) : Fx := .fin (v < 0) v.natAbs 0

/-- Order of two values that are no NaN, −0 equal to +0. -/
def cmpFx (x y : Fx) : Ordering :=
  match x, y with
  | .inf a, .inf b => compare b a
  | .inf a, _ => if a then .lt else .gt
  | _, .inf b => if b then .gt else .lt
  | .fin n1 m1 e1, .fin n2 m2 e2 =>
    let e := min e1 e2
    compare (signedMant n1 m1 * 2 ^ (e1 - e).toNat) (signedMant n2 m2 * 2 ^ (e2 - e).toNat)
  | _, _ => .eq

def Fx.sign : Fx → Bool
  | .fin n _ _ => n
  | .inf n => n
  | .nan _ => false

/-- minimumNumber and maximumNumber (R115, R365), −0 ordered below +0. -/
def minMaxF (f : FloatFmt) (isMax : Bool) (a b : Nat) : Nat × FlagSet :=
  let x := decodeF f a
  let y := decodeF f b
  let fl := if x.isSnan || y.isSnan then flNV else 0
  if x.isNan && y.isNan then (canonicalNan f, fl)
  else if x.isNan then (b, fl)
  else if y.isNan then (a, fl)
  else
    let aLess := match cmpFx x y with
      | .lt => true
      | .gt => false
      | .eq => x.sign && !y.sign
    (if isMax then (if aLess then b else a) else (if aLess then a else if cmpFx x y = .eq && !(y.sign && !x.sign) then a else b), fl)

/-- x × 2^n, exact. -/
def scaleFx (x : Fx) (n : Int) : Fx :=
  match x with
  | .fin neg m e => .fin neg m (e + n)
  | x => x

/-- 2^⌈log2(m ÷ 480)⌉ held within 2^−126 to 2^127, as FP32 bits; `m · 2^e` positive (R275, R367). -/
def scaleFor (m : Nat) (e : Int) : Nat :=
  -- the least p with m · 2^e ≤ 480 · 2^p; m lies in [2^t, 2^(t+1)), and 480 in [2^8, 2^9)
  let t := Nat.log2 m
  let p0 : Int := e + t - 8
  -- m · 2^e ≤ 480 · 2^p0 iff m · 2^8 ≤ 480 · 2^t
  let p := if m * 256 ≤ 480 * 2 ^ t then p0 else p0 + 1
  let p := max (-126) (min 127 p)
  ((p + 127).toNat) * 2 ^ 23

end Sys2Proof.Machine
end

