-- ==== Sys2Proof/Syntax.lean ====
section
/-!
DEFINITION. The syntax of every instruction and event of spec/opcode_table.json: one constructor of `Instr` per
row. Operand fields keep the widths of the encodings of chapter 04; the events carry what the environment or
an opaque choice of the device decides.
-/

namespace Sys2Proof

/-- A scope code of Table 08-1. -/
inductive Scope | hart | cluster | die | pkg | dom | sys
  deriving DecidableEq, Repr

/-- The second source of format V (R92). -/
inductive Src2
  | vv (vs1 : BitVec 5)   -- form 00
  | vx (rs1 : BitVec 5)   -- form 01
  | vi (imm : BitVec 5)   -- form 10
  deriving DecidableEq, Repr

/-- A two-source instruction of format V (Table 04-2). -/
structure VOp where
  c : Bool
  pg : BitVec 3
  vd : BitVec 5
  vs2 : BitVec 5
  b : Src2
  deriving DecidableEq, Repr

/-- A one-source (form 11) instruction of format V. -/
structure UOp where
  c : Bool
  pg : BitVec 3
  vd : BitVec 5
  vs2 : BitVec 5
  deriving DecidableEq, Repr

/-- The address mode of format VM (R94). -/
inductive VMode
  | rc (rs2 : BitVec 5)
  | es (rs2 : BitVec 5)
  | ix (vs2 : BitVec 5)
  | td (n : BitVec 4)
  deriving DecidableEq, Repr

/-- An instruction of format VM (Table 04-3); `vd` is vd or vs3. -/
structure MOp where
  c : Bool
  pg : BitVec 3
  vd : BitVec 5
  base : BitVec 5
  mode : VMode
  deriving DecidableEq, Repr

/-- A scale move, VLSC or VSSC: `n8` is the first scale register divided by 8 (R377). -/
structure SOp where
  c : Bool
  pg : BitVec 3
  n8 : BitVec 5
  base : BitVec 5
  stride : BitVec 5
  deriving DecidableEq, Repr

/-- The element-type codes of Table 05-1. -/
inductive EType | i8 | i16 | i32 | f8 | bf16 | f16 | f32
  deriving DecidableEq, Repr

/-- The condition of PWHILE (Table 04-10). -/
inductive WhileCond | lt | le | ltu | leu
  deriving DecidableEq, Repr

/-- The ordering fields of a CE instruction of kind o (R98). -/
structure Order where
  aq : Bool
  rl : Bool
  scope : Scope
  deriving DecidableEq, Repr

/-- The A operand of an array instruction: a tile, or the operand latch (R238). -/
inductive AOperand
  | mt (n : BitVec 3)
  | latch
  deriving DecidableEq, Repr

/-! ## The RV64 base (R103) -/

inductive BrOp | eq | ne | lt | ge | ltu | geu
  deriving DecidableEq, Repr
inductive LdOp | lb | lh | lw | ld | lbu | lhu | lwu
  deriving DecidableEq, Repr
inductive StOp | sb | sh | sw | sd
  deriving DecidableEq, Repr
/-- Register and register-immediate operations on 64 bits; those of M, Zba and Zbb among them. -/
inductive AluOp
  | add | sub | sll | slt | sltu | xor | srl | sra | or | and
  | mul | mulh | mulhsu | mulhu | div | divu | rem | remu
  | sh1add | sh2add | sh3add | addUw | sh1addUw | sh2addUw | sh3addUw
  | andn | orn | xnor | max | maxu | min | minu | rol | ror
  deriving DecidableEq, Repr
/-- Operations on the low 32 bits, sign-extended. -/
inductive AluWOp
  | addw | subw | sllw | srlw | sraw | mulw | divw | divuw | remw | remuw | rolw | rorw
  deriving DecidableEq, Repr
inductive ImmOp | addi | slti | sltiu | xori | ori | andi
  deriving DecidableEq, Repr
inductive ShOp | slli | srli | srai | rori | slliUw
  deriving DecidableEq, Repr
inductive ShWOp | slliw | srliw | sraiw | roriw
  deriving DecidableEq, Repr
/-- The one-operand operations of Zbb. -/
inductive UnOp | clz | ctz | cpop | clzw | ctzw | cpopw | sextB | sextH | zextH | orcB | rev8
  deriving DecidableEq, Repr
inductive AmoOp | swap | add | xor | and | or | min | max | minu | maxu
  deriving DecidableEq, Repr
inductive FFmt | s | d
  deriving DecidableEq, Repr
inductive FOp | add | sub | mul | div
  deriving DecidableEq, Repr
inductive FmaOp | madd | msub | nmsub | nmadd
  deriving DecidableEq, Repr
inductive FSgn | sgnj | sgnjn | sgnjx
  deriving DecidableEq, Repr
inductive FCmp | le | lt | eq
  deriving DecidableEq, Repr
/-- The integer formats of the scalar conversions. -/
inductive IFmt | w | wu | l | lu
  deriving DecidableEq, Repr
inductive CsrOp | rw | rs | rc
  deriving DecidableEq, Repr
/-- The source of a CSR instruction: a register or a 5-bit immediate. -/
inductive CsrSrc
  | reg (rs1 : BitVec 5)
  | imm (z : BitVec 5)
  deriving DecidableEq, Repr
/-- A CSR instruction that writes, without its CSR. -/
structure CsrAcc where
  op : CsrOp
  rd : BitVec 5
  src : CsrSrc
  deriving DecidableEq, Repr

/-- The scalar instructions of R103. -/
inductive Rv
  | lui (rd : BitVec 5) (imm : BitVec 20)
  | auipc (rd : BitVec 5) (imm : BitVec 20)
  | jal (rd : BitVec 5) (off : BitVec 20)          -- offset in 2-byte units
  | jalr (rd rs1 : BitVec 5) (imm : BitVec 12)
  | branch (op : BrOp) (rs1 rs2 : BitVec 5) (off : BitVec 12)   -- offset in 2-byte units
  | load (op : LdOp) (rd rs1 : BitVec 5) (imm : BitVec 12)
  | store (op : StOp) (rs1 rs2 : BitVec 5) (imm : BitVec 12)
  | opImm (op : ImmOp) (rd rs1 : BitVec 5) (imm : BitVec 12)
  | shImm (op : ShOp) (rd rs1 : BitVec 5) (sh : BitVec 6)
  | addiw (rd rs1 : BitVec 5) (imm : BitVec 12)
  | shImmW (op : ShWOp) (rd rs1 : BitVec 5) (sh : BitVec 5)
  | alu (op : AluOp) (rd rs1 rs2 : BitVec 5)
  | aluW (op : AluWOp) (rd rs1 rs2 : BitVec 5)
  | un (op : UnOp) (rd rs1 : BitVec 5)
  | fence (fm pred succ : BitVec 4) (rd rs1 : BitVec 5)
  | fenceI (imm : BitVec 12) (rd rs1 : BitVec 5)
  | ecall
  | ebreak
  | wfi
  | csrRead (op : CsrOp) (viaImm : Bool) (rd : BitVec 5) (csr : BitVec 12)  -- CSRRS/CSRRC[I] with a zero source: no write
  | lr (dbl : Bool) (aq rl : Bool) (rd rs1 : BitVec 5)
  | sc (dbl : Bool) (aq rl : Bool) (rd rs1 rs2 : BitVec 5)
  | amo (op : AmoOp) (dbl : Bool) (aq rl : Bool) (rd rs1 rs2 : BitVec 5)
  | fload (f : FFmt) (rd rs1 : BitVec 5) (imm : BitVec 12)
  | fstore (f : FFmt) (rs1 rs2 : BitVec 5) (imm : BitVec 12)
  | farith (op : FOp) (f : FFmt) (rm : BitVec 3) (rd rs1 rs2 : BitVec 5)
  | fsqrt (f : FFmt) (rm : BitVec 3) (rd rs1 : BitVec 5)
  | fma (op : FmaOp) (f : FFmt) (rm : BitVec 3) (rd rs1 rs2 rs3 : BitVec 5)
  | fsgnj (op : FSgn) (f : FFmt) (rd rs1 rs2 : BitVec 5)
  | fminmax (isMax : Bool) (f : FFmt) (rd rs1 rs2 : BitVec 5)
  | fcmp (op : FCmp) (f : FFmt) (rd rs1 rs2 : BitVec 5)
  | fclass (f : FFmt) (rd rs1 : BitVec 5)
  | fcvtFF (dst src : FFmt) (rm : BitVec 3) (rd rs1 : BitVec 5)
  | fcvtIF (dst : IFmt) (f : FFmt) (rm : BitVec 3) (rd rs1 : BitVec 5)   -- float to integer
  | fcvtFI (f : FFmt) (src : IFmt) (rm : BitVec 3) (rd rs1 : BitVec 5)   -- integer to float
  | fmvXF (f : FFmt) (rd rs1 : BitVec 5)                                  -- to an x register
  | fmvFX (f : FFmt) (rd rs1 : BitVec 5)                                  -- to an f register
  deriving DecidableEq, Repr

/-! ## Arguments of the events -/

/-- What a REGISTER_WRITE writes: a CSR by instruction, or bytes of BAR0 by the host (Table 18-1). -/
inductive RegTarget
  | csr (addr : BitVec 12) (a : CsrAcc)
  | bar0 (off : Nat) (bytes : List Byte)
  deriving DecidableEq, Repr

/-- A read or a write through BAR2 (R285). -/
inductive Bar2
  | read (off len : Nat)
  | write (off : Nat) (bytes : List Byte)
  deriving DecidableEq, Repr

/-- The vector atomics (R353, R354). -/
inductive VAmo | add | max | min
  deriving DecidableEq, Repr

/-- A remote access that arrives over Burlor at this, its home package (R277). -/
inductive RemoteOp
  | read (len : Nat)
  | write (bytes : List Byte)
  | amo (op : AmoOp) (dbl : Bool) (v : Word)
  | vamo (op : VAmo) (t : EType) (v : Word)
  deriving DecidableEq, Repr

/-- Who makes a write to another package's memory (R278): a hart, a saved context, a Scarab command, the collective
registered under a communicator and a tag, a launch for what its harts and commands leave; or a writer that is gone. -/
inductive Writer
  | hart (id : Nat)
  | context (id : Nat)
  | scarab (cmd : Nat)
  | coll (comm tag : Nat)
  | launch (n : Nat)
  | gone
  deriving DecidableEq, Repr

/-- What an access under way is for (R277). -/
inductive RemoteKind | fetch | load | store
  deriving DecidableEq, Repr

/-- A number in the sequence of one Ordinal (R259): sequence 0 is that of the package's own domain. -/
structure SeqNum where
  num : Nat
  seq : Nat
  deriving DecidableEq, Repr

/-- One member's contribution to a collective: its rank, its SRC elements as bit patterns, the poison of each
element's sector (R269). -/
structure Contribution where
  rank : Nat
  elems : List (BitVec 32)
  poisoned : List Bool
  deriving DecidableEq, Repr

/-- Where the fault of a collective engine lies: its address, and the contributions of the other members that had reached it by
then (R269, R272). -/
structure FaultPoint where
  addr : Nat
  peers : List Contribution
  deriving DecidableEq, Repr

/-- The values a registration carries to the Ordinal (R258); whether it is the package's first in the sequence since its own device
reset (R266), and whether an engine sends it again (R274). -/
structure RegMsg where
  comm : Nat
  tag : Nat
  rank : Nat
  n : Nat
  strict : Bool
  timeout : Nat
  pkg : Nat
  first : Bool := false
  resent : Bool := false
  deriving DecidableEq, Repr

/-- What passes between the primary Ordinal and the standby (R273): the standby's acknowledgement of an entry, and the
entries: an assignment with its registrations, an accepted start report, a cancellation with its answer and, of a numbered collective, its
number. -/
inductive ReplicaMsg
  | ack (id : Nat)
  | assign (num : Nat) (void : Bool) (regs : List RegMsg)
  | start (num rank : Nat)
  | cancel (comm tag rank answer : Nat) (num : Option Nat)
  deriving DecidableEq, Repr

/-- The instructions and events of spec/opcode_table.json, one constructor a row. -/
inductive Instr
  -- control (CTL)
  | vshape (rd rs1 rs2 : BitVec 5)
  | vsett (rd rs1 : BitVec 5)
  | iter (rd : BitVec 5)
  | next
  | endK
  | yield
  | clput (rd rs1 rs2 : BitVec 5)
  | clwait (rd rs1 : BitVec 5)
  | clause (xm xt nm1 : BitVec 5)
  | fenceSv (s : Scope)
  | fenceVs (s : Scope)
  | fenceVv (s : Scope)
  | fenceAll (s : Scope)
  | bar (rs1 : BitVec 5)
  | spalloc (rs1 rs2 : BitVec 5)
  | spfree (rs1 rs2 : BitVec 5)
  | renew (rs1 rs2 : BitVec 5)
  | spage (rd rs1 : BitVec 5)
  | pin (rd rs1 rs2 : BitVec 5)
  | unpin (rs1 : BitVec 5)
  | stream (o : Order) (rs1 rs2 : BitVec 5)
  | streamu (o : Order) (rs1 rs2 : BitVec 5)
  | cwait (aq : Bool) (s : Scope) (rs1 rs2 : BitVec 5)
  | cadd (s : Scope) (rs1 rs2 : BitVec 5)
  | rclaim (rd rs1 rs2 : BitVec 5)
  | rcommit (rs1 rs2 : BitVec 5)
  | rawait (rd rs1 rs2 : BitVec 5)
  | rretire (rs1 rs2 : BitVec 5)
  | attach (rd rs1 : BitVec 5)
  | detach
  | mld (o : Order) (mt : BitVec 3) (rs1 rs2 : BitVec 5)
  | mldx (o : Order) (rs1 vs : BitVec 5)
  | mlsc (o : Order) (mt : BitVec 3) (rs1 : BitVec 5)
  | mma (acc : BitVec 2) (a : AOperand) (b : BitVec 3)
  | mrpt (acc : BitVec 2) (a : AOperand) (rs2 : BitVec 5)
  | msld (acc : BitVec 2) (a : AOperand) (rs2 : BitVec 5)
  | mst (o : Order) (acc : BitVec 2) (rs1 rs2 : BitVec 5)
  | mzero (acc : BitVec 2)
  | bdset (n : BitVec 4) (rs1 : BitVec 5)
  | chnrun (o : Order) (rs1 rs2 : BitVec 5)
  | chnstep (o : Order) (rs1 rs2 : BitVec 5)
  | coll (o : Order) (rs1 rs2 : BitVec 5)
  | ccancel (rd rs1 : BitVec 5)
  | cstat (rd rs1 : BitVec 5)
  | launch (rs1 rs2 : BitVec 5)
  | splbar (rs1 : BitVec 5)
  | tdld (td : BitVec 4) (rs1 : BitVec 5)
  -- predicate branches (PBR)
  | bany (ps : BitVec 6) (off : BitVec 16)
  | ball (ps : BitVec 6) (off : BitVec 16)
  | bnone (ps : BitVec 6) (off : BitVec 16)
  | bnall (ps : BitVec 6) (off : BitVec 16)
  -- predicates (PRED)
  | pand (pd ps1 ps2 : BitVec 6)
  | por (pd ps1 ps2 : BitVec 6)
  | pxor (pd ps1 ps2 : BitVec 6)
  | pandn (pd ps1 ps2 : BitVec 6)
  | pnot (pd ps1 : BitVec 6)
  | pmov (pd ps1 : BitVec 6)
  | psetn (pd : BitVec 6) (rs : BitVec 5)
  | pwhile (cond : WhileCond) (pd : BitVec 6) (rsa rsb : BitVec 5)
  | ppopc (rd : BitVec 5) (ps : BitVec 6)
  | pfirst (rd : BitVec 5) (ps : BitVec 6)
  | psum (rd : BitVec 5) (ps : BitVec 6)
  -- VINT
  | vadd (v : VOp) | vsub (v : VOp) | vmul (v : VOp) | vmulh (v : VOp)
  | vmin (v : VOp) | vmax (v : VOp) | vminu (v : VOp) | vmaxu (v : VOp)
  | vand (v : VOp) | vor (v : VOp) | vxor (v : VOp)
  | vsll (v : VOp) | vsrl (v : VOp) | vsra (v : VOp)
  | vsadd (v : VOp) | vbfx (v : VOp)
  | vpopc (u : UOp) | vclz (u : UOp) | vfshl (u : UOp) | vfshr (u : UOp)
  -- VFLT
  | vfadd (v : VOp) | vfsub (v : VOp) | vfmul (v : VOp) | vfdiv (v : VOp)
  | vfma (v : VOp) | vfms (v : VOp) | vfnma (v : VOp)
  | vfmin (v : VOp) | vfmax (v : VOp) | vfsgnj (v : VOp) | vfscale (v : VOp) | vfscl (v : VOp)
  | vfsqrt (u : UOp) | vfexp2 (u : UOp) | vfabs (u : UOp) | vfneg (u : UOp) | vfrnd (u : UOp)
  -- VPRM
  | vcmpeq (v : VOp) | vcmpne (v : VOp) | vcmplt (v : VOp) | vcmple (v : VOp)
  | vcmpltu (v : VOp) | vcmpleu (v : VOp) | vfcmplt (v : VOp) | vfcmple (v : VOp)
  | vcompress (u : UOp) (ps : BitVec 5)
  | vslideup (v : VOp) | vslidedn (v : VOp) | vgather (v : VOp)
  | vredsum (u : UOp) | vredmax (u : UOp) | vredmin (u : UOp) | vfredsum (u : UOp) | vfredmax (u : UOp)
  | vcvt (u : UOp) (t : EType)
  | vmv (v : VOp)
  | viota (u : UOp) | vid (u : UOp) | vtrans (u : UOp)
  -- VMEM
  | vld (m : MOp) | vst (m : MOp) | vldc (m : MOp)
  | vlsc (m : SOp) | vssc (m : SOp)
  | vamoadd (m : MOp) | vamomax (m : MOp) | vamomin (m : MOp)
  -- the RV64 base, traps, the runtime's services
  | rv (op : Rv) (half : Option (BitVec 16))   -- `half`: the compressed word it was written as
  | mret
  | hookset | hookret | abort | ecallUnknown
  -- register writes
  | vtypeWrite (a : CsrAcc) | mfcWrite (a : CsrAcc) | vxiWrite (a : CsrAcc)
  | poolBoundaryWrite (which : BitVec 2) (a : CsrAcc)
  | vvalidWrite (a : CsrAcc)
  | bdCsrWrite (n : BitVec 4) (a : CsrAcc)
  | registerWrite (t : RegTarget)
  -- the host
  | doorbellWrite (q : Nat) (t : BitVec 32)
  | hostBar2Access (b : Bar2)
  | qconfig (q : Nat)
  | shootdown (q : Nat) (va : Nat) (len : Nat)
  | elideclr (q : Nat) (idx : Nat)
  | commset (table count : Nat)
  | powerlimit (watts : Nat)
  | domainid (id : Nat)
  | aperture (base : Nat)
  | fwstage (slot addr len : Nat)
  | fwswitch
  | qresume (q action : Nat)
  | mailboxUnknownCode (code : Byte)
  | fwHeartbeat (accepts : Bool)
  | fwHeartbeatTimeout
  | spdmGetVersion | spdmGetCapabilities | spdmNegotiateAlgorithms
  | spdmGetDigests | spdmGetCertificate (off len : Nat)
  | spdmChallenge (nonce : BitVec 256)
  | spdmGetMeasurements (index : Nat) (nonce : BitVec 256)
  | spdmKeyExchange (peerShare : BitVec 512)
  | spdmFinish (mac : BitVec 256)
  | spdmEndSession
  | keyLoad (k : Nat) (key : BitVec 512)
  | keyClear (k : Nat)
  | deviceReset
  | bootComplete (slot0 slot1 : List (List Byte))
  | hbmTrainingComplete
  -- power, temperature, clocks
  | thermalThrottle (die : Nat)
  | thermalTrip
  | powerLimitEnforce (die : Nat)
  | clockStretch (die : Nat)
  -- the front end and the distributor
  | recordReachesHead (q : Nat)
  | recordDispatchStart (q : Nat)
  | hartAssign (hart launch : Nat) (key : List Nat) (slot : Nat) (resv : Nat)
  | gangDispatch (launch : Nat) (harts : List Nat) (slots : List Nat) (resv : Nat)
  | launchComplete (launch : Nat)
  | pairComplete (launch : Nat)
  | coreReservationRelease (hart : Nat)
  | queueAgeing (q : Nat)
  | quantumExpiry (hart : Nat)
  | preemptionRequest (hart : Nat)
  | preemptDeadline (hart : Nat) (elem : Option Nat)
  | gangSaveStart (launch : Nat)
  | contextSaveComplete (ctx : Nat)
  | contextResume (ctx hart : Nat)
  -- retention
  | sweeperVisit (core : Bool) (owner block : Nat)
  | renewalPerform (core : Bool) (owner : Nat)
  | ringBlockRenewal (hart : Nat)
  | l1DirtyWriteback (hart line : Nat)
  | extensionBankRenewal (hart bank : Nat)
  | l2LineRetention (die line : Nat)
  | sectorPoisonDetect (place : Nat) (owner sector : Nat)
  -- the Scarab
  | scarabCommandBegin (cluster : Nat) (hart : Nat)
  | scarabPrefixAdvance (cluster : Nat) (cmd : Nat) (upto : Nat)
  | scarabFault (cluster : Nat) (cmd : Nat)
  | scarabCommandComplete (cluster : Nat) (cmd : Nat)
  -- the Ordinal and the collective engine
  | ordinalRegistration (m : RegMsg)
  | ordinalDeferredNumber (comm tag : Nat)
  | ordinalStartReport (num : SeqNum) (rank : Nat)
  | ordinalCancellation (comm tag rank : Nat)
  | collectiveNotice (comm tag num : Nat) (prev : Option Nat) (void : Bool) (aborted : Bool)
  | collectiveBegin (num seq : Nat)
  | collectiveEnd (num seq : Nat) (status : Nat) (peers : List Contribution)
  | collectiveEngineFault (num seq : Nat) (cause : Nat) (addr : FaultPoint)
  | collectiveTimeout (num : Nat)
  | ccancelAnswerTimeout (hart : Nat)
  | ordinalElection (primary standby : Nat)
  | ordinalHeartbeat
  | ordinalStandbyAckTimeout
  | ordinalFailover
  | ethernetRecordReceive (peer : Nat) (seqNum : Nat) (rec : List Byte)
  | sessionRekey (peer : Nat)
  | remoteAccessAtHome (op : RemoteOp) (pa key : Nat)
  | remoteReadTimeout (hart : Nat) (kind : RemoteKind) (elem : Nat) (va : Word)
  | remoteWriteUndeliverable (writer : Writer) (va : Word)
  | supplyRecovery (die : Nat)
  | domainFault
  | ordinalReplication (entry : ReplicaMsg)
  | sessionKeyExchange (peer : Nat) (share : BitVec 512)
  | ethernetRetransmission (peer : Nat) (seqNum : Nat)
  deriving DecidableEq, Repr

end Sys2Proof
end

