-- ==== Sys2Proof/WellFormed.lean ====
section
/-!
DEFINITION. Which terms of `Instr` an instruction word can stand for: the forms and modes that Tables 04-6 to
04-12 allow, the fixed guards, the destinations that may not be p0 (R92, R93, R96, R100).
-/

namespace Sys2Proof

/-- Is the second source a form that takes an immediate? -/
def Src2.isImm : Src2 → Bool
  | .vi _ => true
  | _ => false

def Src2.isVec : Src2 → Bool
  | .vv _ => true
  | _ => false

def Src2.isScalar : Src2 → Bool
  | .vx _ => true
  | _ => false

def VMode.isRc : VMode → Bool
  | .rc _ => true
  | _ => false

def VMode.isTd : VMode → Bool
  | .td _ => true
  | _ => false

/-- A CSR instruction form that writes its CSR: CSRRW always, CSRRS and CSRRC with a nonzero source field. -/
def CsrAcc.writes (a : CsrAcc) : Bool :=
  match a.op, a.src with
  | .rw, _ => true
  | _, .reg r => r ≠ 0
  | _, .imm z => z ≠ 0

/-- A CSR whose write is a row of its own (VTYPE, MFC, VXI, VVALID, BDn, the pool boundaries). -/
def csrHasOwnRow (a : BitVec 12) : Bool :=
  a = 0x800#12 || a = 0x801#12 || a = 0x802#12 || a = 0x805#12 ||
  (0x810 ≤ a.toNat && a.toNat < 0x820) || (0x7C0 ≤ a.toNat && a.toNat ≤ 0x7C2)

/-- A static rounding mode that is not reserved: 0 to 4, or 7 for the dynamic mode. -/
def rmOk (rm : BitVec 3) : Bool := rm ≠ 5 && rm ≠ 6

def Rv.wf : Rv → Bool
  | .farith _ _ rm _ _ _ => rmOk rm
  | .fsqrt _ rm _ _ => rmOk rm
  | .fma _ _ rm _ _ _ _ => rmOk rm
  | .fcvtFF d s rm _ _ => rmOk rm && d ≠ s
  | .fcvtIF _ _ rm _ _ => rmOk rm
  | .fcvtFI _ _ rm _ _ => rmOk rm
  | .csrRead op _ _ _ => op ≠ .rw
  | _ => true

/-- The event rows, which no word encodes. -/
def Instr.isEvent : Instr → Bool
  | .hookset | .hookret | .abort | .ecallUnknown => true
  | .registerWrite (.bar0 _ _) => true
  | .doorbellWrite _ _ | .hostBar2Access _ | .qconfig _ | .shootdown _ _ _ | .elideclr _ _
  | .commset _ _ | .powerlimit _ | .domainid _ | .aperture _ | .fwstage _ _ _ | .fwswitch
  | .qresume _ _ | .mailboxUnknownCode _ | .fwHeartbeat _ | .fwHeartbeatTimeout
  | .spdmGetVersion | .spdmGetCapabilities | .spdmNegotiateAlgorithms | .spdmGetDigests
  | .spdmGetCertificate _ _ | .spdmChallenge _ | .spdmGetMeasurements _ _ | .spdmKeyExchange _
  | .spdmFinish _ | .spdmEndSession | .keyLoad _ _ | .keyClear _ | .deviceReset
  | .bootComplete _ _ | .hbmTrainingComplete | .thermalThrottle _ | .thermalTrip
  | .powerLimitEnforce _ | .clockStretch _ | .recordReachesHead _ | .recordDispatchStart _
  | .hartAssign _ _ _ _ _ | .gangDispatch _ _ _ _ | .launchComplete _ | .pairComplete _
  | .coreReservationRelease _ | .queueAgeing _ | .quantumExpiry _ | .preemptionRequest _
  | .preemptDeadline _ _ | .gangSaveStart _ | .contextSaveComplete _ | .contextResume _ _
  | .sweeperVisit _ _ _ | .renewalPerform _ _ | .ringBlockRenewal _ | .l1DirtyWriteback _ _
  | .extensionBankRenewal _ _ | .l2LineRetention _ _ | .sectorPoisonDetect _ _ _
  | .scarabCommandBegin _ _ | .scarabPrefixAdvance _ _ _ | .scarabFault _ _
  | .scarabCommandComplete _ _ | .ordinalRegistration _ | .ordinalDeferredNumber _ _
  | .ordinalStartReport _ _ | .ordinalCancellation _ _ _ | .collectiveNotice _ _ _ _ _ _
  | .collectiveBegin _ _ | .collectiveEnd _ _ _ _ | .collectiveEngineFault _ _ _ _
  | .collectiveTimeout _ | .ccancelAnswerTimeout _ | .ordinalElection _ _ | .ordinalHeartbeat
  | .ordinalStandbyAckTimeout | .ordinalFailover | .ethernetRecordReceive _ _ _ | .sessionRekey _
  | .remoteAccessAtHome _ _ _ | .remoteReadTimeout _ _ _ _ | .remoteWriteUndeliverable _ _
  | .supplyRecovery _ | .domainFault | .ordinalReplication _ | .sessionKeyExchange _ _
  | .ethernetRetransmission _ _ => true
  | _ => false

/-- A term an instruction word can stand for (R92 to R100). Events have no word and are not asked about. -/
def Instr.wf : Instr → Bool
  | .pand pd _ _ | .por pd _ _ | .pxor pd _ _ | .pandn pd _ _ | .pnot pd _ | .pmov pd _
  | .psetn pd _ | .pwhile _ pd _ _ => pd ≠ 0
  | .vbfx v => !v.b.isImm
  | .vfadd v | .vfsub v | .vfmul v | .vfdiv v | .vfma v | .vfms v | .vfnma v
  | .vfmin v | .vfmax v | .vfsgnj v => !v.b.isImm
  | .vfscl v => v.b.isScalar
  | .vcmpeq v | .vcmpne v | .vcmplt v | .vcmple v | .vcmpltu v | .vcmpleu v => v.vd ≠ 0
  | .vfcmplt v | .vfcmple v => v.vd ≠ 0 && !v.b.isImm
  | .vcompress u _ => u.pg = 0
  | .vslideup v | .vslidedn v => !v.b.isVec
  | .vgather v => v.b.isVec
  | .vmv v => v.vs2 = 0
  | .vid u => u.vs2 = 0
  | .vldc m => m.mode.isRc && m.pg = 0
  | .vamoadd m | .vamomax m | .vamomin m => !m.mode.isTd
  | .rv op half => op.wf && (match half with | none => true | some h => (h.extractLsb' 0 2) ≠ 3#2)
  | .vtypeWrite a | .mfcWrite a | .vxiWrite a | .vvalidWrite a | .bdCsrWrite _ a => a.writes
  | .poolBoundaryWrite k a => a.writes && k ≠ 3
  | .registerWrite (.csr n a) => a.writes && !csrHasOwnRow n
  | _ => true

end Sys2Proof
end

