-- ==== Sys2Proof/Decode.lean ====
section
/-!
DEFINITION. The decoder (chapter 04, and the ratified RISC-V encodings that R103 names), total on any bytes and
rejecting by name, and after it the encoder, written from the same tables.
-/

namespace Sys2Proof

/-- Why a word is no instruction; the device raises illegal instruction on each (R3, R91 to R100). -/
inductive Reject
  | tooShort        -- fewer bytes than the instruction has
  | longEncoding    -- bits [4:2] are 111 (R91)
  | unassigned      -- an encoding the opcode map does not assign (R100)
  | reservedField   -- a nonzero bit or reserved value where the format has none (R3)
  | badScope        -- a scope code above 5 (R99)
  | outOfRange      -- a register field beyond its range (R96, R99)
  | badForm         -- a form or mode the table does not allow (R92)
  | destP0          -- a destination of p0 (R93)
  deriving DecidableEq, Repr

abbrev Dec := Except Reject Instr

/-- A field of an instruction word. -/
abbrev fld {n : Nat} (w : BitVec n) (lo len : Nat) : BitVec len := w.extractLsb' lo len

def scopeOf (n : Nat) : Option Scope :=
  match n with
  | 0 => some .hart | 1 => some .cluster | 2 => some .die | 3 => some .pkg | 4 => some .dom
  | 5 => some .sys | _ => none

def Scope.code : Scope → BitVec 3
  | .hart => 0 | .cluster => 1 | .die => 2 | .pkg => 3 | .dom => 4 | .sys => 5

def etypeOf (n : Nat) : Option EType :=
  match n with
  | 0 => some .i8 | 1 => some .i16 | 2 => some .i32 | 4 => some .f8 | 5 => some .bf16
  | 6 => some .f16 | 7 => some .f32 | _ => none

def EType.code : EType → Nat
  | .i8 => 0 | .i16 => 1 | .i32 => 2 | .f8 => 4 | .bf16 => 5 | .f16 => 6 | .f32 => 7

/-! ## The CTL opcode (Tables 04-5 and 04-12) -/

def mtOf (r : BitVec 5) : Option (BitVec 3) := if r.toNat < 8 then some (r.setWidth 3) else none

def aOperandOf (r : BitVec 5) : Option AOperand :=
  if r.toNat < 8 then some (.mt (r.setWidth 3)) else if r = 8 then some .latch else none

/-- Kind o of layout CE: aq, rl and S (R98). -/
def withOrder (w : BitVec 32) (k : Order → Dec) : Dec :=
  match scopeOf (fld w 25 3).toNat with
  | none => .error .badScope
  | some s => k { aq := bitAt w 11, rl := bitAt w 10, scope := s }

def need (b : Bool) (d : Dec) (r : Reject := .reservedField) : Dec := if b then d else .error r

def decodeCr (f3 : Nat) (w : BitVec 32) : Dec :=
  let rd := fld w 7 5
  let rs1 := fld w 15 5
  let rs2 := fld w 20 5
  match f3, (fld w 25 7).toNat with
  | 0, 0 => .ok (.vshape rd rs1 rs2)
  | 0, 1 => need (rs2 = 0) (.ok (.vsett rd rs1))
  | 0, 2 => need (rs2 = 0 && rs1 = 0) (.ok (.iter rd))
  | 0, 3 => need (rs2 = 0 && rs1 = 0 && rd = 0) (.ok .next)
  | 0, 4 => need (rs2 = 0 && rs1 = 0 && rd = 0) (.ok .endK)
  | 0, 5 => need (rs2 = 0 && rs1 = 0 && rd = 0) (.ok .yield)
  | 0, 6 => .ok (.clput rd rs1 rs2)
  | 0, 7 => need (rs2 = 0) (.ok (.clwait rd rs1))
  | 1, 0 => .ok (.clause rd rs1 rs2)
  | 3, 0 => need (rd = 0) (.ok (.spalloc rs1 rs2))
  | 3, 1 => need (rd = 0) (.ok (.spfree rs1 rs2))
  | 3, 2 => need (rd = 0) (.ok (.renew rs1 rs2))
  | 3, 3 => need (rs2 = 0) (.ok (.spage rd rs1))
  | 3, 4 => .ok (.pin rd rs1 rs2)
  | 3, 5 => need (rs2 = 0 && rd = 0) (.ok (.unpin rs1))
  | 7, 0 => need (rs2 = 0) (need (rd.toNat < 16) (.ok (.tdld (rd.setWidth 4) rs1)) .outOfRange)
  | _, _ => .error .unassigned

def decodeCf (w : BitVec 32) : Dec :=
  let rd := fld w 7 5
  let rs1 := fld w 15 5
  let sc := fld w 20 5
  match (fld w 25 7).toNat with
  | 4 => need (sc = 0 && rd = 0) (.ok (.bar rs1))
  | n =>
    need (n < 4) (need (rs1 = 0 && rd = 0)
      (match scopeOf sc.toNat with
       | none => .error .badScope
       | some s => .ok (if n = 0 then .fenceSv s else if n = 1 then .fenceVs s
                        else if n = 2 then .fenceVv s else .fenceAll s))) .unassigned

def decodeCe100 (w : BitVec 32) : Dec :=
  let rd := fld w 7 5
  let rs1 := fld w 15 5
  let rs2 := fld w 20 5
  let rt := fld w 7 3
  let sz := (fld w 25 3 = 0)
  match (fld w 28 4).toNat with
  | 0 => need (rt = 0) (withOrder w fun o => .ok (.stream o rs1 rs2))
  | 1 => need (rt = 0) (withOrder w fun o => .ok (.streamu o rs1 rs2))
  | 2 => need (rt = 0) (withOrder w fun o => need (!o.rl) (.ok (.cwait o.aq o.scope rs1 rs2)))
  | 3 => need (rt = 0) (withOrder w fun o => need (o.rl && !o.aq) (.ok (.cadd o.scope rs1 rs2)))
  | 4 => need sz (.ok (.rclaim rd rs1 rs2))
  | 5 => need (sz && rd = 0) (.ok (.rcommit rs1 rs2))
  | 6 => need sz (.ok (.rawait rd rs1 rs2))
  | 7 => need (sz && rd = 0) (.ok (.rretire rs1 rs2))
  | _ => .error .unassigned

/-- aq, rl and S fixed at zero. -/
def orderZero (w : BitVec 32) : Bool := fld w 25 3 = 0 && fld w 10 2 = 0

def accOf (rt : BitVec 3) (k : BitVec 2 → Dec) : Dec :=
  if rt.toNat < 4 then k (rt.setWidth 2) else .error .outOfRange

def decodeCe101 (w : BitVec 32) : Dec :=
  let rd := fld w 7 5
  let rs1 := fld w 15 5
  let rs2 := fld w 20 5
  let rt := fld w 7 3
  match (fld w 28 4).toNat with
  | 0 => need (fld w 25 3 = 0 && rs2 = 0) (.ok (.attach rd rs1))
  | 1 => need (fld w 25 3 = 0 && rs2 = 0 && rs1 = 0 && rd = 0) (.ok .detach)
  | 2 => withOrder w fun o => .ok (.mld o rt rs1 rs2)
  | 3 => need (rt = 0) (withOrder w fun o => .ok (.mldx o rs1 rs2))
  | 4 => need (rs2 = 0) (withOrder w fun o => .ok (.mlsc o rt rs1))
  | 5 => need (orderZero w) (accOf rt fun acc =>
      match aOperandOf rs1, mtOf rs2 with
      | some a, some b => .ok (.mma acc a b)
      | _, _ => .error .outOfRange)
  | 6 => need (orderZero w) (accOf rt fun acc =>
      match aOperandOf rs1 with
      | some a => .ok (.mrpt acc a rs2)
      | none => .error .outOfRange)
  | 7 => need (orderZero w) (accOf rt fun acc =>
      match aOperandOf rs1 with
      | some a => .ok (.msld acc a rs2)
      | none => .error .outOfRange)
  | 8 => withOrder w fun o => accOf rt fun acc => .ok (.mst o acc rs1 rs2)
  | 9 => need (orderZero w && rs1 = 0 && rs2 = 0) (accOf rt fun acc => .ok (.mzero acc))
  | 10 => need (orderZero w && rt = 0)
      (need (rs2.toNat < 16) (.ok (.bdset (rs2.setWidth 4) rs1)) .outOfRange)
  | 11 => need (rt = 0) (withOrder w fun o => .ok (.chnrun o rs1 rs2))
  | 12 => need (rt = 0) (withOrder w fun o => .ok (.chnstep o rs1 rs2))
  | _ => .error .unassigned

def decodeCe110 (w : BitVec 32) : Dec :=
  let rd := fld w 7 5
  let rs1 := fld w 15 5
  let rs2 := fld w 20 5
  let sz := (fld w 25 3 = 0)
  match (fld w 28 4).toNat with
  | 0 => need (fld w 7 3 = 0) (withOrder w fun o => .ok (.coll o rs1 rs2))
  | 1 => need (sz && rs2 = 0) (.ok (.ccancel rd rs1))
  | 2 => need (sz && rs2 = 0) (.ok (.cstat rd rs1))
  | 3 => need (sz && rd = 0) (.ok (.launch rs1 rs2))
  | 4 => need (sz && rd = 0 && rs2 = 0) (.ok (.splbar rs1))
  | _ => .error .unassigned

def decodeCtl (w : BitVec 32) : Dec :=
  match (fld w 12 3).toNat with
  | 2 => decodeCf w
  | 4 => decodeCe100 w
  | 5 => decodeCe101 w
  | 6 => decodeCe110 w
  | n => decodeCr n w

/-! ## The vector opcodes (Tables 04-2, 04-3, 04-6 to 04-9) -/

def src2Of (w : BitVec 32) : Option Src2 :=
  match (fld w 25 2).toNat with
  | 0 => some (.vv (fld w 12 5))
  | 1 => some (.vx (fld w 12 5))
  | 2 => some (.vi (fld w 12 5))
  | _ => none

def vopOf (w : BitVec 32) (b : Src2) : VOp :=
  { c := bitAt w 27, pg := fld w 22 3, vd := fld w 7 5, vs2 := fld w 17 5, b := b }

def uopOf (w : BitVec 32) : UOp :=
  { c := bitAt w 27, pg := fld w 22 3, vd := fld w 7 5, vs2 := fld w 17 5 }

/-- Forms 00, 01 and 10, or a refusal for form 11. -/
def withSrc (w : BitVec 32) (ok : Src2 → Bool) (k : VOp → Instr) : Dec :=
  match src2Of w with
  | some b => if ok b then .ok (k (vopOf w b)) else .error .badForm
  | none => .error .badForm

def decodeVint (w : BitVec 32) : Dec :=
  let any := fun (_ : Src2) => true
  let sub := (fld w 12 5).toNat
  let u := uopOf w
  if fld w 25 2 = 3 then
    (if (fld w 28 4) ≠ 0 then .error .unassigned
     else match sub with
      | 0 => .ok (.vpopc u) | 1 => .ok (.vclz u) | 2 => .ok (.vfshl u) | 3 => .ok (.vfshr u)
      | _ => .error .unassigned)
  else match (fld w 28 4).toNat with
    | 0 => withSrc w any .vadd | 1 => withSrc w any .vsub
    | 2 => withSrc w any .vmul | 3 => withSrc w any .vmulh
    | 4 => withSrc w any .vmin | 5 => withSrc w any .vmax
    | 6 => withSrc w any .vminu | 7 => withSrc w any .vmaxu
    | 8 => withSrc w any .vand | 9 => withSrc w any .vor | 10 => withSrc w any .vxor
    | 11 => withSrc w any .vsll | 12 => withSrc w any .vsrl | 13 => withSrc w any .vsra
    | 14 => withSrc w any .vsadd
    | _ => withSrc w (fun b => !b.isImm) .vbfx

def decodeVflt (w : BitVec 32) : Dec :=
  let ni := fun (b : Src2) => !b.isImm
  let sub := (fld w 12 5).toNat
  let u := uopOf w
  if fld w 25 2 = 3 then
    (if (fld w 28 4) ≠ 0 then .error .unassigned
     else match sub with
      | 0 => .ok (.vfsqrt u) | 1 => .ok (.vfexp2 u) | 2 => .ok (.vfabs u)
      | 3 => .ok (.vfneg u) | 4 => .ok (.vfrnd u)
      | _ => .error .unassigned)
  else match (fld w 28 4).toNat with
    | 0 => withSrc w ni .vfadd | 1 => withSrc w ni .vfsub
    | 2 => withSrc w ni .vfmul | 3 => withSrc w ni .vfdiv
    | 4 => withSrc w ni .vfma | 5 => withSrc w ni .vfms | 6 => withSrc w ni .vfnma
    | 7 => withSrc w ni .vfmin | 8 => withSrc w ni .vfmax | 9 => withSrc w ni .vfsgnj
    | 10 => withSrc w (fun _ => true) .vfscale
    | 11 => withSrc w Src2.isScalar .vfscl
    | _ => .error .unassigned

def decodeVprm (w : BitVec 32) : Dec :=
  let any := fun (_ : Src2) => true
  let form3 := fld w 25 2 = 3#2
  let sub := (fld w 12 5).toNat
  let u := uopOf w
  let cmp (ok : Src2 → Bool) (k : VOp → Instr) : Dec :=
    match withSrc w ok k with
    | .ok i => need (fld w 7 5 ≠ 0) (.ok i) .destP0
    | .error e => .error e
  match (fld w 28 4).toNat with
  | 0 => cmp any .vcmpeq | 1 => cmp any .vcmpne | 2 => cmp any .vcmplt | 3 => cmp any .vcmple
  | 4 => cmp any .vcmpltu | 5 => cmp any .vcmpleu
  | 6 => cmp (fun b => !b.isImm) .vfcmplt | 7 => cmp (fun b => !b.isImm) .vfcmple
  | 8 => need form3 (need (u.pg = 0) (.ok (.vcompress u (fld w 12 5)))) .badForm
  | 9 => withSrc w (fun b => !b.isVec) .vslideup
  | 10 => withSrc w (fun b => !b.isVec) .vslidedn
  | 11 => withSrc w Src2.isVec .vgather
  | 12 => need form3 (match sub with
      | 0 => .ok (.vredsum u) | 1 => .ok (.vredmax u) | 2 => .ok (.vredmin u)
      | 3 => .ok (.vfredsum u) | 4 => .ok (.vfredmax u)
      | _ => .error .unassigned) .badForm
  | 13 => need form3 (match etypeOf sub with
      | some t => .ok (.vcvt u t)
      | none => .error .unassigned) .badForm
  | 14 => match withSrc w any .vmv with
      | .ok i => need (fld w 17 5 = 0) (.ok i)
      | .error e => .error e
  | _ => need form3 (match sub with
      | 0 => .ok (.viota u)
      | 1 => need (u.vs2 = 0) (.ok (.vid u))
      | 2 => .ok (.vtrans u)
      | _ => .error .unassigned) .badForm

def vmodeOf (w : BitVec 32) : Option VMode :=
  let r := fld w 17 5
  match (fld w 25 2).toNat with
  | 0 => some (.rc r)
  | 1 => some (.es r)
  | 2 => some (.ix r)
  | _ => if r.toNat < 16 then some (.td (r.setWidth 4)) else none

def withMode (w : BitVec 32) (ok : VMode → Bool) (k : MOp → Instr) : Dec :=
  match vmodeOf w with
  | none => .error .outOfRange
  | some m => if ok m then
      .ok (k { c := bitAt w 27, pg := fld w 22 3, vd := fld w 7 5, base := fld w 12 5, mode := m })
    else .error .badForm

def sopOf (w : BitVec 32) : SOp :=
  { c := bitAt w 27, pg := fld w 22 3, n8 := fld w 7 5, base := fld w 12 5, stride := fld w 17 5 }

def decodeVmem (w : BitVec 32) : Dec :=
  match (fld w 28 4).toNat with
  | 0 => withMode w (fun _ => true) .vld
  | 1 => withMode w (fun _ => true) .vst
  | 2 => match withMode w VMode.isRc .vldc with
      | .ok i => need (fld w 22 3 = 0) (.ok i)
      | .error e => .error e
  | 3 => need (fld w 25 2 = 0) (.ok (.vlsc (sopOf w))) .badForm
  | 4 => need (fld w 25 2 = 0) (.ok (.vssc (sopOf w))) .badForm
  | 5 => withMode w (fun m => !m.isTd) .vamoadd
  | 6 => withMode w (fun m => !m.isTd) .vamomax
  | 7 => withMode w (fun m => !m.isTd) .vamomin
  | _ => .error .unassigned

/-! ## Predicates and predicate branches (Tables 04-4, 04-10, 04-11) -/

def decodePred (w : BitVec 32) : Dec :=
  let pd := fld w 7 6
  let p1 := fld w 13 6
  let p2 := fld w 19 6
  let f3 := fld w 25 3
  let x6 (r : BitVec 6) (k : BitVec 5 → Dec) : Dec :=
    if r.toNat < 32 then k (r.setWidth 5) else .error .outOfRange
  let dst (d : Dec) : Dec := need (pd ≠ 0) d .destP0
  match (fld w 28 4).toNat with
  | 0 => need (f3 = 0) (dst (.ok (.pand pd p1 p2)))
  | 1 => need (f3 = 0) (dst (.ok (.por pd p1 p2)))
  | 2 => need (f3 = 0) (dst (.ok (.pxor pd p1 p2)))
  | 3 => need (f3 = 0) (dst (.ok (.pandn pd p1 p2)))
  | 4 => need (f3 = 0 && p2 = 0) (dst (.ok (.pnot pd p1)))
  | 5 => need (f3 = 0 && p2 = 0) (dst (.ok (.pmov pd p1)))
  | 6 => need (f3 = 0 && p1 = 0) (x6 p2 fun r => dst (.ok (.psetn pd r)))
  | 7 => x6 p1 fun a => x6 p2 fun b =>
      match f3.toNat with
      | 0 => dst (.ok (.pwhile .lt pd a b)) | 1 => dst (.ok (.pwhile .le pd a b))
      | 2 => dst (.ok (.pwhile .ltu pd a b)) | 3 => dst (.ok (.pwhile .leu pd a b))
      | _ => .error .reservedField
  | 8 => need (f3 = 0 && pd = 0) (x6 p2 fun r => .ok (.ppopc r p1))
  | 9 => need (f3 = 0 && pd = 0) (x6 p2 fun r => .ok (.pfirst r p1))
  | 10 => need (f3 = 0 && pd = 0) (x6 p2 fun r => .ok (.psum r p1))
  | _ => .error .unassigned

def decodePbr (w : BitVec 32) : Dec :=
  let ps := fld w 10 6
  let off := fld w 16 16
  match (fld w 7 3).toNat with
  | 0 => .ok (.bany ps off) | 1 => .ok (.ball ps off)
  | 2 => .ok (.bnone ps off) | 3 => .ok (.bnall ps off)
  | _ => .error .unassigned

/-! ## The RV64 base (R103): the ratified encodings -/

def rv (op : Rv) : Dec := .ok (.rv op none)

def brOpOf (n : Nat) : Option BrOp :=
  match n with
  | 0 => some .eq | 1 => some .ne | 4 => some .lt | 5 => some .ge | 6 => some .ltu | 7 => some .geu
  | _ => none

def ldOpOf (n : Nat) : Option LdOp :=
  match n with
  | 0 => some .lb | 1 => some .lh | 2 => some .lw | 3 => some .ld | 4 => some .lbu | 5 => some .lhu
  | 6 => some .lwu | _ => none

def stOpOf (n : Nat) : Option StOp :=
  match n with
  | 0 => some .sb | 1 => some .sh | 2 => some .sw | 3 => some .sd | _ => none

/-- Register-register operations by function code: (funct7, funct3). -/
def aluOpOf (f7 f3 : Nat) : Option AluOp :=
  match f7, f3 with
  | 0x00, 0 => some .add | 0x20, 0 => some .sub | 0x00, 1 => some .sll | 0x00, 2 => some .slt
  | 0x00, 3 => some .sltu | 0x00, 4 => some .xor | 0x00, 5 => some .srl | 0x20, 5 => some .sra
  | 0x00, 6 => some .or | 0x00, 7 => some .and
  | 0x01, 0 => some .mul | 0x01, 1 => some .mulh | 0x01, 2 => some .mulhsu | 0x01, 3 => some .mulhu
  | 0x01, 4 => some .div | 0x01, 5 => some .divu | 0x01, 6 => some .rem | 0x01, 7 => some .remu
  | 0x10, 2 => some .sh1add | 0x10, 4 => some .sh2add | 0x10, 6 => some .sh3add
  | 0x20, 7 => some .andn | 0x20, 6 => some .orn | 0x20, 4 => some .xnor
  | 0x05, 4 => some .min | 0x05, 5 => some .minu | 0x05, 6 => some .max | 0x05, 7 => some .maxu
  | 0x30, 1 => some .rol | 0x30, 5 => some .ror
  | _, _ => none

def alu32Of (f7 f3 : Nat) (rd rs1 rs2 : BitVec 5) : Option Rv :=
  match f7, f3 with
  | 0x00, 0 => some (.aluW .addw rd rs1 rs2) | 0x20, 0 => some (.aluW .subw rd rs1 rs2)
  | 0x00, 1 => some (.aluW .sllw rd rs1 rs2) | 0x00, 5 => some (.aluW .srlw rd rs1 rs2)
  | 0x20, 5 => some (.aluW .sraw rd rs1 rs2)
  | 0x01, 0 => some (.aluW .mulw rd rs1 rs2) | 0x01, 4 => some (.aluW .divw rd rs1 rs2)
  | 0x01, 5 => some (.aluW .divuw rd rs1 rs2) | 0x01, 6 => some (.aluW .remw rd rs1 rs2)
  | 0x01, 7 => some (.aluW .remuw rd rs1 rs2)
  | 0x30, 1 => some (.aluW .rolw rd rs1 rs2) | 0x30, 5 => some (.aluW .rorw rd rs1 rs2)
  | 0x04, 0 => some (.alu .addUw rd rs1 rs2)
  | 0x10, 2 => some (.alu .sh1addUw rd rs1 rs2) | 0x10, 4 => some (.alu .sh2addUw rd rs1 rs2)
  | 0x10, 6 => some (.alu .sh3addUw rd rs1 rs2)
  | 0x04, 4 => if rs2 = 0 then some (.un .zextH rd rs1) else none
  | _, _ => none

def opImmOf (w : BitVec 32) : Option Rv :=
  let rd := fld w 7 5
  let rs1 := fld w 15 5
  let imm := fld w 20 12
  let sh := fld w 20 6
  match (fld w 12 3).toNat with
  | 0 => some (.opImm .addi rd rs1 imm)
  | 2 => some (.opImm .slti rd rs1 imm)
  | 3 => some (.opImm .sltiu rd rs1 imm)
  | 4 => some (.opImm .xori rd rs1 imm)
  | 6 => some (.opImm .ori rd rs1 imm)
  | 7 => some (.opImm .andi rd rs1 imm)
  | 1 =>
    if fld w 26 6 = 0 then some (.shImm .slli rd rs1 sh)
    else match imm.toNat with
      | 0x600 => some (.un .clz rd rs1) | 0x601 => some (.un .ctz rd rs1)
      | 0x602 => some (.un .cpop rd rs1) | 0x604 => some (.un .sextB rd rs1)
      | 0x605 => some (.un .sextH rd rs1)
      | _ => none
  | _ =>
    match (fld w 26 6).toNat with
    | 0x00 => some (.shImm .srli rd rs1 sh)
    | 0x10 => some (.shImm .srai rd rs1 sh)
    | 0x18 => some (.shImm .rori rd rs1 sh)
    | _ => match imm.toNat with
      | 0x287 => some (.un .orcB rd rs1)
      | 0x6B8 => some (.un .rev8 rd rs1)
      | _ => none

def opImm32Of (w : BitVec 32) : Option Rv :=
  let rd := fld w 7 5
  let rs1 := fld w 15 5
  let sh := fld w 20 5
  match (fld w 12 3).toNat, (fld w 25 7).toNat with
  | 0, _ => some (.addiw rd rs1 (fld w 20 12))
  | 1, 0x00 => some (.shImmW .slliw rd rs1 sh)
  | 1, 0x30 =>
    match sh.toNat with
    | 0 => some (.un .clzw rd rs1) | 1 => some (.un .ctzw rd rs1) | 2 => some (.un .cpopw rd rs1)
    | _ => none
  | 5, 0x00 => some (.shImmW .srliw rd rs1 sh)
  | 5, 0x20 => some (.shImmW .sraiw rd rs1 sh)
  | 5, 0x30 => some (.shImmW .roriw rd rs1 sh)
  | 1, _ => if fld w 26 6 = 2 then some (.shImm .slliUw rd rs1 (fld w 20 6)) else none
  | _, _ => none

def ffmtOf (n : Nat) : Option FFmt :=
  match n with
  | 0 => some .s | 1 => some .d | _ => none

def ifmtOf (n : Nat) : Option IFmt :=
  match n with
  | 0 => some .w | 1 => some .wu | 2 => some .l | 3 => some .lu | _ => none

/-- The OP-FP opcode, by funct7. -/
def opFpOf (w : BitVec 32) : Option Rv :=
  let rd := fld w 7 5
  let rs1 := fld w 15 5
  let rs2 := fld w 20 5
  let rm := fld w 12 3
  match ffmtOf (fld w 25 2).toNat with
  | none => none
  | some f =>
    let rounded (r : Rv) : Option Rv := if rmOk rm then some r else none
    match (fld w 27 5).toNat with
    | 0x00 => rounded (.farith .add f rm rd rs1 rs2)
    | 0x01 => rounded (.farith .sub f rm rd rs1 rs2)
    | 0x02 => rounded (.farith .mul f rm rd rs1 rs2)
    | 0x03 => rounded (.farith .div f rm rd rs1 rs2)
    | 0x0B => if rs2 = 0 then rounded (.fsqrt f rm rd rs1) else none
    | 0x04 => match rm.toNat with
      | 0 => some (.fsgnj .sgnj f rd rs1 rs2) | 1 => some (.fsgnj .sgnjn f rd rs1 rs2)
      | 2 => some (.fsgnj .sgnjx f rd rs1 rs2) | _ => none
    | 0x05 => match rm.toNat with
      | 0 => some (.fminmax false f rd rs1 rs2) | 1 => some (.fminmax true f rd rs1 rs2) | _ => none
    | 0x14 => match rm.toNat with
      | 0 => some (.fcmp .le f rd rs1 rs2) | 1 => some (.fcmp .lt f rd rs1 rs2)
      | 2 => some (.fcmp .eq f rd rs1 rs2) | _ => none
    | 0x08 => match ffmtOf rs2.toNat with
      | some s => if s ≠ f then rounded (.fcvtFF f s rm rd rs1) else none
      | none => none
    | 0x18 => match ifmtOf rs2.toNat with
      | some i => rounded (.fcvtIF i f rm rd rs1)
      | none => none
    | 0x1A => match ifmtOf rs2.toNat with
      | some i => rounded (.fcvtFI f i rm rd rs1)
      | none => none
    | 0x1C => if rs2 = 0 then (match rm.toNat with
      | 0 => some (.fmvXF f rd rs1) | 1 => some (.fclass f rd rs1) | _ => none) else none
    | 0x1E => if rs2 = 0 && rm = 0 then some (.fmvFX f rd rs1) else none
    | _ => none

def amoOpOf (n : Nat) : Option AmoOp :=
  match n with
  | 0x01 => some .swap | 0x00 => some .add | 0x04 => some .xor | 0x0C => some .and | 0x08 => some .or
  | 0x10 => some .min | 0x14 => some .max | 0x18 => some .minu | 0x1C => some .maxu | _ => none

def amoOf (w : BitVec 32) : Option Rv :=
  let rd := fld w 7 5
  let rs1 := fld w 15 5
  let rs2 := fld w 20 5
  let aq := bitAt w 26
  let rl := bitAt w 25
  match (match (fld w 12 3).toNat with | 2 => some false | 3 => some true | _ => none) with
  | none => none
  | some d =>
    match (fld w 27 5).toNat with
    | 2 => if rs2 = 0 then some (.lr d aq rl rd rs1) else none
    | 3 => some (.sc d aq rl rd rs1 rs2)
    | n => (amoOpOf n).map fun op => .amo op d aq rl rd rs1 rs2

/-- A CSR instruction: a read alone, or the row that its write belongs to. -/
def csrInstr (op : CsrOp) (rd : BitVec 5) (src : CsrSrc) (csr : BitVec 12) : Instr :=
  let a : CsrAcc := { op := op, rd := rd, src := src }
  if a.writes then
    if csr = 0x800#12 then .vtypeWrite a
    else if csr = 0x801#12 then .mfcWrite a
    else if csr = 0x802#12 then .vxiWrite a
    else if csr = 0x805#12 then .vvalidWrite a
    else if 0x810 ≤ csr.toNat ∧ csr.toNat < 0x820 then .bdCsrWrite (csr.setWidth 4) a
    else if 0x7C0 ≤ csr.toNat ∧ csr.toNat ≤ 0x7C2 then .poolBoundaryWrite (csr.setWidth 2) a
    else .registerWrite (.csr csr a)
  else .rv (.csrRead op (match src with | .imm _ => true | .reg _ => false) rd csr) none

def decodeSystem (w : BitVec 32) : Dec :=
  let rd := fld w 7 5
  let r := fld w 15 5
  let csr := fld w 20 12
  match (fld w 12 3).toNat with
  | 0 => if w = 0x00000073#32 then rv .ecall
         else if w = 0x00100073#32 then rv .ebreak
         else if w = 0x30200073#32 then .ok .mret
         else if w = 0x10500073#32 then rv .wfi
         else .error .unassigned
  | 1 => .ok (csrInstr .rw rd (.reg r) csr)
  | 2 => .ok (csrInstr .rs rd (.reg r) csr)
  | 3 => .ok (csrInstr .rc rd (.reg r) csr)
  | 5 => .ok (csrInstr .rw rd (.imm r) csr)
  | 6 => .ok (csrInstr .rs rd (.imm r) csr)
  | 7 => .ok (csrInstr .rc rd (.imm r) csr)
  | _ => .error .unassigned

def decodeFma (op : FmaOp) (w : BitVec 32) : Dec :=
  match ffmtOf (fld w 25 2).toNat with
  | some f => need (rmOk (fld w 12 3))
      (rv (.fma op f (fld w 12 3) (fld w 7 5) (fld w 15 5) (fld w 20 5) (fld w 27 5)))
  | none => .error .unassigned

def ofOpt (o : Option Rv) : Dec :=
  match o with
  | some r => rv r
  | none => .error .unassigned

/-- The 32-bit words of the RV64 base, by major opcode. -/
def decodeBase (w : BitVec 32) : Dec :=
  let rd := fld w 7 5
  let rs1 := fld w 15 5
  let rs2 := fld w 20 5
  let f3 := (fld w 12 3).toNat
  match (fld w 0 7).toNat with
  | 0x37 => rv (.lui rd (fld w 12 20))
  | 0x17 => rv (.auipc rd (fld w 12 20))
  | 0x6F => rv (.jal rd (fld w 31 1 ++ fld w 12 8 ++ fld w 20 1 ++ fld w 21 10))
  | 0x67 => need (f3 = 0) (rv (.jalr rd rs1 (fld w 20 12))) .unassigned
  | 0x63 => match brOpOf f3 with
      | some b => rv (.branch b rs1 rs2 (fld w 31 1 ++ fld w 7 1 ++ fld w 25 6 ++ fld w 8 4))
      | none => .error .unassigned
  | 0x03 => match ldOpOf f3 with
      | some l => rv (.load l rd rs1 (fld w 20 12))
      | none => .error .unassigned
  | 0x23 => match stOpOf f3 with
      | some st => rv (.store st rs1 rs2 (fld w 25 7 ++ fld w 7 5))
      | none => .error .unassigned
  | 0x13 => ofOpt (opImmOf w)
  | 0x1B => ofOpt (opImm32Of w)
  | 0x33 => match aluOpOf (fld w 25 7).toNat f3 with
      | some a => rv (.alu a rd rs1 rs2)
      | none => .error .unassigned
  | 0x3B => ofOpt (alu32Of (fld w 25 7).toNat f3 rd rs1 rs2)
  | 0x0F => if f3 = 0 then rv (.fence (fld w 28 4) (fld w 24 4) (fld w 20 4) rd rs1)
            else if f3 = 1 then rv (.fenceI (fld w 20 12) rd rs1) else .error .unassigned
  | 0x73 => decodeSystem w
  | 0x2F => ofOpt (amoOf w)
  | 0x07 => if f3 = 2 then rv (.fload .s rd rs1 (fld w 20 12))
            else if f3 = 3 then rv (.fload .d rd rs1 (fld w 20 12)) else .error .unassigned
  | 0x27 => if f3 = 2 then rv (.fstore .s rs1 rs2 (fld w 25 7 ++ fld w 7 5))
            else if f3 = 3 then rv (.fstore .d rs1 rs2 (fld w 25 7 ++ fld w 7 5)) else .error .unassigned
  | 0x43 => decodeFma .madd w
  | 0x47 => decodeFma .msub w
  | 0x4B => decodeFma .nmsub w
  | 0x4F => decodeFma .nmadd w
  | 0x53 => ofOpt (opFpOf w)
  | _ => .error .unassigned

/-! ## Compressed instructions (RV64C with D) -/

/-- One bit of a halfword, as a number at a place. -/
def hb (h : BitVec 16) (i place : Nat) : Nat := if bitAt h i then 2 ^ place else 0

/-- Several bits of a halfword gathered into an immediate. -/
def gather (h : BitVec 16) : List (Nat × Nat) → Nat
  | [] => 0
  | (i, p) :: t => hb h i p + gather h t

/-- A compressed register field x8 to x15. -/
def creg (h : BitVec 16) (lo : Nat) : BitVec 5 := 1#2 ++ fld h lo 3

/-- The signed 6-bit immediate of format CI. -/
def ci6 (h : BitVec 16) : BitVec 12 := (fld h 12 1 ++ fld h 2 5).signExtend 12

def decodeQ0 (h : BitVec 16) : Option Rv :=
  let rd' := creg h 2
  let rs1' := creg h 7
  let d := BitVec.ofNat 12 (gather h [(10, 3), (11, 4), (12, 5), (5, 6), (6, 7)])
  let wd := BitVec.ofNat 12 (gather h [(6, 2), (10, 3), (11, 4), (12, 5), (5, 6)])
  match (fld h 13 3).toNat with
  | 0 =>
    let imm := gather h [(6, 2), (5, 3), (11, 4), (12, 5), (7, 6), (8, 7), (9, 8), (10, 9)]
    if imm = 0 then none else some (.opImm .addi rd' 2 (BitVec.ofNat 12 imm))
  | 1 => some (.fload .d rd' rs1' d)
  | 2 => some (.load .lw rd' rs1' wd)
  | 3 => some (.load .ld rd' rs1' d)
  | 5 => some (.fstore .d rs1' rd' d)
  | 6 => some (.store .sw rs1' rd' wd)
  | 7 => some (.store .sd rs1' rd' d)
  | _ => none

def decodeQ1 (h : BitVec 16) : Option Rv :=
  let rd := fld h 7 5
  let rd' := creg h 7
  let rs2' := creg h 2
  let sh : BitVec 6 := fld h 12 1 ++ fld h 2 5
  let cb := (BitVec.ofNat 8 (gather h [(3, 0), (4, 1), (10, 2), (11, 3), (2, 4), (5, 5), (6, 6), (12, 7)])).signExtend 12
  match (fld h 13 3).toNat with
  | 0 => some (.opImm .addi rd rd (ci6 h))
  | 1 => if rd = 0 then none else some (.addiw rd rd (ci6 h))
  | 2 => some (.opImm .addi rd 0 (ci6 h))
  | 3 =>
    if sh = 0 then none
    else if rd = 2 then
      some (.opImm .addi 2 2
        ((BitVec.ofNat 10 (gather h [(6, 4), (2, 5), (5, 6), (3, 7), (4, 8), (12, 9)])).signExtend 12))
    else some (.lui rd (sh.signExtend 20))
  | 4 =>
    match (fld h 10 2).toNat, bitAt h 12, (fld h 5 2).toNat with
    | 0, _, _ => some (.shImm .srli rd' rd' sh)
    | 1, _, _ => some (.shImm .srai rd' rd' sh)
    | 2, _, _ => some (.opImm .andi rd' rd' (ci6 h))
    | _, false, 0 => some (.alu .sub rd' rd' rs2')
    | _, false, 1 => some (.alu .xor rd' rd' rs2')
    | _, false, 2 => some (.alu .or rd' rd' rs2')
    | _, false, _ => some (.alu .and rd' rd' rs2')
    | _, true, 0 => some (.aluW .subw rd' rd' rs2')
    | _, true, 1 => some (.aluW .addw rd' rd' rs2')
    | _, true, _ => none
  | 5 => some (.jal 0 ((BitVec.ofNat 11 (gather h
      [(3, 0), (4, 1), (5, 2), (11, 3), (2, 4), (7, 5), (6, 6), (9, 7), (10, 8), (8, 9), (12, 10)])).signExtend 20))
  | 6 => some (.branch .eq rd' 0 cb)
  | _ => some (.branch .ne rd' 0 cb)

def decodeQ2 (h : BitVec 16) : Option Rv :=
  let rd := fld h 7 5
  let rs2 := fld h 2 5
  let ldsp := BitVec.ofNat 12 (gather h [(5, 3), (6, 4), (12, 5), (2, 6), (3, 7), (4, 8)])
  let lwsp := BitVec.ofNat 12 (gather h [(4, 2), (5, 3), (6, 4), (12, 5), (2, 6), (3, 7)])
  let sdsp := BitVec.ofNat 12 (gather h [(10, 3), (11, 4), (12, 5), (7, 6), (8, 7), (9, 8)])
  let swsp := BitVec.ofNat 12 (gather h [(9, 2), (10, 3), (11, 4), (12, 5), (7, 6), (8, 7)])
  match (fld h 13 3).toNat with
  | 0 => some (.shImm .slli rd rd (fld h 12 1 ++ fld h 2 5))
  | 1 => some (.fload .d rd 2 ldsp)
  | 2 => if rd = 0 then none else some (.load .lw rd 2 lwsp)
  | 3 => if rd = 0 then none else some (.load .ld rd 2 ldsp)
  | 4 =>
    if !bitAt h 12 then
      (if rs2 = 0 then (if rd = 0 then none else some (.jalr 0 rd 0)) else some (.alu .add rd 0 rs2))
    else if rs2 = 0 then (if rd = 0 then some .ebreak else some (.jalr 1 rd 0))
    else some (.alu .add rd rd rs2)
  | 5 => some (.fstore .d 2 rs2 sdsp)
  | 6 => some (.store .sw 2 rs2 swsp)
  | _ => some (.store .sd 2 rs2 sdsp)

/-- What a compressed halfword stands for. -/
def expandHalf (h : BitVec 16) : Option Rv :=
  match (fld h 0 2).toNat with
  | 0 => decodeQ0 h
  | 1 => decodeQ1 h
  | 2 => decodeQ2 h
  | _ => none

def decodeHalf (h : BitVec 16) : Dec :=
  match expandHalf h with
  | some op => .ok (.rv op (some h))
  | none => .error .unassigned

/-- A 32-bit word, by major opcode (Table 04-1; every other opcode is the RV64 base's). -/
def decodeWord (w : BitVec 32) : Dec :=
  if fld w 2 3 = 7 then .error .longEncoding
  else match (fld w 0 7).toNat with
    | 0x0B => decodeCtl w
    | 0x2B => decodeVmem w
    | 0x5B => decodeVint w
    | 0x7B => decodeVflt w
    | 0x57 => decodeVprm w
    | 0x6B => decodePred w
    | 0x77 => decodePbr w
    | _ => decodeBase w

/-- Is this first halfword a compressed instruction (R91)? -/
def isHalf (h : BitVec 16) : Bool := fld h 0 2 ≠ 3#2

/-- The instruction that a list of bytes begins with, and the bytes after it. -/
def decode (bs : List Byte) : Except Reject (Instr × List Byte) :=
  match bs with
  | b0 :: b1 :: rest =>
    let h : BitVec 16 := b1 ++ b0
    if isHalf h then
      match decodeHalf h with
      | .ok i => .ok (i, rest)
      | .error e => .error e
    else match rest with
      | b2 :: b3 :: rest' =>
        match decodeWord (b3 ++ b2 ++ b1 ++ b0) with
        | .ok i => .ok (i, rest')
        | .error e => .error e
      | _ => .error .tooShort
  | _ => .error .tooShort

/-- The bytes, in memory order, of an instruction whose bits are `w`; 4 bytes, the bits above `nbits` zero. -/
def tableBytes (nbits w : Nat) : List Byte := toBytes 4 (w % 2 ^ nbits)

/-- The instruction the decoder reads from a word numbered as spec/opcode_table.json numbers it. -/
def decodeTableWord (nbits w : Nat) : Option Instr :=
  match decode (tableBytes nbits w) with
  | .ok (i, _) => some i
  | .error _ => none

/-! ## The encoder -/

/-- Layout CR, and the other R-type layouts (Table 04-5). -/
def encR (f7 : BitVec 7) (rs2 rs1 : BitVec 5) (f3 : BitVec 3) (rd : BitVec 5) (op : BitVec 7) : BitVec 32 :=
  f7 ++ rs2 ++ rs1 ++ f3 ++ rd ++ op

def encI (imm : BitVec 12) (rs1 : BitVec 5) (f3 : BitVec 3) (rd : BitVec 5) (op : BitVec 7) : BitVec 32 :=
  imm ++ rs1 ++ f3 ++ rd ++ op

/-- Layout CE, kind d. -/
def encCd (f4 : BitVec 4) (rs2 rs1 : BitVec 5) (f3 : BitVec 3) (rd : BitVec 5) : BitVec 32 :=
  f4 ++ 0#3 ++ rs2 ++ rs1 ++ f3 ++ rd ++ 0x0B#7

/-- Layout CE, kind o. -/
def encCo (f4 : BitVec 4) (o : Order) (rs2 rs1 : BitVec 5) (f3 : BitVec 3) (rt : BitVec 3) : BitVec 32 :=
  f4 ++ o.scope.code ++ rs2 ++ rs1 ++ f3 ++ BitVec.ofBool o.aq ++ BitVec.ofBool o.rl ++ rt ++ 0x0B#7

def noOrder : Order := { aq := false, rl := false, scope := .hart }

def encCf (f7 : BitVec 7) (s : Scope) : BitVec 32 :=
  f7 ++ 0#2 ++ s.code ++ 0#5 ++ 2#3 ++ 0#5 ++ 0x0B#7

def Src2.form : Src2 → BitVec 2
  | .vv _ => 0 | .vx _ => 1 | .vi _ => 2

def Src2.field : Src2 → BitVec 5
  | .vv r => r | .vx r => r | .vi i => i

def encV (f4 : BitVec 4) (v : VOp) (op : BitVec 7) : BitVec 32 :=
  f4 ++ BitVec.ofBool v.c ++ v.b.form ++ v.pg ++ v.vs2 ++ v.b.field ++ v.vd ++ op

def encU (f4 : BitVec 4) (u : UOp) (sub : BitVec 5) (op : BitVec 7) : BitVec 32 :=
  f4 ++ BitVec.ofBool u.c ++ 3#2 ++ u.pg ++ u.vs2 ++ sub ++ u.vd ++ op

def VMode.form : VMode → BitVec 2
  | .rc _ => 0 | .es _ => 1 | .ix _ => 2 | .td _ => 3

def VMode.field : VMode → BitVec 5
  | .rc r => r | .es r => r | .ix r => r | .td n => n.setWidth 5

def encM (f4 : BitVec 4) (m : MOp) : BitVec 32 :=
  f4 ++ BitVec.ofBool m.c ++ m.mode.form ++ m.pg ++ m.mode.field ++ m.base ++ m.vd ++ 0x2B#7

def encS (f4 : BitVec 4) (m : SOp) : BitVec 32 :=
  f4 ++ BitVec.ofBool m.c ++ 0#2 ++ m.pg ++ m.stride ++ m.base ++ m.n8 ++ 0x2B#7

def encP (f4 : BitVec 4) (f3 : BitVec 3) (p2 p1 pd : BitVec 6) : BitVec 32 :=
  f4 ++ f3 ++ p2 ++ p1 ++ pd ++ 0x6B#7

def encB (off : BitVec 16) (ps : BitVec 6) (cond : BitVec 3) : BitVec 32 :=
  off ++ ps ++ cond ++ 0x77#7

def AOperand.field : AOperand → BitVec 5
  | .mt n => n.setWidth 5
  | .latch => 8

def x5 (r : BitVec 5) : BitVec 6 := r.setWidth 6

def WhileCond.code : WhileCond → BitVec 3
  | .lt => 0 | .le => 1 | .ltu => 2 | .leu => 3

def EType.field (t : EType) : BitVec 5 := BitVec.ofNat 5 t.code

/-- The word of a Celvin instruction (Tables 04-6 to 04-12); none for the other rows. -/
def encodeCelvin : Instr → Option (BitVec 32)
  | .vshape rd a b => some (encR 0 b a 0 rd 0x0B)
  | .vsett rd a => some (encR 1 0 a 0 rd 0x0B)
  | .iter rd => some (encR 2 0 0 0 rd 0x0B)
  | .next => some (encR 3 0 0 0 0 0x0B)
  | .endK => some (encR 4 0 0 0 0 0x0B)
  | .yield => some (encR 5 0 0 0 0 0x0B)
  | .clput rd a b => some (encR 6 b a 0 rd 0x0B)
  | .clwait rd a => some (encR 7 0 a 0 rd 0x0B)
  | .clause xm xt n => some (encR 0 n xt 1 xm 0x0B)
  | .fenceSv s => some (encCf 0 s)
  | .fenceVs s => some (encCf 1 s)
  | .fenceVv s => some (encCf 2 s)
  | .fenceAll s => some (encCf 3 s)
  | .bar a => some (encR 4 0 a 2 0 0x0B)
  | .spalloc a b => some (encR 0 b a 3 0 0x0B)
  | .spfree a b => some (encR 1 b a 3 0 0x0B)
  | .renew a b => some (encR 2 b a 3 0 0x0B)
  | .spage rd a => some (encR 3 0 a 3 rd 0x0B)
  | .pin rd a b => some (encR 4 b a 3 rd 0x0B)
  | .unpin a => some (encR 5 0 a 3 0 0x0B)
  | .stream o a b => some (encCo 0 o b a 4 0)
  | .streamu o a b => some (encCo 1 o b a 4 0)
  | .cwait aq s a b => some (encCo 2 { aq := aq, rl := false, scope := s } b a 4 0)
  | .cadd s a b => some (encCo 3 { aq := false, rl := true, scope := s } b a 4 0)
  | .rclaim rd a b => some (encCd 4 b a 4 rd)
  | .rcommit a b => some (encCd 5 b a 4 0)
  | .rawait rd a b => some (encCd 6 b a 4 rd)
  | .rretire a b => some (encCd 7 b a 4 0)
  | .attach rd a => some (encCd 0 0 a 5 rd)
  | .detach => some (encCd 1 0 0 5 0)
  | .mld o mt a b => some (encCo 2 o b a 5 mt)
  | .mldx o a vs => some (encCo 3 o vs a 5 0)
  | .mlsc o mt a => some (encCo 4 o 0 a 5 mt)
  | .mma acc a b => some (encCo 5 noOrder (b.setWidth 5) a.field 5 (acc.setWidth 3))
  | .mrpt acc a b => some (encCo 6 noOrder b a.field 5 (acc.setWidth 3))
  | .msld acc a b => some (encCo 7 noOrder b a.field 5 (acc.setWidth 3))
  | .mst o acc a b => some (encCo 8 o b a 5 (acc.setWidth 3))
  | .mzero acc => some (encCo 9 noOrder 0 0 5 (acc.setWidth 3))
  | .bdset n a => some (encCo 10 noOrder (n.setWidth 5) a 5 0)
  | .chnrun o a b => some (encCo 11 o b a 5 0)
  | .chnstep o a b => some (encCo 12 o b a 5 0)
  | .coll o a b => some (encCo 0 o b a 6 0)
  | .ccancel rd a => some (encCd 1 0 a 6 rd)
  | .cstat rd a => some (encCd 2 0 a 6 rd)
  | .launch a b => some (encCd 3 b a 6 0)
  | .splbar a => some (encCd 4 0 a 6 0)
  | .tdld td a => some (encR 0 0 a 7 (td.setWidth 5) 0x0B)
  | .bany ps off => some (encB off ps 0)
  | .ball ps off => some (encB off ps 1)
  | .bnone ps off => some (encB off ps 2)
  | .bnall ps off => some (encB off ps 3)
  | .pand d a b => some (encP 0 0 b a d)
  | .por d a b => some (encP 1 0 b a d)
  | .pxor d a b => some (encP 2 0 b a d)
  | .pandn d a b => some (encP 3 0 b a d)
  | .pnot d a => some (encP 4 0 0 a d)
  | .pmov d a => some (encP 5 0 0 a d)
  | .psetn d r => some (encP 6 0 (x5 r) 0 d)
  | .pwhile c d a b => some (encP 7 c.code (x5 b) (x5 a) d)
  | .ppopc r a => some (encP 8 0 (x5 r) a 0)
  | .pfirst r a => some (encP 9 0 (x5 r) a 0)
  | .psum r a => some (encP 10 0 (x5 r) a 0)
  | .vadd v => some (encV 0 v 0x5B) | .vsub v => some (encV 1 v 0x5B)
  | .vmul v => some (encV 2 v 0x5B) | .vmulh v => some (encV 3 v 0x5B)
  | .vmin v => some (encV 4 v 0x5B) | .vmax v => some (encV 5 v 0x5B)
  | .vminu v => some (encV 6 v 0x5B) | .vmaxu v => some (encV 7 v 0x5B)
  | .vand v => some (encV 8 v 0x5B) | .vor v => some (encV 9 v 0x5B)
  | .vxor v => some (encV 10 v 0x5B) | .vsll v => some (encV 11 v 0x5B)
  | .vsrl v => some (encV 12 v 0x5B) | .vsra v => some (encV 13 v 0x5B)
  | .vsadd v => some (encV 14 v 0x5B) | .vbfx v => some (encV 15 v 0x5B)
  | .vpopc u => some (encU 0 u 0 0x5B) | .vclz u => some (encU 0 u 1 0x5B)
  | .vfshl u => some (encU 0 u 2 0x5B) | .vfshr u => some (encU 0 u 3 0x5B)
  | .vfadd v => some (encV 0 v 0x7B) | .vfsub v => some (encV 1 v 0x7B)
  | .vfmul v => some (encV 2 v 0x7B) | .vfdiv v => some (encV 3 v 0x7B)
  | .vfma v => some (encV 4 v 0x7B) | .vfms v => some (encV 5 v 0x7B)
  | .vfnma v => some (encV 6 v 0x7B) | .vfmin v => some (encV 7 v 0x7B)
  | .vfmax v => some (encV 8 v 0x7B) | .vfsgnj v => some (encV 9 v 0x7B)
  | .vfscale v => some (encV 10 v 0x7B) | .vfscl v => some (encV 11 v 0x7B)
  | .vfsqrt u => some (encU 0 u 0 0x7B) | .vfexp2 u => some (encU 0 u 1 0x7B)
  | .vfabs u => some (encU 0 u 2 0x7B) | .vfneg u => some (encU 0 u 3 0x7B)
  | .vfrnd u => some (encU 0 u 4 0x7B)
  | .vcmpeq v => some (encV 0 v 0x57) | .vcmpne v => some (encV 1 v 0x57)
  | .vcmplt v => some (encV 2 v 0x57) | .vcmple v => some (encV 3 v 0x57)
  | .vcmpltu v => some (encV 4 v 0x57) | .vcmpleu v => some (encV 5 v 0x57)
  | .vfcmplt v => some (encV 6 v 0x57) | .vfcmple v => some (encV 7 v 0x57)
  | .vcompress u ps => some (encU 8 u ps 0x57)
  | .vslideup v => some (encV 9 v 0x57) | .vslidedn v => some (encV 10 v 0x57)
  | .vgather v => some (encV 11 v 0x57)
  | .vredsum u => some (encU 12 u 0 0x57) | .vredmax u => some (encU 12 u 1 0x57)
  | .vredmin u => some (encU 12 u 2 0x57) | .vfredsum u => some (encU 12 u 3 0x57)
  | .vfredmax u => some (encU 12 u 4 0x57)
  | .vcvt u t => some (encU 13 u t.field 0x57)
  | .vmv v => some (encV 14 v 0x57)
  | .viota u => some (encU 15 u 0 0x57) | .vid u => some (encU 15 u 1 0x57)
  | .vtrans u => some (encU 15 u 2 0x57)
  | .vld m => some (encM 0 m) | .vst m => some (encM 1 m) | .vldc m => some (encM 2 m)
  | .vlsc m => some (encS 3 m) | .vssc m => some (encS 4 m)
  | .vamoadd m => some (encM 5 m) | .vamomax m => some (encM 6 m) | .vamomin m => some (encM 7 m)
  | _ => none

def BrOp.code : BrOp → BitVec 3
  | .eq => 0 | .ne => 1 | .lt => 4 | .ge => 5 | .ltu => 6 | .geu => 7
def LdOp.code : LdOp → BitVec 3
  | .lb => 0 | .lh => 1 | .lw => 2 | .ld => 3 | .lbu => 4 | .lhu => 5 | .lwu => 6
def StOp.code : StOp → BitVec 3
  | .sb => 0 | .sh => 1 | .sw => 2 | .sd => 3
def ImmOp.code : ImmOp → BitVec 3
  | .addi => 0 | .slti => 2 | .sltiu => 3 | .xori => 4 | .ori => 6 | .andi => 7

/-- funct7, funct3 and major opcode of a register-register operation. -/
def AluOp.codes : AluOp → BitVec 7 × BitVec 3 × BitVec 7
  | .add => (0x00, 0, 0x33) | .sub => (0x20, 0, 0x33) | .sll => (0x00, 1, 0x33) | .slt => (0x00, 2, 0x33)
  | .sltu => (0x00, 3, 0x33) | .xor => (0x00, 4, 0x33) | .srl => (0x00, 5, 0x33) | .sra => (0x20, 5, 0x33)
  | .or => (0x00, 6, 0x33) | .and => (0x00, 7, 0x33)
  | .mul => (0x01, 0, 0x33) | .mulh => (0x01, 1, 0x33) | .mulhsu => (0x01, 2, 0x33) | .mulhu => (0x01, 3, 0x33)
  | .div => (0x01, 4, 0x33) | .divu => (0x01, 5, 0x33) | .rem => (0x01, 6, 0x33) | .remu => (0x01, 7, 0x33)
  | .sh1add => (0x10, 2, 0x33) | .sh2add => (0x10, 4, 0x33) | .sh3add => (0x10, 6, 0x33)
  | .addUw => (0x04, 0, 0x3B) | .sh1addUw => (0x10, 2, 0x3B) | .sh2addUw => (0x10, 4, 0x3B)
  | .sh3addUw => (0x10, 6, 0x3B)
  | .andn => (0x20, 7, 0x33) | .orn => (0x20, 6, 0x33) | .xnor => (0x20, 4, 0x33)
  | .max => (0x05, 6, 0x33) | .maxu => (0x05, 7, 0x33) | .min => (0x05, 4, 0x33) | .minu => (0x05, 5, 0x33)
  | .rol => (0x30, 1, 0x33) | .ror => (0x30, 5, 0x33)

def AluWOp.codes : AluWOp → BitVec 7 × BitVec 3
  | .addw => (0x00, 0) | .subw => (0x20, 0) | .sllw => (0x00, 1) | .srlw => (0x00, 5) | .sraw => (0x20, 5)
  | .mulw => (0x01, 0) | .divw => (0x01, 4) | .divuw => (0x01, 5) | .remw => (0x01, 6) | .remuw => (0x01, 7)
  | .rolw => (0x30, 1) | .rorw => (0x30, 5)

/-- The 12-bit function code, funct3 and major opcode of a one-operand operation. -/
def UnOp.codes : UnOp → BitVec 12 × BitVec 3 × BitVec 7
  | .clz => (0x600, 1, 0x13) | .ctz => (0x601, 1, 0x13) | .cpop => (0x602, 1, 0x13)
  | .clzw => (0x600, 1, 0x1B) | .ctzw => (0x601, 1, 0x1B) | .cpopw => (0x602, 1, 0x1B)
  | .sextB => (0x604, 1, 0x13) | .sextH => (0x605, 1, 0x13) | .zextH => (0x080, 4, 0x3B)
  | .orcB => (0x287, 5, 0x13) | .rev8 => (0x6B8, 5, 0x13)

def FFmt.code : FFmt → BitVec 2
  | .s => 0 | .d => 1
def IFmt.code : IFmt → BitVec 5
  | .w => 0 | .wu => 1 | .l => 2 | .lu => 3
def CsrOp.code : CsrOp → BitVec 3
  | .rw => 1 | .rs => 2 | .rc => 3

def encCsr (a : CsrAcc) (csr : BitVec 12) : BitVec 32 :=
  match a.src with
  | .reg r => encI csr r a.op.code a.rd 0x73
  | .imm z => encI csr z (a.op.code ||| 4) a.rd 0x73

def encFp (f5 : BitVec 5) (f : FFmt) (rs2 rs1 : BitVec 5) (rm : BitVec 3) (rd : BitVec 5) : BitVec 32 :=
  encR (f5 ++ f.code) rs2 rs1 rm rd 0x53

def encAmo (f5 : BitVec 5) (d aq rl : Bool) (rd rs1 rs2 : BitVec 5) : BitVec 32 :=
  encR (f5 ++ BitVec.ofBool aq ++ BitVec.ofBool rl) rs2 rs1 (if d then 3 else 2) rd 0x2F

def AmoOp.code : AmoOp → BitVec 5
  | .swap => 0x01 | .add => 0x00 | .xor => 0x04 | .and => 0x0C | .or => 0x08
  | .min => 0x10 | .max => 0x14 | .minu => 0x18 | .maxu => 0x1C

/-- The 32-bit word of a scalar instruction. -/
def encodeRv : Rv → BitVec 32
  | .lui rd imm => imm ++ rd ++ 0x37#7
  | .auipc rd imm => imm ++ rd ++ 0x17#7
  | .jal rd o => fld o 19 1 ++ fld o 0 10 ++ fld o 10 1 ++ fld o 11 8 ++ rd ++ 0x6F#7
  | .jalr rd rs1 imm => encI imm rs1 0 rd 0x67
  | .branch op rs1 rs2 o =>
      fld o 11 1 ++ fld o 4 6 ++ rs2 ++ rs1 ++ op.code ++ fld o 0 4 ++ fld o 10 1 ++ 0x63#7
  | .load op rd rs1 imm => encI imm rs1 op.code rd 0x03
  | .store op rs1 rs2 imm => encR (fld imm 5 7) rs2 rs1 op.code (fld imm 0 5) 0x23
  | .opImm op rd rs1 imm => encI imm rs1 op.code rd 0x13
  | .shImm op rd rs1 sh =>
      match op with
      | .slli => encI (0x00#6 ++ sh) rs1 1 rd 0x13
      | .srli => encI (0x00#6 ++ sh) rs1 5 rd 0x13
      | .srai => encI (0x10#6 ++ sh) rs1 5 rd 0x13
      | .rori => encI (0x18#6 ++ sh) rs1 5 rd 0x13
      | .slliUw => encI (0x02#6 ++ sh) rs1 1 rd 0x1B
  | .addiw rd rs1 imm => encI imm rs1 0 rd 0x1B
  | .shImmW op rd rs1 sh =>
      match op with
      | .slliw => encR 0x00 sh rs1 1 rd 0x1B
      | .srliw => encR 0x00 sh rs1 5 rd 0x1B
      | .sraiw => encR 0x20 sh rs1 5 rd 0x1B
      | .roriw => encR 0x30 sh rs1 5 rd 0x1B
  | .alu op rd rs1 rs2 => encR op.codes.1 rs2 rs1 op.codes.2.1 rd op.codes.2.2
  | .aluW op rd rs1 rs2 => encR op.codes.1 rs2 rs1 op.codes.2 rd 0x3B
  | .un op rd rs1 => encI op.codes.1 rs1 op.codes.2.1 rd op.codes.2.2
  | .fence fm p s rd rs1 => encI (fm ++ p ++ s) rs1 0 rd 0x0F
  | .fenceI imm rd rs1 => encI imm rs1 1 rd 0x0F
  | .ecall => 0x00000073#32
  | .ebreak => 0x00100073#32
  | .wfi => 0x10500073#32
  | .csrRead op viaImm rd csr => encI csr 0 (op.code ||| (if viaImm then 4 else 0)) rd 0x73
  | .lr d aq rl rd rs1 => encAmo 2 d aq rl rd rs1 0
  | .sc d aq rl rd rs1 rs2 => encAmo 3 d aq rl rd rs1 rs2
  | .amo op d aq rl rd rs1 rs2 => encAmo op.code d aq rl rd rs1 rs2
  | .fload f rd rs1 imm => encI imm rs1 (match f with | .s => 2 | .d => 3) rd 0x07
  | .fstore f rs1 rs2 imm => encR (fld imm 5 7) rs2 rs1 (match f with | .s => 2 | .d => 3) (fld imm 0 5) 0x27
  | .farith op f rm rd rs1 rs2 =>
      encFp (match op with | .add => 0 | .sub => 1 | .mul => 2 | .div => 3) f rs2 rs1 rm rd
  | .fsqrt f rm rd rs1 => encFp 0x0B f 0 rs1 rm rd
  | .fma op f rm rd rs1 rs2 rs3 => encR (rs3 ++ f.code) rs2 rs1 rm rd
      (match op with | .madd => 0x43 | .msub => 0x47 | .nmsub => 0x4B | .nmadd => 0x4F)
  | .fsgnj op f rd rs1 rs2 =>
      encFp 0x04 f rs2 rs1 (match op with | .sgnj => 0 | .sgnjn => 1 | .sgnjx => 2) rd
  | .fminmax mx f rd rs1 rs2 => encFp 0x05 f rs2 rs1 (if mx then 1 else 0) rd
  | .fcmp op f rd rs1 rs2 => encFp 0x14 f rs2 rs1 (match op with | .le => 0 | .lt => 1 | .eq => 2) rd
  | .fclass f rd rs1 => encFp 0x1C f 0 rs1 1 rd
  | .fcvtFF d s rm rd rs1 => encFp 0x08 d (match s with | .s => 0 | .d => 1) rs1 rm rd
  | .fcvtIF i f rm rd rs1 => encFp 0x18 f i.code rs1 rm rd
  | .fcvtFI f i rm rd rs1 => encFp 0x1A f i.code rs1 rm rd
  | .fmvXF f rd rs1 => encFp 0x1C f 0 rs1 0 rd
  | .fmvFX f rd rs1 => encFp 0x1E f 0 rs1 0 rd

/-- The bytes of an instruction, as the hardware stores them; none for a row that has no word. -/
def encode : Instr → Option (List Byte)
  | .rv _ (some h) => some (toBytes 2 h.toNat)
  | .rv op none => some (toBytes 4 (encodeRv op).toNat)
  | .mret => some (toBytes 4 0x30200073)
  | .vtypeWrite a => some (toBytes 4 (encCsr a 0x800).toNat)
  | .mfcWrite a => some (toBytes 4 (encCsr a 0x801).toNat)
  | .vxiWrite a => some (toBytes 4 (encCsr a 0x802).toNat)
  | .vvalidWrite a => some (toBytes 4 (encCsr a 0x805).toNat)
  | .bdCsrWrite n a => some (toBytes 4 (encCsr a (0x81#8 ++ n)).toNat)
  | .poolBoundaryWrite k a => some (toBytes 4 (encCsr a (0x1F0#10 ++ k)).toNat)
  | .registerWrite (.csr n a) => some (toBytes 4 (encCsr a n).toNat)
  | i => (encodeCelvin i).map fun w => toBytes 4 w.toNat

end Sys2Proof
end

