-- ==== Sys2Proof/Config.lean ====
section
/-!
DEFINITION. What an implementation fixes, and the free values: constants with no body, for what the spec
leaves undefined (R2) or to the implementation.
-/

namespace Sys2Proof.Config

/-- The free value of width `w` number `i` of draw `k`: what R2 calls an undefined value. Nothing constrains
it. A draw is one event that leaves values undefined; `State.freeCtr` numbers the draws (DESIGN CHOICE log 4). -/
opaque freeValue (k i w : Nat) : BitVec w

/-- What an opaque choice of the device picks: number `i` of draw `k` (R25, R216: the distributor's
choices software must not depend on) (DESIGN CHOICE log 4). -/
opaque freeChoice (k i : Nat) : Nat

/-- SHA-256 of a byte list, 32 bytes as one number (R294, R297); the spec names the algorithm and does not
restate it (DESIGN CHOICE log 40). -/
opaque sha256 (bs : List Byte) : BitVec 256

/-- ECDSA P-256 over SHA-256: does the image bear a signature under the fused key (R294)? (DESIGN CHOICE log 40) -/
opaque signatureValid (image : List Byte) : Bool

/-- The security version an image states (R294) (DESIGN CHOICE log 40). -/
opaque securityVersion (image : List Byte) : Nat

/-- The signature the identity key makes over a transcript digest (R297) (DESIGN CHOICE log 40). -/
opaque identitySign (digest : BitVec 256) : BitVec 512

/-- The shared secret of an ECDHE exchange on P-256 (R297): from the device's share number and the peer's
share (DESIGN CHOICE log 40). -/
opaque ecdhe (k : Nat) (peer : BitVec 512) : BitVec 256

/-- What FINISH must carry: the HMAC that both ends derive from the secret and the transcript (R297) (DESIGN CHOICE log 40). -/
opaque finishMac (secret : BitVec 256) (transcript : List Byte) : BitVec 256

/-- Does an AES-256-GCM record authenticate under a session key (R276, R297)? (DESIGN CHOICE log 40) -/
opaque gcmValid (key : BitVec 256) (nonce : BitVec 96) (rec : List Byte) : Bool

/-- The plaintext that an authenticated record yields (R276, R297) (DESIGN CHOICE log 40). -/
opaque gcmOpen (key : BitVec 256) (nonce : BitVec 96) (rec : List Byte) : List Byte

/-- Digests fixed at manufacture: the ROM (measurement 1) and the fuses (measurement 5) (R297) (DESIGN CHOICE log 40). -/
opaque romDigest : BitVec 256
opaque fuseDigest : BitVec 256

/-- The certificate chain in slot 0 (R297) (DESIGN CHOICE log 40). -/
opaque certificateChain : List Byte

/-- The security version the fuses hold as a minimum (R294) (DESIGN CHOICE log 40). -/
opaque fusedMinimum : Nat

/-- Is a key loaded at the memory controllers of another package at a tick (check 5 of Table 07-2)? That package's key table
is not part of this one's state (DESIGN CHOICE log 13). -/
opaque keyLoadedAt (home key time : Nat) : Bool

/-- AES-XTS-256 over one 32-byte sector under a key, with the sector's number as its tweak (R151), set beside the boot firmware's key 0:
what a reader under key 0 finds where these 256 bits were written under the key. The spec names the cipher and does not restate it
(DESIGN CHOICE log 28). -/
opaque xts (key : BitVec 512) (sector : Nat) : BitVec 256 ≃ BitVec 256

/-- What a key index stands for at another package's memory controllers (R151): that key table is not part of this package's state
(DESIGN CHOICE log 28). -/
opaque keyAbroad (home key : Nat) : BitVec 512

/-- Does a package answer what the front end of this one asks of it at a tick (R277)? (DESIGN CHOICE log 13) -/
opaque answers (home time : Nat) : Bool

/-- Where in a queue's save area the image of a context stands: R207 gives the area and not the place (DESIGN CHOICE log 31). -/
opaque imageOffset (ctx : Nat) : Nat

/-- The bytes of one part of a context image (0 scalar, 1 vector, 2 scratchpad, 3 contraction unit): R207 leaves its layout to the
profile versions (DESIGN CHOICE log 31). -/
opaque imagePart (ctx part : Nat) : List Byte

/-- The bytes of a section of the handover structure (0 the queue states, 1 the elision records and barriers, 2 the saved
contexts) that says these numbers: Table 18-5 gives what a section holds and not its layout (DESIGN CHOICE log 36). -/
opaque handoverSection (part : Nat) (data : List Nat) : List Byte

/-- Does a delivered Ethernet record carry this contribution of a rank to the collective of this number? R276 gives the transport
and not the records' layout (DESIGN CHOICE log 39). -/
opaque recordCarries (rec : List Byte) (num rank : Nat) (elems : List (BitVec 32)) (poisoned : List Bool) : Bool

/-- The sectors whose last bytes the L2 alone held at a thermal trip: R19 loses the L2 and keeps HBM, and no rule says what had been
written back (DESIGN CHOICE log 37). -/
opaque dirtySectors (k : Nat) : List Nat

/-- Do these physical pages, pinned together, leave every L2 slice at most four pinned ways (R146)? The spec
does not say which lines share a slice's sets (DESIGN CHOICE log 18). -/
opaque pinWaysFit (pages : List Nat) : Bool

/-- `misa`: RV64 with I, M, A, F, D, C and U (R103); read-only (PRESUMED log 7). -/
def misa : Word := 0x8000000000000000#64 ||| 0x0010112D#64

/-- Table 01-3. -/
def mvendorid : Word := 0#64
/-- Table 01-3. -/
def marchid : Word := 0x8000000000004B39#64
/-- Table 01-3. -/
def mimpid : Word := 0x100#64

/-- Where a hart fetches after device reset: the spec gives none (DESIGN CHOICE log 3). -/
def resetPc : Word := 0#64

/-- The address `mtvec` holds after device reset: the spec gives none (DESIGN CHOICE log 3). -/
def resetMtvec : Word := 0#64

end Sys2Proof.Config
end

