-- ==== Sys2Proof/Machine/State.lean ====
section
/-!
DEFINITION. The state of the package as plain data: everything the spec gives the machine, the outcome types of
a step, and the state right after device reset.
-/

namespace Sys2Proof.Machine

/-! ## Tables with a fill -/

/-- What an unlisted entry of a `File` holds: zero, or the free values of draw `k` (R2). -/
inductive Fill
  | zero
  | free (k : Nat)
  deriving DecidableEq, Repr

/-- A register file of `w`-bit entries: the entries written, and what the others hold. -/
structure File (w : Nat) where
  data : Tab (BitVec w)
  fill : Fill
  deriving DecidableEq, Repr

def File.zero {w : Nat} : File w := { data := [], fill := .zero }

/-- A file whose every entry is undefined: the free values of draw `k` (R2). -/
def File.undef {w : Nat} (k : Nat) : File w := { data := [], fill := .free k }

/-- What an entry that nothing has written holds. -/
def Fill.value (f : Fill) (i w : Nat) : BitVec w :=
  match f with
  | .zero => 0
  | .free k => Config.freeValue k i w

def File.get {w : Nat} (f : File w) (i : Nat) : BitVec w := (f.data.get? i).getD (f.fill.value i w)

def File.set {w : Nat} (f : File w) (i : Nat) (v : BitVec w) : File w := { f with data := f.data.put i v }

/-! ## A hart -/

/-- The privilege modes (R103). -/
inductive Mode | m | u
  deriving DecidableEq, Repr

/-- What a hart is doing: held by nothing, running, retired with its core reservation not yet released
(R318), saved and waiting for its save to end (R203), or stopped by the end of its launch (R186). -/
inductive HartStatus | free | running | retired | saving
  deriving DecidableEq, Repr

/-- The functional units of Table 04-1 (R41). -/
inductive VUnit | vmem | vint | vflt | vprm | pred
  deriving DecidableEq, Repr

/-- One 256-byte block of a scratchpad (R135, R136): its 256 bytes, and the poison of its eight sectors
(R196). An unwritten block has `live` false. -/
structure Block where
  live : Bool
  expired : Bool
  stamp : BitVec 10
  data : File 8
  poison : List Nat
  deriving DecidableEq, Repr

/-- One captured word of a clause with its captured scalar operands: `a` the form-01 operand or memory base, `b`
the row pitch, element stride, byte budget or second operand (R44, R336). -/
structure ClauseOp where
  word : BitVec 32
  a : Word
  b : Word
  deriving DecidableEq, Repr

/-- A CLPUT not yet in force: body word, first pass it serves, the operand (R47, R313). -/
structure ClausePut where
  k : Nat
  pass : Nat
  value : Word
  deriving DecidableEq, Repr

/-- Clause state (R49): the address of body word 0, the words, the advance mask, the trip count, the passes
completed, the body word that is next within the present pass, whether that pass has begun, where the scalar core
stands while a trap holds the clause stopped and the mode in which it does, and the mode of the CLAUSE, in which the words run. -/
structure Clause where
  pc : Word
  ops : List ClauseOp
  mask : Word
  trips : Nat
  done : Nat
  cur : Nat
  begun : Bool
  puts : List ClausePut
  stopped : Option Word
  heldIn : Mode
  mode : Mode
  fenced : Bool               -- a fence that does not wait has passed it: the vector instruction after it starts a convoy (R41)
  deriving DecidableEq, Repr

/-- The operand types of the contraction unit (R237). -/
inductive TileTy | f8 | bf16 | i8
  deriving DecidableEq, Repr

/-- A contraction-unit grant (R234 to R237): the rows, the quarters taken, the tiles' bytes (register n at
16,384 n), their types, the latch, the scales (register n at 128 n, the latch at 1,024), the accumulators
(acc n at 16,384 n), the check column (R193). -/
structure Grant where
  rows : Nat
  quarters : List Nat
  mt : File 8
  types : List (Option TileTy)
  latch : File 8
  latchTy : Option TileTy
  sc : File 32
  acc : File 40
  checkCol : Nat
  deriving DecidableEq, Repr

/-- The hook's save-area copy (R256). -/
structure HookSave where
  x : File 64
  f : File 64
  fcsr : BitVec 8
  mepc : Word
  vxi : Nat
  mcause : Word
  kcause : Word
  faddr : Word
  deriving DecidableEq, Repr

/-- A hart's place in a launch: the launch's number, the key, whether the hart is in setup, which kernel of a
spliced pair runs (false for A), the iteration held, the step of the spliced loop (u, j) (R221), the stack
slot (R290), the base of the cluster reservation, the shadows of the pair's persistent registers (R222). -/
structure Job where
  launch : Nat
  key : List Nat
  inSetup : Bool
  inB : Bool
  iter : Option (List Nat)
  stepU : Nat
  stepJ : Nat
  slot : Option Nat
  shadowAx : File 64
  shadowAf : File 64
  shadowBx : File 64
  shadowBf : File 64
  since : Nat
  deriving DecidableEq, Repr

/-- A mismatch the Weevil lane or the check column meets, from the environment (R190 to R193): the element or
k-block, whether a replay disagrees again, and whether it concerns the check column. -/
structure Upset where
  elem : Nat
  persistent : Bool
  column : Bool
  deriving DecidableEq, Repr

/-- One range queued for renewal: its blocks that were live when it was queued, and the tick at which it reached the front,
its place there from when the range before it was served (R140, R141). -/
structure RenewRange where
  blocks : List Nat
  since : Nat
  deriving DecidableEq, Repr

/-- The answer CCANCEL waits for (R264). -/
structure CancelWait where
  comm : Nat
  tag : Nat
  reg : Nat                 -- the registration it names
  left : Option (List Nat)  -- once that has ended, the answers that another hub die's Ordinal may still give
  rd : BitVec 5
  since : Nat
  deriving DecidableEq, Repr

/-- The agents of a hart whose view a write belongs to (R169, R174): its scalar side, its vector side, its contraction unit. -/
inductive Agent | scalar | vector | array
  deriving DecidableEq, Repr

/-- A write to another package's memory that was not delivered (R278): who made it, the agents whose releases cover it, its
address, the tick at which it was made. -/
structure LostWrite where
  writer : Writer
  views : List Agent
  va : Word
  since : Nat
  deriving DecidableEq, Repr

/-- A remote access that gets no answer (R277): its kind, its element, its address, and, once it has been made, the tick at which it was. -/
structure Unanswered where
  kind : RemoteKind
  elem : Nat
  va : Word
  since : Option Nat
  deriving DecidableEq, Repr

/-- The architectural state of one hart. -/
structure Hart where
  id : Nat                    -- mhartid (R13)
  status : HartStatus
  mode : Mode
  pc : Word
  x : File 64                 -- x1 to x31
  f : File 64                 -- f0 to f31
  fcsr : BitVec 8             -- frm [7:5], fflags [4:0]
  mstatus : Word
  mtvec : Word
  mscratch : Word
  mepc : Word
  mcause : Word
  mtval : Word
  mie : Word
  mip : Word
  mcounteren : Word
  mcountinhibit : Word
  mcycle : Word
  minstret : Word
  reservation : Option (Nat × Nat)   -- LR reservation: memory key, bytes
  -- vector unit
  vtype : Word                -- Table 02-1
  mfc : Word                  -- Table 07-5
  vxi : Nat                   -- R34
  vfflags : Word              -- Table 05-3
  vvsel : Word                -- Table 05-6
  vhint : Word                -- Table 06-9
  vcbytes : Word              -- Table 07-7
  vshp : Word                 -- Table 02-2
  vpoiscnt : Word             -- Table 09-3
  vregs : File 8              -- byte o of vn at n C + o
  preds : File 8192
  sf : File 32
  masks : File 64             -- validity masks (R121)
  td : File 512               -- tensor descriptors (R155)
  tdAddr : File 64            -- the addresses they were loaded from (R154)
  convoy : List VUnit         -- units of the open convoy (R41)
  freshConvoy : Bool          -- the next vector instruction starts a convoy
  rotation : BitVec 5         -- R189
  clause : Option Clause
  -- pool, scratchpad
  poolv : Word
  pools : Word
  poolc : Word
  pool : Tab Block            -- block b of the core's 1 MiB pool
  renewQ : List RenewRange    -- R141
  -- traps, pre-emption
  preq : Word                 -- Table 09-4
  kcause : Word               -- Table 04-17
  korigin : Word
  faddr : Word
  hook : Option Word          -- R255
  hookSave : Option HookSave  -- some: inside a hook
  -- launch
  job : Option Job
  idx : List (BitVec 32)      -- IDX0 to IDX5
  idxlin : Word
  -- contraction unit, collectives
  bd : List (BitVec 13)       -- bd0 to bd15
  chstep : BitVec 12
  grant : Option Grant
  cancel : Option CancelWait
  -- poisoned sectors that the instruction cache holds, with their sub-causes, until a FENCE.I (R390)
  ipoison : List (Nat × Nat)
  -- the model's own latches
  ir : BitVec 32              -- the word being executed (R102)
  upsets : List Upset         -- the environment's mismatches, next first
  skipped : List (Nat × Nat)  -- element ranges that M-mode writes of VXI passed over (R184)
  stopAt : Option Nat         -- an element boundary at which a forced pre-emption falls (R59)
  atOnce : Bool               -- it came back by MRET with DL passed: the request is taken at once (R201)
  pollPoison : Bool           -- a poll of the CWAIT that waits was poisoned and read zero (R307)
  boundaryWait : Bool         -- a write of POOLV, POOLS or POOLC waits (R129, R206)
  remoteFault : Option Unanswered   -- a remote access of this hart that waits for an answer that does not come (R277)
  deriving DecidableEq, Repr

/-! ## Memory -/

/-- A poisoned sector of memory: in HBM (SUB 1) or in the L2 (SUB 2) (R196). -/
inductive PoisonSite | hbm | l2
  deriving DecidableEq, Repr

/-! ## Clusters -/

/-- An open barrier generation (R175): the launch, its count, the harts waiting. -/
structure Generation where
  launch : Nat
  count : Nat
  waiting : List Nat
  deriving DecidableEq, Repr

/-- A cluster reservation of a launch: window kernel (false for A, true for B of a pair), base and bytes within
the 8 MiB (R134, R223). -/
structure Resv where
  launch : Nat
  isB : Bool
  base : Nat
  size : Nat
  deriving DecidableEq, Repr

/-- How an engine reaches memory on behalf of the hart that issued its command: the queue's root, the hart, its
launch, the windows of the body that issued it (R134, R223). -/
structure Via where
  hart : Nat
  launch : Nat
  inB : Bool
  key : List Nat
  iter : Option (List Nat)
  inSetup : Bool
  deriving DecidableEq, Repr

/-- A Scarab command (R161 to R165). -/
structure ScarabCmd where
  id : Nat
  via : Via
  order : Order
  unfold : Bool
  src : Nat
  dst : Nat
  sstr : Int
  dstr : Int
  count : Nat               -- elements of the destination
  esz : Nat
  shape : List Nat          -- STREAMU: H W C KH KW SH SW DH DW PH PW
  status : Nat
  counter : Nat
  begun : Bool
  since : Nat               -- the tick at which it began
  landed : Nat              -- elements landed, which the counter covers
  tainted : List Nat        -- destination sectors (by virtual address) that took poison
  deriving DecidableEq, Repr

structure Cluster where
  spad : Tab Block          -- 8 MiB, block b
  resvs : List Resv
  renewQ : List RenewRange
  gens : List Generation
  scarab : List ScarabCmd   -- queued and running, issue order
  deriving DecidableEq, Repr

/-- A retention slot of a die (R145): the launch, pages, virtual page. -/
structure PinSlot where
  launch : Nat
  queue : Nat
  pages : Nat
  va : Nat
  pas : List Nat            -- physical pages
  deriving DecidableEq, Repr

/-- The clock of a compute die (R18 to R20): its arithmetic clock in MHz, whether a droop stretches it. -/
structure DieClock where
  mhz : Nat
  stretched : Bool
  throttled : Bool
  deriving DecidableEq, Repr

/-! ## Queues and launches -/

/-- An element map with the tensor descriptor read at validation (R213, R214). -/
structure ElemMap where
  pidx : Nat
  mode : Nat
  dims : Nat
  mat : List Int            -- 36 coefficients, 6 d + l
  off : List Int
  box : List Nat
  desc : BitVec 512
  descVa : Nat
  owners : List Nat         -- owner-table entries read (OT = 1)
  deriving DecidableEq, Repr

/-- A validated launch: the record (Table 02-8) and the header (Table 02-7) as the front end read them. -/
structure Kernel where
  hdr : Nat
  sysrel : Bool
  overlap : Bool
  nosplice : Bool
  param : Nat
  trans : Nat
  exts : List Nat
  waitCtr : Nat
  waitTgt : Nat
  doneCtr : Nat
  flags : Nat
  profile : Nat
  entry : Nat
  setOff : Nat
  nvreg : Nat
  minRows : Nat
  minLen : Nat
  coreSp : Nat
  clSpb : Nat
  levels : List Nat         -- loop kinds, level 0 first
  paramSz : Nat
  pmask : Nat
  feat : Nat
  stack : Nat
  maps : List ElemMap
  deriving DecidableEq, Repr

/-- How far the iterations of one hart key have been given (R24): the next position among the key's iterations in
ascending order, the hart that holds it, and whether every iteration has completed. -/
structure KeyState where
  key : List Nat
  nextPos : Nat
  holder : Option Nat
  deriving DecidableEq, Repr

/-- A spliced pair's own terms (R217 to R227): kernel B, the distance to it, the lag, whether T is materialised,
the map entries of A and B on T. -/
structure Pair where
  b : Kernel
  dist : Nat
  lag : Nat
  materialised : Bool
  mapA : ElemMap
  mapB : ElemMap
  deriving DecidableEq, Repr

/-- A launch that has begun dispatch. -/
structure Launch where
  queue : Nat
  recIdx : Nat              -- RECIDX
  a : Kernel
  pair : Option Pair
  keys : List KeyState
  left : List Nat           -- harts that ended by END: they take no more iterations of it (R31)
  ended : Bool              -- a handler has ended it (R186)
  deriving DecidableEq, Repr

/-- What the record at a queue's head has come to (R50 to R54). -/
inductive HeadState
  | waiting                         -- not yet at the head
  | validated (k : Kernel) (p : Option Pair)
  | begun (launch : Nat)
  -- on an error: the distance to the second record of the pair it stopped at, else 0; the counter, RECIDX and PAIR of a failed
  -- addition of a completed record (R54)
  | stopped (dist : Nat) (failedAdd : Option (Nat × Nat × Nat))
  deriving DecidableEq, Repr

/-- An entry of a queue's elision record (R228): T's descriptor, A's record index. -/
structure Elision where
  desc : BitVec 512
  owners : List Nat
  recIdx : Nat
  deriving DecidableEq, Repr

/-- One launch queue: the entry the host wrote, the installed copy (Table 18-3), and the device's state of it. -/
structure Queue where
  written : BitVec 512
  installed : BitVec 512
  head : BitVec 32
  tail : BitVec 32
  state : HeadState
  prevScope : Option Scope  -- scope of the last completion's release (R177)
  overlapped : List Nat     -- launches begun under OVERLAP and not completed, oldest first
  consumed : List Nat       -- records at or above the head that ended with a pair (R220)
  error : Word              -- Table 02-6
  elisions : List Elision
  barriers : List Nat
  asked : Option Nat        -- the tick of an access of the front end that gets no answer (R277)
  taken : Tab (BitVec 512)  -- the records, as their slots stood when TAIL passed them (R322)
  unreadable : List Nat     -- indexes whose LAUNCH write failed, or whose slot could not be read then (R322)
  slots : List Nat          -- stack slots in use (R290)
  prio : Nat                -- effective priority (R55)
  age : Nat                 -- qualifying ticks accumulated
  waited : Nat              -- ticks for which it has been runnable since it last received a hart (R57)
  deriving DecidableEq, Repr

/-! ## Saved contexts -/

/-- A saved block: its index, its data and poison, or an expired marker (R203). -/
structure SavedBlock where
  block : Nat
  content : Option Block
  deriving DecidableEq, Repr

/-- A saved context (R202, R207): the hart as saved, whether the image is full, the header fields of Table 09-7
that the rest does not show, the core blocks, and whether its save has ended. (DESIGN CHOICE log 31) -/
structure Context where
  id : Nat
  cluster : Nat
  hart : Hart
  full : Bool
  hdr : Word
  profile : Nat
  live : Nat
  status : Nat
  missing : Nat
  startTick : Nat
  saved : Bool
  blocks : List SavedBlock
  deriving DecidableEq, Repr

/-- The save of a launch's cluster reservation (R204, R212). -/
structure ClusterSave where
  launch : Nat
  cluster : Nat
  startTick : Nat
  saved : Bool
  blocks : List SavedBlock
  deriving DecidableEq, Repr

/-! ## Collectives -/

/-- A member of a communicator (Table 18-9): a Burlor package id, or an Ethernet endpoint. -/
inductive Member
  | pkg (id : Nat)
  | ether (mac : Nat)
  deriving DecidableEq, Repr

/-- A communicator (Table 16-1). -/
structure Comm where
  id : Nat
  strict : Bool
  members : List Member
  ownRank : Nat
  timeout : Nat
  deriving DecidableEq, Repr

/-- How a live registration stands at this package (R265, R266). -/
inductive RegState
  | unnumbered
  | numbered (num : Nat) (prev : Option Nat) (void aborted : Bool)
  | started (num : Nat)
  deriving DecidableEq, Repr

/-- A live registration (R263). -/
structure Registration where
  comm : Nat
  tag : Nat
  desc : BitVec 512
  queue : Nat
  launch : Nat
  via : Via
  descVa : Word
  counter : Nat
  order : Order
  state : RegState
  seq : Nat                 -- which Ordinal's sequence (R259)
  holder : Option Writer    -- the hart or the saved context that issued the COLL, until it leaves the launch (R208)
  id : Nat                  -- which COLL of the package: the model's own number
  since : Nat               -- the tick of its COLL, then that at which the engine began it
  told : Option Nat         -- what another hub die's Ordinal has answered a cancellation of it, but for 3 (R268)
  cancelPending : Bool      -- a cancellation sent and not answered (R264)
  accepted : Bool           -- its start report has been accepted (R268)
  verdict : Option Nat      -- a status the Ordinal has ended it with (R271, R272)
  deriving DecidableEq, Repr

/-- What one collective has come to at the Ordinal (R266 to R272). -/
structure OrdEntry where
  comm : Nat
  tag : Nat
  regs : List RegMsg
  num : Option Nat
  void : Bool
  aborted : Bool
  starts : List Nat         -- ranks whose start reports were accepted
  timer : Option Nat        -- tick at which the timer started
  contributors : Option (List Nat)
  outcome : Option Nat
  ended : Bool
  gone : List Nat           -- ranks whose engines met a fault: a loose collective goes on without them (R272)
  prevs : List (Nat × Option Nat)  -- by package: the PREV its notice carries (R266)
  finished : Bool           -- numbered, and its members have ended it (R267)
  mine : Option Nat         -- the registration of this package's that it holds
  passed : Bool             -- numbered, and this package's engine has ended it (R266)
  answers : List (Nat × Nat)       -- replicated answers to cancellations: rank, answer (R274)
  deriving DecidableEq, Repr

/-- The Ordinal's role of this package's hub die (R273). -/
inductive OrdRole | none | primary | standby
  deriving DecidableEq, Repr

/-- What the primary replicates (R273): an assignment, an accepted start report, a decided cancellation with its
answer. -/
inductive ReplicaKind
  | assign
  | start (num rank : Nat)
  | cancel (rank answer : Nat) (reg : Option Nat)   -- of this package's own, the registration that it names
  deriving DecidableEq, Repr

/-- An entry the primary has sent to the standby and whose acknowledgement it awaits (R273). -/
structure Replica where
  id : Nat
  comm : Nat
  tag : Nat
  kind : ReplicaKind
  deriving DecidableEq, Repr

structure Ordinal where
  role : OrdRole
  standby : Option Nat
  nextNum : Nat
  entries : List OrdEntry
  chains : List (Nat × Nat)        -- per package: last number in its chain
  pending : List Replica
  nextReplica : Nat
  stopped : Bool                   -- stopped assigning and answering (R273)
  lastAck : Nat
  lastBeat : Nat
  highest : Option Nat             -- H of R274
  lost : Bool                      -- primary and standby are lost: the domain's sequence stalls (R274)
  deriving DecidableEq, Repr

/-- An engine's place in one sequence: the last number it has ended (R266, R179). -/
structure Sequence where
  id : Nat
  endedNums : List Nat
  running : Option Nat
  deriving DecidableEq, Repr

/-- An Ethernet session with a peer package (R276). -/
structure Session where
  peer : Nat
  key : BitVec 256
  salt : BitVec 32
  nextRecv : Nat
  sealed : Nat
  sealedBytes : Nat
  unacked : List Nat
  delivered : List (List Byte)
  deriving DecidableEq, Repr

/-! ## The host interface -/

/-- The management mailbox (R291): the host's 64 bytes, the word at 0x40, the command that runs, as the device
took it, and the status word. -/
structure Mailbox where
  buffer : List Byte        -- 64 bytes
  go : Word
  command : Option (List Byte)
  status : Word
  deriving DecidableEq, Repr

/-- The device status block (Table 18-2), the lane-health words by hart. -/
structure StatusBlock where
  ready : Bool
  full : Bool
  slot : Nat
  fatal : Nat
  doorbad : Word
  rlost : Word
  sessbad : Word
  qframes : Word
  lanes : Tab Word
  deriving DecidableEq, Repr

/-- Where the SPDM responder stands (R297). -/
inductive SpdmPhase | reset | version | capabilities | negotiated | exchanging | secured
  deriving DecidableEq, Repr

/-- What the responder last answered (R297). -/
inductive SpdmAnswer
  | none
  | version (v : Nat)
  | capabilities
  | algorithms
  | digests (d : BitVec 256)
  | certificate (bytes : List Byte)
  | challenge (digest : BitVec 256) (nonce : BitVec 256) (sig : BitVec 512)
  | measurements (ms : List (Nat × BitVec 256)) (nonce : BitVec 256) (sig : BitVec 512)
  | keyExchange (share : BitVec 512) (sig : BitVec 512)
  | finished
  | ended
  | ack
  | error (code : Nat)
  deriving DecidableEq, Repr

structure Spdm where
  phase : SpdmPhase
  answer : SpdmAnswer
  transcript : List Byte
  secret : BitVec 256
  deriving DecidableEq, Repr

/-- An update of the scheduler image under way (R299): since when, and whether the staged image starts or the previous one
restarts. -/
inductive Update
  | none
  | starting (since : Nat)
  | restarting (since : Nat)
  deriving DecidableEq, Repr

/-- Firmware images and the update machinery (R294, R298, R299). -/
structure Firmware where
  images : List (List Byte)         -- slots 0 and 1: the scheduler image
  bootSlot : Nat
  bootDigest : BitVec 256
  engineDigest : BitVec 256
  staged : Bool
  update : Update
  handover : List Byte
  deriving DecidableEq, Repr

/-! ## The environment -/

/-- What the environment brings next (DESIGN CHOICE log 2): an event row, time passing, another hart's turn, passes of a
clause, a mismatch of the Weevil lane. -/
inductive Agenda
  | event (i : Instr)
  | elapse (ticks : Nat) (cycles : List Nat)    -- cycles of each compute die's arithmetic clock
  | select (hart : Nat)
  | clausePasses (n : Nat)
  | upset (u : Upset)
  deriving DecidableEq, Repr

/-- The package. -/
structure State where
  hart : Hart                    -- the hart whose turn it is
  others : List Hart             -- the other harts that are not as reset left them
  -- memory
  mem : List Host.Cell
  poison : List (Nat × PoisonSite)   -- poisoned sectors, by memory key divided by 32
  time : Nat                     -- ticks since device reset (R14)
  cycles : List Nat              -- by compute die: arithmetic-clock cycles since device reset (R14)
  -- clusters, dies
  clusters : Tab Cluster
  pins : Tab (List (Option PinSlot)) -- by die, four slots
  clocks : List DieClock
  powerLimit : Nat
  withheld : Nat                 -- issue cycles withheld in eight (R18)
  -- queues, launches
  queues : Tab Queue
  launches : Tab Launch
  nextLaunch : Nat
  lastServed : Nat               -- the queue that received a hart last (R56)
  contexts : List Context
  clusterSaves : List ClusterSave
  nextContext : Nat
  nextCmd : Nat
  -- host
  mailbox : Mailbox
  status : StatusBlock
  bar2 : Nat
  msix : List Nat                -- vectors raised, newest first
  hostData : List Byte           -- what the host's last read returned
  homeData : List Byte           -- what this package answered a remote access with last (R277)
  keys : Tab (Option (BitVec 512))   -- keys loaded; none for key 0, loaded by the boot firmware
  domainId : Nat
  collSeen : Bool                -- a COLL has been issued (DOMAINID's status 2)
  spdm : Spdm
  firmware : Firmware
  linksUp : Bool
  -- collectives
  comms : List Comm
  regs : List Registration
  nextReg : Nat
  seqs : List Sequence
  ordinal : Ordinal
  sessions : List Session
  -- remote writes: those that the environment does not let through, and those lost (R278)
  doomed : List (Writer × Word)
  lost : List LostWrite
  -- the model's own
  agenda : List Agenda
  freeCtr : Nat                  -- draws of free values so far
  deriving DecidableEq, Repr

/-- Why the machine stops. -/
inductive Fault
  /-- Raised by `step` when the package has tripped thermally (R19: every hart and engine stops, and only a
  device reset leaves the state) and the agenda is empty. Safe: nothing of the machine runs on. -/
  | thermalTrip
  /-- Raised by `step` when neither boot image passed (R294: FATAL 2, only BAR0's status block answers) and the
  agenda is empty. Safe. -/
  | bootFailed
  deriving DecidableEq, Repr

/-- Why an instruction is refused. -/
inductive Refusal
  /-- Raised by an arm of `exec` whose instruction has no meaning yet. Safe: nothing follows from it. -/
  | notModelled (mnemonic : String)
  deriving DecidableEq, Repr

/-! ## Reset -/

/-- A hart as device reset leaves it; registers the spec gives no reset value hold zero (DESIGN CHOICE log 5). -/
def Hart.reset (id : Nat) : Hart where
  id := id
  status := .running
  mode := .m
  pc := Config.resetPc
  x := .zero
  f := .zero
  fcsr := 0
  mstatus := 0x200002000#64
  mtvec := Config.resetMtvec
  mscratch := 0
  mepc := 0
  mcause := 0
  mtval := 0
  mie := 0
  mip := 0
  mcounteren := 0
  mcountinhibit := 0
  mcycle := 0
  minstret := 0
  reservation := none
  vtype := 0x1DC#64
  mfc := 0x8#64
  vxi := 0
  vfflags := 0
  vvsel := 0
  vhint := 0
  vcbytes := 0
  vshp := 0x10000#64
  vpoiscnt := 0
  vregs := .undef 0
  preds := .undef 0
  sf := .undef 0
  masks := .undef 0
  td := .undef 0
  tdAddr := .undef 0
  convoy := []
  freshConvoy := true
  rotation := 0
  clause := none
  poolv := 0
  pools := 0
  poolc := 0x40#64
  pool := []
  renewQ := []
  preq := 0
  kcause := 0
  korigin := 0
  faddr := 0
  hook := none
  hookSave := none
  job := none
  idx := List.replicate 6 0
  idxlin := 0
  bd := List.replicate 16 1
  chstep := 0
  grant := none
  cancel := none
  ipoison := []
  ir := 0
  upsets := []
  skipped := []
  stopAt := none
  atOnce := false
  pollPoison := false
  boundaryWait := false
  remoteFault := none

/-- A hart that no launch holds: the on-core runtime waits for the distributor (DESIGN CHOICE log 6). -/
def Hart.idle (id : Nat) : Hart := { Hart.reset id with status := .free }

def Cluster.empty : Cluster := { spad := [], resvs := [], renewQ := [], gens := [], scarab := [] }

/-- A queue as device reset leaves it: LOG2N reads 4 (Table 18-3). -/
def Queue.reset : Queue where
  written := BitVec.ofNat 512 (4 * 2 ^ 256)
  installed := BitVec.ofNat 512 (4 * 2 ^ 256)
  head := 0
  tail := 0
  state := .waiting
  prevScope := none
  overlapped := []
  consumed := []
  error := 0
  elisions := []
  barriers := []
  asked := none
  taken := []
  unreadable := []
  slots := []
  prio := 0
  age := 0
  waited := 0

def StatusBlock.reset : StatusBlock :=
  { ready := false, full := false, slot := 0, fatal := 0, doorbad := 0, rlost := 0, sessbad := 0, qframes := 0,
    lanes := [] }

def Mailbox.reset : Mailbox := { buffer := List.replicate 64 0, go := 0, command := none, status := 0 }

def Spdm.reset : Spdm := { phase := .reset, answer := .none, transcript := [], secret := 0 }

def Firmware.reset : Firmware :=
  { images := [[], []], bootSlot := 0, bootDigest := 0, engineDigest := 0, staged := false, update := .none,
    handover := [] }

def Ordinal.reset : Ordinal :=
  { role := .none, standby := none, nextNum := 0, entries := [], chains := [], pending := [], nextReplica := 0,
    stopped := false, lastAck := 0, lastBeat := 0, highest := none, lost := false }

/-- The machine right after device reset (R294, R296): every register at the value its map gives for reset,
boot not yet complete, the reduced service's clock (R295), nothing in memory. -/
def State.reset : State where
  hart := Hart.reset 0
  others := []
  mem := []
  poison := []
  time := 0
  cycles := [0, 0, 0, 0]
  clusters := []
  pins := []
  clocks := List.replicate 4 { mhz := 1000, stretched := false, throttled := false }
  powerLimit := 2400
  withheld := 0
  queues := []
  launches := []
  nextLaunch := 0
  lastServed := 63
  contexts := []
  clusterSaves := []
  nextContext := 0
  nextCmd := 0
  mailbox := .reset
  status := .reset
  bar2 := 0
  msix := []
  hostData := []
  homeData := []
  keys := []
  domainId := 0
  collSeen := false
  spdm := .reset
  firmware := .reset
  linksUp := false
  comms := []
  regs := []
  nextReg := 0
  seqs := []
  ordinal := .reset
  sessions := []
  doomed := []
  lost := []
  agenda := []
  freeCtr := 1

end Sys2Proof.Machine
end

