-- ==== Sys2Proof/Machine/Ops.lean ====
section
/-!
DEFINITION. The named operations every meaning is built from: the step monad, register accessors, free values,
the running kernel and the vector shape, releases, taking a trap (R183) and returning from one (R184).
-/

namespace Sys2Proof.Machine

/-- A trap: its cause, the element (R34), the faulting address when there is one, KCAUSE's fields (Table 04-17),
for an illegal instruction the word that mtval receives when it is not the one being executed (R102), and the
pc when it is not the present one (a body word of a clause, R49). -/
structure Trap where
  cause : Nat
  elem : Nat := 0
  addr : Option Word := none
  sub : Nat := 0
  unit : Nat := 0
  lane : Nat := 63
  cu : Bool := false          -- raised by a contraction-unit command (R108, R240)
  mtvalAddr : Bool := false   -- mtval receives the address whatever the cause (R240, R375)
  word : Option (BitVec 32) := none
  pc : Option Word := none
  deriving DecidableEq, Repr

/-- Why an operation does not go on: a trap; a wait whose condition does not hold yet; another package that has not answered within
4,000 ticks yet, for the remote access named or for a release (R277, R278), so that the instruction is taken up again from its start;
or a pre-emption at an element boundary, with the saved position (R34, R59). -/
inductive Stop
  | trap (t : Trap)
  | wait
  | hold (access : Option (RemoteKind × Nat × Word))
  | preempt (pc : Word) (vxi : Nat)
  deriving DecidableEq, Repr

/-- An operation on the package: it answers a value, or stops, with the state it leaves. -/
abbrev Op := EStateM Stop State

abbrev Outcome := Host.Outcome State Fault Refusal

def raise {α : Type} (t : Trap) : Op α := throw (.trap t)
def waitFor (b : Bool) : Op Unit := if b then pure () else throw .wait

/-- Illegal instruction on the word being executed (R3, R102). -/
def illegal {α : Type} : Op α := raise { cause := 2 }
def illegalUnless (b : Bool) : Op Unit := if b then pure () else illegal

/-- ENGINE, refused at issue (Table 04-18). UNIT is 0, for STREAM, STREAMU and COLL too, since the scalar unit refuses them
(DESIGN CHOICE log 48). -/
def engine {α : Type} (sub : Nat) (addr : Option Word := none) : Op α := raise { cause := 48, sub := sub, addr := addr }

def getH : Op Hart := return (← get).hart
def modH (f : Hart → Hart) : Op Unit := modify fun s => { s with hart := f s.hart }

/-! ## Scalar registers -/

/-- x0 reads zero (R103). -/
def Hart.xr (h : Hart) (r : BitVec 5) : Word := if r = 0 then 0 else h.x.get r.toNat

/-- A write of x0 is discarded (R103). -/
def Hart.setX (h : Hart) (r : BitVec 5) (v : Word) : Hart := { h with x := if r = 0 then h.x else h.x.set r.toNat v }

def readX (r : BitVec 5) : Op Word := return (← getH).xr r
def writeX (r : BitVec 5) (v : Word) : Op Unit := modH (·.setX r v)

def Hart.fr (h : Hart) (r : BitVec 5) : Word := h.f.get r.toNat
def Hart.setF (h : Hart) (r : BitVec 5) (v : Word) : Hart := { h with f := h.f.set r.toNat v }

/-- The pc moves past the instruction. -/
def advance (n : Nat) : Op Unit := modH fun h => { h with pc := h.pc + BitVec.ofNat 64 n }
def setPc (v : Word) : Op Unit := modH fun h => { h with pc := v }

/-! ## Free values -/

/-- A fresh draw of free values (R2, DESIGN CHOICE log 4). -/
def draw : Op Nat := do
  let s ← get
  set { s with freeCtr := s.freeCtr + 1 }
  return s.freeCtr

/-! ## Vector control fields (Tables 02-1, 02-2, 07-5) -/

namespace Hart
def etype (h : Hart) : Nat := bits h.vtype 2 3
def grp (h : Hart) : Nat := 2 ^ bits h.vtype 0 2
def blkLog (h : Hart) : Nat := bits h.vtype 6 4
def rmCode (h : Hart) : Nat := bits h.vtype 10 3
def rows (h : Hart) : Nat := bits h.vshp 16 16
def vl (h : Hart) : Nat := bits h.vshp 0 16
/-- nel() of Table 04-19. -/
def nel (h : Hart) : Nat := h.rows * h.vl
/-- blk(e) of Table 04-19. -/
def blk (h : Hart) (e : Nat) : Nat := e / 2 ^ h.blkLog
/-- The blocks of the shape: ⌈nel() ÷ 2^BLK⌉. -/
def nblk (h : Hart) : Nat := (h.nel + 2 ^ h.blkLog - 1) / 2 ^ h.blkLog
def scl (h : Hart) : Bool := bitAt h.mfc 12
def sbase (h : Hart) : Nat := bits h.mfc 4 8
/-- The memory encoding of R158 where no descriptor names one. -/
def menc (h : Hart) : Nat := if bitAt h.mfc 3 then h.etype else bits h.mfc 0 3
def vbanks (h : Hart) : Nat := bits h.poolv 0 7
def vmax (h : Hart) : Nat := bits h.poolv 8 7
def sbanks (h : Hart) : Nat := bits h.pools 0 7
def cbanks (h : Hart) : Nat := bits h.poolc 0 7
def die (h : Hart) : Nat := h.id / 128
/-- The package-wide index of the hart's cluster (R13). -/
def cluster (h : Hart) : Nat := h.id / 4
end Hart

/-- eb of an element-type code (Table 05-1). -/
def ebOf (t : Nat) : Nat := if t = 0 ∨ t = 4 then 1 else if t = 1 ∨ t = 5 ∨ t = 6 then 2 else 4
def isFloat (t : Nat) : Bool := 4 ≤ t
def Hart.eb (h : Hart) : Nat := ebOf h.etype

/-- The largest power of two at most `n`. -/
def pow2Floor (n : Nat) : Nat := if n = 0 then 0 else 2 ^ Nat.log2 n

/-! ## The running kernel -/

/-- The kernel whose body the hart runs: kernel B of a spliced pair inside its body, else A. -/
def State.kernel? (s : State) (h : Hart) : Option Kernel :=
  match h.job with
  | none => none
  | some j =>
    match s.launches.get? j.launch with
    | none => none
    | some l => match j.inB, l.pair with
      | true, some p => some p.b
      | _, _ => some l.a

def State.launchOf (s : State) (h : Hart) : Option Launch := h.job.bind fun j => s.launches.get? j.launch

/-- A header flag of the running kernel (Table 02-7). -/
def State.flag (s : State) (h : Hart) (i : Nat) : Bool :=
  match s.kernel? h with
  | some k => k.flags.testBit i
  | none => false

/-- Declared vector registers N; with no kernel, all 32 (DESIGN CHOICE log 8). -/
def State.nvreg (s : State) (h : Hart) : Nat :=
  match s.kernel? h with
  | some k => k.nvreg
  | none => 32

/-- The capacity C of one vector register (R35). -/
def capacity (n v : Nat) : Nat := pow2Floor ((262144 + v * 16384) / n)

def State.capC (s : State) (h : Hart) : Nat := capacity (s.nvreg h) h.vbanks

/-- The queue of the launch the hart runs. -/
def State.queueOf (s : State) (h : Hart) : Option Nat := (s.launchOf h).map (·.queue)

def State.queue (s : State) (q : Nat) : Queue := (s.queues.get? q).getD .reset
def State.setQueue (s : State) (q : Nat) (v : Queue) : State := { s with queues := s.queues.put q v }
def State.cluster (s : State) (c : Nat) : Cluster := (s.clusters.get? c).getD .empty
def State.setCluster (s : State) (c : Nat) (v : Cluster) : State := { s with clusters := s.clusters.put c v }
def modCluster (c : Nat) (f : Cluster → Cluster) : Op Unit := modify fun s => s.setCluster c (f (s.cluster c))
def modQueue (q : Nat) (f : Queue → Queue) : Op Unit := modify fun s => s.setQueue q (f (s.queue q))

/-- A field of a 64-byte structure held as 512 bits: its bit offset and width. -/
def field512 (v : BitVec 512) (byteOff lo len : Nat) : Nat := bits v (8 * byteOff + lo) len

/-- A 48-bit address field, sign-extended from bit 47 (R61). -/
def sext48 (n : Nat) : Word := sextN 48 n

/-! ## Harts -/

/-- The hart of a given number, wherever it stands; one that nothing has touched is idle. -/
def State.hartOf (s : State) (id : Nat) : Hart :=
  if s.hart.id = id then s.hart
  else match s.others.find? (·.id = id) with
    | some h => h
    | none => { Hart.idle id with mcycle := BitVec.ofNat 64 (s.cycles.getD (id / 128) 0) }

def putHart (h : Hart) : List Hart → List Hart
  | [] => [h]
  | g :: t => if g.id = h.id then h :: t else g :: putHart h t

def State.setHart (s : State) (h : Hart) : State :=
  if s.hart.id = h.id then { s with hart := h } else { s with others := putHart h s.others }

/-- Every hart the state lists. -/
def State.harts (s : State) : List Hart := s.hart :: s.others

/-- Apply a function to every listed hart. -/
def State.mapHarts (s : State) (f : Hart → Hart) : State := { s with hart := f s.hart, others := s.others.map f }

/-- Give the turn to another hart. -/
def State.selectHart (s : State) (id : Nat) : State :=
  if s.hart.id = id then s
  else
    let h := s.hartOf id
    { s with hart := h, others := putHart s.hart (s.others.filter (·.id ≠ id)) }

/-! ## Ordering -/

/-- The lost write that a release by an agent meets: one of the writer's that the agent's releases cover (R172, R278). -/
def State.lostBy (s : State) (w : Writer) (by' : Agent) : Option LostWrite :=
  s.lost.find? fun l => l.writer = w && l.views.contains by'

/-- The ticks after which a remote access without an answer has failed (R277, R278). -/
def fabricTimeout : Nat := 4000

/-- Is a write that was not delivered still within its time (R278)? -/
def LostWrite.pending (l : LostWrite) (time : Nat) : Bool := time < l.since + fabricTimeout

/-- A release by an agent of the present hart (R172, R278): at scope .dom or .sys it awaits the remote writes it covers, and
one that was not delivered within 4,000 ticks raises a store access fault at that write's address. In a model that performs every access at
once nothing else remains to be ordered (DESIGN CHOICE log 9). -/
def release (by' : Agent) (sc : Scope) : Op Unit := do
  if sc = .dom ∨ sc = .sys then
    let s ← get
    match s.lostBy (.hart s.hart.id) by' with
    | some l =>
      if l.pending s.time then throw (.hold none)
      set { s with lost := s.lost.erase l }
      raise { cause := 7, addr := some l.va }
    | none => pure ()

/-- Count lost remote writes in the device status block (R278). -/
def countLost (n : Nat) (s : State) : State :=
  { s with status := { s.status with rlost := s.status.rlost + BitVec.ofNat 64 n } }

/-- The writes of writers that are gone, whose 4,000 ticks have passed: no release has met them, they are lost and counted (R278). -/
def State.settle (s : State) : State :=
  let due (l : LostWrite) : Bool := l.writer = .gone && !l.pending s.time
  countLost (s.lost.filter due).length { s with lost := s.lost.filter fun l => !due l }

/-- Writers go: what they wrote and was not delivered stands for no release any more, and counts as lost in its time (R278). -/
def State.forget (p : Writer → Bool) (s : State) : State :=
  State.settle { s with
    lost := s.lost.map fun l => if p l.writer then { l with writer := .gone } else l
    doomed := s.doomed.filter fun d => !p d.1 }

/-- What stands under one writer's name goes to another's: a context's when its hart is saved, the hart's when it resumes. -/
def State.rename (a b : Writer) (s : State) : State :=
  { s with
    lost := s.lost.map fun l => if l.writer = a then { l with writer := b } else l
    doomed := s.doomed.map fun d => if d.1 = a then (b, d.2) else d
    regs := s.regs.map fun r => if r.holder = some a then { r with holder := some b } else r }

/-- A fence brings the writes of one agent of a hart into another's view: the later releases of that agent cover them (R174). -/
def fenceViews (id : Nat) (x y : Agent) (l : LostWrite) : LostWrite :=
  if l.writer = .hart id && l.views.contains x && !l.views.contains y then { l with views := l.views ++ [y] } else l

/-- What stands at a hart once the writes of each agent `x` of it are in the view of its `y`. -/
def State.viewWrites (pairs : List (Agent × Agent)) (s : State) : State :=
  { s with lost := s.lost.map fun l => pairs.foldl (fun l p => fenceViews s.hart.id p.1 p.2 l) l }

/-- The two pairs of FENCE.ALL (R174). -/
def bothViews : List (Agent × Agent) := [(.scalar, .vector), (.vector, .scalar)]

/-- An acquire (R172): every access being performed at once, it adds no order (DESIGN CHOICE log 9). -/
def acquire (_ : Scope) : Op Unit := pure ()

/-! ## Taking a trap and returning from one -/

/-- mstatus.MIE, MPIE, MPP, MPRV. -/
def mieBit : Nat := 3
def mpieBit : Nat := 7
def mppLo : Nat := 11
def mprvBit : Nat := 17

def setBit (v : Word) (i : Nat) (b : Bool) : Word :=
  if b then v ||| BitVec.twoPow 64 i else v &&& ~~~ (BitVec.twoPow 64 i)

def setMpp (v : Word) (m : Mode) : Word :=
  match m with
  | .m => setBit (setBit v 11 true) 12 true
  | .u => setBit (setBit v 11 false) 12 false

def mppOf (v : Word) : Mode := if bits v mppLo 2 = 3 then .m else .u

/-- mstatus at a trap into M-mode (RISC-V privileged architecture). -/
def mstatusTrap (v : Word) (m : Mode) : Word :=
  setMpp (setBit (setBit v mpieBit (bitAt v mieBit)) mieBit false) m

/-- mstatus at MRET. -/
def mstatusRet (v : Word) : Word :=
  let v' := setMpp (setBit (setBit v mieBit (bitAt v mpieBit)) mpieBit true) .u
  if mppOf v = .u then setBit v' mprvBit false else v'

/-- Causes whose address mtval receives: the RISC-V access and page faults (R183). -/
def mtvalHasAddr (c : Nat) : Bool := [1, 5, 7, 12, 13, 15].contains c

/-- KCAUSE (R108, Table 04-17). (DEDUCED log 41) -/
def kcauseOf (t : Trap) : Word :=
  if 24 ≤ t.cause ∨ t.cu then BitVec.ofNat 64 (t.lane * 65536 + t.unit * 256 + (if 24 ≤ t.cause then t.sub else 0))
  else 0

/-- The header that KORIGIN receives (R185); zero when no kernel runs (DESIGN CHOICE log 10). -/
def State.korigin (s : State) (h : Hart) : Word :=
  match s.kernel? h with
  | some k => sext48 k.hdr
  | none => 0

/-- mtvec's base, and its vectored mode for interrupts. -/
def trapVector (mtvec : Word) (interrupt : Bool) (cause : Nat) : Word :=
  let base := mtvec &&& ~~~ 3#64
  if interrupt ∧ bits mtvec 0 2 = 1 then base + BitVec.ofNat 64 (4 * cause) else base

/-- R183: the trap registers are written, the status and the mode changed, the pc set to the handler. Vector,
predicate, scale, validity, clause, tile and accumulator state stay as the trap found them; an open convoy ends (R41). -/
def takeTrap (t : Trap) (s : State) : State :=
  let h := s.hart
  let addr := t.addr.getD 0
  { s with hart := { h with
      mepc := t.pc.getD h.pc
      mcause := BitVec.ofNat 64 t.cause
      vxi := t.elem
      mtval := if t.cause = 2 then (t.word.getD h.ir).setWidth 64
               else if mtvalHasAddr t.cause ∨ t.mtvalAddr then addr else 0
      kcause := kcauseOf t
      faddr := addr
      korigin := s.korigin h
      mstatus := mstatusTrap h.mstatus h.mode
      mode := .m
      pc := trapVector h.mtvec false t.cause
      convoy := []
      freshConvoy := true
      stopAt := none
      atOnce := false
      pollPoison := false
      boundaryWait := false
      remoteFault := none } }

/-- The registers of interrupt 16 at a saved position (R183, R185, R200): P and mip bit 16 are cleared, F says
whether the request was forced. -/
def takeInterrupt (pc : Word) (vxi : Nat) (forced : Bool) (s : State) : State :=
  let h := s.hart
  { s with hart := { h with
      mepc := pc
      mcause := BitVec.ofNat 64 (2 ^ 63 + 16)
      vxi := vxi
      mtval := 0
      kcause := 0
      faddr := 0
      korigin := s.korigin h
      preq := setBit (setBit h.preq 0 false) 1 forced
      mip := setBit h.mip 16 false
      mstatus := mstatusTrap h.mstatus h.mode
      mode := .m
      pc := trapVector h.mtvec true 16
      convoy := []
      freshConvoy := true
      stopAt := none
      atOnce := false
      pollPoison := false
      remoteFault := none } }

/-- MRET (R184): the hart resumes at (mepc, VXI) in the mode MPP names; the next vector instruction starts a
convoy (R41). Whether VXI is cleared is decided when the instruction at mepc is known, at its execution. -/
def returnFromTrap (h : Hart) : Hart :=
  { h with
    pc := h.mepc
    mode := mppOf h.mstatus
    mstatus := mstatusRet h.mstatus
    convoy := []
    freshConvoy := true }

/-- Is a request pending that interrupt 16 may be taken for: PREQ.P, U-mode, mie bit 16 (R200, DEDUCED log 11)? -/
def Hart.requestPending (h : Hart) : Bool := bitAt h.preq 0 && h.mode = .u && bitAt h.mie 16

/-- Is time at or past DL (R200)? -/
def deadlinePassed (time : Nat) (preq : Word) : Bool :=
  let dl := bits preq 16 32
  (time % 2 ^ 32 + 2 ^ 32 - dl) % 2 ^ 32 < 2 ^ 31

/-- May a forced pre-emption be taken now (R59, R200)? Not inside a CCANCEL that has sent its cancellation (R264), nor before a
boundary write that waits (Table 09-6). -/
def State.forcedDue (s : State) : Bool :=
  s.hart.requestPending && deadlinePassed s.time s.hart.preq && s.hart.cancel.isNone && !s.hart.boundaryWait

/-- The hart has come back to U-mode by an MRET: where DL has passed already, the request is taken at once at the resume position
(R201); entry into a hook counts as that MRET (R257). -/
def State.resumed (s : State) : State := { s with hart := { s.hart with atOnce := s.forcedDue } }

/-- A request that becomes forced at a tick: P, DL and mip bit 16 (R200). -/
def Hart.requestAt (dl : Nat) (h : Hart) : Hart :=
  { h with atOnce := false, preq := BitVec.ofNat 64 (dl % 2 ^ 32 * 65536 + bits h.preq 1 1 * 2 + 1), mip := setBit h.mip 16 true }

/-- A CSR instruction's new value (Zicsr). -/
def csrNew (op : CsrOp) (old src : Word) : Word :=
  match op with
  | .rw => src
  | .rs => old ||| src
  | .rc => old &&& ~~~ src

def csrSrcValue (h : Hart) (s : CsrSrc) : Word :=
  match s with
  | .reg r => h.xr r
  | .imm z => z.setWidth 64

/-- Raise an MSI-X vector to the host (R285). -/
def raiseMsix (v : Nat) : Op Unit := modify fun s => { s with msix := v :: s.msix }

end Sys2Proof.Machine
end

