-- ==== Sys2Proof/Machine/Mem.lean ====
section
/-!
DEFINITION. Memory: the canonical list of bytes, poison, the scratchpads (R127, R134 to R138), translation
(R148 to R151), the overlay of a spliced pair and the elided ranges (R224, R225, R228), and the accesses of
harts and engines built from them, one byte at a time.
-/

namespace Sys2Proof.Machine

/-! ## Plain memory -/

/-- What a byte that nothing has written reads as (DESIGN CHOICE log 1). -/
def unlistedByte : Byte := 0

namespace Memory

/-- The byte at a key. -/
def get : List Host.Cell → Nat → Byte
  | [], _ => unlistedByte
  | (k, b) :: t, a => if a = k then b else if a < k then unlistedByte else get t a

/-- Write one byte; the value an unlisted byte reads as removes the entry. -/
def put : List Host.Cell → Nat → Byte → List Host.Cell
  | [], a, v => if v = unlistedByte then [] else [(a, v)]
  | (k, b) :: t, a, v =>
    if a < k then (if v = unlistedByte then (k, b) :: t else (a, v) :: (k, b) :: t)
    else if a = k then (if v = unlistedByte then t else (a, v) :: t)
    else (k, b) :: put t a v

/-- The canonical form: addresses rise strictly, and no entry equals what an unlisted byte reads as. -/
def wf : List Host.Cell → Bool
  | [] => true
  | [(_, b)] => b ≠ unlistedByte
  | (k, b) :: (k', b') :: t => b ≠ unlistedByte && k < k' && wf ((k', b') :: t)

/-- `n` bytes from a key up. -/
def read (m : List Host.Cell) (a : Nat) : Nat → List Byte
  | 0 => []
  | n + 1 => get m a :: read m (a + 1) n

/-- Bytes written from a key up. -/
def write (m : List Host.Cell) (a : Nat) : List Byte → List Host.Cell
  | [] => m
  | b :: bs => write (put m a b) (a + 1) bs

end Memory

/-- The memory key of a physical address: this package's bytes at the address itself, another package's above
them (R12, R151). -/
def memKey (own home pa : Nat) : Nat := if home = own then pa else (home + 1) * 2 ^ 40 + pa

def State.readPhys (s : State) (k n : Nat) : Nat := ofBytes (Memory.read s.mem k n)

/-! ## Encryption (R151) -/

/-- The first key of a byte's sector. -/
def sectorBase (k : Nat) : Nat := 32 * (k / 32)

/-- The tweak of a byte's sector: its physical address, at its home, divided by 32. -/
def tweakOf (k : Nat) : Nat := k % 2 ^ 40 / 32

/-- The sector of a byte as it is read under a key. Memory holds what a reader under key 0 finds, and so does an access that names no
key: an M-mode one, BAR2's, the page walk's (DESIGN CHOICE log 28). -/
def sectorUnder (c : Option (BitVec 512)) (m : List Host.Cell) (k : Nat) : BitVec 256 :=
  let x := BitVec.ofNat 256 (ofBytes (Memory.read m (sectorBase k) 32))
  match c with
  | none => x
  | some v => (Config.xts v (tweakOf k)).symm x

/-- A byte of memory as it is read under a key. -/
def byteUnder (c : Option (BitVec 512)) (m : List Host.Cell) (k : Nat) : Byte :=
  match c with
  | none => Memory.get m k
  | some _ => BitVec.ofNat 8 ((sectorUnder c m k).toNat / 2 ^ (8 * (k % 32)))

/-- Bytes from a key up as they are read under an encryption key. -/
def readUnder (c : Option (BitVec 512)) (m : List Host.Cell) (k n : Nat) : List Byte :=
  (List.range n).map fun i => byteUnder c m (k + i)

/-- Write one byte under a key: the other bytes of its sector read as before under that key. -/
def putUnder (c : Option (BitVec 512)) (m : List Host.Cell) (k : Nat) (b : Byte) : List Host.Cell :=
  match c with
  | none => Memory.put m k b
  | some v =>
    let bs := (toBytes 32 (sectorUnder c m k).toNat).set (k % 32) b
    Memory.write m (sectorBase k) (toBytes 32 (Config.xts v (tweakOf k) (BitVec.ofNat 256 (ofBytes bs))).toNat)

/-- Write bytes from a key up under an encryption key. -/
def writeUnder (c : Option (BitVec 512)) (m : List Host.Cell) (k : Nat) : List Byte → List Host.Cell
  | [] => m
  | b :: bs => writeUnder c (putUnder c m k b) (k + 1) bs

/-! ## Poison (R196) -/

def sectorOf (k : Nat) : Nat := k / 32

def State.poisonOf (s : State) (k : Nat) : Option PoisonSite := (s.poison.find? (·.1 = sectorOf k)).map (·.2)

/-! ## Scratchpads -/

def Block.unwritten : Block := { live := false, expired := false, stamp := 0, data := .zero, poison := [] }

/-- A block's age in ticks (R135). -/
def Block.age (b : Block) (time : Nat) : Nat := (time % 1024 + 1024 - b.stamp.toNat) % 1024

inductive BlockState | unwritten | live | expired
  deriving DecidableEq, Repr

def Block.state (b : Block) (time : Nat) : BlockState :=
  if !b.live then .unwritten
  else if !b.expired ∧ b.age time < 256 then .live
  else .expired

/-- Where one byte of an access lies. -/
inductive Loc
  | mem (key : Nat)                    -- package memory, of any home
  | core (hart byte : Nat)             -- a byte of a core's pool
  | cluster (cl byte : Nat)            -- a byte of a cluster scratchpad
  deriving DecidableEq, Repr

def State.block (s : State) : Loc → Option Block
  | .mem _ => none
  | .core h b => some (((s.hartOf h).pool.get? (b / 256)).getD .unwritten)
  | .cluster c b => some (((s.cluster c).spad.get? (b / 256)).getD .unwritten)

def State.setBlock (s : State) (l : Loc) (v : Block) : State :=
  match l with
  | .mem _ => s
  | .core h b => let g := s.hartOf h; s.setHart { g with pool := g.pool.put (b / 256) v }
  | .cluster c b => let g := s.cluster c; s.setCluster c { g with spad := g.spad.put (b / 256) v }

def Loc.offset : Loc → Nat
  | .mem k => k
  | .core _ b => b
  | .cluster _ b => b

/-- Write one byte of a scratchpad block (R136): the block becomes live with a fresh stamp, the bytes of a block
that was not live become undefined. -/
def Block.write (b : Block) (time k off : Nat) (v : Byte) : Block :=
  let base := if b.state time = .live then b.data else .undef k
  { b with live := true, expired := false, stamp := BitVec.ofNat 10 time, data := base.set off v }

/-! ## Tensors (R153, R154) -/

def descRank (d : BitVec 512) : Nat := field512 d 0 25 3
def descEnc (d : BitVec 512) : Nat := field512 d 0 28 3
def descOt (d : BitVec 512) : Bool := bitAt d 31
def descSh (d : BitVec 512) (i : Nat) : Nat := field512 d 0 (4 * i) 4
def descBase (d : BitVec 512) : Nat := field512 d 4 0 48
def descExt (d : BitVec 512) (i : Nat) : Nat := field512 d (0x0A + 4 * i) 0 32
def descStr (d : BitVec 512) (i : Nat) : Int := toSigned 40 (field512 d (0x22 + 5 * i) 0 40)
def descEsz (d : BitVec 512) : Nat := ebOf (descEnc d)

/-- The field checks of R155. -/
def descOk (d : BitVec 512) : Bool :=
  let r := descRank d
  let sum := ((List.range 6).map (descSh d)).sum
  1 ≤ r && r ≤ 6 && descEnc d ≠ 3
    && (List.range 6).all (fun i => descSh d i ≤ 8 && (i < r || descSh d i = 0))
    && (if descOt d then sum ≤ 12 else sum ≤ 8)
    && descBase d % descEsz d = 0

/-- The owner number and the byte offset within its shard of a global index (R154). -/
def descPlace (d : BitVec 512) (g : List Nat) : Nat × Int :=
  (g.zipIdx).foldl (fun (o, off) (gi, i) =>
    let bs := (descExt d i + 2 ^ descSh d i - 1) / 2 ^ descSh d i
    (o * 2 ^ descSh d i + gi / bs, off + (gi % bs : Nat) * descStr d i)) (0, 0)

/-- The virtual address of a global index, the owner table's entry given for OT = 1 (R154). -/
def descAddr (d : BitVec 512) (tableEntry : Nat → Nat) (g : List Nat) : Word :=
  let (o, off) := descPlace d g
  if descOt d then sext48 (tableEntry o % 2 ^ 48) + BitVec.ofInt 64 off
  else sext48 (descBase d) + BitVec.ofNat 64 (o * 2 ^ 37) + BitVec.ofInt 64 off

/-- A dense, unsharded tensor occupies one run of bytes (condition 6 of Table 12-2): its element count. -/
def denseCount (d : BitVec 512) : Nat := ((List.range (descRank d)).map (descExt d)).prod

/-- The element of a dense tensor that a virtual address lies in: its row-major number and the byte within it. -/
def denseElem (d : BitVec 512) (va : Word) : Option (Nat × Nat) :=
  let off := (va - sext48 (descBase d)).toNat
  if off < denseCount d * descEsz d then some (off / descEsz d, off % descEsz d) else none

/-- A row-major number as an index, innermost dimension last. -/
def unflatten (exts : List Nat) (n : Nat) : List Nat :=
  (exts.reverse.foldl (fun (acc, m) e => ((m % e) :: acc, m / e)) (([] : List Nat), n)).1

def descExts (d : BitVec 512) : List Nat := (List.range (descRank d)).map (descExt d)

/-! ## Element maps (R214) -/

/-- The origin o_d of a map's box at an iteration. -/
def ElemMap.origin (m : ElemMap) (iter : List Nat) (dim : Nat) : Int :=
  (m.off.getD dim 0) + ((iter.zipIdx).map (fun (i, l) => (m.mat.getD (6 * dim + l) 0) * (i : Int))).sum

def ElemMap.inBox (m : ElemMap) (iter : List Nat) (g : List Nat) : Bool :=
  (g.zipIdx).all fun (gi, dim) =>
    let o := m.origin iter dim
    o ≤ (gi : Int) && (gi : Int) < o + (m.box.getD dim 0)

/-- The row-major position of an index within the box at an iteration. -/
def ElemMap.boxPos (m : ElemMap) (iter : List Nat) (g : List Nat) : Nat :=
  (g.zipIdx).foldl (fun p (gi, dim) => p * (m.box.getD dim 0) + ((gi : Int) - m.origin iter dim).toNat) 0

/-- The bytes of one ring slot: the box, rounded up to 256 (R223). -/
def ElemMap.slotBytes (m : ElemMap) : Nat :=
  let n := ((m.box.take m.dims).prod * descEsz m.desc)
  (n + 255) / 256 * 256

def banksFor (n : Nat) : Nat := (n + 16383) / 16384

/-- Banks of the core scratchpad below the ring: kernel A's, kernel B's (R223). -/
def pairBanks (a b : Kernel) : Nat × Nat := (banksFor a.coreSp, banksFor b.coreSp)

/-! ## Who accesses -/

/-- Whose access it is: the hart, its launch and body (R134, R223 to R225). -/
def State.via (s : State) (h : Hart) : Option Via :=
  match h.job with
  | none => none
  | some j => some { hart := h.id, launch := j.launch, inB := j.inB, key := j.key, iter := j.iter, inSetup := j.inSetup }

/-- The kinds of access and their causes: page fault, access fault (R149). -/
inductive AKind | fetch | load | store
  deriving DecidableEq, Repr

def AKind.pageFault : AKind → Nat
  | .fetch => 12 | .load => 13 | .store => 15
def AKind.accessFault : AKind → Nat
  | .fetch => 1 | .load => 5 | .store => 7
def AKind.isWrite : AKind → Bool
  | .store => true
  | _ => false

/-- Who reports a fault in KCAUSE, and the address it reports (Table 04-17). -/
structure Who where
  elem : Nat := 0
  unit : Nat := 0
  lane : Nat := 63
  cu : Bool := false
  mtvalAddr : Bool := false
  deriving DecidableEq, Repr

def fail {α : Type} (w : Who) (cause : Nat) (va : Word) (sub : Nat := 0) : Op α :=
  raise { cause := cause, elem := w.elem, addr := some va, sub := sub, unit := w.unit, lane := w.lane, cu := w.cu,
          mtvalAddr := w.mtvalAddr }

/-! ## The spliced pair's overlay and the elided ranges -/

def coreWindow : Nat := 0x7E0000000000
def clusterWindow : Nat := 0x7E0001000000

/-- Does an address lie in the core scratchpad window (R134)? -/
def inCoreWindow (n : Nat) : Bool := coreWindow ≤ n && n < coreWindow + 0x100000

/-- Does an address lie in the cluster scratchpad window (R134)? -/
def inClusterWindow (n : Nat) : Bool := clusterWindow ≤ n && n < clusterWindow + 0x800000

/-- Window addresses are not looked up in the page tables (R134). -/
def inWindow (n : Nat) : Bool := inCoreWindow n || inClusterWindow n

/-- The iteration (u, i) of kernel A for a key and a step's outer part. -/
def withInner (iter : List Nat) (i : Nat) : List Nat := iter.dropLast ++ [i]

/-- What the overlay says of one byte of T: a fault of R225, a ring byte, or an ordinary access (R224). -/
inductive Overlay | violation | ring (off : Nat) | plain
  deriving DecidableEq, Repr

/-- Ring placement: the A iteration whose box holds the element, among the given inner indices. -/
def ringPlace (p : Pair) (iter : List Nat) (cands : List Nat) (g : List Nat) (byte : Nat) : Option Nat :=
  (cands.find? fun i => p.mapA.inBox (withInner iter i) g).map fun i =>
    (i % (p.lag + 1)) * p.mapA.slotBytes + p.mapA.boxPos (withInner iter i) g * descEsz p.mapA.desc + byte

/-- R224 and R225 for one byte of T's range; an atomic access reads as well as writes. (DEDUCED log 42) -/
def overlayOf (l : Launch) (p : Pair) (v : Via) (k : AKind) (amo : Bool) (g : List Nat) (byte : Nat) : Overlay :=
  match v.inSetup, v.iter with
  | true, _ => .violation
  | _, none => .violation
  | _, some it =>
    let t := it.getLastD 0
    let extT := l.a.exts.getD (l.a.levels.length - 1) 1
    if !v.inB then
      if !p.mapA.inBox it g then .violation
      else if (!k.isWrite ∨ amo) ∧ p.mapA.mode = 2 then .violation
      else match ringPlace p it [t] g byte with
        | some o => .ring o
        | none => .plain
    else if k.isWrite then .violation
    else
      let cands := (List.range (p.lag + 1)).map (t + ·) |>.filter (· < extT)
      match ringPlace p it cands g byte with
      | some o => .ring o
      | none => if p.mapB.inBox it g then .plain else .violation

/-- Is a byte in an elided range of the queue (R228)? -/
def inElided (q : Queue) (va : Word) : Bool := q.elisions.any fun e => (denseElem e.desc va).isSome

/-! ## Translation (R148 to R151) -/

/-- A page-table entry's fields (Table 07-1). -/
def pteV (e : Nat) : Bool := e.testBit 0
def pteLeaf (e : Nat) : Bool := e.testBit 1 || e.testBit 2 || e.testBit 3
def ptePpn (e : Nat) : Nat := e / 2 ^ 31 % 2 ^ 33
def pteHome (e : Nat) : Nat := e / 2 ^ 23 % 256
def pteKey (e : Nat) : Nat := e / 2 ^ 10 % 8192
def pteMt (e : Nat) : Nat := e / 2 ^ 7 % 4

/-- What a walk finds: the leaf, its address, the level (0 for the root table); a missing or misplaced entry; a table that lies
outside memory (R295). -/
inductive Walk
  | leaf (pte addr level : Nat)
  | invalid
  | outside
  deriving DecidableEq, Repr

/-- During the reduced service only the low 2 GiB exist (R295). -/
def State.physLimit (s : State) : Nat := if s.status.full then 2 ^ 40 else 2 ^ 31

/-- The four-level walk (R148): the table's physical address and the levels left. An entry that lies in a poisoned sector is used as
memory holds it; no rule says what the walk does there (DESIGN CHOICE log 46). -/
def walk (s : State) (va : Nat) : Nat → Nat → Nat → Walk
  | 0, _, _ => .invalid
  | fuel + 1, table, level =>
    let a := table + 8 * ((va / 2 ^ (39 - 9 * level)) % 512)
    let e := s.readPhys a 8
    if s.physLimit ≤ a then .outside
    else if !pteV e then .invalid
    else if pteLeaf e then (if level = 0 then .invalid else .leaf e a level)
    else if level = 3 then .invalid
    else walk s va fuel (ptePpn e % 2 ^ 28 * 4096) (level + 1)

def pageSize (level : Nat) : Nat := 2 ^ (39 - 9 * level)

/-- Where translated bytes lie: the memory key, the memory type, whether another package holds them, which one does, and the encryption key that the
page's KEY names there; none for the boot firmware's key 0 (R151). -/
structure Phys where
  key : Nat
  mt : Nat
  remote : Bool
  home : Nat := 0
  crypt : Option (BitVec 512) := none
  deriving DecidableEq, Repr

/-- Is a key loaded at the home package's controllers (check 5 of Table 07-2)? Another package's key table is
not in the state: whether it holds a key is open (DESIGN CHOICE log 13). -/
def State.keyLoaded (s : State) (home k : Nat) : Bool :=
  if home = s.domainId then (s.keys.get? k).isSome else Config.keyLoadedAt home k s.time

/-- The encryption key that a page's KEY names at its home (R151, R297); none for key 0. -/
def State.cryptKey (s : State) (home k : Nat) : Option (BitVec 512) :=
  if home = s.domainId then (s.keys.get? k).getD none
  else if k = 0 then none
  else some (Config.keyAbroad home k)

/-- Translate one address under a root (R148, R149); the walker sets A, and D before a write (R150). -/
def translate (w : Who) (kind : AKind) (user : Bool) (write amo : Bool) (root : Nat) (fa va : Word) : Op Phys := do
  let s ← get
  let v := va.toNat
  if sextN 48 v ≠ va then fail w kind.pageFault fa
  else match walk s v 4 root 0 with
    | .invalid => fail w kind.pageFault fa
    | .outside => fail w kind.accessFault fa
    | .leaf e a level =>
      let ppn := ptePpn e
      if (e.testBit 2 ∧ !e.testBit 1) ∨ pteMt e = 3 ∨ ppn / 2 ^ 28 ≠ 0 ∨ ppn * 4096 % pageSize level ≠ 0 then
        fail w kind.accessFault fa
      else if (user ∧ !e.testBit 4) ∨ (kind = .load ∧ !e.testBit 1) ∨ (write ∧ !e.testBit 2)
          ∨ (amo ∧ !e.testBit 1) ∨ (kind = .fetch ∧ !e.testBit 3) then
        fail w kind.pageFault fa
      else if e.testBit 9 then fail w 49 fa
      else
        let home := pteHome e
        let pa := ppn * 4096 + v % pageSize level
        if !s.keyLoaded home (pteKey e) ∨ (home = s.domainId ∧ s.physLimit ≤ pa) then fail w kind.accessFault fa
        else
          let e' := e ||| 32 ||| (if write then 64 else 0)
          set { s with mem := Memory.write s.mem a (toBytes 8 e') }
          return { key := memKey s.domainId home pa, mt := pteMt e, remote := home ≠ s.domainId, home := home, crypt := s.cryptKey home (pteKey e) }

/-- The root table of the queue that a launch belongs to (R103, R287). -/
def State.rootOf (s : State) (q : Nat) : Nat := field512 (s.queue q).installed 8 0 40

/-- The cluster reservation a launch's kernel has in a cluster. -/
def State.resvOf (s : State) (cl launch : Nat) (isB : Bool) : Option Resv :=
  (s.cluster cl).resvs.find? fun r => r.launch = launch && r.isB = isB

/-- The core scratchpad bytes of a hart that a body's window reaches: first byte of the scratchpad, and limit
(R134, R223). -/
def coreWindowOf (l : Option Launch) (inB : Bool) (h : Hart) : Nat × Nat :=
  let base := (64 - h.sbanks) * 16384
  match l.bind (·.pair.map fun p => (p, l)) with
  | some (p, some l') =>
    let (na, nb) := pairBanks l'.a p.b
    if inB then (base + na * 16384, nb * 16384) else (base, na * 16384)
  | _ => (base, h.sbanks * 16384)

/-- The limit of a body's cluster window: CLSPB rounded up to 256 (R134). -/
def clusterLimit (l : Launch) (inB : Bool) : Nat :=
  let k := match inB, l.pair with
    | true, some p => p.b
    | _, _ => l.a
  (k.clSpb + 255) / 256 * 256

/-- What the overlay of the issuer's pair says of one byte of an access (R224); a fetch meets none. -/
def State.overlayAt (s : State) (v : Option Via) (kind : AKind) (amo : Bool) (va : Word) : Overlay :=
  match kind, v with
  | .fetch, _ => .plain
  | _, none => .plain
  | _, some v => match s.launches.get? v.launch with
    | none => .plain
    | some l => match l.pair with
      | none => .plain
      | some p => match denseElem p.mapA.desc va with
        | some (e, b) => overlayOf l p v kind amo (unflatten (descExts p.mapA.desc) e) b
        | none => .plain

/-- Place one byte of a U-mode access as an ordinary one: the elided ranges first, then the windows, then the page tables
(R134, R148, R187). -/
def placePlain (w : Who) (v : Option Via) (kind : AKind) (user write amo : Bool) (fa va : Word) : Op (Loc × Option Phys) := do
  let s ← get
  let n := va.toNat
  let l := v.bind fun v => s.launches.get? v.launch
  let inB := (v.map (·.inB)).getD false
  let h := s.hartOf ((v.map (·.hart)).getD s.hart.id)
  let elided := match kind, l with
    | .fetch, _ => false
    | _, some l =>
      inElided (s.queue l.queue) va && (match l.pair with
        | some p => !((denseElem p.mapA.desc va).isSome && !p.materialised)
        | none => true)
    | _, none => false
  if elided then fail w 27 fa
  else if inCoreWindow n then
    let o := n - coreWindow
    let (base, limit) := coreWindowOf l inB h
    if kind = .fetch ∨ limit ≤ o then fail w kind.accessFault fa
    else return (.core h.id (base + o), none)
  else if inClusterWindow n then
    let o := n - clusterWindow
    match l, v with
    | some lr, some vv =>
      if kind = .fetch ∨ clusterLimit lr inB ≤ o then fail w kind.accessFault fa
      else match s.resvOf h.cluster vv.launch inB with
        | some r => return (.cluster h.cluster (r.base + o), none)
        | none => fail w kind.accessFault fa
    | _, _ => fail w kind.accessFault fa
  else
    let root := match l with
      | some l => s.rootOf l.queue
      | none => 0
    let ph ← translate w kind user write amo root fa va
    return (.mem ph.key, some ph)

/-- Place one byte of a U-mode access (R134, R148, R187): the overlay of a spliced pair first, then as an ordinary one. A write to a
ring byte of a materialised tensor is placed as an ordinary store as well, and faults as it does (R233); where that lies in a
scratchpad window, its part outside the ring is left out, which no rule says (DESIGN CHOICE log 50). `fa` is the address the access
reports. -/
def placeByte (w : Who) (v : Option Via) (kind : AKind) (user write amo : Bool) (fa va : Word) : Op (Loc × Option Phys) := do
  let s ← get
  let l := v.bind fun v => s.launches.get? v.launch
  let h := s.hartOf ((v.map (·.hart)).getD s.hart.id)
  match s.overlayAt v kind amo va with
  | .violation => fail w 26 fa 1
  | .ring o =>
    -- the ring occupies the top banks of the core scratchpad (R223)
    match l.bind fun l => l.pair.map (l, ·) with
    | some (l, p) =>
      let (na, nb) := pairBanks l.a p.b
      let at' : Loc := .core h.id ((64 - h.sbanks + na + nb) * 16384 + o)
      if p.materialised ∧ write then
        let (_, ph) ← placePlain w v kind user write amo fa va
        return (at', ph)
      else return (at', none)
    | none => fail w 26 fa 1
  | .plain => placePlain w v kind user write amo fa va

/-- How an access is made: bare physical in M-mode, else through the running launch (R149, DEDUCED log 14). -/
inductive Access
  | phys                              -- M-mode
  | virt (v : Option Via) (user : Bool)
  | queue (q : Nat)                   -- an engine, for a queue's launch that has left the device
  deriving DecidableEq, Repr

/-- The present hart's data accesses: M-mode addresses are physical unless mstatus.MPRV selects U-mode. -/
def State.access (s : State) (h : Hart) : Access :=
  match h.mode with
  | .u => .virt (s.via h) true
  | .m => if bitAt h.mstatus mprvBit ∧ mppOf h.mstatus = .u then .virt (s.via h) false else .phys

/-- Place one byte for an engine that outlives its launch (R263): no scratchpad window is left to it. -/
def placeQueue (w : Who) (q : Nat) (kind : AKind) (write amo : Bool) (fa va : Word) : Op (Loc × Option Phys) := do
  let s ← get
  let n := va.toNat
  if inElided (s.queue q) va then fail w 27 fa
  else if inWindow n then fail w kind.accessFault fa
  else
    let ph ← translate w kind true write amo (s.rootOf q) fa va
    return (.mem ph.key, some ph)

/-- Place one byte. -/
def placeOne (w : Who) (a : Access) (kind : AKind) (write amo : Bool) (fa va : Word) : Op (Loc × Option Phys) := do
  match a with
  | .phys =>
    let s ← get
    if s.physLimit ≤ va.toNat then fail w kind.accessFault fa else return (.mem va.toNat, none)
  | .virt v user => placeByte w v kind user write amo fa va
  | .queue q => placeQueue w q kind write amo fa va

/-- Place each byte of an access, in ascending address. -/
def placeBytes (w : Who) (a : Access) (kind : AKind) (write amo : Bool) (fa : Word) : Word → Nat → Op (List (Loc × Option Phys))
  | _, 0 => return []
  | va, n + 1 => do
    let p ← placeOne w a kind write amo fa va
    let ps ← placeBytes w a kind write amo fa (va + 1) n
    return p :: ps

/-- Does a placed byte lie in another package's memory? -/
def isRemote (p : Loc × Option Phys) : Bool := (p.2.map (·.remote)).getD false

/-- The kind of an access as the environment names it. -/
def AKind.remote : AKind → RemoteKind
  | .fetch => .fetch
  | .load => .load
  | .store => .store

/-- The tick at which a hart made an access that gets no answer, if it has made it. -/
def Hart.unanswered (h : Hart) (kind : RemoteKind) (elem : Nat) (va : Word) : Option (Option Nat) :=
  match h.remoteFault with
  | some u => if u.kind = kind ∧ u.elem = elem ∧ u.va = va then some u.since else none
  | none => none

/-- A remote read that gets no answer within 4,000 ticks raises the access fault of its kind (R277): the environment says which, and
none is answered while the ports are down (R295). Until then the hart waits. An AMO reads with kind `store`. -/
def checkRemote (w : Who) (kind : AKind) (fa : Word) (ps : List (Loc × Option Phys)) : Op Unit := do
  if ps.any isRemote then
    let s ← get
    match s.hart.unanswered kind.remote w.elem fa with
    | some (some t) =>
      if s.time < t + fabricTimeout then throw (.hold none)
      modH fun h => { h with remoteFault := none }
      fail w kind.accessFault fa
    | some none => throw (.hold (some (kind.remote, w.elem, fa)))
    | none => if !s.linksUp then throw (.hold (some (kind.remote, w.elem, fa)))

/-- The poison sub-cause of a byte's sector, if it is poisoned: 1 in HBM, 2 in the L2 or a scratchpad (R196). -/
def State.poisonSub (s : State) (l : Loc) : Option Nat :=
  match l with
  | .mem k => (s.poisonOf k).map fun p => match p with | .hbm => 1 | .l2 => 2
  | _ => match s.block l with
    | some b => if (l.offset % 256) / 32 ∈ b.poison then some 2 else none
    | none => none

/-- STALE's sub-cause for a byte: 1 expired, 2 unwritten (R137). -/
def State.staleSub (s : State) (l : Loc) : Option Nat :=
  match s.block l with
  | none => none
  | some b => match b.state s.time with
    | .live => none
    | .expired => some 1
    | .unwritten => some 2

/-- The encryption key of a placed byte; none without a page. -/
def cryptOf (ph : Option Phys) : Option (BitVec 512) := ph.bind (·.crypt)

/-- The byte that an access finds at a place. (DESIGN CHOICE log 28) -/
def State.byteAt (s : State) (p : Loc × Option Phys) : Byte :=
  match p.1 with
  | .mem k => byteUnder (cryptOf p.2) s.mem k
  | l => match s.block l with
    | some b => b.data.get (l.offset % 256)
    | none => 0

/-- Does this access take POISON as a trap: the running kernel's PTRAP (R198, R199), or a read that always does. -/
inductive PoisonPolicy | running | always | never
  deriving DecidableEq, Repr

/-- The checks of a read after placement: poison, then stale; true when the drop policy makes it read zero. -/
def readChecks (w : Who) (pol : PoisonPolicy) (fa : Word) (ps : List (Loc × Option Phys)) : Op Bool := do
  let s ← get
  let p := ps.findSome? fun (l, _) => s.poisonSub l
  let traps := match pol with
    | .always => true
    | .never => false
    | .running => s.flag s.hart 2
  match p with
  | some sub => if traps then fail w 25 fa sub else pure ()
  | none => pure ()
  match ps.findSome? fun (l, _) => s.staleSub l with
  | some sub => fail w 24 fa sub
  | none => pure ()
  return p.isSome && pol = .running

/-- VPOISCNT counts one element, saturating (Table 09-3). -/
def Hart.countPoison (h : Hart) : Hart :=
  { h with vpoiscnt := if h.vpoiscnt = BitVec.allOnes 64 then h.vpoiscnt else h.vpoiscnt + 1 }

def countPoison : Op Unit := modH Hart.countPoison

/-- Do two bytes of an access, one after the other, go to one place at adjacent positions (R224)? -/
def Overlay.joins : Overlay → Overlay → Bool
  | .plain, .plain => true
  | .violation, .violation => true
  | .ring a, .ring b => b = a + 1
  | _, _ => false

/-- The lengths of the parts that R224 splits an access into. -/
def partLengths : List Overlay → List Nat
  | [] => []
  | [_] => [1]
  | o :: p :: t => match partLengths (p :: t) with
    | n :: ns => if o.joins p then (n + 1) :: ns else 1 :: n :: ns
    | [] => [1]

/-- Does the issuer of an access run a spliced pair? -/
def State.pairOf (s : State) (a : Access) : Option Pair :=
  match a with
  | .virt (some v) _ => (s.launches.get? v.launch).bind (·.pair)
  | _ => none

/-- The parts of an access of `n` bytes (R224): one, unless a spliced pair's overlay splits it. -/
def State.parts (s : State) (a : Access) (kind : AKind) (amo : Bool) (va : Word) (n : Nat) : List Nat :=
  match a, s.pairOf a with
  | .virt v _, some _ => partLengths ((List.range n).map fun i => s.overlayAt v kind amo (va + BitVec.ofNat 64 i))
  | _, _ => [n]

/-- Only the checks of R225 and the stale check apply to ring bytes of an elided tensor (R233). -/
def State.partPolicy (s : State) (a : Access) (kind : AKind) (amo : Bool) (pol : PoisonPolicy) (va : Word) : PoisonPolicy :=
  match a, s.pairOf a with
  | .virt v _, some p => match s.overlayAt v kind amo va with
    | .ring _ => if p.materialised then pol else .never
    | _ => pol
  | _, _ => pol

/-- Place the parts of an access that reads, each with all its checks before the next (R187, R224): the bytes, and whether the
drop policy makes the access read zero. -/
def placeParts (w : Who) (a : Access) (kind : AKind) (write amo : Bool) (pol : PoisonPolicy) (fa : Word) :
    Word → List Nat → Op (List (Loc × Option Phys) × Bool)
  | _, [] => return ([], false)
  | va, n :: ns => do
    let s ← get
    let ps ← placeBytes w a kind write amo fa va n
    checkRemote w kind fa ps
    let zero ← readChecks w (s.partPolicy a kind amo pol va) fa ps
    let (qs, z) ← placeParts w a kind write amo pol fa (va + BitVec.ofNat 64 n) ns
    return (ps ++ qs, zero || z)

/-- Read `n` bytes with the checks of mem_read but alignment (R109): the bytes, and whether the drop policy made them zero. -/
def readUncounted (w : Who) (a : Access) (kind : AKind) (pol : PoisonPolicy) (va : Word) (n : Nat) : Op (List Byte × Bool) := do
  let s ← get
  let (ps, zero) ← placeParts w a kind false false pol va va (s.parts a kind false va n)
  let s ← get
  return (if zero then List.replicate n 0 else ps.map s.byteAt, zero)

/-- The same for an access whose element commits with it: VPOISCNT counts it (R198). -/
def readBytes (w : Who) (a : Access) (kind : AKind) (pol : PoisonPolicy) (va : Word) (n : Nat) : Op (List Byte) := do
  let (bs, zero) ← readUncounted w a kind pol va n
  if zero then countPoison
  return bs

/-- Write one byte at a place, under an encryption key where it lies in memory. -/
def writeLoc (k : Nat) (c : Option (BitVec 512)) (l : Loc) (b : Byte) : Op Unit := modify fun s =>
  match l with
  | .mem a => { s with mem := putUnder c s.mem a b }
  | _ => match s.block l with
    | some blk => s.setBlock l (blk.write s.time k (l.offset % 256) b)
    | none => s

/-- The byte of the same kind and owner at another offset. -/
def Loc.move (l : Loc) (o : Nat) : Loc :=
  match l with
  | .mem _ => .mem o
  | .core h _ => .core h o
  | .cluster c _ => .cluster c o

/-- Clear the poison of a byte's sector. -/
def State.unpoison (s : State) (l : Loc) : State :=
  match l with
  | .mem k => { s with poison := s.poison.filter (·.1 ≠ sectorOf k) }
  | _ => match s.block l with
    | some b => s.setBlock l { b with poison := b.poison.filter (· ≠ (l.offset % 256) / 32) }
    | none => s

/-- Poison the sector of a byte. -/
def State.setPoison (s : State) (l : Loc) (site : PoisonSite) : State :=
  match l with
  | .mem k => { s with poison := (sectorOf k, site) :: s.poison.filter (·.1 ≠ sectorOf k) }
  | _ => match s.block l with
    | some b =>
      let i := (l.offset % 256) / 32
      s.setBlock l { b with poison := if i ∈ b.poison then b.poison else i :: b.poison }
    | none => s

/-- A write that covers a whole sector clears its poison (R196): `ls` are the bytes of one write. -/
def clearPoison (ls : List Loc) : Op Unit := modify fun s =>
  ls.foldl (fun s l =>
    if (s.poisonSub l).isNone then s
    else
      let sec := l.offset / 32
      if (List.range 32).all fun i => ls.contains (l.move (32 * sec + i)) then s.unpoison l else s) s

/-- Every byte that a write reaches: a materialised ring byte is in memory too (R227). -/
def allLocs (ps : List (Loc × Option Phys)) : List Loc :=
  ps.flatMap fun (l, ph) => match l, ph with
    | .mem k, _ => [.mem k]
    | _, some p => [l, .mem p.key]
    | _, none => [l]

/-- The key of a byte for a load reservation: a memory key, or a scratchpad byte above every memory key. -/
def Loc.resKey : Loc → Nat
  | .mem k => k
  | .core h b => 2 ^ 50 + h * 2 ^ 20 + b
  | .cluster c b => 2 ^ 51 + c * 2 ^ 23 + b

/-- A store breaks a reservation on the bytes it covers (RISC-V LR/SC). -/
def breakReservations (keys : List Nat) : Op Unit := modify fun s =>
  if keys = [] then s
  else s.mapHarts fun h => match h.reservation with
    | some (k, n) => if keys.any (fun a => k ≤ a && a < k + n) then { h with reservation := none } else h
    | none => h

/-- A write of `n` bytes from a key breaks the reservations that it meets. -/
def breakRange (key n : Nat) : Op Unit := modify fun s =>
  s.mapHarts fun h => match h.reservation with
    | some (k, m) => if k < key + n && key < k + m then { h with reservation := none } else h
    | none => h

/-- The memory keys that placed bytes reach. -/
def placedKeys (ps : List (Loc × Option Phys)) : List Nat :=
  ps.filterMap fun (l, ph) => match l with
    | .mem a => some a
    | _ => ph.map (·.key)

/-- Write placed bytes; a materialised ring byte goes to memory as well (R227). -/
def storePlaced (ps : List (Loc × Option Phys)) (bs : List Byte) : Op Unit := do
  let k ← draw
  for ((l, ph), b) in ps.zip bs do
    writeLoc k (cryptOf ph) l b
    match l, ph with
    | .mem _, _ => pure ()
    | _, some p => writeLoc k p.crypt (.mem p.key) b
    | _, none => pure ()
  clearPoison (allLocs ps)
  breakReservations (ps.map (·.1.resKey) ++ placedKeys ps)

/-- The agent of a hart whose access it is. -/
def Who.agent (w : Who) : Agent := if w.cu then .array else if w.unit = 0 then .scalar else .vector

/-- Is a remote write of a writer at an address lost: the environment does not let it through, or the ports are down (R278,
R295)? -/
def State.loses (s : State) (wr : Writer) (va : Word) : Bool := !s.linksUp || s.doomed.contains (wr, va)

/-- What is left of a write whose remote bytes are lost: its other bytes, among them a materialised ring's. -/
def keptPart : (Loc × Option Phys) × Byte → Option ((Loc × Option Phys) × Byte)
  | ((l, ph), b) => if !isRemote (l, ph) then some ((l, ph), b)
    else match l with
      | .mem _ => none
      | _ => some ((l, none), b)

/-- A write of placed bytes by a writer, whose releases by the agents `views` cover it. A remote write that is not delivered
changes nothing at its home and is remembered as lost (R151, R278). -/
def writeAs (wr : Writer) (views : List Agent) (va : Word) (ps : List (Loc × Option Phys)) (bs : List Byte) : Op Unit := do
  let s ← get
  if ps.any isRemote && s.loses wr va then
    set { s with doomed := s.doomed.erase (wr, va), lost := s.lost ++ [LostWrite.mk wr views va s.time] }
    let kept := (ps.zip bs).filterMap keptPart
    storePlaced (kept.map (·.1)) (kept.map (·.2))
  else storePlaced ps bs

/-- A hart's write of placed bytes. -/
def writePlaced (w : Who) (va : Word) (ps : List (Loc × Option Phys)) (bs : List Byte) : Op Unit := do
  let h ← getH
  writeAs (.hart h.id) [w.agent] va ps bs

/-- Write bytes with the checks of mem_write but alignment (R109). -/
def writeBytes (w : Who) (a : Access) (va : Word) (bs : List Byte) : Op Unit := do
  let ps ← placeBytes w a .store true false va va bs.length
  writePlaced w va ps bs

/-- `mem_read(va, n, e)` of Table 04-19 for the present hart. -/
def memRead (w : Who) (va : Word) (n : Nat) : Op Nat := do
  if va.toNat % n ≠ 0 then fail w 4 va
  let s ← get
  return ofBytes (← readBytes w (s.access s.hart) .load .running va n)

/-- The same read before its element commits: the value, and whether the drop policy made it zero, which VPOISCNT then counts
(R198). -/
def memReadUncounted (w : Who) (va : Word) (n : Nat) : Op (Nat × Bool) := do
  if va.toNat % n ≠ 0 then fail w 4 va
  let s ← get
  let (bs, zero) ← readUncounted w (s.access s.hart) .load .running va n
  return (ofBytes bs, zero)

/-- `mem_write(va, n, val, e)` of Table 04-19 for the present hart. -/
def memWrite (w : Who) (va : Word) (n v : Nat) : Op Unit := do
  if va.toNat % n ≠ 0 then fail w 6 va
  let s ← get
  writeBytes w (s.access s.hart) va (toBytes n v)

/-- One atomic read-modify-write (R306, R353): store causes throughout; a poisoned operand reads zero under the
drop policy and counts once. A remote one is performed at its home (R277): its write has arrived once its old value is
answered. -/
def memAmo (w : Who) (va : Word) (n : Nat) (f : Nat → Nat) : Op Nat := do
  if va.toNat % n ≠ 0 then fail w 6 va
  let s ← get
  let a := s.access s.hart
  let (ps, zero) ← placeParts w a .store true true .running va va (s.parts a .store true va n)
  if zero then countPoison
  let s ← get
  let old := if zero then 0 else ofBytes (ps.map s.byteAt)
  storePlaced ps (toBytes n (f old))
  return old

end Sys2Proof.Machine
end

