-- ==== Sys2Proof/Machine/Fetch.lean ====
section
/-!
DEFINITION. Instruction fetch (check 1 of Table 04-13, R390), and what an instruction is to the vector queue.
-/

namespace Sys2Proof.Machine

/-- How the hart fetches: M-mode physically, U-mode through the queue's tables. -/
def State.fetchAccess (s : State) (mode : Mode) (h : Hart) : Access :=
  match mode with
  | .m => .phys
  | .u => .virt (s.via h) true

/-- The poison that a fetch meets in a byte's sector: that of the instruction cache's copy, which stays until a FENCE.I, or that of
the sector itself (R390). -/
def State.fetchSub (s : State) (l : Loc) : Option Nat :=
  (s.hart.ipoison.find? (·.1 = sectorOf l.resKey)).map (·.2) <|> s.poisonSub l

/-- Two bytes of an instruction at `pc`, at address `va`: translation and permission, then poison, which traps under
either policy with the instruction's address and stays in the instruction cache (R390). -/
def fetchHalf (a : Access) (pc va : Word) : Op (List Byte) := do
  let ps ← placeBytes {} a .fetch false false va va 2
  checkRemote {} .fetch va ps
  let s ← get
  match ps.findSome? fun (l, _) => (s.fetchSub l).map (sectorOf l.resKey, ·) with
  | some (sec, sub) =>
    modH fun h => { h with ipoison := (sec, sub) :: h.ipoison.filter (·.1 ≠ sec) }
    raise { cause := 25, addr := some pc, sub := sub }
  | none => return ps.map s.byteAt

/-- The bytes of the instruction at `pc`: two, or four when bits [1:0] are 0b11 (R91). Its length is known only from its first
half, so poison there is met before the second half is translated (DEDUCED log 41). -/
def fetchAt (a : Access) (pc : Word) : Op (List Byte) := do
  if pc.toNat % 2 ≠ 0 then raise { cause := 0, addr := some pc, mtvalAddr := true }
  let lo ← fetchHalf a pc pc
  if (ofBytes lo) % 4 = 3 then
    let hi ← fetchHalf a pc (pc + 2)
    return lo ++ hi
  else return lo

/-- The word that `ir` holds: the instruction's 32 or 16 bits, zero-extended (R102). -/
def irOf (bs : List Byte) : BitVec 32 := BitVec.ofNat 32 (ofBytes bs)

/-- Instructions of formats V and VM: they resume at an element (R34). -/
def isVector : Instr → Bool
  | .vadd _ | .vsub _ | .vmul _ | .vmulh _ | .vmin _ | .vmax _ | .vminu _ | .vmaxu _ | .vand _ | .vor _ | .vxor _
  | .vsll _ | .vsrl _ | .vsra _ | .vsadd _ | .vbfx _ | .vpopc _ | .vclz _ | .vfshl _ | .vfshr _
  | .vfadd _ | .vfsub _ | .vfmul _ | .vfdiv _ | .vfma _ | .vfms _ | .vfnma _ | .vfmin _ | .vfmax _ | .vfsgnj _
  | .vfscale _ | .vfscl _ | .vfsqrt _ | .vfexp2 _ | .vfabs _ | .vfneg _ | .vfrnd _
  | .vcmpeq _ | .vcmpne _ | .vcmplt _ | .vcmple _ | .vcmpltu _ | .vcmpleu _ | .vfcmplt _ | .vfcmple _
  | .vcompress _ _ | .vslideup _ | .vslidedn _ | .vgather _ | .vredsum _ | .vredmax _ | .vredmin _ | .vfredsum _
  | .vfredmax _ | .vcvt _ _ | .vmv _ | .viota _ | .vid _ | .vtrans _
  | .vld _ | .vst _ | .vldc _ | .vlsc _ | .vssc _ | .vamoadd _ | .vamomax _ | .vamomin _ => true
  | _ => false

/-- Is the instruction at `pc`, fetched in a mode, a vector instruction (R184)? -/
def State.vectorAt (s : State) (mode : Mode) (pc : Word) : Bool :=
  match (fetchAt (s.fetchAccess mode s.hart) pc).run s with
  | .ok bs _ => match decode bs with
    | .ok (i, _) => isVector i
    | .error _ => false
  | .error _ _ => true   -- the fetch traps, and the trap sets VXI

/-- VXI is cleared when the instruction the hart resumes at is not a vector instruction (R184). -/
def clearVxi (s : State) : State :=
  if s.hart.vxi = 0 ∧ s.hart.skipped = [] then s
  else if s.vectorAt s.hart.mode s.hart.pc then s
  else { s with hart := { s.hart with vxi := 0, skipped := [] } }

end Sys2Proof.Machine
end

