-- ==== Sys2Proof/Machine/Runtime.lean ====
section
/-!
DEFINITION. What the on-core runtime and the front end do inside a trap's step: ending a launch (R186), the queue
error word (R53), delivery to a hook (R256), the ECALL functions (R255), pre-emption and the start of a save
(R200 to R203), and the outcome of an instruction.
-/

namespace Sys2Proof.Machine

/-! ## Queue errors -/

/-- Run an operation; what a trap leaves undone is undone. -/
def tryOp {α : Type} (x : Op α) (s : State) : Option α × State :=
  match x.run s with
  | .ok a s' => (some a, s')
  | .error _ _ => (none, s)

/-- Does an access of a queue's front end get no answer: its home gives none, or the ports are down (R277, R295)? -/
def State.noAnswer (s : State) (p : Phys) : Bool := p.remote && !(s.linksUp && Config.answers p.home s.time)

/-- Have 4,000 ticks passed since the front end of a queue first got no answer (R277)? -/
def State.askedLong (s : State) (q : Nat) : Bool :=
  match (s.queue q).asked with
  | some t => t + fabricTimeout ≤ s.time
  | none => false

/-- Translate an address of the front end. A scratchpad window belongs to a hart, so an address in one is an access fault (R134), which
no rule says of the front end (DESIGN CHOICE log 15). An access without an answer fails after 4,000 ticks (R277). -/
def qTranslate (q : Nat) (kind : AKind) (write amo : Bool) (va : Word) : Op Phys := do
  let s ← get
  if inWindow va.toNat then fail {} kind.accessFault va
  let p ← translate {} kind false write amo (s.rootOf q) va va
  if s.noAnswer p then
    if s.askedLong q then fail {} kind.accessFault va else throw (.hold none)
  return p

/-- Read bytes through a queue's translation, as the front end does (DEDUCED log 15). -/
def qRead (q : Nat) (va : Word) : Nat → Op (List Byte)
  | 0 => return []
  | n + 1 => do
    let p ← qTranslate q .load false false va
    let b := byteUnder p.crypt (← get).mem p.key
    let bs ← qRead q (va + 1) n
    return b :: bs

/-- The places of bytes to be written through a queue's translation. -/
def qPlaces (q : Nat) (va : Word) : Nat → Op (List (Loc × Option Phys))
  | 0 => return []
  | n + 1 => do
    let p ← qTranslate q .store true false va
    let ps ← qPlaces q (va + 1) n
    return (.mem p.key, some p) :: ps

/-- Write bytes through a queue's translation, all of them or none. -/
def qWrite (q : Nat) (va : Word) (bs : List Byte) : Op Unit := do
  let ps ← qPlaces q va bs.length
  storePlaced ps bs

/-- Table 02-6. -/
def errorWord (recIdx pair tcause cause : Nat) : Word :=
  BitVec.ofNat 64 (recIdx % 2 ^ 32 * 2 ^ 32 + pair % 256 * 2 ^ 24 + tcause % 256 * 2 ^ 16 + cause % 256)

/-- The error word goes to ERRW through the queue's translation; a write that faults is lost (R53). The host gets
the queue-error interrupt. -/
def queueError (q recIdx pair tcause cause : Nat) (s : State) : State :=
  let w := errorWord recIdx pair tcause cause
  let s := s.setQueue q { s.queue q with error := w }
  let errw := field512 (s.queue q).installed 0x10 0 48
  let s := if errw = 0 then s else (tryOp (qWrite q (sext48 errw) (toBytes 8 w.toNat)) s).2
  { s with msix := 1 :: s.msix }

/-- The index of a pair's second record (R220). -/
def Launch.pairIdx (l : Launch) : List Nat :=
  match l.pair with
  | some p => [(l.recIdx + p.dist) % 2 ^ 32]
  | none => []

/-- The distance from a pair's first record to its second; 0 for one kernel (Table 02-6). -/
def Launch.dist (l : Launch) : Nat := (l.pair.map (·.dist)).getD 0

/-- The records of a queue from an index up to its head, both left out: each has begun, or belongs to a pair that has. -/
def Queue.passed (q : Queue) (idx : Nat) : List Nat :=
  (List.range ((q.head - BitVec.ofNat 32 idx).toNat - 1)).map fun i => (idx + 1 + i) % 2 ^ 32

/-- The queue stops at the record of launch `n`, `begun` being the launch that has begun at its head. Records after it that have
begun are not dispatched again; the second record of a pair is (DESIGN CHOICE log 16). A queue already stopped at an earlier
record stays there, and this record begins again in its turn. -/
def Queue.stopAt (q : Queue) (n : Nat) (l : Launch) (begun : Option (Nat × Launch)) : Queue :=
  let own := l.recIdx :: l.pairIdx
  let above := (BitVec.ofNat 32 l.recIdx - q.head).toNat
  if 0 < above ∧ above < 2 ^ 31 then
    { q with consumed := q.consumed.filter (!own.contains ·), overlapped := q.overlapped.filter (· ≠ n) }
  else
    let (more, idxs) : List Nat × List Nat := match begun with
      | some (m, k) => if m = n then ([], []) else ([m], k.recIdx :: k.pairIdx)
      | none => ([], [])
    { q with
      head := BitVec.ofNat 32 l.recIdx
      state := .stopped l.dist none
      consumed := (q.consumed ++ q.passed l.recIdx ++ idxs).filter (!own.contains ·)
      overlapped := q.overlapped.filter (· ≠ n) ++ more }

/-- The launch that has begun at the head of a queue. -/
def State.headLaunch (s : State) (q : Nat) : Option (Nat × Launch) :=
  match (s.queue q).state with
  | .begun m => (s.launches.get? m).map (m, ·)
  | _ => none

/-! ## The end of a launch -/

/-- A hart that a launch no longer holds: it waits in the on-core runtime; its M-mode registers stay. -/
def Hart.freed (h : Hart) : Hart :=
  { h with status := .free, mode := .m, job := none, clause := none, grant := none, hook := none, hookSave := none,
           preq := 0, mip := setBit h.mip 16 false, reservation := none, cancel := none, stopAt := none, atOnce := false,
           convoy := [], freshConvoy := true, pollPoison := false, boundaryWait := false }

/-- A hart retired from its launch: it keeps its core reservation and stack slot until they are released (R318). -/
def Hart.retired (h : Hart) : Hart := { h.freed with status := .retired, job := h.job }

/-- A hart or context leaves its launch: nothing stands under its name any more. -/
def State.leave (w : Writer) (s : State) : State :=
  let s := s.forget (· = w)
  { s with regs := s.regs.map fun r => if r.holder = some w then { r with holder := none } else r }

/-- A hart retires from launch `n`, which goes on: its writes that were not delivered stand for the launch, whose completion's
release covers every memory write of every iteration (R32, R278). -/
def State.retireFrom (w : Writer) (n : Nat) (s : State) : State :=
  { s with lost := s.lost.map fun (l : LostWrite) => if l.writer = w then { l with writer := .launch n } else l }.leave w

def Hart.inLaunch (h : Hart) (l : Nat) : Bool := (h.job.map (·.launch)) = some l

/-- Drop a launch that a handler ended once no hart and no command of it is left (R186, DESIGN CHOICE log 16). -/
def cleanEnded (launch : Nat) (s : State) : State :=
  match s.launches.get? launch with
  | none => s
  | some l =>
    if !l.ended ∨ s.harts.any (·.inLaunch launch) ∨ s.clusters.any (fun (_, c) => c.scarab.any (·.via.launch = launch))
    then s
    else
      { s with
        launches := s.launches.drop launch
        clusters := s.clusters.map fun p => (p.1, { p.2 with resvs := p.2.resvs.filter (·.launch ≠ launch) })
        pins := s.pins.map fun p => (p.1, p.2.map fun x => x.filter (·.launch ≠ launch)) }

/-- R186: the harts of the launch stop, their contexts are discarded and the stack slots that these held freed (R290), commands issued run on, the queue stops at
the record with CAUSE TRAP, the completion counter is not advanced. -/
def endLaunch (launch tcause : Nat) (s : State) : State :=
  match s.launches.get? launch with
  | none => s
  | some l =>
    let s := { s with launches := s.launches.put launch { l with ended := true, keys := [] } }
    let hs := s.harts.filter (·.inLaunch launch)
    let cs := s.contexts.filter (·.hart.inLaunch launch)
    let s := (.launch launch :: hs.map (Writer.hart ·.id) ++ cs.map (Writer.context ·.id)).foldl (fun s w => s.leave w) s
    let s := s.mapHarts fun h => if h.inLaunch launch then h.retired else h
    let s := s.setQueue l.queue { s.queue l.queue with
      slots := (s.queue l.queue).slots.filter fun i => !cs.any fun c => c.saved && c.hart.job.bind (·.slot) = some i }
    let s := { s with
      contexts := s.contexts.filter fun c => !c.hart.inLaunch launch
      clusterSaves := s.clusterSaves.filter (·.launch ≠ launch)
      clusters := s.clusters.map fun (p : Nat × Cluster) => (p.1, { p.2 with gens := p.2.gens.filter (·.launch ≠ launch) }) }
    let s := s.setQueue l.queue ((s.queue l.queue).stopAt launch l (s.headLaunch l.queue))
    queueError l.queue l.recIdx l.dist tcause 0x10 s

/-- End the launch the present hart runs, if it runs one. -/
def endOwnLaunch (tcause : Nat) (s : State) : State :=
  match s.hart.job with
  | some j => endLaunch j.launch tcause s
  | none => s

/-! ## Hooks and the ECALL functions -/

/-- R256: the copy is taken and the hook entered in U-mode. -/
def enterHook (a : Word) (h : Hart) : Hart :=
  let save : HookSave := .mk h.x h.f h.fcsr h.mepc h.vxi h.mcause h.kcause h.faddr
  let g := ((h.setX 10 h.mcause).setX 11 h.faddr).setX 12 h.kcause
  { g with
    hookSave := some save, mode := .u, mstatus := mstatusRet h.mstatus, pc := a, convoy := [], freshConvoy := true }

/-- HOOKRET: the copy restored, the trapped context resumed as MRET resumes it (R184, R256). -/
def leaveHook (c : HookSave) (h : Hart) : Hart :=
  { h with x := c.x, f := c.f, fcsr := c.fcsr, mepc := c.mepc, vxi := c.vxi, mcause := c.mcause, kcause := c.kcause,
           faddr := c.faddr, hookSave := none, mode := .u, mstatus := mstatusRet h.mstatus, pc := c.mepc,
           convoy := [], freshConvoy := true }

/-- A function returns to the instruction after the ECALL, in a hart that holds what it held before it (R255); the trap has ended an
open convoy (R41). -/
def serviceReturn (h : Hart) : Hart :=
  { h with pc := h.pc + 4, convoy := [], freshConvoy := true, stopAt := none, pollPoison := false, boundaryWait := false,
           remoteFault := none }

/-- HOOKSET (R255): set, clear, or refuse the hook; every register but x10 stays as it was before the ECALL. -/
def serveHookset (s : State) : State :=
  let h := s.hart
  let a := h.xr 10
  State.resumed (if a.toNat % 4 ≠ 0 then { s with hart := serviceReturn (h.setX 10 (BitVec.allOnes 64)) }
    else { s with hart := serviceReturn { h.setX 10 0 with hook := if a = 0 then none else some a } })

def serveHookret (s : State) : State :=
  match s.hart.hookSave with
  | some c => State.resumed (clearVxi { s with hart := leaveHook c s.hart })
  | none => endOwnLaunch 8 s

/-- ABORT (R255): TCAUSE is the cause the hook handles, else 8. (DEDUCED log 25) -/
def serveAbort (s : State) : State :=
  match s.hart.hookSave with
  | some c => endOwnLaunch c.mcause.toNat s
  | none => endOwnLaunch 8 s

def serveUnknown (s : State) : State := endOwnLaunch 8 s

/-- The ECALL functions of Table 15-2, by x17: `s` is the state at the ECALL, `t` the one its trap leaves. -/
def serve (s t : State) : State :=
  match (s.hart.xr 17).toNat with
  | 0x100 => serveHookset s
  | 0x101 => serveHookret t
  | 0x102 => serveAbort t
  | _ => serveUnknown t

def isHookCause (c : Nat) : Bool := c = 24 || c = 25 || c = 28

/-- A trap, and what the runtime does with it in the same step: an ECALL from U-mode is served, a hook cause is
delivered or ends the launch (R255, R256); every other trap leaves the hart at the M-mode handler (R183, R392). -/
def deliver (t : Trap) (s : State) : State :=
  let user := s.hart.mode = .u
  let s' := takeTrap t s
  if user ∧ isHookCause t.cause then
    match s'.hart.hook, s'.hart.hookSave with
    | some a, none => State.resumed { s' with hart := enterHook a s'.hart }
    | _, _ => endOwnLaunch t.cause s'
  else if user ∧ t.cause = 8 then serve s s'
  else s'

/-! ## Pre-emption -/

/-- Renew a block that is live (R141, R203). -/
def Block.renewed (time : Nat) (b : Block) : Block :=
  if b.state time = .live then { b with stamp := BitVec.ofNat 10 time } else b

/-- What a save records of blocks from `first` on, `count` of them (R203). -/
def saveBlocks (time first count : Nat) (t : Tab Block) : List SavedBlock :=
  (t.filter fun (i, b) => first ≤ i && i < first + count && b.live).map fun (i, b) =>
    { block := i - first, content := if b.state time = .live then some b else none }

/-- Blocks of the core scratchpad: first, count (R127). -/
def Hart.coreBlocks (h : Hart) : Nat × Nat := ((64 - h.sbanks) * 64, h.sbanks * 64)

/-- The running hart leaves any barrier generation it waits in (R175, R391). One that nobody waits in any more is closed, which R175 does
not say (DESIGN CHOICE log 47). -/
def withdraw (id : Nat) (c : Cluster) : Cluster :=
  let gens := c.gens.map fun g => { g with waiting := g.waiting.filter (· ≠ id) }
  { c with gens := gens.filter (·.waiting ≠ []) }

/-- PROFILE of this device: CV 1.2, CM 1.1, CC 1.0 (Table 00-1). -/
def deviceProfile : Nat := 0x101112

/-- Feature bits with live state (R208). -/
def liveBits (full grant coll : Bool) : Nat :=
  (if full then 1 + 8 + 64 else 0) + (if grant then 2 else 0) + (if coll then 4 else 0)

/-- Renew the live blocks of a range of a scratchpad. -/
def renewRange (time first count : Nat) (t : Tab Block) : Tab Block :=
  t.map fun (i, b) => (i, if first ≤ i && i < first + count then b.renewed time else b)

/-- The cluster save of a launch begins: its reservations' live blocks are renewed (R203, R204). -/
def startClusterSave (cl launch : Nat) (s : State) : State :=
  let c := s.cluster cl
  let mine := c.resvs.filter (·.launch = launch)
  let spad := mine.foldl (fun t r => renewRange s.time (r.base / 256) (r.size / 256) t) c.spad
  let s := s.setCluster cl { c with spad := spad }
  { s with clusterSaves := s.clusterSaves ++
      [{ launch := launch, cluster := cl, startTick := s.time, saved := false, blocks := [] }] }

/-- Is a launch a gang (R211)? -/
def Kernel.isGang (k : Kernel) : Bool :=
  let n := ((k.levels.zip k.exts).filterMap fun (l, e) => if l = 1 then some e else none).prod
  k.levels.contains 1 && !k.levels.contains 2 && 2 ≤ n && n ≤ 4

/-- Interrupt 16 is taken at (pc, vxi). A hart of a launch is saved: its context is recorded, the live blocks of
its core scratchpad renewed, its grant released, and the hart waits for the save to end (R200 to R204, R236). The pre-emption orders what the hart did before
as FENCE.ALL does (R181). Every renewal takes place as the save starts, so that no block that is live then expires under it
(DESIGN CHOICE log 31). Outside a launch the interrupt only enters the handler. -/
def preempt (full forced : Bool) (pc : Word) (vxi : Nat) (s : State) : State :=
  let s := (takeInterrupt pc vxi forced s).viewWrites bothViews
  let h := s.hart
  let s := s.setCluster h.cluster (withdraw h.id (s.cluster h.cluster))
  match h.job, s.launchOf h with
  | some j, some l =>
    let (first, count) := h.coreBlocks
    let coll := s.regs.any fun r => r.holder = some (.hart h.id) && r.launch = j.launch
    let pool := renewRange s.time first count h.pool
    let ctx : Context :=
      { id := s.nextContext, cluster := h.cluster, hart := { h with pool := pool }, full := full
        hdr := s.korigin h, profile := deviceProfile, live := liveBits full h.grant.isSome coll, status := 0, missing := 0
        startTick := s.time, saved := false, blocks := [] }
    let s := { s with
      hart := { h with pool := pool, grant := none, status := .saving }
      contexts := s.contexts ++ [ctx]
      nextContext := s.nextContext + 1 }
    let others := s.harts.any fun g => g.inLaunch j.launch && g.cluster = h.cluster && g.status = .running
    if !l.a.isGang && !others && (s.cluster h.cluster).resvs.any (·.launch = j.launch)
    then startClusterSave h.cluster j.launch s else s
  | _, _ => s

/-! ## The outcome of an instruction -/

/-- minstret counts a completed instruction unless mcountinhibit stops it (Table 01-3). -/
def Hart.retire (h : Hart) : Hart := if bitAt h.mcountinhibit 2 then h else { h with minstret := h.minstret + 1 }

def State.retire (s : State) : State := { s with hart := s.hart.retire }

/-- The hart waits before an instruction that another package has not answered: it notes the access that gets no answer (R277,
R278). -/
def State.holding (r : Option (RemoteKind × Nat × Word)) (s : State) : State :=
  match r with
  | some (k, e, va) => { s with hart := { s.hart with remoteFault := some { kind := k, elem := e, va := va, since := some s.time } } }
  | none => s

/-- An instruction that does not wait, or whose wait is no pre-emption point: it completes, traps, or stays. -/
def finish (x : Op Unit) (s : State) : Outcome :=
  match x.run s with
  | .ok _ s' => .next s'.retire
  | .error (.trap t) s' => .next (deliver t s')
  | .error (.preempt pc k) s' => .next (preempt true true pc k s')
  | .error .wait s' => .next s'
  | .error (.hold r) _ => .next (s.holding r)

/-- A waiting instruction of R391: while it waits and a request is pending, interrupt 16 is taken before it, with
a full context. -/
def finishWaiting (x : Op Unit) (s : State) : Outcome :=
  match x.run s with
  | .ok _ s' => .next s'.retire
  | .error (.trap t) s' => .next (deliver t s')
  | .error (.preempt pc k) s' => .next (preempt true true pc k s')
  | .error .wait s' => .next (if s'.hart.requestPending then preempt true false s.hart.pc 0 s' else s')
  | .error (.hold r) _ => .next (if s.hart.requestPending then preempt true false s.hart.pc 0 s else s.holding r)

/-- An event of the environment: it takes place, or finds its condition unmet and changes nothing. -/
def event (x : Op Unit) (s : State) : Outcome :=
  match x.run s with
  | .ok _ s' => .next s'
  | .error _ _ => .next s

/-- The front end of a queue has its answers: nothing of it waits any more. -/
def State.answered (q : Nat) (s : State) : State :=
  if (s.queue q).asked = none then s else s.setQueue q { s.queue q with asked := none }

/-- An event of a queue's front end. Where an access of it gets no answer, it waits for 4,000 ticks from then on (R277). -/
def frontEvent (q : Nat) (x : Op Unit) (s : State) : Outcome :=
  match x.run s with
  | .ok _ s' => .next (s'.answered q)
  | .error (.hold _) _ => .next (s.setQueue q { s.queue q with asked := (s.queue q).asked.or (some s.time) })
  | .error _ _ => .next (s.answered q)

/-- An event takes place only where its condition holds. -/
def onlyIf (b : Bool) : Op Unit := if b then pure () else throw .wait

end Sys2Proof.Machine
end

