-- ==== Sys2Proof/Machine/Flags.lean ====
section
/-!
DEFINITION. Every flag computation: the vector flags of VFFLAGS (R117), the scalar fflags (R103), integer
saturation (sat_int of Table 04-19), the limits of the integer types, and the conversions of Table 05-5.
-/

namespace Sys2Proof.Machine

/-- `flag(f)` of Table 04-19: VFFLAGS is sticky. -/
def Hart.accrue (h : Hart) (fl : FlagSet) : Hart := { h with vfflags := h.vfflags ||| fl.setWidth 64 }

/-- The scalar unit accrues NX, UF, OF, DZ and NV in fcsr (R103). -/
def Hart.accrueF (h : Hart) (fl : FlagSet) : Hart := { h with fcsr := h.fcsr ||| (fl &&& 31).setWidth 8 }

/-- The format of a floating-point element type. -/
def fmtOf (t : Nat) : FloatFmt := if t = 4 then Fmt.f8 else if t = 5 then Fmt.bf16 else if t = 6 then Fmt.f16 else Fmt.f32

/-- Bits of an element type. -/
def widthOf (t : Nat) : Nat := 8 * ebOf t

/-- `sat_int(x, n, true)`: the clamped value modulo 2^n, and SAT when it was clamped. -/
def satInt (x : Int) (n : Nat) : Nat × FlagSet :=
  let lo : Int := -(2 ^ (n - 1))
  let hi : Int := 2 ^ (n - 1) - 1
  let y := if x < lo then lo else if hi < x then hi else x
  ((y.emod (2 ^ n)).toNat, if y = x then 0 else flSAT)

/-- The value of an element's bits under a type. -/
def fxOf (t v : Nat) : Fx := if isFloat t then decodeF (fmtOf t) v else ofInt (toSigned (widthOf t) v)

/-- Round an exact value into a type: a floating-point format, or an integer with its limits (Table 05-5). -/
def convertFx (dst : Nat) (rm : Rm) (x : Fx) : Nat × FlagSet :=
  if isFloat dst then roundFx (fmtOf dst) rm x
  else
    let w := widthOf dst
    let (v, fl) := toIntFx rm (-(2 ^ (w - 1))) (2 ^ (w - 1) - 1) 0 x
    ((v.emod (2 ^ w)).toNat, fl)

/-- `convert` of Table 05-5 on bit patterns. -/
def convertBits (src dst : Nat) (rm : Rm) (v : Nat) : Nat × FlagSet :=
  if src = dst then (v, 0)
  else if !isFloat src && !isFloat dst then satInt (toSigned (widthOf src) v) (widthOf dst)
  else
    let x := fxOf src v
    let (r, fl) := convertFx dst rm x
    (r, if x.isSnan then fl ||| flNV else fl)

/-- One element read from memory (R158): decoded, scaled exactly when a scale applies, rounded once. -/
def loadConvert (m dst : Nat) (rm : Rm) (scale : Option (BitVec 32)) (v : Nat) : Nat × FlagSet :=
  match scale with
  | none => convertBits m dst rm v
  | some sc =>
    let (x, f1) := mulFx (fxOf m v) (decodeF Fmt.f32 sc.toNat)
    let (r, f2) := convertFx dst rm x
    (r, f1 ||| f2)

/-- One element on its way to memory (R158): divided exactly by the scale when one applies, rounded once. -/
def storeConvert (t m : Nat) (rm : Rm) (scale : Option (BitVec 32)) (v : Nat) : Nat × FlagSet :=
  match scale with
  | none => convertBits t m rm v
  | some sc =>
    let (x, f1) := divFx (fxOf t v) (decodeF Fmt.f32 sc.toNat)
    let (r, f2) := convertFx m rm x
    (r, f1 ||| f2)

/-- VTYPE.RM; its reserved codes cannot be written (R4). -/
def Hart.rm (h : Hart) : Rm := (rmOf h.rmCode).getD .rne

/-- Is an FP32 pattern a NaN? -/
def isNan32 (v : BitVec 32) : Bool := (decodeF Fmt.f32 v.toNat).isNan

end Sys2Proof.Machine
end

