-- ==== Sys2Proof/Machine/Operands.lean ====
section
/-!
DEFINITION. Every operand form: elements, second sources, guards, predicates, validity (R92, R93, R121, R349), the
checks of a vector instruction (Table 04-13), the two-phase element effect of R350, and the run of a vector
instruction with the Weevil lane (R189 to R192, R195) and forced pre-emption at an element boundary (R59).
-/

namespace Sys2Proof.Machine

/-- Scalar operands as captured at dispatch or by a clause (R40, R44): the form-01 operand or memory base, and the
pitch, stride, budget or second operand. -/
structure Cap where
  a : Word
  b : Word
  deriving DecidableEq, Repr

def captureV (v : VOp) (h : Hart) : Cap :=
  match v.b with
  | .vx r => { a := h.xr r, b := 0 }
  | _ => { a := 0, b := 0 }

def captureM (m : MOp) (h : Hart) : Cap :=
  { a := h.xr m.base, b := match m.mode with | .rc r => h.xr r | .es r => h.xr r | _ => 0 }

def captureS (m : SOp) (h : Hart) : Cap := { a := h.xr m.base, b := h.xr m.stride }

def noCap : Cap := { a := 0, b := 0 }

/-! ## Elements, predicates, validity -/

/-- Element `e` of `eb` bytes of the group that begins at register `v` (R349). -/
def Hart.elemAt (h : Hart) (cap v eb e : Nat) : Nat :=
  ofBytes ((List.range eb).map fun i => h.vregs.get (v * cap + e * eb + i))

/-- Write bytes of the register file. -/
def File.setBytes (f : File 8) (a : Nat) : List Byte → File 8
  | [] => f
  | b :: bs => File.setBytes (f.set a b) (a + 1) bs

def Hart.setElemAt (h : Hart) (cap v eb e val : Nat) : Hart :=
  { h with vregs := h.vregs.setBytes (v * cap + e * eb) (toBytes eb val) }

/-- p0 reads all true. -/
def Hart.pr (h : Hart) (p : Nat) : BitVec 8192 := if p = 0 then BitVec.allOnes 8192 else h.preds.get p

/-- p0 is no destination (R93). -/
def Hart.setP (h : Hart) (p : Nat) (v : BitVec 8192) : Hart := if p = 0 then h else { h with preds := h.preds.set p v }

/-- Is an element passed over by an M-mode write of VXI (R184)? -/
def Hart.isSkipped (h : Hart) (e : Nat) : Bool := h.skipped.any fun (lo, hi) => lo ≤ e && e < hi

/-- `active(e)` of Table 04-19; an element passed over is inactive. -/
def Hart.active (h : Hart) (pg : BitVec 3) (e : Nat) : Bool :=
  (pg = 0 || (h.pr pg.toNat).getLsbD e) && !h.isSkipped e

def Hart.valid (h : Hart) (v b : Nat) : Bool := (h.masks.get v).getLsbD b

def Hart.setValid (h : Hart) (v b : Nat) (f : Bool) : Hart :=
  { h with masks := h.masks.set v (setBit (h.masks.get v) b f) }

/-- The first element of a block. -/
def Hart.blockStart (h : Hart) (e : Nat) : Nat := h.blk e * 2 ^ h.blkLog

/-- Is `e` the lowest active element of its block? -/
def Hart.firstInBlock (h : Hart) (pg : BitVec 3) (e : Nat) : Bool :=
  let b := h.blockStart e
  !(List.range (e - b)).any fun i => h.active pg (b + i)

/-! ## The register state an instruction reads -/

/-- What a vector instruction reads before it writes (R350), with the capacity of one register. -/
structure VCtx where
  h : Hart
  cap : Nat
  deriving DecidableEq, Repr

def VCtx.elem (x : VCtx) (v : BitVec 5) (e : Nat) : Nat := x.h.elemAt x.cap v.toNat x.h.eb e

/-- w of R350. -/
def VCtx.w (x : VCtx) : Nat := 8 * x.h.eb

/-- s(e) of R350: form 00, 01, or 10 with a signed or unsigned immediate. -/
def VCtx.src (x : VCtx) (c : Cap) (b : Src2) (signedImm : Bool) (e : Nat) : Nat :=
  match b with
  | .vv r => x.elem r e
  | .vx _ => c.a.toNat % 2 ^ x.w
  | .vi i => (if signedImm then ((toSigned 5 i.toNat).emod (2 ^ x.w)).toNat else i.toNat % 2 ^ x.w)

/-- Validity of the second source at an element (R121): a scalar or an immediate counts as valid. -/
def VCtx.srcValid (x : VCtx) (b : Src2) (e : Nat) : Bool :=
  match b with
  | .vv r => x.h.valid r.toNat (x.h.blk e)
  | _ => true

def VCtx.regValid (x : VCtx) (v : BitVec 5) (e : Nat) : Bool := x.h.valid v.toNat (x.h.blk e)

def srcRegs : Src2 → List (BitVec 5)
  | .vv r => [r]
  | _ => []

/-! ## The element effect -/

/-- What one active element yields: its value, its flags, the validity of what it was taken from. -/
structure ElemRes where
  val : Nat
  fl : FlagSet
  ok : Bool
  deriving DecidableEq, Repr

/-- Commit one element of `eb` bytes to the group `vd` (R117, R121). -/
def commitElem (x : VCtx) (pg : BitVec 3) (vd eb e : Nat) (r : ElemRes) (h : Hart) : Hart :=
  let h := (h.setElemAt x.cap vd eb e r.val).accrue r.fl
  let b := x.h.blk e
  h.setValid vd b (r.ok && (x.h.firstInBlock pg e || h.valid vd b))

/-- Commit `n` elements from `e` up. -/
def commitFrom (x : VCtx) (pg : BitVec 3) (vd eb : Nat) (f : Nat → ElemRes) : Nat → Nat → Hart → Hart
  | 0, _, h => h
  | n + 1, e, h => commitFrom x pg vd eb f n (e + 1) (if x.h.active pg e then commitElem x pg vd eb e (f e) h else h)

/-- The masks of a group's other registers become undefined when the group is written (R121). -/
def blurMasks (k vd : Nat) : Nat → Hart → Hart
  | 0, h => h
  | n + 1, h => blurMasks k vd n { h with masks := h.masks.set (vd + 1 + n) (Config.freeValue k n 64) }

def blurGroup (vd : BitVec 5) (written : Bool) : Op Unit := do
  let h ← getH
  if written ∧ 1 < h.grp then
    let k ← draw
    modH (blurMasks k vd.toNat (h.grp - 1))

/-! ## Lane health (Table 09-2) -/

def State.lane (s : State) (h : Nat) : Word := (s.status.lanes.get? h).getD 0
def State.setLane (s : State) (h : Nat) (v : Word) : State :=
  { s with status := { s.status with lanes := s.status.lanes.put h v } }

/-- A transient event counts in TRANS, saturating. -/
def laneTransient (v : Word) : Word := if bits v 0 32 = 2 ^ 32 - 1 then v else v + 1
/-- A persistent event counts in PERS, saturating. -/
def lanePersistent (v : Word) : Word := if bits v 32 17 = 2 ^ 17 - 1 then v else v + BitVec.ofNat 64 (2 ^ 32)
/-- RLV and RLANE (R191). -/
def laneRemap (v : Word) (c : Nat) : Word := v ||| BitVec.ofNat 64 (2 ^ 49 + c % 32 * 2 ^ 50)
/-- CCV and CCOL (R193): the column remapped last. -/
def columnRemap (v : Word) (c : Nat) : Word :=
  v &&& ~~~ (BitVec.ofNat 64 (127 * 2 ^ 56)) ||| BitVec.ofNat 64 (2 ^ 55 + c % 128 * 2 ^ 56)
def laneOff (v : Word) : Word := v ||| BitVec.ofNat 64 (2 ^ 63)
def hasRemap (v : Word) : Bool := bitAt v 49
def isOff (v : Word) : Bool := bitAt v 63

/-- Has the hart's cluster another core in service (R192)? -/
def State.anyInService (s : State) (h : Hart) : Bool :=
  (List.range 4).any fun i => let j := 4 * h.cluster + i; j ≠ h.id && !isOff (s.lane j)

/-- The core goes out of service: its context moves, or the launch ends with TCAUSE 29 when no core of the cluster remains (R192).
The spec does not say what PREQ holds after such a pre-emption without a request: here what a forced one leaves, F set, P and mip bit 16
clear. A hart in M-mode is never pre-empted (R200): its instruction goes on, under a request already due, which is taken after
MRET (R201). (DESIGN CHOICE log 47) -/
def coreOut (pc : Word) (k : Nat) : Op Unit := do
  let s ← get
  set (s.setLane s.hart.id (laneOff (s.lane s.hart.id)))
  if !s.anyInService s.hart then
    modify (endOwnLaunch 29)
    throw .wait
  else if s.hart.mode = .m then modH (Hart.requestAt s.time)
  else throw (.preempt pc k)

/-! ## Running a vector instruction -/

/-- Completion: VXI is zero at every instruction boundary (R34); the rotation count advances for the units the
Weevil lane checks (R189). -/
def Hart.vectorDone (unit : VUnit) (h : Hart) : Hart :=
  { h with vxi := 0, skipped := [], stopAt := none, rotation := if unit = .pred then h.rotation else h.rotation + 1 }

/-- The next mismatch the Weevil lane meets in this instruction, among positions `low` to `n - 1`: it checks the
columns of lane c (R189); a core whose lane is remapped only meets a second persistent event (R192). -/
def nextUpset (h : Hart) (remapped : Bool) (low n : Nat) : Option Upset :=
  match h.upsets with
  | [] => none
  | u :: _ =>
    if u.column ∨ u.elem < low ∨ n ≤ u.elem then none
    else if remapped then (if u.persistent then some u else none)
    else if h.vl ≠ 0 ∧ (u.elem % h.vl) % 32 = h.rotation.toNat then some u
    else none

/-- Does an operation trap at a position at or below `m` (R195)? -/
def trapsBy (x : Op Unit) (m : Nat) (s : State) : Bool :=
  match x.run s with
  | .error (.trap t) _ => t.elem ≤ m
  | _ => false

/-- Has the instruction ended below position `k`: VLDC, its stream by the byte budget (R160)? -/
def Hart.endedBelow (step k : Nat) (h : Hart) : Bool := step = 16 && bits h.vcbytes 32 16 < k

/-- Does an instruction with this body end below position `k`? -/
def endsBelow (step n k : Nat) (body : Nat → Op Unit) (s : State) : Bool :=
  match (body n).run s with
  | .ok _ s' => s'.hart.endedBelow step k
  | .error _ _ => false

/-- Positions up to `k`, then the pre-emption at `k`, unless position `k` itself traps (R206) or the instruction has ended. -/
def stopBefore (step n k : Nat) (pc : Word) (body : Nat → Op Unit) : Op Unit := do
  body k
  let h ← getH
  if h.endedBelow step k then pure ()
  else
    modH fun h => { h with vxi := k, stopAt := none }
    let s ← get
    let m := min (k + step) n
    if trapsBy (body m) k s then body m else throw (.preempt pc k)

/-- The position at which a mismatch at an element stops an instruction whose positions commit in steps of `step`. -/
def stopPos (step elem : Nat) : Nat := if step = 0 then elem else elem / step * step

/-- The mismatches that the Weevil lane meets at positions `low` to `n - 1`, each above the one before it (R190 to R192, R195), and
then `run`, what the instruction does over those positions and, where a pre-emption stops it, at `n`. Positions commit in steps of
`step`; 0: the instruction is whole. What a transient mismatch replays is what was read already, so it only counts. -/
def weevil (step n : Nat) (pc : Word) (body : Nat → Op Unit) (run : Op Unit) : Nat → Nat → Op Unit
  | 0, _ => run
  | fuel + 1, low => do
    let s ← get
    let h := s.hart
    let c := h.rotation.toNat
    let v := s.lane h.id
    match nextUpset h (hasRemap v) low n with
    | none => run
    | some u =>
      if endsBelow step n (u.elem + 1) body s then run
      else
        modH fun h => { h with upsets := h.upsets.tail }
        if trapsBy run u.elem s then run
        else if hasRemap v then
          -- the unit's self-test: a second persistent event (R192)
          modify fun s => s.setLane h.id (lanePersistent v)
          let k := if step = 0 then 0 else stopPos step u.elem
          if step ≠ 0 then
            body k
            modH fun h => { h with vxi := k }
          coreOut pc k
          run
        else if !u.persistent then
          modify fun s => s.setLane h.id (laneTransient v)
          weevil step n pc body run fuel (u.elem + 1)
        else
          modify fun s => s.setLane h.id (laneRemap (lanePersistent v) c)
          if s.flag h 3 then
            let k := stopPos step u.elem
            if step ≠ 0 then body k
            raise { cause := 29, elem := k, sub := 1, unit := 1, lane := c }
          else weevil step n pc body run fuel (u.elem + 1)

/-- Run positions VXI to `n - 1` with the checks of the Weevil lane, which checks no predicate instruction (R189). -/
def checkedRun (unit : VUnit) (step n : Nat) (pc : Word) (body : Nat → Op Unit) (run : Op Unit) : Op Unit := do
  let h ← getH
  if unit = .pred then run else weevil step n pc body run h.upsets.length h.vxi

/-- Run a vector instruction over positions VXI to `n - 1`, which commit in steps of `step` (1, or VLDC's 16). A
whole instruction (0) stops only at its ends (R350). A forced pre-emption that is due falls at the boundary the environment
names, or, when the instruction does not reach that, before it (R59). -/
def vecRun (unit : VUnit) (step n : Nat) (pc : Word) (body : Nat → Op Unit) : Op Unit := do
  let s ← get
  let h := s.hart
  match (if s.forcedDue then h.stopAt else none) with
  | some k =>
    if step ≠ 0 && k % step = 0 && h.vxi < k && k < n then checkedRun unit step k pc body (stopBefore step n k pc body)
    else throw (.preempt pc h.vxi)
  | none => checkedRun unit step n pc body (body n)
  modH (Hart.vectorDone unit)

/-! ## The checks of a vector instruction (Table 04-13, checks 4, 6, 7) -/

/-- Check 4 for one operand group of `g` registers (R35). -/
def groupOk (n g : Nat) (v : BitVec 5) : Bool := v.toNat % g = 0 && v.toNat + g ≤ n

/-- R37: the shape fits the group under an element size. -/
def Hart.fits (h : Hart) (cap eb : Nat) : Bool := h.nel * eb ≤ h.grp * cap

/-- R119: the scale base leaves room for every block. -/
def Hart.scalesFit (h : Hart) (base : Nat) : Bool := h.nel = 0 || base + h.blk (h.nel - 1) ≤ 255

/-- R41: the convoy takes the instruction, or holds its unit already. -/
def joinConvoy (unit : VUnit) (c : Bool) : Op Unit := do
  let h ← getH
  if c || h.freshConvoy then modH fun h => { h with convoy := [unit], freshConvoy := false }
  else if h.convoy.contains unit then illegal
  else modH fun h => { h with convoy := unit :: h.convoy }

/-- Checks 4, 6 and 7, in that order, each raising illegal instruction with VXI 0. -/
def vecChecks (unit : VUnit) (c : Bool) (regs : List (BitVec 5)) (eb : Nat) (suits : Hart → Bool) : Op Unit := do
  let s ← get
  let h := s.hart
  illegalUnless (regs.all (groupOk (s.nvreg h) h.grp))
  illegalUnless (h.fits (s.capC h) eb && suits h)
  joinConvoy unit c

def vctx : Op VCtx := do
  let s ← get
  return { h := s.hart, cap := s.capC s.hart }

/-- An element-wise instruction (R350): `f` on what it reads, `eb` bytes a result. -/
def lanewise (unit : VUnit) (c : Bool) (pg : BitVec 3) (vd : BitVec 5) (regs : List (BitVec 5)) (eb ebMax : Nat)
    (suits : Hart → Bool) (f : VCtx → Nat → ElemRes) : Op Unit := do
  vecChecks unit c (vd :: regs) ebMax suits
  let h ← getH
  vecRun unit 1 h.nel h.pc fun stop => do
    let x ← vctx
    modH (commitFrom x pg vd.toNat eb (f x) (stop - x.h.vxi) x.h.vxi)
    blurGroup vd ((List.range (stop - x.h.vxi)).any fun i => x.h.active pg (x.h.vxi + i))

/-- A whole instruction that writes elements of `vd` (R350). -/
def wholewise (unit : VUnit) (c : Bool) (pg : BitVec 3) (vd : BitVec 5) (regs : List (BitVec 5))
    (suits : Hart → Bool) (f : VCtx → Nat → ElemRes) (writes : VCtx → Nat → Bool) : Op Unit := do
  let h ← getH
  vecChecks unit c (vd :: regs) h.eb suits
  vecRun unit 0 h.nel h.pc fun _ => do
    let x ← vctx
    let act e := x.h.active pg e && writes x e
    modH fun h => (List.range x.h.nel).foldl (fun h e =>
      if act e then
        let b := x.h.blk e
        let first := !(List.range (e - x.h.blockStart e)).any fun i => act (x.h.blockStart e + i)
        let h := (h.setElemAt x.cap vd.toNat x.h.eb e (f x e).val).accrue (f x e).fl
        h.setValid vd.toNat b ((f x e).ok && (first || h.valid vd.toNat b))
      else h) h
    blurGroup vd ((List.range x.h.nel).any act)

/-- Any ETYPE suits. -/
def anyType (_ : Hart) : Bool := true
/-- ETYPE 4 to 7 (R351). -/
def floatType (h : Hart) : Bool := isFloat h.etype

/-- The instruction's run from the scalar core: its operands are captured, then the pc moves on. -/
def dispatch (x : Op Unit) (s : State) : Outcome :=
  finish (do x; advance 4) s

end Sys2Proof.Machine
end

