-- ==== Sys2Proof/Machine/Vflt.lean ====
section
/-!
DEFINITION. The VFLT family (Table 04-7): exact arithmetic rounded once under VTYPE.RM, or by sat_fp8 (R115, R116,
R361 to R368).
-/

namespace Sys2Proof.Machine

/-- A VFLT instruction over elements of ETYPE: `f` on the type, the rounding mode, and a, b, d as bits. -/
def vflt (cb : Bool) (pg : BitVec 3) (vd : BitVec 5) (regs : List (BitVec 5)) (g : VCtx → Nat → ElemRes) : Op Unit := do
  let h ← getH
  lanewise .vflt cb pg vd regs h.eb h.eb floatType g

/-- The mode that governs a result: FP8 rounds to nearest even whatever RM holds (R116). -/
def effRm (t : Nat) (rm : Rm) : Rm := if t = 4 then .rne else rm

/-- Two sources (a, b) to one rounded value; flags of the exact operation and of the rounding. -/
def vflt2 (v : VOp) (f : Rm → Fx → Fx → Fx × FlagSet) (c : Cap) : Op Unit :=
  vflt v.c v.pg v.vd (v.vs2 :: srcRegs v.b) fun x e =>
    let fm := fmtOf x.h.etype
    let (y, f1) := f (effRm x.h.etype x.h.rm) (decodeF fm (x.elem v.vs2 e)) (decodeF fm (x.src c v.b true e))
    let (r, f2) := roundFx fm x.h.rm y
    { val := r, fl := f1 ||| f2, ok := x.regValid v.vs2 e && x.srcValid v.b e }

def subFx (rm : Rm) (a b : Fx) : Fx × FlagSet := addFx rm a b.neg

def vfaddBody (v : VOp) : Cap → Op Unit := vflt2 v addFx
def vfsubBody (v : VOp) : Cap → Op Unit := vflt2 v subFx
def vfmulBody (v : VOp) : Cap → Op Unit := vflt2 v fun _ => mulFx
def vfdivBody (v : VOp) : Cap → Op Unit := vflt2 v fun _ => divFx

/-- a × b + d, rounded once (R364). -/
def fmaOf (t : Nat) (rm : Rm) (a b d : Fx) : Nat × FlagSet :=
  let fm := fmtOf t
  let (y, f1) := fmaFx (effRm t rm) a b d
  let (r, f2) := roundFx fm rm y
  (r, f1 ||| f2)

/-- Three sources (R364): `f` combines a, b and d. -/
def vflt3 (v : VOp) (negP negD : Bool) (c : Cap) : Op Unit :=
  vflt v.c v.pg v.vd (v.vs2 :: srcRegs v.b) fun x e =>
    let t := x.h.etype
    let a := fxOf t (x.elem v.vs2 e)
    let d := fxOf t (x.elem v.vd e)
    let (r, fl) := fmaOf t x.h.rm (if negP then a.neg else a) (fxOf t (x.src c v.b true e)) (if negD then d.neg else d)
    { val := r, fl := fl, ok := x.regValid v.vs2 e && x.srcValid v.b e && x.regValid v.vd e }

def vfmaBody (v : VOp) : Cap → Op Unit := vflt3 v false false
def vfmsBody (v : VOp) : Cap → Op Unit := vflt3 v false true
def vfnmaBody (v : VOp) : Cap → Op Unit := vflt3 v true false

def vfminmax (v : VOp) (isMax : Bool) (c : Cap) : Op Unit :=
  vflt v.c v.pg v.vd (v.vs2 :: srcRegs v.b) fun x e =>
    let (r, fl) := minMaxF (fmtOf x.h.etype) isMax (x.elem v.vs2 e) (x.src c v.b true e)
    { val := r, fl := fl, ok := x.regValid v.vs2 e && x.srcValid v.b e }

def vfminBody (v : VOp) : Cap → Op Unit := vfminmax v false
def vfmaxBody (v : VOp) : Cap → Op Unit := vfminmax v true

/-- A sign operation (R361): the sign bit `f` gives; a NaN becomes the canonical NaN, NV when signalling. -/
def signOp (t : Nat) (a : Nat) (sign : Bool) : Nat × FlagSet :=
  let fm := fmtOf t
  let x := decodeF fm a
  if x.isNan then (canonicalNan fm, if x.isSnan then flNV else 0)
  else (a % 2 ^ (fm.width - 1) + signBit fm sign, 0)

def signOf (t a : Nat) : Bool := a.testBit (widthOf t - 1)

def vfsgnjBody (v : VOp) (c : Cap) : Op Unit :=
  vflt v.c v.pg v.vd (v.vs2 :: srcRegs v.b) fun x e =>
    let t := x.h.etype
    let (r, fl) := signOp t (x.elem v.vs2 e) (signOf t (x.src c v.b true e))
    { val := r, fl := fl, ok := x.regValid v.vs2 e && x.srcValid v.b e }

def vfsign (u : UOp) (f : Bool → Bool) : Op Unit :=
  vflt u.c u.pg u.vd [u.vs2] fun x e =>
    let t := x.h.etype
    let a := x.elem u.vs2 e
    let (r, fl) := signOp t a (f (signOf t a))
    { val := r, fl := fl, ok := x.regValid u.vs2 e }

def vfabsBody (u : UOp) : Op Unit := vfsign u fun _ => false
def vfnegBody (u : UOp) : Op Unit := vfsign u (!·)

/-- VFSCALE (R366). An exponent beyond ±4,096 acts as that bound: every format overflows or vanishes there. -/
def scaleElem (t : Nat) (rm : Rm) (a : Nat) (n : Int) : Nat × FlagSet :=
  let x := fxOf t a
  let (r, fl) := roundFx (fmtOf t) rm (scaleFx x (max (-4096) (min 4096 n)))
  (r, if x.isSnan then fl ||| flNV else fl)

def vfscaleBody (v : VOp) (c : Cap) : Op Unit :=
  vflt v.c v.pg v.vd (v.vs2 :: srcRegs v.b) fun x e =>
    let (r, fl) := scaleElem x.h.etype x.h.rm (x.elem v.vs2 e) (toSigned x.w (x.src c v.b true e))
    { val := r, fl := fl, ok := x.regValid v.vs2 e && x.srcValid v.b e }

/-- One source through an exact function, rounded once (R363). -/
def vflt1 (u : UOp) (f : Rm → Fx → Fx × FlagSet) : Op Unit :=
  vflt u.c u.pg u.vd [u.vs2] fun x e =>
    let t := x.h.etype
    let (y, f1) := f x.h.rm (fxOf t (x.elem u.vs2 e))
    let (r, f2) := roundFx (fmtOf t) x.h.rm y
    { val := r, fl := f1 ||| f2, ok := x.regValid u.vs2 e }

def vfsqrtBody (u : UOp) : Op Unit := vflt1 u fun _ => sqrtFx
def vfexp2Body (u : UOp) : Op Unit := vflt1 u fun _ => exp2Fx
def vfrndBody (u : UOp) : Op Unit := vflt1 u rndFx

/-! ## VFSCL (R367) -/

/-- The scale of a block: from the magnitudes of its active elements, as exact values. -/
def blockScale (xs : List Fx) : BitVec 32 :=
  if xs.any fun x => match x with | .fin _ _ _ => false | _ => true then 0x7FC00000
  else
    let m := xs.foldl (fun m x => match cmpFx m (.fin false 0 0), x with
      | _, .fin _ k e => (match cmpFx m (.fin false k e) with | .lt => .fin false k e | _ => m)
      | _, _ => m) (Fx.fin false 0 0)
    match m with
    | .fin _ 0 _ => 0x3F800000
    | .fin _ k e => BitVec.ofNat 32 (scaleFor k e)
    | _ => 0x7FC00000

/-- The active elements of block `b`. -/
def VCtx.actives (x : VCtx) (pg : BitVec 3) (b : Nat) : List Nat :=
  ((List.range (2 ^ x.h.blkLog)).map (b * 2 ^ x.h.blkLog + ·)).filter fun e => e < x.h.nel && x.h.active pg e

def sclBlock (x : VCtx) (v : VOp) (base b : Nat) (h : Hart) : Hart :=
  let es := x.actives v.pg b
  if es = [] then h
  else
    let t := x.h.etype
    let sc := blockScale (es.map fun e => fxOf t (x.elem v.vs2 e))
    let h := { h with sf := h.sf.set (base + b) sc }
    let h := es.foldl (fun h e =>
      let (r, fl) := storeConvert t t x.h.rm (some sc) (x.elem v.vs2 e)
      (h.setElemAt x.cap v.vd.toNat x.h.eb e r).accrue fl) h
    h.setValid v.vd.toNat b (x.h.valid v.vs2.toNat b && !isNan32 sc)

def vfsclBody (v : VOp) (c : Cap) : Op Unit := do
  let h ← getH
  let base := bits c.a 0 8
  vecChecks .vflt v.c [v.vd, v.vs2] h.eb fun h => floatType h && h.scalesFit base
  vecRun .vflt 0 h.nel h.pc fun _ => do
    let x ← vctx
    modH fun h => (List.range x.h.nblk).foldl (fun h b => sclBlock x v base b h) h
    blurGroup v.vd ((List.range x.h.nel).any (x.h.active v.pg))

/-! ## From the scalar core -/

def execVfadd (v : VOp) (s : State) : Outcome := dispatch (vfaddBody v (captureV v s.hart)) s
def execVfsub (v : VOp) (s : State) : Outcome := dispatch (vfsubBody v (captureV v s.hart)) s
def execVfmul (v : VOp) (s : State) : Outcome := dispatch (vfmulBody v (captureV v s.hart)) s
def execVfdiv (v : VOp) (s : State) : Outcome := dispatch (vfdivBody v (captureV v s.hart)) s
def execVfma (v : VOp) (s : State) : Outcome := dispatch (vfmaBody v (captureV v s.hart)) s
def execVfms (v : VOp) (s : State) : Outcome := dispatch (vfmsBody v (captureV v s.hart)) s
def execVfnma (v : VOp) (s : State) : Outcome := dispatch (vfnmaBody v (captureV v s.hart)) s
def execVfmin (v : VOp) (s : State) : Outcome := dispatch (vfminBody v (captureV v s.hart)) s
def execVfmax (v : VOp) (s : State) : Outcome := dispatch (vfmaxBody v (captureV v s.hart)) s
def execVfsgnj (v : VOp) (s : State) : Outcome := dispatch (vfsgnjBody v (captureV v s.hart)) s
def execVfscale (v : VOp) (s : State) : Outcome := dispatch (vfscaleBody v (captureV v s.hart)) s
def execVfscl (v : VOp) (s : State) : Outcome := dispatch (vfsclBody v (captureV v s.hart)) s
def execVfsqrt (u : UOp) (s : State) : Outcome := dispatch (vfsqrtBody u) s
def execVfexp2 (u : UOp) (s : State) : Outcome := dispatch (vfexp2Body u) s
def execVfabs (u : UOp) (s : State) : Outcome := dispatch (vfabsBody u) s
def execVfneg (u : UOp) (s : State) : Outcome := dispatch (vfnegBody u) s
def execVfrnd (u : UOp) (s : State) : Outcome := dispatch (vfrndBody u) s

end Sys2Proof.Machine
end

