-- ==== Sys2Proof/Machine/Vint.lean ====
section
/-!
DEFINITION. The VINT family (Table 04-6): integer arithmetic, minima and maxima, bitwise operations, shifts, bit
fields, counts and funnel shifts on elements of w bits, under every ETYPE (R111, R350 to R357, R369, R378, R379,
R386).
-/

namespace Sys2Proof.Machine

/-- A two-source VINT instruction: `f` on w and the bits of the two sources. -/
def vint (v : VOp) (signedImm : Bool) (f : Nat → Nat → Nat → Nat × FlagSet) (c : Cap) : Op Unit :=
  lanewiseOfEtype v.c v.pg v.vd (v.vs2 :: srcRegs v.b) fun x e =>
    let (r, fl) := f x.w (x.elem v.vs2 e) (x.src c v.b signedImm e)
    { val := r, fl := fl, ok := x.regValid v.vs2 e && x.srcValid v.b e }
where
  lanewiseOfEtype (cb : Bool) (pg : BitVec 3) (vd : BitVec 5) (regs : List (BitVec 5)) (g : VCtx → Nat → ElemRes) : Op Unit := do
    let h ← getH
    lanewise .vint cb pg vd regs h.eb h.eb anyType g

/-- An integer result modulo 2^w. -/
def modW (w : Nat) (x : Int) : Nat := (x.emod (2 ^ w)).toNat

/-! ## The functions of R352, R355, R356, R378, R379, R386 -/

def addW (w a b : Nat) : Nat × FlagSet := (modW w (toSigned w a + toSigned w b), 0)
def subW (w a b : Nat) : Nat × FlagSet := (modW w (toSigned w a - toSigned w b), 0)
def saddW (w a b : Nat) : Nat × FlagSet := satInt (toSigned w a + toSigned w b) w
def mulW (w a b : Nat) : Nat × FlagSet := (modW w (toSigned w a * toSigned w b), 0)
def mulhW (w a b : Nat) : Nat × FlagSet := (modW w ((toSigned w a * toSigned w b).fdiv (2 ^ w)), 0)
def minW (w a b : Nat) : Nat × FlagSet := (if toSigned w a ≤ toSigned w b then a else b, 0)
def maxW (w a b : Nat) : Nat × FlagSet := (if toSigned w b ≤ toSigned w a then a else b, 0)
def minuW (_ a b : Nat) : Nat × FlagSet := (min a b, 0)
def maxuW (_ a b : Nat) : Nat × FlagSet := (max a b, 0)
def andW (_ a b : Nat) : Nat × FlagSet := (a &&& b, 0)
def orW (_ a b : Nat) : Nat × FlagSet := (a ||| b, 0)
def xorW (_ a b : Nat) : Nat × FlagSet := (a ^^^ b, 0)
def sllW (w a b : Nat) : Nat × FlagSet := (a * 2 ^ (b % w) % 2 ^ w, 0)
def srlW (w a b : Nat) : Nat × FlagSet := (a / 2 ^ (b % w), 0)
def sraW (w a b : Nat) : Nat × FlagSet := (modW w ((toSigned w a).fdiv (2 ^ (b % w))), 0)

/-- VBFX (R356). -/
def bfxW (w a s : Nat) : Nat × FlagSet :=
  let k := Nat.log2 w
  let pos := s % 2 ^ k
  let len := if s / 2 ^ k % 2 ^ k = 0 then w else s / 2 ^ k % 2 ^ k
  let fv := a / 2 ^ pos % 2 ^ len
  (if s.testBit (2 * k) then modW w (toSigned len fv) else fv, 0)

def popcount (w a : Nat) : Nat := ((List.range w).filter a.testBit).length
def clzN (w a : Nat) : Nat := if a = 0 then w else w - 1 - Nat.log2 a

def vaddBody (v : VOp) : Cap → Op Unit := vint v true addW
def vsubBody (v : VOp) : Cap → Op Unit := vint v true subW
def vmulBody (v : VOp) : Cap → Op Unit := vint v true mulW
def vmulhBody (v : VOp) : Cap → Op Unit := vint v true mulhW
def vminBody (v : VOp) : Cap → Op Unit := vint v true minW
def vmaxBody (v : VOp) : Cap → Op Unit := vint v true maxW
def vminuBody (v : VOp) : Cap → Op Unit := vint v false minuW
def vmaxuBody (v : VOp) : Cap → Op Unit := vint v false maxuW
def vandBody (v : VOp) : Cap → Op Unit := vint v true andW
def vorBody (v : VOp) : Cap → Op Unit := vint v true orW
def vxorBody (v : VOp) : Cap → Op Unit := vint v true xorW
def vsllBody (v : VOp) : Cap → Op Unit := vint v false sllW
def vsrlBody (v : VOp) : Cap → Op Unit := vint v false srlW
def vsraBody (v : VOp) : Cap → Op Unit := vint v false sraW
def vsaddBody (v : VOp) : Cap → Op Unit := vint v true saddW
def vbfxBody (v : VOp) : Cap → Op Unit := vint v true bfxW

/-- VPOPC and VCLZ (R357). -/
def vcount (u : UOp) (f : Nat → Nat → Nat) : Op Unit := do
  let h ← getH
  lanewise .vint u.c u.pg u.vd [u.vs2] h.eb h.eb anyType fun x e =>
    { val := f x.w (x.elem u.vs2 e), fl := 0, ok := x.regValid u.vs2 e }

def vpopcBody (u : UOp) : Op Unit := vcount u popcount
def vclzBody (u : UOp) : Op Unit := vcount u clzN

/-- R369: high half from vs2, low half from vs2 + g, amount from vd. -/
def fshlW (w hi lo sh : Nat) : Nat := if sh = 0 then hi else (hi * 2 ^ sh ||| lo / 2 ^ (w - sh)) % 2 ^ w
def fshrW (w hi lo sh : Nat) : Nat := if sh = 0 then lo else (lo / 2 ^ sh ||| hi * 2 ^ (w - sh)) % 2 ^ w

def vfunnel (u : UOp) (f : Nat → Nat → Nat → Nat → Nat) : Op Unit := do
  let s ← get
  let h := s.hart
  illegalUnless (u.vs2.toNat + 2 * h.grp ≤ s.nvreg h)
  let low : BitVec 5 := u.vs2 + BitVec.ofNat 5 h.grp
  lanewise .vint u.c u.pg u.vd [u.vs2, low] h.eb h.eb anyType fun x e =>
    { val := f x.w (x.elem u.vs2 e) (x.elem low e) (x.elem u.vd e % x.w), fl := 0
      ok := x.regValid u.vs2 e && x.regValid low e && x.regValid u.vd e }

def vfshlBody (u : UOp) : Op Unit := vfunnel u fshlW
def vfshrBody (u : UOp) : Op Unit := vfunnel u fshrW

/-! ## From the scalar core -/

def execVadd (v : VOp) (s : State) : Outcome := dispatch (vaddBody v (captureV v s.hart)) s
def execVsub (v : VOp) (s : State) : Outcome := dispatch (vsubBody v (captureV v s.hart)) s
def execVmul (v : VOp) (s : State) : Outcome := dispatch (vmulBody v (captureV v s.hart)) s
def execVmulh (v : VOp) (s : State) : Outcome := dispatch (vmulhBody v (captureV v s.hart)) s
def execVmin (v : VOp) (s : State) : Outcome := dispatch (vminBody v (captureV v s.hart)) s
def execVmax (v : VOp) (s : State) : Outcome := dispatch (vmaxBody v (captureV v s.hart)) s
def execVminu (v : VOp) (s : State) : Outcome := dispatch (vminuBody v (captureV v s.hart)) s
def execVmaxu (v : VOp) (s : State) : Outcome := dispatch (vmaxuBody v (captureV v s.hart)) s
def execVand (v : VOp) (s : State) : Outcome := dispatch (vandBody v (captureV v s.hart)) s
def execVor (v : VOp) (s : State) : Outcome := dispatch (vorBody v (captureV v s.hart)) s
def execVxor (v : VOp) (s : State) : Outcome := dispatch (vxorBody v (captureV v s.hart)) s
def execVsll (v : VOp) (s : State) : Outcome := dispatch (vsllBody v (captureV v s.hart)) s
def execVsrl (v : VOp) (s : State) : Outcome := dispatch (vsrlBody v (captureV v s.hart)) s
def execVsra (v : VOp) (s : State) : Outcome := dispatch (vsraBody v (captureV v s.hart)) s
def execVsadd (v : VOp) (s : State) : Outcome := dispatch (vsaddBody v (captureV v s.hart)) s
def execVbfx (v : VOp) (s : State) : Outcome := dispatch (vbfxBody v (captureV v s.hart)) s
def execVpopc (u : UOp) (s : State) : Outcome := dispatch (vpopcBody u) s
def execVclz (u : UOp) (s : State) : Outcome := dispatch (vclzBody u) s
def execVfshl (u : UOp) (s : State) : Outcome := dispatch (vfshlBody u) s
def execVfshr (u : UOp) (s : State) : Outcome := dispatch (vfshrBody u) s

end Sys2Proof.Machine
end

