-- ==== Sys2Proof/Machine/Vprm.lean ====
section
/-!
DEFINITION. The VPRM family (Table 04-8): compares, compress, slides, gather, reductions, conversions, moves, index
generators and transposition (R358 to R360, R371, R372, R380, R381, R385, R387).
-/

namespace Sys2Proof.Machine

/-! ## Compares (R358) -/

def setPbit (p : BitVec 8192) (e : Nat) (b : Bool) : BitVec 8192 :=
  if b then p ||| BitVec.twoPow 8192 e else p &&& ~~~ (BitVec.twoPow 8192 e)

/-- Bits from `n` up become 0 (R93). -/
def clearFrom (p : BitVec 8192) (n : Nat) : BitVec 8192 := BitVec.ofNat 8192 (p.toNat % 2 ^ n)

/-- Commit the compare bits of `n` elements from `e` up. -/
def commitBits (x : VCtx) (pg : BitVec 3) (pd : Nat) (f : Nat → Bool × FlagSet) : Nat → Nat → Hart → Hart
  | 0, _, h => h
  | n + 1, e, h =>
    commitBits x pg pd f n (e + 1)
      (if x.h.active pg e then ((h.setP pd (setPbit (h.pr pd) e (f e).1)).accrue (f e).2) else h)

def compare (v : VOp) (signedImm : Bool) (suits : Hart → Bool) (f : VCtx → Nat → Nat → Bool × FlagSet) (c : Cap) : Op Unit := do
  let h ← getH
  vecChecks .vprm v.c (v.vs2 :: srcRegs v.b) h.eb suits
  vecRun .vprm 1 h.nel h.pc fun stop => do
    let x ← vctx
    let pd := v.vd.toNat
    modH fun h => h.setP pd (clearFrom (h.pr pd) x.h.nel)
    modH (commitBits x v.pg pd (fun e => f x (x.elem v.vs2 e) (x.src c v.b signedImm e)) (stop - x.h.vxi) x.h.vxi)

def intCompare (v : VOp) (signedImm : Bool) (f : Nat → Nat → Nat → Bool) (c : Cap) : Op Unit :=
  compare v signedImm anyType (fun x a b => (f x.w a b, 0)) c

def eqC (_ a b : Nat) : Bool := a = b
def neC (_ a b : Nat) : Bool := a ≠ b
def ltC (w a b : Nat) : Bool := toSigned w a < toSigned w b
def leC (w a b : Nat) : Bool := toSigned w a ≤ toSigned w b
def ltuC (_ a b : Nat) : Bool := a < b
def leuC (_ a b : Nat) : Bool := a ≤ b

def vcmpeqBody (v : VOp) : Cap → Op Unit := intCompare v true eqC
def vcmpneBody (v : VOp) : Cap → Op Unit := intCompare v true neC
def vcmpltBody (v : VOp) : Cap → Op Unit := intCompare v true ltC
def vcmpleBody (v : VOp) : Cap → Op Unit := intCompare v true leC
def vcmpltuBody (v : VOp) : Cap → Op Unit := intCompare v false ltuC
def vcmpleuBody (v : VOp) : Cap → Op Unit := intCompare v false leuC

/-- A floating-point compare: false with NV when an operand is a NaN. -/
def fltCond (t : Nat) (orEq : Bool) (a b : Nat) : Bool × FlagSet :=
  let x := fxOf t a
  let y := fxOf t b
  if x.isNan || y.isNan then (false, flNV)
  else (match cmpFx x y with | .lt => true | .eq => orEq | .gt => false, 0)

def vfcmpltBody (v : VOp) : Cap → Op Unit := compare v true floatType fun x => fltCond x.h.etype false
def vfcmpleBody (v : VOp) : Cap → Op Unit := compare v true floatType fun x => fltCond x.h.etype true

/-! ## Permutes -/

def allWritten (_ : VCtx) (_ : Nat) : Bool := true

/-- The selected elements of a compress, ascending (R359). Elements that an M-mode write of VXI passed over are left unchanged
(R184). -/
def VCtx.selected (x : VCtx) (ps : Nat) : List Nat := (List.range x.h.nel).filter (x.h.pr ps).getLsbD

def vcompressBody (u : UOp) (ps : BitVec 5) : Op Unit := do
  let h ← getH
  vecChecks .vprm u.c [u.vd, u.vs2] h.eb anyType
  vecRun .vprm 0 h.nel h.pc fun _ => do
    let x ← vctx
    let sel := x.selected ps.toNat
    let es := (List.range x.h.nel).filter fun e => !x.h.isSkipped e
    modH fun h => es.foldl (fun h e =>
      h.setElemAt x.cap u.vd.toNat x.h.eb e (match sel[e]? with | some i => x.elem u.vs2 i | none => 0)) h
    modH fun h => ((List.range x.h.nblk).filter fun b => es.any (x.h.blk · = b)).foldl (fun h b =>
      h.setValid u.vd.toNat b ((List.range (2 ^ x.h.blkLog)).all fun i =>
        match sel[b * 2 ^ x.h.blkLog + i]? with
        | some k => x.h.isSkipped (b * 2 ^ x.h.blkLog + i) || x.regValid u.vs2 k
        | none => true)) h
    blurGroup u.vd (x.h.nel ≠ 0)

/-- The slide offset: the full captured register, or the unsigned immediate (R385). -/
def slideOffset (v : VOp) (c : Cap) : Nat :=
  match v.b with
  | .vi i => i.toNat
  | _ => c.a.toNat

def vslideupBody (v : VOp) (c : Cap) : Op Unit :=
  let k := slideOffset v c
  wholewise .vprm v.c v.pg v.vd [v.vs2] anyType
    (fun x e => { val := x.elem v.vs2 (e - k), fl := 0, ok := x.regValid v.vs2 (e - k) })
    (fun _ e => k ≤ e)

def vslidednBody (v : VOp) (c : Cap) : Op Unit :=
  let k := slideOffset v c
  wholewise .vprm v.c v.pg v.vd [v.vs2] anyType
    (fun x e => if e + k < x.h.nel then { val := x.elem v.vs2 (e + k), fl := 0, ok := x.regValid v.vs2 (e + k) }
                else { val := 0, fl := 0, ok := true })
    allWritten

/-- VGATHER: the table is vs2, the indices vs1 (R371). -/
def vgatherBody (v : VOp) (c : Cap) : Op Unit :=
  wholewise .vprm v.c v.pg v.vd (v.vs2 :: srcRegs v.b) anyType
    (fun x e =>
      let i := x.src c v.b false e
      if i < x.h.nel then { val := x.elem v.vs2 i, fl := 0, ok := x.srcValid v.b e && x.regValid v.vs2 i }
      else { val := 0, fl := 0, ok := x.srcValid v.b e })
    allWritten

/-- VTRANS transposes each R × R tile; VL must be a multiple of R (R387). -/
def vtransBody (u : UOp) : Op Unit :=
  wholewise .vprm u.c u.pg u.vd [u.vs2] (fun h => h.vl % h.rows = 0)
    (fun x e =>
      let r := x.h.rows
      let i := e / x.h.vl
      let j := e % x.h.vl
      let p := (j % r) * x.h.vl + j / r * r + i
      { val := x.elem u.vs2 p, fl := 0, ok := x.regValid u.vs2 p })
    allWritten

/-- VIOTA: the vs2 field names a predicate (R372). -/
def viotaBody (u : UOp) : Op Unit :=
  wholewise .vprm u.c u.pg u.vd [] anyType
    (fun x e => { val := ((List.range e).filter (x.h.pr u.vs2.toNat).getLsbD).length % 2 ^ x.w, fl := 0, ok := true })
    allWritten

def vidBody (u : UOp) : Op Unit := do
  let h ← getH
  lanewise .vprm u.c u.pg u.vd [] h.eb h.eb anyType fun x e => { val := e % 2 ^ x.w, fl := 0, ok := true }

def vmvBody (v : VOp) (c : Cap) : Op Unit := do
  let h ← getH
  lanewise .vprm v.c v.pg v.vd (srcRegs v.b) h.eb h.eb anyType fun x e =>
    { val := x.src c v.b true e, fl := 0, ok := x.srcValid v.b e }

/-- The code of an element type (Table 05-1). -/
def etypeCode : EType → Nat
  | .i8 => 0 | .i16 => 1 | .i32 => 2 | .f8 => 4 | .bf16 => 5 | .f16 => 6 | .f32 => 7

def vcvtBody (u : UOp) (t : EType) : Op Unit := do
  let h ← getH
  let dst := etypeCode t
  lanewise .vprm u.c u.pg u.vd [u.vs2] (ebOf dst) (max h.eb (ebOf dst)) anyType fun x e =>
    let (r, fl) := convertBits x.h.etype dst x.h.rm (x.elem u.vs2 e)
    { val := r, fl := fl, ok := x.regValid u.vs2 e }

/-! ## Reductions (R125, R381) -/

/-- One combination; an absent operand yields the other. -/
def combine (op : Nat → Nat → Nat × FlagSet) (a b : Option Nat) : Option Nat × FlagSet :=
  match a, b with
  | some a, some b => let (r, fl) := op a b; (some r, fl)
  | some a, none => (some a, 0)
  | none, b => (b, 0)

/-- One tree level: neighbours combine, an odd last element passes. -/
def treeLevel (op : Nat → Nat → Nat × FlagSet) : List (Option Nat) → List (Option Nat) × FlagSet
  | a :: b :: t =>
    let (r, f1) := combine op a b
    let (rs, f2) := treeLevel op t
    (r :: rs, f1 ||| f2)
  | t => (t, 0)

/-- The tree of R125, level by level. -/
def treeReduce (op : Nat → Nat → Nat × FlagSet) : Nat → List (Option Nat) → Option Nat × FlagSet
  | _, [] => (none, 0)
  | _, [a] => (a, 0)
  | 0, a :: _ => (a, 0)
  | fuel + 1, l =>
    let (l', f1) := treeLevel op l
    let (r, f2) := treeReduce op fuel l'
    (r, f1 ||| f2)

def reduce (u : UOp) (suits : Hart → Bool) (op : VCtx → Nat → Nat → Nat × FlagSet) : Op Unit := do
  let h ← getH
  vecChecks .vprm u.c [u.vd, u.vs2] h.eb suits
  vecRun .vprm 0 h.nel h.pc fun _ => do
    let x ← vctx
    let act := (List.range x.h.nel).filter (x.h.active u.pg)
    let (t, f1) := treeReduce (op x) 14
      ((List.range x.h.nel).map fun e => if x.h.active u.pg e then some (x.elem u.vs2 e) else none)
    match t with
    | none => pure ()
    | some t =>
      let (r, f2) := op x (x.elem u.vd 0) t
      modH fun h => ((h.setElemAt x.cap u.vd.toNat x.h.eb 0 r).accrue (f1 ||| f2)).setValid u.vd.toNat 0
        (x.h.valid u.vd.toNat 0 && act.all (x.regValid u.vs2))
      blurGroup u.vd true

def vredsumBody (u : UOp) : Op Unit := reduce u anyType fun x => addW x.w
def vredmaxBody (u : UOp) : Op Unit := reduce u anyType fun x => maxW x.w
def vredminBody (u : UOp) : Op Unit := reduce u anyType fun x => minW x.w

/-- One rounded sum of a VFREDSUM (R125, R116). -/
def fsumOp (t : Nat) (rm : Rm) (a b : Nat) : Nat × FlagSet :=
  let (y, f1) := addFx (effRm t rm) (fxOf t a) (fxOf t b)
  let (r, f2) := roundFx (fmtOf t) rm y
  (r, f1 ||| f2)

def vfredsumBody (u : UOp) : Op Unit := reduce u floatType fun x => fsumOp x.h.etype x.h.rm
def vfredmaxBody (u : UOp) : Op Unit := reduce u floatType fun x => minMaxF (fmtOf x.h.etype) true

/-! ## From the scalar core -/

def execVcmpeq (v : VOp) (s : State) : Outcome := dispatch (vcmpeqBody v (captureV v s.hart)) s
def execVcmpne (v : VOp) (s : State) : Outcome := dispatch (vcmpneBody v (captureV v s.hart)) s
def execVcmplt (v : VOp) (s : State) : Outcome := dispatch (vcmpltBody v (captureV v s.hart)) s
def execVcmple (v : VOp) (s : State) : Outcome := dispatch (vcmpleBody v (captureV v s.hart)) s
def execVcmpltu (v : VOp) (s : State) : Outcome := dispatch (vcmpltuBody v (captureV v s.hart)) s
def execVcmpleu (v : VOp) (s : State) : Outcome := dispatch (vcmpleuBody v (captureV v s.hart)) s
def execVfcmplt (v : VOp) (s : State) : Outcome := dispatch (vfcmpltBody v (captureV v s.hart)) s
def execVfcmple (v : VOp) (s : State) : Outcome := dispatch (vfcmpleBody v (captureV v s.hart)) s
def execVcompress (u : UOp) (ps : BitVec 5) (s : State) : Outcome := dispatch (vcompressBody u ps) s
def execVslideup (v : VOp) (s : State) : Outcome := dispatch (vslideupBody v (captureV v s.hart)) s
def execVslidedn (v : VOp) (s : State) : Outcome := dispatch (vslidednBody v (captureV v s.hart)) s
def execVgather (v : VOp) (s : State) : Outcome := dispatch (vgatherBody v (captureV v s.hart)) s
def execVredsum (u : UOp) (s : State) : Outcome := dispatch (vredsumBody u) s
def execVredmax (u : UOp) (s : State) : Outcome := dispatch (vredmaxBody u) s
def execVredmin (u : UOp) (s : State) : Outcome := dispatch (vredminBody u) s
def execVfredsum (u : UOp) (s : State) : Outcome := dispatch (vfredsumBody u) s
def execVfredmax (u : UOp) (s : State) : Outcome := dispatch (vfredmaxBody u) s
def execVcvt (u : UOp) (t : EType) (s : State) : Outcome := dispatch (vcvtBody u t) s
def execVmv (v : VOp) (s : State) : Outcome := dispatch (vmvBody v (captureV v s.hart)) s
def execViota (u : UOp) (s : State) : Outcome := dispatch (viotaBody u) s
def execVid (u : UOp) (s : State) : Outcome := dispatch (vidBody u) s
def execVtrans (u : UOp) (s : State) : Outcome := dispatch (vtransBody u) s

end Sys2Proof.Machine
end

