-- ==== Sys2Proof/Machine/Vmem.lean ====
section
/-!
DEFINITION. The VMEM family (Table 04-9): loads and stores in the four modes with the converting path (R156 to R159,
R373 to R375), compressed-stream loads (R160, R376), scale moves (R377) and vector atomics (R353, R354).
-/

namespace Sys2Proof.Machine

/-- Whose access an element of VLD, VST, VLSC and VSSC is: the access unit reports it (Table 04-17), and mtval receives the address
whatever the cause (R375, R377). -/
def elemWho (e : Nat) : Who := { elem := e, unit := 2, mtvalAddr := true }

/-- Whose access an element of VLDC and of a vector atomic is: mtval receives the address for access and page faults only (R183). -/
def streamWho (e : Nat) : Who := { elem := e, unit := 2 }

/-- The descriptor register a mode 11 access names. -/
def tdOf (h : Hart) (n : BitVec 4) : BitVec 512 := h.td.get n.toNat

/-- The memory encoding of an access (R156, R158). -/
def encOf (h : Hart) (m : VMode) : Nat :=
  match m with
  | .td n => descEnc (tdOf h n)
  | _ => h.menc

/-- The origin of mode 11: a linear index, row-major over the extents (R156). -/
def originIndex : List Nat → Nat → List Nat
  | [], _ => []
  | _ :: t, n => n / t.prod :: unflatten t (n % t.prod)

/-- The global index of element (i, j) (R156). -/
def globalIndex (d : BitVec 512) (origin vl e : Nat) : List Nat :=
  let o := originIndex (descExts d) origin
  let i := e / vl
  let j := e % vl
  let r := descRank d
  o.zipIdx.map fun (x, k) =>
    if r = 1 then x + e
    else if k + 1 = r then x + j
    else if k + 2 = r then x + i
    else x

def inTensor (d : BitVec 512) (g : List Nat) : Bool := g.zipIdx.all fun (x, k) => x < descExt d k

/-- The address of a global index, and whether the owner-table entry it came from was poisoned: the table is read with the element's
checks (R154), and the element counts when it commits (R198). A store's read of the table carries load causes too, which no rule
says (DESIGN CHOICE log 48). -/
def tensorAddr (e : Nat) (d : BitVec 512) (dva : Word) (g : List Nat) : Op (Word × Bool) := do
  if descOt d then
    let (o, off) := descPlace d g
    let (t, zero) ← memReadUncounted (elemWho e) (dva + 64 + BitVec.ofNat 64 (8 * o)) 8
    return (sext48 (t % 2 ^ 48) + BitVec.ofInt 64 off, zero)
  else return (descAddr d (fun _ => 0) g, false)

/-- The address of element `e` in modes 00, 01 and 10 (Table 07-6). -/
def plainAddr (x : VCtx) (c : Cap) (m : VMode) (mb e : Nat) : Word :=
  match m with
  | .rc _ => c.a + BitVec.ofNat 64 (e / x.h.vl) * c.b + BitVec.ofNat 64 (e % x.h.vl * mb)
  | .es _ => c.a + BitVec.ofNat 64 e * c.b
  | .ix v => c.a + sextN x.w (x.elem v e)
  | .td _ => c.a

/-- The address of element `e`, with the poison of its owner-table entry, or none where it lies outside the tensor (R156). -/
def elemAddr (x : VCtx) (c : Cap) (m : VMode) (mb e : Nat) : Op (Option (Word × Bool)) := do
  match m with
  | .td n =>
    let d := tdOf x.h n
    let g := globalIndex d c.a.toNat x.h.vl e
    if inTensor d g then return some (← tensorAddr e d (x.h.tdAddr.get n.toNat) g) else return none
  | _ => return some (plainAddr x c m mb e, false)

/-- The scale that MFC applies to element `e` (R119). -/
def mfcScale (h : Hart) (e : Nat) : Option (BitVec 32) := if h.scl then some (h.sf.get (h.sbase + h.blk e)) else none

def scaleOk (sc : Option (BitVec 32)) : Bool :=
  match sc with
  | some v => !isNan32 v
  | none => true

def indexRegs (m : VMode) : List (BitVec 5) :=
  match m with
  | .ix v => [v]
  | _ => []

/-- Check 6 of a converting access with encoding `m` (R119, R158). -/
def convertSuits (m : Nat) (h : Hart) : Bool :=
  !h.scl || ((isFloat m || isFloat h.etype) && h.scalesFit h.sbase)

/-- Perform `f` at each active element of `n` from `e` up. -/
def eachActive (act : Nat → Bool) (f : Nat → Op Unit) : Nat → Nat → Op Unit
  | 0, _ => pure ()
  | n + 1, e => do
    if act e then f e
    eachActive act f n (e + 1)

/-- An element that commits counts once, for its owner-table entry when its own read has not counted it since `cnt` (R198). -/
def countOnce (zero : Bool) (cnt : Word) (h : Hart) : Hart := if zero && h.vpoiscnt = cnt then h.countPoison else h

/-- One element of a load (R373). -/
def loadElem (x : VCtx) (m : MOp) (c : Cap) (e : Nat) : Op Unit := do
  let enc := encOf x.h m.mode
  let mb := ebOf enc
  match ← elemAddr x c m.mode mb e with
  | none => modH (commitElem x m.pg m.vd.toNat x.h.eb e { val := 0, fl := 0, ok := true })
  | some (va, zero) =>
    let cnt := (← getH).vpoiscnt
    let v ← memRead (elemWho e) va mb
    modH (countOnce zero cnt)
    let sc := mfcScale x.h e
    let (r, fl) := loadConvert enc x.h.etype x.h.rm sc v
    let ok := scaleOk sc && (indexRegs m.mode).all fun r => x.regValid r e
    modH (commitElem x m.pg m.vd.toNat x.h.eb e { val := r, fl := fl, ok := ok })

def vldBody (m : MOp) (c : Cap) : Op Unit := do
  let h ← getH
  vecChecks .vmem m.c (m.vd :: indexRegs m.mode) h.eb (convertSuits (encOf h m.mode))
  vecRun .vmem 1 h.nel h.pc fun stop => do
    let x ← vctx
    eachActive (x.h.active m.pg) (loadElem x m c) (stop - x.h.vxi) x.h.vxi
    blurGroup m.vd ((List.range (stop - x.h.vxi)).any fun i => x.h.active m.pg (x.h.vxi + i))

/-- The bytes that a write of `n` bytes at an address reaches; none where it traps. -/
def State.storeLocs (s : State) (va : Word) (n : Nat) : List Loc :=
  match (placeBytes {} (s.access s.hart) .store true false va va n).run s with
  | .ok ps _ => allLocs ps
  | .error _ _ => []

/-- The bytes that the active elements below `e` are stored to. -/
def State.elemLocs (s : State) (act : Nat → Bool) (addr : Nat → Op (Option Word)) (mb e : Nat) : List Loc :=
  (List.range e).flatMap fun i =>
    if act i then match (addr i).run s with
      | .ok (some va) _ => s.storeLocs va mb
      | _ => []
    else []

/-- Write element `e` of a store, at `va`. A store whose elements together cover a whole sector clears its poison (R196, R374). -/
def writeElem (w : Who) (act : Nat → Bool) (addr : Nat → Op (Option Word)) (mb e : Nat) (va : Word) (v : Nat) : Op Unit := do
  let here := (← get).storeLocs va mb
  memWrite w va mb v
  let s ← get
  if here.any fun l => (s.poisonSub l).isSome then clearPoison (s.elemLocs act addr mb (e + 1))

/-- One element of a store (R374): zero and IB for a block that is not valid (R122). -/
def storeElem (x : VCtx) (m : MOp) (c : Cap) (e : Nat) : Op Unit := do
  let enc := encOf x.h m.mode
  let mb := ebOf enc
  match ← elemAddr x c m.mode mb e with
  | none => pure ()
  | some (va, zero) =>
    let (r, fl) := if x.regValid m.vd e then storeConvert x.h.etype enc x.h.rm (mfcScale x.h e) (x.elem m.vd e) else (0, flIB)
    writeElem (elemWho e) (x.h.active m.pg) (fun e => return (← elemAddr x c m.mode mb e).map (·.1)) mb e va r
    modH fun h => (if zero then h.countPoison else h).accrue fl

def vstBody (m : MOp) (c : Cap) : Op Unit := do
  let h ← getH
  vecChecks .vmem m.c (m.vd :: indexRegs m.mode) h.eb (convertSuits (encOf h m.mode))
  vecRun .vmem 1 h.nel h.pc fun stop => do
    let x ← vctx
    eachActive (x.h.active m.pg) (storeElem x m c) (stop - x.h.vxi) x.h.vxi

/-! ## VLDC (R160, R376) -/

/-- A read inside the stream: no alignment is needed. The value, and whether the drop policy made it zero: VPOISCNT counts when
the group commits (R198). -/
def streamRead (q : Nat) (va : Word) (n : Nat) : Op (Nat × Bool) := do
  let s ← get
  let (bs, zero) ← readUncounted (streamWho (16 * q)) (s.access s.hart) .load .running va n
  return (ofBytes bs, zero)

/-- The groups below the one at which an execution resumes, by their masks, while the byte budget lasts: their bytes, their
number, and whether the budget ended the stream among them. -/
def streamUsed (base : Word) (mb budget at' : Nat) : Nat → Nat → Nat → Op (Nat × Nat × Bool)
  | 0, q, used => return (used, q, false)
  | n + 1, q, used => do
    let (mask, _) ← streamRead at' (base + BitVec.ofNat 64 used) 2
    let size := 2 + popcount 16 mask * mb
    if used + size ≤ budget then streamUsed base mb budget at' n (q + 1) (used + size) else return (used, q, true)

/-- The present elements of a group, in ascending order; one that `skip` names is inactive and not read (R184). -/
def groupReads (q mb mask : Nat) (skip : Nat → Bool) : Nat → Nat → Word → Op (List (Option (Nat × Bool)))
  | 0, _, _ => return []
  | n + 1, k, va => do
    let v ← (if mask.testBit k && !skip k then do return some (← streamRead q va mb) else return none)
    let vs ← groupReads q mb mask skip n (k + 1) (if mask.testBit k then va + BitVec.ofNat 64 mb else va)
    return v :: vs

def setVcbytes (used q : Nat) : Op Unit :=
  modH fun h => { h with vcbytes := BitVec.ofNat 64 (used % 2 ^ 32 + (16 * q) % 2 ^ 16 * 2 ^ 32) }

/-- What a group's element expands to: an absent one is zero (R160). -/
def streamValue (x : VCtx) (e : Nat) (v : Option (Nat × Bool)) : ElemRes :=
  let sc := mfcScale x.h e
  let (r, fl) := match v with
    | some (v, _) => loadConvert x.h.menc x.h.etype x.h.rm sc v
    | none => (0, 0)
  { val := r, fl := fl, ok := scaleOk sc }

/-- Commit a group, but for elements that an M-mode write of VXI passed over (R184); a poisoned element counts as it commits. -/
def commitGroup (x : VCtx) (m : MOp) (q : Nat) (vs : List (Option (Nat × Bool))) (h : Hart) : Hart :=
  vs.zipIdx.foldl (fun h (v, k) =>
    let e := 16 * q + k
    if x.h.isSkipped e then h
    else
      let h := if (v.map (·.2)).getD false then h.countPoison else h
      commitElem x 0 m.vd.toNat x.h.eb e (streamValue x e v) h) h

/-- Groups from `q` while they fit the shape and the byte budget; `true` when the stream ended by its budget. -/
def streamGroups (x : VCtx) (m : MOp) (c : Cap) (stop : Nat) : Nat → Nat → Nat → Op Unit
  | 0, _, _ => pure ()
  | n + 1, q, used => do
    if 16 * (q + 1) ≤ stop then
      let mb := ebOf x.h.menc
      let va := c.a + BitVec.ofNat 64 used
      let (mask, zero) ← streamRead q va 2
      let size := 2 + popcount 16 mask * mb
      if used + size ≤ c.b.toNat then
        let vs ← groupReads q mb mask (fun k => x.h.isSkipped (16 * q + k)) 16 0 (va + 2)
        modH fun h => commitGroup x m q vs (if zero then h.countPoison else h)
        setVcbytes (used + size) (q + 1)
        streamGroups x m c stop n (q + 1) (used + size)

def vldcBody (m : MOp) (c : Cap) : Op Unit := do
  let h ← getH
  vecChecks .vmem m.c [m.vd] h.eb (convertSuits h.menc)
  if c.a.toNat % 2 ≠ 0 then fail (streamWho 0) 4 c.a
  vecRun .vmem 16 h.nel h.pc fun stop => do
    let x ← vctx
    let q := x.h.vxi / 16
    let (used, q, ended) ← streamUsed c.a (ebOf x.h.menc) c.b.toNat q q 0 0
    setVcbytes used q
    if !ended then
      streamGroups x m c stop 512 q used
      let h ← getH
      blurGroup m.vd (16 * q < bits h.vcbytes 32 16)

/-! ## VLSC and VSSC (R377) -/

def scaleBody (m : SOp) (c : Cap) (f : Nat → Word → Op Unit) : Op Unit := do
  let h ← getH
  let n := 8 * m.n8.toNat
  vecChecks .vmem m.c [] h.eb fun h => n + h.nblk ≤ 256
  vecRun .vmem 1 h.nblk h.pc fun stop => do
    let h ← getH
    eachActive (h.active m.pg) (fun b => f b (c.a + BitVec.ofNat 64 b * c.b)) (stop - h.vxi) h.vxi

def vlscBody (m : SOp) (c : Cap) : Op Unit :=
  scaleBody m c fun b va => do
    let v ← memRead (elemWho b) va 4
    modH fun h => { h with sf := h.sf.set (8 * m.n8.toNat + b) (BitVec.ofNat 32 v) }

def vsscBody (m : SOp) (c : Cap) : Op Unit :=
  scaleBody m c fun b va => do
    let h ← getH
    writeElem (elemWho b) (h.active m.pg) (fun b => return some (c.a + BitVec.ofNat 64 b * c.b)) 4 b va
      (h.sf.get (8 * m.n8.toNat + b)).toNat

/-! ## Vector atomics (R353, R354) -/

/-- op(old, v) by type. -/
def vamoOp (a : VAmo) (t old v : Nat) : Nat :=
  if isFloat t then
    match a with
    | .add => (fsumOp t .rne old v).1
    | .max => (minMaxF (fmtOf t) true old v).1
    | .min => (minMaxF (fmtOf t) false old v).1
  else
    match a with
    | .add => (addW (widthOf t) old v).1
    | .max => (maxW (widthOf t) old v).1
    | .min => (minW (widthOf t) old v).1

def vamoElem (a : VAmo) (x : VCtx) (m : MOp) (c : Cap) (e : Nat) : Op Unit := do
  if !x.regValid m.vd e then modH (·.accrue flIB)
  else
    let _ ← memAmo (streamWho e) (plainAddr x c m.mode x.h.eb e) x.h.eb fun old => vamoOp a x.h.etype old (x.elem m.vd e)
    pure ()

def vamoBody (a : VAmo) (m : MOp) (c : Cap) : Op Unit := do
  let h ← getH
  vecChecks .vmem m.c (m.vd :: indexRegs m.mode) h.eb fun h => h.menc = h.etype && !h.scl
  vecRun .vmem 1 h.nel h.pc fun stop => do
    let x ← vctx
    eachActive (x.h.active m.pg) (vamoElem a x m c) (stop - x.h.vxi) x.h.vxi

def vamoaddBody (m : MOp) : Cap → Op Unit := vamoBody .add m
def vamomaxBody (m : MOp) : Cap → Op Unit := vamoBody .max m
def vamominBody (m : MOp) : Cap → Op Unit := vamoBody .min m

/-! ## From the scalar core -/

def execVld (m : MOp) (s : State) : Outcome := dispatch (vldBody m (captureM m s.hart)) s
def execVst (m : MOp) (s : State) : Outcome := dispatch (vstBody m (captureM m s.hart)) s
def execVldc (m : MOp) (s : State) : Outcome := dispatch (vldcBody m (captureM m s.hart)) s
def execVlsc (m : SOp) (s : State) : Outcome := dispatch (vlscBody m (captureS m s.hart)) s
def execVssc (m : SOp) (s : State) : Outcome := dispatch (vsscBody m (captureS m s.hart)) s
def execVamoadd (m : MOp) (s : State) : Outcome := dispatch (vamoaddBody m (captureM m s.hart)) s
def execVamomax (m : MOp) (s : State) : Outcome := dispatch (vamomaxBody m (captureM m s.hart)) s
def execVamomin (m : MOp) (s : State) : Outcome := dispatch (vamominBody m (captureM m s.hart)) s

end Sys2Proof.Machine
end

