-- ==== Sys2Proof/Machine/Pred.lean ====
section
/-!
DEFINITION. The PRED family (Table 04-10, R330 to R337) and the predicate branches PBR (Table 04-11, R43, R303).
-/

namespace Sys2Proof.Machine

/-- Bits below `n` where `f` holds. -/
def maskOf (n : Nat) (f : Nat → Bool) : BitVec 8192 :=
  (List.range n).foldl (fun p e => if f e then p ||| BitVec.twoPow 8192 e else p) 0

/-- A PRED instruction that writes a predicate: whole, in the predicate unit, no guard (R330, R331). -/
def predWrite (pd : BitVec 6) (f : Hart → Nat → Bool) : Op Unit := do
  let h ← getH
  joinConvoy .pred false
  vecRun .pred 0 h.nel h.pc fun _ => do
    let x ← getH
    modH fun h => h.setP pd.toNat (maskOf x.nel (f x))

def pbit (h : Hart) (p : BitVec 6) (e : Nat) : Bool := (h.pr p.toNat).getLsbD e

def pandBody (pd ps1 ps2 : BitVec 6) : Op Unit := predWrite pd fun h e => pbit h ps1 e && pbit h ps2 e
def porBody (pd ps1 ps2 : BitVec 6) : Op Unit := predWrite pd fun h e => pbit h ps1 e || pbit h ps2 e
def pxorBody (pd ps1 ps2 : BitVec 6) : Op Unit := predWrite pd fun h e => pbit h ps1 e != pbit h ps2 e
def pandnBody (pd ps1 ps2 : BitVec 6) : Op Unit := predWrite pd fun h e => pbit h ps1 e && !pbit h ps2 e
def pnotBody (pd ps1 : BitVec 6) : Op Unit := predWrite pd fun h e => !pbit h ps1 e
def pmovBody (pd ps1 : BitVec 6) : Op Unit := predWrite pd fun h e => pbit h ps1 e

/-- PSETN (R335): `n` is the captured count. -/
def psetnBody (pd : BitVec 6) (c : Cap) : Op Unit := predWrite pd fun _ e => e < c.a.toNat

/-- The condition of PWHILE, on the exact sum a + e (R337). -/
def whileBit (cond : WhileCond) (a b : Word) (e : Nat) : Bool :=
  match cond with
  | .lt => a.toInt + e < b.toInt
  | .le => a.toInt + e ≤ b.toInt
  | .ltu => a.toNat + e < b.toNat
  | .leu => a.toNat + e ≤ b.toNat

def pwhileBody (cond : WhileCond) (pd : BitVec 6) (c : Cap) : Op Unit := predWrite pd fun _ e => whileBit cond c.a c.b e

/-- The set bits of a predicate below nel(), ascending. -/
def Hart.setBits (h : Hart) (p : BitVec 6) : List Nat := (List.range h.nel).filter (pbit h p)

/-- A predicate read into an integer register (R332): the scalar core waits for the reply. -/
def predRead (rd : BitVec 5) (f : Hart → Word) : Op Unit := do
  let h ← getH
  joinConvoy .pred false
  vecRun .pred 0 h.nel h.pc fun _ => modH fun h => h.setX rd (f h)

def execPpopc (rd : BitVec 5) (ps : BitVec 6) (s : State) : Outcome :=
  dispatch (predRead rd fun h => BitVec.ofNat 64 (h.setBits ps).length) s
def execPfirst (rd : BitVec 5) (ps : BitVec 6) (s : State) : Outcome :=
  dispatch (predRead rd fun h => match (h.setBits ps).head? with
    | some e => BitVec.ofNat 64 e
    | none => BitVec.allOnes 64) s
def execPsum (rd : BitVec 5) (ps : BitVec 6) (s : State) : Outcome :=
  dispatch (predRead rd fun h => h.xr rd + BitVec.ofNat 64 (h.setBits ps).length) s

def execPand (pd ps1 ps2 : BitVec 6) (s : State) : Outcome := dispatch (pandBody pd ps1 ps2) s
def execPor (pd ps1 ps2 : BitVec 6) (s : State) : Outcome := dispatch (porBody pd ps1 ps2) s
def execPxor (pd ps1 ps2 : BitVec 6) (s : State) : Outcome := dispatch (pxorBody pd ps1 ps2) s
def execPandn (pd ps1 ps2 : BitVec 6) (s : State) : Outcome := dispatch (pandnBody pd ps1 ps2) s
def execPnot (pd ps1 : BitVec 6) (s : State) : Outcome := dispatch (pnotBody pd ps1) s
def execPmov (pd ps1 : BitVec 6) (s : State) : Outcome := dispatch (pmovBody pd ps1) s
def execPsetn (pd : BitVec 6) (rs : BitVec 5) (s : State) : Outcome :=
  dispatch (psetnBody pd { a := s.hart.xr rs, b := 0 }) s
def execPwhile (cond : WhileCond) (pd : BitVec 6) (rsa rsb : BitVec 5) (s : State) : Outcome :=
  dispatch (pwhileBody cond pd { a := s.hart.xr rsa, b := s.hart.xr rsb }) s

/-! ## Predicate branches -/

/-- The target of a taken branch: pc + 4 × the signed offset (R97). -/
def branchTarget (pc : Word) (off : BitVec 16) : Word := pc + 4 * sextN 16 off.toNat

/-- The test of R43 on the count `a` of set bits among `n`. -/
def predBranch (ps : BitVec 6) (off : BitVec 16) (test : Nat → Nat → Bool) : Op Unit := do
  let h ← getH
  if test (h.setBits ps).length h.nel then setPc (branchTarget h.pc off) else advance 4

def execBany (ps : BitVec 6) (off : BitVec 16) (s : State) : Outcome := finish (predBranch ps off fun a _ => 0 < a) s
def execBall (ps : BitVec 6) (off : BitVec 16) (s : State) : Outcome := finish (predBranch ps off fun a n => a = n) s
def execBnone (ps : BitVec 6) (off : BitVec 16) (s : State) : Outcome := finish (predBranch ps off fun a _ => a = 0) s
def execBnall (ps : BitVec 6) (off : BitVec 16) (s : State) : Outcome := finish (predBranch ps off fun a n => a < n) s

end Sys2Proof.Machine
end

