-- ==== Sys2Proof/Machine/Clause.lean ====
section
/-!
DEFINITION. Clauses (R44 to R49, R310 to R314): capture, passes, base advances, CLPUT and CLWAIT, and what a stopped
clause resumes.
-/

namespace Sys2Proof.Machine

/-- The body of a vector or predicate instruction that a clause may hold, on captured operands (R44, R333). -/
def vbody : Instr → Option (Cap → Op Unit)
  | .vadd v => some (vaddBody v) | .vsub v => some (vsubBody v) | .vmul v => some (vmulBody v)
  | .vmulh v => some (vmulhBody v) | .vmin v => some (vminBody v) | .vmax v => some (vmaxBody v)
  | .vminu v => some (vminuBody v) | .vmaxu v => some (vmaxuBody v) | .vand v => some (vandBody v)
  | .vor v => some (vorBody v) | .vxor v => some (vxorBody v) | .vsll v => some (vsllBody v)
  | .vsrl v => some (vsrlBody v) | .vsra v => some (vsraBody v) | .vsadd v => some (vsaddBody v)
  | .vbfx v => some (vbfxBody v)
  | .vpopc u => some fun _ => vpopcBody u
  | .vclz u => some fun _ => vclzBody u
  | .vfshl u => some fun _ => vfshlBody u
  | .vfshr u => some fun _ => vfshrBody u
  | .vfadd v => some (vfaddBody v) | .vfsub v => some (vfsubBody v) | .vfmul v => some (vfmulBody v)
  | .vfdiv v => some (vfdivBody v) | .vfma v => some (vfmaBody v) | .vfms v => some (vfmsBody v)
  | .vfnma v => some (vfnmaBody v) | .vfmin v => some (vfminBody v) | .vfmax v => some (vfmaxBody v)
  | .vfsgnj v => some (vfsgnjBody v) | .vfscale v => some (vfscaleBody v) | .vfscl v => some (vfsclBody v)
  | .vfsqrt u => some fun _ => vfsqrtBody u
  | .vfexp2 u => some fun _ => vfexp2Body u
  | .vfabs u => some fun _ => vfabsBody u
  | .vfneg u => some fun _ => vfnegBody u
  | .vfrnd u => some fun _ => vfrndBody u
  | .vcmpeq v => some (vcmpeqBody v) | .vcmpne v => some (vcmpneBody v) | .vcmplt v => some (vcmpltBody v)
  | .vcmple v => some (vcmpleBody v) | .vcmpltu v => some (vcmpltuBody v) | .vcmpleu v => some (vcmpleuBody v)
  | .vfcmplt v => some (vfcmpltBody v) | .vfcmple v => some (vfcmpleBody v)
  | .vcompress u ps => some fun _ => vcompressBody u ps
  | .vslideup v => some (vslideupBody v) | .vslidedn v => some (vslidednBody v) | .vgather v => some (vgatherBody v)
  | .vredsum u => some fun _ => vredsumBody u
  | .vredmax u => some fun _ => vredmaxBody u
  | .vredmin u => some fun _ => vredminBody u
  | .vfredsum u => some fun _ => vfredsumBody u
  | .vfredmax u => some fun _ => vfredmaxBody u
  | .vcvt u t => some fun _ => vcvtBody u t
  | .vmv v => some (vmvBody v)
  | .viota u => some fun _ => viotaBody u
  | .vid u => some fun _ => vidBody u
  | .vtrans u => some fun _ => vtransBody u
  | .vld m => some (vldBody m) | .vst m => some (vstBody m) | .vldc m => some (vldcBody m)
  | .vlsc m => some (vlscBody m) | .vssc m => some (vsscBody m)
  | .vamoadd m => some (vamoaddBody m) | .vamomax m => some (vamomaxBody m) | .vamomin m => some (vamominBody m)
  | .pand d a b => some fun _ => pandBody d a b
  | .por d a b => some fun _ => porBody d a b
  | .pxor d a b => some fun _ => pxorBody d a b
  | .pandn d a b => some fun _ => pandnBody d a b
  | .pnot d a => some fun _ => pnotBody d a
  | .pmov d a => some fun _ => pmovBody d a
  | .psetn d _ => some (psetnBody d)
  | .pwhile k d _ _ => some (pwhileBody k d)
  | _ => none

/-- The two-source format V operands of an instruction, if it has them. -/
def vopOf : Instr → Option VOp
  | .vadd v | .vsub v | .vmul v | .vmulh v | .vmin v | .vmax v | .vminu v | .vmaxu v | .vand v | .vor v | .vxor v
  | .vsll v | .vsrl v | .vsra v | .vsadd v | .vbfx v | .vfadd v | .vfsub v | .vfmul v | .vfdiv v | .vfma v | .vfms v
  | .vfnma v | .vfmin v | .vfmax v | .vfsgnj v | .vfscale v | .vfscl v | .vcmpeq v | .vcmpne v | .vcmplt v | .vcmple v
  | .vcmpltu v | .vcmpleu v | .vfcmplt v | .vfcmple v | .vslideup v | .vslidedn v | .vgather v | .vmv v => some v
  | _ => none

/-- The one-source operands. -/
def uopOf : Instr → Option UOp
  | .vpopc u | .vclz u | .vfshl u | .vfshr u | .vfsqrt u | .vfexp2 u | .vfabs u | .vfneg u | .vfrnd u
  | .vcompress u _ | .vredsum u | .vredmax u | .vredmin u | .vfredsum u | .vfredmax u | .vcvt u _ | .viota u
  | .vid u | .vtrans u => some u
  | _ => none

/-- The format VM operands. -/
def mopOf : Instr → Option MOp
  | .vld m | .vst m | .vldc m | .vamoadd m | .vamomax m | .vamomin m => some m
  | _ => none

def sopOf : Instr → Option SOp
  | .vlsc m | .vssc m => some m
  | _ => none

/-- The destination field names a predicate, the sources name vector registers. -/
def isCompare : Instr → Bool
  | .vcmpeq _ | .vcmpne _ | .vcmplt _ | .vcmple _ | .vcmpltu _ | .vcmpleu _ | .vfcmplt _ | .vfcmple _ => true
  | _ => false

/-- The vector register groups that check 4 looks at. -/
def checkedRegs (i : Instr) : List (BitVec 5) :=
  match vopOf i, uopOf i, mopOf i with
  | some v, _, _ =>
    let srcs := srcRegs v.b
    let vs2 := match i with | .vmv _ => [] | _ => [v.vs2]
    if isCompare i then vs2 ++ srcs else v.vd :: vs2 ++ srcs
  | _, some u, _ => (match i with
    | .viota _ | .vid _ => [u.vd]
    | _ => [u.vd, u.vs2])
  | _, _, some m => m.vd :: indexRegs m.mode
  | _, _, _ => []

/-- Check 4 on a captured word (R311). -/
def check4 (n g : Nat) (i : Instr) : Bool :=
  (checkedRegs i).all (groupOk n g) && (match i with
    | .vfshl u | .vfshr u => u.vs2.toNat + 2 * g ≤ n
    | _ => true)

/-- The scalar operands a word captures (R44, R336). -/
def captureOf (i : Instr) (h : Hart) : Cap :=
  match vopOf i, mopOf i, sopOf i with
  | some v, _, _ => captureV v h
  | _, some m, _ => captureM m h
  | _, _, some m => captureS m h
  | _, _, _ => match i with
    | .psetn _ rs => { a := h.xr rs, b := 0 }
    | .pwhile _ _ ra rb => { a := h.xr ra, b := h.xr rb }
    | _ => noCap

/-- Does a word write a predicate, and which (R303)? -/
def writesPred : Instr → Option Nat
  | .pand d _ _ | .por d _ _ | .pxor d _ _ | .pandn d _ _ | .pnot d _ | .pmov d _ | .psetn d _ | .pwhile _ d _ _ => some d.toNat
  | .vcmpeq v | .vcmpne v | .vcmplt v | .vcmple v | .vcmpltu v | .vcmpleu v | .vfcmplt v | .vfcmple v => some v.vd.toNat
  | _ => none

/-- Has a word an operand that CLPUT can replace: a form-01 operand or a memory base (R47)? -/
def hasPutOperand (i : Instr) : Bool :=
  match vopOf i with
  | some v => v.b.isScalar
  | none => (mopOf i).isSome || (sopOf i).isSome

def decodeWordOf (w : BitVec 32) : Option Instr :=
  match decode (toBytes 4 w.toNat) with
  | .ok (i, _) => some i
  | .error _ => none

/-! ## CLAUSE -/

/-- Capture word `k` at `va` (R310, R311). -/
def captureWord (clausePc va : Word) : Op (ClauseOp × Instr) := do
  let s ← get
  let a := s.fetchAccess s.hart.mode s.hart
  let bs ← tryCatch (fetchAt a va) fun e => match e with
    | .trap t => if t.cause = 25 then raise { t with pc := some va } else raise { t with pc := some clausePc, addr := some va }
    | e => throw e
  let w := irOf bs
  let bad : Op (ClauseOp × Instr) := raise { cause := 2, word := some w, pc := some va }
  match decode bs with
  | .error _ => bad
  | .ok (i, _) =>
    let s ← get
    if bs.length ≠ 4 ∨ (vbody i).isNone ∨ !check4 (s.nvreg s.hart) s.hart.grp i then bad
    else
      let c := captureOf i s.hart
      return ({ word := w, a := c.a, b := c.b }, i)

def captureWords (pc : Word) : Nat → Nat → Op (List (ClauseOp × Instr))
  | 0, _ => return []
  | n + 1, k => do
    let o ← captureWord pc (pc + 4 + BitVec.ofNat 64 (4 * k))
    let os ← captureWords pc n (k + 1)
    return o :: os

/-- An advance bit on an indexed or tensor-descriptor access (R45). -/
def badAdvance (mask : Word) (is : List Instr) : Bool :=
  is.zipIdx.any fun (i, k) => bitAt mask k && (match mopOf i with
    | some m => (match m.mode with | .ix _ | .td _ => true | _ => false)
    | none => false)

def clauseOp (xm xt nm1 : BitVec 5) : Op Unit := do
  let h ← getH
  let n := nm1.toNat + 1
  let os ← captureWords h.pc n 0
  illegalUnless (!badAdvance (h.xr xm) (os.map (·.2)))
  modH fun h => { h with
    clause := some { pc := h.pc + 4, ops := os.map (·.1), mask := h.xr xm, trips := bits (h.xr xt) 0 32, done := 0, cur := 0,
                     begun := false, puts := [], stopped := none, heldIn := h.mode, mode := h.mode, fenced := false }
    freshConvoy := bits (h.xr xt) 0 32 = 0
    pc := h.pc + 4 + BitVec.ofNat 64 (4 * n) }

def execClause (xm xt nm1 : BitVec 5) (s : State) : Outcome := finish (clauseOp xm xt nm1) s

/-! ## Passes -/

/-- A clause that has not ended. -/
def Clause.active (c : Clause) : Bool := c.done < c.trips

/-- Operands that CLPUTs put in force at the start of a pass (R47, R313). -/
def Clause.applyPuts (c : Clause) : Clause :=
  let now := c.puts.filter (·.pass ≤ c.done)
  let ops := now.foldl (fun (ops : List ClauseOp) p => ops.modify p.k fun o => { o with a := p.value }) c.ops
  { c with ops := ops, puts := c.puts.filter fun p => c.done < p.pass }

/-- The base advance of a body word after its execution (Table 02-4). -/
def advanceOf (h : Hart) (i : Instr) (c : Cap) : Word :=
  match i with
  | .vldc _ => BitVec.ofNat 64 (bits h.vcbytes 0 32)
  | .vlsc _ | .vssc _ => BitVec.ofNat 64 h.nblk * c.b
  | _ => match mopOf i with
    | some m => (match m.mode with
      | .rc _ => BitVec.ofNat 64 h.rows * c.b
      | .es _ => BitVec.ofNat 64 h.nel * c.b
      | _ => 0)
    | none => 0

def modClause (f : Clause → Clause) : Op Unit := modH fun h => { h with clause := h.clause.map f }

/-- Execute body word `k` of the pass under way, at its own address (R312), and advance its base. -/
def bodyWord (c : Clause) (o : ClauseOp) (k : Nat) : Op Unit := do
  modH fun h => { h with pc := c.pc + BitVec.ofNat 64 (4 * k), ir := o.word, freshConvoy := h.freshConvoy || k = 0 }
  match decodeWordOf o.word with
  | none => illegal
  | some i => match vbody i with
    | none => illegal
    | some f => do
      let cap : Cap := { a := o.a, b := o.b }
      f cap
      let h ← getH
      let adv := if bitAt c.mask k then advanceOf h i cap else 0
      modClause fun c => { c with ops := c.ops.modify k fun o => { o with a := o.a + adv }, cur := k + 1 }
      modH Hart.retire

def bodyFrom (c : Clause) : List ClauseOp → Nat → Op Unit
  | [], _ => pure ()
  | o :: os, k => do
    bodyWord c o k
    bodyFrom c os (k + 1)

/-- A clause that has not ended and is not stopped. -/
def Hart.clauseRuns (h : Hart) : Bool :=
  match h.clause with
  | some c => c.active && c.stopped.isNone
  | none => false

/-- Has the hart's clause ended with a fence behind it? -/
def Hart.fencePassed (h : Hart) : Bool :=
  match h.clause with
  | some c => !c.active && c.fenced
  | none => false

/-- The scalar core goes on in mode `m` once the words of a pass have run, or one of them has stopped. -/
def Hart.backTo (m : Mode) (ups : List Upset) (h : Hart) : Hart := { h with mode := m, upsets := ups ++ h.upsets }

/-- Run words in a clause's own mode. A handler that waits for a pass of another mode (R106) is never pre-empted (R200): such a
pass meets none of the environment's mismatches. A fault of such a pass is a trap of the handler that waits: MPP records M, the
handler's mepc is overwritten by the body word's address, and no hook gets it; R106 does not say so (DESIGN CHOICE log 48). -/
def inMode (m : Mode) (x : Op Unit) : Op Unit := do
  let h ← getH
  let later := if h.mode = m then [] else h.upsets
  modH fun g => { g with mode := m, upsets := if h.mode = m then g.upsets else [] }
  tryCatch x fun e => do
    modH (Hart.backTo h.mode later)
    throw e
  modH (Hart.backTo h.mode later)

/-- One pass, from the body word at which it stands, to its end, in the mode of its CLAUSE (R106). While it runs the clause
records where the scalar core goes on, so that a trap leaves it stopped there (R49). -/
def clausePass (cont : Word) : Op Unit := do
  let h ← getH
  let ir := h.ir
  match h.clause with
  | none => pure ()
  | some c0 =>
    let c := if c0.begun then c0 else c0.applyPuts
    modH fun h => { h with clause := some { c with begun := true, stopped := some cont, heldIn := h.mode } }
    inMode c.mode (bodyFrom c (c.ops.drop c.cur) c.cur)
    modClause fun c => { c with done := c.done + 1, cur := 0, begun := false, stopped := none }
    modH fun h => { h with pc := cont, ir := ir, freshConvoy := h.freshConvoy || h.fencePassed }

/-- Up to `n` passes of the active clause. -/
def clausePasses : Nat → Op Unit
  | 0 => pure ()
  | n + 1 => do
    let h ← getH
    match h.clause with
    | some c => if c.active && c.stopped.isNone then do clausePass h.pc; clausePasses n else pure ()
    | none => pure ()

/-- Does the hart stand, in the mode in which it was stopped, at the body word at which a trap or a save stopped its clause
(R49)? -/
def Hart.atStoppedClause (h : Hart) : Option Word :=
  match h.clause with
  | some c => match c.stopped with
    | some cont => if c.active ∧ h.mode = c.heldIn ∧ h.pc = c.pc + BitVec.ofNat 64 (4 * c.cur) then some cont else none
    | none => none
  | none => none

/-! ## CLPUT and CLWAIT -/

/-- The active clause that CLPUT may change, with the word it names (R47, R313). -/
def putTarget (h : Hart) (k : Nat) : Option Clause :=
  match h.clause with
  | some c =>
    if !c.active then none
    else match c.ops[k]? with
      | some o => (match decodeWordOf o.word with
        | some i => if hasPutOperand i then some c else none
        | none => none)
      | none => none
  | none => none

/-- The first pass not yet begun. -/
def Clause.firstFree (c : Clause) : Nat := if c.begun then c.done + 1 else c.done

def clputOp (rd rs1 rs2 : BitVec 5) : Op Unit := do
  let h ← getH
  let w := h.xr rs2
  let k := bits w 0 5
  match putTarget h k with
  | none => writeX rd 0xFFFFFFFF
  | some c =>
    let p := max (bits w 32 32) c.firstFree
    let v := h.xr rs1
    modClause fun c => { c with puts := (c.puts.filter fun q => !(q.k = k && p ≤ q.pass)) ++ [{ k := k, pass := p, value := v }] }
    writeX rd (BitVec.ofNat 64 p)
  advance 4

def execClput (rd rs1 rs2 : BitVec 5) (s : State) : Outcome := finish (clputOp rd rs1 rs2) s

/-- CLWAIT's condition (R48, R314). -/
def clwaitDone (h : Hart) (rs1 : BitVec 5) : Bool :=
  match h.clause with
  | none => true
  | some c => !c.active || (h.xr rs1).toNat ≤ c.done

def clwaitOp (rd rs1 : BitVec 5) : Op Unit := do
  let h ← getH
  waitFor (clwaitDone h rs1)
  writeX rd (match h.clause with
    | none => 0
    | some c => BitVec.ofNat 64 c.done)
  advance 4

def execClwait (rd rs1 : BitVec 5) (s : State) : Outcome := finishWaiting (clwaitOp rd rs1) s

end Sys2Proof.Machine
end

