-- ==== Sys2Proof/Machine/Engines.lean ====
section
/-!
DEFINITION. What the engine commands of a hart address: the walks of a Scarab command (R161, R163) and the buffers of a
collective (Tables 16-2, 16-3, 16-6), for those rules that wait for commands on a scratchpad window (R129, R212, R318).
-/

namespace Sys2Proof.Machine

/-! ## Windows -/

/-- Does an interval of addresses meet the core scratchpad window? -/
def meetsCore (lo hi : Int) : Bool := (coreWindow : Int) < hi && lo < (coreWindow + 0x100000 : Nat)

/-- Does an interval of addresses meet the cluster scratchpad window? -/
def meetsClusterWindow (lo hi : Int) : Bool := (clusterWindow : Int) < hi && lo < (clusterWindow + 0x800000 : Nat)

/-- The first and last bytes a strided walk touches. -/
def hull (start : Nat) (stride : Int) (n esz : Nat) : Int × Int :=
  let last := (start : Int) + stride * ((n : Int) - 1)
  (min (start : Int) last, max (start : Int) last + esz)

/-- The interval of `n` bytes from an address; an address of 0 is none. -/
def span (va n : Nat) : List (Int × Int) := if va = 0 ∨ n = 0 then [] else [((va : Int), (va + n : Nat))]

/-! ## Scarab commands -/

/-- What a Scarab command addresses: its source, its destination, its counter and its status block. -/
def ScarabCmd.ranges (c : ScarabCmd) : List (Int × Int) :=
  (if c.unfold then hull c.src c.esz (c.shape.getD 0 0 * c.shape.getD 1 0 * c.shape.getD 2 0) c.esz
   else hull c.src c.sstr c.count c.esz)
    :: hull c.dst c.dstr c.count c.esz :: (span c.counter 8 ++ span c.status 16)

/-- Does a Scarab command address the core window? -/
def ScarabCmd.usesCore (c : ScarabCmd) : Bool := c.ranges.any fun r => meetsCore r.1 r.2

/-- Does a Scarab command address the cluster window (R212)? -/
def ScarabCmd.usesCluster (c : ScarabCmd) : Bool := c.ranges.any fun r => meetsClusterWindow r.1 r.2

/-! ## Collectives -/

/-- A field of a command descriptor. -/
def dfield (d : BitVec 512) (off lo len : Nat) : Nat := field512 d off lo len

/-- The fields of a collective descriptor (Table 16-2). -/
structure CollDesc where
  comm : Nat
  op : Nat
  red : Nat
  type : Nat
  cmp : Bool
  res : Bool
  rscope : Nat
  tag : Nat
  count : Nat
  src : Word
  dst : Word
  resid : Word
  crec : Word
  root : Nat
  deriving DecidableEq, Repr

def collDesc (d : BitVec 512) : CollDesc where
  comm := dfield d 0 0 16
  op := dfield d 0 16 8
  red := dfield d 0 24 3
  type := dfield d 0 27 3
  cmp := bitAt d 30
  res := bitAt d 31
  rscope := dfield d 0 32 3
  tag := dfield d 8 0 32
  count := dfield d 8 32 32
  src := sext48 (dfield d 0x10 0 48)
  dst := sext48 (dfield d 0x18 0 48)
  resid := sext48 (dfield d 0x20 0 48)
  crec := sext48 (dfield d 0x28 0 48)
  root := dfield d 0x30 0 16

/-- The elements of SRC that a member of rank `r` reads (Table 16-3). -/
def srcCount (d : CollDesc) (n r : Nat) : Nat :=
  match d.op with
  | 0 => d.count
  | 1 => n * d.count
  | 2 => d.count
  | 3 => if r = d.root then d.count else 0
  | 4 => n * d.count
  | _ => 0

/-- The number of elements of DST (Table 16-3). -/
def dstCount (d : CollDesc) (n : Nat) : Nat :=
  match d.op with
  | 0 | 1 | 3 => d.count
  | 2 | 4 => n * d.count
  | _ => 0

def State.comm? (s : State) (id : Nat) : Option Comm := s.comms.find? (·.id = id)

/-- What a collective addresses at this member (R269, R270). -/
def State.collRanges (s : State) (r : Registration) : List (Int × Int) :=
  let d := collDesc r.desc
  let (n, own) := ((s.comm? r.comm).map fun m => (m.members.length, m.ownRank)).getD (0, 0)
  let es := ebOf d.type
  span d.src.toNat (srcCount d n own * es) ++ span d.dst.toNat (dstCount d n * es)
    ++ (if d.res then span d.resid.toNat (4 * srcCount d n own) else [])
    ++ span d.crec.toNat (16 + 8 * ((n + 63) / 64)) ++ span r.counter 8

/-! ## Commands on a hart's core scratchpad -/

/-- Has a Scarab command that a hart issued on its core window not ended (R318)? -/
def State.scarabBusy (s : State) (h : Hart) : Bool :=
  (s.cluster h.cluster).scarab.any fun c => c.via.hart = h.id && c.usesCore

/-- Has any engine command that a hart issued on its core window not ended (R129)? -/
def State.coreBusy (s : State) (h : Hart) : Bool :=
  s.scarabBusy h || s.regs.any fun r =>
    r.via.hart = h.id && (h.job.map (·.launch)) = some r.launch && (s.collRanges r).any fun i => meetsCore i.1 i.2

/-- Has any engine command of a launch on its reservation in a cluster not ended (R212)? -/
def State.clusterBusy (s : State) (n cl : Nat) : Bool :=
  (s.cluster cl).scarab.any (fun c => c.via.launch = n && c.usesCluster)
    || s.regs.any fun r => r.launch = n && r.via.hart / 4 = cl && (s.collRanges r).any fun i => meetsClusterWindow i.1 i.2

end Sys2Proof.Machine
end

