-- ==== Sys2Proof/Machine/Csr.lean ====
section
/-!
DEFINITION. Control and status registers (R4, R8, R14, R103 to R106, Table 04-15): their values, who may access
them, what a write does, the pool boundaries (R127 to R131), and the CSR instructions.
-/

namespace Sys2Proof.Machine

/-! ## Undefined vector state -/

/-- v0 to v31, p1 to p63, sf0 to sf255 and the validity masks become undefined (R36, R129). -/
def undefVector : Op Unit := do
  let k ← draw
  modH fun h => { h with vregs := .undef k, preds := .undef k, sf := .undef k, masks := .undef k }

/-- The validity masks become undefined (R383). -/
def undefMasks : Op Unit := do
  let k ← draw
  modH fun h => { h with masks := .undef k }

def undefDescriptors : Op Unit := do
  let k ← draw
  modH fun h => { h with td := .undef k, tdAddr := .undef k }

/-! ## Pool boundaries -/

/-- Banks that leave the core scratchpad lose their contents, those that join it read as unwritten (R129). -/
def moveScratch (old new : Nat) (t : Tab Block) : Tab Block :=
  if new = old then t else t.filter fun p => (64 - min old new) * 64 ≤ p.1

/-- Boundaries V, C, S, VMAX take effect (R129). -/
def setBoundaries (v c s vm : Nat) : Op Unit := do
  let h ← getH
  modH fun h => { h with
    poolv := BitVec.ofNat 64 (v + vm * 256), poolc := BitVec.ofNat 64 c, pools := BitVec.ofNat 64 s
    pool := moveScratch h.sbanks s h.pool }
  if v ≠ h.vbanks then undefVector

/-- R128 on proposed boundaries. -/
def boundariesOk (v c s vm : Nat) : Bool := 1 ≤ c && v + c + s ≤ 64 && v ≤ vm && vm ≤ 63

/-- A boundary write: refused whole, or made once the hart's commands on its core scratchpad have ended (R128, R129); no
pre-emption falls before it once it waits (Table 09-6). -/
def writeBoundaries (v c s vm : Nat) : Op Unit := do
  illegalUnless (boundariesOk v c s vm)
  let st ← get
  modH fun h => { h with boundaryWait := st.coreBusy st.hart }
  waitFor (!st.coreBusy st.hart)
  setBoundaries v c s vm

/-! ## Values -/

/-- A vector register whose mask VVALID may show (R123). -/
def Hart.vvselOk (h : Hart) (n : Nat) : Bool := let r := bits h.vvsel 0 5; r % h.grp = 0 && r < n

/-- VVALID (R123). -/
def vvalid (s : State) : Word :=
  let h := s.hart
  if h.vvselOk (s.nvreg h) then BitVec.ofNat 64 ((h.masks.get (bits h.vvsel 0 5)).toNat % 2 ^ h.nblk) else 0

/-- L2PINn, zero for a slot of another launch (R145). -/
def l2pin (s : State) (n : Nat) : Word :=
  match ((s.pins.get? s.hart.die).getD [])[n]?, s.hart.job with
  | some (some p), some j =>
    if p.launch = j.launch then BitVec.ofNat 64 (2 ^ 63 + p.pages * 2 ^ 48 + p.va % 2 ^ 48) else 0
  | _, _ => 0

/-- mstatus as read: SD follows FS. -/
def mstatusRead (v : Word) : Word := setBit v 63 (bits v 13 2 = 3)

/-- The value of a CSR, or none where the address names no CSR (R104). -/
def csrValue (s : State) (a : Nat) : Option Word :=
  let h := s.hart
  match a with
  | 0x001 => some (BitVec.ofNat 64 (bits h.fcsr 0 5))
  | 0x002 => some (BitVec.ofNat 64 (bits h.fcsr 5 3))
  | 0x003 => some (h.fcsr.setWidth 64)
  | 0x300 => some (mstatusRead h.mstatus)
  | 0x301 => some Config.misa
  | 0x304 => some h.mie
  | 0x305 => some h.mtvec
  | 0x306 => some h.mcounteren
  | 0x30A => some 0
  | 0x320 => some h.mcountinhibit
  | 0x340 => some h.mscratch
  | 0x341 => some h.mepc
  | 0x342 => some h.mcause
  | 0x343 => some h.mtval
  | 0x344 => some h.mip
  | 0x7C0 => some h.poolv
  | 0x7C1 => some h.pools
  | 0x7C2 => some h.poolc
  | 0x7C3 => some h.preq
  | 0x7C4 => some h.kcause
  | 0x7C5 => some h.korigin
  | 0x7C6 => some h.faddr
  | 0x800 => some h.vtype
  | 0x801 => some h.mfc
  | 0x802 => some (BitVec.ofNat 64 h.vxi)
  | 0x803 => some h.vfflags
  | 0x804 => some h.vvsel
  | 0x805 => some (vvalid s)
  | 0x806 => some h.vhint
  | 0x807 => some (h.chstep.setWidth 64)
  | 0x808 => some h.vcbytes
  | 0x820 => some (l2pin s 0)
  | 0x824 => some (l2pin s 1)
  | 0x828 => some (l2pin s 2)
  | 0x82C => some (l2pin s 3)
  | 0xB00 => some h.mcycle
  | 0xB02 => some h.minstret
  | 0xC00 => some h.mcycle
  | 0xC01 => some (BitVec.ofNat 64 s.time)
  | 0xC02 => some h.minstret
  | 0xCC0 => some h.vshp
  | 0xCC1 => some (BitVec.ofNat 64 ((h.grant.map (·.rows)).getD 0))
  | 0xCC8 => some h.idxlin
  | 0xCC9 => some h.vpoiscnt
  | 0xF11 => some Config.mvendorid
  | 0xF12 => some Config.marchid
  | 0xF13 => some Config.mimpid
  | 0xF14 => some (BitVec.ofNat 64 h.id)
  | 0xF15 => some 0
  | _ =>
    if 0x810 ≤ a ∧ a < 0x820 then some ((h.bd.getD (a - 0x810) 1).setWidth 64)
    else if 0xCC2 ≤ a ∧ a < 0xCC8 then some ((h.idx.getD (a - 0xCC2) 0).setWidth 64)
    else if (0xC03 ≤ a ∧ a < 0xC20) ∨ (0xB03 ≤ a ∧ a < 0xB20) ∨ (0x323 ≤ a ∧ a < 0x340) then some 0
    else none

/-- CSRs that their table marks read-only outside the architecture's read-only addresses (Table 04-15, R8). -/
def csrReadOnly (m : Mode) (a : Nat) : Bool :=
  0xC00 ≤ a || a = 0x808 || a = 0x820 || a = 0x824 || a = 0x828 || a = 0x82C || (a = 0x802 && m = .u)

/-- Scalar floating-point state may be used: mstatus.FS is not off. -/
def Hart.fsOn (h : Hart) : Bool := bits h.mstatus 13 2 ≠ 0

/-- May the hart access a CSR (R4, R104, R105)? -/
def csrAllowed (s : State) (a : Nat) (write : Bool) : Bool :=
  let h := s.hart
  let modeOk := match h.mode with
    | .m => true
    | .u =>
      if 0x7C0 ≤ a ∧ a ≤ 0x7C2 then s.flag h 1
      else if 0xC00 ≤ a ∧ a < 0xC20 then h.mcounteren.getLsbD (a - 0xC00)
      else a / 256 % 4 = 0
  (csrValue s a).isSome && modeOk && !(write && csrReadOnly h.mode a) && (a = 0 || 3 < a || h.fsOn)

/-! ## Writes -/

/-- VTYPE's defined fields hold no reserved value (Table 02-1). -/
def vtypeOk (v : Word) : Bool :=
  bits v 10 3 ≤ 4 && 7 ≤ bits v 6 4 && bits v 6 4 ≤ 13 && bits v 2 3 ≠ 3

/-- A write to VTYPE starts a convoy (R41); one that changes BLK or GRP leaves the masks undefined (R383). -/
def writeVtype (v : Word) : Op Unit := do
  illegalUnless (vtypeOk v)
  let h ← getH
  let v := v &&& 0x1FDF#64
  modH fun h => { h with vtype := v, freshConvoy := true }
  if bits v 6 4 ≠ h.blkLog ∨ bits v 0 2 ≠ bits h.vtype 0 2 then undefMasks

def writeMfc (v : Word) : Op Unit := do
  illegalUnless (bits v 0 3 ≠ 3)
  modH fun h => { h with mfc := v &&& 0x1FFF#64, freshConvoy := true }

/-- An M-mode write of VXI: the elements between the old and the new value are treated as inactive (R184). -/
def writeVxi (v : Word) : Op Unit := do
  let h ← getH
  let n := v.toNat
  illegalUnless (n ≤ h.nel)
  modH fun h => { h with
    vxi := n
    skipped := if n = h.vxi then h.skipped else (min n h.vxi, max n h.vxi) :: h.skipped }

def writeVvalid (v : Word) : Op Unit := do
  let s ← get
  let h := s.hart
  if h.vvselOk (s.nvreg h) then
    let r := bits h.vvsel 0 5
    let m := h.masks.get r
    let n := h.nblk
    modH fun h => { h with masks := h.masks.set r (BitVec.ofNat 64 (m.toNat / 2 ^ n * 2 ^ n + v.toNat % 2 ^ n)) }

def writeBd (n : Nat) (v : Word) : Op Unit := do
  let d := bits v 0 13
  illegalUnless (1 ≤ d && d ≤ 4096)
  modH fun h => { h with bd := h.bd.set n (BitVec.ofNat 13 d) }

def writePoolv (v : Word) : Op Unit := do
  let h ← getH
  writeBoundaries (bits v 0 7) h.cbanks h.sbanks (bits v 8 7)
def writePools (v : Word) : Op Unit := do
  let h ← getH
  writeBoundaries h.vbanks h.cbanks (bits v 0 7) h.vmax
def writePoolc (v : Word) : Op Unit := do
  let h ← getH
  writeBoundaries h.vbanks (bits v 0 7) h.sbanks h.vmax

/-- mstatus fields that software writes: MIE, MPIE, MPP, FS, MPRV, TW; UXL reads 2 (PRESUMED log 7). -/
def mstatusWrite (v : Word) : Word := v &&& 0x227888#64 ||| 0x200000000#64

/-- Does a value hold no reserved value of a defined field of the scalar CSRs: frm up to 4, MPP M or U, mtvec.MODE 0 or 1
(R4, R103)? -/
def scalarCsrOk (a : Nat) (v : Word) : Bool :=
  match a with
  | 0x002 => bits v 0 3 ≤ 4
  | 0x003 => bits v 5 3 ≤ 4
  | 0x300 => bits v 11 2 = 0 || bits v 11 2 = 3
  | 0x305 => bits v 0 2 ≤ 1
  | _ => true

/-- A write of minstret or mcycle that the instruction's own count does not change. -/
def writeMinstret (v : Word) : Op Unit :=
  modH fun h => { h with minstret := if bitAt h.mcountinhibit 2 then v else v - 1 }

/-- The dirty mark of mstatus.FS. -/
def Hart.fsDirty (h : Hart) : Hart := { h with mstatus := h.mstatus ||| 0x6000#64 }

/-- What a write to each CSR does; reserved bits are ignored, a reserved value raises illegal instruction (R4). -/
def csrWrite (a : Nat) (v : Word) : Op Unit :=
  match a with
  | 0x001 => modH fun h => { h with fcsr := BitVec.ofNat 8 (bits h.fcsr 5 3 * 32 + bits v 0 5) }.fsDirty
  | 0x002 => modH fun h => { h with fcsr := BitVec.ofNat 8 (bits v 0 3 * 32 + bits h.fcsr 0 5) }.fsDirty
  | 0x003 => modH fun h => { h with fcsr := v.setWidth 8 }.fsDirty
  | 0x300 => modH fun h => { h with mstatus := mstatusWrite v }
  | 0x304 => modH fun h => { h with mie := v &&& 0x10000#64 }
  | 0x305 => modH fun h => { h with mtvec := v }
  | 0x306 => modH fun h => { h with mcounteren := v &&& 0xFFFFFFFF#64 }
  | 0x320 => modH fun h => { h with mcountinhibit := v &&& 5#64 }
  | 0x340 => modH fun h => { h with mscratch := v }
  | 0x341 => modH fun h => { h with mepc := v &&& ~~~ 1#64 }
  | 0x342 => modH fun h => { h with mcause := v }
  | 0x343 => modH fun h => { h with mtval := v }
  | 0x7C0 => writePoolv v
  | 0x7C1 => writePools v
  | 0x7C2 => writePoolc v
  | 0x7C3 => modH fun h => { h with preq := v &&& 0xFFFFFFFF0003#64, mip := setBit h.mip 16 (bitAt v 0) }
  | 0x7C4 => do
    illegalUnless (bits v 8 4 ≤ 5)
    modH fun h => { h with kcause := v &&& 0x3F0FFF#64 }
  | 0x7C5 => modH fun h => { h with korigin := v }
  | 0x7C6 => modH fun h => { h with faddr := v }
  | 0x800 => writeVtype v
  | 0x801 => writeMfc v
  | 0x802 => writeVxi v
  | 0x803 => modH fun h => { h with vfflags := v &&& 0x7F#64 }
  | 0x804 => modH fun h => { h with vvsel := v &&& 0x1F#64 }
  | 0x805 => writeVvalid v
  | 0x806 => modH fun h => { h with vhint := v &&& 1#64 }
  | 0x807 => modH fun h => { h with chstep := v.setWidth 12 }
  | 0xB00 => modH fun h => { h with mcycle := v }
  | 0xB02 => writeMinstret v
  | _ => if 0x810 ≤ a ∧ a < 0x820 then writeBd (a - 0x810) v else pure ()

/-- A CSR instruction that writes (Zicsr): the access is checked, the write is made, then rd receives the old
value. -/
def csrInstr (a : Nat) (acc : CsrAcc) : Op Unit := do
  let s ← get
  illegalUnless (csrAllowed s a true)
  let old := (csrValue s a).getD 0
  let new := csrNew acc.op old (csrSrcValue s.hart acc.src)
  illegalUnless (scalarCsrOk a new)
  csrWrite a new
  writeX acc.rd old
  advance 4

/-- A CSR instruction that only reads. -/
def csrReadOp (rd : BitVec 5) (a : Nat) : Op Unit := do
  let s ← get
  illegalUnless (csrAllowed s a false)
  writeX rd ((csrValue s a).getD 0)
  advance 4

def execVtypeWrite (a : CsrAcc) (s : State) : Outcome := finish (csrInstr 0x800 a) s
def execMfcWrite (a : CsrAcc) (s : State) : Outcome := finish (csrInstr 0x801 a) s
def execVxiWrite (a : CsrAcc) (s : State) : Outcome := finish (csrInstr 0x802 a) s
def execPoolBoundaryWrite (which : BitVec 2) (a : CsrAcc) (s : State) : Outcome := finish (csrInstr (0x7C0 + which.toNat) a) s
def execVvalidWrite (a : CsrAcc) (s : State) : Outcome := finish (csrInstr 0x805 a) s
def execBdCsrWrite (n : BitVec 4) (a : CsrAcc) (s : State) : Outcome := finish (csrInstr (0x810 + n.toNat) a) s

end Sys2Proof.Machine
end

