-- ==== Sys2Proof/Machine/ScalarFp.lean ====
section
/-!
DEFINITION. The scalar floating-point instructions of RV64FD (R103): they use fcsr, follow the ratified RISC-V
specifications, and neither read nor write VTYPE.RM and VFFLAGS (Table 04-14).
-/

namespace Sys2Proof.Machine

def fmtOfF : FFmt → FloatFmt
  | .s => Fmt.f32
  | .d => Fmt.f64

/-- The bits of an operand: a single that is not NaN-boxed reads as the canonical NaN. -/
def Hart.frBits (h : Hart) (f : FFmt) (r : BitVec 5) : Nat :=
  let v := (h.fr r).toNat
  match f with
  | .d => v
  | .s => if v / 2 ^ 32 = 2 ^ 32 - 1 then v % 2 ^ 32 else canonicalNan Fmt.f32

def Hart.frVal (h : Hart) (f : FFmt) (r : BitVec 5) : Fx := decodeF (fmtOfF f) (h.frBits f r)

/-- A single is written NaN-boxed. -/
def boxed (f : FFmt) (v : Nat) : Word :=
  match f with
  | .d => BitVec.ofNat 64 v
  | .s => BitVec.ofNat 64 (0xFFFFFFFF * 2 ^ 32 + v % 2 ^ 32)

/-- A write of an f register dirties mstatus.FS. -/
def writeF (f : FFmt) (r : BitVec 5) (v : Nat) : Op Unit := modH fun h => (h.setF r (boxed f v)).fsDirty

/-- Accrue in fcsr; flags raised dirty mstatus.FS. -/
def accrueScalar (fl : FlagSet) : Op Unit := if fl = 0 then pure () else modH fun h => (h.accrueF fl).fsDirty

/-- Scalar floating point is off when mstatus.FS is 0. -/
def needFs : Op Unit := do illegalUnless (← getH).fsOn

/-- The rounding mode: the instruction's, or frm for code 7; a reserved one raises illegal instruction. -/
def roundingMode (rm : BitVec 3) : Op Rm := do
  let h ← getH
  match rmOf (if rm = 7 then bits h.fcsr 5 3 else rm.toNat) with
  | some r => return r
  | none => illegal

/-- Round an exact result into a format and write it. -/
def writeRounded (f : FFmt) (r : BitVec 5) (m : Rm) (x : Fx × FlagSet) : Op Unit := do
  let (v, fl) := roundFx (fmtOfF f) m x.1
  writeF f r v
  accrueScalar (x.2 ||| fl)

def farith (op : FOp) (f : FFmt) (rm : BitVec 3) (rd rs1 rs2 : BitVec 5) : Op Unit := do
  needFs
  let m ← roundingMode rm
  let h ← getH
  let a := h.frVal f rs1
  let b := h.frVal f rs2
  writeRounded f rd m (match op with
    | .add => addFx m a b
    | .sub => addFx m a b.neg
    | .mul => mulFx a b
    | .div => divFx a b)

def fsqrtOp (f : FFmt) (rm : BitVec 3) (rd rs1 : BitVec 5) : Op Unit := do
  needFs
  let m ← roundingMode rm
  let h ← getH
  writeRounded f rd m (sqrtFx (h.frVal f rs1))

def fmaOp (op : FmaOp) (f : FFmt) (rm : BitVec 3) (rd rs1 rs2 rs3 : BitVec 5) : Op Unit := do
  needFs
  let m ← roundingMode rm
  let h ← getH
  let a := h.frVal f rs1
  let b := h.frVal f rs2
  let d := h.frVal f rs3
  writeRounded f rd m (match op with
    | .madd => fmaFx m a b d
    | .msub => fmaFx m a b d.neg
    | .nmsub => fmaFx m a.neg b d
    | .nmadd => fmaFx m a.neg b d.neg)

/-- The sign bit and the other bits of a pattern. -/
def fSign (f : FFmt) (v : Nat) : Bool := v.testBit ((fmtOfF f).width - 1)
def fWithSign (f : FFmt) (v : Nat) (s : Bool) : Nat := v % 2 ^ ((fmtOfF f).width - 1) + signBit (fmtOfF f) s

def fsgnjOp (op : FSgn) (f : FFmt) (rd rs1 rs2 : BitVec 5) : Op Unit := do
  needFs
  let h ← getH
  let a := h.frBits f rs1
  let s := fSign f (h.frBits f rs2)
  writeF f rd (fWithSign f a (match op with
    | .sgnj => s
    | .sgnjn => !s
    | .sgnjx => fSign f a != s))

def fminmaxOp (isMax : Bool) (f : FFmt) (rd rs1 rs2 : BitVec 5) : Op Unit := do
  needFs
  let h ← getH
  let (v, fl) := minMaxF (fmtOfF f) isMax (h.frBits f rs1) (h.frBits f rs2)
  writeF f rd v
  accrueScalar fl

def fcmpOp (op : FCmp) (f : FFmt) (rd rs1 rs2 : BitVec 5) : Op Unit := do
  needFs
  let h ← getH
  let a := h.frVal f rs1
  let b := h.frVal f rs2
  let nan := a.isNan || b.isNan
  let invalid := match op with
    | .eq => a.isSnan || b.isSnan
    | _ => nan
  let c := cmpFx a b
  let r := !nan && (match op with
    | .eq => c = .eq
    | .lt => c = .lt
    | .le => c ≠ .gt)
  writeX rd (if r then 1 else 0)
  accrueScalar (if invalid then flNV else 0)

/-- FCLASS's bit. -/
def fclassBit (f : FFmt) (v : Nat) : Nat :=
  let fm := fmtOfF f
  let ex := v / 2 ^ fm.fbits % 2 ^ fm.ebits
  let frac := v % 2 ^ fm.fbits
  let s := fSign f v
  if ex = fm.expMax then
    (if frac = 0 then (if s then 0 else 7) else if frac < 2 ^ (fm.fbits - 1) then 8 else 9)
  else if ex = 0 then (if frac = 0 then (if s then 3 else 4) else (if s then 2 else 5))
  else (if s then 1 else 6)

def fclassOp (f : FFmt) (rd rs1 : BitVec 5) : Op Unit := do
  needFs
  let h ← getH
  writeX rd (BitVec.ofNat 64 (2 ^ fclassBit f (h.frBits f rs1)))

def fcvtFFOp (dst src : FFmt) (rm : BitVec 3) (rd rs1 : BitVec 5) : Op Unit := do
  needFs
  let m ← roundingMode rm
  let h ← getH
  let x := h.frVal src rs1
  writeRounded dst rd m (x, if x.isSnan then flNV else 0)

/-- The limits of an integer format, and the value's place in the x register: 32-bit results are sign-extended. -/
def ifmtLimits : IFmt → Int × Int
  | .w => (-(2 ^ 31), 2 ^ 31 - 1)
  | .wu => (0, 2 ^ 32 - 1)
  | .l => (-(2 ^ 63), 2 ^ 63 - 1)
  | .lu => (0, 2 ^ 64 - 1)

def fcvtIFOp (dst : IFmt) (f : FFmt) (rm : BitVec 3) (rd rs1 : BitVec 5) : Op Unit := do
  needFs
  let m ← roundingMode rm
  let h ← getH
  let (lo, hi) := ifmtLimits dst
  let (v, fl) := toIntFx m lo hi hi (h.frVal f rs1)
  let w := BitVec.ofInt 64 v
  writeX rd (match dst with
    | .w | .wu => sextN 32 w.toNat
    | _ => w)
  accrueScalar fl

def intOf (k : IFmt) (v : Word) : Int :=
  match k with
  | .w => toSigned 32 v.toNat
  | .wu => (v.toNat % 2 ^ 32 : Nat)
  | .l => v.toInt
  | .lu => v.toNat

def fcvtFIOp (f : FFmt) (src : IFmt) (rm : BitVec 3) (rd rs1 : BitVec 5) : Op Unit := do
  needFs
  let m ← roundingMode rm
  let h ← getH
  writeRounded f rd m (ofInt (intOf src (h.xr rs1)), 0)

def fmvXFOp (f : FFmt) (rd rs1 : BitVec 5) : Op Unit := do
  needFs
  let h ← getH
  writeX rd (match f with
    | .d => h.fr rs1
    | .s => sextN 32 (h.fr rs1).toNat)

def fmvFXOp (f : FFmt) (rd rs1 : BitVec 5) : Op Unit := do
  needFs
  let h ← getH
  writeF f rd (h.xr rs1).toNat

def ffmtBytes : FFmt → Nat
  | .s => 4
  | .d => 8

def floadOp (f : FFmt) (rd rs1 : BitVec 5) (imm : BitVec 12) : Op Unit := do
  needFs
  let h ← getH
  let v ← memRead {} (h.xr rs1 + imm.signExtend 64) (ffmtBytes f)
  writeF f rd v

def fstoreOp (f : FFmt) (rs1 rs2 : BitVec 5) (imm : BitVec 12) : Op Unit := do
  needFs
  let h ← getH
  memWrite {} (h.xr rs1 + imm.signExtend 64) (ffmtBytes f) (h.fr rs2).toNat

end Sys2Proof.Machine
end

