-- ==== Sys2Proof/Machine/Scalar.lean ====
section
/-!
DEFINITION. The RV64 base on this device (R103, Table 04-14): RV64IMAC, Zicsr, Zifencei, Zba and Zbb, and MRET.
-/

namespace Sys2Proof.Machine

/-! ## Arithmetic -/

def boolW (b : Bool) : Word := if b then 1 else 0

/-- A count of trailing zeros among `n` bits. -/
def ctzN : Nat → Nat → Nat
  | 0, _ => 0
  | n + 1, v => if v % 2 = 1 then 0 else 1 + ctzN n (v / 2)
def popN : Nat → Nat → Nat
  | 0, _ => 0
  | n + 1, v => v % 2 + popN n (v / 2)

/-- Division and remainder as RISC-V defines their corners. -/
def divS (w : Nat) (a b : BitVec w) : BitVec w := if b = 0 then BitVec.allOnes w else a.sdiv b
def divU (w : Nat) (a b : BitVec w) : BitVec w := if b = 0 then BitVec.allOnes w else a / b
def remS (w : Nat) (a b : BitVec w) : BitVec w := if b = 0 then a else a.srem b
def remU (w : Nat) (a b : BitVec w) : BitVec w := if b = 0 then a else a % b

/-- The high half of a product of two integers. -/
def mulHigh (a b : Int) : Word := BitVec.ofInt 64 (a * b / 2 ^ 64)

def uw (a : Word) : Word := BitVec.ofNat 64 (a.toNat % 2 ^ 32)

def aluValue (op : AluOp) (a b : Word) : Word :=
  let sh := b.toNat % 64
  match op with
  | .add => a + b
  | .sub => a - b
  | .sll => a <<< sh
  | .slt => boolW (a.slt b)
  | .sltu => boolW (a.ult b)
  | .xor => a ^^^ b
  | .srl => a >>> sh
  | .sra => a.sshiftRight sh
  | .or => a ||| b
  | .and => a &&& b
  | .mul => a * b
  | .mulh => mulHigh a.toInt b.toInt
  | .mulhsu => mulHigh a.toInt b.toNat
  | .mulhu => mulHigh a.toNat b.toNat
  | .div => divS 64 a b
  | .divu => divU 64 a b
  | .rem => remS 64 a b
  | .remu => remU 64 a b
  | .sh1add => (a <<< 1) + b
  | .sh2add => (a <<< 2) + b
  | .sh3add => (a <<< 3) + b
  | .addUw => uw a + b
  | .sh1addUw => (uw a <<< 1) + b
  | .sh2addUw => (uw a <<< 2) + b
  | .sh3addUw => (uw a <<< 3) + b
  | .andn => a &&& ~~~ b
  | .orn => a ||| ~~~ b
  | .xnor => ~~~ (a ^^^ b)
  | .max => if a.slt b then b else a
  | .maxu => if a.ult b then b else a
  | .min => if a.slt b then a else b
  | .minu => if a.ult b then a else b
  | .rol => a.rotateLeft sh
  | .ror => a.rotateRight sh

/-- The 32-bit operations: on the low words, the result sign-extended. -/
def aluWValue (op : AluWOp) (a b : Word) : Word :=
  let x := a.setWidth 32
  let y := b.setWidth 32
  let sh := b.toNat % 32
  (match op with
    | .addw => x + y
    | .subw => x - y
    | .sllw => x <<< sh
    | .srlw => x >>> sh
    | .sraw => x.sshiftRight sh
    | .mulw => x * y
    | .divw => divS 32 x y
    | .divuw => divU 32 x y
    | .remw => remS 32 x y
    | .remuw => remU 32 x y
    | .rolw => x.rotateLeft sh
    | .rorw => x.rotateRight sh : BitVec 32).signExtend 64

def immValue (op : ImmOp) (a i : Word) : Word :=
  match op with
  | .addi => a + i
  | .slti => boolW (a.slt i)
  | .sltiu => boolW (a.ult i)
  | .xori => a ^^^ i
  | .ori => a ||| i
  | .andi => a &&& i

def shValue (op : ShOp) (a : Word) (n : Nat) : Word :=
  match op with
  | .slli => a <<< n
  | .srli => a >>> n
  | .srai => a.sshiftRight n
  | .rori => a.rotateRight n
  | .slliUw => uw a <<< n

def shWValue (op : ShWOp) (a : Word) (n : Nat) : Word :=
  let x := a.setWidth 32
  (match op with
    | .slliw => x <<< n
    | .srliw => x >>> n
    | .sraiw => x.sshiftRight n
    | .roriw => x.rotateRight n : BitVec 32).signExtend 64

/-- ORC.B: each nonzero byte becomes all ones. -/
def orcBytes (v : Word) : Word :=
  BitVec.ofNat 64 (ofBytes ((toBytes 8 v.toNat).map fun b => if b = 0 then 0 else 0xFF))

def unValue (op : UnOp) (a : Word) : Word :=
  let n := a.toNat
  match op with
  | .clz => BitVec.ofNat 64 (clzN 64 n)
  | .ctz => BitVec.ofNat 64 (ctzN 64 n)
  | .cpop => BitVec.ofNat 64 (popN 64 n)
  | .clzw => BitVec.ofNat 64 (clzN 32 (n % 2 ^ 32))
  | .ctzw => BitVec.ofNat 64 (ctzN 32 n)
  | .cpopw => BitVec.ofNat 64 (popN 32 n)
  | .sextB => sextN 8 n
  | .sextH => sextN 16 n
  | .zextH => BitVec.ofNat 64 (n % 2 ^ 16)
  | .orcB => orcBytes a
  | .rev8 => BitVec.ofNat 64 (ofBytes (toBytes 8 n).reverse)

def brTaken (op : BrOp) (a b : Word) : Bool :=
  match op with
  | .eq => a == b
  | .ne => a != b
  | .lt => a.slt b
  | .ge => !a.slt b
  | .ltu => a.ult b
  | .geu => !a.ult b

/-! ## Memory -/

def ldBytes : LdOp → Nat
  | .lb | .lbu => 1
  | .lh | .lhu => 2
  | .lw | .lwu => 4
  | .ld => 8

def ldExtend (op : LdOp) (v : Nat) : Word :=
  match op with
  | .lb => sextN 8 v
  | .lh => sextN 16 v
  | .lw => sextN 32 v
  | .ld | .lbu | .lhu | .lwu => BitVec.ofNat 64 v

def stBytes : StOp → Nat
  | .sb => 1 | .sh => 2 | .sw => 4 | .sd => 8

/-- An AMO's new value, on operands of `w` bits. -/
def amoValue (op : AmoOp) (w : Nat) (old src : Nat) : Nat :=
  let a := BitVec.ofNat w old
  let b := BitVec.ofNat w src
  (match op with
    | .swap => b
    | .add => a + b
    | .xor => a ^^^ b
    | .and => a &&& b
    | .or => a ||| b
    | .min => if a.slt b then a else b
    | .max => if a.slt b then b else a
    | .minu => if a.ult b then a else b
    | .maxu => if a.ult b then b else a).toNat

def amoBytes (dbl : Bool) : Nat := if dbl then 8 else 4

/-- The AMO of one instruction, with its order at package scope (R103, R173). -/
def amoOp (op : AmoOp) (dbl aq rl : Bool) (rd rs1 rs2 : BitVec 5) : Op Unit := do
  if rl then release .scalar .pkg
  let h ← getH
  let n := amoBytes dbl
  let src := (h.xr rs2).toNat
  let old ← memAmo {} (h.xr rs1) n fun v => amoValue op (8 * n) v src
  writeX rd (sextN (8 * n) old)
  if aq then acquire .pkg

/-- LR: a read, and a reservation on its bytes. -/
def lrOp (dbl aq rl : Bool) (rd rs1 : BitVec 5) : Op Unit := do
  if rl then release .scalar .pkg
  let h ← getH
  let n := amoBytes dbl
  let va := h.xr rs1
  let v ← memRead {} va n
  let s ← get
  let ps ← placeBytes {} (s.access s.hart) .load false false va va n
  modH fun h => { h with reservation := (ps.head?.map fun p => (p.1.resKey, n)) }
  writeX rd (sextN (8 * n) v)
  if aq then acquire .pkg

/-- SC: the store is made when the reservation covers its bytes; the reservation ends in either case. A remote one is performed
at its home (R277). -/
def scOp (dbl aq rl : Bool) (rd rs1 rs2 : BitVec 5) : Op Unit := do
  if rl then release .scalar .pkg
  let h ← getH
  let n := amoBytes dbl
  let va := h.xr rs1
  if va.toNat % n ≠ 0 then fail {} 6 va
  let s ← get
  let ps ← placeBytes {} (s.access s.hart) .store true false va va n
  checkRemote {} .store va ps
  let held : Bool := match h.reservation, ps.head? with
    | some (k, m), some p => k ≤ p.1.resKey && p.1.resKey + n ≤ k + m
    | _, _ => false
  if held then storePlaced ps (toBytes n (h.xr rs2).toNat)
  modH fun h => { h with reservation := none }
  writeX rd (boolW !held)
  if aq then acquire .pkg

/-! ## The instruction -/

/-- Jump: the link, then the target with bit 0 clear. -/
def jumpTo (rd : BitVec 5) (link target : Word) : Op Unit := do
  writeX rd link
  setPc (target &&& ~~~ 1#64)

/-- The effect of a scalar instruction of `n` bytes. A fetch reads what memory holds, but for the poisoned sectors that the
instruction cache keeps until a FENCE.I (R390, DESIGN CHOICE log 45). -/
def rvOp (op : Rv) (n : Nat) : Op Unit := do
  let h ← getH
  let next := h.pc + BitVec.ofNat 64 n
  match op with
  | .lui rd imm => do writeX rd ((imm ++ (0 : BitVec 12)).signExtend 64); setPc next
  | .auipc rd imm => do writeX rd (h.pc + (imm ++ (0 : BitVec 12)).signExtend 64); setPc next
  | .jal rd off => jumpTo rd next (h.pc + (off.signExtend 64 <<< 1))
  | .jalr rd rs1 imm => jumpTo rd next (h.xr rs1 + imm.signExtend 64)
  | .branch op rs1 rs2 off =>
    setPc (if brTaken op (h.xr rs1) (h.xr rs2) then h.pc + (off.signExtend 64 <<< 1) else next)
  | .load op rd rs1 imm => do
    let v ← memRead {} (h.xr rs1 + imm.signExtend 64) (ldBytes op)
    writeX rd (ldExtend op v)
    setPc next
  | .store op rs1 rs2 imm => do
    memWrite {} (h.xr rs1 + imm.signExtend 64) (stBytes op) (h.xr rs2).toNat
    setPc next
  | .opImm op rd rs1 imm => do writeX rd (immValue op (h.xr rs1) (imm.signExtend 64)); setPc next
  | .shImm op rd rs1 sh => do writeX rd (shValue op (h.xr rs1) sh.toNat); setPc next
  | .addiw rd rs1 imm => do writeX rd (sextN 32 (h.xr rs1 + imm.signExtend 64).toNat); setPc next
  | .shImmW op rd rs1 sh => do writeX rd (shWValue op (h.xr rs1) sh.toNat); setPc next
  | .alu op rd rs1 rs2 => do writeX rd (aluValue op (h.xr rs1) (h.xr rs2)); setPc next
  | .aluW op rd rs1 rs2 => do writeX rd (aluWValue op (h.xr rs1) (h.xr rs2)); setPc next
  | .un op rd rs1 => do writeX rd (unValue op (h.xr rs1)); setPc next
  | .fence _ _ _ _ _ => setPc next
  | .fenceI _ _ _ => do
    modH fun h => { h with ipoison := [] }
    setPc next
  | .ecall => raise { cause := match h.mode with | .u => 8 | .m => 11 }
  | .ebreak => raise { cause := 3 }
  | .wfi => do      -- M-mode only; it completes at once (DESIGN CHOICE log 7)
    illegalUnless (h.mode = .m)
    setPc next
  | .csrRead _ _ rd csr => csrReadOp rd csr.toNat
  | .lr dbl aq rl rd rs1 => do lrOp dbl aq rl rd rs1; setPc next
  | .sc dbl aq rl rd rs1 rs2 => do scOp dbl aq rl rd rs1 rs2; setPc next
  | .amo op dbl aq rl rd rs1 rs2 => do amoOp op dbl aq rl rd rs1 rs2; setPc next
  | .fload f rd rs1 imm => do floadOp f rd rs1 imm; setPc next
  | .fstore f rs1 rs2 imm => do fstoreOp f rs1 rs2 imm; setPc next
  | .farith op f rm rd rs1 rs2 => do farith op f rm rd rs1 rs2; setPc next
  | .fsqrt f rm rd rs1 => do fsqrtOp f rm rd rs1; setPc next
  | .fma op f rm rd rs1 rs2 rs3 => do fmaOp op f rm rd rs1 rs2 rs3; setPc next
  | .fsgnj op f rd rs1 rs2 => do fsgnjOp op f rd rs1 rs2; setPc next
  | .fminmax m f rd rs1 rs2 => do fminmaxOp m f rd rs1 rs2; setPc next
  | .fcmp op f rd rs1 rs2 => do fcmpOp op f rd rs1 rs2; setPc next
  | .fclass f rd rs1 => do fclassOp f rd rs1; setPc next
  | .fcvtFF dst src rm rd rs1 => do fcvtFFOp dst src rm rd rs1; setPc next
  | .fcvtIF dst f rm rd rs1 => do fcvtIFOp dst f rm rd rs1; setPc next
  | .fcvtFI f src rm rd rs1 => do fcvtFIOp f src rm rd rs1; setPc next
  | .fmvXF f rd rs1 => do fmvXFOp f rd rs1; setPc next
  | .fmvFX f rd rs1 => do fmvFXOp f rd rs1; setPc next

/-- A compressed instruction has two bytes (R91). -/
def rvLen (half : Option (BitVec 16)) : Nat := if half.isSome then 2 else 4

/-- RV64_SCALAR_INSTRUCTION (R103). -/
def execRv (op : Rv) (half : Option (BitVec 16)) (s : State) : Outcome := finish (rvOp op (rvLen half)) s

/-- MRET: M-mode only. The hart resumes at (mepc, VXI); VXI is cleared when no vector instruction stands there
(R184). -/
def mretOp : Op Unit := do
  let h ← getH
  illegalUnless (h.mode = .m)
  modH returnFromTrap
  modify clearVxi
  modify State.resumed

def execMret (s : State) : Outcome := finish mretOp s

end Sys2Proof.Machine
end

