-- ==== Sys2Proof/Machine/Control.lean ====
section
/-!
DEFINITION. Shape and type of the vector unit (VSHAPE R36, R131, R384; VSETT R382; YIELD R388, R389), the Celvin
fences (R174, R319), the barrier (R175, R304), and TDLD (R155, R348).
-/

namespace Sys2Proof.Machine

/-! ## VSHAPE -/

/-- The rows granted for a request (R36). -/
def rowsFor (rq : Word) : Nat := min 16 (pow2Floor (max 1 rq.toNat))

/-- The row length granted, for a group of `cap` bytes (R36). -/
def vlFor (lq cap rows eb : Nat) : Nat := min lq (min (cap / (rows * eb)) (8192 / rows))

/-- The most banks that growth may move (R131). -/
def Hart.growLimit (h : Hart) : Nat := min (h.vmax - h.vbanks) (h.cbanks - 1)

/-- The banks that growth moves (R131): the smallest count for which `need` bytes fit, else the smallest that
reaches the largest capacity; none when that is the present one. -/
def growBy (n v g need limit : Nat) : Nat :=
  let cap k := g * capacity n (v + k)
  match (List.range (limit + 1)).find? fun k => need ≤ cap k with
  | some k => k
  | none => ((List.range (limit + 1)).find? fun k => cap k = cap limit).getD 0

/-- The state that every grant and every YIELD leaves undefined (R36, R155). -/
def undefAll : Op Unit := do
  undefVector
  undefDescriptors

def vshapeOp (rd rs1 rs2 : BitVec 5) : Op Unit := do
  let s ← get
  let h := s.hart
  let n := s.nvreg h
  let rows := rowsFor (h.xr rs1)
  let lq := (h.xr rs2).toNat
  let k := growBy n h.vbanks h.grp (lq * rows * h.eb) h.growLimit
  if k ≠ 0 then setBoundaries (h.vbanks + k) (h.cbanks - k) h.sbanks h.vmax
  let vl := vlFor lq (h.grp * capacity n (h.vbanks + k)) rows h.eb
  modH fun h => { h with vshp := BitVec.ofNat 64 (rows * 65536 + vl), vxi := 0, freshConvoy := true }
  writeX rd (BitVec.ofNat 64 vl)
  undefAll
  advance 4

/-- VSHAPE is a pre-emption point before its grant (R58, R384), but not inside a hook (R257). -/
def execVshape (rd rs1 rs2 : BitVec 5) (s : State) : Outcome :=
  if s.hart.requestPending ∧ s.hart.hookSave.isNone then .next (preempt false false s.hart.pc 0 s)
  else finish (vshapeOp rd rs1 rs2) s

/-! ## VSETT -/

def vsettOp (rd rs1 : BitVec 5) : Op Unit := do
  let h ← getH
  let v := h.xr rs1
  illegalUnless (v &&& ~~~ 0x1FDF#64 = 0)
  writeVtype v
  writeX rd h.vtype
  advance 4

def execVsett (rd rs1 : BitVec 5) (s : State) : Outcome := finish (vsettOp rd rs1) s

/-! ## YIELD -/

/-- The vector control state of an entry and of a light resumption (R28, R210). -/
def Hart.lightState (h : Hart) : Hart :=
  { h with
    vtype := 0x1DC#64, mfc := 0x8#64, vhint := 0, vvsel := 0, vcbytes := 0, vshp := 0x10000#64, vxi := 0
    skipped := [], rotation := 0, convoy := [], freshConvoy := true }

/-- Undefined clause state: a clause that has ended, its counts a free value (R388). (DESIGN CHOICE log 32) -/
def undefClause : Op Unit := do
  let k ← draw
  let n := (Config.freeValue k 0 32).toNat
  modH fun h => { h with
    clause := some { pc := 0, ops := [], mask := 0, trips := n, done := n, cur := 0, begun := false, puts := [], stopped := none,
                     heldIn := .u, mode := .u, fenced := false } }

/-- YIELD outside a hook: the state of a light resumption (R388). -/
def yieldOp : Op Unit := do
  undefAll
  undefClause
  modH Hart.lightState
  advance 4

/-- YIELD in U-mode inside a hook ends the launch (R389); elsewhere a pending request is taken after it, with the
light context and the pc behind it (R388). -/
def execYield (s : State) : Outcome :=
  if s.hart.hookSave.isSome ∧ s.hart.mode = .u then .next (endOwnLaunch 8 s)
  else match yieldOp.run s with
    | .ok _ s' =>
      let s' := s'.retire
      .next (if s'.hart.requestPending then preempt false false s'.hart.pc 0 s' else s')
    | .error _ s' => .next s'

/-! ## Fences -/

/-- The next vector instruction starts a convoy (R41); behind a clause that runs, the one after the clause. -/
def Hart.startConvoy (h : Hart) : Hart :=
  if h.clauseRuns then { h with clause := h.clause.map fun c => { c with fenced := true } } else { h with freshConvoy := true }

/-- A fence starts a convoy, and brings the writes of each agent `x` into the view of its `y` (R174). Every access being
performed at once and in program order, its waits hold (DESIGN CHOICE log 9). -/
def fenceOp (pairs : List (Agent × Agent)) : Op Unit := do
  modify (State.viewWrites pairs)
  modH Hart.startConvoy
  advance 4

def execFenceSv (_ : Scope) (s : State) : Outcome := finishWaiting (fenceOp [(.scalar, .vector)]) s
def execFenceVs (_ : Scope) (s : State) : Outcome := finishWaiting (fenceOp [(.vector, .scalar)]) s
def execFenceVv (_ : Scope) (s : State) : Outcome := finishWaiting (fenceOp []) s
def execFenceAll (_ : Scope) (s : State) : Outcome := finishWaiting (fenceOp bothViews) s

/-! ## BAR -/

/-- The launch's open generation. -/
def Cluster.openGen (c : Cluster) (launch : Nat) : Option Generation := c.gens.find? (·.launch = launch)

/-- Replace the launch's open generation; one without harts is closed. -/
def putGen (launch : Nat) (g : Generation) (c : Cluster) : Cluster :=
  { c with gens := (c.gens.filter (·.launch ≠ launch)) ++ (if g.waiting = [] then [] else [g]) }

/-- Every hart of the launch in the cluster that has not retired waits in the generation; a saved context counts as
not retired and not waiting (R304). -/
def State.allWait (s : State) (launch cl : Nat) (waiting : List Nat) : Bool :=
  (s.harts.all fun h =>
    !(h.inLaunch launch && h.cluster = cl && (h.status = .running || h.status = .saving)) || waiting.contains h.id)
  && !s.contexts.any fun c => c.hart.inLaunch launch && c.cluster = cl

/-- A participant that waits at its BAR goes on when the generation completes. -/
def leaveBar (ids : List Nat) (h : Hart) : Hart :=
  if ids.contains h.id then { h.retire with pc := h.pc + 4 } else h

/-- BAR for a hart of a launch: it arrives, and when the generation has completed every participant goes on. -/
def barJoin (launch n : Nat) : Op Unit := do
  let s ← get
  let h := s.hart
  let c := s.cluster h.cluster
  let g := (c.openGen launch).getD { launch := launch, count := n, waiting := [] }
  if g.count ≠ n then engine 1
  release .scalar .cluster
  release .vector .cluster
  let waiting := if g.waiting.contains h.id then g.waiting else g.waiting ++ [h.id]
  if g.count ≤ waiting.length || s.allWait launch h.cluster waiting then
    modCluster h.cluster (putGen launch { g with waiting := [] })
    modify fun s => s.mapHarts (leaveBar (waiting.filter (· ≠ h.id)))
    acquire .cluster
  else
    modCluster h.cluster (putGen launch { g with waiting := waiting })
    waitFor false

def barOp (rs1 : BitVec 5) : Op Unit := do
  let h ← getH
  let n := (h.xr rs1).toNat
  illegalUnless (1 ≤ n && n ≤ 4)
  match h.job with
  | some j => barJoin j.launch n
  | none => pure ()        -- no launch: no other participant (DESIGN CHOICE log 17)
  advance 4

def execBar (rs1 : BitVec 5) (s : State) : Outcome := finishWaiting (barOp rs1) s

/-! ## TDLD -/

/-- A read of a 64-byte structure with the checks of mem_read; a poisoned one reads zero under the drop policy, and
counts once when the reading instruction goes on (R198). -/
def readDesc (w : Who) (va : Word) : Op (BitVec 512) := do
  let s ← get
  return BitVec.ofNat 512 (ofBytes (← readBytes w (s.access s.hart) .load .running va 64))

/-- Raise ENGINE, the count of poisoned elements put back to what it was (R198: an element counts when it
commits). -/
def engineUncounted {α : Type} (cnt : Word) (sub : Nat) (addr : Word) : Op α := do
  modH fun h => { h with vpoiscnt := cnt }
  engine sub (some addr)

/-- TDLD. Its memory faults carry UNIT 2; ENGINE for a descriptor that fails its checks carries UNIT 0, which no rule gives
(DESIGN CHOICE log 48). -/
def tdldOp (td : BitVec 4) (rs1 : BitVec 5) : Op Unit := do
  let h ← getH
  let va := h.xr rs1
  if va.toNat % 64 ≠ 0 then fail { unit := 2 } 4 va
  let d ← readDesc { unit := 2 } va
  if !descOk d then engineUncounted h.vpoiscnt 1 va
  modH fun h => { h with td := h.td.set td.toNat d, tdAddr := h.tdAddr.set td.toNat va }
  advance 4

def execTdld (td : BitVec 4) (rs1 : BitVec 5) (s : State) : Outcome := finish (tdldOp td rs1) s

end Sys2Proof.Machine
end

