-- ==== Sys2Proof/Machine/ScratchOps.lean ====
section
/-!
DEFINITION. The scratchpad instructions (R140 to R142, R341 to R343), PIN and UNPIN (R146, R334), the counter
instructions (R166, R306, R307) and the rings (R167, R168, R338 to R340).
-/

namespace Sys2Proof.Machine

/-! ## Windows (R134) -/

/-- The accessible range of a scratchpad window: its virtual base, its bytes, and where its first byte lies. -/
structure Window where
  lo : Nat
  size : Nat
  first : Loc
  deriving DecidableEq, Repr

/-- The windows of the running body (R134, R223). -/
def State.windows (s : State) (h : Hart) : List Window :=
  let l := s.launchOf h
  let inB := (h.job.map (·.inB)).getD false
  let (base, size) := coreWindowOf l inB h
  let core : Window := { lo := coreWindow, size := size, first := .core h.id base }
  match l, h.job with
  | some l, some j => match s.resvOf h.cluster j.launch inB with
    | some r => [core, { lo := clusterWindow, size := clusterLimit l inB, first := .cluster h.cluster r.base }]
    | none => [core]
  | _, _ => [core]

/-- The window whose accessible range holds an address. -/
def State.windowOf (s : State) (h : Hart) (va : Nat) : Option Window :=
  (s.windows h).find? fun w => w.lo ≤ va && va < w.lo + w.size

/-- The byte at an address of a window. -/
def Window.loc (w : Window) (va : Nat) : Loc := w.first.move (w.first.offset + (va - w.lo))

/-- The range of `n` bytes at `a`, or the first address outside (R140). -/
def State.windowRange (s : State) (h : Hart) (a n : Nat) : Window ⊕ Nat :=
  match s.windowOf h a with
  | none => .inr a
  | some w => if a + n ≤ w.lo + w.size then .inl w else .inr (w.lo + w.size)

/-! ## SPALLOC, SPFREE, RENEW -/

/-- A block made unwritten: it keeps its sectors' poison bits (DESIGN CHOICE log 46). -/
def Block.freed (b : Block) : Block := { Block.unwritten with poison := b.poison }

/-- Make `n` blocks from `b` unwritten. -/
def freeBlocks (b n : Nat) (t : Tab Block) : Tab Block :=
  (t.map fun (i, k) => (i, if b ≤ i && i < b + n then k.freed else k)).filter fun (_, k) => k ≠ Block.unwritten

/-- Apply a function to the scratchpad that holds a byte. -/
def State.modScratch (s : State) (l : Loc) (f : Tab Block → Tab Block) : State :=
  match l with
  | .mem _ => s
  | .core h _ => let g := s.hartOf h; s.setHart { g with pool := f g.pool }
  | .cluster c _ => let g := s.cluster c; s.setCluster c { g with spad := f g.spad }

/-- The checks of R140 on a range: `k` gets the byte at its start, unless the count is zero. -/
def scratchRange (rs1 rs2 : BitVec 5) (k : Loc → Nat → Op Unit) : Op Unit := do
  let s ← get
  let h := s.hart
  let a := (h.xr rs1).toNat
  let n := (h.xr rs2).toNat
  if n ≠ 0 then
    if a % 256 ≠ 0 ∨ n % 256 ≠ 0 then fail {} 6 (h.xr rs1)
    match s.windowRange h a n with
    | .inr bad => fail {} 7 (BitVec.ofNat 64 bad)
    | .inl w => k (w.loc a) n
  advance 4

/-- The blocks of a range become unwritten, and reservations on their bytes end: it counts as a write of them (R140, R182). -/
def freeRange (l : Loc) (n : Nat) : Op Unit := do
  modify fun s => s.modScratch l (freeBlocks (l.offset / 256) (n / 256))
  breakRange l.resKey n

def spallocOp (rs1 rs2 : BitVec 5) : Op Unit := scratchRange rs1 rs2 freeRange

def execSpalloc (rs1 rs2 : BitVec 5) (s : State) : Outcome := finish (spallocOp rs1 rs2) s
/-- SPFREE has SPALLOC's architectural effect (R140). -/
def execSpfree (rs1 rs2 : BitVec 5) (s : State) : Outcome := finish (spallocOp rs1 rs2) s

/-- The live blocks among `n` from `b`. -/
def liveBlocks (time b n : Nat) (t : Tab Block) : List Nat :=
  (t.filter fun (i, k) => b ≤ i && i < b + n && k.state time = .live).map (·.1)

/-- Queue a range for renewal, or wait while eight stand (R141). -/
def renewQueue (l : Loc) (n : Nat) : Op Unit := do
  let s ← get
  let b := l.offset / 256
  match l with
  | .mem _ => pure ()
  | .core _ _ =>
    waitFor (s.hart.renewQ.length < 8)
    modH fun h => { h with renewQ := h.renewQ ++ [{ blocks := liveBlocks s.time b (n / 256) h.pool, since := s.time }] }
  | .cluster c _ =>
    waitFor ((s.cluster c).renewQ.length < 8)
    modCluster c fun c => { c with renewQ := c.renewQ ++ [{ blocks := liveBlocks s.time b (n / 256) c.spad, since := s.time }] }

def execRenew (rs1 rs2 : BitVec 5) (s : State) : Outcome := finishWaiting (scratchRange rs1 rs2 renewQueue) s

/-! ## SPAGE -/

def spageValue (b : Block) (time : Nat) : Word :=
  match b.state time with
  | .live => BitVec.ofNat 64 (b.age time)
  | .expired => 256
  | .unwritten => BitVec.allOnes 64

def spageOp (rd rs1 : BitVec 5) : Op Unit := do
  let s ← get
  let a := s.hart.xr rs1
  match s.windowOf s.hart a.toNat with
  | none => fail {} 5 a
  | some w => writeX rd (spageValue ((s.block (w.loc a.toNat)).getD .unwritten) s.time)
  advance 4

def execSpage (rd rs1 : BitVec 5) (s : State) : Outcome := finish (spageOp rd rs1) s

/-! ## PIN and UNPIN -/

/-- The slots of a die, four of them. -/
def State.pinSlots (s : State) (die : Nat) : List (Option PinSlot) := (s.pins.get? die).getD [none, none, none, none]

/-- Translate each page of a range for read (R146), which sets A in its leaf, although PIN is no access (R182). A page inside a
scratchpad window has no translation (R134) and is a load access fault. No rule says either (DESIGN CHOICE log 18). -/
def pinPages (root : Nat) (user : Bool) : Nat → Word → Op (List Nat)
  | 0, _ => return []
  | n + 1, va => do
    if inWindow va.toNat then fail {} 5 va
    let p ← translate {} .load user false false root va va
    let ps ← pinPages root user n (va + 4096)
    return p.key / 4096 :: ps

def pinOp (rd rs1 rs2 : BitVec 5) : Op Unit := do
  let s ← get
  let h := s.hart
  let a := h.xr rs1
  let n := (h.xr rs2).toNat
  if a.toNat % 4096 ≠ 0 ∨ n % 4096 ≠ 0 then fail {} 4 a
  match s.launchOf h, h.job with
  | some l, some j =>
    if n = 0 ∨ 33554432 < n then writeX rd (BitVec.allOnes 64)
    else
      let pages ← pinPages (s.rootOf l.queue) (h.mode = .u) (n / 4096) a
      let slots := s.pinSlots h.die
      let held := slots.flatMap fun p => (p.map (·.pas)).getD []
      match slots.findIdx? (·.isNone) with
      | some i =>
        if Config.pinWaysFit (held ++ pages).dedup then
          let slot : PinSlot := { launch := j.launch, queue := l.queue, pages := n / 4096, va := a.toNat % 2 ^ 48, pas := pages }
          modify fun s => { s with pins := s.pins.put h.die (slots.set i (some slot)) }
          writeX rd (BitVec.ofNat 64 i)
        else writeX rd (BitVec.allOnes 64)
      | none => writeX rd (BitVec.allOnes 64)
  | _, _ => writeX rd (BitVec.allOnes 64)     -- no launch to own a slot (DESIGN CHOICE log 17)
  advance 4

def execPin (rd rs1 rs2 : BitVec 5) (s : State) : Outcome := finish (pinOp rd rs1 rs2) s

/-- Does a launch hold the slot? -/
def ownsSlot (h : Hart) (p : Option PinSlot) : Bool :=
  match p, h.job with
  | some p, some j => p.launch = j.launch
  | _, _ => false

def unpinOp (rs1 : BitVec 5) : Op Unit := do
  let s ← get
  let h := s.hart
  let i := (h.xr rs1).toNat
  let slots := s.pinSlots h.die
  if i < 4 ∧ ownsSlot h (slots.getD i none) then
    modify fun s => { s with pins := s.pins.put h.die (slots.set i none) }
  advance 4

def execUnpin (rs1 : BitVec 5) (s : State) : Outcome := finish (unpinOp rs1) s

/-! ## Counters -/

/-- CADD (R306): a release, then an AMO. -/
def caddOp (sc : Scope) (rs1 rs2 : BitVec 5) : Op Unit := do
  let h ← getH
  let a := h.xr rs1
  if a.toNat % 8 ≠ 0 then fail {} 6 a
  release .scalar sc
  let _ ← memAmo {} a 8 fun m => (m + (h.xr rs2).toNat) % 2 ^ 64
  advance 4

def execCadd (sc : Scope) (rs1 rs2 : BitVec 5) (s : State) : Outcome := finish (caddOp sc rs1 rs2) s

/-- CWAIT (R306): each poll is one read. A CWAIT that met poison in one of its polls counts once, as it completes (R307). -/
def cwaitOp (aq : Bool) (sc : Scope) (rs1 rs2 : BitVec 5) : Op Unit := do
  let h ← getH
  let va := h.xr rs1
  if va.toNat % 8 ≠ 0 then fail {} 4 va
  let s ← get
  let (bs, zero) ← readUncounted {} (s.access s.hart) .load .running va 8
  modH fun h => { h with pollPoison := h.pollPoison || zero }
  waitFor ((h.xr rs2).toNat ≤ ofBytes bs)
  modH fun h => { (if h.pollPoison then h.countPoison else h) with pollPoison := false }
  if aq then acquire sc
  advance 4

def execCwait (aq : Bool) (sc : Scope) (rs1 rs2 : BitVec 5) (s : State) : Outcome := finishWaiting (cwaitOp aq sc rs1 rs2) s

/-! ## Rings -/

/-- A ring descriptor as read (Table 07-11). -/
structure Ring where
  base : Word
  cap : Nat
  tclaim : Nat
  tcommit : Nat
  hclaim : Nat
  hretire : Nat
  deriving DecidableEq, Repr

def ringOf (d : Nat) : Ring :=
  let f (off : Nat) := d / 2 ^ (8 * off) % 2 ^ 32
  { base := sext48 (d % 2 ^ 48), cap := f 8, tclaim := f 0x10, tcommit := f 0x14, hclaim := f 0x18, hretire := f 0x1C }

/-- The distance from `b` up to `a` in 32-bit serial arithmetic. -/
def serial (a b : Nat) : Nat := (a + 2 ^ 32 - b) % 2 ^ 32

/-- The invariant of R167. -/
def Ring.ok (r : Ring) : Bool :=
  let c := serial r.hclaim r.hretire
  let m := serial r.tcommit r.hretire
  let t := serial r.tclaim r.hretire
  c ≤ m && m ≤ t && t ≤ r.cap

/-- Checks 2 and 3 of R168 that every ring instruction takes. -/
def Ring.checks (r : Ring) (n : Nat) : Bool := n ≤ r.cap && 1 ≤ r.cap && r.cap ≤ 131072 && r.ok

/-- The bytes of a ring descriptor. -/
def ringLocs (w : Window) (a : Nat) : List (Loc × Option Phys) := (List.range 32).map fun i => (w.loc (a + i), none)

/-- A ring instruction: the checks of R168 in order, then `k` on the descriptor and the count. -/
def ringOp (rs1 rs2 : BitVec 5) (k : Ring → Nat → Window → Op Unit) : Op Unit := do
  let s ← get
  let h := s.hart
  let a := h.xr rs1
  let n := bits (h.xr rs2) 0 32
  match s.windowRange h a.toNat 32, decide (a.toNat % 32 = 0) with
  | .inl w, true =>
    let ps := ringLocs w a.toNat
    let zero ← readChecks {} .running a ps
    let r := ringOf (if zero then 0 else ofBytes (ps.map s.byteAt))
    if !r.checks n then engine 4 (some a)
    k r n w
  | _, _ => engine 4 (some a)
  advance 4

/-- Write one count of the descriptor: the block becomes live with a fresh stamp (R338). -/
def ringPut (rs1 : BitVec 5) (w : Window) (off v : Nat) : Op Unit := do
  let h ← getH
  let a := h.xr rs1
  writePlaced {} a ((List.range 4).map fun i => (w.loc (a.toNat + off + i), none)) (toBytes 4 (v % 2 ^ 32))

/-- The granule's address (R168). -/
def Ring.granule (r : Ring) (c : Nat) : Word := r.base + BitVec.ofNat 64 (64 * (c % r.cap))

def rclaimOp (rd rs1 rs2 : BitVec 5) : Op Unit :=
  ringOp rs1 rs2 fun r n w => do
    waitFor (serial r.tclaim r.hretire + n ≤ r.cap)
    if n ≠ 0 then ringPut rs1 w 0x10 (r.tclaim + n)
    writeX rd (r.granule r.tclaim)

/-- RCOMMIT releases at cluster scope for both agents, then commits (R340). -/
def rcommitOp (rs1 rs2 : BitVec 5) : Op Unit :=
  ringOp rs1 rs2 fun r n w => do
    let h ← getH
    if serial r.tclaim r.tcommit < n then engine 4 (some (h.xr rs1))
    release .scalar .cluster
    release .vector .cluster
    if n ≠ 0 then ringPut rs1 w 0x14 (r.tcommit + n)

def rawaitOp (rd rs1 rs2 : BitVec 5) : Op Unit :=
  ringOp rs1 rs2 fun r n w => do
    waitFor (n ≤ serial r.tcommit r.hclaim)
    if n ≠ 0 then ringPut rs1 w 0x18 (r.hclaim + n)
    writeX rd (r.granule r.hclaim)
    acquire .cluster

def rretireOp (rs1 rs2 : BitVec 5) : Op Unit :=
  ringOp rs1 rs2 fun r n w => do
    let h ← getH
    if serial r.hclaim r.hretire < n then engine 4 (some (h.xr rs1))
    if n ≠ 0 then ringPut rs1 w 0x1C (r.hretire + n)

def execRclaim (rd rs1 rs2 : BitVec 5) (s : State) : Outcome := finishWaiting (rclaimOp rd rs1 rs2) s
def execRcommit (rs1 rs2 : BitVec 5) (s : State) : Outcome := finish (rcommitOp rs1 rs2) s
def execRawait (rd rs1 rs2 : BitVec 5) (s : State) : Outcome := finishWaiting (rawaitOp rd rs1 rs2) s
def execRretire (rs1 rs2 : BitVec 5) (s : State) : Outcome := finish (rretireOp rs1 rs2) s

end Sys2Proof.Machine
end

