-- ==== Sys2Proof/Machine/Scarab.lean ====
section
/-!
DEFINITION. The Scarab: the issue of STREAM and STREAMU (R161, R162, R347), and the steps of a command: its begin,
the advance of its landed prefix, its completion and its fault (R163 to R165, R345, R346).
-/

namespace Sys2Proof.Machine

/-! ## Issue -/

/-- A launch number that no launch has: the commands of a hart without one (DESIGN CHOICE log 17). -/
def noLaunch : Nat := 2 ^ 64

/-- On whose behalf an engine acts. -/
def State.viaFor (s : State) (h : Hart) : Via :=
  (s.via h).getD { hart := h.id, launch := noLaunch, inB := false, key := [], iter := none, inSetup := false }

/-- STREAMU's shape: H W C KH KW SH SW DH DW PH PW (Table 07-8). -/
def unfoldShape (d : BitVec 512) : List Nat :=
  [dfield d 0x10 0 16, dfield d 0x10 16 16, dfield d 0x10 32 16, dfield d 0x10 48 8, dfield d 0x10 56 8,
   dfield d 0x18 0 4, dfield d 0x18 4 4, dfield d 0x18 8 4, dfield d 0x18 12 4, dfield d 0x18 16 4, dfield d 0x18 20 4]

/-- An output extent (R163), as an integer. No rule defines div on a negative numerator, that of a kernel larger than the padded
input: here it rounds down, so the extent is below 1 and the command is refused (DESIGN CHOICE log 48). -/
def outExtent (n pad dil ker str : Nat) : Int :=
  (((n + 2 * pad : Nat) : Int) - dil * ((ker : Int) - 1) - 1) / str + 1

/-- OH and OW of a shape. -/
def unfoldOut : List Nat → Int × Int
  | [h, w, _, kh, kw, sh, sw, dh, dw, ph, pw] => (outExtent h ph dh kh sh, outExtent w pw dw kw sw)
  | _ => (0, 0)

/-- Elements of the patch matrix (R345). -/
def unfoldCount (sh : List Nat) : Nat :=
  let (oh, ow) := unfoldOut sh
  oh.toNat * ow.toNat * (sh.getD 3 0) * (sh.getD 4 0) * (sh.getD 2 0)

/-- The field checks of R162. -/
def scarabFieldsOk (unfold : Bool) (d : BitVec 512) : Bool :=
  let sh := unfoldShape d
  (sext48 (dfield d 0x28 0 48)).toNat % 8 = 0
    && (!unfold || (dfield d 0x20 0 32 = 0 && (sh.take 9).all (· ≠ 0)
      && 1 ≤ (unfoldOut sh).1 && 1 ≤ (unfoldOut sh).2))

/-- Read a command descriptor: a poisoned one traps under either policy (R162). -/
def readCommand (va : Word) : Op (BitVec 512) := do
  let s ← get
  return BitVec.ofNat 512 (ofBytes (← readBytes {} (s.access s.hart) .load .always va 64))

/-- The command a descriptor gives. -/
def scarabCmd (s : State) (unfold : Bool) (o : Order) (d : BitVec 512) (counter : Word) : ScarabCmd where
  id := s.nextCmd
  via := s.viaFor s.hart
  order := o
  unfold := unfold
  src := (sext48 (dfield d 0 0 48)).toNat
  dst := (sext48 (dfield d 8 0 48)).toNat
  sstr := toSigned 40 (dfield d 0x10 0 40)
  dstr := if unfold then (2 ^ dfield d 0x24 0 2 : Nat) else toSigned 40 (dfield d 0x18 0 40)
  count := if unfold then unfoldCount (unfoldShape d)
           else if dfield d 0x20 0 32 = 0 then s.hart.nel else dfield d 0x20 0 32
  esz := 2 ^ dfield d 0x24 0 2
  shape := if unfold then unfoldShape d else []
  status := (sext48 (dfield d 0x28 0 48)).toNat
  counter := counter.toNat
  begun := false
  since := 0
  landed := 0
  tainted := []

/-- The commands of a hart that have not ended. -/
def Cluster.commandsOf (c : Cluster) (hart : Nat) : Nat := (c.scarab.filter (·.via.hart = hart)).length

def streamOp (unfold : Bool) (o : Order) (rs1 rs2 : BitVec 5) : Op Unit := do
  let s ← get
  let h := s.hart
  let va := h.xr rs1
  let ctr := h.xr rs2
  if va.toNat % 64 ≠ 0 then engine 1 (some va)
  if ctr.toNat % 8 ≠ 0 then engine 1 (some ctr)
  let d ← readCommand va
  if !scarabFieldsOk unfold d then engine 1 (some va)
  waitFor ((s.cluster h.cluster).commandsOf h.id < 16)
  let cmd := scarabCmd s unfold o d ctr
  modCluster h.cluster fun c => { c with scarab := c.scarab ++ [cmd] }
  modify fun s => { s with nextCmd := s.nextCmd + 1 }
  advance 4

def execStream (o : Order) (rs1 rs2 : BitVec 5) (s : State) : Outcome := finishWaiting (streamOp false o rs1 rs2) s
def execStreamu (o : Order) (rs1 rs2 : BitVec 5) (s : State) : Outcome := finishWaiting (streamOp true o rs1 rs2) s

/-! ## One element -/

/-- Does a walk of `n` elements of `esz` bytes touch a byte? -/
def inWalk (start : Nat) (stride : Int) (n esz : Nat) (b : Nat) : Bool :=
  let s := stride.natAbs
  let lo : Int := if stride < 0 then (start : Int) + stride * ((n : Int) - 1) else start
  let d := (b : Int) - lo
  if n = 0 ∨ d < 0 then false
  else
    let d := d.toNat
    if s ≤ esz then d < s * (n - 1) + esz else d / s < n && d % s < esz

/-- The source address of an element; none for a padding element (R163, R345). -/
def ScarabCmd.srcOf (c : ScarabCmd) (k : Nat) : Option Word :=
  if !c.unfold then some (BitVec.ofInt 64 ((c.src : Int) + (k : Int) * c.sstr))
  else match c.shape with
    | [h, w, ch, kh, kw, sh, sw, dh, dw, ph, pw] =>
      let ow := (unfoldOut c.shape).2.toNat
      let t := k / ch
      let kx := t % kw
      let ky := t / kw % kh
      let p := t / kw / kh
      let y := ((p / ow * sh + ky * dh : Nat) : Int) - ph
      let x := ((p % ow * sw + kx * dw : Nat) : Int) - pw
      if 0 ≤ y ∧ y < h ∧ 0 ≤ x ∧ x < w then
        some (BitVec.ofInt 64 ((c.src : Int) + ((y * w + x) * ch + (k % ch : Nat)) * c.esz))
      else none
    | _ => none

def ScarabCmd.dstOf (c : ScarabCmd) (k : Nat) : Word := BitVec.ofInt 64 ((c.dst : Int) + (k : Int) * c.dstr)

/-- Is a byte among the source's bytes, by its virtual address? Bytes that a source and a destination share through two mappings of one
page alone are copied in the elements' order; R163 does not say whether such an overlap is one (DESIGN CHOICE log 33). -/
def ScarabCmd.inSource (c : ScarabCmd) (b : Nat) : Bool :=
  if c.unfold then inWalk c.src c.esz (c.shape.getD 0 0 * c.shape.getD 1 0 * c.shape.getD 2 0) c.esz b
  else inWalk c.src c.sstr c.count c.esz b

def ScarabCmd.access (c : ScarabCmd) : Access := .virt (some c.via) true

/-- Have 4,000 ticks passed since an engine began what it does? Before that no remote access of it has failed for want of an answer
(R277, R278). -/
def State.outOfTime (s : State) (since : Nat) : Bool := since + fabricTimeout ≤ s.time

/-- Read bytes for an engine that began at tick `since`: every check but poison, byte by byte, each with whether it came from a
poisoned sector (R164). Another package answers none while the ports are down (R295): the engine waits 4,000 ticks (R277). -/
def engineRead (a : Access) (since : Nat) : Word → Nat → Op (List (Byte × Bool))
  | _, 0 => return []
  | va, n + 1 => do
    let p ← placeOne {} a .load false false va va
    let s ← get
    if isRemote p && !s.linksUp then
      waitFor (s.outOfTime since)
      fail {} 5 va
    else match s.staleSub p.1 with
      | some sub => fail {} 24 va sub
      | none =>
        let bs ← engineRead a since (va + 1) n
        return (s.byteAt p, (s.poisonSub p.1).isSome) :: bs

/-- Place the bytes of an engine's write, each reporting its own address. -/
def enginePlace (a : Access) (amo : Bool) : Word → Nat → Op (List (Loc × Option Phys))
  | _, 0 => return []
  | va, n + 1 => do
    let p ← placeOne {} a .store true amo va va
    let ps ← enginePlace a amo (va + 1) n
    return p :: ps

/-- What a destination byte that is a source byte too holds is undefined (R163). -/
def ScarabCmd.mask (c : ScarabCmd) (k : Nat) (va : Word) (bs : List Byte) : List Byte :=
  bs.zipIdx.map fun (b, i) => if c.inSource (va.toNat + i) then Config.freeValue k i 8 else b

/-- After the first `n` elements have landed, a destination byte's sector is covered and took no poison. -/
def ScarabCmd.covered (c : ScarabCmd) (n : Nat) (va : Nat) : Bool :=
  !c.tainted.contains (va / 32) && (List.range 32).all fun i => inWalk c.dst c.dstr n c.esz (va / 32 * 32 + i)

/-- One byte that the Scarab writes: its virtual address, where it lies, its value, whether it came from a poisoned sector. -/
structure ScarabByte where
  va : Nat
  place : Loc × Option Phys
  byte : Byte
  poisoned : Bool
  deriving DecidableEq, Repr

/-- The sectors that take poison from bytes written (R164). -/
def ScarabCmd.taint (c : ScarabCmd) (bs : List ScarabByte) : ScarabCmd :=
  { c with tainted := (bs.filter (·.poisoned)).map (fun b => b.va / 32) ++ c.tainted }

/-- What arrives of a byte whose element was lost on its way to another package. -/
def ScarabByte.kept (b : ScarabByte) : Option ScarabByte := (keptPart (b.place, b.byte)).map fun p => { b with place := p.1 }

/-- Poison the sectors that took a poisoned byte, clear those that the command has covered with its first `n` elements (R164,
R196). A sector of memory poisoned so stands in the L2, with SUB 2, until a write covers it: no rule says when it moves to HBM
(DESIGN CHOICE log 46). -/
def scarabPoison (c : ScarabCmd) (n : Nat) (bs : List ScarabByte) : Op Unit := modify fun s =>
  bs.foldl (fun s b => (allLocs [b.place]).foldl (fun s l =>
    if c.tainted.contains (b.va / 32) then (if b.poisoned then s.setPoison l .l2 else s)
    else if (s.poisonSub l).isSome && c.covered n b.va then s.unpoison l else s) s) s

/-- The bytes of element `k` (R163, R345): the read is checked before the write (R346). -/
def elemBytes (c : ScarabCmd) (k : Nat) : Op (List ScarabByte) := do
  let bs ← (match c.srcOf k with
    | none => return List.replicate c.esz (0, false)
    | some va => engineRead c.access c.since va c.esz)
  let va := c.dstOf k
  let ps ← enginePlace c.access false va c.esz
  let d ← draw
  let vs := c.mask d va (bs.map (·.1))
  return ((ps.zip vs).zip (bs.map (·.2))).zipIdx.map fun (((p, v), q), i) =>
    { va := (va + BitVec.ofNat 64 i).toNat, place := p, byte := v, poisoned := q }

/-- Is the aligned 8-byte word `v` that an engine writes, in elements of `n` bytes, lost on its way to another package? It is when the
environment does not let one of these elements through, since it is written at once (R164, R171), or while the ports are down. -/
def State.losesWord (s : State) (w : Writer) (n v : Nat) : Bool :=
  !s.linksUp || s.doomed.any fun d => d.1 = w && d.2.toNat / 8 ≤ v && v ≤ (d.2.toNat + n - 1) / 8

/-- Is a byte of the command lost so? -/
def ScarabCmd.losesByte (c : ScarabCmd) (s : State) (b : ScarabByte) : Bool :=
  isRemote b.place && s.losesWord (.scarab c.id) c.esz (b.va / 8)

/-- Write bytes of element `k`, the first `n` elements having landed with it. Bytes that are lost on their way to another package
poison nothing, and the command does not cover their sectors; the element is remembered as lost (R278). -/
def landBytes (c : ScarabCmd) (n k : Nat) (bs : List ScarabByte) : Op ScarabCmd := do
  let s ← get
  let gone := bs.filter (c.losesByte s)
  let arrived := bs.filterMap fun b => if c.losesByte s b then b.kept else some b
  storePlaced (arrived.map (·.place)) (arrived.map (·.byte))
  if gone ≠ [] then modify fun s => { s with lost := s.lost ++ [LostWrite.mk (.scarab c.id) [] (c.dstOf k) s.time] }
  let c' := { c.taint arrived with tainted := gone.map (fun b => b.va / 32) ++ (c.taint arrived).tainted }
  scarabPoison c' n arrived
  return c'

/-- Copy element `k`. -/
def copyElem (c : ScarabCmd) (k : Nat) : Op ScarabCmd := do landBytes c (k + 1) k (← elemBytes c k)

/-- Copy elements from `k` on, `n` of them; the first that fails stops it: the command, how many landed, and the
failure. They land in order, so where the destinations of two elements overlap the later element's byte stands, which no rule says
(DESIGN CHOICE log 33). -/
def copyElems (c : ScarabCmd) : Nat → Nat → Op (ScarabCmd × Nat × Option Trap)
  | 0, k => return (c, k, none)
  | n + 1, k => do
    let r ← tryCatch (do return Sum.inl (← copyElem c k)) fun e => match e with
      | .trap t => return Sum.inr t
      | e => throw e
    match r with
    | .inl c' => copyElems c' n (k + 1)
    | .inr t => return (c, k, some t)

/-! ## Counter and status -/

/-- One atomic update by an engine that began at tick `since`: poison is no fault, a poisoned operand reads zero. A remote one is
performed at its home; where the environment has it unanswered it fails after 4,000 ticks (R277). -/
def engineAmo (a : Access) (since : Nat) (w : Writer) (va : Word) (f : Nat → Nat) : Op Unit := do
  let ps ← enginePlace a true va 8
  let s ← get
  if ps.any isRemote && s.loses w va then
    waitFor (s.outOfTime since)
    set { s with doomed := s.doomed.erase (w, va) }
    fail {} 7 va
  match ps.findSome? fun (l, _) => s.staleSub l with
  | some sub => fail {} 24 va sub
  | none => pure ()
  let zero := ps.any fun (l, _) => (s.poisonSub l).isSome
  storePlaced ps (toBytes 8 (f (if zero then 0 else ofBytes (ps.map s.byteAt)) % 2 ^ 64))

/-- Run an operation; answer its trap, if it traps. -/
def trapOf (x : Op Unit) : Op (Option Trap) :=
  tryCatch (do x; return none) fun e => match e with
    | .trap t => return some t
    | e => throw e

/-- Add to the command's counter, if it has one (R165). -/
def addCounter (c : ScarabCmd) (n : Nat) : Op (Option Trap) :=
  if c.counter = 0 ∨ n = 0 then return none
  else trapOf (engineAmo c.access c.since (.scarab c.id) (BitVec.ofNat 64 c.counter) (· + n))

/-- Set bit 63 of the counter. -/
def setBit63 (c : ScarabCmd) : Op Unit := do
  if c.counter ≠ 0 then
    let _ ← trapOf (engineAmo c.access c.since (.scarab c.id) (BitVec.ofNat 64 c.counter) fun v => if v.testBit 63 then v else v + 2 ^ 63)

/-- Write the status block (Table 07-9); answer whether it was lost. -/
def writeStatus (c : ScarabCmd) (done cause sub : Nat) (fva : Word) : Op Bool := do
  if c.status = 0 then return false
  else
    let w := 1 + sub % 256 * 2 ^ 16 + cause % 256 * 2 ^ 24 + done % 2 ^ 32 * 2 ^ 32
    let va := BitVec.ofNat 64 c.status
    let t ← trapOf do
      let ps ← enginePlace c.access false va 16
      writeAs (.scarab c.id) [] va ps (toBytes 8 w ++ toBytes 8 fva.toNat)
    return t.isSome

/-! ## The steps of a command -/

def State.command? (s : State) (cl id : Nat) : Option ScarabCmd := (s.cluster cl).scarab.find? (·.id = id)

def putCommand (cl : Nat) (c : ScarabCmd) : Op Unit :=
  modCluster cl fun g => { g with scarab := g.scarab.map fun d => if d.id = c.id then c else d }

/-- Is a launch on the device, not ended by a handler? -/
def State.launchLives (s : State) (n : Nat) : Bool := ((s.launches.get? n).map (!·.ended)).getD false

/-- The command leaves the engine. A remote write of it that was not delivered and that no release has met stands for its launch,
whose completion's release covers it (R328); without one it is lost and counted (R278). -/
def dropCommand (cl : Nat) (c : ScarabCmd) : Op Unit := do
  modCluster cl fun g => { g with scarab := g.scarab.filter (·.id ≠ c.id) }
  modify fun s => if s.launchLives c.via.launch then s.rename (.scarab c.id) (.launch c.via.launch) else s
  modify (State.forget (· = .scarab c.id))
  modify (cleanEnded c.via.launch)

/-- A counter addition failed: the command ends at once (R346). -/
def endOnCounter (cl : Nat) (c : ScarabCmd) (done : Nat) (t : Trap) : Op Unit := do
  let _ ← writeStatus c done t.cause t.sub (BitVec.ofNat 64 c.counter)
  dropCommand cl c

/-- Does the command release at a scope that awaits its remote writes (R165, R278): at each counter addition, and `final`, under rl,
at its end? -/
def ScarabCmd.awaits (c : ScarabCmd) (final : Bool) : Bool :=
  (c.order.scope = .dom || c.order.scope = .sys) && (c.counter ≠ 0 || (final && c.order.rl))

/-- The first of the first `n` elements whose remote write was lost, where the command's release meets it. -/
def ScarabCmd.lostElem (c : ScarabCmd) (s : State) (final : Bool) (n : Nat) : Option Nat :=
  if c.awaits final then (List.range n).find? fun k => s.lost.any fun l => l.writer = .scarab c.id && l.va = c.dstOf k
  else none

/-- The same as the release finds it: it awaits 4,000 ticks (R278). -/
def lostBelow (c : ScarabCmd) (final : Bool) (n : Nat) : Op (Option Nat) := do
  let s ← get
  match c.lostElem s final n with
  | some k =>
    waitFor (s.outOfTime c.since)
    return some k
  | none => return none

/-- The lost writes of a command that a release of it follows are not counted (R278). -/
def releasedLost (c : ScarabCmd) (final : Bool) : Op Unit := modify fun s =>
  if c.awaits final then { s with lost := s.lost.filter (·.writer ≠ .scarab c.id) } else s

/-- What a release answers for a lost write of element `k` (R278). -/
def ScarabCmd.lostTrap (c : ScarabCmd) (k : Nat) : Trap := { cause := 7, addr := some (c.dstOf k) }

/-- A data fault at element `k`: the counter at its prefix, the status, then bit 63 (R165). The addition releases, and a lost
write below `k` ends the command at its own element; the release of bit 63 follows every write. -/
def endOnFault (cl : Nat) (c : ScarabCmd) (final : Bool) (k : Nat) (t : Trap) : Op Unit := do
  let (k, t) := match ← lostBelow c final k with
    | some j => (j, c.lostTrap j)
    | none => (k, t)
  match ← addCounter c (k - c.landed) with
  | some t' => endOnCounter cl c k t'
  | none =>
    let _ ← writeStatus c k t.cause t.sub (t.addr.getD 0)
    setBit63 c
    releasedLost c final
    dropCommand cl c

/-- SCARAB_COMMAND_BEGIN: the hart's next command begins, in issue order (R176); it acquires under aq. -/
def scarabBeginOp (cl hart : Nat) : Op Unit := do
  let s ← get
  match (s.cluster cl).scarab.find? fun c => c.via.hart = hart && !c.begun with
  | some c =>
    if c.order.aq then acquire c.order.scope
    putCommand cl { c with begun := true, since := s.time }
  | none => onlyIf false

def execScarabCommandBegin (cluster hart : Nat) (s : State) : Outcome := event (scarabBeginOp cluster hart) s

/-- Do two runs of `n` bytes share an aligned 8-byte word? -/
def shareWord (a b n : Nat) : Bool := a / 8 ≤ (b + n - 1) / 8 && b / 8 ≤ (a + n - 1) / 8

/-- Would a prefix of `n` elements leave an aligned 8-byte word of the destination written in part? Each such word is written at
once (R164, R171). Destinations rise or fall with the element's number, so the elements on both sides of the cut decide. -/
def ScarabCmd.cutsWord (c : ScarabCmd) (n : Nat) : Bool := shareWord (c.dstOf (n - 1)).toNat (c.dstOf n).toNat c.esz

/-- SCARAB_PREFIX_ADVANCE: the elements below `upto` have landed, and the counter grows by the new ones (R165). -/
def scarabAdvanceOp (cl id upto : Nat) : Op Unit := do
  let s ← get
  match s.command? cl id with
  | none => onlyIf false
  | some c =>
    onlyIf (c.begun && c.landed < upto && upto < c.count && !c.cutsWord upto)
    let (c', _, t) ← copyElems c (upto - c.landed) c.landed
    onlyIf t.isNone
    match ← lostBelow c' false upto with
    | some k => endOnFault cl c' false k (c'.lostTrap k)
    | none => match ← addCounter c' (upto - c.landed) with
      | some t => endOnCounter cl c' upto t
      | none => putCommand cl { c' with landed := upto }

def execScarabPrefixAdvance (cluster cmd upto : Nat) (s : State) : Outcome := event (scarabAdvanceOp cluster cmd upto) s

/-- SCARAB_COMMAND_COMPLETE: every element has landed; the release under rl, the status block, then the final addition (R162,
R165, R346, R347). -/
def scarabCompleteOp (cl id : Nat) : Op Unit := do
  let s ← get
  match s.command? cl id with
  | none => onlyIf false
  | some c =>
    onlyIf c.begun
    let (c', _, t) ← copyElems c (c.count - c.landed) c.landed
    onlyIf t.isNone
    match ← lostBelow c' true c.count with
    | some k => endOnFault cl c' true k (c'.lostTrap k)
    | none =>
      let lost ← writeStatus c' c.count 0 0 0
      match ← addCounter c' (c.count - c.landed) with
      | some t => endOnCounter cl c' c.count t
      | none =>
        if lost then setBit63 c'
        dropCommand cl c'

def execScarabCommandComplete (cluster cmd : Nat) (s : State) : Outcome := event (scarabCompleteOp cluster cmd) s

/-- Words of elements above the faulting one, `k`, may have landed: an opaque choice says of each aligned word whether (R165). -/
def landAbove (c : ScarabCmd) (d f : Nat) : Nat → Nat → Op ScarabCmd
  | 0, _ => return c
  | n + 1, k => do
    let c' ← tryCatch (do
        let bs ← elemBytes c k
        landBytes c f k (bs.filter fun b => Config.freeChoice d (b.va / 8) % 2 = 1)) fun e => match e with
      | .trap _ => return c
      | e => throw e
    landAbove c' d f n (k + 1)

/-- The segments of an element's source that are another package's memory, each by its first address: the reads that may go
unanswered (R164, R277). -/
def remoteSource (c : ScarabCmd) (k : Nat) : Op (List Word) := do
  match c.srcOf k with
  | none => return []
  | some va =>
    let s ← get
    let r ← tryCatch (do
        let ps ← placeBytes {} c.access .load false false va va c.esz
        let at' (i : Nat) : Word := va + BitVec.ofNat 64 i
        return (ps.zipIdx.filter fun (p, i) => isRemote p && (i = 0 || (at' i).toNat % 4096 = 0)).map fun (_, i) => at' i)
      fun _ => return []
    set s
    return r

/-- The element whose remote read goes unanswered, and the address of that read, as the environment has it (R277): one of those left, if
it is remote, or none, so that an element answered may still fail at its destination (R346). -/
def unanswered (c : ScarabCmd) (d : Nat) : Op (Option (Nat × Word)) := do
  let left := c.count - c.landed
  let i := Config.freeChoice d 0 % (left + 1)
  if i < left && (← get).outOfTime c.since then
    let vas ← remoteSource c (c.landed + i)
    return (vas[Config.freeChoice d 1 % vas.length]?).map (c.landed + i, ·)
  else return none

/-- SCARAB_FAULT: the command ends at its first failing element (R346), or at a remote read without an answer. -/
def scarabFaultOp (cl id : Nat) : Op Unit := do
  let s ← get
  match s.command? cl id with
  | none => onlyIf false
  | some c =>
    onlyIf (c.begun && c.landed < c.count)
    let d ← draw
    let r ← unanswered c d
    let (c', k, t) ← copyElems c ((r.map (·.1)).getD c.count - c.landed) c.landed
    match (match t, r with
      | some t, _ => some t
      | none, some (_, va) => some { cause := 5, addr := some va : Trap }
      | none, none => none) with
    | none => onlyIf false
    | some t =>
      let c' ← landAbove c' d k (c.count - k - 1) (k + 1)
      endOnFault cl c' false k t

def execScarabFault (cluster cmd : Nat) (s : State) : Outcome := event (scarabFaultOp cluster cmd) s

end Sys2Proof.Machine
end

