-- ==== Sys2Proof/Machine/Contraction.lean ====
section
/-!
DEFINITION. The contraction unit: grants (R234 to R236, R301, R317), tiles, types and scales (R237), loads (R241,
R323), the block rule (R124, R242, R324) with the check column (R192, R193), stores (R243, R325), MZERO and BDSET.
-/

namespace Sys2Proof.Machine

/-! ## What a command may do -/

/-- Does the running kernel declare the CM profile and set USECU (R64)? -/
def State.cmOk (s : State) (h : Hart) : Bool :=
  match s.kernel? h with
  | some k => k.profile / 2 ^ 12 % 16 ≠ 0 && k.flags.testBit 4
  | none => false

/-- A trap of a contraction-unit command: UNIT 4, LANE 63, and the address in mtval for an access, which CARRY_OVERFLOW and
ENGINE are not (R108, R240). -/
def cuTrap (t : Trap) : Trap :=
  if t.cause = 2 then t
  else { t with unit := 4, lane := 63, cu := true, mtvalAddr := t.addr.isSome && t.cause ≠ 28 && t.cause ≠ 48, elem := 0 }

/-- Whose access a command's is. -/
def cuWho : Who := { cu := true }

/-- Run an operation; on a trap put VPOISCNT back: poisoned elements count when they commit (R198). -/
def uncounted (x : Op Unit) : Op Unit := do
  let cnt := (← getH).vpoiscnt
  tryCatch x fun e => match e with
    | .trap t => do
      modH fun h => { h with vpoiscnt := cnt }
      raise t
    | e => throw e

/-- A command: the CM check, then its operation. A trap leaves the grant's registers unchanged (R240); once it completes the hart's
scalar agent observes its writes (R239). -/
def cuCommand (x : Op Unit) : Op Unit := do
  let s ← get
  illegalUnless (s.cmOk s.hart)
  tryCatch x fun e => match e with
    | .trap t => do
      modH fun h => { h with grant := s.hart.grant }
      raise (cuTrap t)
    | e => throw e
  modify (State.viewWrites [(.array, .scalar)])
  advance 4

/-- The grant, or ENGINE with SUB 3 (R235). -/
def needGrant : Op Grant := do
  match (← getH).grant with
  | some g => return g
  | none => engine 3

def Grant.tiles (g : Grant) : Nat := g.rows / 16
def Grant.accs (g : Grant) : Nat := g.rows / 32

def engineUnless (b : Bool) (sub : Nat) : Op Unit := if b then pure () else engine sub

def modGrant (f : Grant → Grant) : Op Unit := modH fun h => { h with grant := h.grant.map f }

/-! ## ATTACH, DETACH, BDSET -/

/-- The quarters in use in a cluster. -/
def State.usedQuarters (s : State) (cl : Nat) : List Nat :=
  s.harts.flatMap fun h => if h.cluster = cl then (h.grant.map (·.quarters)).getD [] else []

/-- The quarters that a grant of `rows` takes (R301), if they are free. -/
def quartersFor (used : List Nat) (rows : Nat) : Option (List Nat) :=
  let free q := !used.contains q
  if rows = 128 then (if [0, 1, 2, 3].all free then some [0, 1, 2, 3] else none)
  else if rows = 64 then
    (if free 0 && free 1 then some [0, 1] else if free 2 && free 3 then some [2, 3] else none)
  else
    let other q := if q % 2 = 0 then q + 1 else q - 1
    match [0, 1, 2, 3].find? fun q => free q && !free (other q) with
    | some q => some [q]
    | none => ([0, 1, 2, 3].find? free).map fun q => [q]

/-- The largest grant that does not exceed `r` (R234). -/
def grantFor (used : List Nat) (r : Nat) : Option (Nat × List Nat) :=
  ([128, 64, 32].filter (· ≤ r)).findSome? fun n => (quartersFor used n).map fun q => (n, q)

/-- A new grant: its registers are undefined, its tiles have no type (R236, R237). -/
def newGrant (k rows : Nat) (quarters : List Nat) : Grant where
  rows := rows
  quarters := quarters
  mt := .undef k
  types := List.replicate 8 none
  latch := .undef k
  latchTy := none
  sc := .undef k
  acc := .undef k
  checkCol := 0

def attachOp (rd rs1 : BitVec 5) : Op Unit := do
  let s ← get
  let h := s.hart
  let r := (h.xr rs1).toNat
  engineUnless (r = 32 || r = 64 || r = 128) 1
  match h.grant with
  | some g => writeX rd (BitVec.ofNat 64 g.rows)
  | none => match grantFor (s.usedQuarters h.cluster) r with
    | some (n, q) =>
      let k ← draw
      modH fun h => { h with grant := some (newGrant k n q) }
      writeX rd (BitVec.ofNat 64 n)
    | none => writeX rd 0

def execAttach (rd rs1 : BitVec 5) (s : State) : Outcome := finish (cuCommand (attachOp rd rs1)) s

/-- DETACH (R317). -/
def detachOp : Op Unit := modH fun h => { h with grant := none }

def execDetach (s : State) : Outcome := finish (cuCommand detachOp) s

/-- BDSET (R305). -/
def bdsetOp (n : BitVec 4) (rs1 : BitVec 5) : Op Unit := do
  let h ← getH
  let v := (h.xr rs1).toNat
  engineUnless (1 ≤ v && v ≤ 4096) 1
  modH fun h => { h with bd := h.bd.set n.toNat (BitVec.ofNat 13 v) }

def execBdset (n : BitVec 4) (rs1 : BitVec 5) (s : State) : Outcome := finish (cuCommand (bdsetOp n rs1)) s

/-! ## Tile storage -/

/-- Replace the entries from `base` up. -/
def File.putRange {w : Nat} (f : File w) (base : Nat) (vs : List (BitVec w)) : File w :=
  { f with data := (f.data.filter fun p => p.1 < base) ++ (vs.zipIdx.map fun (v, i) => (base + i, v))
      ++ f.data.filter fun p => base + vs.length ≤ p.1 }

def tyBytes : TileTy → Nat
  | .bf16 => 2
  | _ => 1

/-- The tile type a code names (R237). -/
def tileTyOf (n : Nat) : Option TileTy :=
  match n with
  | 0 => some .f8 | 1 => some .bf16 | 2 => some .i8 | _ => none

/-- The value of a tile element. -/
def tyValue (t : TileTy) (v : Nat) : Fx :=
  match t with
  | .f8 => decodeF Fmt.f8 v
  | .bf16 => decodeF Fmt.bf16 v
  | .i8 => ofInt (toSigned 8 v)

/-- The FP32 pattern of 1.0. -/
def one32 : BitVec 32 := 0x3F800000#32

/-- Element (i, c) of the bytes at `base` of a file, under a type. -/
def tileElem (f : File 8) (base : Nat) (t : TileTy) (i c : Nat) : Fx :=
  match t with
  | .bf16 => tyValue t ((f.get (base + 2 * (128 * i + c))).toNat + 256 * (f.get (base + 2 * (128 * i + c) + 1)).toNat)
  | _ => tyValue t (f.get (base + 128 * i + c)).toNat

/-- An operand of an array command: its bytes, their base, its scales' base. -/
structure TileRef where
  file : File 8
  base : Nat
  scBase : Nat
  ty : Option TileTy
  deriving DecidableEq, Repr

def Grant.tile (g : Grant) (n : Nat) : TileRef :=
  { file := g.mt, base := 16384 * n, scBase := 128 * n, ty := g.types.getD n none }

def Grant.latchRef (g : Grant) : TileRef := { file := g.latch, base := 0, scBase := 1024, ty := g.latchTy }

def Grant.scale (g : Grant) (t : TileRef) (i : Nat) : Fx := decodeF Fmt.f32 (g.sc.get (t.scBase + i)).toNat

/-- A load into tile `n` (R237): a BF16 tile takes the pair; a pair that loses its even half leaves the odd one
without a type (DESIGN CHOICE log 19). -/
def Grant.loadTile (g : Grant) (n : Nat) (t : TileTy) (bs : List Byte) : Grant :=
  let wasPair := g.types.getD n none = some .bf16
  let types := match t with
    | .bf16 => (g.types.set n (some .bf16)).set (n + 1) (some .bf16)
    | _ => if wasPair then (g.types.set n (some t)).set (n + 1) none else g.types.set n (some t)
  let regs := if t = .bf16 then 2 else 1
  { g with
    mt := g.mt.putRange (16384 * n) bs
    types := types
    sc := g.sc.putRange (128 * n) (List.replicate (128 * regs) one32) }

/-- Is `n` the odd register of a BF16 pair? -/
def Grant.oddOfPair (g : Grant) (n : Nat) : Bool := n % 2 = 1 && g.types.getD n none = some .bf16

/-! ## Loads -/

/-- Does the unit compute on this type now? The reduced service has BF16 alone (R21, R295). -/
def typeInService (s : State) (t : TileTy) : Bool := s.status.full || t = .bf16

/-- Read `n` elements of `es` bytes from `va` up, as bytes in order. -/
def readElems (es : Nat) : Nat → Word → Op (List Byte)
  | 0, _ => return []
  | n + 1, va => do
    let v ← memRead cuWho va es
    let rest ← readElems es n (va + BitVec.ofNat 64 es)
    return toBytes es v ++ rest

/-- Read rows of 128 elements, `pitch` apart. -/
def readRows (es : Nat) (pitch : Word) : Nat → Word → Op (List Byte)
  | 0, _ => return []
  | n + 1, va => do
    let row ← readElems es 128 va
    let rest ← readRows es pitch n (va + pitch)
    return row ++ rest

/-- An order's acquire and release around a command (R239). -/
def ordered (o : Order) (x : Op Unit) : Op Unit := do
  if o.aq then acquire o.scope
  uncounted x
  if o.rl then release .array o.scope

/-- MLD (R241, R323). -/
def mldOp (o : Order) (mt : BitVec 3) (rs1 rs2 : BitVec 5) : Op Unit := do
  let g ← needGrant
  let s ← get
  let h := s.hart
  let w := h.xr rs2
  let n := mt.toNat
  match tileTyOf (bits w 61 3) with
  | none => engine 1
  | some t =>
    engineUnless (bits w 40 21 = 0 && !g.oddOfPair n && !(t = .bf16 && n % 2 = 1) && typeInService s t) 1
    engineUnless (n < g.tiles) 3
    ordered o do
      let bs ← readRows (tyBytes t) (sextN 40 (bits w 0 40)) 128 (h.xr rs1)
      modGrant fun g => g.loadTile n t bs

def execMld (o : Order) (mt : BitVec 3) (rs1 rs2 : BitVec 5) (s : State) : Outcome :=
  finish (cuCommand (mldOp o mt rs1 rs2)) s

/-- Do `n` bytes at an address lie wholly in one scratchpad window (R134, R241)? How much of it the body may access is for the reads to
check. -/
def inOneWindow (a n : Nat) : Bool :=
  (inCoreWindow a && inCoreWindow (a + n - 1)) || (inClusterWindow a && inClusterWindow (a + n - 1))

/-- The rows of MLDX (R241, R323): row `i` is zero beyond nel() or for index −1, else lies in one scratchpad window and is read element
by element. -/
def gatherRows (h : Hart) (cap : Nat) (vs : Nat) (es : Nat) (base : Word) : Nat → Nat → Op (List Byte)
  | 0, _ => return []
  | n + 1, i => do
    let x := h.elemAt cap vs 4 i
    let row ← (if h.nel ≤ i ∨ x = 2 ^ 32 - 1 then return List.replicate (128 * es) 0
      else do
        let va := base + sextN 32 x
        if inOneWindow va.toNat (128 * es) then readElems es 128 va else fail {} 5 va)
    let rest ← gatherRows h cap vs es base n (i + 1)
    return row ++ rest

/-- MLDX (R241, R323). Its index register is checked as a vector operand is (check 4). -/
def mldxOp (o : Order) (rs1 vs : BitVec 5) : Op Unit := do
  let s ← get
  let h := s.hart
  illegalUnless (groupOk (s.nvreg h) h.grp vs)
  let _ ← needGrant
  let w := h.xr rs1
  match tileTyOf (bits w 61 3) with
  | none => engine 1
  | some t =>
    engineUnless (bits w 48 13 = 0 && h.etype = 2 && typeInService s t) 1
    ordered o do
      let bs ← gatherRows h (s.capC h) vs.toNat (tyBytes t) (sext48 (bits w 0 48)) 128 0
      modGrant fun g => { g with
        latch := g.latch.putRange 0 bs, latchTy := some t, sc := g.sc.putRange 1024 (List.replicate 128 one32) }

def execMldx (o : Order) (rs1 vs : BitVec 5) (s : State) : Outcome := finish (cuCommand (mldxOp o rs1 vs)) s

/-- MLSC (R241, R323). -/
def mlscOp (o : Order) (mt : BitVec 3) (rs1 : BitVec 5) : Op Unit := do
  let g ← needGrant
  let h ← getH
  let n := mt.toNat
  engineUnless (!g.oddOfPair n) 1
  engineUnless (n < g.tiles) 3
  ordered o do
    let bs ← readElems 4 128 (h.xr rs1)
    let vs := (List.range 128).map fun i => BitVec.ofNat 32 (ofBytes ((bs.drop (4 * i)).take 4))
    modGrant fun g => { g with sc := g.sc.putRange (128 * n) vs }

def execMlsc (o : Order) (mt : BitVec 3) (rs1 : BitVec 5) (s : State) : Outcome := finish (cuCommand (mlscOp o mt rs1)) s

/-! ## The array -/

/-- An exact sum of products, from +0. R124 does not say what the sum is where a BF16 operand is an infinity or a NaN: here it follows
IEEE 754, so that ∞ − ∞ and 0 × ∞ give NaN, a zero row of MLDX times an infinity too (DESIGN CHOICE log 48). -/
def dotFx (ps : List (Fx × Fx)) : Fx :=
  ps.foldl (fun s (a, b) => (addFx .rne s (mulFx a b).1).1) (.fin false 0 0)

/-- The block update of one accumulator element (R124): `s` is the exact sum. -/
def accumulate (acc : BitVec 40) (s sa sb : Fx) : BitVec 40 :=
  BitVec.ofNat 40 (roundFx Fmt.a40 .rne (addFx .rne (decodeF Fmt.a40 acc.toNat) (mulFx (mulFx s sa).1 sb).1).1).1

def Grant.accAt (g : Grant) (n i j : Nat) : BitVec 40 := g.acc.get (16384 * n + 128 * i + j)

/-- The elements of an accumulator, row-major. -/
def accCells (f : Nat → Nat → BitVec 40) : List (BitVec 40) :=
  (List.range 16384).map fun k => f (k / 128) (k % 128)

/-- acc n after A × B, one k-block (R242). -/
def mmaCells (g : Grant) (t : TileTy) (n : Nat) (a b : TileRef) : List (BitVec 40) :=
  accCells fun i j =>
    let s := dotFx ((List.range 128).map fun k => (tileElem a.file a.base t i k, tileElem b.file b.base t k j))
    accumulate (g.accAt n i j) s (g.scale a i) (g.scale b 0)

/-- acc n after a convolution of `c` taps (R242). -/
def sldCells (g : Grant) (t : TileTy) (n c : Nat) (a w : TileRef) : List (BitVec 40) :=
  accCells fun i j =>
    let s := dotFx ((List.range (min c (128 - j))).map fun k => (tileElem a.file a.base t i (j + k), tileElem w.file w.base t i k))
    accumulate (g.accAt n i j) s (g.scale a i) (g.scale w 0)

/-- Undefined sums (R237, R324). -/
def undefCells (k q : Nat) : List (BitVec 40) := (List.range 16384).map fun i => Config.freeValue k (16384 * q + i) 40

/-- The check column meets k-block `q` (R192, R193): a transient mismatch counts; a persistent one remaps the
column, or raises LANE_CHECK;
each k-block has a column of its own, as each counts as one command (R242); a mismatch on a core whose lane is remapped takes the
core out of service. That a persistent mismatch is counted and its column remapped under LCTRAP too, where the command raises
LANE_CHECK, no rule says of a column (DESIGN CHOICE log 48). -/
def checkBlock (q : Nat) : Op Unit := do
  let s ← get
  let h := s.hart
  match h.upsets, h.grant with
  | u :: us, some g =>
    if u.column ∧ u.elem = q then
      modH fun h => { h with upsets := us }
      let v := s.lane h.id
      if hasRemap v then coreOut h.pc 0
      else if !u.persistent then modify fun s => s.setLane h.id (laneTransient v)
      else
        modify fun s => s.setLane h.id (columnRemap (lanePersistent v) ((g.checkCol + q) % 128))
        if s.flag h 3 then raise { cause := 29, sub := 2 }
  | _, _ => pure ()

/-- The check of every k-block of a command; the column number advances by 1 for each of them (R193, R242). -/
def checkBlocks (n : Nat) : Op Unit := do
  (List.range n).forM checkBlock
  modGrant fun g => { g with checkCol := (g.checkCol + n) % 128 }

def Grant.operand (g : Grant) : AOperand → TileRef
  | .mt n => g.tile n.toNat
  | .latch => g.latchRef

/-- The register parity of a BF16 operand (R237). -/
def parityOk (a : AOperand) (g : Grant) : Bool :=
  match a with
  | .mt n => !g.oddOfPair n.toNat
  | .latch => true

def operandInGrant (a : AOperand) (g : Grant) : Bool :=
  match a with
  | .mt n => n.toNat < g.tiles
  | .latch => true

/-- The type a command runs under: that of its typed operands, FP8 when none is typed (R237). -/
def commandType (a : TileRef) (b : Option TileTy) : TileTy := ((a.ty).or b).getD .f8

/-- The operands' types agree; an untyped one agrees with any (R237, R242). -/
def typeAgrees (t : TileTy) (r : TileRef) : Bool :=
  match r.ty with
  | some u => u = t
  | none => true

/-- An array command on accumulators from `acc` up, one for each B tile (R242, R324). -/
def arrayOp (acc : Nat) (a : AOperand) (bs : List Nat) (t : TileTy) (f : Grant → Nat → TileRef → TileRef → List (BitVec 40)) : Op Unit := do
  let g ← needGrant
  let s ← get
  let ar := g.operand a
  let refs := bs.map g.tile
  engineUnless (typeAgrees t ar && refs.all (typeAgrees t) && parityOk a g && bs.all (fun b => !g.oddOfPair b)
    && typeInService s t) 1
  engineUnless (operandInGrant a g && bs.all (· < g.tiles) && acc + bs.length ≤ g.accs) 3
  checkBlocks bs.length
  let k ← draw
  modGrant fun g => { g with acc := (refs.zipIdx).foldl (fun file (r, q) =>
    file.putRange (16384 * (acc + q))
      (if ar.ty.isSome && r.ty.isSome then f g (acc + q) ar r else undefCells k q)) g.acc }

def mmaOp (acc : BitVec 2) (a : AOperand) (b : BitVec 3) : Op Unit := do
  let g ← needGrant
  let t := commandType (g.operand a) (g.tile b.toNat).ty
  arrayOp acc.toNat a [b.toNat] t fun g n x y => mmaCells g t n x y

def execMma (acc : BitVec 2) (a : AOperand) (b : BitVec 3) (s : State) : Outcome := finish (cuCommand (mmaOp acc a b)) s

/-- The type that MRPT runs under: A's, else that of the first typed register from `f` on, else FP8 (R237). (DEDUCED log 19) -/
def mrptType (a : TileRef) (g : Grant) (f n : Nat) : TileTy :=
  commandType a ((List.range n).findSome? fun q => g.types.getD (f + q) none)

/-- MRPT (R242): the count word. -/
def mrptOp (acc : BitVec 2) (a : AOperand) (rs2 : BitVec 5) : Op Unit := do
  let g ← needGrant
  let h ← getH
  let w := h.xr rs2
  let n := bits w 0 3
  let f := bits w 4 3
  let t := mrptType (g.operand a) g f n
  let step := tyBytes t
  engineUnless (w &&& ~~~ 0x77#64 = 0 && n ≠ 0 && acc.toNat + n ≤ 4 && f + (n - 1) * step ≤ 7) 1
  arrayOp acc.toNat a ((List.range n).map fun q => f + q * step) t fun g k x y => mmaCells g t k x y

def execMrpt (acc : BitVec 2) (a : AOperand) (rs2 : BitVec 5) (s : State) : Outcome := finish (cuCommand (mrptOp acc a rs2)) s

/-- MSLD (R242): the tap word. -/
def msldOp (acc : BitVec 2) (a : AOperand) (rs2 : BitVec 5) : Op Unit := do
  let g ← needGrant
  let h ← getH
  let w := h.xr rs2
  let c := bits w 0 8
  let n := bits w 8 3
  engineUnless (w &&& ~~~ 0x7FF#64 = 0 && 1 ≤ c && c ≤ 128) 1
  let t := commandType (g.operand a) (g.tile n).ty
  arrayOp acc.toNat a [n] t fun g k x y => sldCells g t k c x y

def execMsld (acc : BitVec 2) (a : AOperand) (rs2 : BitVec 5) (s : State) : Outcome := finish (cuCommand (msldOp acc a rs2)) s

/-! ## MST and MZERO -/

/-- The element-type code of an operand word's type (R237): FP8, BF16, INT8, FP32. -/
def storeType (n : Nat) : Option Nat :=
  match n with
  | 0 => some 4 | 1 => some 5 | 2 => some 0 | 3 => some 7 | _ => none

/-- The conversion of R243. -/
def accConvert (t : Nat) (v : BitVec 40) : Nat := (convertFx t .rne (decodeF Fmt.a40 v.toNat)).1

/-- Where MST writes element `k`, row-major. -/
def mstAddr (base pitch : Word) (es k : Nat) : Word :=
  base + BitVec.ofNat 64 (k / 128) * pitch + BitVec.ofNat 64 (k % 128 * es)

/-- Write elements `k` up to 16,383, ascending (R325). -/
def mstElems (g : Grant) (acc t es : Nat) (base pitch : Word) : Nat → Nat → Op Unit
  | 0, _ => pure ()
  | n + 1, k => do
    let va := mstAddr base pitch es k
    writeElem cuWho (fun _ => true) (fun k => return some (mstAddr base pitch es k)) es k va
      (accConvert t (g.accAt acc (k / 128) (k % 128)))
    mstElems g acc t es base pitch n (k + 1)

def mstOp (o : Order) (acc : BitVec 2) (rs1 rs2 : BitVec 5) : Op Unit := do
  let g ← needGrant
  let h ← getH
  let w := h.xr rs2
  match storeType (bits w 61 3) with
  | none => engine 1
  | some t =>
    engineUnless (bits w 40 21 = 0) 1
    engineUnless (acc.toNat < g.accs) 3
    ordered o (mstElems g acc.toNat t (ebOf t) (h.xr rs1) (sextN 40 (bits w 0 40)) 16384 0)

def execMst (o : Order) (acc : BitVec 2) (rs1 rs2 : BitVec 5) (s : State) : Outcome := finish (cuCommand (mstOp o acc rs1 rs2)) s

/-- MZERO (R326). -/
def mzeroOp (acc : BitVec 2) : Op Unit := do
  let g ← needGrant
  engineUnless (acc.toNat < g.accs) 3
  modGrant fun g => { g with acc := g.acc.putRange (16384 * acc.toNat) (List.replicate 16384 0) }

def execMzero (acc : BitVec 2) (s : State) : Outcome := finish (cuCommand (mzeroOp acc)) s

end Sys2Proof.Machine
end

