-- ==== Sys2Proof/Machine/Chain.lean ====
section
/-!
DEFINITION. Weight chains (R246 to R253, R309): CHNRUN and CHNSTEP.
-/

namespace Sys2Proof.Machine

/-- A step word's fields (Table 14-6). -/
structure StepWord where
  fidx : Nat
  bin : Nat
  bout : Nat
  m : Nat
  n : Nat
  cin : Nat
  cout : Nat
  last : Bool
  deriving DecidableEq, Repr

def stepWordOf (w : Nat) : StepWord :=
  let f (lo len : Nat) := w / 2 ^ lo % 2 ^ len
  { fidx := f 0 4, bin := f 4 4, bout := f 8 4, m := f 12 12, n := f 24 12, cin := f 36 3, cout := f 39 3,
    last := w.testBit 42 }

/-- A 64-byte or 32-byte structure read with the checks of mem_read; the structures' addresses are checked with
the fields (R252 steps 3 and 4). -/
def readStruct (va : Word) (n : Nat) : Op Nat := do
  let s ← get
  return ofBytes (← readBytes cuWho (s.access s.hart) .load .running va n)

/-- The step words from `k` up to the first that sets LAST, or up to 4,095 (R252 step 3). -/
def readSteps (prog : Word) : Nat → Nat → Op (List StepWord)
  | 0, _ => return []
  | n + 1, k => do
    let w := stepWordOf (← memRead cuWho (prog + BitVec.ofNat 64 (64 + 8 * k)) 8)
    if w.last then return [w]
    else
      let ws ← readSteps prog n (k + 1)
      return w :: ws

/-- Everything that one step works from. -/
structure StepEnv where
  w : StepWord
  p : Nat
  q : Nat
  bi : Nat
  bo : Nat
  t : Nat
  kr : Nat
  nc : Nat
  tiles : Word
  scales : Word
  inSlot : Word
  outSlot : Word
  deriving DecidableEq, Repr

def ceilDiv (a b : Nat) : Nat := (a + b - 1) / b

/-- Slot `s` of a carry descriptor: its address and capacity (Table 14-8). -/
def slotOf (cd s : Nat) : Word × Nat :=
  let v := cd / 2 ^ (8 * (0x10 + 8 * s)) % 2 ^ 64
  (sext48 (v % 2 ^ 48), v / 2 ^ 48)

/-- Reads and checks of step `k` (R252 steps 3 to 5). -/
def chainChecks (prog cdVa : Word) (k : Nat) : Op StepEnv := do
  let hdr ← readStruct prog 64
  let ftab := sext48 (hdr % 2 ^ 48)
  let ws ← readSteps prog 4096 0
  let cd ← readStruct cdVa 64
  let ended := (ws.getLast?.map (·.last)).getD false
  match (if ended then ws[k]? else none) with
  | none => engine 1
  | some w =>
    let fd ← readStruct (ftab + BitVec.ofNat 64 (32 * w.fidx)) 32
    let h ← getH
    let bi := (h.bd.getD w.bin 1).toNat
    let bo := (h.bd.getD w.bout 1).toNat
    let tiles := sext48 (fd % 2 ^ 48)
    let scales := sext48 (fd / 2 ^ 64 % 2 ^ 48)
    let kr := fd / 2 ^ 128 % 2 ^ 16
    let nc := fd / 2 ^ 144 % 2 ^ 16
    let t := cd % 2 ^ 32
    let (ia, ic) := slotOf cd w.cin
    let (oa, oc) := slotOf cd w.cout
    engineUnless (ws.all (fun w => w.m ≠ 0 && w.n ≠ 0)) 1
    engineUnless (w.cin ≤ 5 && w.cout ≤ 5 && w.cin ≠ w.cout && ic ≠ 0 && oc ≠ 0) 1
    engineUnless (kr = w.n * bi && nc = w.m * bo && 1 ≤ t && t ≤ 16777216) 1
    engineUnless (ftab.toNat % 32 = 0 && tiles.toNat % 64 = 0 && scales.toNat % 4 = 0 && ia.toNat % 4 = 0 && oa.toNat % 4 = 0) 1
    let p := ((ws.take k).map (·.m)).prod
    let q := ((ws.drop (k + 1)).map (·.n)).prod
    let entry (s : Nat) := cdVa + BitVec.ofNat 64 (0x10 + 8 * s)
    if ic * 65536 < 4 * p * w.n * q * bi * t then raise { cause := 28, sub := 1, addr := some (entry w.cin) }
    if oc * 65536 < 4 * p * w.m * q * bo * t then raise { cause := 28, sub := 1, addr := some (entry w.cout) }
    return { w := w, p := p, q := q, bi := bi, bo := bo, t := t, kr := kr, nc := nc, tiles := tiles, scales := scales,
             inSlot := ia, outSlot := oa }

/-- Read `n` values of `es` bytes, ascending. -/
def readValues (es : Nat) : Nat → Word → Op (List Nat)
  | 0, _ => return []
  | n + 1, va => do
    let v ← memRead cuWho va es
    let vs ← readValues es n (va + BitVec.ofNat 64 es)
    return v :: vs

/-- Read the rows of one factor tile: `rows` of `cols` bytes, 128 apart. -/
def readTileRows (cols : Nat) : Nat → Word → Op (List (List Nat))
  | 0, _ => return []
  | n + 1, va => do
    let r ← readValues 1 cols va
    let rs ← readTileRows cols n (va + 128)
    return r :: rs

/-- The factor's tiles, in grid order (R249). -/
def readTiles (e : StepEnv) (tc : Nat) : Nat → Nat → Op (List (List (List Nat)))
  | 0, _ => return []
  | n + 1, i => do
    let a := i / tc
    let b := i % tc
    let t ← readTileRows (min 128 (e.nc - 128 * b)) (min 128 (e.kr - 128 * a)) (e.tiles + BitVec.ofNat 64 (16384 * i))
    let ts ← readTiles e tc n (i + 1)
    return t :: ts

/-- One carry-out value (R251). -/
def carryOut (e : StepEnv) (scales : Array Nat) (tiles : Array (Array (Array Nat))) (carry : Array Nat) (p m q c t : Nat) : Nat :=
  let tc := ceilDiv e.nc 128
  let s := m * e.bo + c
  let input (r : Nat) : Fx :=
    let i := (((p * e.w.n + r / e.bi) * e.q + q) * e.bi + r % e.bi) * e.t + t
    decodeF Fmt.bf16 (roundFx Fmt.bf16 .rne (decodeF Fmt.f32 (carry.getD i 0))).1
  let factor (r : Nat) : Fx :=
    decodeF Fmt.f8 (((tiles.getD (r / 128 * tc + s / 128) #[]).getD (r % 128) #[]).getD (s % 128) 0)
  let z := (List.range (ceilDiv e.kr 128)).foldl (fun (z : BitVec 40) a =>
    let rows := (List.range (min 128 (e.kr - 128 * a))).map (128 * a + ·)
    let sum := dotFx (rows.map fun r => (input r, factor r))
    accumulate z sum (.fin false 1 0) (decodeF Fmt.f32 (scales.getD (a * tc + s / 128) 0))) 0#40
  (roundFx Fmt.f32 .rne (decodeF Fmt.a40 z.toNat)).1

/-- Write values of four bytes from `base` up, ascending, the first being number `i`. They are one write: when they cover a sector
they clear its poison (R196). -/
def writeValues (base : Word) : List Nat → Nat → Op Unit
  | [], _ => pure ()
  | v :: vs, i => do
    let at' (i : Nat) : Word := base + BitVec.ofNat 64 (4 * i)
    writeElem cuWho (fun _ => true) (fun i => return some (at' i)) 4 i (at' i) v
    writeValues base vs (i + 1)

/-- The carry-out words that stand before a forced pre-emption named after `w` of them: no aligned 8-byte word is written in part, since
another hart sees each old or new (R171, R254). -/
def wholeWords (slot : Word) (w : Nat) : Nat := if (slot.toNat + 4 * w) % 8 = 0 then w else w - 1

/-- Step `k`: its checks, its reads, its carry-out (R252). Answers whether it is the last. A forced pre-emption inside it falls
after `stop` words of its carry-out (R253), or after the word before where that one would end inside an aligned 8-byte word. -/
def chainStep (prog cd : Word) (k : Nat) (stop : Option Nat) : Op Bool := do
  let e ← chainChecks prog cd k
  let tc := ceilDiv e.nc 128
  let n := ceilDiv e.kr 128 * tc
  let scales ← readValues 4 n e.scales
  let tiles ← readTiles e tc n 0
  let carry ← readValues 4 (e.p * e.w.n * e.q * e.bi * e.t) e.inSlot
  let ts := (tiles.map fun t => (t.map (·.toArray)).toArray).toArray
  let total := e.p * e.w.m * e.q * e.bo * e.t
  let outs := (List.range total).map fun i =>
    let t := i % e.t
    let c := i / e.t % e.bo
    let q := i / e.t / e.bo % e.q
    let m := i / e.t / e.bo / e.q % e.w.m
    let p := i / e.t / e.bo / e.q / e.w.m
    carryOut e scales.toArray ts carry.toArray p m q c t
  match stop with
  | some w =>
    writeValues e.outSlot (outs.take (if w < outs.length then wholeWords e.outSlot w else w)) 0
    if w < outs.length then throw (.preempt (← getH).pc 0)
  | none => writeValues e.outSlot outs 0
  return e.w.last

/-- Where a forced pre-emption stops a chain: before step `k`, or inside it after some words of its carry-out (R253). The
environment names position 4096 w + k: step k, w words written. -/
def stopIn (stop : Option Nat) (k : Nat) : Option Nat :=
  match stop with
  | some p => if p % 4096 < k then some 0 else if p % 4096 = k then some (p / 4096) else none
  | none => none

/-- Steps from CHSTEP on: one for CHNSTEP, else to LAST. A forced pre-emption stops the chain at once, at the position `stop`
(R253). -/
def chainLoop (prog cd : Word) (single : Bool) (stop : Option Nat) : Nat → Op Unit
  | 0 => pure ()
  | fuel + 1 => do
    let h ← getH
    let k := h.chstep.toNat
    if stopIn stop k = some 0 then throw (.preempt h.pc 0)
    let cnt := h.vpoiscnt
    let last ← tryCatch (chainStep prog cd k (stopIn stop k)) fun e => do
      modH fun h => { h with vpoiscnt := cnt }
      throw e
    modH fun h => { h with chstep := if last then 0 else BitVec.ofNat 12 (k + 1) }
    if !last && !single then chainLoop prog cd single stop fuel

/-- A grant whose tiles, latch and accumulators are undefined and without type (R237, R252). -/
def Grant.undefined (g : Grant) (k : Nat) : Grant :=
  { g with mt := .undef k, types := List.replicate 8 none, latch := .undef k, latchTy := none, acc := .undef k }

def chainOp (single : Bool) (o : Order) (rs1 rs2 : BitVec 5) : Op Unit := do
  let _ ← needGrant
  let s ← get
  let h := s.hart
  let prog := h.xr rs1
  let cd := h.xr rs2
  if prog.toNat % 64 ≠ 0 then engine 1 (some prog)
  if cd.toNat % 64 ≠ 0 then engine 1 (some cd)
  if o.aq then acquire o.scope
  chainLoop prog cd single (if s.forcedDue then h.stopAt else none) 4096
  modH fun h => { h with stopAt := none }
  let k ← draw
  modGrant (·.undefined k)
  if o.rl then release .array o.scope

def execChnrun (o : Order) (rs1 rs2 : BitVec 5) (s : State) : Outcome := finish (cuCommand (chainOp false o rs1 rs2)) s
def execChnstep (o : Order) (rs1 rs2 : BitVec 5) (s : State) : Outcome := finish (cuCommand (chainOp true o rs1 rs2)) s

end Sys2Proof.Machine
end

