-- ==== Sys2Proof/Machine/FrontEnd.lean ====
section
/-!
DEFINITION. The launch-queue front end: the CRC of a header, the reads and checks of Table 02-5 (R52, R62 to R65,
R214), and what happens to a record at its queue's head (R26, R50 to R54, R177).
-/

namespace Sys2Proof.Machine

/-! ## CRC-32C (Table 02-7) -/

def crcBit (c : Nat) : Nat := if c % 2 = 1 then (c / 2) ^^^ 0x82F63B78 else c / 2

def crcByte (c : Nat) (b : Byte) : Nat :=
  (List.range 8).foldl (fun c _ => crcBit c) (c ^^^ b.toNat)

/-- CRC-32C: Castagnoli, reflected, initial and final value 0xFFFF_FFFF. -/
def crc32c (bs : List Byte) : Nat := (bs.foldl crcByte 0xFFFFFFFF) ^^^ 0xFFFFFFFF

/-! ## Queue configuration (Table 18-3) -/

namespace Queue
def cring (q : Queue) : Word := sext48 (field512 q.installed 0 0 48)
def clog2n (q : Queue) : Nat := field512 q.installed 0x20 0 5
def cprio (q : Queue) : Nat := field512 q.installed 0x20 8 3
def cstklog (q : Queue) : Nat := field512 q.installed 0x20 11 5
def cpriv (q : Queue) : Bool := field512 q.installed 0x20 16 1 = 1
def cen (q : Queue) : Bool := field512 q.installed 0x20 31 1 = 1
def clperm (q : Queue) (k : Nat) : Bool := field512 q.installed 0x28 k 1 = 1
def cstkbase (q : Queue) : Word := sext48 (field512 q.installed 0x38 0 48)

/-- The front end takes the record at an index; none makes the index unreadable (R322). -/
def take (q : Queue) (i : Nat) (r : Option (BitVec 512)) : Queue :=
  match r with
  | some v => { q with taken := q.taken.put i v, unreadable := q.unreadable.filter (· ≠ i) }
  | none => { q with unreadable := i :: q.unreadable }

/-- Where record `i` lies (R288). -/
def recordAt (q : Queue) (i : Nat) : Word := q.cring + BitVec.ofNat 64 (64 * (i % 2 ^ q.clog2n))
end Queue

/-- The distance from index `b` up to `a`, modulo 2^32. -/
def idxDist (a b : Nat) : Nat := (a + 2 ^ 32 - b % 2 ^ 32) % 2 ^ 32

/-- Does index `a` lie at or above `b`? -/
def idxAtLeast (a b : Nat) : Bool := idxDist a b < 2 ^ 31

/-! ## Reads of check 1 -/

/-- A translation that must succeed and is not followed by an access (Table 02-5, check 1). (DEDUCED log 30) -/
def mustTranslate (q : Nat) (kind : AKind) (write : Bool) (va : Word) : Op Unit := do
  let s ← get
  if inWindow va.toNat then fail {} kind.accessFault va
  let _ ← translate {} kind false write write (s.rootOf q) va va
  set s

/-- Cause ADDRESS for a misaligned structure. -/
def mustAlign (va : Word) (n : Nat) : Op Unit := if va.toNat % n = 0 then pure () else raise { cause := 4 }

def qReadNat (q : Nat) (va : Word) (n : Nat) : Op Nat := return ofBytes (← qRead q va n)

/-- Read the owner table of a descriptor with OT = 1 (R214): `n` entries. -/
def readOwners (q : Nat) : Nat → Word → Op (List Nat)
  | 0, _ => return []
  | n + 1, va => do
    let e ← qReadNat q va 8
    let es ← readOwners q n (va + 8)
    return e :: es

/-- An element-map entry's own fields (Table 12-1); the descriptor is filled in by its read. -/
def elemMapOf (bs : List Byte) : ElemMap where
  pidx := (bs.getD 0 0).toNat
  mode := (bs.getD 1 0).toNat
  dims := (bs.getD 2 0).toNat
  mat := (List.range 36).map fun i => toSigned 8 (bs.getD (4 + i) 0).toNat
  off := (List.range 6).map fun d => toSigned 32 (ofBytes ((bs.drop (0x28 + 4 * d)).take 4))
  box := (List.range 6).map fun d => ofBytes ((bs.drop (0x40 + 4 * d)).take 4)
  desc := 0
  descVa := 0
  owners := []

/-- Read one map entry, its parameter word, its descriptor and its owner table (R214). -/
def readMap (q : Nat) (param : Word) (paramSz : Nat) (va : Word) : Op ElemMap := do
  let m := elemMapOf (← qRead q va 96)
  if 8 * m.pidx + 8 ≤ paramSz then
    let dva := BitVec.ofNat 64 (← qReadNat q (param + BitVec.ofNat 64 (8 * m.pidx)) 8)
    mustAlign dva 64
    let d := BitVec.ofNat 512 (← qReadNat q dva 64)
    let n := 2 ^ min (((List.range 6).map (descSh d)).sum) 12
    let owners ← (if descOt d then readOwners q n (dva + 64) else return [])
    return { m with desc := d, descVa := dva.toNat, owners := owners }
  else return m

def readMaps (q : Nat) (param : Word) (paramSz : Nat) : Nat → Word → Op (List ElemMap)
  | 0, _ => return []
  | n + 1, va => do
    let m ← readMap q param paramSz va
    let ms ← readMaps q param paramSz n (va + 96)
    return m :: ms

/-- The level kinds of the loop table (R22). -/
def readLevels (q : Nat) : Nat → Word → Op (List Nat)
  | 0, _ => return []
  | n + 1, va => do
    let e ← qReadNat q va 8
    let es ← readLevels q n (va + 8)
    return e % 256 :: es

/-- A launch as read: the kernel, and the header words that only check 2 looks at. -/
structure RawLaunch where
  k : Kernel
  magic : Nat
  version : Nat
  crcOk : Bool
  lvlCnt : Nat
  mapCnt : Nat
  deriving DecidableEq, Repr

def recordHdr (r : BitVec 512) : Word := sext48 (field512 r 0 0 48)
def recordParam (r : BitVec 512) : Word := sext48 (field512 r 8 0 48)

/-- A field of a header's bytes. -/
def hdrField (hb : List Byte) (off n : Nat) : Nat := ofBytes ((hb.drop off).take n)

/-- What the loop table and the map table hold at most: the entries that check 1 reads. -/
def levelEntries (hb : List Byte) : Nat := min (hdrField hb 0x28 1) 6
def mapEntries (hb : List Byte) : Nat := min (hdrField hb 0x29 1) 15

/-- A launch from its record, its header and its two tables (Tables 02-7 and 02-8). -/
def rawLaunch (r : BitVec 512) (hb : List Byte) (levels : List Nat) (maps : List ElemMap) : RawLaunch :=
  let f := hdrField hb
  { k := {
      hdr := (recordHdr r).toNat, sysrel := bitAt r 50, overlap := bitAt r 49, nosplice := bitAt r 48
      param := (recordParam r).toNat, trans := field512 r 8 48 16
      exts := (List.range levels.length).map fun l => field512 r (0x10 + 4 * l) 0 32
      waitCtr := field512 r 0x28 0 64, waitTgt := field512 r 0x30 0 64, doneCtr := field512 r 0x38 0 64
      flags := f 6 2, profile := f 8 4, entry := f 0x0C 4, setOff := f 0x10 4, nvreg := f 0x14 1
      minRows := f 0x15 1, minLen := f 0x18 4, coreSp := f 0x1C 4, clSpb := f 0x20 4
      levels := levels, paramSz := f 0x2A 2, pmask := f 0x30 8, feat := f 0x38 8, stack := f 0x40 4, maps := maps }
    magic := f 0 4, version := f 4 2, crcOk := crc32c (hb.take 0x5C) = f 0x5C 4, lvlCnt := f 0x28 1, mapCnt := f 0x29 1 }

/-- The reads of check 1 for the record taken at an index, whose slot must still be readable; the header's addresses are relative to
it. WAITCTR and DONECTR are fields of 64 bits: all of them are the
address, so one whose bits 63 to 48 do not repeat bit 47 does not translate (DESIGN CHOICE log 30). -/
def readLaunch (q : Nat) (recVa : Word) (r : BitVec 512) : Op RawLaunch := do
  let _ ← qRead q recVa 64
  let hdr := recordHdr r
  let wait := BitVec.ofNat 64 (field512 r 0x28 0 64)
  let done := BitVec.ofNat 64 (field512 r 0x38 0 64)
  mustAlign hdr 32
  mustAlign wait 8
  mustAlign done 8
  if wait ≠ 0 then mustTranslate q .load false wait
  if done ≠ 0 then mustTranslate q .store true done
  let hb ← qRead q hdr 96
  let levels ← readLevels q (levelEntries hb) (hdr + BitVec.ofNat 64 (hdrField hb 0x24 4))
  let maps ← readMaps q (recordParam r) (hdrField hb 0x2A 2) (mapEntries hb) (hdr + BitVec.ofNat 64 (hdrField hb 0x2C 4))
  return rawLaunch r hb levels maps

/-- A read of the front end that may fail: none when it traps. -/
def attempt {α : Type} (x : Op α) : Op (Option α) :=
  tryCatch (do return some (← x)) fun e => match e with
    | .trap _ => return none
    | e => throw e

/-! ## Checks 2 to 7 -/

/-- The HEADER conditions on a map entry (R214). -/
def mapOk (k : Kernel) (m : ElemMap) : Bool :=
  1 ≤ m.mode && m.mode ≤ 3 && 1 ≤ m.dims && m.dims ≤ 6 && 8 * m.pidx + 8 ≤ k.paramSz
    && m.dims = descRank m.desc && (m.box.take m.dims).all (· ≠ 0) && descOk m.desc

/-- A text offset of a header (R63). -/
def offsetOk (n : Nat) : Bool := n % 2 = 0 && 0x60 ≤ n

/-- Check 2 (R22, R63, R214). -/
def headerOk (r : RawLaunch) : Bool :=
  let k := r.k
  r.magic = 0x4B4C4543 && r.version = 1 && r.crcOk
    && offsetOk k.entry && (k.setOff = 0 || offsetOk k.setOff)
    && 1 ≤ k.nvreg && k.nvreg ≤ 32 && [1, 2, 4, 8, 16].contains k.minRows
    && 1 ≤ r.lvlCnt && r.lvlCnt ≤ 6 && r.mapCnt ≤ 15 && k.levels.all (· ≤ 2) && k.maps.all (mapOk k)

/-- A profile requirement against what the device implements (R1). -/
def profileMeets (want have' : Nat) : Bool :=
  want / 16 % 16 = 0 || (want / 16 % 16 = have' / 16 % 16 && want % 16 ≤ have' % 16)

/-- Check 4 (R1). -/
def profileOk (k : Kernel) : Bool :=
  (List.range 3).all fun i => profileMeets (k.profile / 2 ^ (8 * i) % 256) (deviceProfile / 2 ^ (8 * i) % 256)

/-- Check 5 (R27). -/
def Kernel.product (k : Kernel) : Nat := k.exts.prod

def kPriv (k : Kernel) : Bool := k.flags.testBit 1
def kSplice (k : Kernel) : Bool := k.flags.testBit 0
def kExt (k : Kernel) : Bool := k.feat.testBit 3

/-- The largest V that growth may reach when `banks` are in the core scratchpad (R130). -/
def maxV (k : Kernel) (banks : Nat) : Nat := if kExt k then 64 - banks - 1 else 0

/-- The declared minimums can be met when `banks` pool banks are in the core scratchpad (R63, R130). -/
def minimumsMet (k : Kernel) (banks : Nat) : Bool :=
  banks ≤ 63 && k.clSpb ≤ 8388608 && k.minLen * k.minRows ≤ 8192
    && k.minRows * k.minLen * 4 ≤ capacity k.nvreg (maxV k banks)

/-- A stack slot holds STACK bytes (R290). -/
def stackOk (k : Kernel) (q : Queue) : Bool := k.stack = 0 || (q.cstklog ≠ 0 && k.stack ≤ 2 ^ q.cstklog)

/-- Does a core in service remain (R192)? -/
def State.anyCore (s : State) : Bool := (List.range 512).any fun h => !isOff (s.lane h)

/-- Check 7 (R63, R130, R290). -/
def resourceOk (s : State) (q : Queue) (k : Kernel) : Bool :=
  minimumsMet k (banksFor k.coreSp) && stackOk k q && s.anyCore

/-! ## Byte ranges of tensors (R214) -/

/-- Dense, row-major and unsharded (condition 6 of Table 12-2). -/
def isDense (d : BitVec 512) : Bool :=
  let r := descRank d
  !descOt d && (List.range 6).all (fun i => descSh d i = 0)
    && descStr d (r - 1) = descEsz d
    && (List.range (r - 1)).all fun i => descStr d i = descStr d (i + 1) * descExt d (i + 1)

/-- The addresses of a tensor's elements, with the owner table as read at validation. -/
def tensorAny (d : BitVec 512) (owners : List Nat) (p : Word → Bool) : Bool :=
  (List.range (denseCount d)).any fun n => p (descAddr d (fun o => owners.getD o 0) (unflatten (descExts d) n))

/-- Do two runs of bytes share one? -/
def runsMeet (a : Word) (n : Nat) (b : Word) (m : Nat) : Bool :=
  n ≠ 0 && m ≠ 0 && ((a - b).toNat < m || (b - a).toNat < n)

/-- Do the byte ranges of two tensors overlap? -/
def rangesMeet (d1 : BitVec 512) (o1 : List Nat) (d2 : BitVec 512) (o2 : List Nat) : Bool :=
  if isDense d1 && isDense d2 then
    runsMeet (sext48 (descBase d1)) (denseCount d1 * descEsz d1) (sext48 (descBase d2)) (denseCount d2 * descEsz d2)
  else tensorAny d1 o1 fun a => tensorAny d2 o2 fun b => runsMeet a (descEsz d1) b (descEsz d2)

def mapsMeet (m n : ElemMap) : Bool := rangesMeet m.desc m.owners n.desc n.owners

/-- Check 6 on the record at an index: entries of earlier records (R228). -/
def touchesElided (q : Queue) (idx : Nat) (k : Kernel) : Bool :=
  k.maps.any fun m => q.elisions.any fun e =>
    e.recIdx ≠ idx && idxAtLeast idx e.recIdx && rangesMeet m.desc m.owners e.desc e.owners

/-- The first of checks 2 to 7 that fails, as its cause. -/
def firstFailure (s : State) (q : Queue) (idx : Nat) (r : RawLaunch) : Option Nat :=
  if !headerOk r then some 0x01
  else if kPriv r.k && !q.cpriv then some 0x07
  else if !profileOk r.k then some 0x02
  else if 2 ^ 48 ≤ r.k.product then some 0x03
  else if touchesElided q idx r.k then some 0x05
  else if !resourceOk s q r.k then some 0x04
  else none

/-- The record at an index, as its slot stood when TAIL passed it; none where that could not be read (R322). One whose package had not
answered by then is read now (DESIGN CHOICE log 13). -/
def recordTaken (q idx : Nat) : Op (Option (BitVec 512)) := do
  let qu := (← get).queue q
  if qu.unreadable.contains idx then return none
  else match qu.taken.get? idx with
    | some r => return some r
    | none => attempt (do return BitVec.ofNat 512 (← qReadNat q (qu.recordAt idx) 64))

/-- Validation of the record at an index of a queue (R52): the failing cause, or the kernel. -/
def validate (q idx : Nat) : Op (Nat ⊕ Kernel) := do
  let s ← get
  let qu := s.queue q
  match ← recordTaken q idx with
  | none => return .inl 0x06
  | some rec =>
    match ← attempt (readLaunch q (qu.recordAt idx) rec) with
    | none => return .inl 0x06
    | some r => match firstFailure s qu idx r with
      | some c => return .inl c
      | none => return .inr r.k

/-! ## Keys and iterations (R23, R24) -/

def spatial (k : Kernel) : List Nat := (k.levels.zip k.exts).filterMap fun (l, e) => if l = 0 then none else some e
def temporal (k : Kernel) : List Nat := (k.levels.zip k.exts).filterMap fun (l, e) => if l = 0 then some e else none

/-- Hart keys of a launch, and iterations of each. -/
def keyCount (k : Kernel) : Nat := if k.product = 0 then 0 else (spatial k).prod
def iterCount (k : Kernel) : Nat := if k.product = 0 then 0 else (temporal k).prod

/-- Interleave temporal and spatial indices in level order. -/
def weave : List Nat → List Nat → List Nat → List Nat
  | [], _, _ => []
  | l :: ls, ts, ks => if l = 0 then ts.headD 0 :: weave ls ts.tail ks else ks.headD 0 :: weave ls ts ks.tail

/-- Iteration number `n` of a key, in ascending IDXLIN order (R24). -/
def iterAt (k : Kernel) (key : List Nat) (n : Nat) : List Nat := weave k.levels (unflatten (temporal k) n) key

/-- Is a tuple a key of the launch? -/
def isKey (k : Kernel) (key : List Nat) : Bool :=
  keyCount k ≠ 0 && key.length = (spatial k).length && (key.zip (spatial k)).all fun (i, e) => i < e

/-- IDXLIN (R23). -/
def idxLin (exts iter : List Nat) : Nat := (iter.zip exts).foldl (fun n (i, e) => n * e + i) 0

/-- The compute die that an iteration of a key runs on, when the kernel has a level over dies (R24). -/
def dieOf (k : Kernel) (key : List Nat) : Option Nat :=
  let sp := (k.levels.zip k.exts).filter (·.1 ≠ 0)
  let ds := (sp.zip key).filter fun p => p.1.1 = 2
  if ds = [] then none else some (ds.foldl (fun n (p, i) => n * p.2 + i) 0 % 4)

/-! ## Runs of a key (R24, R221) -/

/-- One run of a body: its position in the key's order, whether it is kernel B's, its iteration, the spliced step. -/
structure BodyRun where
  pos : Nat
  inB : Bool
  iter : List Nat
  u : Nat
  j : Nat
  deriving DecidableEq, Repr

def temporalInner (k : Kernel) : Bool := k.levels.getLastD 0 = 0
def innerExt (k : Kernel) : Nat := k.exts.getLastD 1

/-- Steps of a key of a pair: (settings of the other levels) × (EXTt + δ) when level t is temporal, else one for
each iteration of the key (R221). -/
def pairSteps (a : Kernel) (p : Pair) : Nat :=
  if temporalInner a then iterCount a / innerExt a * (innerExt a + p.lag) else iterCount a

/-- Does an iteration lie within a kernel's extents? -/
def inExts (k : Kernel) (iter : List Nat) : Bool := iter.length = k.exts.length && (iter.zip k.exts).all fun (i, e) => i < e

/-- The run at position `2 step + body` of a key of a pair, if that step runs that body (R221). -/
def pairRunAt (a : Kernel) (p : Pair) (key : List Nat) (pos : Nat) : Option BodyRun :=
  let step := pos / 2
  let inB := pos % 2 = 1
  let e := innerExt a
  let (u, j) := if temporalInner a then (step / (e + p.lag), step % (e + p.lag)) else (step, key.getLastD 0)
  let at' (i : Nat) : List Nat := if temporalInner a then withInner (iterAt a key (u * e)) i else iterAt a key step
  if !inB then (if j < e then some { pos := pos, inB := false, iter := at' j, u := u, j := j } else none)
  else if p.lag ≤ j && inExts p.b (at' (j - p.lag)) then
    some { pos := pos, inB := true, iter := at' (j - p.lag), u := u, j := j }
  else none

/-- The first run of a key of a pair at or after a position. -/
def pairRunFrom (a : Kernel) (p : Pair) (key : List Nat) : Nat → Nat → Option BodyRun
  | 0, _ => none
  | fuel + 1, pos =>
    if 2 * pairSteps a p ≤ pos then none
    else match pairRunAt a p key pos with
      | some r => some r
      | none => pairRunFrom a p key fuel (pos + 1)

/-- The next run of a key from a position on, if one remains. -/
def Launch.runFrom (l : Launch) (key : List Nat) (pos : Nat) : Option BodyRun :=
  match l.pair with
  | some p => pairRunFrom l.a p key 16 pos
  | none => if pos < iterCount l.a then some { pos := pos, inB := false, iter := iterAt l.a key pos, u := pos, j := 0 } else none

/-- How far a key has come; a key nothing has touched is at its start. -/
def Launch.keyState (l : Launch) (key : List Nat) : KeyState :=
  (l.keys.find? (·.key = key)).getD { key := key, nextPos := 0, holder := none }

def Launch.setKey (l : Launch) (v : KeyState) : Launch :=
  { l with keys := l.keys.filter (·.key ≠ v.key) ++ [v] }

/-- Has every run of a key been given to a hart? -/
def Launch.keyGiven (l : Launch) (v : KeyState) : Bool := (l.runFrom v.key v.nextPos).isNone

/-- Has every iteration of the launch been given (R50)? -/
def Launch.distributed (l : Launch) : Bool := (l.keys.filter l.keyGiven).length = keyCount l.a

/-- Has every iteration of the launch completed (R32)? -/
def Launch.finished (l : Launch) : Bool :=
  (l.keys.filter fun v => l.keyGiven v && v.holder.isNone).length = keyCount l.a

/-! ## Starting and stopping at a record -/

/-- The index after `h`, past records that ended with a pair (R220). -/
def nextHead : Nat → List Nat → BitVec 32 → BitVec 32
  | 0, _, h => h
  | n + 1, consumed, h => if consumed.contains h.toNat then nextHead n consumed (h + 1) else h

/-- The head moves past its record; barriers it passes are discarded (R232). -/
def Queue.advanceHead (q : Queue) : Queue :=
  let h := nextHead (q.consumed.length) q.consumed (q.head + 1)
  { q with
    head := h
    state := .waiting
    consumed := q.consumed.filter fun i => idxAtLeast i h.toNat
    unreadable := q.unreadable.filter fun i => idxAtLeast i h.toNat
    barriers := q.barriers.filter fun b => idxAtLeast b h.toNat }

/-- The queue stops at its head record with a cause (R52). -/
def stopHead (q pair cause : Nat) (failed : Option (Nat × Nat × Nat)) (recIdx : Nat) : Op Unit := modify fun s =>
  queueError q recIdx pair 0 cause (s.setQueue q { s.queue q with state := .stopped pair failed })

/-- The head moves past launch `m`, which has begun there and runs on (R50, R220). -/
def Queue.passBegun (q : Queue) (m : Nat) (l : Launch) : Queue :=
  Queue.advanceHead { q with consumed := q.consumed ++ l.pairIdx, overlapped := q.overlapped ++ [m] }

/-- May the record after the head record begin while that one runs (R50, R220)? -/
def mayOverlap (l : Launch) : Bool :=
  l.a.overlap && (match l.pair with | some p => p.b.overlap | none => true) && l.distributed

/-- Does an index lie between the two records of a pair? Such a record begins only after the pair completes (R220). -/
def Launch.between (l : Launch) (i : Nat) : Bool := idxDist i l.recIdx < l.dist

/-- May the record at the head begin beside every launch of an earlier record that still runs (R50, R220)? -/
def State.mayFollow (s : State) (q : Queue) : Bool :=
  q.overlapped.all fun n => match s.launches.get? n with
    | some l => idxAtLeast l.recIdx q.head.toNat || (mayOverlap l && !l.between q.head.toNat)
    | none => true

/-- The queue once the record at its head may be another: the same one, or past a launch that has begun and sets OVERLAP. -/
def State.nextAtHead (s : State) (qu : Queue) : Option Queue :=
  match qu.state with
  | .waiting => some qu
  | .begun n => match s.launches.get? n with
    | some l => if mayOverlap l && !l.ended then some (qu.passBegun n l) else none
    | none => none
  | _ => none

/-- A record may reach the head (R52): the queue is enabled, a record is announced, the previous one has completed, or
sets OVERLAP and is fully distributed, and no update of the scheduler firmware runs (R299). The queue as it then stands. -/
def State.atHead (s : State) (q : Nat) : Option Queue :=
  match s.nextAtHead (s.queue q) with
  | some qu => if qu.cen ∧ qu.head ≠ qu.tail ∧ s.mayFollow qu ∧ s.firmware.update = .none then some qu else none
  | none => none

/-- Entries that barriers at or below the head remove (R228). -/
def Queue.applyBarriers (q : Queue) : Queue :=
  let bs := q.barriers.filter fun b => idxAtLeast q.head.toNat b
  { q with elisions := q.elisions.filter fun e => !bs.any fun b => !idxAtLeast e.recIdx b }

/-- A launch begins: it gets a number, and the queue records it (R50). -/
def beginLaunch (q : Nat) (k : Kernel) (p : Option Pair) : Op Unit := modify fun s =>
  let qu := s.queue q
  let l : Launch := { queue := q, recIdx := qu.head.toNat, a := k, pair := p, keys := [], left := [], ended := false }
  { s.setQueue q { qu with state := .begun s.nextLaunch } with
    launches := s.launches.put s.nextLaunch l
    nextLaunch := s.nextLaunch + 1 }

/-! ## RECORD_DISPATCH_START -/

/-- The wait counter's value (R51); none when the read fails (R54). -/
def readCounter (q : Nat) (va : Nat) : Op (Option Nat) := attempt (qReadNat q (BitVec.ofNat 64 va) 8)

/-- RECORD_DISPATCH_START (R50, R51, R54, R177): not while an update of the scheduler firmware runs (R299). -/
def dispatchStartOp (q : Nat) : Op Unit := do
  let s ← get
  let qu := s.queue q
  match qu.state with
  | .validated k p =>
    onlyIf (s.firmware.update = .none && qu.cen)
    let dist := (p.map (·.dist)).getD 0
    if qu.overlapped = [] then acquire (qu.prevScope.getD .pkg)
    if k.waitCtr = 0 then beginLaunch q k p
    else
      acquire .sys
      match ← readCounter q k.waitCtr with
      | none => stopHead q dist 0x08 none qu.head.toNat
      | some v =>
        onlyIf (k.waitTgt ≤ v)
        beginLaunch q k p
  | _ => onlyIf false

def execRecordDispatchStart (q : Nat) (s : State) : Outcome := frontEvent q (dispatchStartOp q) s

/-! ## LAUNCH_COMPLETE -/

/-- One atomic addition of 1 by the front end (R32). -/
def qAdd (q : Nat) (va : Nat) : Op Unit := do
  let p ← qTranslate q .store true true (BitVec.ofNat 64 va)
  let s ← get
  set { s with mem := writeUnder p.crypt s.mem p.key (toBytes 8 (ofBytes (readUnder p.crypt s.mem p.key 8) + 1)) }
  breakReservations ((List.range 8).map (p.key + ·))

/-- The addition, and whether it succeeds. -/
def qAddOne (q : Nat) (va : Nat) : Op Bool := return (← attempt (qAdd q va)).isSome

/-- The completion addition at an address; zero is none. -/
def completionAdd (q va : Nat) : Op Bool := if va = 0 then return true else qAddOne q va

/-- The release of a completion at system scope meets the remote writes of the launch, its harts' and its commands', that were not
delivered (R32, R278, R328): once their 4,000 ticks have passed it fails, and the writes are no longer lost without a release. -/
def launchRelease (n : Nat) (sc : Scope) : Op Bool := do
  let s ← get
  if sc = .sys && (s.lost.any fun l => l.writer = Writer.launch n) then
    if s.lost.any fun l => l.writer = Writer.launch n && l.pending s.time then throw .wait
    set { s with lost := s.lost.filter fun l => l.writer ≠ Writer.launch n }
    return false
  else return true

/-- The completion addition of launch `n` at an address, with its release. The store access fault of R278 fails it as the faults
that R54 names do (DESIGN CHOICE log 16). -/
def completeAt (n : Nat) (sc : Scope) (q va : Nat) : Op Bool := do
  if va = 0 then return true
  else if ← launchRelease n sc then completionAdd q va
  else return false

/-- Is the launch ready for its completion addition (R32, R328)? -/
def State.launchDone (s : State) (n : Nat) (l : Launch) : Bool :=
  !l.ended && l.finished
    && !s.harts.any (fun h => h.inLaunch n && (h.status = .running || h.status = .saving))
    && !s.contexts.any (fun c => c.hart.inLaunch n)
    && !s.clusters.any fun p => p.2.scarab.any (·.via.launch = n)

/-- A retired hart goes back to the distributor (R318). -/
def releaseHart (slots : List Nat) (h : Hart) : List Nat :=
  match h.job.bind (·.slot) with
  | some i => slots.filter (· ≠ i)
  | none => slots

/-- The launch leaves the device: its harts, stack slots, reservations and retention slots are released (R145, R318,
R328), and its writes that no release has met are lost and counted (R278). -/
def dropLaunch (n : Nat) (l : Launch) (s : State) : State :=
  let s := s.forget (· = .launch n)
  let mine := s.harts.filter (·.inLaunch n)
  let qu := s.queue l.queue
  let s := s.setQueue l.queue { qu with slots := mine.foldl releaseHart qu.slots }
  let s := s.mapHarts fun h => if h.inLaunch n then h.freed else h
  { s with
    launches := s.launches.drop n
    clusters := s.clusters.map fun (p : Nat × Cluster) => (p.1, { p.2 with
      resvs := p.2.resvs.filter (·.launch ≠ n), gens := p.2.gens.filter (·.launch ≠ n) })
    clusterSaves := s.clusterSaves.filter (·.launch ≠ n)
    pins := s.pins.map fun p => (p.1, p.2.map fun x => x.filter (·.launch ≠ n)) }

/-- The queue goes past a completed launch: its head moves when that is its record, else it was overlapped. -/
def Queue.completed (q : Queue) (n : Nat) (sc : Scope) (pairDist : Option Nat) : Queue :=
  let q := { q with overlapped := q.overlapped.filter (· ≠ n), prevScope := some sc }
  if q.state = .begun n then
    match pairDist with
    | some d => Queue.advanceHead { q with consumed := q.consumed ++ [(q.head + BitVec.ofNat 32 d).toNat] }
    | none => q.advanceHead
  else q

/-- After a failed addition the queue stops at the next record, RECIDX naming the completed one (R54): past a record that has
begun under OVERLAP at the head, which runs on and is not dispatched again (DESIGN CHOICE log 16). -/
def stopAfter (q n recIdx pair ctr : Nat) : Op Unit := do
  let s ← get
  match s.headLaunch q with
  | some (m, l) => modQueue q fun qu => if m = n then qu else qu.passBegun m l
  | none => pure ()
  stopHead q pair 0x08 (some (ctr, recIdx, pair)) recIdx

def scopeOf (k : Kernel) : Scope := if k.sysrel then .sys else .pkg

def launchCompleteOp (n : Nat) : Op Unit := do
  let s ← get
  match s.launches.get? n with
  | none => onlyIf false
  | some l =>
    onlyIf (l.pair.isNone && s.launchDone n l)
    let ok ← completeAt n (scopeOf l.a) l.queue l.a.doneCtr
    modify (dropLaunch n l)
    modQueue l.queue (·.completed n (scopeOf l.a) none)
    if !ok then stopAfter l.queue n l.recIdx 0 l.a.doneCtr

/-- The queue of a launch on the device. -/
def State.queueOfLaunch (s : State) (n : Nat) : Nat := ((s.launches.get? n).map (·.queue)).getD 0

/-- LAUNCH_COMPLETE (R32, R54, R328). -/
def execLaunchComplete (launch : Nat) (s : State) : Outcome := frontEvent (s.queueOfLaunch launch) (launchCompleteOp launch) s

/-- PAIR_COMPLETE (R54, R178, R229): the producer's addition, then the consumer's. -/
def pairCompleteOp (n : Nat) : Op Unit := do
  let s ← get
  match s.launches.get? n with
  | none => onlyIf false
  | some l => match l.pair with
    | none => onlyIf false
    | some p =>
      onlyIf (s.launchDone n l)
      let okA ← completeAt n (scopeOf l.a) l.queue l.a.doneCtr
      let okB ← (if okA then completeAt n (scopeOf p.b) l.queue p.b.doneCtr else return false)
      modify (dropLaunch n l)
      modQueue l.queue (·.completed n (scopeOf p.b) (some p.dist))
      if !okB then stopAfter l.queue n l.recIdx p.dist (if okA then p.b.doneCtr else l.a.doneCtr)

def execPairComplete (launch : Nat) (s : State) : Outcome := frontEvent (s.queueOfLaunch launch) (pairCompleteOp launch) s

end Sys2Proof.Machine
end

