-- ==== Sys2Proof/Machine/Splice.lean ====
section
/-!
DEFINITION. The Conjunction (R216 to R223, R227, R228): when two launches are spliced, and a record's arrival at its
queue's head (R52).
-/

namespace Sys2Proof.Machine

/-- A record of the window as it can be read at the moment of inspection: its kernel, with the map entries that can be read,
when the record and the header can; whether the whole map table can. -/
structure WinRec where
  idx : Nat
  raw : Option Kernel
  tableOk : Bool
  deriving DecidableEq, Repr

/-- The window after the head: the next seven announced records (R216). -/
def Queue.window (q : Queue) : List Nat :=
  let n := idxDist q.tail.toNat q.head.toNat
  ((List.range 7).filter fun i => i + 1 < n).map fun i => (q.head + BitVec.ofNat 32 (i + 1)).toNat

/-- The map entries that can be read, each with its parameter word, descriptor and owner table; an entry whose descriptor
cannot be read names no range. Whether every entry of the table itself could be read. (DEDUCED log 22) -/
def readSome (q : Nat) (param : Word) (paramSz : Nat) : Nat → Word → Op (List ElemMap × Bool)
  | 0, _ => return ([], true)
  | n + 1, va => do
    let bs ← attempt (qRead q va 96)
    let m ← attempt (readMap q param paramSz va)
    let (ms, ok) ← readSome q param paramSz n (va + 96)
    return (m.toList ++ ms, ok && bs.isSome)

/-- The header of a record taken, as it stands, without the checks of Table 02-5; its slot must still be readable. -/
def readHeader (q : Nat) (recVa : Word) (r : BitVec 512) : Op (List Byte) := do
  let _ ← qRead q recVa 64
  qRead q (recordHdr r) 96

/-- Read a record of the window, as far as it can be read (R217, R227). -/
def readRaw (q idx : Nat) : Op WinRec := do
  let s ← get
  let qu := s.queue q
  match ← recordTaken q idx with
  | none => return { idx := idx, raw := none, tableOk := false }
  | some r => match ← attempt (readHeader q (qu.recordAt idx) r) with
    | none => return { idx := idx, raw := none, tableOk := false }
    | some hb =>
      let at' (off : Nat) := recordHdr r + BitVec.ofNat 64 (hdrField hb off 4)
      let levels ← attempt (readLevels q (levelEntries hb) (at' 0x24))
      let (maps, ok) ← readSome q (recordParam r) (hdrField hb 0x2A 2) (mapEntries hb) (at' 0x2C)
      return { idx := idx, raw := some (rawLaunch r hb (levels.getD []) maps).k, tableOk := ok }

def readWindow (q : Nat) : List Nat → Op (List WinRec)
  | [] => return []
  | i :: is => do
    let r ← readRaw q i
    let rs ← readWindow q is
    return r :: rs

/-! ## Maps -/

/-- The map entries that name a tensor (R214). -/
def Kernel.goodMaps (k : Kernel) : List ElemMap := k.maps.filter (mapOk k)

/-- Has a descriptor a byte range: a rank and an element type (R154, R214)? -/
def hasRange (d : BitVec 512) : Bool := 1 ≤ descRank d && descRank d ≤ 6 && descEnc d ≠ 3

/-- The map entries of a record of the window that have a range, whether or not they pass check 2: Table 12-2 and R227 ask for the
ranges alone. -/
def Kernel.rangeMaps (k : Kernel) : List ElemMap := k.maps.filter fun m => 8 * m.pidx + 8 ≤ k.paramSz && hasRange m.desc

def reads (m : ElemMap) : Bool := m.mode = 1 || m.mode = 3
def writes (m : ElemMap) : Bool := m.mode = 2 || m.mode = 3

/-- Two descriptors name the same tensor (R217). -/
def sameTensor (d e : BitVec 512) : Bool :=
  descBase d = descBase e && descEnc d = descEnc e && descRank d = descRank e && descExts d = descExts e
    && (List.range (descRank d)).all fun i => descStr d i = descStr e i

def ElemMap.coef (m : ElemMap) (d l : Nat) : Int := m.mat.getD (6 * d + l) 0

/-- A tiling map (R218). Coefficients of levels at or above L, and of rows at or above DIMS, take no part in an origin, and they do
not count (DEDUCED log 22). -/
def isTiling (k : Kernel) (m : ElemMap) : Bool :=
  let ls := List.range k.levels.length
  let ds := List.range m.dims
  ds.all (fun d => (ls.filter fun l => m.coef d l ≠ 0).length ≤ 1)
    && ls.all (fun l => k.exts.getD l 0 ≤ 1 || (ds.filter fun d => m.coef d l ≠ 0).length = 1)
    && ds.all fun d => ls.all fun l => m.coef d l = 0 || m.coef d l = m.box.getD d 0

/-- The composition patterns of Table 12-3, with their lag. -/
def pattern (a b : Kernel) (ma mb : ElemMap) : Option Nat :=
  let t := a.levels.length - 1
  let sameForm := ma.mat = mb.mat && ma.off = mb.off && ma.dims = mb.dims
  if a.levels ≠ b.levels || !sameForm then none
  else if ma.box = mb.box then
    if (b.exts.zip a.exts).all fun (x, y) => x ≤ y then some 0 else none
  else if a.exts ≠ b.exts || !temporalInner a then none
  else [1, 2].find? fun n => (List.range ma.dims).any fun d =>
    let c := ma.coef d t
    c ≠ 0 && (mb.box.getD d 0 : Int) = c * (1 + (n : Int)) && mb.box = ma.box.set d (mb.box.getD d 0)

/-! ## The conditions of Table 12-2 -/

/-- Condition 1 on one kernel. -/
def mayPair (k : Kernel) : Bool :=
  !k.nosplice && kSplice k && !k.flags.testBit 5 && !kPriv k && !kExt k && !k.isGang

/-- Condition 3 on B's counter, its present value given when it could be read. -/
def waitOk (a b : Kernel) (v : Option Nat) : Bool :=
  b.waitCtr = 0 || (match v with
    | some v => b.waitTgt ≤ v || (b.waitCtr = a.doneCtr && b.waitTgt ≤ v + 1)
    | none => false)

/-- Does any range of one list of maps overlap one of another where either side writes? -/
def clash (ms ns : List ElemMap) : Bool := ms.any fun m => ns.any fun n => (writes m || writes n) && mapsMeet m n

/-- Condition 9: the records between A and B. -/
def betweenOk (between : List WinRec) (b : Kernel) : Bool :=
  between.all fun w => match w.raw with
    | some k => w.tableOk && kSplice k && !clash k.rangeMaps b.goodMaps
    | none => false

/-- Condition 10: apart from T, what A writes and what B touches, what B writes and what A reads. -/
def restOk (a b : Kernel) (t : BitVec 512) : Bool :=
  let as := a.goodMaps.filter fun m => !sameTensor m.desc t
  let bs := b.goodMaps.filter fun m => !sameTensor m.desc t
  as.all fun m => bs.all fun n =>
    !((writes m && mapsMeet m n) || (writes n && reads m && mapsMeet m n))

/-- Condition 11 (R223, R290). -/
def pairFits (s : State) (q : Queue) (a b : Kernel) (ma : ElemMap) (lag : Nat) : Bool :=
  let banks := banksFor a.coreSp + banksFor b.coreSp + banksFor ((lag + 1) * ma.slotBytes)
  let half k := k.stack = 0 || (q.cstklog ≠ 0 && 2 * k.stack ≤ 2 ^ q.cstklog)
  banks ≤ 63 && a.clSpb + b.clSpb ≤ 8388608 && minimumsMet a banks && minimumsMet b banks && half a && half b && s.anyCore

/-- The maps of A and B on T when condition 5 holds. -/
def mapsOn (a b : Kernel) (ma : ElemMap) : Option ElemMap :=
  let on (k : Kernel) := k.goodMaps.filter fun m => sameTensor m.desc ma.desc
  match on a, on b with
  | [m], [n] => if m.mode = 2 && n.mode = 1 && a.trans.testBit m.pidx then some n else none
  | _, _ => none

/-- Every condition of Table 12-2 for A, a candidate B and the tensor of one of A's maps: the pair they form. -/
def pairOn (s : State) (q : Queue) (a : Kernel) (win : List WinRec) (idxB : Nat) (b : Kernel) (v : Option Nat)
    (ma : ElemMap) : Option Pair :=
  let h := q.head.toNat
  let below (i j : Nat) : Bool := idxDist i h < idxDist j h
  match mapsOn a b ma with
  | none => none
  | some mb =>
    match (if isTiling a ma && isDense ma.desc && isDense mb.desc then pattern a b ma mb else none) with
    | none => none
    | some lag =>
      let others := win.filter (·.idx ≠ idxB)
      let meetsT (w : WinRec) (p : ElemMap → Bool) : Bool := match w.raw with
        | some k => k.rangeMaps.any fun m => p m && mapsMeet m ma
        | none => false
      if mayPair a && mayPair b
          && !(q.barriers.any fun b => idxDist b h ≠ 0 && idxDist b h ≤ idxDist idxB h)
          && waitOk a b v && a.pmask &&& b.pmask = 0
          && !(win.any fun w => meetsT w writes)
          && betweenOk (others.filter fun w => below w.idx idxB) b
          && restOk a b ma.desc && pairFits s q a b ma lag then
        some { b := b, dist := idxDist idxB h, lag := lag, mapA := ma, mapB := mb
               materialised := others.any (fun w => meetsT w fun _ => true) || 64 ≤ q.elisions.length }
      else none

/-- The first candidate of those given, in ascending index, that splices with A on some tensor (R216). (DEDUCED log 22) -/
def findPair (q : Nat) (a : Kernel) (win : List WinRec) : List WinRec → Op (Option Pair)
  | [] => return none
  | w :: ws => do
    match ← validate q w.idx with
    | .inl _ => findPair q a win ws
    | .inr b => do
      let v ← (if b.waitCtr = 0 then return none else readCounter q b.waitCtr)
      let s ← get
      match a.goodMaps.findSome? (pairOn s (s.queue q) a win w.idx b v) with
      | some p => return some p
      | none => findPair q a win ws

/-! ## RECORD_REACHES_HEAD -/

/-- The records of the window that may be the consumer: those that belong to no pair yet (R216). -/
def Queue.candidates (q : Queue) (win : List WinRec) : List WinRec := win.filter fun w => !q.consumed.contains w.idx

/-- The entry that an elided tensor makes (R228). -/
def addElision (q : Nat) (p : Option Pair) : Op Unit :=
  match p with
  | some p => if p.materialised then pure () else
      modQueue q fun qu => { qu with elisions := qu.elisions ++ [{ desc := p.mapA.desc, owners := [], recIdx := qu.head.toNat }] }
  | none => pure ()

/-- RECORD_REACHES_HEAD (R52): barriers act, the record is validated, the Conjunction inspects the window. A launch
without iterations begins at once (R26). -/
def reachesHeadOp (q : Nat) : Op Unit := do
  let s ← get
  match s.atHead q with
  | none => onlyIf false
  | some qu =>
    let qu := qu.applyBarriers
    set (s.setQueue q { qu with state := .waiting })
    let h := qu.head.toNat
    match ← validate q h with
    | .inl cause => stopHead q 0 cause none h
    | .inr k =>
      let win ← readWindow q qu.window
      let p ← (if mayPair k then findPair q k win (qu.candidates win) else return none)
      addElision q p
      if k.product = 0 then beginLaunch q k p
      else modQueue q fun qu => { qu with state := .validated k p }

def execRecordReachesHead (q : Nat) (s : State) : Outcome := frontEvent q (reachesHeadOp q) s

end Sys2Proof.Machine
end

