-- ==== Sys2Proof/Machine/Sched.lean ====
section
/-!
DEFINITION. The distributor and the scheduler: entries (R28, R29, R222), giving harts to launches (R24, R25, R130, R211,
R290), NEXT, ITER and END (R318, R320, R327), priorities (R55, R56) and pre-emption requests (R200, R212).
-/

namespace Sys2Proof.Machine

/-- Run an operation with another hart as the present one. -/
def onHart (id : Nat) (x : Op Unit) : Op Unit := do
  let s ← get
  let me := s.hart.id
  modify (·.selectHart id)
  x
  modify (·.selectHart me)

/-! ## Entries -/

/-- The kernel a body belongs to. -/
def Launch.kernel (l : Launch) (inB : Bool) : Kernel :=
  match inB, l.pair with
  | true, some p => p.b
  | _, _ => l.a

/-- x2 at an entry: the top of the stack slot, or of its half in use; zero when the header's STACK is zero (R28, R222,
R290). -/
def stackTop (q : Queue) (l : Launch) (inB : Bool) (slot : Option Nat) : Word :=
  if (l.kernel inB).stack = 0 then 0
  else
    let n := 2 ^ q.cstklog
    let top := (slot.getD 0 + 1) * n
    q.cstkbase + BitVec.ofNat 64 (if l.pair.isSome && !inB then top - n / 2 else top)

/-- Copy the registers that a mask of 32 bits names, but for those `skip` names, from one file into another. -/
def keepMasked (mask : Nat) (skip : List Nat) (src dst : File 64) : File 64 :=
  (List.range 32).foldl (fun d i => if mask.testBit i && !skip.contains i then d.set i (src.get i) else d) dst

/-- x0, x2 and x10 are not kept (R29). -/
def keepX (pmask : Nat) (src dst : File 64) : File 64 := keepMasked pmask [0, 2, 10] src dst
def keepF (pmask : Nat) (src dst : File 64) : File 64 := keepMasked (pmask / 2 ^ 32) [] src dst

/-- The registers that an entry keeps, as they stand: the hart's own, or the kernel's shadow in a pair (R29, R222). -/
def kept (l : Launch) (j : Job) (inB : Bool) (h : Hart) : File 64 × File 64 :=
  match l.pair with
  | none => (h.x, h.f)
  | some _ => if inB then (j.shadowBx, j.shadowBf) else (j.shadowAx, j.shadowAf)

/-- The control state of every entry: the Reset columns of the vector control registers, the bond registers and CHSTEP. -/
def Hart.entryState (h : Hart) : Hart :=
  { h.lightState with rotation := h.rotation, vfflags := 0, bd := List.replicate 16 1, chstep := 0 }

/-- fcsr at an entry: no rule gives it a value (DESIGN CHOICE log 20). -/
def freeFcsr (k : Nat) : BitVec 8 := Config.freeValue k 0 8

/-- The index registers of an iteration; zero during setup (R23, R28). -/
def Hart.setIter (h : Hart) (exts : List Nat) (iter : Option (List Nat)) : Hart :=
  match iter with
  | some it => { h with idx := (List.range 6).map fun l => BitVec.ofNat 32 (it.getD l 0), idxlin := BitVec.ofNat 64 (idxLin exts it) }
  | none => { h with idx := List.replicate 6 0, idxlin := 0 }

/-- Enter a setup (`run` none) or a body of the hart's launch (R28, R29, R222). At a first entry x1 to x31 and f0 to f31
are zero; at the others those that are not kept are undefined. -/
def enter (first inB : Bool) (run : Option BodyRun) : Op Unit := do
  let s ← get
  let h := s.hart
  match h.job, s.launchOf h with
  | some j, some l =>
    let k := l.kernel inB
    let kx ← draw
    let kf ← draw
    let (px, pf) := kept l j inB h
    let x := if first then File.zero else keepX k.pmask px (.undef kx)
    let f := if first then File.zero else keepF k.pmask pf (.undef kf)
    let top := stackTop (s.queue l.queue) l inB j.slot
    let clear ← draw
    modH fun h => (({ h.entryState with
      x := (x.set 2 top).set 10 (BitVec.ofNat 64 k.param)
      f := f
      fcsr := freeFcsr clear
      mode := .u
      pc := BitVec.ofNat 64 (k.hdr + (if run.isNone then k.setOff else k.entry))
      job := some { j with
        inSetup := run.isNone, inB := inB, iter := run.map (·.iter)
        stepU := (run.map (·.u)).getD 0, stepJ := (run.map (·.j)).getD 0 } } : Hart).setIter k.exts (run.map (·.iter)))
    undefAll
  | _, _ => pure ()

/-- The first block of a pair's ring in the pool, and the blocks of one slot (R223). -/
def ringBlocks (l : Launch) (p : Pair) (h : Hart) : Nat × Nat :=
  let (na, nb) := pairBanks l.a p.b
  ((64 - h.sbanks + na + nb) * 64, p.mapA.slotBytes / 256)

/-- Slot (j mod (δ + 1)) becomes unwritten before body A of a step (R221). -/
def clearSlot (l : Launch) (r : BodyRun) (h : Hart) : Hart :=
  match l.pair with
  | none => h
  | some p =>
    if r.inB then h
    else
      let (b, n) := ringBlocks l p h
      { h with pool := freeBlocks (b + r.j % (p.lag + 1) * n) n h.pool }

def modLaunch (n : Nat) (f : Launch → Launch) : Op Unit := modify fun s =>
  match s.launches.get? n with
  | some l => { s with launches := s.launches.put n (f l) }
  | none => s

/-- Give a run of its key to the hart and enter its body. -/
def enterRun (first : Bool) (r : BodyRun) : Op Unit := do
  let s ← get
  match s.hart.job, s.launchOf s.hart with
  | some j, some l =>
    modLaunch j.launch fun l => l.setKey { key := j.key, nextPos := r.pos + 1, holder := some s.hart.id }
    modH (clearSlot l r)
    enter first r.inB (some r)
  | _, _ => pure ()

/-- Banks that the launch's entry gives the core scratchpad (R130, R223). -/
def entryBanks (l : Launch) : Nat :=
  match l.pair with
  | none => banksFor l.a.coreSp
  | some p => banksFor l.a.coreSp + banksFor p.b.coreSp + banksFor ((p.lag + 1) * p.mapA.slotBytes)

/-- A hart as a key gives it to a launch, before its entry (R25, R28, R130, R189, R236, R257): pool boundaries set, its
core scratchpad unwritten with its poison (no rule says what becomes of a poisoned sector that nothing covers: DESIGN CHOICE log 46),
no hook, no grant, the rotation count zero, no clause dispatched yet. -/
def startState (l : Launch) (j : Job) (h : Hart) : Hart :=
  let sb := entryBanks l
  { h with
    status := .running, job := some j, pool := [], clause := none, grant := none, hook := none, hookSave := none
    poolv := BitVec.ofNat 64 (if kExt l.a then (64 - sb - 1) * 256 else 0), pools := BitVec.ofNat 64 sb
    poolc := BitVec.ofNat 64 (64 - sb), rotation := 0, reservation := none, cancel := none }

/-- The job of a hart that takes a key. Its quantum starts now, for another key of the same launch too: R56 gives the quantum to
an assignment, and R25 treats such a hart as newly given to the launch (DESIGN CHOICE log 47). -/
def newJob (n : Nat) (key : List Nat) (slot : Option Nat) (time : Nat) : Job where
  launch := n
  key := key
  inSetup := true
  inB := false
  iter := none
  stepU := 0
  stepJ := 0
  slot := slot
  shadowAx := .zero
  shadowAf := .zero
  shadowBx := .zero
  shadowBf := .zero
  since := time

/-- The setups of a launch in order: kernel B's follows kernel A's (R221). -/
def setups (l : Launch) : List Bool :=
  (if l.a.setOff ≠ 0 then [false] else []) ++ (match l.pair with
    | some p => if p.b.setOff ≠ 0 then [true] else []
    | none => [])

/-- Start a key on the present hart: setup when the launch has one, else the first run (R25, R28, R221). -/
def startKey (n : Nat) (l : Launch) (key : List Nat) (slot : Option Nat) : Op Unit := do
  let s ← get
  let pos := (l.keyState key).nextPos
  modLaunch n fun l => l.setKey { key := key, nextPos := pos, holder := some s.hart.id }
  modH (startState l (newJob n key slot s.time))
  match setups l, l.runFrom key pos with
  | b :: _, _ => enter true b none
  | [], some r => enterRun true r
  | [], none => pure ()

/-! ## Keys that a hart may take -/

/-- May a hart of a die take a key now? -/
def keyFree (l : Launch) (die : Nat) (key : List Nat) : Bool :=
  let v := l.keyState key
  isKey l.a key && v.holder.isNone && (l.runFrom key v.nextPos).isSome && (match dieOf l.a key with
    | some d => d = die
    | none => true)

/-- A key a hart may take, looked for from number `n` on, cyclically. -/
def findKey (l : Launch) (die total : Nat) : Nat → Nat → Option (List Nat)
  | 0, _ => none
  | fuel + 1, n =>
    let key := unflatten (spatial l.a) (n % total)
    if keyFree l die key then some key else findKey l die total fuel (n + 1)

/-- The distributor's choice of another key for a hart (R25, R31). -/
def anotherKey (l : Launch) (hart die : Nat) : Op (Option (List Nat)) := do
  let k ← draw
  let total := keyCount l.a
  return if l.a.isGang || l.left.contains hart || total = 0 then none else findKey l die total total (Config.freeChoice k 0)

/-! ## Retirement -/

/-- The hart retires from its launch (R31, R60, R236, R318): its key passes on, its grant is released, a pending request
is discarded. A hart without a launch goes back to the distributor (DESIGN CHOICE log 17). -/
def retireHart : Op Unit := do
  let h ← getH
  match h.job with
  | some j =>
    modLaunch j.launch fun l => l.setKey { l.keyState j.key with holder := none }
    modify (State.retireFrom (.hart h.id) j.launch)
    modH Hart.retired
  | none => modH Hart.freed

/-! ## NEXT, ITER, END -/

/-- The next run of a key that a hart takes; a hart that has executed END takes none (R31). -/
def Launch.runFor (l : Launch) (hart : Nat) (key : List Nat) (pos : Nat) : Option BodyRun :=
  if l.left.contains hart then none else l.runFrom key pos

/-- NEXT copies the ended body's persistent registers into its kernel's shadow (R222). -/
def saveShadow (l : Launch) (j : Job) (h : Hart) : Job :=
  match l.pair with
  | none => j
  | some _ =>
    let k := l.kernel j.inB
    let x := keepX k.pmask h.x .zero
    let f := keepF k.pmask h.f .zero
    if j.inB then { j with shadowBx := x, shadowBf := f } else { j with shadowAx := x, shadowAf := f }

/-- What NEXT does (R222, R327): it answers whether the hart entered a setup or a body. -/
def nextOp : Op Bool := do
  let s ← get
  let h := s.hart
  match h.job, s.launchOf h with
  | some j, some l =>
    let j := saveShadow l j h
    modH fun h => { h with job := some j, clause := none }
    if h.clause.isSome then undefClause
    if j.inSetup && !j.inB && (setups l).contains true then
      enter false true none
      return true
    else match l.runFor h.id j.key (l.keyState j.key).nextPos with
      | some r =>
        enterRun false r
        return true
      | none =>
        modLaunch j.launch fun l => l.setKey { l.keyState j.key with holder := none }
        let s ← get
        let l := (s.launches.get? j.launch).getD l
        match ← anotherKey l h.id h.die with
        | some key =>
          startKey j.launch l key j.slot
          return true
        | none =>
          retireHart
          return false
  | _, _ =>
    retireHart
    return false

/-- NEXT (R327, R329): inside a hook it ends the launch; a pending request is taken at the entry it makes (R58). -/
def execNext (s : State) : Outcome :=
  if s.hart.hookSave.isSome then .next (endOwnLaunch 8 s)
  else match nextOp.run s with
    | .ok entered s' =>
      let s' := s'.retire
      .next (if entered ∧ s.hart.requestPending then preempt false false s'.hart.pc 0 s' else s')
    | .error _ s' => .next s'

/-- What END does: the hart retires, and takes no more iterations of the launch (R31, R318). -/
def endKernelOp : Op Unit := do
  let h ← getH
  match h.job with
  | some j => modLaunch j.launch fun l => { l with left := h.id :: l.left }
  | none => pure ()
  modH Hart.retire
  retireHart

/-- END (R318, R329). (DEDUCED log 27) -/
def execEnd (s : State) : Outcome :=
  if s.hart.hookSave.isSome then .next (endOwnLaunch 8 s)
  else event endKernelOp s

/-- ITER (R30, R320). -/
def iterOp (rd : BitVec 5) : Op Unit := do
  let s ← get
  let h := s.hart
  modH fun h => { h with freshConvoy := true }
  match h.job, s.launchOf h with
  | some j, some l =>
    match (if j.inSetup || l.pair.isSome then none else l.runFor h.id j.key (l.keyState j.key).nextPos) with
    | some r =>
      modLaunch j.launch fun l => l.setKey { key := j.key, nextPos := r.pos + 1, holder := some h.id }
      modH fun h => ({ h with job := some { j with iter := some r.iter, stepU := r.u, stepJ := r.j } } : Hart).setIter l.a.exts (some r.iter)
      writeX rd 1
    | none => writeX rd 0
  | _, _ => writeX rd 0
  advance 4

def execIter (rd : BitVec 5) (s : State) : Outcome := finish (iterOp rd) s

/-! ## Reservations in a cluster -/

/-- The sizes of a launch's cluster reservations: kernel A's, kernel B's (R134, R223). -/
def resvSizes (l : Launch) : List (Bool × Nat) :=
  (false, clusterLimit l false) :: (if l.pair.isSome then [(true, clusterLimit l true)] else [])

/-- Reservations from a base on, one after another. -/
def layResvs (n base : Nat) : List (Bool × Nat) → List Resv
  | [] => []
  | (b, z) :: t => { launch := n, isB := b, base := base, size := z } :: layResvs n (base + z) t

/-- Does a base hold the reservations beside those that stand? -/
def baseFits (c : Cluster) (base total : Nat) : Bool :=
  base % 256 = 0 && base + total ≤ 8388608 && c.resvs.all fun r => base + total ≤ r.base || r.base + r.size ≤ base || total = 0 || r.size = 0

/-- A saved block as a restore writes it (R205). -/
def restoredBlock (time k : Nat) (b : SavedBlock) : Block :=
  match b.content with
  | some v => { v with live := true, expired := false, stamp := BitVec.ofNat 10 time }
  | none => { live := true, expired := true, stamp := BitVec.ofNat 10 time, data := .undef k, poison := [] }

/-- A restore: exactly the image's blocks and markers in `count` blocks from `first` (R205); what stood there goes, its poison too
(DESIGN CHOICE log 46). -/
def restoreBlocks (time k first count : Nat) (bs : List SavedBlock) (t : Tab Block) : Tab Block :=
  bs.foldl (fun t b => t.put (first + b.block) (restoredBlock time k b)) (t.filter fun p => p.1 < first || first + count ≤ p.1)

/-- Has the save of a launch's reservation in a cluster started and not ended? -/
def State.savePending (s : State) (n cl : Nat) : Bool := s.clusterSaves.any fun v => v.launch = n && v.cluster = cl && !v.saved

/-- Place the launch's reservations in a cluster, unwritten, or restored from their save, never while that save still runs
(R28, R134, R204). -/
def placeResvs (cl n base : Nat) (l : Launch) : Op Unit := do
  let s ← get
  let c := s.cluster cl
  let rs := layResvs n base (resvSizes l)
  let total := (rs.map (·.size)).sum
  onlyIf (!s.savePending n cl)
  if c.resvs.any (·.launch = n) then pure ()
  else
    let save := s.clusterSaves.find? fun v => v.launch = n && v.cluster = cl
    onlyIf (baseFits c base total)
    let k ← draw
    let spad := restoreBlocks s.time k (base / 256) (total / 256) ((save.map (·.blocks)).getD []) c.spad
    modify fun s => { s.setCluster cl { c with resvs := c.resvs ++ rs, spad := spad } with
      clusterSaves := s.clusterSaves.filter fun v => !(v.launch = n && v.cluster = cl) }

/-- The lowest base that fits. -/
def firstFit (c : Cluster) (total : Nat) : Option Nat :=
  ((0 :: c.resvs.map fun r => r.base + r.size).filter fun b => baseFits c b total).min?

/-! ## HART_ASSIGN and GANG_DISPATCH -/

/-- Does the launch need stack slots (R290)? -/
def needsSlot (l : Launch) : Bool := l.a.stack ≠ 0 || (match l.pair with | some p => p.b.stack ≠ 0 | none => false)

/-- Take a stack slot of the queue (R290). -/
def takeSlot (q : Nat) (l : Launch) (slot : Nat) : Op (Option Nat) := do
  if needsSlot l then
    let s ← get
    onlyIf (slot < 1024 && !(s.queue q).slots.contains slot)
    modQueue q fun qu => { qu with slots := slot :: qu.slots }
    return some slot
  else return none

/-- The queue receives a hart: its effective priority goes back to its base (R55). -/
def Queue.received (q : Queue) : Queue := { q with prio := q.cprio, age := 0, waited := 0 }

/-- Have 2,000 qualifying ticks accumulated, so that the queue ages a level (R55)? -/
def Queue.levelDue (q : Queue) : Bool := 2000 ≤ q.age && q.prio < 6

/-- The effective priority (R55, R7): ticks decide it, so a level that is due counts before QUEUE_AGEING is brought. -/
def Queue.eff (q : Queue) : Nat := if q.levelDue then q.prio + 1 else q.prio

/-- A hart as it newly comes to a launch: no request, VPOISCNT zero; the runtime enables interrupt 16 and the counters
(DEDUCED log 11). -/
def Hart.newlyGiven (h : Hart) : Hart :=
  { h with
    preq := 0, vpoiscnt := 0, mip := setBit h.mip 16 false, mie := setBit h.mie 16 true, mcounteren := 0xFFFFFFFF
    remoteFault := none, stopAt := none }

/-- A free hart of a core in service (R192). -/
def State.hartFree (s : State) (id : Nat) : Bool := id < 512 && (s.hartOf id).status = .free && !isOff (s.lane id)

/-- Are the reservations of a launch in a cluster, or is there room for them, and no save of them under way? -/
def State.roomFor (s : State) (cl n : Nat) (l : Launch) : Bool :=
  let c := s.cluster cl
  !s.savePending n cl && (c.resvs.any (·.launch = n) || (firstFit c ((resvSizes l).map (·.2)).sum).isSome)

/-- The free harts of a cluster. -/
def State.freeHarts (s : State) (cl : Nat) : List Nat := ((List.range 4).map (4 * cl + ·)).filter s.hartFree

/-- Does a gang that has been given its harts stand in a cluster with every member running or gone? There a hart may take the
iterations that a member left by END (R24, R31, R211), and nowhere else: R31 says other harts and R211 one cluster, and once every
hart of that cluster has left by END nothing takes them (DESIGN CHOICE log 47). -/
def State.gangStands (s : State) (n cl : Nat) (l : Launch) : Bool :=
  l.keys ≠ [] && (s.cluster cl).resvs.any (·.launch = n) && !s.contexts.any (·.hart.inLaunch n)

/-- May a hart be given one key of a launch: not the first harts of a gang, which come all at once (R211)? -/
def State.mayGiveOne (s : State) (n cl : Nat) (l : Launch) : Bool := !l.a.isGang || s.gangStands n cl l

/-- Could a free hart take a key of a launch: an ungiven one, with a stack slot for each hart that comes and, for a gang that
begins, a free hart for each key (R211, R290)? -/
def State.keyUsable (s : State) (n : Nat) (l : Launch) (h : Hart) : Bool :=
  let harts := if s.mayGiveOne n h.cluster l then 1 else keyCount l.a
  !l.left.contains h.id && (findKey l h.die (keyCount l.a) (keyCount l.a) 0).isSome
    && (!needsSlot l || (s.queue l.queue).slots.length + harts ≤ 1024)
    && (s.mayGiveOne n h.cluster l || (l.keys = [] && harts ≤ (s.freeHarts h.cluster).length))

/-- May a context resume: its save has ended, it has not failed, and of a gang no hart still runs and the cluster reservation has
been saved and released (R204, R212)? So a context that a core out of service leaves (R192) waits until no other member of its gang
runs, and asks for no request to these (DESIGN CHOICE log 47). -/
def State.contextReady (s : State) (n : Nat) (l : Launch) (c : Context) : Bool :=
  c.hart.inLaunch n && c.saved && c.status ≠ 2
    && (!l.a.isGang || (!(s.cluster c.cluster).resvs.any (fun r => r.launch = n && r.size ≠ 0)
      && !s.harts.any fun h => h.inLaunch n && (h.status = .running || h.status = .saving)))

/-- Could a free hart take a context of a launch: one of its cluster that is ready, with a free hart for each context of a gang
(R212)? -/
def State.contextUsable (s : State) (n : Nat) (l : Launch) (h : Hart) : Bool :=
  let mine := s.contexts.filter (·.hart.inLaunch n)
  (s.contexts.any fun c => s.contextReady n l c && c.cluster = h.cluster)
    && (!l.a.isGang || mine.length ≤ (s.freeHarts h.cluster).length)

/-- Could a free hart take work of a queue (DEDUCED log 26)? -/
def State.usable (s : State) (q : Nat) (h : Hart) : Bool :=
  s.launches.any fun (n, l) => l.queue = q && !l.ended && s.roomFor h.cluster n l && (s.keyUsable n l h || s.contextUsable n l h)

/-- How many places after the queue served last a queue stands (R56). -/
def State.turnsAway (s : State) (q : Nat) : Nat := (q + 127 - s.lastServed) % 64

/-- Is it a queue's turn to receive a free hart: the highest effective priority, in round-robin order (R56)? -/
def State.turnOf (s : State) (q id : Nat) : Bool :=
  let h := s.hartOf id
  s.usable q h && s.queues.all fun (r, qu) =>
    !s.usable r h || qu.eff < (s.queue q).eff || (qu.eff = (s.queue q).eff && s.turnsAway q ≤ s.turnsAway r)

/-- A queue receives a hart (R55, R56). -/
def serveQueue (q : Nat) : Op Unit := do
  modQueue q Queue.received
  modify fun s => { s with lastServed := q }

/-- Give one hart one key. -/
def giveHart (id n : Nat) (key : List Nat) (slot base : Nat) : Op Unit := do
  let s ← get
  match s.launches.get? n with
  | none => onlyIf false
  | some l =>
    let h := s.hartOf id
    onlyIf (s.hartFree id && !l.ended && !l.left.contains id && keyFree l h.die key)
    placeResvs h.cluster n base l
    let sl ← takeSlot l.queue l slot
    serveQueue l.queue
    onHart id (do
      modH Hart.newlyGiven
      startKey n l key sl)

/-- HART_ASSIGN (R24, R28, R55, R56, R130, R290): the distributor's choices are the event's. -/
def hartAssignOp (id n : Nat) (key : List Nat) (slot base : Nat) : Op Unit := do
  let s ← get
  match s.launches.get? n with
  | none => onlyIf false
  | some l =>
    onlyIf (s.mayGiveOne n (id / 4) l && s.turnOf l.queue id)
    giveHart id n key slot base

def execHartAssign (hart launch : Nat) (key : List Nat) (slot resv : Nat) (s : State) : Outcome :=
  event (hartAssignOp hart launch key slot resv) s

/-- Give each hart of a list the next key of a gang. -/
def giveGang (n base : Nat) : List Nat → List Nat → List (List Nat) → Op Unit
  | [], _, _ => pure ()
  | h :: hs, slots, keys => do
    giveHart h n (keys.headD []) (slots.headD 0) base
    giveGang n base hs slots.tail keys.tail

/-- GANG_DISPATCH (R211): all keys at once, to distinct harts of one cluster. -/
def gangDispatchOp (n : Nat) (harts slots : List Nat) (base : Nat) : Op Unit := do
  let s ← get
  match s.launches.get? n with
  | none => onlyIf false
  | some l =>
    let keys := (List.range (keyCount l.a)).map (unflatten (spatial l.a))
    onlyIf (l.a.isGang && s.turnOf l.queue (harts.headD 0) && l.keys = [] && harts.length = keys.length && decide harts.Nodup
      && harts.all fun h => h / 4 = harts.headD 0 / 4)
    giveGang n base harts slots keys

def execGangDispatch (launch : Nat) (harts slots : List Nat) (resv : Nat) (s : State) : Outcome :=
  event (gangDispatchOp launch harts slots resv) s

/-! ## CORE_RESERVATION_RELEASE -/

/-- A retired hart, its core reservation and its stack slot are released once its commands on its core window have ended
(R318). -/
def coreReleaseOp (id : Nat) : Op Unit := do
  let s ← get
  let h := s.hartOf id
  onlyIf (h.status = .retired && !s.scarabBusy h)
  match h.job with
  | some j =>
    match s.launches.get? j.launch with
    | some l => modQueue l.queue fun qu => { qu with slots := releaseHart qu.slots h }
    | none => pure ()
    modify fun s => cleanEnded j.launch (s.setHart h.freed)
  | none => modify fun s => s.setHart h.freed

def execCoreReservationRelease (hart : Nat) (s : State) : Outcome := event (coreReleaseOp hart) s

/-! ## Priorities -/

/-- Has a queue work that a hart could take: an ungiven key, or a context ready to resume? -/
def State.runnable (s : State) (q : Nat) : Bool :=
  s.launches.any fun (n, l) => l.queue = q && !l.ended
    && (!l.distributed || s.contexts.any fun c => c.hart.inLaunch n && c.saved && c.status ≠ 2)

def State.holdsHart (s : State) (q : Nat) : Bool := s.harts.any fun h => h.status = .running && s.queueOf h = some q

/-- Does this tick count for a queue's ageing (R55)? A queue receives harts while it holds a running one (DESIGN CHOICE log 47). -/
def State.ages (s : State) (q : Nat) : Bool :=
  s.runnable q && !s.holdsHart q
    && s.queues.any fun (p, qu) => s.holdsHart p && (s.queue q).eff < qu.eff

/-- QUEUE_AGEING (R55): no tick that counts passes between the 2,000th and it, so that none is lost (R7). -/
def queueAgeingOp (q : Nat) : Op Unit := do
  let s ← get
  onlyIf (s.queue q).levelDue
  modQueue q fun qu => { qu with prio := qu.prio + 1, age := 0 }

def execQueueAgeing (q : Nat) (s : State) : Outcome := event (queueAgeingOp q) s

/-- Does another queue wait with an effective priority that is at least `p`? R56 does not say when a queue waits: every other
runnable queue does, one that already holds harts too, and one whose work fits no hart here; a hart's own queue never does
(DESIGN CHOICE log 47). -/
def State.waitingAt (s : State) (own p : Nat) : Bool :=
  s.queues.any fun (q, qu) => q ≠ own && p ≤ qu.eff && s.runnable q

/-- The request itself: P, DL and mip bit 16 (R200). -/
def Hart.request (time : Nat) (h : Hart) : Hart := h.requestAt (time + 400)

/-- Send a request to a hart, or to every running hart of its gang with the same DL (R212). -/
def sendRequest (id : Nat) : Op Unit := modify fun s =>
  let h := s.hartOf id
  match h.job, s.launchOf h with
  | some j, some l =>
    if l.a.isGang then s.mapHarts fun g => if g.inLaunch j.launch && g.status = .running then g.request s.time else g
    else s.setHart (h.request s.time)
  | _, _ => s

/-- The quantum of a hart's assignment has expired (R56). -/
def State.expired (s : State) (h : Hart) : Bool := match h.job with
  | some j => 4000 ≤ s.time - j.since
  | none => false

/-- A request is due (R56): the quantum has expired and a queue of equal or higher effective priority waits, or one of
higher effective priority waits. -/
def State.requestDue (s : State) (h : Hart) : Bool :=
  match s.queueOf h with
  | some q => h.status = .running && !bitAt h.preq 0
      && ((s.expired h && s.waitingAt q (s.queue q).eff) || s.waitingAt q ((s.queue q).eff + 1))
  | none => false

/-- QUANTUM_EXPIRY (R56); no request is sent while the scheduler firmware is replaced (R299). -/
def quantumExpiryOp (id : Nat) : Op Unit := do
  let s ← get
  let h := s.hartOf id
  onlyIf (s.expired h)
  if s.firmware.update = .none ∧ s.requestDue h then sendRequest id

def execQuantumExpiry (hart : Nat) (s : State) : Outcome := event (quantumExpiryOp hart) s

/-- PREEMPTION_REQUEST (R56, R200, R212, R299). -/
def preemptionRequestOp (id : Nat) : Op Unit := do
  let s ← get
  onlyIf (s.firmware.update = .none && s.requestDue (s.hartOf id))
  sendRequest id

def execPreemptionRequest (hart : Nat) (s : State) : Outcome := event (preemptionRequestOp hart) s

/-- The waiting instructions of R391. -/
def isWaiting : Instr → Bool
  | .cwait _ _ _ _ | .rclaim _ _ _ | .rawait _ _ _ | .clwait _ _ | .bar _ | .renew _ _ | .stream _ _ _ | .streamu _ _ _
  | .coll _ _ _ | .ccancel _ _ | .splbar _ | .fenceSv _ | .fenceVs _ | .fenceVv _ | .fenceAll _
  | .bany _ _ | .ball _ _ | .bnone _ _ | .bnall _ _ | .ppopc _ _ | .pfirst _ _ | .psum _ _ => true
  | _ => false

/-- The instruction at the pc, where one is fetched. -/
def State.instrHere (s : State) : Option Instr :=
  match (fetchAt (s.fetchAccess s.hart.mode s.hart) s.hart.pc).run s with
  | .ok bs _ => (match decode bs with
    | .ok (i, _) => some i
    | .error _ => none)
  | .error _ _ => none

/-- PREEMPT_DEADLINE (R59, R200): DL has passed. The interrupt falls at the next instruction boundary, or at the element
boundary that the event names, inside the next vector instruction; at none inside for a hart that MRET has just resumed (R201).
Before a waiting instruction the hart's own next step takes it, since there the hart may wait (R391). -/
def preemptDeadlineOp (id : Nat) (elem : Option Nat) : Op Unit :=
  onHart id (do
    let s ← get
    onlyIf (s.hart.status = .running && s.forcedDue && (elem.isNone || !s.hart.atOnce))
    let waits := match s.instrHere with
      | some i => isWaiting i
      | none => false
    if elem.isSome || waits then modH fun h => { h with stopAt := elem }
    else modify fun s => preempt true true s.hart.pc s.hart.vxi s)

def execPreemptDeadline (hart : Nat) (elem : Option Nat) (s : State) : Outcome := event (preemptDeadlineOp hart elem) s

end Sys2Proof.Machine
end

