-- ==== Sys2Proof/Machine/Retention.lean ====
section
/-!
DEFINITION. Saves and restores of contexts (R202 to R212), the sweeper and the renewals (R133, R138, R141, R143, R144,
R224), and the discovery of a poisoned sector (R196, R197).
-/

namespace Sys2Proof.Machine

/-! ## GANG_SAVE_START and CONTEXT_SAVE_COMPLETE -/

/-- The cluster in which a launch holds reservations and has contexts. -/
def State.contextClusters (s : State) (n : Nat) : List Nat := ((s.contexts.filter (·.hart.inLaunch n)).map (·.cluster)).dedup

/-- GANG_SAVE_START (R204, R212). -/
def gangSaveStartOp (n : Nat) : Op Unit := do
  let s ← get
  match s.launches.get? n, s.contextClusters n with
  | some l, [cl] =>
    onlyIf (l.a.isGang && !s.harts.any (fun h => h.inLaunch n && h.status = .running)
      && !s.clusterBusy n cl
      && !s.clusterSaves.any fun v => v.launch = n && v.cluster = cl)
    modify (startClusterSave cl n)
  | _, _ => onlyIf false

def execGangSaveStart (launch : Nat) (s : State) : Outcome := event (gangSaveStartOp launch) s

/-- Where the image of a context stands: the queue whose translation reaches it, and its address in the queue's save area; none
for a queue without one. (DESIGN CHOICE log 31) -/
def State.imageAt (s : State) (c : Context) : Option (Nat × Word) :=
  match c.hart.job.bind fun j => s.launches.get? j.launch with
  | some l =>
    let save := field512 (s.queue l.queue).installed 0x18 0 48
    if save = 0 then none else some (l.queue, sext48 save + BitVec.ofNat 64 (Config.imageOffset c.id))
  | none => none

/-- The live sections of an image, in order: scalar, vector, scratchpad, contraction unit (R208). -/
def Context.sections (c : Context) : List Nat :=
  0 :: ((if c.live.testBit 0 then [1] else []) ++ (if c.live.testBit 4 || c.live.testBit 5 then [2] else [])
    ++ (if c.live.testBit 1 then [3] else []))

/-- The bytes of the sections before one that is live. -/
def Context.sectionsBefore (c : Context) (i : Nat) : Nat :=
  (((c.sections.takeWhile (· ≠ i)).map fun k => (Config.imagePart c.id k).length)).sum

/-- The offset of a section, after the header's 128 bytes; 0 when it is dead (Table 09-7). -/
def Context.sectionOff (c : Context) (i : Nat) : Nat := if c.sections.contains i then 128 + c.sectionsBefore i else 0

/-- SHAPE (Table 09-7). -/
def Context.shape (c : Context) : Word := if c.full then c.hart.vshp else 0

/-- The image header (Table 09-7), its fields from offset 0 up. FEAT is written with all seven features, those of the device: no rule
says whether it holds these or the kernel's (DESIGN CHOICE log 31). -/
def Context.header (c : Context) : List Byte :=
  toBytes 4 0x49585443 ++ toBytes 2 1 ++ toBytes 1 (if c.full then 1 else 0) ++ toBytes 1 c.status
    ++ toBytes 8 0x7F ++ toBytes 8 c.live ++ toBytes 8 c.missing ++ toBytes 4 c.profile ++ toBytes 4 0
    ++ toBytes 8 c.hdr.toNat ++ toBytes 8 c.hart.mepc.toNat ++ toBytes 8 c.hart.vxi ++ toBytes 8 c.shape.toNat
    ++ toBytes 8 c.hart.idxlin.toNat ++ toBytes 8 (c.sectionOff 0) ++ toBytes 8 (c.sectionOff 1) ++ toBytes 8 (c.sectionOff 2)
    ++ toBytes 8 (c.sectionOff 3) ++ toBytes 8 (128 + c.sectionsBefore 4) ++ toBytes 8 0

/-- The image: header and live sections (R207). -/
def Context.image (c : Context) : List Byte := c.header ++ c.sections.flatMap (Config.imagePart c.id)

/-- Write bytes of a context's image through its queue's translation; a write that faults is lost. (DESIGN CHOICE log 31) -/
def writeImage (c : Context) (off : Nat) (bs : List Byte) : Op Unit := do
  let s ← get
  match s.imageAt c with
  | some (q, va) => set (tryOp (qWrite q (va + BitVec.ofNat 64 off) bs) s).2
  | none => pure ()

def writeImages : List Context → Op Unit
  | [] => pure ()
  | c :: cs => do
    writeImage c 0 c.image
    writeImages cs

/-- The hart's part of a save ends: its live blocks are copied, its expired ones marked, its image is written, and it is free
again, its core scratchpad without poison (DESIGN CHOICE log 46); the stack slot and the writes not yet delivered stay with the context
(R203, R207, R290). -/
def saveHart (c : Context) : Op Unit := do
  let s ← get
  let h := s.hartOf c.hart.id
  let (first, count) := h.coreBlocks
  let blocks := saveBlocks s.time first count h.pool
  let c := { c with saved := true, blocks := blocks, live := c.live + (if blocks = [] then 0 else 16) }
  let s := (s.setHart { h.freed with pool := [] }).rename (.hart h.id) (.context c.id)
  set { s with contexts := s.contexts.map fun (d : Context) => if d.id = c.id then c else d }
  writeImage c 0 c.image

/-- The reservations of a launch in a cluster: their first byte and their bytes. -/
def Cluster.span (c : Cluster) (n : Nat) : Nat × Nat :=
  let mine := c.resvs.filter (·.launch = n)
  ((mine.map (·.base)).foldl min 8388608, (mine.map (·.size)).sum)

/-- The save of a cluster reservation ends, and the reservation is released; the images say that its section is live (R203, R204,
R208). -/
def saveCluster (n cl : Nat) : Op Unit := do
  let s ← get
  let c := s.cluster cl
  let (base, total) := c.span n
  let blocks := saveBlocks s.time (base / 256) (total / 256) c.spad
  let mine (d : Context) : Bool := d.hart.inLaunch n && d.cluster = cl && blocks ≠ []
  let contexts := s.contexts.map fun d => if mine d then { d with live := d.live ||| 32 } else d
  let saves := s.clusterSaves.map fun (v : ClusterSave) =>
    if v.launch = n ∧ v.cluster = cl then { v with saved := true, blocks := blocks } else v
  set { s.setCluster cl { c with
      resvs := c.resvs.filter (·.launch ≠ n), spad := c.spad.filter fun p => p.1 < base / 256 || (base + total) / 256 ≤ p.1 } with
    clusterSaves := saves
    contexts := contexts }
  writeImages (contexts.filter mine)

/-- Has a launch an unfinished cluster save that nothing delays any more? -/
def State.clusterSaveDue (s : State) (n cl : Nat) : Bool :=
  s.clusterSaves.any (fun v => v.launch = n && v.cluster = cl && !v.saved)
    && s.contexts.all fun c => !(c.hart.inLaunch n && c.cluster = cl) || c.saved

/-- CONTEXT_SAVE_COMPLETE (R203, R204). -/
def saveCompleteOp (id : Nat) : Op Unit := do
  let s ← get
  match s.contexts.find? (·.id = id) with
  | none => onlyIf false
  | some c =>
    let n := (c.hart.job.map (·.launch)).getD noLaunch
    onlyIf (!c.saved || s.clusterSaveDue n c.cluster)
    if !c.saved then saveHart c
    let s ← get
    if s.clusterSaveDue n c.cluster then saveCluster n c.cluster

def execContextSaveComplete (ctx : Nat) (s : State) : Outcome := event (saveCompleteOp ctx) s

/-! ## CONTEXT_RESUME -/

/-- What a restore checks of an image's header (R209). -/
structure ImageHead where
  version : Nat
  live : Nat
  profile : Nat
  shape : Word
  deriving DecidableEq, Repr

/-- The header in memory, or, where none can be read, as the save wrote it. (DESIGN CHOICE log 31) -/
def imageHead (c : Context) : Op ImageHead := do
  let s ← get
  let own : ImageHead := { version := 1, live := c.live, profile := c.profile, shape := c.shape }
  match s.imageAt c with
  | none => return own
  | some (q, va) => match ← attempt (qRead q va 128) with
    | some bs =>
      if hdrField bs 0 4 = 0x49585443 then
        return { version := hdrField bs 4 2, live := hdrField bs 0x10 8, profile := hdrField bs 0x20 4
                 shape := BitVec.ofNat 64 (hdrField bs 0x40 8) }
      else return own
    | none => return own

def imageHeads : List Context → Op (List (Context × ImageHead))
  | [] => return []
  | c :: cs => do
    let i ← imageHead c
    let is ← imageHeads cs
    return (c, i) :: is

/-- Live features that this device lacks, or whose profile version it does not support (R209). -/
def missingFeatures (i : ImageHead) : Nat :=
  let ok (k : Nat) := profileMeets (i.profile / 2 ^ (8 * k) % 256) (deviceProfile / 2 ^ (8 * k) % 256)
  let bad (bit k : Nat) : Nat := if i.live.testBit bit && !ok k then 2 ^ bit else 0
  bad 0 0 + bad 1 1 + bad 2 2 + bad 3 0 + bad 6 0 + i.live / 128 * 128

/-- Can the shape of a live vector section be granted with the saved boundaries (R35, R209)? Neither rule names a group multiplier or
an element size: the largest group, 8 registers, and 1-byte elements count (DESIGN CHOICE log 31). -/
def shapeFits (k : Kernel) (c : Context) (i : ImageHead) : Bool :=
  let n := bits i.shape 16 16 * bits i.shape 0 16
  !i.live.testBit 0 || (n ≤ 8192 && n ≤ 8 * capacity k.nvreg c.hart.vbanks)

/-- Does the saved cluster section fit the launch's CLSPB (R209)? -/
def State.clusterFits (s : State) (n : Nat) (l : Launch) (c : Context) : Bool :=
  let total := ((resvSizes l).map (·.2)).sum
  s.clusterSaves.all fun v => !(v.launch = n && v.cluster = c.cluster) || v.blocks.all fun b => b.block < total / 256

/-- May the context be restored (R209)? -/
def State.restorable (s : State) (n : Nat) (l : Launch) (c : Context) (i : ImageHead) : Bool :=
  i.version ≤ 1 && missingFeatures i = 0 && shapeFits (l.kernel ((c.hart.job.map (·.inB)).getD false)) c i
    && (!i.live.testBit 5 || s.clusterFits n l c)

/-- The restored hart: what every context holds (R202). -/
def restoreScalar (time : Nat) (c h : Hart) : Hart :=
  { h with
    status := .running, mode := .u, pc := c.mepc, x := c.x, f := c.f, fcsr := c.fcsr, mepc := c.mepc
    mstatus := mstatusRet (setMpp h.mstatus .u)
    vfflags := c.vfflags, vpoiscnt := c.vpoiscnt, preq := c.preq, mip := setBit h.mip 16 (bitAt c.preq 0)
    mie := setBit h.mie 16 true, mcounteren := 0xFFFFFFFF
    poolv := c.poolv, pools := c.pools, poolc := c.poolc, bd := c.bd, chstep := c.chstep
    hook := c.hook, hookSave := c.hookSave, idx := c.idx, idxlin := c.idxlin
    job := c.job.map fun j => { j with since := time }
    remoteFault := none
    reservation := none, cancel := none, stopAt := none, renewQ := [] }

/-- What a full context adds (R202). -/
def restoreVector (c h : Hart) : Hart :=
  { h with
    vregs := c.vregs, preds := c.preds, sf := c.sf, masks := c.masks, td := c.td, tdAddr := c.tdAddr, clause := c.clause
    vtype := c.vtype, vshp := c.vshp, vxi := c.vxi, skipped := c.skipped, vcbytes := c.vcbytes, mfc := c.mfc
    vhint := c.vhint, vvsel := c.vvsel, rotation := c.rotation, convoy := [], freshConvoy := true }

/-- A light resumption: the vector control state of R210, everything else of the vector unit undefined. -/
def restoreLight : Op Unit := do
  let h ← getH
  if h.clause.isSome then undefClause
  modH Hart.lightState
  undefAll

/-- The grant a context held, with free quarters (R236). -/
def regrant (s : State) (cl : Nat) (g : Option Grant) : Option (Option Grant) :=
  match g with
  | none => some none
  | some g => (quartersFor (s.usedQuarters cl) g.rows).map fun q => some { g with quarters := q, checkCol := 0 }

/-- The present hart takes a context's state (R202, R205, R210, R236). -/
def restoreAt (time k : Nat) (c : Context) (g : Option Grant) : Op Unit := do
  modH (restoreScalar time c.hart)
  modH fun h => { h with
    grant := g, clause := c.hart.clause
    pool := restoreBlocks time k h.coreBlocks.1 h.coreBlocks.2 c.blocks [] }
  if c.full then modH (restoreVector c.hart)
  else restoreLight

/-- Restore one context on a hart; its image's STATUS becomes 1 (R205, R209, R210, R236). -/
def resumeOne (c : Context) (id : Nat) : Op Unit := do
  let s ← get
  let n := (c.hart.job.map (·.launch)).getD noLaunch
  match s.launches.get? n, regrant s c.cluster c.hart.grant with
  | some l, some g =>
    onlyIf (c.saved && c.status ≠ 2 && !l.ended && s.hartFree id && id / 4 = c.cluster && s.roomFor c.cluster n l)
    placeResvs c.cluster n ((firstFit (s.cluster c.cluster) ((resvSizes l).map (·.2)).sum).getD 0) l
    let k ← draw
    serveQueue l.queue
    onHart id (restoreAt s.time k c g)
    modLaunch n fun l => match c.hart.job with
      | some j => l.setKey { l.keyState j.key with holder := some id }
      | none => l
    writeImage c 7 [1]
    modify fun s => { s.rename (.context c.id) (.hart id) with contexts := s.contexts.filter (·.id ≠ c.id) }
  | _, _ => onlyIf false

def resumeAll : List (Context × Nat) → Op Unit
  | [] => pure ()
  | (c, i) :: t => do
    resumeOne c i
    resumeAll t

/-- The contexts that resume together with one: a gang's resume as one (R212). -/
def State.together (s : State) (n : Nat) (l : Launch) (c : Context) : List Context :=
  if l.a.isGang then c :: s.contexts.filter fun d => d.hart.inLaunch n && d.id ≠ c.id else [c]

/-- A context that cannot be restored: its STATUS becomes 2, in its image too, with MISSING (R209). -/
def markOne (c : Context) (i : ImageHead) : Op Unit := do
  let m := missingFeatures i
  modify fun s => { s with contexts := s.contexts.map fun d => if d.id = c.id then { d with status := 2, missing := m } else d }
  writeImage c 7 [2]
  writeImage c 0x18 (toBytes 8 m)

def markAll : List (Context × ImageHead) → Op Unit
  | [] => pure ()
  | (c, i) :: cs => do
    markOne c i
    markAll cs

/-- A failed restore: nothing is restored, the contexts stay unrunnable (R209, R212). STATUS 2 and MISSING go into the images of all
members of a gang, also of those whose own restore did not fail, which no rule says (DESIGN CHOICE log 31). -/
def markIncompat (cs : List (Context × ImageHead)) : Op Unit := do
  markAll cs
  raiseMsix 1

/-- CONTEXT_RESUME (R204, R205, R209, R210, R212). The other members of a gang take the other free harts of the cluster. -/
def contextResumeOp (id hart : Nat) : Op Unit := do
  let s ← get
  match s.contexts.find? (·.id = id) with
  | none => onlyIf false
  | some c =>
    let n := (c.hart.job.map (·.launch)).getD noLaunch
    match s.launches.get? n with
    | none => onlyIf false
    | some l =>
      let cs := s.together n l c
      onlyIf (cs.all (s.contextReady n l) && s.turnOf l.queue hart)
      let is ← imageHeads cs
      if is.all fun (d, i) => s.restorable n l d i then
        let rest := (List.range 4).map (4 * c.cluster + ·) |>.filter fun i => i ≠ hart && s.hartFree i
        onlyIf (cs.length ≤ rest.length + 1)
        resumeAll (cs.zip (hart :: rest))
      else markIncompat is

/-- The queue of a context's launch. -/
def State.queueOfContext (s : State) (ctx : Nat) : Nat :=
  (((s.contexts.find? (·.id = ctx)).bind fun c => c.hart.job).map fun j => s.queueOfLaunch j.launch).getD 0

def execContextResume (ctx hart : Nat) (s : State) : Outcome :=
  frontEvent (s.queueOfContext ctx) (contextResumeOp ctx hart) s

/-! ## Sweeper and renewals -/

/-- The sweeper's visit to a block (R138). -/
def Block.swept (time : Nat) (b : Block) : Block := if b.live && 256 ≤ b.age time then { b with expired := true } else b

/-- The scratchpad of a core or a cluster. -/
def scratchAt (core : Bool) (owner : Nat) : Loc := if core then .core owner 0 else .cluster owner 0

/-- SWEEPER_VISIT (R138, R143). -/
def sweeperOp (core : Bool) (owner block : Nat) : Op Unit := modify fun s =>
  s.modScratch (scratchAt core owner) fun t => t.map fun (i, b) => (i, if i = block then b.swept s.time else b)

def execSweeperVisit (core : Bool) (owner block : Nat) (s : State) : Outcome := event (sweeperOp core owner block) s

/-- The next range of a renewal queue. -/
def State.renewals (s : State) (core : Bool) (owner : Nat) : List RenewRange :=
  if core then (s.hartOf owner).renewQ else (s.cluster owner).renewQ

/-- RENEWAL_PERFORM (R141): the range at the front of a queue restamps the blocks that are still live. -/
def renewalOp (core : Bool) (owner : Nat) : Op Unit := do
  let s ← get
  match s.renewals core owner with
  | [] => onlyIf false
  | r :: rs =>
    modify fun s => s.modScratch (scratchAt core owner) fun t =>
      t.map fun (i, b) => (i, if r.blocks.contains i then b.renewed s.time else b)
    let front := match rs with
      | r :: t => { r with since := s.time } :: t
      | [] => []
    modify fun s =>
      if core then s.setHart { s.hartOf owner with renewQ := front }
      else s.setCluster owner { s.cluster owner with renewQ := front }

def execRenewalPerform (core : Bool) (owner : Nat) (s : State) : Outcome := event (renewalOp core owner) s

/-- RING_BLOCK_RENEWAL (R224): the live blocks of a running hart's ring. -/
def ringRenewalOp (id : Nat) : Op Unit := do
  let s ← get
  let h := s.hartOf id
  match s.launchOf h with
  | some l => match l.pair with
    | some p =>
      onlyIf (h.status = .running)
      let (b, n) := ringBlocks l p h
      modify fun s => s.setHart { h with pool := renewRange s.time b (n * (p.lag + 1)) h.pool }
    | none => onlyIf false
  | none => onlyIf false

def execRingBlockRenewal (hart : Nat) (s : State) : Outcome := event (ringRenewalOp hart) s

/-- L1_DIRTY_WRITEBACK (R133): not visible except through timing. -/
def execL1DirtyWriteback (_ _ : Nat) (s : State) : Outcome := .next s
/-- EXTENSION_BANK_RENEWAL (R133): not visible except through timing. -/
def execExtensionBankRenewal (_ _ : Nat) (s : State) : Outcome := .next s
/-- L2_LINE_RETENTION (R144): not visible except through timing. -/
def execL2LineRetention (_ _ : Nat) (s : State) : Outcome := .next s

/-! ## SECTOR_POISON_DETECT -/

/-- Is a page-table entry a leaf that maps a frame of this package? -/
def mapsFrame (own frame level e : Nat) : Bool :=
  let ppn := ptePpn e % 2 ^ 28
  let size := pageSize level / 4096
  pteV e && pteLeaf e && level ≠ 0 && pteHome e = own && ppn ≤ frame && frame < ppn + size

/-- Set Q in every leaf under a table that maps a frame (R197): `levels` levels remain, the last of them 4 KiB pages. -/
def quarantineTable (own frame : Nat) : Nat → Nat → Nat → List Host.Cell → List Host.Cell
  | 0, _, _, m => m
  | fuel + 1, level, table, m =>
    (List.range 512).foldl (fun m i =>
      let a := table + 8 * i
      let e := ofBytes (Memory.read m a 8)
      if mapsFrame own frame level e then Memory.write m a (toBytes 8 (e ||| 512))
      else if pteV e && !pteLeaf e then quarantineTable own frame fuel (level + 1) (ptePpn e % 2 ^ 28 * 4096) m
      else m) m

/-- Does a queue reach memory through its root: it is enabled, or a launch or a registration of it remains? A root may be 0
(R287). -/
def State.usesRoot (s : State) (q : Nat) (qu : Queue) : Bool :=
  field512 qu.installed 8 0 40 ≠ 0 || qu.cen || s.launches.any (fun (_, l) => l.queue = q) || s.regs.any fun r => r.queue = q

/-- The frame's record entries are freed and its leaves marked in every queue's tables; the shoot-down takes effect at
once, since no access uses an older entry (R150, R197). Its lines are unpinned (R334). -/
def quarantine (frame : Nat) : Op Unit := modify fun s =>
  let roots := ((s.queues.filter fun (q, qu) => s.usesRoot q qu).map fun (_, qu) => field512 qu.installed 8 0 40).dedup
  { s with
    mem := roots.foldl (fun m r => quarantineTable s.domainId frame 4 0 r m) s.mem
    poison := s.poison.filter fun p => p.1 / 128 ≠ frame
    pins := s.pins.map fun p => (p.1, p.2.map fun x => x.map fun v => { v with pas := v.pas.filter (· ≠ frame) })
    status := { s.status with qframes := s.status.qframes + 1 } }

/-- The memory controller of a sector of this package (R12). -/
def controllerOf (sector : Nat) : Nat := sector / 128 % 8

/-- The entries in one controller's poison record. -/
def State.poisonRecord (s : State) (n : Nat) : Nat :=
  (s.poison.filter fun p => p.2 = .hbm && controllerOf p.1 = n).length

/-- The bytes of a poisoned sector are lost: free values stand in their place (R2, R196). -/
def lostBytes (k : Nat) : List Byte := (List.range 32).map fun i => Config.freeValue k i 8

/-- SECTOR_POISON_DETECT (R196, R197): place 0 is HBM, 1 the L2, 2 a core's pool, 3 a cluster scratchpad; the sector counts
from its memory's start. -/
def poisonOp (place owner sector : Nat) : Op Unit := do
  let k ← draw
  let s ← get
  if place ≤ 1 then
    onlyIf (32 * sector < s.physLimit)
    let site : PoisonSite := if place = 0 then .hbm else .l2
    let known := s.poisonOf (32 * sector) = some .hbm
    modify fun s => { s with mem := Memory.write s.mem (32 * sector) (lostBytes k) }
    if place = 0 && !known && 512 ≤ s.poisonRecord (controllerOf sector) then quarantine (sector / 128)
    else modify (·.setPoison (.mem (32 * sector)) site)
  else
    let l : Loc := if place = 2 then .core owner (32 * sector) else .cluster owner (32 * sector)
    onlyIf (sector < (if place = 2 then 32768 else 262144) && owner < (if place = 2 then 512 else 128))
    let b := (s.block l).getD .unwritten
    modify fun s => (s.setBlock l { b with data := b.data.putRange (32 * (sector % 8)) (lostBytes k) }).setPoison l .l2

def execSectorPoisonDetect (place owner sector : Nat) (s : State) : Outcome := event (poisonOp place owner sector) s

end Sys2Proof.Machine
end

