-- ==== Sys2Proof/Machine/Issue.lean ====
section
/-!
DEFINITION. LAUNCH and SPLBAR (R231, R232, R321, R322, R344), and the collective instructions COLL, CCANCEL and CSTAT
(R261 to R265, R308, R315, R316).
-/

namespace Sys2Proof.Machine

/-! ## LAUNCH and SPLBAR -/

/-- Bit `k` of the issuing queue's LPERM (R232, R321); a hart without a launch has no issuing queue (DESIGN CHOICE log 17). -/
def State.launchPermission (s : State) (h : Hart) (k : Nat) : Bool :=
  k < 64 && (match s.queueOf h with
    | some q => (s.queue q).clperm k
    | none => false)

/-- The front end writes a record into queue `q`'s ring, and so takes it; a failed write leaves the index unreadable (R322). -/
def writeRecord (q : Nat) (r : BitVec 512) : Op Unit := do
  let s ← get
  let qu := s.queue q
  let t := qu.tail.toNat
  match (qWrite q (qu.recordAt t) (toBytes 64 r.toNat)).run s with
  | .ok _ s' =>
    set s'
    modQueue q (·.take t (some r))
  | .error _ _ => modQueue q (·.take t none)

/-- LAUNCH (R321). -/
def launchOp (rs1 rs2 : BitVec 5) : Op Unit := do
  let s ← get
  let h := s.hart
  let q := (h.xr rs1).toNat
  let a := h.xr rs2
  if !(s.launchPermission h q && (s.queue q).cen) then engine 1
  if a.toNat % 64 ≠ 0 then engine 1 (some a)
  let r ← readDesc {} a
  let qu := (← get).queue q
  if idxDist qu.tail.toNat qu.head.toNat = 2 ^ qu.clog2n then
    modH fun g => { g with vpoiscnt := h.vpoiscnt }
    engine 2
  release .scalar .pkg
  writeRecord q r
  modQueue q fun qu => { qu with tail := qu.tail + 1 }
  acquire .sys
  advance 4

def execLaunch (rs1 rs2 : BitVec 5) (s : State) : Outcome := finish (launchOp rs1 rs2) s

/-- SPLBAR (R232): earlier scalar accesses are performed, so its wait is met (DESIGN CHOICE log 9). -/
def splbarOp (rs1 : BitVec 5) : Op Unit := do
  let s ← get
  let h := s.hart
  let q := (h.xr rs1).toNat
  if !s.launchPermission h q then engine 1
  let qu := s.queue q
  let b := qu.tail.toNat
  if !qu.barriers.contains b then
    if 8 ≤ (qu.barriers.filter fun i => idxAtLeast i qu.head.toNat).length then engine 2
    modQueue q fun qu => { qu with barriers := qu.barriers ++ [b] }
  advance 4

def execSplbar (rs1 : BitVec 5) (s : State) : Outcome := finishWaiting (splbarOp rs1) s

/-! ## COLL -/

/-- Does the running kernel declare the CC profile and set USECOLL (R64)? -/
def State.ccOk (s : State) (h : Hart) : Bool :=
  match s.kernel? h with
  | some k => k.profile / 2 ^ 20 % 16 ≠ 0 && k.flags.testBit 5
  | none => false

/-- The checks of R261, on the queue that issues. -/
def collChecks (s : State) (queue : Nat) (va : Word) (c : CollDesc) : Bool :=
  match s.comm? c.comm with
  | none => false
  | some m =>
    let data := c.op ≠ 5
    let es := ebOf c.type
    c.op ≤ 5 && c.rscope ≤ 5
      && (!data || ([2, 5, 7].contains c.type && c.red ≤ 2 && 1 ≤ c.count && c.count ≤ 2 ^ 28))
      && (c.op ≠ 3 || c.root < m.members.length)
      && (!c.cmp || (!m.strict && c.type = 7 && c.op ≤ 1 && c.red = 0))
      && (!c.res || c.cmp)
      && (!data || (c.src.toNat % es = 0 && c.dst.toNat % es = 0))
      && (!c.res || c.resid.toNat % 4 = 0) && c.crec.toNat % 8 = 0
      && !s.regs.any fun r => (r.queue = queue && r.descVa = va) || (r.comm = c.comm && r.tag = c.tag)

/-- Which Ordinal's sequence a communicator belongs to (R258, R259): 0 for this package's own domain, else the
endpoint that rank 0 is reached at (DESIGN CHOICE log 21). -/
def seqOf (m : Comm) : Nat :=
  match m.members.headD (.pkg 0) with
  | .pkg _ => 0
  | .ether mac => 1 + mac

/-- COLL (R263, R315). -/
def collOp (o : Order) (rs1 rs2 : BitVec 5) : Op Unit := do
  let s ← get
  let h := s.hart
  illegalUnless (s.ccOk h)
  if !s.status.full then engine 1
  let va := h.xr rs1
  let ctr := h.xr rs2
  if va.toNat % 64 ≠ 0 then engine 1 (some va)
  if ctr.toNat % 8 ≠ 0 then engine 1 (some ctr)
  let d ← readDesc {} va
  let c := collDesc d
  let q := (s.queueOf h).getD 64
  if !collChecks s q va c then engineUncounted h.vpoiscnt 1 va
  if 1024 ≤ s.regs.length then
    modH fun g => { g with vpoiscnt := h.vpoiscnt }
    waitFor false
  let reg : Registration :=
    { comm := c.comm, tag := c.tag, desc := d, queue := q, launch := (h.job.map (·.launch)).getD noLaunch, via := s.viaFor h
      descVa := va, counter := ctr.toNat, order := o, state := .unnumbered, seq := ((s.comm? c.comm).map seqOf).getD 0
      holder := some (.hart h.id), id := s.nextReg, since := s.time, told := none, cancelPending := false, accepted := false, verdict := none }
  modify fun s => { s with regs := s.regs ++ [reg], nextReg := s.nextReg + 1, collSeen := true }
  advance 4

def execColl (o : Order) (rs1 rs2 : BitVec 5) (s : State) : Outcome := finishWaiting (collOp o rs1 rs2) s

/-! ## CSTAT and CCANCEL -/

/-- The live registration whose descriptor address a hart names (R308). -/
def State.regAt (s : State) (h : Hart) (va : Word) : Option Registration :=
  s.regs.find? fun r => s.queueOf h = some r.queue && r.descVa = va

/-- CSTAT's value (R265, R316): a collective is started once the Ordinal has accepted this member's start report
(R268). -/
def cstatValue (r : Option Registration) : Word :=
  match r with
  | none => 0
  | some g => match g.state with
    | .unnumbered => 1
    | .numbered n _ _ _ => BitVec.ofNat 64 (n % 2 ^ 32 * 2 ^ 32 + 2)
    | .started n => BitVec.ofNat 64 (n % 2 ^ 32 * 2 ^ 32 + (if g.accepted then 3 else 2))

def cstatOp (rd rs1 : BitVec 5) : Op Unit := do
  let s ← get
  let h := s.hart
  illegalUnless (s.ccOk h)
  writeX rd (cstatValue (s.regAt h (h.xr rs1)))
  advance 4

def execCstat (rd rs1 : BitVec 5) (s : State) : Outcome := finish (cstatOp rd rs1) s

def modRegs (f : Registration → Registration) : Op Unit := modify fun s => { s with regs := s.regs.map f }

/-- CCANCEL (R264, R308): without a registration it returns 2; else the cancellation is sent, and the hart waits for the
answer of ORDINAL_CANCELLATION or for its time to run out, even where the collective ends meanwhile. -/
def ccancelOp (rd rs1 : BitVec 5) : Op Unit := do
  let s ← get
  let h := s.hart
  if h.cancel.isSome then waitFor false
  else
    match s.regAt h (h.xr rs1) with
    | none =>
      writeX rd 2
      advance 4
    | some r =>
      modRegs fun g => if g.id = r.id then { g with cancelPending := true } else g
      modH fun h => { h with cancel := some { comm := r.comm, tag := r.tag, reg := r.id, left := none, rd := rd, since := s.time } }
      waitFor false

/-- A pending request is taken before the cancellation is sent; after that CCANCEL offers no boundary (R59, R264,
R391). -/
def execCcancel (rd rs1 : BitVec 5) (s : State) : Outcome :=
  if !s.ccOk s.hart then .next (deliver { cause := 2 } s)
  else if s.hart.cancel.isNone ∧ s.hart.requestPending then .next (preempt true false s.hart.pc 0 s)
  else finish (ccancelOp rd rs1) s

/-- CCANCEL returns on a hart that waits in it (R264). -/
def returnCancel (v : Nat) (h : Hart) : Hart :=
  match h.cancel with
  | some c => ({ h with cancel := none, pc := h.pc + 4 } : Hart).retire.setX c.rd (BitVec.ofNat 64 v)
  | none => h

/-- CCANCEL_ANSWER_TIMEOUT (R264): 300 ticks without an answer; the cancellation stays pending at the engine. -/
def ccancelTimeoutOp (id : Nat) : Op Unit := do
  let s ← get
  let h := s.hartOf id
  match h.cancel with
  | some c =>
    onlyIf (300 ≤ s.time - c.since)
    set (s.setHart (returnCancel 4 h))
  | none => onlyIf false

def execCcancelAnswerTimeout (hart : Nat) (s : State) : Outcome := event (ccancelTimeoutOp hart) s

end Sys2Proof.Machine
end

