-- ==== Sys2Proof/Machine/HostIf.lean ====
section
/-!
DEFINITION. The host's side (R285 to R288, R291): BAR0 (Table 18-1), doorbells, queue configuration entries, the mailbox
registers, and the BAR2 aperture.
-/

namespace Sys2Proof.Machine

/-! ## Doorbells -/

/-- Does the device accept a doorbell value (R288)? -/
def Queue.accepts (q : Queue) (t : BitVec 32) : Bool :=
  q.cen && (t - q.head).toNat ≤ 2 ^ q.clog2n && (t - q.tail).toNat ≤ 2 ^ q.clog2n

/-- A doorbell write that is ignored counts in DOORBAD (R288). -/
def countDoorbad (s : State) : State := { s with status := { s.status with doorbad := s.status.doorbad + 1 } }

/-- The front end takes the record at an index as its slot stands now; a package that does not answer leaves it to be read later. -/
def takeRecord (q i : Nat) (s : State) : State :=
  match (qReadNat q ((s.queue q).recordAt i) 64).run s with
  | .ok r s' => s'.setQueue q ((s'.queue q).take i (some (BitVec.ofNat 512 r)))
  | .error (.hold _) _ => s
  | .error _ s' => s'.setQueue q ((s'.queue q).take i none)

/-- The front end takes the next `n` records, TAIL passing them (R322). -/
def takeRecords (q : Nat) : Nat → State → State
  | 0, s => s
  | n + 1, s =>
    let t := takeRecord q (s.queue q).tail.toNat s
    takeRecords q n (t.setQueue q { t.queue q with tail := (t.queue q).tail + 1 })

/-- DOORBELL_WRITE (R288): accepted, with an acquire at system scope, or ignored and counted in DOORBAD. -/
def doorbellOp (q : Nat) (t : BitVec 32) : Op Unit := do
  let s ← get
  onlyIf (q < 64)
  if (s.queue q).accepts t then
    acquire .sys
    modify (takeRecords q (t - (s.queue q).tail).toNat)
  else modify countDoorbad

def execDoorbellWrite (q : Nat) (t : BitVec 32) (s : State) : Outcome := event (doorbellOp q t) s

/-! ## BAR0 registers -/

/-- The fields of a queue configuration entry that the host writes (Table 18-3): RSV and RO bits ignore writes. -/
def entryMask : BitVec 512 :=
  BitVec.ofNat 512 (ofBytes (toBytes 8 (2 ^ 48 - 1) ++ toBytes 8 (2 ^ 40 - 1) ++ toBytes 8 (2 ^ 48 - 1)
    ++ toBytes 8 (2 ^ 48 - 1) ++ toBytes 8 0x8001FF1F ++ toBytes 8 (2 ^ 64 - 1) ++ toBytes 8 0 ++ toBytes 8 (2 ^ 48 - 1)))

/-- One byte of a little-endian number replaced. -/
def patchByte {w : Nat} (v : BitVec w) (i : Nat) (b : Byte) : BitVec w :=
  (v &&& ~~~ (BitVec.ofNat w 255 <<< (8 * i))) ||| (b.setWidth w <<< (8 * i))

/-- A host write of one byte of BAR0 (Table 18-1): queue entries and the mailbox's command and go word take it; the
status word, the device status block and every other offset ignore it. -/
def bar0Byte (off : Nat) (b : Byte) (s : State) : State :=
  if 0x2000 ≤ off ∧ off < 0x3000 then
    let q := (off - 0x2000) / 64
    let qu := s.queue q
    s.setQueue q { qu with written := patchByte qu.written ((off - 0x2000) % 64) b &&& entryMask }
  else if 0x10000 ≤ off ∧ off < 0x10040 then
    { s with mailbox := { s.mailbox with buffer := s.mailbox.buffer.set (off - 0x10000) b } }
  else if 0x10040 ≤ off ∧ off < 0x10048 then
    { s with mailbox := { s.mailbox with go := patchByte s.mailbox.go (off - 0x10040) b } }
  else s

def bar0Bytes : Nat → List Byte → State → State
  | _, [], s => s
  | off, b :: bs, s => bar0Bytes (off + 1) bs (bar0Byte off b s)

/-- The status of a command that ends: the status word and MSI-X vector 2 (R291). -/
def mailboxStatus (v : Nat) (s : State) : State :=
  { s with mailbox := { s.mailbox with status := BitVec.ofNat 64 v }, msix := 2 :: s.msix }

/-- The host has written 1 to the go word: the command is taken, or refused as busy (R291). Before READY the mailbox
accepts none (Table 18-2). -/
def issueCommand (s : State) : State :=
  if !s.status.ready then s
  else match s.mailbox.command with
    | some _ => mailboxStatus 1 s
    | none => { s with mailbox := { s.mailbox with command := some s.mailbox.buffer } }

/-- A host write to BAR0; one to the doorbells that is not 4 bytes at a doorbell is ignored and counted (R288).
(DESIGN CHOICE log 34) -/
def bar0Write (off : Nat) (bs : List Byte) : Op Unit := do
  if 0x1000 ≤ off ∧ off < 0x1200 then
    if off % 8 = 0 ∧ bs.length = 4 then doorbellOp ((off - 0x1000) / 8) (BitVec.ofNat 32 (ofBytes bs))
    else modify countDoorbad
  else
    modify (bar0Bytes off bs)
    let s ← get
    if off ≤ 0x10040 ∧ 0x10040 < off + bs.length ∧ s.mailbox.go = 1 then modify issueCommand

/-- What the host reads at BAR0: the status block's first words and the lane-health words (Table 18-2), the mailbox, the
queue entries; other offsets read as zero. After a failed boot only the status block answers (R294). -/
def bar0Word (s : State) (off : Nat) : Word :=
  let st := s.status
  let num (b : Bool) : Nat := if b then 1 else 0
  if off = 0x100000 then BitVec.ofNat 64 (num st.ready + num st.full * 2 ^ 8 + st.slot * 2 ^ 16 + st.fatal * 2 ^ 56)
  else if off = 0x100008 then st.doorbad
  else if off = 0x100010 then st.rlost
  else if off = 0x100018 then st.sessbad
  else if off = 0x100020 then st.qframes
  else if 0x101000 ≤ off ∧ off < 0x102000 then s.lane ((off - 0x101000) / 8)
  else if st.fatal = 2 then 0
  else if off = 0x10040 then s.mailbox.go
  else if off = 0x10048 then s.mailbox.status
  else if 0x10000 ≤ off ∧ off < 0x10040 then BitVec.ofNat 64 (ofBytes ((s.mailbox.buffer.drop (off - 0x10000)).take 8))
  else if 0x2000 ≤ off ∧ off < 0x3000 then
    let qu := s.queue ((off - 0x2000) / 64)
    if (off - 0x2000) % 64 = 0x30 then BitVec.ofNat 64 (qu.head.toNat + qu.tail.toNat * 2 ^ 32)
    else if (off - 0x2000) % 64 = 0x34 then BitVec.ofNat 64 qu.tail.toNat
    else BitVec.ofNat 64 (field512 qu.written ((off - 0x2000) % 64) 0 64)
  else 0

/-! ## BAR2 -/

/-- Does an access of BAR2 stay within the aperture's 64 GiB? -/
def inAperture (off len : Nat) : Bool := off + len ≤ 2 ^ 36

/-- The bytes the host reads; a byte at an address that does not exist is a free value of draw `k`. -/
def hostRead (k : Nat) (s : State) (a n : Nat) : List Byte :=
  (List.range n).map fun i => if a + i < s.physLimit then Memory.get s.mem (a + i) else Config.freeValue k i 8

/-- Bytes written by the host at physical addresses; those that do not exist take nothing. -/
def hostWrite (a : Nat) (bs : List Byte) : Op Unit := do
  let s ← get
  let bs := bs.take (s.physLimit - a)
  let ls := (List.range bs.length).map fun i => Loc.mem (a + i)
  modify fun s => { s with mem := Memory.write s.mem a bs }
  clearPoison ls
  breakReservations (ls.map Loc.resKey)

/-- HOST_BAR2_ACCESS (R19, R285). -/
def bar2Op (b : Bar2) : Op Unit := do
  let s ← get
  match b with
  | .read off len =>
    onlyIf (inAperture off len)
    let k ← draw
    modify fun t => { t with hostData := hostRead k s (s.bar2 + off) len }
  | .write off bs =>
    onlyIf (inAperture off bs.length)
    hostWrite (s.bar2 + off) bs

def execHostBar2Access (b : Bar2) (s : State) : Outcome := event (bar2Op b) s

end Sys2Proof.Machine
end

