-- ==== Sys2Proof/Machine/Traps.lean ====
section
/-!
DEFINITION. The rows of an ECALL from U-mode, by the function its x17 names (R255, R256), the end of a launch by the
runtime after a trap (R186, R392), and writes of the CSRs and BAR0 registers that have no row of their own (R4).
-/

namespace Sys2Proof.Machine

/-- An ECALL from U-mode whose x17 names a function of the row: the trap of cause 8 is taken and the runtime serves it
(R183, R255). -/
def ecallRow (fn : Nat → Bool) (s : State) : Outcome :=
  if s.hart.mode = .u ∧ fn (s.hart.xr 17).toNat then .next (deliver { cause := 8 } s) else .next s

/-- HOOKSET (R255, R257). -/
def execHookset (s : State) : Outcome := ecallRow (· = 0x100) s

/-- HOOKRET (R255, R256). -/
def execHookret (s : State) : Outcome := ecallRow (· = 0x101) s

/-- ECALL_UNKNOWN_FUNCTION (R255): the launch ends with TCAUSE 8. -/
def execEcallUnknown (s : State) : Outcome := ecallRow (fun n => n < 0x100 || 0x102 < n) s

/-- Does the hart of a launch stand in M-mode after a trap that the runtime has not yet answered (R392)? -/
def Hart.trapped (h : Hart) : Bool := h.mode = .m && h.status = .running && h.job.isSome

/-- ABORT (R255): the ECALL from U-mode; or the runtime's own end of a launch after any other trap, with TCAUSE the
cause (R186, R392). (DEDUCED log 25) -/
def execAbort (s : State) : Outcome :=
  if s.hart.trapped then .next (endOwnLaunch s.hart.mcause.toNat s) else ecallRow (· = 0x102) s

/-- REGISTER_WRITE (R4). -/
def execRegisterWrite (t : RegTarget) (s : State) : Outcome :=
  match t with
  | .csr a acc => finish (csrInstr a.toNat acc) s
  | .bar0 off bytes => event (bar0Write off bytes) s

end Sys2Proof.Machine
end

