-- ==== Sys2Proof/Machine/Mailbox.lean ====
section
/-!
DEFINITION. The management commands of Table 18-4 (R287, R289, R291 to R293, R298): each takes place when its command is
the one that runs, and ends with a status.
-/

namespace Sys2Proof.Machine

/-! ## The command that runs -/

/-- Argument word `i` of a command, at byte offset 8 i (R292). -/
def commandArg (c : List Byte) (i : Nat) : Nat := ofBytes ((c.drop (8 * i)).take 8)

/-- The command that runs has this code and these arguments; none runs beside an update (R291, R299). -/
def State.running (s : State) (code : Nat) (args : List Nat) : Bool :=
  match s.mailbox.command with
  | some c => s.status.ready && s.firmware.update = .none && (c.headD 0).toNat = code
      && args.zipIdx.all fun (a, i) => commandArg c (i + 1) = a
  | none => false

/-- The command ends (R291). -/
def endCommand (v : Nat) (s : State) : State :=
  mailboxStatus v { s with mailbox := { s.mailbox with command := none } }

/-- Run a command to its status. -/
def command (code : Nat) (args : List Nat) (x : Op Nat) : Op Unit := do
  let s ← get
  onlyIf (s.running code args)
  let v ← x
  modify (endCommand v)

/-! ## QCONFIG -/

/-- May QCONFIG succeed (R287)? -/
def Queue.mayConfigure (q : Queue) : Bool :=
  let idle := q.head = q.tail && q.overlapped = [] && (match q.state with | .begun _ => false | _ => true)
  let stopped := match q.state with | .stopped _ _ => true | _ => false
  !q.cen || idle || (stopped && !bitAt q.written (8 * 0x20 + 31))

/-- The checks on the host-written entry (R287). -/
def entryOk (e : BitVec 512) : Bool :=
  let log2n := field512 e 0x20 0 5
  let stk := field512 e 0x20 11 5
  field512 e 0x20 8 3 ≠ 7 && 4 ≤ log2n && log2n ≤ 16 && (stk = 0 || (12 ≤ stk && stk ≤ 24))
    && field512 e 0 0 48 % 4096 = 0 && field512 e 0x18 0 48 % 4096 = 0 && field512 e 0x38 0 48 % 4096 = 0
    && field512 e 8 0 40 % 4096 = 0 && field512 e 0x10 0 48 % 8 = 0

/-- The queue's error word is cleared, in the queue and at ERRW (R287, R289). -/
def clearError (q : Nat) : Op Unit := do
  modQueue q fun qu => { qu with error := 0 }
  let s ← get
  let errw := field512 (s.queue q).installed 0x10 0 48
  if errw ≠ 0 then set (tryOp (qWrite q (sext48 errw) (toBytes 8 0)) s).2

/-- QUEUE_ENABLE (R287). -/
def Queue.enabled (q : Queue) : Queue :=
  { q with head := 0, tail := 0, state := .waiting, consumed := [], elisions := [], barriers := [], taken := [], unreadable := [] }

/-- The installed entry becomes the host's; a queue that it disables is no longer stopped. -/
def installEntry (q : Nat) : Op Unit := do
  let s ← get
  let old := s.queue q
  let new : Queue := { old with installed := old.written }
  let new := { new with prio := new.cprio, age := 0 }
  if new.cen ∧ !old.cen then
    modify fun s => s.setQueue q new.enabled
    clearError q
  else if new.cen then modify fun s => s.setQueue q new
  else modify fun s => s.setQueue q { new with state := .waiting }

def qconfigStatus (q : Nat) : Op Nat := do
  let s ← get
  if 63 < q then return 3
  else if !(s.queue q).mayConfigure then return 2
  else if !entryOk (s.queue q).written then return 3
  else
    installEntry q
    return 0

/-- QCONFIG (R287). -/
def execQconfig (q : Nat) (s : State) : Outcome := event (command 1 [q] (qconfigStatus q)) s

/-! ## SHOOTDOWN and ELIDECLR -/

/-- SHOOTDOWN (R150): no access uses an entry older than the memory's, so the command ends at once. -/
def shootdownStatus (q va len : Nat) : Op Nat := return if q ≤ 63 ∧ va % 4096 = 0 ∧ len % 4096 = 0 then 0 else 3

def execShootdown (q va len : Nat) (s : State) : Outcome := event (command 2 [q, va, len] (shootdownStatus q va len)) s

/-- ELIDECLR (R228): entries below the index go. -/
def elideclrStatus (q idx : Nat) : Op Nat := do
  if 63 < q ∨ 2 ^ 32 ≤ idx then return 3
  else
    modQueue q fun qu => { qu with elisions := qu.elisions.filter fun e => idxAtLeast e.recIdx idx }
    return 0

def execElideclr (q idx : Nat) (s : State) : Outcome := event (command 3 [q, idx] (elideclrStatus q idx)) s

/-! ## COMMSET -/

/-- A member record (Table 18-9), if its fields are in range. -/
def memberOf (bs : List Byte) : Option Member :=
  let pkg := (bs.getD 1 0).toNat
  let mac := ofBytes ((bs.drop 8).take 6)
  let rsv := ofBytes ((bs.drop 2).take 6) + ofBytes ((bs.drop 14).take 2)
  match (bs.getD 0 0).toNat with
  | 0 => if mac = 0 ∧ rsv = 0 then some (.pkg pkg) else none
  | 1 => if pkg = 0 ∧ rsv = 0 then some (.ether mac) else none
  | _ => none

def Member.isEther : Member → Bool
  | .ether _ => true
  | .pkg _ => false

/-- All of a list of options, or none. -/
def allSome {α : Type} : List (Option α) → Option (List α)
  | [] => some []
  | none :: _ => none
  | some a :: t => (allSome t).map (a :: ·)

/-- A communicator table entry (Table 18-8) with its member list, if it passes the checks of R293 that concern it
alone. -/
def commOf (s : State) (a : Nat) : Option Comm :=
  let bs := Memory.read s.mem a 64
  let f (off n : Nat) := ofBytes ((bs.drop off).take n)
  let n := f 2 2
  let own := f 4 2
  let kind := f 6 1
  let timeout := f 8 4
  let list := f 0x10 8
  let ok := f 7 1 = 0 && f 0x0C 4 = 0 && f 0x18 40 = 0 && 2 ≤ n && n ≤ 1024 && own < n && kind ≤ 1
    && (timeout = 0 || (4000 ≤ timeout && timeout ≤ 240000000)) && list % 16 = 0 && list + 16 * n ≤ s.physLimit
  if !ok then none
  else match allSome ((List.range n).map fun i => memberOf (Memory.read s.mem (list + 16 * i) 16)) with
    | none => none
    | some ms =>
      if (kind = 0 ∧ ms.any Member.isEther) ∨ ms[own]? ≠ some (.pkg s.domainId) then none
      else some { id := f 0 2, strict := kind = 0, members := ms, ownRank := own, timeout := if timeout = 0 then 4000000 else timeout }

/-- The package's communicators after a table is applied. -/
def mergeComms (old new : List Comm) : List Comm := old.filter (fun c => !new.any (·.id = c.id)) ++ new

/-- The sequences the package takes part in: its own domain's, and those of other Ordinals (R259). -/
def sequencesOf (cs : List Comm) : List Nat := (0 :: cs.map seqOf).dedup

/-- COMMSET (R258, R259, R293). (DESIGN CHOICE log 35) -/
def commsetStatus (table count : Nat) : Op Nat := do
  let s ← get
  if table % 64 ≠ 0 ∨ count = 0 ∨ 4096 < count ∨ s.physLimit < table + 64 * count then return 3
  else match allSome ((List.range count).map fun i => commOf s (table + 64 * i)) with
    | none => return 3
    | some cs =>
      let all := mergeComms s.comms cs
      if !decide (cs.map (·.id)).Nodup ∨ 4096 < all.length ∨ 4 < (sequencesOf all).length then return 3
      else if s.regs.any fun r => cs.any (·.id = r.comm) then return 2
      else
        set { s with comms := all }
        return 0

def execCommset (table count : Nat) (s : State) : Outcome := event (command 4 [table, count] (commsetStatus table count)) s

/-! ## POWERLIMIT, DOMAINID, APERTURE -/

/-- POWERLIMIT (R18). -/
def powerlimitStatus (watts : Nat) : Op Nat := do
  if 1200 ≤ watts ∧ watts ≤ 2400 ∧ watts % 25 = 0 then
    modify fun s => { s with powerLimit := watts }
    return 0
  else return 3

def execPowerlimit (watts : Nat) (s : State) : Outcome := event (command 5 [watts] (powerlimitStatus watts)) s

/-- DOMAINID (R277, R291). -/
def domainidStatus (id : Nat) : Op Nat := do
  let s ← get
  if 255 < id then return 3
  else if s.collSeen then return 2
  else
    set { s with domainId := id }
    return 0

def execDomainid (id : Nat) (s : State) : Outcome := event (command 6 [id] (domainidStatus id)) s

/-- APERTURE (R285): anywhere in the package's physical address space, at a 64 GiB boundary. -/
def apertureStatus (base : Nat) : Op Nat := do
  if base % 2 ^ 36 = 0 ∧ base < 2 ^ 40 then
    modify fun s => { s with bar2 := base }
    return 0
  else return 3

def execAperture (base : Nat) (s : State) : Outcome := event (command 7 [base] (apertureStatus base)) s

/-! ## QRESUME -/

/-- The record at the head is dispatched again (action 0), or passed over (R220, R289): `dist` is the distance to the second
record of the pair at which the queue stopped, 0 for one record. (DESIGN CHOICE log 34) -/
def Queue.resume (q : Queue) (action dist : Nat) : Queue :=
  let b := (q.head + BitVec.ofNat 32 dist).toNat
  if action = 0 then { q with state := .waiting, consumed := if dist = 0 then q.consumed else q.consumed.filter (· ≠ b) }
  else Queue.advanceHead { q with consumed := if dist = 0 then q.consumed else b :: q.consumed }

/-- QRESUME (R54, R289). -/
def qresumeStatus (q action : Nat) : Op Nat := do
  let s ← get
  if 63 < q ∨ 1 < action then return 3
  else match (s.queue q).state with
    | .stopped dist none =>
      clearError q
      modQueue q fun qu => qu.resume action dist
      return 0
    | .stopped _ (some (ctr, recIdx, pair)) =>
      clearError q
      modQueue q fun qu => { qu with state := .waiting }
      if action = 0 then
        if !(← completionAdd q ctr) then stopHead q pair 0x08 (some (ctr, recIdx, pair)) recIdx
      return 0
    | _ => return 2

def execQresume (q action : Nat) (s : State) : Outcome := frontEvent q (command 10 [q, action] (qresumeStatus q action)) s

/-! ## An unknown code -/

/-- MAILBOX_UNKNOWN_CODE (R291). -/
def execMailboxUnknownCode (code : Byte) (s : State) : Outcome :=
  event (do
    onlyIf (code.toNat = 0 || 10 < code.toNat)
    command code.toNat [] (return 3)) s

end Sys2Proof.Machine
end

