-- ==== Sys2Proof/Machine/Firmware.lean ====
section
/-!
DEFINITION. Device reset, boot, the reduced service's end (R21, R294 to R296), and the update of the scheduler firmware
(R298, R299).
-/

namespace Sys2Proof.Machine

/-! ## Images -/

/-- The check of R294 on an image: its signature, and its security version against the fused minimum. -/
def imagePasses (img : List Byte) : Bool := Config.signatureValid img && Config.fusedMinimum ≤ Config.securityVersion img

/-- A write of FATAL, FULL or SLOT that changes it raises MSI-X vector 3 (R286). -/
def setStatus (f : StatusBlock → StatusBlock) (s : State) : State :=
  let new := f s.status
  let changed : Bool := new.fatal ≠ s.status.fatal || new.full ≠ s.status.full || new.slot ≠ s.status.slot
  { s with status := new, msix := if changed then 3 :: s.msix else s.msix }

/-! ## Device reset and boot -/

/-- DEVICE_RESET (R296): everything as reset leaves it; the image slots keep their images, and what the host has read and
the environment's agenda are not the device's. HBM is undefined afterwards (DESIGN CHOICE log 1). -/
def resetDevice (s : State) : State :=
  { State.reset with
    firmware := { Firmware.reset with images := s.firmware.images }
    hostData := s.hostData
    agenda := s.agenda
    freeCtr := s.freeCtr }

def execDeviceReset (s : State) : Outcome := .next (resetDevice s)

/-- The images of a slot: boot firmware, security engine, scheduler. -/
def slotImage (l : List (List Byte)) (i : Nat) : List Byte := l.getD i []

/-- The slot whose boot firmware the ROM accepts first (R294). -/
def romChoice (slots : List (List (List Byte))) : Option Nat :=
  (List.range 2).find? fun i => imagePasses (slotImage (slots.getD i []) 0)

/-- The boot firmware has verified the other images of its slot: key 0, SLOT and READY (R294). -/
def bootedFrom (i : Nat) (slots : List (List (List Byte))) (s : State) : State :=
  let mine := slots.getD i []
  setStatus (fun st => { st with ready := true, slot := i })
    { s with
      keys := s.keys.put 0 none
      firmware := { s.firmware with
        images := slots.map fun l => slotImage l 2
        bootSlot := i, bootDigest := Config.sha256 (slotImage mine 0), engineDigest := Config.sha256 (slotImage mine 1) } }

/-- A slot that holds a scheduler image holds the one that was staged there (R298). -/
def sameImage (held img : List Byte) : Bool := held = [] || held = img

/-- BOOT_COMPLETE (R294): from the images the slots hold. -/
def bootOp (slot0 slot1 : List (List Byte)) : Op Unit := do
  let s ← get
  let slots := [slot0, slot1]
  onlyIf (!s.status.ready && s.status.fatal = 0
    && (List.range 2).all fun i => sameImage (s.firmware.images.getD i []) (slotImage (slots.getD i []) 2))
  match romChoice slots with
  | some i =>
    let mine := slots.getD i []
    if imagePasses (slotImage mine 1) ∧ imagePasses (slotImage mine 2) then modify (bootedFrom i slots)
    else modify (setStatus fun st => { st with fatal := 2 })
  | none => modify (setStatus fun st => { st with fatal := 2 })

def execBootComplete (slot0 slot1 : List (List Byte)) (s : State) : Outcome := event (bootOp slot0 slot1) s

/-- HBM_TRAINING_COMPLETE (R21, R295): the bytes stand at the same physical addresses, the clock rises, FULL is set, the
Burlor and Ethernet ports come up. -/
def trainingOp : Op Unit := do
  let s ← get
  onlyIf (s.status.ready && !s.status.full && s.status.fatal = 0)
  modify fun s => setStatus (fun st => { st with full := true })
    { s with clocks := s.clocks.map fun c => { c with mhz := 4000 }, linksUp := true }

def execHbmTrainingComplete (s : State) : Outcome := event trainingOp s

/-! ## Live update -/

/-- FWSTAGE (R298): the image is copied into the slot that is not running and verified. -/
def fwstageStatus (slot addr len : Nat) : Op Nat := do
  let s ← get
  if 1 < slot ∨ addr % 4096 ≠ 0 ∨ len = 0 ∨ 2 ^ 26 < len ∨ s.physLimit < addr + len then return 3
  else if slot = s.status.slot then return 2
  else
    let img := Memory.read s.mem addr len
    set { s with firmware := { s.firmware with images := s.firmware.images.set slot img, staged := imagePasses img } }
    return if imagePasses img then 0 else 4

def execFwstage (slot addr len : Nat) (s : State) : Outcome := event (command 8 [slot, addr, len] (fwstageStatus slot addr len)) s

/-- What the queue section says of a queue (Table 18-5): effective priority, age, the ticks of its harts' quanta that have passed,
and the latched doorbell. -/
def State.queueData (s : State) (q : Nat) : List Nat :=
  let qu := s.queue q
  let quanta := (s.harts.filter fun h => s.queueOf h = some q).filterMap fun h => h.job.map fun j => s.time - j.since
  qu.eff :: qu.age :: qu.tail.toNat :: quanta.length :: quanta

/-- What the sections say: the 64 queue states; the elision records and barriers of each queue; the saved contexts. -/
def State.handoverData (s : State) (part : Nat) : List Nat :=
  let qs := List.range 64
  match part with
  | 0 => qs.flatMap s.queueData
  | 1 => qs.flatMap fun q =>
      let qu := s.queue q
      qu.elisions.length :: (qu.elisions.flatMap fun e => [e.recIdx, e.desc.toNat]) ++ qu.barriers.length :: qu.barriers
  | _ => s.contexts.map (·.id)

/-- The bytes of one section. -/
def State.handoverPart (s : State) (i : Nat) : List Byte := Config.handoverSection i (s.handoverData i)

/-- Where section `i` lies: the sections follow CRC, in the order in which the table names them. -/
def State.handoverOff (s : State) (i : Nat) : Nat := 0x34 + ((List.range i).flatMap s.handoverPart).length

/-- The handover structure (Table 18-5) that the running image writes. CRC covers bytes 0x00 to 0x2F and the sections. (DESIGN CHOICE
DESIGN CHOICE log 36) -/
def State.handover (s : State) : List Byte :=
  let secs := (List.range 3).flatMap s.handoverPart
  let off (i : Nat) : List Byte := toBytes 8 (s.handoverOff i)
  let head := toBytes 4 0x4F564448 ++ toBytes 2 1 ++ toBytes 2 s.status.slot ++ toBytes 8 0
    ++ toBytes 8 (s.handoverOff 3) ++ off 0 ++ off 1 ++ off 2
  head ++ toBytes 4 (crc32c (head ++ secs)) ++ secs

/-- FWSWITCH (R299): records no longer begin, the handover structure is written, the staged image starts. Without a
staged image the command ends with status 2. (DESIGN CHOICE log 36) -/
def fwswitchOp : Op Unit := do
  let s ← get
  onlyIf (s.running 9 [])
  if s.firmware.staged then
    modify fun s => { s with firmware := { s.firmware with update := .starting s.time, handover := s.handover } }
  else modify (endCommand 2)

def execFwswitch (s : State) : Outcome := event fwswitchOp s

/-- The update ends: the queues resume, and the command has its status (R299). -/
def endUpdate (v : Nat) (s : State) : State :=
  endCommand v { s with firmware := { s.firmware with update := .none } }

/-- The previous image restarts from the same structure: the queues, the elision records and the contexts stand in the state as it
describes them (R299). -/
def restartPrevious (since : Nat) (s : State) : State := { s with firmware := { s.firmware with update := .restarting since } }

/-- FW_HEARTBEAT (R299): in time, the staged image runs on from its slot; one that does not accept the structure's VERSION
gives way to the previous image, whose own heartbeat ends the update with status 5 (Table 18-6). -/
def fwHeartbeatOp (accepts : Bool) : Op Unit := do
  let s ← get
  match s.firmware.update with
  | .starting t =>
    onlyIf (s.time - t ≤ 4000)
    if accepts then
      modify fun s => endUpdate 0 (setStatus (fun st => { st with slot := 1 - st.slot })
        { s with firmware := { s.firmware with staged := false } })
    else modify (restartPrevious t)
  | .restarting _ => modify (endUpdate 5)
  | .none => onlyIf false

def execFwHeartbeat (accepts : Bool) (s : State) : Outcome := event (fwHeartbeatOp accepts) s

/-- FW_HEARTBEAT_TIMEOUT (R299): no heartbeat in time; the previous image restarts. -/
def fwTimeoutOp : Op Unit := do
  let s ← get
  match s.firmware.update with
  | .starting t =>
    onlyIf (4000 ≤ s.time - t)
    modify (restartPrevious t)
  | _ => onlyIf false

def execFwHeartbeatTimeout (s : State) : Outcome := event fwTimeoutOp s

end Sys2Proof.Machine
end

