-- ==== Sys2Proof/Machine/Power.lean ====
section
/-!
DEFINITION. Power, temperature and clocks (R18 to R20): the settings they leave; what they change is timing only.
-/

namespace Sys2Proof.Machine

/-- Change one compute die's clock. -/
def modClock (die : Nat) (f : DieClock → DieClock) : Op Unit := do
  onlyIf (die < 4)
  modify fun s => { s with clocks := s.clocks.modify die f }

/-- THERMAL_THROTTLE (R19): the die's clock falls; by how much the spec leaves open, and when it rises again: here at the end of
training and at device reset only, and `throttled` stays. (DESIGN CHOICE log 37) -/
def throttleOp (die : Nat) : Op Unit := do
  let k ← draw
  modClock die fun c => { c with throttled := true, mhz := Config.freeChoice k 0 % (c.mhz + 1) }

def execThermalThrottle (die : Nat) (s : State) : Outcome := event (throttleOp die) s

/-- A hart whose core has lost its contents (R19). -/
def Hart.lost (k : Nat) (h : Hart) : Hart :=
  { Hart.idle h.id with
    pc := Config.freeValue k 0 64, x := .undef k, f := .undef k, vregs := .undef k, preds := .undef k, sf := .undef k
    masks := .undef k, td := .undef k, tdAddr := .undef k }

/-- Memory once the contents of some of its sectors are lost: free values stand in their place (R2). -/
def loseSectors (k : Nat) (secs : List Nat) (m : List Host.Cell) : List Host.Cell :=
  (secs.filter fun n => 32 * n + 32 ≤ 2 ^ 40).foldl (fun m n =>
    Memory.write m (32 * n) ((List.range 32).map fun i => Config.freeValue k (32 * n + i) 8)) m

/-- THERMAL_TRIP (R19): harts, engines and links stop, what lies on the dies is lost, the L2's bytes that had not been written back
among it, HBM is kept; FATAL 1, the fatal-error interrupt and the status-change interrupt (R286). In the reduced service the memory
is the L2, and is lost (R295). The mailbox is free again, so that APERTURE can reach all of HBM. (DESIGN CHOICE log 37) -/
def tripOp : Op Unit := do
  let s ← get
  onlyIf (s.status.fatal ≠ 1)
  let k ← draw
  modify fun s => setStatus (fun st => { st with fatal := 1 })
    { (s.mapHarts (Hart.lost k)).forget (fun _ => true) with
      mem := if s.status.full then loseSectors k (Config.dirtySectors k) s.mem else []
      poison := if s.status.full then s.poison.filter (·.2 = .hbm) else []
      mailbox := { s.mailbox with command := none }, firmware := { s.firmware with update := .none }
      clusters := [], pins := [], launches := [], contexts := [], clusterSaves := [], linksUp := false
      msix := 0 :: s.msix }

def execThermalTrip (s : State) : Outcome := event tripOp s

/-- POWER_LIMIT_ENFORCE (R18): a die's clock falls by 125 MHz, down to 1.0 GHz; when every die is there, one issue cycle
more in eight is withheld, down to one left in eight: R18 gives that bound, and not the step. When the clock rises again and withheld
cycles return the spec leaves open: here the clock at the end of training and at device reset, the cycles at device reset. (DESIGN
CHOICE log 37) -/
def powerOp (die : Nat) : Op Unit := do
  let s ← get
  onlyIf (die < 4)
  if s.clocks.all fun c => c.mhz ≤ 1000 then set { s with withheld := min 7 (s.withheld + 1) }
  else modClock die fun c => { c with mhz := if c.mhz ≤ 1000 then c.mhz else max 1000 (c.mhz - 125) }

def execPowerLimitEnforce (die : Nat) (s : State) : Outcome := event (powerOp die) s

/-- CLOCK_STRETCH (R20). -/
def execClockStretch (die : Nat) (s : State) : Outcome := event (modClock die fun c => { c with stretched := true }) s

/-- SUPPLY_RECOVERY (R20). -/
def execSupplyRecovery (die : Nat) (s : State) : Outcome := event (modClock die fun c => { c with stretched := false }) s

end Sys2Proof.Machine
end

