-- ==== Sys2Proof/Machine/Security.lean ====
section
/-!
DEFINITION. The SPDM 1.3 responder (R297): where the conversation stands, what each request is answered, and the key
messages of a secured session. Message formats are those of the SPDM standard, which the spec names and does not restate;
an answer is held as the fields it carries (PRESUMED log 23).
-/

namespace Sys2Proof.Machine

/-- The answer to a request out of order, and to a request whose argument is not served. -/
def errUnexpected : Nat := 4
def errInvalid : Nat := 1
def errDecrypt : Nat := 6

/-- The number that orders the phases of a conversation. -/
def SpdmPhase.rank : SpdmPhase → Nat
  | .reset => 0
  | .version => 1
  | .capabilities => 2
  | .negotiated => 3
  | .exchanging => 4
  | .secured => 5

/-- A request that takes place in certain phases, else is answered with an error; its code and arguments go to the
transcript. -/
def spdmRequest (ok : SpdmPhase → Bool) (code : Byte) (args : List Byte) (f : Spdm → Spdm) : Op Unit := modify fun s =>
  let d := s.spdm
  { s with spdm :=
      if ok d.phase then f { d with transcript := d.transcript ++ code :: args } else { d with answer := .error errUnexpected } }

/-- Once the algorithms are negotiated. -/
def SpdmPhase.ready (p : SpdmPhase) : Bool := 3 ≤ p.rank

/-- The device's signature over the transcript. -/
def Spdm.sign (d : Spdm) : BitVec 512 := Config.identitySign (Config.sha256 d.transcript)

/-- SPDM_GET_VERSION: the conversation starts again. -/
def execSpdmGetVersion (s : State) : Outcome :=
  event (spdmRequest (fun _ => true) 0x84 [] fun _ =>
    { phase := .version, answer := .version 0x13, transcript := [0x84], secret := 0 }) s

def execSpdmGetCapabilities (s : State) : Outcome :=
  event (spdmRequest (· = .version) 0xE1 [] fun d => { d with phase := .capabilities, answer := .capabilities }) s

def execSpdmNegotiateAlgorithms (s : State) : Outcome :=
  event (spdmRequest (· = .capabilities) 0xE3 [] fun d => { d with phase := .negotiated, answer := .algorithms }) s

/-- SPDM_GET_DIGESTS: the digest of the certificate chain in slot 0. -/
def execSpdmGetDigests (s : State) : Outcome :=
  event (spdmRequest SpdmPhase.ready 0x81 [] fun d => { d with answer := .digests (Config.sha256 Config.certificateChain) }) s

def execSpdmGetCertificate (off len : Nat) (s : State) : Outcome :=
  event (spdmRequest SpdmPhase.ready 0x82 (toBytes 4 off ++ toBytes 4 len) fun d =>
    { d with answer := .certificate ((Config.certificateChain.drop off).take len) }) s

/-- SPDM_CHALLENGE: the chain's digest, a nonce of the device, and a signature over the transcript. -/
def challengeOp (nonce : BitVec 256) : Op Unit := do
  let k ← draw
  spdmRequest SpdmPhase.ready 0x83 (toBytes 32 nonce.toNat) fun d =>
    { d with answer := .challenge (Config.sha256 Config.certificateChain) (Config.freeValue k 0 256) d.sign }

def execSpdmChallenge (nonce : BitVec 256) (s : State) : Outcome := event (challengeOp nonce) s

/-- Measurements 1 to 5 (R297): ROM, boot firmware, security engine image, running scheduler image, fuses. -/
def measurement (s : State) (i : Nat) : BitVec 256 :=
  match i with
  | 1 => Config.romDigest
  | 2 => s.firmware.bootDigest
  | 3 => s.firmware.engineDigest
  | 4 => Config.sha256 (s.firmware.images.getD s.status.slot [])
  | _ => Config.fuseDigest

/-- SPDM_GET_MEASUREMENTS: one of the five, or all of them for index 0xFF. -/
def measurementsOp (index : Nat) (nonce : BitVec 256) : Op Unit := do
  let s ← get
  let k ← draw
  let which := if index = 0xFF then [1, 2, 3, 4, 5] else if 1 ≤ index ∧ index ≤ 5 then [index] else []
  spdmRequest SpdmPhase.ready 0xE0 (toBytes 1 index ++ toBytes 32 nonce.toNat) fun d =>
    if which = [] then { d with answer := .error errInvalid }
    else { d with answer := .measurements (which.map fun i => (i, measurement s i)) (Config.freeValue k 0 256) d.sign }

def execSpdmGetMeasurements (index : Nat) (nonce : BitVec 256) (s : State) : Outcome := event (measurementsOp index nonce) s

/-- SPDM_KEY_EXCHANGE: the device's share and signature; the session's secret is derived. -/
def keyExchangeOp (peerShare : BitVec 512) : Op Unit := do
  let k ← draw
  spdmRequest (· = .negotiated) 0xE4 (toBytes 64 peerShare.toNat) fun d =>
    { d with phase := .exchanging, secret := Config.ecdhe k peerShare, answer := .keyExchange (Config.freeValue k 0 512) d.sign }

def execSpdmKeyExchange (peerShare : BitVec 512) (s : State) : Outcome := event (keyExchangeOp peerShare) s

/-- SPDM_FINISH: the peer proves that it holds the secret, and the session is secured. -/
def execSpdmFinish (mac : BitVec 256) (s : State) : Outcome :=
  event (spdmRequest (· = .exchanging) 0xE5 (toBytes 32 mac.toNat) fun d =>
    if mac = Config.finishMac d.secret s.spdm.transcript then { d with phase := .secured, answer := .finished }
    else { d with phase := .negotiated, secret := 0, answer := .error errDecrypt }) s

def execSpdmEndSession (s : State) : Outcome :=
  event (spdmRequest (· = .secured) 0xEC [] fun d => { d with phase := .negotiated, secret := 0, answer := .ended }) s

/-! ## Keys -/

/-- A vendor-defined key message, taken only in a secured session and for an index from 1 to 8,191 (R297). (DESIGN CHOICE log 43) -/
def keyMessage (k : Nat) (f : Tab (Option (BitVec 512)) → Tab (Option (BitVec 512))) : Op Unit := modify fun s =>
  if s.spdm.phase ≠ .secured then { s with spdm := { s.spdm with answer := .error errUnexpected } }
  else if k = 0 ∨ 8191 < k then { s with spdm := { s.spdm with answer := .error errInvalid } }
  else { s with keys := f s.keys, spdm := { s.spdm with answer := .ack } }

/-- KEY_LOAD (R297): no access is under way between steps, so the load takes effect at once. -/
def execKeyLoad (k : Nat) (key : BitVec 512) (s : State) : Outcome := event (keyMessage k fun t => t.put k (some key)) s

/-- KEY_CLEAR (R297): later accesses fail check 5 of Table 07-2. -/
def execKeyClear (k : Nat) (s : State) : Outcome := event (keyMessage k fun t => t.drop k) s

end Sys2Proof.Machine
end

