-- ==== Sys2Proof/Machine/Fabric.lean ====
section
/-!
DEFINITION. The fabric: remote accesses of the Burlor domain at their home and at their issuer (R151, R277, R278), and the
Ethernet sessions (R276).
-/

namespace Sys2Proof.Machine

/-! ## Burlor -/

/-- May a remote access under a key be performed at this, its home package: its bytes exist and the key is loaded
(Table 07-2, check 5)? -/
def State.homeOk (s : State) (pa n key : Nat) : Bool := s.linksUp && pa + n ≤ s.physLimit && (s.keys.get? key).isSome

/-- Bytes of this package's memory as another package reads them under a key (R151). -/
def State.homeRead (s : State) (pa n key : Nat) : List Byte := readUnder (s.cryptKey s.domainId key) s.mem pa n

/-- Bytes that arrive from another package, written under a key (R151). -/
def homeWrite (pa key : Nat) (bs : List Byte) : Op Unit := do
  let ls := (List.range bs.length).map fun i => Loc.mem (pa + i)
  modify fun s => { s with mem := writeUnder (s.cryptKey s.domainId key) s.mem pa bs }
  clearPoison ls
  breakReservations (ls.map Loc.resKey)

/-- REMOTE_ACCESS_AT_HOME (R277): a read is answered, a write made, an AMO performed whole and its old value answered. An
access that fails its check gets no answer. -/
def remoteAtHomeOp (op : RemoteOp) (pa key : Nat) : Op Unit := do
  let s ← get
  match op with
  | .read n =>
    onlyIf (s.homeOk pa n key)
    modify fun s => { s with homeData := s.homeRead pa n key }
  | .write bs =>
    onlyIf (s.homeOk pa bs.length key)
    homeWrite pa key bs
  | .amo op dbl v =>
    let n := if dbl then 8 else 4
    onlyIf (s.homeOk pa n key && pa % n = 0)
    let old := s.homeRead pa n key
    modify fun s => { s with homeData := old }
    homeWrite pa key (toBytes n (amoValue op (8 * n) (ofBytes old) v.toNat))
  | .vamo op t v =>
    let n := ebOf t.code
    onlyIf (s.homeOk pa n key && pa % n = 0)
    let old := s.homeRead pa n key
    modify fun s => { s with homeData := old }
    homeWrite pa key (toBytes n (vamoOp op t.code (ofBytes old) (v.toNat % 2 ^ (8 * n))))

def execRemoteAccessAtHome (op : RemoteOp) (pa key : Nat) (s : State) : Outcome := event (remoteAtHomeOp op pa key) s

/-- REMOTE_READ_TIMEOUT (R277): the access of that kind that the hart makes at that address and element gets no answer; it
raises its access fault 4,000 ticks after the hart has made it. -/
def remoteTimeoutOp (hart : Nat) (kind : RemoteKind) (elem : Nat) (va : Word) : Op Unit := do
  let s ← get
  let h := s.hartOf hart
  onlyIf (h.status = .running)
  set (s.setHart { h with remoteFault := some { kind := kind, elem := elem, va := va, since := none } })

def execRemoteReadTimeout (hart : Nat) (kind : RemoteKind) (elem : Nat) (va : Word) (s : State) : Outcome :=
  event (remoteTimeoutOp hart kind elem va) s

/-- May a writer still make a write: a running hart, a Scarab command, a collective? -/
def State.mayWrite (s : State) (w : Writer) : Bool :=
  match w with
  | .hart id => (s.hartOf id).status = .running
  | .context _ | .launch _ | .gone => false
  | .scarab c => s.clusters.any fun p => p.2.scarab.any (·.id = c)
  | .coll comm tag => s.regs.any fun r => r.comm = comm && r.tag = tag

/-- REMOTE_WRITE_UNDELIVERABLE (R278): the remote write that this writer makes at this address will not be delivered. Its home
never takes the bytes; the writer's next release that covers it faults at its address, and where none follows it is lost and
counted. (DESIGN CHOICE log 13) -/
def undeliverableOp (w : Writer) (va : Word) : Op Unit := do
  let s ← get
  onlyIf (s.mayWrite w)
  set { s with doomed := s.doomed ++ [(w, va)] }

def execRemoteWriteUndeliverable (writer : Writer) (va : Word) (s : State) : Outcome := event (undeliverableOp writer va) s

/-! ## Ethernet sessions (R276) -/

def State.session? (s : State) (peer : Nat) : Option Session := s.sessions.find? (·.peer = peer)

def putSession (v : Session) (s : State) : State := { s with sessions := s.sessions.filter (·.peer ≠ v.peer) ++ [v] }

/-- A session with fresh keys: nothing sealed, nothing received. -/
def freshSession (peer : Nat) (key : BitVec 256) (k : Nat) (unacked : List Nat) (delivered : List (List Byte)) : Session :=
  { peer := peer, key := key, salt := Config.freeValue k 1 32, nextRecv := 0, sealed := 0, sealedBytes := 0, unacked := unacked
    delivered := delivered }

/-- SESSION_KEY_EXCHANGE: the security engines key the session. -/
def sessionKeyOp (peer : Nat) (share : BitVec 512) : Op Unit := do
  let s ← get
  onlyIf s.linksUp
  let k ← draw
  modify (putSession (freshSession peer (Config.ecdhe k share) k [] []))

def execSessionKeyExchange (peer : Nat) (share : BitVec 512) (s : State) : Outcome := event (sessionKeyOp peer share) s

/-- SESSION_REKEY: new key and salt, the counts start again; what has been delivered stays, and what is not acknowledged is still
to be sent again. -/
def rekeyOp (peer : Nat) : Op Unit := do
  let s ← get
  match s.session? peer with
  | some v =>
    let k ← draw
    modify (putSession (freshSession peer (Config.freeValue k 0 256) k v.unacked v.delivered))
  | none => onlyIf false

def execSessionRekey (peer : Nat) (s : State) : Outcome := event (rekeyOp peer) s

/-- The 96-bit nonce: the salt, then the record sequence number. -/
def nonceOf (v : Session) (n : Nat) : BitVec 96 := BitVec.ofNat 96 (v.salt.toNat * 2 ^ 64 + n % 2 ^ 64)

/-- ETHERNET_RECORD_RECEIVE: a record that authenticates and comes in sequence is delivered; any other is discarded and
counted in SESSBAD. -/
def recordReceiveOp (peer n : Nat) (bytes : List Byte) : Op Unit := do
  let s ← get
  onlyIf s.linksUp
  let bad : Op Unit := set { s with status := { s.status with sessbad := s.status.sessbad + 1 } }
  match s.session? peer with
  | some v =>
    if n = v.nextRecv ∧ Config.gcmValid v.key (nonceOf v n) bytes then
      set (putSession { v with nextRecv := n + 1, delivered := v.delivered ++ [Config.gcmOpen v.key (nonceOf v n) bytes] } s)
    else bad
  | none => bad

def execEthernetRecordReceive (peer : Nat) (seqNum : Nat) (rec : List Byte) (s : State) : Outcome :=
  event (recordReceiveOp peer seqNum rec) s

/-- May a session seal one more record of `n` bytes before it must rekey? -/
def Session.maySeal (v : Session) (n : Nat) : Bool := v.sealed + 1 < 2 ^ 31 && v.sealedBytes + n < 2 ^ 40

/-- Seal one record of `n` bytes. -/
def Session.seal (v : Session) (n : Nat) : Session :=
  { v with sealed := v.sealed + 1, sealedBytes := v.sealedBytes + n, unacked := v.unacked ++ [v.sealed] }

/-- ETHERNET_RETRANSMISSION: a record sent and not acknowledged goes out again, sealed as it was. -/
def retransmitOp (peer n : Nat) : Op Unit := do
  let s ← get
  match s.session? peer with
  | some v => onlyIf (s.linksUp && v.unacked.contains n)
  | none => onlyIf false

def execEthernetRetransmission (peer : Nat) (seqNum : Nat) (s : State) : Outcome := event (retransmitOp peer seqNum) s

end Sys2Proof.Machine
end

