-- ==== Sys2Proof/Machine/Ordinal.lean ====
section
/-!
DEFINITION. The Ordinal of this package's hub die (R258, R266 to R268, R271, R273, R274, R280): what it does with
registrations, start reports and cancellations, its numbering, its replication, and how it takes over.
-/

namespace Sys2Proof.Machine

/-! ## Entries -/

/-- The values that count: rank 0's (R258). -/
def OrdEntry.rank0 (e : OrdEntry) : Option RegMsg := e.regs.find? (·.rank = 0)

/-- Have ranks 0 to n - 1 all registered? -/
def OrdEntry.complete (e : OrdEntry) : Bool :=
  match e.rank0 with
  | some m => (List.range m.n).all fun r => e.regs.any (·.rank = r)
  | none => false

/-- Does a registration disagree with rank 0's (R258)? -/
def disagrees (z m : RegMsg) : Bool := m.n ≠ z.n || m.strict ≠ z.strict || m.timeout ≠ z.timeout || z.n ≤ m.rank

def OrdEntry.mismatched (e : OrdEntry) : Bool :=
  match e.rank0 with
  | some z => e.regs.any (disagrees z)
  | none => false

/-- Has a package a rank that is not below n (R258)? -/
def OrdEntry.outside (e : OrdEntry) (pkg : Nat) : Bool :=
  match e.rank0, e.regs.find? (·.pkg = pkg) with
  | some z, some m => z.n ≤ m.rank
  | _, _ => false

def OrdEntry.fresh (comm tag : Nat) : OrdEntry :=
  { comm := comm, tag := tag, regs := [], num := none, void := false, aborted := false, starts := [], timer := none
    contributors := none, outcome := none, ended := false, gone := [], prevs := [], finished := false, mine := none, passed := false, answers := [] }

/-! ## Numbering -/

/-- Numbered and unfinished collectives, the void ones among them (R267): a collective is unfinished until its members have ended
it. -/
def Ordinal.unfinished (o : Ordinal) : List OrdEntry := o.entries.filter fun e => e.num.isSome && !e.finished

/-- May the next number be assigned (R267)? -/
def Ordinal.mayNumber (o : Ordinal) : Bool :=
  o.unfinished.length < 2 ^ 20
    && o.unfinished.all fun e => (o.nextNum + 2 ^ 32 - (e.num.getD 0) % 2 ^ 32) % 2 ^ 32 < 2 ^ 29

/-- The entries of a (COMM, TAG), oldest first. -/
def Ordinal.forTag (o : Ordinal) (comm tag : Nat) : List OrdEntry := o.entries.filter fun e => e.comm = comm && e.tag = tag

/-- The open ones: at most one of them is unnumbered. -/
def Ordinal.openFor (o : Ordinal) (comm tag : Nat) : List OrdEntry := (o.forTag comm tag).filter (!·.ended)

/-- The entry that another package's cancellation concerns: the last that its rank has registered and whose collective is not finished,
else the last that it has registered. -/
def Ordinal.cancelEntry (o : Ordinal) (comm tag rank : Nat) : Option OrdEntry :=
  let mine := (o.forTag comm tag).reverse.filter fun e => e.regs.any (·.rank = rank)
  (mine.find? (!·.finished)).or mine.head?

/-- The entry that holds a registration of this package's. -/
def Ordinal.holding (o : Ordinal) (reg : Nat) : Option OrdEntry := o.entries.reverse.find? (·.mine = some reg)

def Ordinal.byNum (o : Ordinal) (num : Nat) : Option OrdEntry := o.entries.reverse.find? (·.num = some num)

/-- Change the last entry of a (COMM, TAG). -/
def modLast (p : OrdEntry → Bool) (f : OrdEntry → OrdEntry) : List OrdEntry → List OrdEntry
  | [] => []
  | e :: t => if p e && !t.any p then f e :: t else e :: modLast p f t

/-- Put an entry in its place: that of its number, else the unnumbered one's; one that stands for no open entry is new. -/
def Ordinal.put (o : Ordinal) (e : OrdEntry) : Ordinal :=
  let mine (num : Option Nat) (d : OrdEntry) : Bool := d.comm = e.comm && d.tag = e.tag && !d.ended && d.num = num
  if o.entries.any (mine e.num) then { o with entries := modLast (mine e.num) (fun _ => e) o.entries }
  else if o.entries.any (mine none) then { o with entries := modLast (mine none) (fun _ => e) o.entries }
  else { o with entries := o.entries ++ [e] }

/-- Change the entry of a number. -/
def Ordinal.modNum (o : Ordinal) (num : Nat) (f : OrdEntry → OrdEntry) : Ordinal :=
  { o with entries := modLast (·.num = some num) f o.entries }

/-- The last number in a package's chain (R266). -/
def Ordinal.chainOf (o : Ordinal) (pkg : Nat) : Option Nat := (o.chains.find? (·.1 = pkg)).map (·.2)

/-- A notice for a number enters a package's chain; it carries as PREV the chain's last number, as it is now, or as it was when
the registration of a void collective arrived (R266, R280). -/
def notifyOne (num : Nat) (p : Ordinal × OrdEntry) (m : RegMsg) : Ordinal × OrdEntry :=
  let (o, e) := p
  let prev := match e.prevs.find? (·.1 = m.pkg) with
    | some (_, v) => v
    | none => o.chainOf m.pkg
  ({ o with chains := (m.pkg, num) :: o.chains.filter (·.1 ≠ m.pkg) },
   { e with prevs := e.prevs.filter (·.1 ≠ m.pkg) ++ [(m.pkg, prev)] })

/-- A void entry that every member has registered is freed (R268, R280). -/
def OrdEntry.freed (e : OrdEntry) : OrdEntry := if e.void && e.num.isSome && e.complete then { e with ended := true } else e

/-- The next number goes to an entry, and a notice to each package that has registered it; a mismatched collective aborts, unless it
is void (R258, R266, R268). -/
def Ordinal.number (o : Ordinal) (e : OrdEntry) : Ordinal :=
  let num := o.nextNum
  let e := { e with num := some num, aborted := !e.void && e.mismatched }
  let (o, e) := e.regs.foldl (notifyOne num) (o, e)
  { o with nextNum := (num + 1) % 2 ^ 32 }.put e.freed

/-! ## Replication -/

/-- Which registration of this package has a number in a sequence. -/
def Registration.numIs (num seq : Nat) (r : Registration) : Bool :=
  r.seq = seq && (match r.state with
    | .unnumbered => false
    | .numbered n _ _ _ => n = num
    | .started n => n = num)

/-- The answer to a cancellation of a registration reaches the harts that wait for it; one that comes after 300 ticks finds result 4
(R264, R279). A registration made later under the same (COMM, TAG) is another one. -/
def answerHarts (reg answer : Nat) (s : State) : State :=
  s.mapHarts fun h => match h.cancel with
    | some c => if c.reg = reg then returnCancel (if s.time - c.since ≤ 300 then answer else 4) h else h
    | none => h

/-- The registration of a number has changed. -/
def State.modReg (s : State) (p : Registration → Bool) (f : Registration → Registration) : State :=
  { s with regs := s.regs.map fun r => if p r then f r else r }

/-- What the primary does once an entry is replicated (R273): an accepted start report takes effect at the member, a
cancellation is answered. -/
def performed (comm : Nat) (k : ReplicaKind) (s : State) : State :=
  match k with
  | .assign => s
  | .start num rank =>
    if (s.comm? comm).map (·.ownRank) = some rank then s.modReg (·.numIs num 0) fun r => { r with accepted := true } else s
  | .cancel _ answer (some reg) => answerHarts reg answer (s.modReg (·.id = reg) fun r => { r with cancelPending := false })
  | .cancel _ _ none => s

/-- An entry goes to the standby, and what depends on it waits for the acknowledgement; without a standby it is done at
once (R273). -/
def replicate (comm tag : Nat) (k : ReplicaKind) (s : State) : State :=
  let o := s.ordinal
  match o.standby with
  | none => performed comm k s
  | some _ =>
    let r : Replica := { id := o.nextReplica, comm := comm, tag := tag, kind := k }
    { s with ordinal := { o with
      pending := o.pending ++ [r], nextReplica := o.nextReplica + 1, lastAck := if o.pending = [] then s.time else o.lastAck } }

/-- Number an entry and replicate the assignment. -/
def numberEntry (e : OrdEntry) (s : State) : State :=
  replicate e.comm e.tag .assign { s with ordinal := s.ordinal.number e }

/-- Has the primary waited for an acknowledgement for 100 ticks (R273)? -/
def State.ackLate (s : State) : Bool := s.ordinal.pending ≠ [] && 100 ≤ s.time - s.ordinal.lastAck

/-- The Ordinal here is the primary, and it assigns and answers: it stops once an acknowledgement is 100 ticks late (R273, R7). -/
def State.ordinalActive (s : State) : Bool :=
  s.ordinal.role = .primary && !s.ordinal.stopped && !s.ordinal.lost && !s.ackLate

/-! ## The events -/

/-- The entry a registration joins: the oldest open one of its (COMM, TAG) that its package has not registered, since two
registrations of one package never match (R266), or a new one. -/
def Ordinal.openEntry (o : Ordinal) (m : RegMsg) : OrdEntry :=
  ((o.openFor m.comm m.tag).find? fun e => !e.regs.any (·.pkg = m.pkg)).getD (.fresh m.comm m.tag)

/-- Has a package registered an entry? -/
def OrdEntry.has (e : OrdEntry) (pkg : Nat) : Bool := e.regs.any (·.pkg = pkg)

/-- The entries that a registration's package has registered. -/
def Ordinal.heldBy (o : Ordinal) (m : RegMsg) : List OrdEntry := (o.forTag m.comm m.tag).filter (·.has m.pkg)

/-- The registration carries a communicator's values (R258). -/
def carries (c : Comm) (m : RegMsg) : Bool :=
  m.n = c.members.length && m.strict = c.strict && m.timeout = c.timeout && m.rank = c.ownRank

/-- An engine's place in a sequence. -/
def State.seqAt (s : State) (id : Nat) : Sequence := (s.seqs.find? (·.id = id)).getD { id := id, endedNums := [], running := none }
def putSeq (v : Sequence) (s : State) : State := { s with seqs := v :: s.seqs.filter (·.id ≠ v.id) }

/-- The live registration of this package that the Ordinal here has not numbered. -/
def State.ownReg (s : State) (comm tag : Nat) : Option Registration :=
  s.regs.find? fun r => r.comm = comm && r.tag = tag && r.seq = 0 && r.state = .unnumbered

/-- A registration that can arrive: this package's comes from a live COLL of its own that is not numbered, with its communicator's
values (R263, R281); another's is sent again (R274), or none of the (COMM, TAG) stands unnumbered, since one live registration holds
it at a package (R261). -/
def State.mayRegister (s : State) (m : RegMsg) : Bool :=
  if m.pkg = s.domainId then
    !m.first && (s.ownReg m.comm m.tag).isSome
      && ((s.comm? m.comm).map (carries · m)).getD false
  else m.resent || !(s.ordinal.heldBy m).any (·.num.isNone)

/-- A registration that the Ordinal has already: this package's own, another's that is sent again. -/
def State.registered (s : State) (m : RegMsg) : Bool :=
  if m.pkg = s.domainId then ((s.ownReg m.comm m.tag).bind fun r => s.ordinal.holding r.id).isSome
  else (s.ordinal.heldBy m).any fun e => m.resent && !e.finished

/-- An entry takes a registration, `own` where it is this package's; a void one that has no number yet keeps the PREV that its notice
will carry (R280). -/
def OrdEntry.join (e : OrdEntry) (o : Ordinal) (m : RegMsg) (own : Option Nat) : OrdEntry :=
  { e with
    regs := e.regs ++ [m]
    mine := e.mine.or own
    prevs := if e.void && e.num.isNone then e.prevs ++ [(m.pkg, o.chainOf m.pkg)] else e.prevs }

/-- The first collective of a package since its own device reset carries no PREV (R266). -/
def Ordinal.joined (o : Ordinal) (m : RegMsg) : Ordinal :=
  if m.first then { o with chains := o.chains.filter (·.1 ≠ m.pkg) } else o

/-- A registration of a collective that is numbered already: a void notice (R258, R280). -/
def Ordinal.lateNotice (o : Ordinal) (e : OrdEntry) (num : Nat) (m : RegMsg) : Ordinal :=
  let (o, e) := notifyOne num (o, e) m
  o.put e.freed

/-- ORDINAL_REGISTRATION (R258, R266, R274, R280). -/
def registrationOp (m : RegMsg) : Op Unit := do
  let s ← get
  onlyIf (s.ordinalActive && s.mayRegister m)
  if s.registered m then pure ()
  else
    let s := { s with ordinal := s.ordinal.joined m }
    let own := if m.pkg = s.domainId then (s.ownReg m.comm m.tag).map (·.id) else none
    let e := (s.ordinal.openEntry m).join s.ordinal m own
    match e.num with
    | some num => set { s with ordinal := s.ordinal.lateNotice e num m }
    | none =>
      if (e.complete ∨ e.void) ∧ s.ordinal.mayNumber then set (numberEntry e s)
      else set { s with ordinal := s.ordinal.put e }

def execOrdinalRegistration (m : RegMsg) (s : State) : Outcome := event (registrationOp m) s

/-- ORDINAL_DEFERRED_NUMBER (R267, R268). -/
def deferredOp (comm tag : Nat) : Op Unit := do
  let s ← get
  match (s.ordinal.openFor comm tag).find? (·.num.isNone) with
  | some e =>
    onlyIf (s.ordinalActive && (e.complete || e.void) && s.ordinal.mayNumber)
    set (numberEntry e s)
  | none => onlyIf false

def execOrdinalDeferredNumber (comm tag : Nat) (s : State) : Outcome := event (deferredOp comm tag) s

def Registration.isStarted (r : Registration) : Bool := match r.state with
  | .started _ => true
  | _ => false

def State.regOf (s : State) (num seq : Nat) : Option Registration := s.regs.find? (·.numIs num seq)

/-- May the primary accept a start report (R268, R271)? -/
def OrdEntry.mayStart (e : OrdEntry) (rank : Nat) : Bool :=
  !e.void && !e.aborted && !e.ended && e.outcome.isNone && !e.starts.contains rank && e.contributors.isNone
    && !e.gone.contains rank && (match e.rank0 with | some z => rank < z.n | none => false)

/-- Has the primary, or the one before it, accepted a start report that still counts? -/
def OrdEntry.startStands (e : OrdEntry) (rank : Nat) : Bool :=
  !e.void && !e.ended && e.outcome.isNone && e.starts.contains rank && !e.gone.contains rank
    && (match e.contributors with | some cs => cs.contains rank | none => true)

/-- The members whose start reports are accepted and whose engines have met no fault (R271, R272). -/
def OrdEntry.present (e : OrdEntry) : List Nat := e.starts.filter (!e.gone.contains ·)

/-- The tick at which the timer of an entry runs out (R271). -/
def OrdEntry.deadline (e : OrdEntry) : Option Nat :=
  match e.timer, e.rank0 with
  | some t, some z => some (t + z.timeout)
  | _, _ => none

/-- Has the timer of an entry run out (R271)? -/
def OrdEntry.timedOut (e : OrdEntry) (time : Nat) : Bool := (e.deadline.map (decide <| · ≤ time)).getD false

/-- Does an entry of a kind wait for the standby's acknowledgement? -/
def Ordinal.awaits (o : Ordinal) (comm tag : Nat) (k : ReplicaKind) : Bool :=
  o.pending.any fun p => p.comm = comm && p.tag = tag && p.kind = k

/-- The domain's Ordinal is lost: its sequence stalls (R274). -/
def State.stalled (s : State) (seq : Nat) : Bool := seq = 0 && s.ordinal.lost

def State.commSeq (s : State) (comm : Nat) : Nat := ((s.comm? comm).map seqOf).getD 0

/-- Another hub die's Ordinal accepts this package's start report. -/
def acceptedAbroad (num seq rank : Nat) (s : State) : State :=
  { s with regs := s.regs.map fun (r : Registration) =>
    if r.isStarted && r.verdict.isNone && r.numIs num seq && !s.stalled seq && (s.comm? r.comm).map (·.ownRank) = some rank
    then { r with accepted := true } else r }

/-- ORDINAL_START_REPORT (R259, R268, R271, R274): in this domain's sequence at its primary, accepted and timed, or one that the
replica holds already and a member sends again; else the acceptance of this package's report by the Ordinal of another hub die. -/
def startReportOp (num seq rank : Nat) : Op Unit := do
  let s ← get
  if seq = 0 ∧ s.ordinal.role = .primary then
    match s.ordinal.byNum num with
    | some e =>
      onlyIf (s.ordinalActive && ((e.mayStart rank && !e.timedOut s.time) || (e.startStands rank && !s.ordinal.awaits e.comm e.tag (.start num rank))))
      onlyIf ((s.comm? e.comm).map (·.ownRank) ≠ some rank || ((s.regOf num 0).map (·.isStarted)).getD false)
      if e.startStands rank then modify (performed e.comm (.start num rank))
      else
        let e := { e with starts := e.starts ++ [rank], timer := e.timer.or (some s.time) }
        modify fun s => replicate e.comm e.tag (.start num rank) { s with ordinal := s.ordinal.put e }
    | none => onlyIf false
  else modify (acceptedAbroad num seq rank)

def execOrdinalStartReport (num : SeqNum) (rank : Nat) (s : State) : Outcome := event (startReportOp num.num num.seq rank) s

/-- Entries that the Ordinal keeps void until every member has registered (R268). -/
def Ordinal.keptVoid (o : Ordinal) : Nat := (o.entries.filter fun e => e.void && !e.ended && !e.complete).length

/-- The answer to a cancellation (Table 16-5, R279), from the entry it finds. -/
def Ordinal.cancelAnswer (o : Ordinal) (e : Option OrdEntry) : Nat :=
  match e with
  | none => 2
  | some e =>
    if e.starts ≠ [] then 1
    else if e.void ∨ e.ended ∨ e.aborted then 2
    else if e.num.isNone ∧ 65536 ≤ o.keptVoid then 3
    else 0

/-- The collective becomes void; an unnumbered one is numbered as soon as the limits allow (R268). -/
def voidEntry (e : OrdEntry) (s : State) : State :=
  let e := { e with void := true }
  if e.num.isNone ∧ s.ordinal.mayNumber then numberEntry e s
  else { s with ordinal := s.ordinal.put e.freed }

/-- The registrations of a (COMM, TAG) that cancellations of this package on their way name: a hart waits for the answer, or it stands
pending at the engine. -/
def State.cancelsSent (s : State) (comm tag : Nat) : List Nat :=
  s.harts.filterMap (fun h => (h.cancel.filter fun c => c.comm = comm && c.tag = tag).map (·.reg))
    ++ (s.regs.filter fun r => r.comm = comm && r.tag = tag && r.cancelPending).map (·.id)

/-- The cancellation that arrives first: that of the registration made first. -/
def State.nextCancel (s : State) (comm tag : Nat) : Option Nat := (s.cancelsSent comm tag).min?

/-- Another hub die's Ordinal answers. After answer 0 the collective is void at every member, and after answer 2 to a live
registration another member has voided it (R268): it ends with CANCELLED, and no start report of it is accepted (R281). -/
def answeredAbroad (reg answer : Nat) (s : State) : State :=
  answerHarts reg answer (s.modReg (·.id = reg) fun r => { r with
    cancelPending := false
    told := if answer = 3 then r.told else some answer
    verdict := if answer = 0 ∨ answer = 2 then r.verdict.or (some 2) else r.verdict })

/-- The answers that another hub die's Ordinal may give to a cancellation of a live registration (Table 16-5, R268, R279): as it will,
but 1 once a start report of it is known to be accepted, 2 once it is known to be void by an answer, 0 or 2 once a notice says so. -/
def Registration.answers (r : Registration) : List Nat :=
  match r.told with
  | some a => if a = 1 then [1] else [2]
  | none =>
    if r.accepted then [1]
    else match r.state, r.verdict with
      | .numbered _ _ true _, _ => [0, 2]
      | .numbered _ _ _ true, _ => [2]
      | _, some v => if v = 2 then [0, 2] else [1, 2]
      | _, none => [0, 1, 2, 3]

/-- The same once the collective has ended here with a status. -/
def Registration.answersAt (r : Registration) (status : Nat) : List Nat :=
  if r.told.isSome then r.answers
  else if status = 2 then [0, 2]
  else if status = 3 ∨ status = 4 then [1]
  else if status = 6 then [1, 2]
  else r.answers

/-- The answers left to a cancellation of a registration, live or ended. -/
def State.answersLeft (s : State) (reg : Nat) : List Nat :=
  match s.regs.find? (·.id = reg) with
  | some r => r.answers
  | none => (s.harts.findSome? fun h => (h.cancel.filter (·.reg = reg)).bind (·.left)).getD [2]

/-- The answer of another hub die's Ordinal, the environment says which of those left. -/
def State.answerAbroad (s : State) (reg k : Nat) : Nat :=
  let l := s.answersLeft reg
  l.getD (Config.freeChoice k 0 % l.length) 2

/-- Is this package's Ordinal the one that numbers a communicator's collectives (R258)? -/
def State.numbersHere (s : State) (comm : Nat) : Bool := s.ordinal.role = .primary && s.commSeq comm = 0

/-- The answer that the replica holds for a cancellation of a rank, in the entry it concerns (R274, R279). -/
def OrdEntry.reply? (e : OrdEntry) (rank : Nat) : Option Nat := (e.answers.find? (·.1 = rank)).map (·.2)

/-- A replica's answer has been given. -/
def Ordinal.replied (o : Ordinal) (e : OrdEntry) (rank : Nat) : Ordinal :=
  { o with entries := modLast (· = e) (fun d => { d with answers := d.answers.filter (·.1 ≠ rank) }) o.entries }

/-- Does an entry stand for this package's live registration of its (COMM, TAG): registered by it, and not ended by its engine? -/
def State.standsHere (s : State) (e : OrdEntry) : Bool := e.has s.domainId && !e.passed

/-- Is a live registration of this package still on its way to the Ordinal here? What its agents send after the COLL arrives after
it (R264, R281). -/
def State.regOnWay (s : State) (reg : Nat) : Bool :=
  s.regs.any (fun r => r.id = reg && r.state = .unnumbered) && (s.ordinal.holding reg).isNone

/-- The primary here decides a cancellation of an entry (R268); one that the primary before it had decided is answered from the
replica (R274). `reg` is the registration that this package's own names. -/
def decideCancel (comm tag rank : Nat) (e : Option OrdEntry) (reg : Option Nat) : Op Unit := do
  let s ← get
  match e, e.bind (·.reply? rank) with
  | some e, some a =>
    set (performed comm (.cancel rank a reg) { s with ordinal := s.ordinal.replied e rank })
  | _, _ =>
    let a := s.ordinal.cancelAnswer e
    match a, e with
    | 0, some e => modify (voidEntry e)
    | _, _ => pure ()
    modify (replicate comm tag (.cancel rank a reg))

/-- ORDINAL_CANCELLATION (R264, R268, R279): decided on receipt, for a registration that has arrived. This package's own are known by
the registration they name, another's by the last that its rank has made. -/
def cancellationOp (comm tag rank : Nat) : Op Unit := do
  let s ← get
  if (s.comm? comm).map (·.ownRank) = some rank then
    match s.nextCancel comm tag with
    | none => onlyIf false
    | some reg =>
      if s.numbersHere comm then
        onlyIf (s.ordinalActive && !s.regOnWay reg)
        decideCancel comm tag rank (s.ordinal.holding reg) (some reg)
      else
        onlyIf (!s.stalled (s.commSeq comm))
        let k ← draw
        modify (answeredAbroad reg (s.answerAbroad reg k))
  else
    let e := s.ordinal.cancelEntry comm tag rank
    onlyIf (s.numbersHere comm && s.ordinalActive && e.isSome)
    decideCancel comm tag rank e none

def execOrdinalCancellation (comm tag rank : Nat) (s : State) : Outcome := event (cancellationOp comm tag rank) s

/-- Is a registration here that of an entry: it has its number, or its notice has not come yet? -/
def State.isOf (s : State) (e : OrdEntry) (num : Nat) (r : Registration) : Bool :=
  r.numIs num 0 || (r.state = .unnumbered && e.mine = some r.id && s.standsHere e)

/-- A collective is decided at this member. -/
def decideHere (e : OrdEntry) (num status : Nat) (s : State) : State :=
  { s with regs := s.regs.map fun r => if s.isOf e num r then { r with verdict := r.verdict.or (some status) } else r }

/-- The Ordinal ends a collective with a status, here too. -/
def endEntry (e : OrdEntry) (num status : Nat) (s : State) : State :=
  decideHere e num status { s with ordinal := s.ordinal.put { e with outcome := some status, ended := true } }

/-- COLLECTIVE_TIMEOUT (R271). -/
def timeoutOp (num : Nat) : Op Unit := do
  let s ← get
  match s.ordinal.byNum num with
  | none => onlyIf false
  | some e =>
    onlyIf (s.ordinalActive && !e.ended && e.timedOut s.time)
    let n := (e.rank0.map (·.n)).getD 0
    let strict := (e.rank0.map (·.strict)).getD true
    if !strict && e.contributors.isNone && e.present.length < n && 2 ≤ e.present.length then
      let e := { e with contributors := some e.present, timer := some s.time }
      let own := ((s.comm? e.comm).map (·.ownRank)).getD n
      modify fun s =>
        let s := { s with ordinal := s.ordinal.put e }
        if e.present.contains own then s else decideHere e num 4 s
    else modify (endEntry e num 3)

def execCollectiveTimeout (num : Nat) (s : State) : Outcome := event (timeoutOp num) s

/-! ## Election, heartbeats, failover -/

/-- What waited for acknowledgements is performed. -/
def performAll (rs : List Replica) (s : State) : State := rs.foldl (fun s r => performed r.comm r.kind s) s

/-- Is a cancellation of this package for an entry on its way: it names the registration that the entry holds, or one that has not
come to it? -/
def State.cancelSent (s : State) (e : OrdEntry) : Bool :=
  (s.cancelsSent e.comm e.tag).any fun i => match e.mine with
    | some m => i = m
    | none => (s.ordinal.holding i).isNone

/-- The replicated answers that a new primary still gives: those of unfinished entries, this package's own only while its
cancellation is on its way (R274, R279). -/
def State.liveAnswers (s : State) (e : OrdEntry) : List (Nat × Nat) :=
  let own (rank : Nat) : Bool := (s.comm? e.comm).map (·.ownRank) = some rank
  if e.finished then [] else e.answers.filter fun a => !own a.1 || s.cancelSent e

/-- The standby's Ordinal as it takes over: numbering goes on at H + 2^16 (R274); without a replicated number the sequence starts
at 0. -/
def State.takenOver (s : State) : Ordinal :=
  let o := s.ordinal
  { o with
    role := .primary, standby := none, stopped := false, pending := [], lastBeat := s.time
    nextNum := match o.highest with | some h => (h + 2 ^ 16) % 2 ^ 32 | none => 0
    entries := (o.entries.map fun e => { e with answers := s.liveAnswers e }).filter fun e =>
      e.num.isSome || e.void || e.answers ≠ [] }

/-- ORDINAL_ELECTION (R273): a role for this package, or a new standby, to which the state is copied. -/
def electionOp (primary standby : Nat) : Op Unit := do
  let s ← get
  onlyIf (!s.ordinal.lost && s.status.full)
  let o := s.ordinal
  let sb := if standby = s.domainId then none else some standby
  if primary = s.domainId then
    match o.role with
    | .primary => set (performAll o.pending { s with ordinal := { o with standby := sb, stopped := false, pending := [], lastBeat := s.time } })
    | .standby => set { s with ordinal := { s.takenOver with standby := sb } }
    | .none => set { s with ordinal := { Ordinal.reset with role := OrdRole.primary, standby := sb, lastBeat := s.time } }
  else if standby = s.domainId then
    let new : Ordinal := if o.role = .standby then o else { Ordinal.reset with role := OrdRole.standby }
    set { s with ordinal := { new with lastBeat := s.time } }
  else set { s with ordinal := Ordinal.reset }

def execOrdinalElection (primary standby : Nat) (s : State) : Outcome := event (electionOp primary standby) s

/-- Has the standby heard nothing for 200 ticks (R274)? -/
def State.silent (s : State) : Bool := 200 ≤ s.time - s.ordinal.lastBeat

/-- ORDINAL_HEARTBEAT (R273): the primary sends one every 40 ticks; the standby receives it, unless it takes over by now (R274). -/
def heartbeatOp : Op Unit := do
  let s ← get
  let o := s.ordinal
  onlyIf ((o.role = .primary && 40 ≤ s.time - o.lastBeat) || (o.role = .standby && !s.silent))
  set { s with ordinal := { o with lastBeat := s.time } }

def execOrdinalHeartbeat (s : State) : Outcome := event heartbeatOp s

/-- ORDINAL_STANDBY_ACK_TIMEOUT (R273): 100 ticks with an entry unacknowledged. -/
def ackTimeoutOp : Op Unit := do
  let s ← get
  let o := s.ordinal
  onlyIf (o.role = .primary && s.ackLate)
  set { s with ordinal := { o with stopped := true } }

def execOrdinalStandbyAckTimeout (s : State) : Outcome := event ackTimeoutOp s

/-- ORDINAL_FAILOVER (R274): the standby takes over after 200 ticks of silence. (DESIGN CHOICE log 39) -/
def failoverOp : Op Unit := do
  let s ← get
  onlyIf (s.ordinal.role = .standby && s.silent)
  set { s with ordinal := s.takenOver }

def execOrdinalFailover (s : State) : Outcome := event failoverOp s

/-- What the standby does with an entry it receives (R273); `s` says the tick, and which collectives this package's engine has
registered and ended. A cancellation concerns the collective of its number, or the one of its (COMM, TAG) that has none. -/
def Ordinal.received (o : Ordinal) (s : State) (m : ReplicaMsg) : Ordinal :=
  match m with
  | .assign num void regs =>
    match regs with
    | [] => o
    | z :: _ =>
      let told := (o.openFor z.comm z.tag).find? (·.num.isNone)
      let passed := (s.seqAt 0).endedNums.contains num
      let e := { OrdEntry.fresh z.comm z.tag with
        regs := regs, void := void || (told.map (·.void)).getD false, passed := passed, answers := (told.map (·.answers)).getD []
        mine := if passed || !regs.any (·.pkg = s.domainId) then none
          else (s.regOf num 0).or (s.ownReg z.comm z.tag) |>.map (·.id) }
      { { o with nextNum := num, highest := some num }.number e with highest := some num }
  | .start num rank =>
    match o.byNum num with
    | some e => o.put { e with starts := e.starts ++ [rank], timer := e.timer.or (some s.time) }
    | none => o
  | .cancel comm tag rank answer num =>
    let told (e : OrdEntry) : OrdEntry :=
      OrdEntry.freed { e with void := e.void || answer = 0, answers := e.answers.filter (·.1 ≠ rank) ++ [(rank, answer)] }
    match num with
    | some n => o.modNum n told
    | none => match (o.openFor comm tag).find? (·.num.isNone) with
      | some e => { o with entries := modLast (· = e) told o.entries }
      | none => o.put (told (.fresh comm tag))
  | .ack _ => o

/-- ORDINAL_REPLICATION (R273): at the primary the standby's acknowledgement, at the standby an entry. -/
def replicationOp (m : ReplicaMsg) : Op Unit := do
  let s ← get
  let o := s.ordinal
  match m with
  | .ack id =>
    match o.pending.find? (·.id = id) with
    | some r =>
      onlyIf (o.role = .primary && !o.stopped && !s.ackLate)
      set (performed r.comm r.kind
        { s with ordinal := { o with pending := o.pending.filter (·.id ≠ id), lastAck := s.time } })
    | none => onlyIf false
  | m =>
    onlyIf (o.role = .standby && !s.silent)
    set { s with ordinal := o.received s m }

def execOrdinalReplication (entry : ReplicaMsg) (s : State) : Outcome := event (replicationOp entry) s

/-- DOMAIN_FAULT (R274): primary and standby are lost; the sequence stalls and FATAL reads 3. -/
def domainFaultOp : Op Unit := do
  let s ← get
  onlyIf (s.status.fatal = 0)
  set (setStatus (fun st => { st with fatal := 3 }) { s with ordinal := { s.ordinal with lost := true } })

def execDomainFault (s : State) : Outcome := event domainFaultOp s

end Sys2Proof.Machine
end

