-- ==== Sys2Proof/Machine/Collective.lean ====
section
/-!
DEFINITION. The collective engine (R263, R266, R268 to R272, R275): notices, the beginning of a collective, its
arithmetic, inline compression, its end and its faults.
-/

namespace Sys2Proof.Machine

/-! ## Notices and the beginning -/

/-- What a notice makes of a registration (R266, R268): a duplicate changes nothing, a void notice voids, unless a cancellation has
been answered that a member has started it. -/
def Registration.noticed (r : Registration) (num : Nat) (prev : Option Nat) (void aborted : Bool) : Registration :=
  match r.state with
  | .unnumbered => { r with state := .numbered num prev (void && r.told ≠ some 1) aborted }
  | .numbered n p v a => if n = num then { r with state := .numbered n p (v || (void && r.told ≠ some 1)) (a || aborted) } else r
  | .started n => if n = num ∧ void ∧ !r.accepted ∧ r.told ≠ some 1 then { r with verdict := r.verdict.or (some (if aborted then 6 else 2)) } else r

/-- A notice of this package's own Ordinal says what its entry says, once that is replicated and while this package has not ended
it (R266, R273). -/
def State.noticeTrue (s : State) (comm tag num : Nat) (prev : Option Nat) (void aborted : Bool) : Bool :=
  let me := s.domainId
  !s.ordinal.lost
    && (s.ordinal.entries.any fun e => e.comm = comm && e.tag = tag && e.num = some num && !e.passed
      && e.prevs.contains (me, prev) && void = (e.void || e.outside me) && aborted = (e.aborted || e.outside me))
    && !s.ordinal.pending.any fun p => p.comm = comm && p.tag = tag

/-- COLLECTIVE_NOTICE (R266, R268, R280). A notice of a number that the engine has ended is a duplicate, and ignored. -/
def noticeOp (comm tag num : Nat) (prev : Option Nat) (void aborted : Bool) : Op Unit := do
  let s ← get
  onlyIf (!s.stalled (s.commSeq comm) && (!s.numbersHere comm || s.noticeTrue comm tag num prev void aborted))
  let old := (s.seqAt (s.commSeq comm)).endedNums.contains num
  modify fun s => { s with regs := s.regs.map fun r =>
    if r.comm = comm ∧ r.tag = tag ∧ !old then r.noticed num prev void aborted else r }

def execCollectiveNotice (comm tag num : Nat) (prev : Option Nat) (void : Bool) (aborted : Bool) (s : State) : Outcome :=
  event (noticeOp comm tag num prev void aborted) s

/-- The engine has reached a numbered collective: it has ended PREV, and no other of the sequence runs (R179, R266). -/
def State.reached (s : State) (seq : Nat) (prev : Option Nat) : Bool :=
  (s.seqAt seq).running.isNone && (match prev with
    | some p => (s.seqAt seq).endedNums.contains p && !s.regs.any (·.numIs p seq)
    | none => true)

/-- COLLECTIVE_BEGIN (R263, R266): a collective that is not void or decided begins, with an acquire under aq; the start
report goes out. -/
def beginOp (num seq : Nat) : Op Unit := do
  let s ← get
  match s.regOf num seq with
  | some r => match r.state with
    | .numbered _ prev void aborted =>
      onlyIf (s.linksUp && !void && !aborted && r.verdict.isNone && s.reached seq prev)
      if r.order.aq then acquire r.order.scope
      modify fun s => putSeq { s.seqAt seq with running := some num }
        { s with regs := s.regs.map fun d => if d.numIs num seq then { d with state := .started num, since := s.time } else d }
    | _ => onlyIf false
  | none => onlyIf false

def execCollectiveBegin (num seq : Nat) (s : State) : Outcome := event (beginOp num seq) s

/-! ## Reading and writing for a collective -/

/-- How the engine reaches memory: as the launch that issued, and through its queue's tables once that launch has left. -/
def State.collAccess (s : State) (r : Registration) : Access :=
  if (s.launches.get? r.launch).isSome then .virt (some r.via) true else .queue r.queue

/-- The address of element `i` of a buffer. -/
def elemAt (base : Word) (es i : Nat) : Word := base + BitVec.ofNat 64 (es * i)

/-- Read `n` elements: their bits, and whether a byte came from a poisoned sector (R269). A fault names the element. -/
def collRead (a : Access) (since : Nat) (base : Word) (es : Nat) : Nat → Nat → Op (List (Nat × Bool))
  | 0, _ => return []
  | n + 1, i => do
    let bs ← engineRead a since (elemAt base es i) es
    let t ← collRead a since base es n (i + 1)
    return (ofBytes (bs.map (·.1)), bs.any (·.2)) :: t

/-- One element to write: its index, its bits, its poison. -/
structure OutElem where
  idx : Nat
  bits : Nat
  poisoned : Bool
  deriving DecidableEq, Repr

/-- Place every byte of a list of elements. -/
def placeElems (a : Access) (base : Word) (es : Nat) : List OutElem → Op (List (List (Loc × Option Phys)))
  | [] => return []
  | e :: t => do
    let p ← enginePlace a false (elemAt base es e.idx) es
    let ps ← placeElems a base es t
    return p :: ps

/-- An element with the places of its bytes. -/
abbrev PlacedElem := List (Loc × Option Phys) × OutElem

/-- Is the write of an element lost on its way to another package (R278)? -/
def State.losesElem (s : State) (w : Writer) (base : Word) (es : Nat) (e : PlacedElem) : Bool :=
  e.1.any isRemote && s.losesWord w es ((elemAt base es e.2.idx).toNat / 8)

/-- Write placed elements; those lost are remembered; the sectors of the poisoned ones become poisoned (R269, R278). -/
def writeElems (w : Writer) (base : Word) (es : Nat) (ps : List (List (Loc × Option Phys))) (os : List OutElem) : Op Unit := do
  let s ← get
  let pairs := ps.zip os
  let gone := (pairs.filter (s.losesElem w base es)).map fun e => elemAt base es e.2.idx
  let kept := pairs.filter fun e => !s.losesElem w base es e
  set { s with
    doomed := s.doomed.filter fun d => !(d.1 = w && gone.contains d.2)
    lost := s.lost ++ gone.map fun va => LostWrite.mk w [] va s.time }
  storePlaced (kept.flatMap (·.1)) (kept.flatMap fun e => toBytes es e.2.bits)
  modify fun s => kept.foldl (fun s (p, o) => if o.poisoned then (allLocs p).foldl (·.setPoison · .l2) s else s) s

/-! ## Reductions (R269) -/

/-- One level of the pairwise tree of R125 over ranks, absent ones among them. -/
def rankLevel {α : Type} (op : α → α → α) : List (Option α) → List (Option α)
  | some a :: some b :: t => some (op a b) :: rankLevel op t
  | some a :: none :: t => some a :: rankLevel op t
  | none :: b :: t => b :: rankLevel op t
  | t => t

def rankTree {α : Type} (op : α → α → α) : Nat → List (Option α) → Option α
  | _, [] => none
  | _, [a] => a
  | 0, a :: _ => a
  | n + 1, l => rankTree op n (rankLevel op l)

/-- A sum rounded to nearest even in a floating-point type, from exact operands. -/
def sumFx (t : Nat) (x y : Fx) : Fx := decodeF (fmtOf t) (roundFx (fmtOf t) .rne (addFx .rne x y).1).1

/-- An element as it enters the reduction: exact, or as bits. -/
structure Leaf where
  bits : Nat
  fx : Fx
  deriving DecidableEq, Repr

def leafOf (t v : Nat) : Leaf := { bits := v, fx := fxOf t v }

/-- One combination of R269 (red: 0 sum, 1 max, 2 min). -/
def combineLeaf (t red : Nat) (a b : Leaf) : Leaf :=
  if red = 0 then
    if t = 2 then leafOf t ((a.bits + b.bits) % 2 ^ 32)
    else
      let f := sumFx t a.fx b.fx
      { bits := (roundFx (fmtOf t) .rne f).1, fx := f }
  else if t = 2 then
    if (toSigned 32 a.bits < toSigned 32 b.bits) = (red = 1) then b else a
  else leafOf t (minMaxF (fmtOf t) (red = 1) a.bits b.bits).1

/-! ## Inline compression (R275) -/

/-- Cut a list into blocks of 128; the last may be shorter. -/
def blocks128 {α : Type} : Nat → List α → List (List α)
  | 0, _ => []
  | _ + 1, [] => []
  | n + 1, l => l.take 128 :: blocks128 n (l.drop 128)

/-- The decoded value q·s of an element of a block with a scale. -/
def throughFp8 (sc : BitVec 32) (v : Nat) : Fx :=
  let s := decodeF Fmt.f32 sc.toNat
  if isNan32 sc then s
  else (mulFx (decodeF Fmt.f8 (storeConvert 7 4 .rne (some sc) v).1) s).1

/-- A block of FP32 elements, with the poison that reached it, compressed and decoded. -/
def compressBlock (b : List (Nat × Bool)) : List (Fx × Bool) :=
  let sc := blockScale (b.map fun (v, _) => decodeF Fmt.f32 v)
  let q := b.any (·.2)
  b.map fun (v, _) => (throughFp8 sc v, q)

def compressAll (l : List (Nat × Bool)) : List (Fx × Bool) := (blocks128 l.length l).flatMap compressBlock

/-- The residual x − q·s, in FP32. -/
def residual (v : Nat) (d : Fx) : Nat := (roundFx Fmt.f32 .rne (addFx .rne (decodeF Fmt.f32 v) d.neg).1).1

/-! ## What a member writes (Table 16-3) -/

/-- A contribution as its elements enter the operation. -/
structure Part where
  rank : Nat
  elems : List (Leaf × Bool)
  deriving DecidableEq, Repr

def partOf (d : CollDesc) (c : Contribution) : Part :=
  let raw := (c.elems.map (·.toNat)).zip c.poisoned
  { rank := c.rank
    elems := if d.cmp then (compressAll raw).map fun (f, q) => ({ bits := 0, fx := f }, q)
             else raw.map fun (v, q) => (leafOf d.type v, q) }

/-- Element `i` reduced over the contributors (R269). -/
def reduceAt (d : CollDesc) (n : Nat) (ps : List Part) (i : Nat) : Nat × Bool :=
  let at' (r : Nat) := (ps.find? (·.rank = r)).bind fun p => p.elems[i]?
  let es := (List.range n).map at'
  let v := rankTree (combineLeaf d.type d.red) 11 (es.map fun e => e.map (·.1))
  ((v.map (·.bits)).getD 0, es.any fun e => (e.map (·.2)).getD false)

/-- The reduced elements from `off` on, compressed once when CMP is 1 (R275). -/
def reduced (d : CollDesc) (n : Nat) (ps : List Part) (off : Nat) : List (Nat × Bool) :=
  let l := (List.range d.count).map fun i => reduceAt d n ps (off + i)
  if d.cmp then (compressAll l).map fun (f, q) => ((roundFx Fmt.f32 .rne f).1, q) else l

/-- Elements at consecutive indices from `base`. -/
def outFrom (base : Nat) (l : List (Nat × Bool)) : List OutElem := l.zipIdx.map fun ((v, q), i) => { idx := base + i, bits := v, poisoned := q }

/-- A block of a contribution. -/
def Part.block (p : Part) (off n : Nat) : List (Nat × Bool) := ((p.elems.drop off).take n).map fun (l, q) => (l.bits, q)

/-- What a member of rank `r` writes to DST (Table 16-3): blocks of members that did not contribute stay as they are. -/
def dstElems (d : CollDesc) (n r : Nat) (ps : List Part) : List OutElem :=
  match d.op with
  | 0 => outFrom 0 (reduced d n ps 0)
  | 1 => outFrom 0 (reduced d n ps (r * d.count))
  | 2 => ps.flatMap fun p => outFrom (p.rank * d.count) (p.block 0 d.count)
  | 3 => match ps.find? (·.rank = d.root) with
    | some p => outFrom 0 (p.block 0 d.count)
    | none => []
  | 4 => ps.flatMap fun p => outFrom (p.rank * d.count) (p.block (r * d.count) d.count)
  | _ => []

/-- What a member writes to RESID when RES is 1 (R275): one FP32 for each element it read. -/
def residElems (d : CollDesc) (own : List (Nat × Bool)) : List OutElem :=
  if d.res then outFrom 0 ((own.zip (compressAll own)).map fun ((v, _), (f, q)) => (residual v f, q)) else []

/-! ## The end of a collective (R270) -/

/-- The release scope of a collective (R263): the wider of RSCOPE and S when rl is 1. -/
def releaseCode (r : Registration) (d : CollDesc) : Nat := if r.order.rl then max d.rscope r.order.scope.code.toNat else d.rscope

def Registration.writer (r : Registration) : Writer := .coll r.comm r.tag

/-- A release of an engine that began at tick `since`, at a scope's code: at .dom or .sys it awaits the writer's remote writes, and one
that was not delivered within 4,000 ticks is a store access fault at its address; the release having followed them, none is counted
as lost (R278). -/
def engineRelease (w : Writer) (since code : Nat) : Op Unit := do
  if 4 ≤ code then
    let s ← get
    match s.lost.find? (·.writer = w) with
    | some l =>
      waitFor (s.outOfTime since)
      set { s with lost := s.lost.filter (·.writer ≠ w) }
      raise { cause := 7, addr := some l.va }
    | none => pure ()

/-- The completion record (Table 16-6). -/
def completionRecord (num status cause faddr n : Nat) (mask : List Nat) : List Byte :=
  let w := (n + 63) / 64
  let m := (mask.map fun r => 2 ^ r).sum
  toBytes 8 (cause % 256 * 2 ^ 16 + status % 256 * 2 ^ 24 + num % 2 ^ 32 * 2 ^ 32) ++ toBytes 8 faddr ++ toBytes (8 * w) m

/-- A step of the engine whose fault stops nothing (R272). -/
def quietly (x : Op Unit) : Op Unit :=
  tryCatch x fun e => match e with
    | .trap _ => pure ()
    | e => throw e

/-- The completion record's write (R270, step 2). -/
def writeRecordOf (r : Registration) (bs : List Byte) : Op Unit := do
  let s ← get
  let va := (collDesc r.desc).crec
  if va ≠ 0 then
    let ps ← enginePlace (s.collAccess r) false va bs.length
    writeAs r.writer [] va ps bs

/-- The counter's addition (R270, step 4). -/
def addToCounter (r : Registration) : Op Unit := do
  let s ← get
  if r.counter ≠ 0 then engineAmo (s.collAccess r) r.since r.writer (BitVec.ofNat 64 r.counter) (· + 1)

/-- Are two numbers so near that serial arithmetic compares them (R267)? -/
def serialNear (a b : Nat) : Bool := (a + 2 ^ 32 - b % 2 ^ 32) % 2 ^ 32 < 2 ^ 30 || (b + 2 ^ 32 - a % 2 ^ 32) % 2 ^ 32 < 2 ^ 30

/-- The engine has ended a number: those too far from it to be compared are a former wrap's (R267). -/
def Sequence.end (q : Sequence) (num : Nat) : Sequence :=
  { q with
    endedNums := num :: q.endedNums.filter (serialNear num)
    running := if q.running = some num then none else q.running }

/-- A cancellation that a hart has sent outlives its registration, and with it the answers that it may still get. -/
def Hart.outlives (r : Registration) (status : Nat) (h : Hart) : Hart :=
  { h with cancel := h.cancel.map fun c => if c.reg = r.id then { c with left := some (r.answersAt status) } else c }

/-- The registration's end: the engine is past the collective, which an Ordinal in this package notes, and a remote write of it
that no release met is counted (R278). -/
def endRegistration (r : Registration) (num status : Nat) (s : State) : State :=
  (putSeq ((s.seqAt r.seq).end num)
    { s.mapHarts (Hart.outlives r status) with
      regs := s.regs.erase r
      ordinal := if r.seq = 0 then s.ordinal.modNum num fun e => { e with passed := true } else s.ordinal }).forget (· = r.writer)

/-- Steps 2 to 4 of R270, and the registration's end. A fault at one of them ends the collective with FAULT instead (R272, R315), so
under another status it does not end so; under FAULT a step that faults is passed over. -/
def endColl (r : Registration) (num status cause faddr : Nat) (mask : List Nat) : Op Unit := do
  let s ← get
  let n := ((s.comm? r.comm).map (·.members.length)).getD 0
  let step (x : Op Unit) : Op Unit := if status = 5 then quietly x else x
  step (writeRecordOf r (completionRecord num status cause faddr n mask))
  step (engineRelease r.writer r.since (releaseCode r (collDesc r.desc)))
  step (addToCounter r)
  modify (endRegistration r num status)

/-- The Ordinal here learns that a collective has ended: at this member (`here`), or at every member, which finishes it (R267); it
does not end everywhere before this package has ended it. A void entry is kept until every member has registered (R268). -/
def ordinalEnded (num seq : Nat) (here : Bool) (s : State) : State :=
  match (if seq = 0 ∧ s.ordinal.role = .primary then s.ordinal.byNum num else none) with
  | some e =>
    if (e.void && !e.complete) || s.standsHere e then s
    else { s with ordinal := s.ordinal.modNum num fun e => { e with ended := true, finished := e.finished || !here } }
  | none => s

/-- The bytes that a member's engine may have written are undefined after TIMEOUT and ABORTED (R2, R270). -/
def undefBytes (a : Access) (k : Nat) (base : Word) : Nat → Op Unit
  | 0 => pure ()
  | n + 1 => do
    undefBytes a k base n
    quietly do
      let ps ← enginePlace a false (base + BitVec.ofNat 64 n) 1
      storePlaced ps [Config.freeValue k n 8]

/-- One byte takes a value, and nothing else changes. -/
def setByte (c : Option (BitVec 512)) (l : Loc) (b : Byte) (s : State) : State :=
  match l with
  | .mem a => { s with mem := putUnder c s.mem a b }
  | _ => match s.block l with
    | some blk => if (s.staleSub l).isNone then s.setBlock l { blk with data := blk.data.set (l.offset % 256) b } else s
    | none => s

/-- The bytes of a collective that ended before it began are undefined too, with no access made: no A or D bit, no block
written, no reservation broken (R270, R271). (DEDUCED log 38) -/
def undefUnseen (a : Access) (k : Nat) (base : Word) : Nat → Op Unit
  | 0 => pure ()
  | n + 1 => do
    undefUnseen a k base n
    modify fun s => match (enginePlace a false (base + BitVec.ofNat 64 n) 1).run s with
      | .ok ((l, ph) :: _) _ => setByte (cryptOf ph) l (Config.freeValue k n 8) s
      | _ => s

/-- DST and RESID of a collective that ends with TIMEOUT or ABORTED; `f` says how its bytes become undefined (R270). -/
def undefBuffers (f : Access → Nat → Word → Nat → Op Unit) (r : Registration) (m : Comm) : Op Unit := do
  let s ← get
  let d := collDesc r.desc
  let n := m.members.length
  let k ← draw
  f (s.collAccess r) k d.dst (dstCount d n * ebOf d.type)
  if d.res then
    let k ← draw
    f (s.collAccess r) k d.resid (4 * srcCount d n m.ownRank)

/-- The peers' contributions fit the operation: their ranks distinct, their lengths as Table 16-3 says. -/
def peersFit (m : Comm) (d : CollDesc) (peers : List Contribution) : Bool :=
  let n := m.members.length
  decide (peers.map (·.rank)).Nodup
    && peers.all fun c => c.rank < n && c.rank ≠ m.ownRank && c.elems.length = srcCount d n c.rank
      && c.poisoned.length = c.elems.length

/-- They fit, and they are enough of them for the kind of communicator. -/
def peersOk (m : Comm) (d : CollDesc) (peers : List Contribution) : Bool :=
  peersFit m d peers && (if m.strict then peers.length + 1 = m.members.length else 1 ≤ peers.length)

/-- Are these the contributors of an entry: the members whose reports were accepted when the timer fixed the set, else all members,
each of them accepted (R268, R271)? -/
def OrdEntry.contributed (e : OrdEntry) (ranks : List Nat) : Bool :=
  let set' := e.contributors.getD (List.range ((e.rank0.map (·.n)).getD 0))
  ranks.all set'.contains && set'.all fun r => ranks.contains r && e.starts.contains r

/-- The entry of a number at the Ordinal here, if it numbers that sequence. -/
def State.numberedHere (s : State) (num seq : Nat) : Option OrdEntry :=
  if seq = 0 ∧ s.ordinal.role = .primary then s.ordinal.byNum num else none

/-- The Ordinal here knows these contributors; another hub die's says so itself. -/
def State.exchanged (s : State) (num seq : Nat) (ranks : List Nat) : Bool :=
  ((s.numberedHere num seq).map (·.contributed ranks)).getD true

/-- The Ordinal here lets a collective end with DONE: it has not decided it, and no contributor has met a fault (R268, R271, R272). -/
def State.doneHere (s : State) (num seq : Nat) (ranks : List Nat) : Bool :=
  s.exchanged num seq ranks && ((s.numberedHere num seq).map fun e =>
    e.outcome.isNone && !e.void && !ranks.any e.gone.contains).getD true

/-- The session that reaches the member of a rank; none for a member of the domain. -/
def Comm.ether? (m : Comm) (rank : Nat) : Option Nat :=
  match m.members[rank]? with
  | some (.ether mac) => some mac
  | _ => none

/-- A contribution from outside the domain has been delivered in a record of that member's session (R276). -/
def State.arrived (s : State) (m : Comm) (num : Nat) (c : Contribution) : Bool :=
  match m.ether? c.rank with
  | some mac => match s.session? mac with
    | some v => v.delivered.any fun rec => Config.recordCarries rec num c.rank c.elems c.poisoned
    | none => false
  | none => true

/-- A record of this member's contribution to each contributor outside the domain (R276). -/
def sealTo (m : Comm) (ranks : List Nat) (bytes : Nat) : Op Unit :=
  (ranks.filterMap m.ether?).forM fun (mac : Nat) => do
    let s ← get
    match s.session? mac with
    | some v =>
      onlyIf (v.maySeal bytes)
      set (putSession (v.seal bytes) s)
    | none => onlyIf false

/-- What a member writes to DST and to RESID, from the SRC elements it read and the others' contributions (Table 16-3, R275). -/
def memberResult (m : Comm) (d : CollDesc) (own : List (Nat × Bool)) (peers : List Contribution) : List OutElem × List OutElem :=
  let mine : Contribution := { rank := m.ownRank, elems := own.map fun (v, _) => BitVec.ofNat 32 v, poisoned := own.map (·.2) }
  (dstElems d m.members.length m.ownRank ((mine :: peers).map (partOf d)), residElems d own)

/-- Step 1 of R270: SRC is read, this member's contribution goes to the others, DST and RESID are written (R269). -/
def writeResult (r : Registration) (m : Comm) (peers : List Contribution) : Op Unit := do
  let s ← get
  let d := collDesc r.desc
  let es := ebOf d.type
  let a := s.collAccess r
  let own ← collRead a r.since d.src es (srcCount d m.members.length m.ownRank) 0
  sealTo m (peers.map (·.rank)) (own.length * es)
  let (dst, res) := memberResult m d own peers
  let dp ← placeElems a d.dst es dst
  let rp ← placeElems a d.resid 4 res
  writeElems r.writer d.dst es dp dst
  writeElems r.writer d.resid 4 rp res

/-- The contributors of a collective that is done: this member and these others. -/
def contributors (m : Comm) (peers : List Contribution) : List Nat := m.ownRank :: peers.map (·.rank)

/-- May the engine write its result whole, from these contributions? -/
def State.mayFinish (s : State) (r : Registration) (m : Comm) (num : Nat) (peers : List Contribution) : Bool :=
  r.accepted && r.verdict.isNone && peersOk m (collDesc r.desc) peers && peers.all (s.arrived m num)
    && s.doneHere num r.seq (contributors m peers)

/-- DONE (R269, R270): the result, then the record and the counter. -/
def endDone (r : Registration) (m : Comm) (num : Nat) (peers : List Contribution) : Op Unit := do
  let s ← get
  onlyIf (s.mayFinish r m num peers)
  writeResult r m peers
  endColl r num 1 0 0 (contributors m peers)

/-- May a started collective end with a status other than DONE (R268, R271, R272)? Another hub die's Ordinal decides as
it will, within the kinds of communicator. (DESIGN CHOICE log 39) -/
def State.mayEndStarted (s : State) (r : Registration) (m : Comm) (status : Nat) : Bool :=
  match r.verdict with
  | some v => v = status
  | none => !s.numbersHere r.comm && !s.stalled r.seq
      && (status = 3 || (status = 6 && m.strict) || (status = 4 && !m.strict && !r.accepted))

/-- The status of a collective that the engine reaches without beginning it. -/
def State.mayEndUnstarted (s : State) (r : Registration) (m : Comm) (void aborted : Bool) (status : Nat) : Bool :=
  if aborted then status = 6
  else if void then status = 2
  else match r.verdict with
    | some v => v = status
    | none => !s.numbersHere r.comm && !s.stalled r.seq && (status = 3 || (status = 6 && m.strict) || (status = 4 && !m.strict))

/-- COLLECTIVE_END (R258, R268, R270, R271, R280). -/
def endOp (num seq status : Nat) (peers : List Contribution) : Op Unit := do
  let s ← get
  match s.regOf num seq with
  | none => modify (ordinalEnded num seq false)
  | some r =>
    match s.comm? r.comm with
    | none => onlyIf false
    | some m =>
      match r.state with
      | .unnumbered => onlyIf false
      | .numbered _ prev void aborted =>
        onlyIf (s.reached seq prev && s.mayEndUnstarted r m void aborted status)
        if (status = 3 ∨ status = 6) ∧ aborted = false then undefBuffers undefUnseen r m
        endColl r num status 0 0 []
      | .started _ =>
        if status = 1 then endDone r m num peers
        else
          onlyIf (s.mayEndStarted r m status)
          if status = 3 ∨ status = 6 then undefBuffers undefBytes r m
          endColl r num status 0 0 []
      modify (ordinalEnded num seq true)

def execCollectiveEnd (num seq : Nat) (status : Nat) (peers : List Contribution) (s : State) : Outcome :=
  event (endOp num seq status peers) s

/-! ## Faults of the engine (R272) -/

/-- An access of the engine: a read or a write of bytes, or the counter's addition. -/
inductive CollAccess
  | read (va : Word) (n : Nat)
  | write (va : Word) (n : Nat)
  | amo (va : Word)
  deriving DecidableEq, Repr

/-- The data accesses of a collective that has begun, element by element: the SRC elements, then, once its start is accepted,
those of DST and RESID. -/
def collAccesses (r : Registration) (m : Comm) : List CollAccess :=
  let d := collDesc r.desc
  let n := m.members.length
  let es := ebOf d.type
  (List.range (srcCount d n m.ownRank)).map (fun i => .read (elemAt d.src es i) es)
    ++ (if r.accepted then
        (List.range (dstCount d n)).map (fun i => .write (elemAt d.dst es i) es)
          ++ (if d.res then (List.range (srcCount d n m.ownRank)).map (fun i => .write (elemAt d.resid 4 i) 4) else [])
      else [])

/-- The accesses of a collective's end: its record and its counter (R270). -/
def endAccesses (r : Registration) (m : Comm) : List CollAccess :=
  let d := collDesc r.desc
  (if d.crec = 0 then [] else [.write d.crec (16 + 8 * ((m.members.length + 63) / 64))])
    ++ (if r.counter = 0 then [] else [.amo (BitVec.ofNat 64 r.counter)])

/-- The trap of an access of the collective now: its own, or, for a read of another package once 4,000 ticks have passed since the
engine began, that of an answer that does not come (R277). -/
def accessTrap (r : Registration) (a : Access) (x : CollAccess) : Op (Option Trap) := do
  match x with
  | .read va n =>
    let _ ← engineRead a r.since va n
    let p ← placeOne {} a .load false false va va
    return if isRemote p && (← get).outOfTime r.since then some { cause := 5, addr := some va } else none
  | .write va n =>
    let _ ← enginePlace a false va n
    return none
  | .amo va =>
    engineAmo a r.since r.writer va id
    return none

/-- Does one of the accesses fault with this cause at this address? -/
def faultsWith (r : Registration) (a : Access) (cause addr : Nat) : List CollAccess → Op Bool
  | [] => return false
  | x :: t => do
    let s ← get
    let f ← tryCatch (accessTrap r a x) fun e => match e with
      | .trap t => return some t
      | _ => return none
    set s
    match f with
    | some f => if f.cause = cause ∧ (f.addr.map (·.toNat)) = some addr then return true else faultsWith r a cause addr t
    | none => faultsWith r a cause addr t

/-- May the engine be at the end of a collective: reached and decided, or its start accepted? -/
def State.mayBeEnding (s : State) (r : Registration) : Bool :=
  let decided := r.verdict.isSome || (!s.numbersHere r.comm && !s.stalled r.seq)
  match r.state with
  | .unnumbered => false
  | .numbered _ prev void aborted => s.reached r.seq prev && (void || aborted || decided)
  | .started _ => r.accepted || decided

/-- The data accesses that the engine may make now. -/
def dataNow (r : Registration) (m : Comm) : List CollAccess :=
  if r.isStarted && r.verdict.isNone then collAccesses r m else []

/-- The accesses of a collective's end that it may make now. -/
def State.endNow (s : State) (r : Registration) (m : Comm) : List CollAccess := if s.mayBeEnding r then endAccesses r m else []

/-- Will the collective's release meet a remote write of its own at an address that is not delivered (R278)? -/
def releaseFails (r : Registration) (m : Comm) (addr : Nat) : Op Bool := do
  let s ← get
  let va := BitVec.ofNat 64 addr
  let writes := (dataNow r m ++ s.endNow r m).any fun x => match x with
    | .write a _ => a = va
    | _ => false
  let remote ← tryCatch (do return isRemote (← placeOne {} (s.collAccess r) .store true false va va)) fun _ => return false
  set s
  return 4 ≤ releaseCode r (collDesc r.desc) && s.mayBeEnding r && writes && remote && s.outOfTime r.since
    && s.losesWord r.writer (ebOf (collDesc r.desc).type) (addr / 8)

/-- What the Ordinal here makes of a member's fault (R272): a strict collective ends with ABORTED at the others, a loose one
treats the member as missing; that its start report was accepted stays so (R268). -/
def memberFault (e : OrdEntry) (num rank : Nat) (s : State) : State :=
  if (e.rank0.map (·.strict)).getD true then endEntry e num 6 s
  else
    let e := { e with gone := rank :: e.gone, contributors := e.contributors.map fun c => c.filter (· ≠ rank) }
    if ((e.contributors.map (·.length)).getD 2) < 2 then endEntry e num 3 s
    else { s with ordinal := s.ordinal.put e }

/-- The entry of a running collective at the Ordinal here. -/
def State.entryHere (s : State) (num seq : Nat) : Option OrdEntry :=
  if seq = 0 ∧ s.ordinalActive then (s.ordinal.byNum num).filter fun e => !e.ended && e.outcome.isNone && !e.void else none

/-- Read `n` elements; one whose read faults has no value. -/
def collReadSome (a : Access) (since : Nat) (base : Word) (es : Nat) : Nat → Nat → Op (List (Option (Nat × Bool)))
  | 0, _ => return []
  | n + 1, i => do
    let v ← tryCatch (do return (← collRead a since base es 1 i).head?) fun e => match e with
      | .trap _ => return none
      | e => throw e
    let t ← collReadSome a since base es n (i + 1)
    return v :: t

/-- The elements of a result, each with whether it depends on no element whose read faulted: the dependence runs as poison does
(R269). -/
def resultWithout (m : Comm) (d : CollDesc) (own : List (Option (Nat × Bool))) (peers : List Contribution) :
    List (OutElem × Bool) × List (OutElem × Bool) :=
  let real := memberResult m d (own.map (·.getD (0, false))) peers
  let lacks := memberResult m d (own.map fun v => (0, v.isNone)) (peers.map fun c => { c with poisoned := c.poisoned.map fun _ => false })
  let known (l k : List OutElem) := (l.zip k).map fun (e, f) => (e, !f.poisoned)
  (known real.1 lacks.1, known real.2 lacks.2)

/-- The aligned 8-byte word that an element lies in. -/
def OutElem.word (base : Word) (es : Nat) (e : OutElem) : Nat := (elemAt base es e.idx).toNat / 8

/-- Of these aligned words some are written, each whole (R171), the environment says which; one with an element that is not known, or
that cannot be placed, is not. -/
def writeSome (w : Writer) (a : Access) (base : Word) (es k : Nat) (l : List (OutElem × Bool)) : List Nat → Op Unit
  | [] => pure ()
  | v :: vs => do
    let mine := l.filter fun e => e.1.word base es = v
    if Config.freeChoice k v % 2 = 1 && mine.all (·.2) then
      quietly do
        let os := mine.map (·.1)
        let p ← placeElems a base es os
        writeElems w base es p os
    writeSome w a base es k l vs

/-- Some words of a list of elements are written. -/
def writeWords (w : Writer) (a : Access) (base : Word) (es k : Nat) (l : List (OutElem × Bool)) : Op Unit :=
  writeSome w a base es k l (l.map (·.1.word base es)).dedup

/-- A fault cuts the data exchange short: any aligned words of the result may have been written by then, a reduced one only from all
contributors. (DESIGN CHOICE log 49) -/
def writePart (r : Registration) (m : Comm) (num : Nat) (peers : List Contribution) : Op Unit := do
  let s ← get
  let d := collDesc r.desc
  let a := s.collAccess r
  let peers := if peersFit m d peers && peers.all (s.arrived m num) then peers else []
  let whole := peersOk m d peers && s.exchanged num r.seq (contributors m peers)
  let own ← collReadSome a r.since d.src (ebOf d.type) (srcCount d m.members.length m.ownRank) 0
  let (dst, res) := resultWithout m d own peers
  let k ← draw
  if 2 ≤ d.op ∨ whole then writeWords r.writer a d.dst (ebOf d.type) k dst
  let k ← draw
  writeWords r.writer a d.resid 4 k res

/-- What DST and RESID hold when a fault ends a collective (R268, R270, R272): nothing is written before acceptance; a fault at the
collective's end (`atEnd`) finds the result written whole, unless another status had been decided, as another hub die's Ordinal may
have done. -/
def faultResult (r : Registration) (m : Comm) (num : Nat) (peers : List Contribution) (atEnd : Bool) : Op Unit := do
  let s ← get
  let whole := s.mayFinish r m num peers
  if r.accepted then
    if atEnd && r.verdict.isNone && (whole || s.numbersHere r.comm) then
      onlyIf whole
      writeResult r m peers
    else writePart r m num peers

/-- A fault at this member (R272): the collective ends here with FAULT. -/
def ownFault (r : Registration) (m : Comm) (num cause : Nat) (pt : FaultPoint) (atEnd : Bool) : Op Unit := do
  faultResult r m num pt.peers atEnd
  endColl r num 5 cause pt.addr []
  let s ← get
  match s.entryHere num r.seq with
  | some e => set (memberFault e num m.ownRank s)
  | none => pure ()

/-- Another member reports a fault to the Ordinal here; which of a loose communicator's members, the environment says
(DESIGN CHOICE log 4). -/
def otherFault (num seq : Nat) : Op Unit := do
  let s ← get
  match s.entryHere num seq with
  | some e =>
    let k ← draw
    let others := (List.range ((e.rank0.map (·.n)).getD 0)).filter fun r => (s.comm? e.comm).map (·.ownRank) ≠ some r
    modify (memberFault e num (others.getD (Config.freeChoice k 0 % others.length) 0))
  | none => onlyIf false

/-- COLLECTIVE_ENGINE_FAULT (R272): at this member, when one of its accesses faults so, else at another. -/
def engineFaultOp (num seq cause : Nat) (pt : FaultPoint) : Op Unit := do
  let s ← get
  match s.regOf num seq with
  | none => otherFault num seq
  | some r =>
    match s.comm? r.comm with
    | none => onlyIf false
    | some m =>
      let data ← faultsWith r (s.collAccess r) cause pt.addr (dataNow r m)
      let atEnd ← faultsWith r (s.collAccess r) cause pt.addr (s.endNow r m)
      let release ← releaseFails r m pt.addr
      if data || atEnd || (cause = 7 && release) then ownFault r m num cause pt (!data) else otherFault num seq

def execCollectiveEngineFault (num seq : Nat) (cause : Nat) (addr : FaultPoint) (s : State) : Outcome :=
  event (engineFaultOp num seq cause addr) s

end Sys2Proof.Machine
end

