-- ==== Sys2Proof/Machine/Dispatch.lean ====
section
/-!
DEFINITION. The dispatch: one arm for each constructor of Instr.
-/

namespace Sys2Proof.Machine

def exec (i : Instr) (s : State) : Host.Outcome State Fault Refusal :=
  match i with
  | .vshape rd rs1 rs2 => Sys2Proof.Machine.execVshape rd rs1 rs2 s
  | .vsett rd rs1 => Sys2Proof.Machine.execVsett rd rs1 s
  | .iter rd => Sys2Proof.Machine.execIter rd s
  | .next => Sys2Proof.Machine.execNext s
  | .endK => Sys2Proof.Machine.execEnd s
  | .yield => Sys2Proof.Machine.execYield s
  | .clput rd rs1 rs2 => Sys2Proof.Machine.execClput rd rs1 rs2 s
  | .clwait rd rs1 => Sys2Proof.Machine.execClwait rd rs1 s
  | .clause xm xt nm1 => Sys2Proof.Machine.execClause xm xt nm1 s
  | .fenceSv sc => Sys2Proof.Machine.execFenceSv sc s
  | .fenceVs sc => Sys2Proof.Machine.execFenceVs sc s
  | .fenceVv sc => Sys2Proof.Machine.execFenceVv sc s
  | .fenceAll sc => Sys2Proof.Machine.execFenceAll sc s
  | .bar rs1 => Sys2Proof.Machine.execBar rs1 s
  | .spalloc rs1 rs2 => Sys2Proof.Machine.execSpalloc rs1 rs2 s
  | .spfree rs1 rs2 => Sys2Proof.Machine.execSpfree rs1 rs2 s
  | .renew rs1 rs2 => Sys2Proof.Machine.execRenew rs1 rs2 s
  | .spage rd rs1 => Sys2Proof.Machine.execSpage rd rs1 s
  | .pin rd rs1 rs2 => Sys2Proof.Machine.execPin rd rs1 rs2 s
  | .unpin rs1 => Sys2Proof.Machine.execUnpin rs1 s
  | .stream o rs1 rs2 => Sys2Proof.Machine.execStream o rs1 rs2 s
  | .streamu o rs1 rs2 => Sys2Proof.Machine.execStreamu o rs1 rs2 s
  | .cwait aq sc rs1 rs2 => Sys2Proof.Machine.execCwait aq sc rs1 rs2 s
  | .cadd sc rs1 rs2 => Sys2Proof.Machine.execCadd sc rs1 rs2 s
  | .rclaim rd rs1 rs2 => Sys2Proof.Machine.execRclaim rd rs1 rs2 s
  | .rcommit rs1 rs2 => Sys2Proof.Machine.execRcommit rs1 rs2 s
  | .rawait rd rs1 rs2 => Sys2Proof.Machine.execRawait rd rs1 rs2 s
  | .rretire rs1 rs2 => Sys2Proof.Machine.execRretire rs1 rs2 s
  | .attach rd rs1 => Sys2Proof.Machine.execAttach rd rs1 s
  | .detach => Sys2Proof.Machine.execDetach s
  | .mld o mt rs1 rs2 => Sys2Proof.Machine.execMld o mt rs1 rs2 s
  | .mldx o rs1 vs => Sys2Proof.Machine.execMldx o rs1 vs s
  | .mlsc o mt rs1 => Sys2Proof.Machine.execMlsc o mt rs1 s
  | .mma acc a b => Sys2Proof.Machine.execMma acc a b s
  | .mrpt acc a rs2 => Sys2Proof.Machine.execMrpt acc a rs2 s
  | .msld acc a rs2 => Sys2Proof.Machine.execMsld acc a rs2 s
  | .mst o acc rs1 rs2 => Sys2Proof.Machine.execMst o acc rs1 rs2 s
  | .mzero acc => Sys2Proof.Machine.execMzero acc s
  | .bdset n rs1 => Sys2Proof.Machine.execBdset n rs1 s
  | .chnrun o rs1 rs2 => Sys2Proof.Machine.execChnrun o rs1 rs2 s
  | .chnstep o rs1 rs2 => Sys2Proof.Machine.execChnstep o rs1 rs2 s
  | .coll o rs1 rs2 => Sys2Proof.Machine.execColl o rs1 rs2 s
  | .ccancel rd rs1 => Sys2Proof.Machine.execCcancel rd rs1 s
  | .cstat rd rs1 => Sys2Proof.Machine.execCstat rd rs1 s
  | .launch rs1 rs2 => Sys2Proof.Machine.execLaunch rs1 rs2 s
  | .splbar rs1 => Sys2Proof.Machine.execSplbar rs1 s
  | .tdld td rs1 => Sys2Proof.Machine.execTdld td rs1 s
  | .bany ps off => Sys2Proof.Machine.execBany ps off s
  | .ball ps off => Sys2Proof.Machine.execBall ps off s
  | .bnone ps off => Sys2Proof.Machine.execBnone ps off s
  | .bnall ps off => Sys2Proof.Machine.execBnall ps off s
  | .pand pd ps1 ps2 => Sys2Proof.Machine.execPand pd ps1 ps2 s
  | .por pd ps1 ps2 => Sys2Proof.Machine.execPor pd ps1 ps2 s
  | .pxor pd ps1 ps2 => Sys2Proof.Machine.execPxor pd ps1 ps2 s
  | .pandn pd ps1 ps2 => Sys2Proof.Machine.execPandn pd ps1 ps2 s
  | .pnot pd ps1 => Sys2Proof.Machine.execPnot pd ps1 s
  | .pmov pd ps1 => Sys2Proof.Machine.execPmov pd ps1 s
  | .psetn pd rs => Sys2Proof.Machine.execPsetn pd rs s
  | .pwhile cond pd rsa rsb => Sys2Proof.Machine.execPwhile cond pd rsa rsb s
  | .ppopc rd ps => Sys2Proof.Machine.execPpopc rd ps s
  | .pfirst rd ps => Sys2Proof.Machine.execPfirst rd ps s
  | .psum rd ps => Sys2Proof.Machine.execPsum rd ps s
  | .vadd v => Sys2Proof.Machine.execVadd v s
  | .vsub v => Sys2Proof.Machine.execVsub v s
  | .vmul v => Sys2Proof.Machine.execVmul v s
  | .vmulh v => Sys2Proof.Machine.execVmulh v s
  | .vmin v => Sys2Proof.Machine.execVmin v s
  | .vmax v => Sys2Proof.Machine.execVmax v s
  | .vminu v => Sys2Proof.Machine.execVminu v s
  | .vmaxu v => Sys2Proof.Machine.execVmaxu v s
  | .vand v => Sys2Proof.Machine.execVand v s
  | .vor v => Sys2Proof.Machine.execVor v s
  | .vxor v => Sys2Proof.Machine.execVxor v s
  | .vsll v => Sys2Proof.Machine.execVsll v s
  | .vsrl v => Sys2Proof.Machine.execVsrl v s
  | .vsra v => Sys2Proof.Machine.execVsra v s
  | .vsadd v => Sys2Proof.Machine.execVsadd v s
  | .vbfx v => Sys2Proof.Machine.execVbfx v s
  | .vpopc u => Sys2Proof.Machine.execVpopc u s
  | .vclz u => Sys2Proof.Machine.execVclz u s
  | .vfshl u => Sys2Proof.Machine.execVfshl u s
  | .vfshr u => Sys2Proof.Machine.execVfshr u s
  | .vfadd v => Sys2Proof.Machine.execVfadd v s
  | .vfsub v => Sys2Proof.Machine.execVfsub v s
  | .vfmul v => Sys2Proof.Machine.execVfmul v s
  | .vfdiv v => Sys2Proof.Machine.execVfdiv v s
  | .vfma v => Sys2Proof.Machine.execVfma v s
  | .vfms v => Sys2Proof.Machine.execVfms v s
  | .vfnma v => Sys2Proof.Machine.execVfnma v s
  | .vfmin v => Sys2Proof.Machine.execVfmin v s
  | .vfmax v => Sys2Proof.Machine.execVfmax v s
  | .vfsgnj v => Sys2Proof.Machine.execVfsgnj v s
  | .vfscale v => Sys2Proof.Machine.execVfscale v s
  | .vfscl v => Sys2Proof.Machine.execVfscl v s
  | .vfsqrt u => Sys2Proof.Machine.execVfsqrt u s
  | .vfexp2 u => Sys2Proof.Machine.execVfexp2 u s
  | .vfabs u => Sys2Proof.Machine.execVfabs u s
  | .vfneg u => Sys2Proof.Machine.execVfneg u s
  | .vfrnd u => Sys2Proof.Machine.execVfrnd u s
  | .vcmpeq v => Sys2Proof.Machine.execVcmpeq v s
  | .vcmpne v => Sys2Proof.Machine.execVcmpne v s
  | .vcmplt v => Sys2Proof.Machine.execVcmplt v s
  | .vcmple v => Sys2Proof.Machine.execVcmple v s
  | .vcmpltu v => Sys2Proof.Machine.execVcmpltu v s
  | .vcmpleu v => Sys2Proof.Machine.execVcmpleu v s
  | .vfcmplt v => Sys2Proof.Machine.execVfcmplt v s
  | .vfcmple v => Sys2Proof.Machine.execVfcmple v s
  | .vcompress u ps => Sys2Proof.Machine.execVcompress u ps s
  | .vslideup v => Sys2Proof.Machine.execVslideup v s
  | .vslidedn v => Sys2Proof.Machine.execVslidedn v s
  | .vgather v => Sys2Proof.Machine.execVgather v s
  | .vredsum u => Sys2Proof.Machine.execVredsum u s
  | .vredmax u => Sys2Proof.Machine.execVredmax u s
  | .vredmin u => Sys2Proof.Machine.execVredmin u s
  | .vfredsum u => Sys2Proof.Machine.execVfredsum u s
  | .vfredmax u => Sys2Proof.Machine.execVfredmax u s
  | .vcvt u t => Sys2Proof.Machine.execVcvt u t s
  | .vmv v => Sys2Proof.Machine.execVmv v s
  | .viota u => Sys2Proof.Machine.execViota u s
  | .vid u => Sys2Proof.Machine.execVid u s
  | .vtrans u => Sys2Proof.Machine.execVtrans u s
  | .vld m => Sys2Proof.Machine.execVld m s
  | .vst m => Sys2Proof.Machine.execVst m s
  | .vldc m => Sys2Proof.Machine.execVldc m s
  | .vlsc m => Sys2Proof.Machine.execVlsc m s
  | .vssc m => Sys2Proof.Machine.execVssc m s
  | .vamoadd m => Sys2Proof.Machine.execVamoadd m s
  | .vamomax m => Sys2Proof.Machine.execVamomax m s
  | .vamomin m => Sys2Proof.Machine.execVamomin m s
  | .rv op half => Sys2Proof.Machine.execRv op half s
  | .mret => Sys2Proof.Machine.execMret s
  | .hookset => Sys2Proof.Machine.execHookset s
  | .hookret => Sys2Proof.Machine.execHookret s
  | .abort => Sys2Proof.Machine.execAbort s
  | .ecallUnknown => Sys2Proof.Machine.execEcallUnknown s
  | .vtypeWrite a => Sys2Proof.Machine.execVtypeWrite a s
  | .mfcWrite a => Sys2Proof.Machine.execMfcWrite a s
  | .vxiWrite a => Sys2Proof.Machine.execVxiWrite a s
  | .poolBoundaryWrite which a => Sys2Proof.Machine.execPoolBoundaryWrite which a s
  | .vvalidWrite a => Sys2Proof.Machine.execVvalidWrite a s
  | .bdCsrWrite n a => Sys2Proof.Machine.execBdCsrWrite n a s
  | .registerWrite t => Sys2Proof.Machine.execRegisterWrite t s
  | .doorbellWrite q t => Sys2Proof.Machine.execDoorbellWrite q t s
  | .hostBar2Access b => Sys2Proof.Machine.execHostBar2Access b s
  | .qconfig q => Sys2Proof.Machine.execQconfig q s
  | .shootdown q va len => Sys2Proof.Machine.execShootdown q va len s
  | .elideclr q idx => Sys2Proof.Machine.execElideclr q idx s
  | .commset table count => Sys2Proof.Machine.execCommset table count s
  | .powerlimit watts => Sys2Proof.Machine.execPowerlimit watts s
  | .domainid id => Sys2Proof.Machine.execDomainid id s
  | .aperture base => Sys2Proof.Machine.execAperture base s
  | .fwstage slot addr len => Sys2Proof.Machine.execFwstage slot addr len s
  | .fwswitch => Sys2Proof.Machine.execFwswitch s
  | .qresume q action => Sys2Proof.Machine.execQresume q action s
  | .mailboxUnknownCode code => Sys2Proof.Machine.execMailboxUnknownCode code s
  | .fwHeartbeat accepts => Sys2Proof.Machine.execFwHeartbeat accepts s
  | .fwHeartbeatTimeout => Sys2Proof.Machine.execFwHeartbeatTimeout s
  | .spdmGetVersion => Sys2Proof.Machine.execSpdmGetVersion s
  | .spdmGetCapabilities => Sys2Proof.Machine.execSpdmGetCapabilities s
  | .spdmNegotiateAlgorithms => Sys2Proof.Machine.execSpdmNegotiateAlgorithms s
  | .spdmGetDigests => Sys2Proof.Machine.execSpdmGetDigests s
  | .spdmGetCertificate off len => Sys2Proof.Machine.execSpdmGetCertificate off len s
  | .spdmChallenge nonce => Sys2Proof.Machine.execSpdmChallenge nonce s
  | .spdmGetMeasurements index nonce => Sys2Proof.Machine.execSpdmGetMeasurements index nonce s
  | .spdmKeyExchange peerShare => Sys2Proof.Machine.execSpdmKeyExchange peerShare s
  | .spdmFinish mac => Sys2Proof.Machine.execSpdmFinish mac s
  | .spdmEndSession => Sys2Proof.Machine.execSpdmEndSession s
  | .keyLoad k key => Sys2Proof.Machine.execKeyLoad k key s
  | .keyClear k => Sys2Proof.Machine.execKeyClear k s
  | .deviceReset => Sys2Proof.Machine.execDeviceReset s
  | .bootComplete slot0 slot1 => Sys2Proof.Machine.execBootComplete slot0 slot1 s
  | .hbmTrainingComplete => Sys2Proof.Machine.execHbmTrainingComplete s
  | .thermalThrottle die => Sys2Proof.Machine.execThermalThrottle die s
  | .thermalTrip => Sys2Proof.Machine.execThermalTrip s
  | .powerLimitEnforce die => Sys2Proof.Machine.execPowerLimitEnforce die s
  | .clockStretch die => Sys2Proof.Machine.execClockStretch die s
  | .recordReachesHead q => Sys2Proof.Machine.execRecordReachesHead q s
  | .recordDispatchStart q => Sys2Proof.Machine.execRecordDispatchStart q s
  | .hartAssign hart launch key slot resv => Sys2Proof.Machine.execHartAssign hart launch key slot resv s
  | .gangDispatch launch harts slots resv => Sys2Proof.Machine.execGangDispatch launch harts slots resv s
  | .launchComplete launch => Sys2Proof.Machine.execLaunchComplete launch s
  | .pairComplete launch => Sys2Proof.Machine.execPairComplete launch s
  | .coreReservationRelease hart => Sys2Proof.Machine.execCoreReservationRelease hart s
  | .queueAgeing q => Sys2Proof.Machine.execQueueAgeing q s
  | .quantumExpiry hart => Sys2Proof.Machine.execQuantumExpiry hart s
  | .preemptionRequest hart => Sys2Proof.Machine.execPreemptionRequest hart s
  | .preemptDeadline hart elem => Sys2Proof.Machine.execPreemptDeadline hart elem s
  | .gangSaveStart launch => Sys2Proof.Machine.execGangSaveStart launch s
  | .contextSaveComplete ctx => Sys2Proof.Machine.execContextSaveComplete ctx s
  | .contextResume ctx hart => Sys2Proof.Machine.execContextResume ctx hart s
  | .sweeperVisit core owner block => Sys2Proof.Machine.execSweeperVisit core owner block s
  | .renewalPerform core owner => Sys2Proof.Machine.execRenewalPerform core owner s
  | .ringBlockRenewal hart => Sys2Proof.Machine.execRingBlockRenewal hart s
  | .l1DirtyWriteback hart line => Sys2Proof.Machine.execL1DirtyWriteback hart line s
  | .extensionBankRenewal hart bank => Sys2Proof.Machine.execExtensionBankRenewal hart bank s
  | .l2LineRetention die line => Sys2Proof.Machine.execL2LineRetention die line s
  | .sectorPoisonDetect place owner sector => Sys2Proof.Machine.execSectorPoisonDetect place owner sector s
  | .scarabCommandBegin cluster hart => Sys2Proof.Machine.execScarabCommandBegin cluster hart s
  | .scarabPrefixAdvance cluster cmd upto => Sys2Proof.Machine.execScarabPrefixAdvance cluster cmd upto s
  | .scarabFault cluster cmd => Sys2Proof.Machine.execScarabFault cluster cmd s
  | .scarabCommandComplete cluster cmd => Sys2Proof.Machine.execScarabCommandComplete cluster cmd s
  | .ordinalRegistration m => Sys2Proof.Machine.execOrdinalRegistration m s
  | .ordinalDeferredNumber comm tag => Sys2Proof.Machine.execOrdinalDeferredNumber comm tag s
  | .ordinalStartReport num rank => Sys2Proof.Machine.execOrdinalStartReport num rank s
  | .ordinalCancellation comm tag rank => Sys2Proof.Machine.execOrdinalCancellation comm tag rank s
  | .collectiveNotice comm tag num prev void aborted => Sys2Proof.Machine.execCollectiveNotice comm tag num prev void aborted s
  | .collectiveBegin num seq => Sys2Proof.Machine.execCollectiveBegin num seq s
  | .collectiveEnd num seq status peers => Sys2Proof.Machine.execCollectiveEnd num seq status peers s
  | .collectiveEngineFault num seq cause addr => Sys2Proof.Machine.execCollectiveEngineFault num seq cause addr s
  | .collectiveTimeout num => Sys2Proof.Machine.execCollectiveTimeout num s
  | .ccancelAnswerTimeout hart => Sys2Proof.Machine.execCcancelAnswerTimeout hart s
  | .ordinalElection primary standby => Sys2Proof.Machine.execOrdinalElection primary standby s
  | .ordinalHeartbeat => Sys2Proof.Machine.execOrdinalHeartbeat s
  | .ordinalStandbyAckTimeout => Sys2Proof.Machine.execOrdinalStandbyAckTimeout s
  | .ordinalFailover => Sys2Proof.Machine.execOrdinalFailover s
  | .ethernetRecordReceive peer seqNum rec => Sys2Proof.Machine.execEthernetRecordReceive peer seqNum rec s
  | .sessionRekey peer => Sys2Proof.Machine.execSessionRekey peer s
  | .remoteAccessAtHome op pa key => Sys2Proof.Machine.execRemoteAccessAtHome op pa key s
  | .remoteReadTimeout hart kind elem va => Sys2Proof.Machine.execRemoteReadTimeout hart kind elem va s
  | .remoteWriteUndeliverable writer va => Sys2Proof.Machine.execRemoteWriteUndeliverable writer va s
  | .supplyRecovery die => Sys2Proof.Machine.execSupplyRecovery die s
  | .domainFault => Sys2Proof.Machine.execDomainFault s
  | .ordinalReplication entry => Sys2Proof.Machine.execOrdinalReplication entry s
  | .sessionKeyExchange peer share => Sys2Proof.Machine.execSessionKeyExchange peer share s
  | .ethernetRetransmission peer seqNum => Sys2Proof.Machine.execEthernetRetransmission peer seqNum s

end Sys2Proof.Machine
end

