-- ==== Sys2Proof/Machine/Run.lean ====
section
/-!
DEFINITION. What one step does: the environment's next item (DESIGN CHOICE log 2), else the next instruction of the hart whose turn it
is, with the vector queue's order around it (R40, R49, R59, R391).
-/

namespace Sys2Proof.Machine

/-! ## The environment -/

/-- While time passes the sweeper has marked every block no later than 768 ticks after its stamp, so that none reads as young
again (R138). -/
def Block.sweptBy (time ticks : Nat) (b : Block) : Block :=
  if b.live && 768 ≤ b.age time + ticks then { b with expired := true } else b

def sweepTab (time ticks : Nat) (t : Tab Block) : Tab Block := t.map fun (i, b) => (i, b.sweptBy time ticks)

/-- What a hart has of passing time: its cycle counter, unless mcountinhibit stops it, and the ages of its blocks. -/
def Hart.elapse (time ticks cycles : Nat) (h : Hart) : Hart :=
  { h with
    mcycle := if bitAt h.mcountinhibit 0 then h.mcycle else h.mcycle + BitVec.ofNat 64 cycles
    pool := sweepTab time ticks h.pool }

/-- Cores in service in a cluster (R192). -/
def State.coresIn (s : State) (cl : Nat) : Nat := ((List.range 4).filter fun i => !isOff (s.lane (4 * cl + i))).length

/-- Could the cores in service take work of a queue, were they free? A launch that was accepted has minimums that a core meets
(R63), a gang takes one cluster (R211), a context the cluster it left (R212). (DEDUCED log 26) -/
def State.receivable (s : State) (q : Nat) : Bool :=
  s.launches.any fun (n, l) => l.queue = q && !l.ended &&
    ((!l.distributed && (List.range 128).any fun cl => (if l.a.isGang then keyCount l.a else 1) ≤ s.coresIn cl)
      || s.contexts.any fun c => c.hart.inLaunch n && c.saved && c.status ≠ 2
        && (if l.a.isGang then (s.contexts.filter (·.hart.inLaunch n)).length else 1) ≤ s.coresIn c.cluster)

/-- Has a firmware queue work (R55, R57)? -/
def State.firmwareWork (s : State) : Bool := s.queues.any fun (q, qu) => qu.cprio = 7 && (s.runnable q || s.holdsHart q)

/-- Does R57's bound run for a queue: it is runnable, holds no hart and can receive one, and no firmware queue has work? -/
def State.waitRuns (s : State) (q : Nat) : Bool := s.runnable q && !s.holdsHart q && s.receivable q && !s.firmwareWork

/-- Ticks as a queue counts them, for R55 and for R57; none while the scheduler firmware is replaced (R299). -/
def Queue.elapse (s : State) (ticks q : Nat) (v : Queue) : Queue :=
  if s.firmware.update ≠ .none then v
  else { v with age := if s.ages q then v.age + ticks else v.age, waited := if s.waitRuns q then v.waited + ticks else 0 }

/-- A hart's quantum, too, does not run while the scheduler firmware is replaced (R56, R299). -/
def Job.elapse (s : State) (ticks : Nat) (j : Job) : Job :=
  if s.firmware.update ≠ .none then { j with since := j.since + ticks } else j

/-- Time passes: ticks, the arithmetic-clock cycles of each compute die, the harts' cycle counters, the ages of blocks and of queues
(R14, R55, R57, R138, Table 01-3). (DESIGN CHOICE log 29) -/
def State.elapse (ticks : Nat) (cycles : List Nat) (s : State) : State :=
  let t := s.mapHarts fun h => { h.elapse s.time ticks (cycles.getD h.die 0) with job := h.job.map (·.elapse s ticks) }
  State.settle { t with
    time := s.time + ticks, cycles := (List.range 4).map fun d => s.cycles.getD d 0 + cycles.getD d 0
    clusters := s.clusters.map fun (i, c) => (i, { c with spad := sweepTab s.time ticks c.spad })
    queues := s.queues.map fun (q, v) => (q, v.elapse s ticks q) }

/-! ## Bounds in ticks that bind (R7) -/

/-- At a tick, has the range at the front of a renewal queue been served within 8 ticks of reaching it (R141)? -/
def renewalInTime (tick : Nat) (q : List RenewRange) : Bool :=
  match q with
  | r :: _ => tick ≤ r.since + 8
  | [] => true

/-- Is every live ring block of a pair's running hart still within 128 ticks of its renewal, `ticks` from now (R224)? -/
def State.ringInTime (s : State) (ticks : Nat) (h : Hart) : Bool :=
  match (s.launchOf h).bind fun l => l.pair.map (l, ·) with
  | some (l, p) =>
    let (b, n) := ringBlocks l p h
    h.status ≠ .running || h.pool.all fun (i, v) =>
      !(b ≤ i && i < b + n * (p.lag + 1)) || v.state s.time ≠ .live || v.age s.time + ticks ≤ 128
  | none => true

/-- Is a queue within its bounds, `ticks` from now: an ageing step falls at its 2,000th tick (R55), a hart comes within 16,700
(R57)? -/
def State.queueInTime (s : State) (ticks q : Nat) (v : Queue) : Bool :=
  s.firmware.update ≠ .none
    || ((6 ≤ v.prio || v.age + ticks ≤ 2000 || !s.ages q) && (v.waited + ticks ≤ 16700 || !s.waitRuns q))

/-- Is the Ordinal here within its bounds at a tick: the primary's heartbeats every 40 ticks (R273), the standby's takeover after 200
of silence (R274), the timers of its collectives (R271)? -/
def State.ordinalInTime (s : State) (tick : Nat) : Bool :=
  let o := s.ordinal
  o.lost || (match o.role with
    | .primary => (o.standby.isNone || tick ≤ o.lastBeat + 40)
        && (!s.ordinalActive || o.entries.all fun e => e.ended || match e.deadline with
          | some d => tick ≤ d
          | none => true)
    | .standby => tick ≤ o.lastBeat + 200
    | .none => true)

/-- May so many ticks pass before something else happens: renewals within 8 ticks (R141), saves within 160 (R203), ring renewals
every 128 (R224), CCANCEL's wait of 300 (R264), an update of 4,500 (R299), the queues' bounds and the Ordinal's are bounds that bind
(R7)? None does in a device that a thermal trip or a failed boot has stopped. (DESIGN CHOICE log 29) -/
def State.mayElapse (s : State) (ticks : Nat) : Bool :=
  let tick := s.time + ticks
  s.status.fatal = 1 || s.status.fatal = 2 || (s.queues.all fun p => s.queueInTime ticks p.1 p.2) && s.ordinalInTime tick
    && s.harts.all (fun h => renewalInTime tick h.renewQ && s.ringInTime ticks h && (match h.cancel with
      | some c => tick ≤ c.since + 300
      | none => true))
    && s.clusters.all (fun p => renewalInTime tick p.2.renewQ)
    && s.contexts.all (fun c => c.saved || tick ≤ c.startTick + 160)
    && s.clusterSaves.all (fun v => v.saved || tick ≤ v.startTick + 160)
    && (match s.firmware.update with
      | .starting t | .restarting t => tick ≤ t + 4500
      | .none => true)

/-- The rows that the environment brings: the ECALL rows are executed by the hart's own ECALL, and ABORT is the runtime's
answer to a trap (R392). -/
def State.mayBring (s : State) (i : Instr) : Bool :=
  i.isEvent && (match i with
    | .hookset | .hookret | .ecallUnknown => false
    | .abort => s.hart.trapped
    | _ => true)

/-- Does a write of BAR0 lie in the management mailbox (Table 18-1)? -/
def inMailbox (off n : Nat) : Bool := 0x10000 ≤ off && off + n ≤ 0x10050

/-- After a thermal trip the host's BAR2 accesses and a device reset act, and of the mailbox what places BAR2: the host reads and
writes all of HBM (R19, R285); other BAR0 writes and commands do nothing (DESIGN CHOICE log 37). After a failed boot only the reset
acts (R294), and a thermal trip (R19). -/
def State.stoppedFor (s : State) (i : Instr) : Bool :=
  match s.status.fatal, i with
  | 1, .hostBar2Access _ => false
  | 1, .deviceReset => false
  | 1, .aperture _ => false
  | 1, .mailboxUnknownCode _ => false
  | 1, .registerWrite (.bar0 off bs) => !inMailbox off bs.length
  | 1, _ => true
  | 2, .deviceReset => false
  | 2, .thermalTrip => false
  | 2, _ => true
  | _, _ => false

/-- One item of the agenda. A forced pre-emption that is due comes before further passes of a clause (R200). -/
def bring (a : Agenda) (s : State) : Outcome :=
  match a with
  | .event i => if s.mayBring i && !s.stoppedFor i then exec i s else .next s
  | .elapse ticks cycles => .next (if s.mayElapse ticks then s.elapse ticks cycles else s)
  | .select h => .next (if h < 512 then s.selectHart h else s)
  | .clausePasses n =>
    if s.hart.clause.map (·.mode) = some s.hart.mode ∧ s.hart.status = .running ∧ s.status.fatal = 0 ∧ !s.forcedDue then
      match (clausePasses n).run s with
      | .ok _ s' => .next s'
      | .error (.trap t) s' => .next (deliver t s')
      | .error (.preempt pc k) s' => .next (preempt true true pc k s')
      | .error .wait s' => .next s'
      | .error (.hold r) _ => .next (s.holding r)
    else .next s
  | .upset u => .next { s with hart := { s.hart with upsets := s.hart.upsets ++ [u] } }

/-! ## Order of the vector queue -/

/-- CSRs of the vector unit, whose reads and writes wait for earlier vector instructions (R40, R123). -/
def vectorCsr (a : Nat) : Bool := (0x800 ≤ a && a ≤ 0x808 && a ≠ 0x807) || a = 0xCC0 || a = 0xCC9

/-- Does a word of the hart's clause write a predicate register? -/
def Hart.clauseWrites (h : Hart) (p : Nat) : Bool :=
  match h.clause with
  | some c => c.ops.any fun o => (decodeWordOf o.word).bind writesPred = some p
  | none => false

/-- Does an instruction wait until an active clause has ended: what executes in the vector queue, what waits for it, and
what orders against it (R36, R40, R41, R44, R174)? CLWAIT waits for the passes it names (R48), a branch for the writers of its
predicate (R303). -/
def waitsForClause (h : Hart) : Instr → Bool
  | .clwait _ rs1 => !clwaitDone h rs1
  | .vshape _ _ _ | .vsett _ _ | .iter _ | .next | .endK | .yield | .clause _ _ _ => true
  | .fenceVs _ | .fenceAll _ | .bar _ | .rcommit _ _ | .tdld _ _ | .mldx _ _ _ => true
  | .spalloc _ _ | .spfree _ _ | .renew _ _ | .spage _ _ => true
  | .bany ps _ | .ball ps _ | .bnone ps _ | .bnall ps _ => h.clauseWrites ps.toNat
  | .pand _ _ _ | .por _ _ _ | .pxor _ _ _ | .pandn _ _ _ | .pnot _ _ | .pmov _ _ | .psetn _ _ | .pwhile _ _ _ _ => true
  | .ppopc _ _ | .pfirst _ _ | .psum _ _ => true
  | .vtypeWrite _ | .mfcWrite _ | .vxiWrite _ | .vvalidWrite _ | .poolBoundaryWrite _ _ => true
  | .registerWrite (.csr a _) => vectorCsr a.toNat
  | .rv (.csrRead _ _ _ a) _ => vectorCsr a.toNat
  | i => isVector i

/-- One pass of the active clause; the scalar core stays at `cont`. -/
def runPass (cont : Word) (s : State) : Outcome :=
  match (clausePass cont).run s with
  | .ok _ s' => .next s'
  | .error (.trap t) s' => .next (deliver t s')
  | .error (.preempt pc k) s' => .next (preempt true true pc k s')
  | .error .wait s' => .next s'
  | .error (.hold r) _ => .next (s.holding r)

/-- A decoded instruction meets the vector queue: while it waits for an active clause, the clause makes a pass, or a
pending request is taken before it (R391); else it executes. -/
def perform (i : Instr) (s : State) : Outcome :=
  if s.hart.clauseRuns && waitsForClause s.hart i then
    if isWaiting i ∧ s.hart.requestPending then .next (preempt true false s.hart.pc 0 s)
    else runPass s.hart.pc s
  else exec i s

/-- Instructions that a forced pre-emption may stop at an element or chain step that the environment names (R59, R253). -/
def stopsInside : Instr → Bool
  | .chnrun _ _ _ | .chnstep _ _ _ => true
  | i => isVector i

/-- Has a step taken interrupt 16: the request is no longer pending, and mcause names it (R200)? -/
def Hart.tookRequest (h : Hart) : Bool := !bitAt h.preq 0 && h.mcause = BitVec.ofNat 64 (2 ^ 63 + 16)

/-- A forced request falls due before an instruction that stands at this boundary (R59). A hart that waits in a waiting
instruction takes it there as any other request, with F clear and VXI 0, whether or not DL has passed (R391); `t` is the state in
which the instruction has been fetched. -/
def takeForced (i : Instr) (s t : State) : Outcome :=
  let forced : Outcome := .next (preempt true true s.hart.pc s.hart.vxi s)
  if isWaiting i then
    match perform i t with
    | .next u => if u.hart.tookRequest then .next u else forced
    | _ => forced
  else forced

/-! ## The next instruction -/

/-- Fetch, decode and perform the instruction at the pc (R101); a forced pre-emption that is due falls before it (R59). -/
def runInstr (s : State) : Outcome :=
  match (fetchAt (s.fetchAccess s.hart.mode s.hart) s.hart.pc).run s with
  | .error (.trap t) s' =>
    .next (if s.forcedDue && s.hart.stopAt.isNone then preempt true true s.hart.pc s.hart.vxi s else deliver t s')
  | .error (.hold r) _ =>
    .next (if s.forcedDue then preempt true true s.hart.pc s.hart.vxi s else s.holding r)
  | .error _ s' => .next s'
  | .ok bs s' =>
    let t := { s' with hart := { s'.hart with ir := irOf bs } }
    match decode bs with
    | .error _ =>
      .next (if s.forcedDue && s.hart.stopAt.isNone then preempt true true s.hart.pc s.hart.vxi s else deliver { cause := 2 } t)
    | .ok (i, _) =>
      if s.forcedDue && (s.hart.stopAt.isNone || !stopsInside i) then takeForced i s t
      else perform i t

/-- The hart whose turn it is takes its next step: a forced pre-emption that is due falls at this boundary, unless one
inside the instruction is chosen or a CCANCEL waits for its answer (R59, R264); a stopped clause goes on (R49). -/
def runHart (s : State) : Outcome :=
  match s.hart.atStoppedClause with
  | some cont =>
    if s.forcedDue && s.hart.stopAt.isNone then .next (preempt true true s.hart.pc s.hart.vxi s)
    else runPass cont s
  | none => runInstr s

/-- One step of the package. -/
def stepPackage (s : State) : Outcome :=
  match s.agenda with
  | a :: t => bring a { s with agenda := t }
  | [] =>
    if s.status.fatal = 1 then .fault .thermalTrip
    else if s.status.fatal = 2 then .fault .bootFailed
    else if s.hart.status = .running then runHart s
    else .next s

/-- An instruction's bits, stored at a physical address as the hardware stores them: 16-bit parcels, little-endian (R6, R91);
`n` bytes. -/
def placeWord (n w a : Nat) (s : State) : State := { s with mem := Memory.write s.mem a (toBytes n w) }

end Sys2Proof.Machine
end

