-- ==== Sys2Proof/Machine/Step.lean ====
section
/-!
DEFINITION. One step, and the store of an instruction where the next step fetches it.
-/

namespace Sys2Proof.Machine

/-- One step of the machine. -/
def step (s : State) : Host.Outcome State Fault Refusal := stepPackage s

/-- The state with an instruction's 32 bits at the address where the next step fetches: after reset a hart fetches
physically at its pc (DESIGN CHOICE log 3). `nbits` may be 16, and the bits above it are 0. -/
def State.withFetchWord (s : State) (nbits w : Nat) : State := placeWord 4 (w % 2 ^ nbits) s.hart.pc.toNat s

end Sys2Proof.Machine
end

