-- ==== Sys2Proof/Safety.lean ====
section
/-!
DEFINITION. What a safe state and a safe step are: memory in its canonical form, tables in order, and a step that goes on.
-/

namespace Sys2Proof.Machine

/-- Memory stands in its canonical form: addresses rise, and no entry equals what an unlisted byte reads as. -/
def State.memOk (s : State) : Prop := Memory.wf s.mem = true

/-- The package goes on: its next step is another state. -/
def State.goesOn (s : State) : Prop := ∃ t, step s = .next t

/-- The package has stopped for good: a thermal trip or a failed boot with nothing left for the environment to do
(R19, R294). -/
def State.halted (s : State) : Prop := s.agenda = [] ∧ (s.status.fatal = 1 ∨ s.status.fatal = 2)

end Sys2Proof.Machine
end

