-- ==== Sys2Proof/Certificates/Slice0/Obligations.lean ====
section
/-!
DEFINITION. The statements for the provers: what reset leaves, what a step does, and what each instruction does and leaves
alone. A statement about an instruction's result says that `exec` answers a next state and which.
-/

namespace Sys2Proof.Claims

open Sys2Proof.Machine

/-- The state after a completed instruction that changed its own hart only; minstret has counted it. -/
def onHart (s : State) (h : Hart) : State := ({ s with hart := h } : State).retire

/-- The hart with its pc behind a four-byte instruction. -/
def past (h : Hart) : Hart := { h with pc := h.pc + 4 }

/-- A hart of M-mode whose data accesses are physical: no MPRV (R149). -/
def bare (s : State) : Prop := s.hart.mode = .m ∧ ¬ (bitAt s.hart.mstatus 17 = true ∧ mppOf s.hart.mstatus = .u)

/-- No byte of a run of physical memory is poisoned (R196). -/
def cleanBytes (s : State) (a n : Nat) : Prop := ∀ i, i < n → s.poisonOf (a + i) = none

end Sys2Proof.Claims

open Sys2Proof Sys2Proof.Machine Sys2Proof.Claims

/-! ## Reset and the step -/

/-- Table 02-1, Table 02-2, Table 07-5, Table 07-6 and R130: the values that the spec gives at device reset, of the hart
that runs and of every hart that nothing has touched; and two that it does not give: hart 0 runs in M-mode (DESIGN CHOICE log 3), and
the registers of a queue are zero (Table 18-3). -/
def Obligations.ResetLeavesTheGivenValues : Prop :=
  (∀ id, (State.reset.hartOf id).vtype = 0x1DC#64 ∧ (State.reset.hartOf id).vshp = 0x10000#64 ∧
    (State.reset.hartOf id).mfc = 0x8#64 ∧ (State.reset.hartOf id).vxi = 0 ∧ (State.reset.hartOf id).poolv = 0 ∧
    (State.reset.hartOf id).pools = 0 ∧ (State.reset.hartOf id).poolc = 64 ∧ (State.reset.hartOf id).preq = 0 ∧
    (State.reset.hartOf id).clause = none ∧ (State.reset.hartOf id).grant = none ∧ (State.reset.hartOf id).hook = none) ∧
  State.reset.hart.mode = .m ∧ State.reset.time = 0 ∧ State.reset.mailbox.go = 0 ∧ State.reset.status.ready = false ∧
  ∀ q, (State.reset.queue q).head = 0 ∧ (State.reset.queue q).tail = 0 ∧ (State.reset.queue q).error = 0

/-- The state right after reset has its memory in canonical form: the model's own, since it says what memory that nothing has written
reads as (DESIGN CHOICE log 1); R296 says what a reset does to memory. -/
def Obligations.ResetMemoryIsCanonical : Prop := State.reset.memOk

/-- Every step, whatever the environment brings, keeps memory in its canonical form. -/
def Obligations.StepKeepsMemoryCanonical : Prop :=
  ∀ s t, s.memOk → step s = .next t → t.memOk

/-- The package stops only after a thermal trip (R19) or a failed boot (R294) with nothing left for the environment to do; in
every other state a step answers a next state. -/
def Obligations.StepStopsOnlyWhenHalted : Prop :=
  ∀ s, (s.halted → ∃ f, step s = .fault f) ∧ (¬ s.halted → ∃ t, step s = .next t)

/-- R101, R91: where the bytes at the pc decode to an instruction, and neither the environment, nor a forced pre-emption that is
due, nor an active clause that the instruction waits for comes first, a step is `exec` of that instruction, on the state the
fetch leaves with the word latched for R102. -/
def Obligations.StepRunsTheDecodedInstruction : Prop :=
  ∀ (s u : State) (bs rest : List Byte) (i : Instr),
    s.agenda = [] → s.status.fatal ≠ 1 → s.status.fatal ≠ 2 → s.hart.status = .running → s.forcedDue = false →
    s.hart.atStoppedClause = none →
    (fetchAt (s.fetchAccess s.hart.mode s.hart) s.hart.pc).run s = .ok bs u →
    decode bs = .ok (i, rest) →
    (u.hart.clauseRuns = false ∨ waitsForClause { u.hart with ir := irOf bs } i = false) →
    step s = exec i { u with hart := { u.hart with ir := irOf bs } }

/-- R102: where the bytes at the pc decode to nothing, the step takes the illegal-instruction trap: mcause 2, mtval the word,
mepc its address, in M-mode. -/
def Obligations.UndefinedWordTraps : Prop :=
  ∀ (s u : State) (bs : List Byte) (r : Reject),
    s.agenda = [] → s.status.fatal ≠ 1 → s.status.fatal ≠ 2 → s.hart.status = .running → s.forcedDue = false →
    s.hart.atStoppedClause = none →
    (fetchAt (s.fetchAccess s.hart.mode s.hart) s.hart.pc).run s = .ok bs u →
    decode bs = .error r →
    ∃ t, step s = .next t ∧ t.hart.mode = .m ∧ t.hart.mcause = 2 ∧ t.hart.mepc = u.hart.pc ∧
      t.hart.mtval = (irOf bs).setWidth 64 ∧ t.hart.pc = trapVector u.hart.mtvec false 2 ∧ t.hart.vxi = 0 ∧
      t.hart.x = u.hart.x ∧ t.hart.vregs = u.hart.vregs ∧ t.mem = u.mem

/-! ## Encodings -/

/-- Decoding the encoding of a well-formed instruction gives it back, with every operand at every value the encoding admits, and
leaves the bytes behind it. A scalar instruction written as a compressed halfword is one that the halfword stands for. -/
def Obligations.DecodeInvertsEncode : Prop :=
  ∀ (i : Instr) (bs rest : List Byte),
    i.wf = true → (∀ op h, i = .rv op (some h) → expandHalf h = some op) → encode i = some bs →
    decode (bs ++ rest) = .ok (i, rest)

/-- R91, R3, R99, R100: an instruction has two bytes exactly when its low two bits are not 0b11, and no four-byte word that the
decoder accepts has bits [4:2] = 0b111. -/
def Obligations.DecoderFollowsTheLengthRule : Prop :=
  ∀ (b0 b1 : Byte) (rest out : List Byte) (i : Instr),
    decode (b0 :: b1 :: rest) = .ok (i, out) →
    (b0 &&& 3#8 ≠ 3#8 → out = rest) ∧
    (b0 &&& 3#8 = 3#8 → b0 &&& 0x1C#8 ≠ 0x1C#8 ∧ ∃ b2 b3, rest = b2 :: b3 :: out)

/-- Words that the spec prints with their meaning (Tables 03, 04, 06 to 08, 10, 11, 13, 15, 17 and the reference pages), one or two
of each family, decode to the instructions they stand for; a reserved function code decodes to nothing (R100). -/
def Obligations.WordsOfTheSpecDecode : Prop :=
  decodeTableWord 32 0x01DE0F0B = some (.vshape 30 28 29) ∧
  decodeTableWord 32 0x0203800B = some (.vsett 0 7) ∧
  decodeTableWord 32 0x0600000B = some .next ∧
  decodeTableWord 32 0x0650200B = some (.fenceAll .sys) ∧
  decodeTableWord 32 0x02B5480B = some (.stream { aq := true, rl := false, scope := .cluster } 10 11) ∧
  decodeTableWord 32 0xB749D40B = some (.chnrun { aq := false, rl := true, scope := .pkg } 19 20) ∧
  decodeTableWord 32 0x41F4460B = some (.rclaim 12 8 31) ∧
  decodeTableWord 32 0x0005718B = some (.tdld 3 10) ∧
  decodeTableWord 32 0xFFFD2477 = some (.bany 9 0xFFFD) ∧
  decodeTableWord 32 0x746984EB = some (.pwhile .ltu 9 12 13) ∧
  decodeTableWord 32 0x80E0206B = some (.ppopc 28 1) ∧
  decodeTableWord 32 0x060A01DB = some (.vpopc { c := false, pg := 0, vd := 3, vs2 := 5 }) ∧
  decodeTableWord 32 0x060A41DB = none ∧
  decodeTableWord 32 0x40C2227B = some (.vfma { c := false, pg := 3, vd := 4, vs2 := 1, b := .vv 2 }) ∧
  decodeTableWord 32 0x32015157 = some (.vcmple { c := false, pg := 0, vd := 2, vs2 := 0, b := .vx 21 }) ∧
  decodeTableWord 32 0x8E0010D7 = some (.vcompress { c := true, pg := 0, vd := 1, vs2 := 0 } 1) ∧
  decodeTableWord 32 0x1E0270AB = some (.vst { c := true, pg := 0, vd := 1, base := 7, mode := .td 1 }) ∧
  decodeTableWord 32 0x80701073 = some (.registerWrite (.csr 0x807 { op := .rw, rd := 0, src := .reg 0 }))

/-! ## The scalar core (R103) -/

namespace Sys2Proof.Claims

/-- Destination and value of a scalar instruction that reads and writes x registers only. -/
def arith (h : Hart) : Rv → Option (BitVec 5 × Word)
  | .lui rd imm => some (rd, (imm ++ (0 : BitVec 12)).signExtend 64)
  | .auipc rd imm => some (rd, h.pc + (imm ++ (0 : BitVec 12)).signExtend 64)
  | .opImm op rd a imm => some (rd, immValue op (h.xr a) (imm.signExtend 64))
  | .shImm op rd a n => some (rd, shValue op (h.xr a) n.toNat)
  | .addiw rd a imm => some (rd, ((h.xr a).setWidth 32 + imm.signExtend 32).signExtend 64)
  | .shImmW op rd a n => some (rd, shWValue op (h.xr a) n.toNat)
  | .alu op rd a b => some (rd, aluValue op (h.xr a) (h.xr b))
  | .aluW op rd a b => some (rd, aluWValue op (h.xr a) (h.xr b))
  | .un op rd a => some (rd, unValue op (h.xr a))
  | _ => none

/-- Where a scalar instruction that only moves the pc goes, with its link. -/
def jump (h : Hart) (n : Nat) : Rv → Option (Option (BitVec 5) × Word)
  | .jal rd off => some (some rd, (h.pc + (off.signExtend 64 <<< 1)) &&& ~~~ 1#64)
  | .jalr rd a imm => some (some rd, (h.xr a + imm.signExtend 64) &&& ~~~ 1#64)
  | .branch op a b off =>
    some (none, if brTaken op (h.xr a) (h.xr b) then h.pc + (off.signExtend 64 <<< 1) else h.pc + BitVec.ofNat 64 n)
  | .fence _ _ _ _ _ => some (none, h.pc + BitVec.ofNat 64 n)
  | _ => none

/-- A scalar floating-point instruction that reads and writes f registers only, as an operation. -/
def fpOp : Rv → Option (Op Unit)
  | .farith op f rm rd a b => some (Machine.farith op f rm rd a b)
  | .fsqrt f rm rd a => some (fsqrtOp f rm rd a)
  | .fma op f rm rd a b c => some (fmaOp op f rm rd a b c)
  | .fsgnj op f rd a b => some (fsgnjOp op f rd a b)
  | .fminmax m f rd a b => some (fminmaxOp m f rd a b)
  | .fcvtFF dst src rm rd a => some (fcvtFFOp dst src rm rd a)
  | .fcvtFI f i rm rd a => some (fcvtFIOp f i rm rd a)
  | .fmvFX f rd a => some (fmvFXOp f rd a)
  | _ => none

/-- A result that is exact before its one rounding into a format, as it is written, and the flags. -/
def fpRounded (f : FFmt) (m : Rm) (x : Fx × FlagSet) : Word × FlagSet :=
  (boxed f (roundFx (fmtOfF f) m x.1).1, x.2 ||| (roundFx (fmtOfF f) m x.1).2)

/-- The sign that FSGNJ and its kin give. -/
def fpSign (a b : Bool) : FSgn → Bool
  | .sgnj => b
  | .sgnjn => !b
  | .sgnjx => a != b

/-- What such an instruction writes under a rounding mode, and the flags it raises. -/
def fpResult (h : Hart) (m : Rm) : Rv → Option (Word × FlagSet)
  | .farith op f _ _ a b => some (fpRounded f m (match op with
    | .add => addFx m (h.frVal f a) (h.frVal f b)
    | .sub => addFx m (h.frVal f a) (h.frVal f b).neg
    | .mul => mulFx (h.frVal f a) (h.frVal f b)
    | .div => divFx (h.frVal f a) (h.frVal f b)))
  | .fsqrt f _ _ a => some (fpRounded f m (sqrtFx (h.frVal f a)))
  | .fma op f _ _ a b c => some (fpRounded f m (fmaFx m
      (if op = .nmsub ∨ op = .nmadd then (h.frVal f a).neg else h.frVal f a) (h.frVal f b)
      (if op = .msub ∨ op = .nmadd then (h.frVal f c).neg else h.frVal f c)))
  | .fsgnj op f _ a b =>
    let n := (fmtOfF f).width - 1
    some (boxed f (h.frBits f a % 2 ^ n +
      (if fpSign ((h.frBits f a).testBit n) ((h.frBits f b).testBit n) op then 2 ^ n else 0)), 0)
  | .fminmax mx f _ a b =>
    some (boxed f (minMaxF (fmtOfF f) mx (h.frBits f a) (h.frBits f b)).1, (minMaxF (fmtOfF f) mx (h.frBits f a) (h.frBits f b)).2)
  | .fcvtFF dst src _ _ a => some (fpRounded dst m (h.frVal src a, if (h.frVal src a).isSnan then flNV else 0))
  | .fcvtFI f src _ _ a => some (fpRounded f m (ofInt (intOf src (h.xr a)), 0))
  | .fmvFX f _ a => some (boxed f (h.xr a).toNat, 0)
  | _ => none

/-- fcsr with these flags accrued; the x register of a conversion to an integer format, 32-bit results sign-extended. -/
def fcsrWith (h : Hart) (fl : FlagSet) : BitVec 8 := h.fcsr ||| (fl &&& 31).setWidth 8
def intInX (i : IFmt) (v : Int) : Word :=
  match i with
  | .w | .wu => (BitVec.ofInt 32 v).signExtend 64
  | .l | .lu => BitVec.ofInt 64 v

/-- The value of a finite number. -/
def finValue (neg : Bool) (m : Nat) (e : Int) : Rat := (if neg then -1 else 1) * m * (2 : Rat) ^ e

/-- The destination of such an instruction, and its rounding-mode field where it has one. -/
def fpDest : Rv → BitVec 5
  | .farith _ _ _ rd _ _ | .fsqrt _ _ rd _ | .fma _ _ _ rd _ _ _ | .fsgnj _ _ rd _ _ | .fminmax _ _ rd _ _
  | .fcvtFF _ _ _ rd _ | .fcvtFI _ _ _ rd _ | .fmvFX _ rd _ => rd
  | _ => 0
def fpRm : Rv → BitVec 3
  | .farith _ _ rm _ _ _ | .fsqrt _ rm _ _ | .fma _ _ rm _ _ _ _ | .fcvtFF _ _ rm _ _ | .fcvtFI _ _ rm _ _ => rm
  | _ => 0

/-- The rounding mode that a field names: frm for code 7 (R103). -/
def rmNamed (h : Hart) (rm : BitVec 3) : Option Rm := rmOf (if rm = 7 then bits h.fcsr 5 3 else rm.toNat)

end Sys2Proof.Claims

/-- RV64IM, Zba and Zbb (R103): every register instruction completes in either mode, writes the one destination with the value of
the operation (x0 discards it), and leaves everything else alone but the pc and minstret; both lengths of a form. -/
def Obligations.ScalarArithmeticCompletes : Prop :=
  ∀ (op : Rv) (half : Option (BitVec 16)) (s : State) (rd : BitVec 5) (v : Word), arith s.hart op = some (rd, v) →
    exec (.rv op half) s =
      .next (onHart s { s.hart.setX rd v with pc := s.hart.pc + BitVec.ofNat 64 (if half.isSome then 2 else 4) })

/-- The corners of the operations, as RISC-V gives them (R103): division by zero and the overflowing division, high products,
32-bit results sign-extended, shifts by the low six or five bits, counts of zero. -/
def Obligations.ScalarOperationCorners : Prop :=
  (∀ a, aluValue .div a 0 = BitVec.allOnes 64 ∧ aluValue .divu a 0 = BitVec.allOnes 64 ∧ aluValue .rem a 0 = a ∧
    aluValue .remu a 0 = a) ∧
  aluValue .div (BitVec.intMin 64) (BitVec.allOnes 64) = BitVec.intMin 64 ∧
  aluValue .rem (BitVec.intMin 64) (BitVec.allOnes 64) = 0 ∧
  (∀ a b, b ≠ 0 → (aluValue .divu a b).toNat = a.toNat / b.toNat ∧ (aluValue .remu a b).toNat = a.toNat % b.toNat) ∧
  (∀ a b, (aluValue .mulhu a b).toNat = a.toNat * b.toNat / 2 ^ 64) ∧
  (∀ a b, (aluValue .mulh a b).toInt = a.toInt * b.toInt / 2 ^ 64) ∧
  (∀ op a b, (aluWValue op a b) = ((aluWValue op a b).setWidth 32).signExtend 64) ∧
  (∀ a b, aluValue .sll a b = aluValue .sll a (b &&& 63) ∧ aluWValue .sllw a b = aluWValue .sllw a (b &&& 31)) ∧
  unValue .clz 0 = 64 ∧ unValue .ctz 0 = 64 ∧ unValue .ctzw 0 = 32 ∧ unValue .cpop (BitVec.allOnes 64) = 64

/-- Jumps and branches (R103): the link, when there is one, is the address behind the instruction, and is written after the target
is computed, so that a link register that is also the base does not change the target; a fence only moves the pc; FENCE.I drops the
poisoned sectors that the instruction cache holds as well (R390). -/
def Obligations.ScalarJumpsComplete : Prop :=
  (∀ (op : Rv) (half : Option (BitVec 16)) (s : State) (link : Option (BitVec 5)) (target : Word),
    jump s.hart (if half.isSome then 2 else 4) op = some (link, target) →
    exec (.rv op half) s = .next (onHart s { s.hart.setX (link.getD 0) (s.hart.pc + BitVec.ofNat 64 (if half.isSome then 2 else 4)) with
      pc := target })) ∧
  (∀ a b c half s, exec (.rv (.fenceI a b c) half) s =
    .next (onHart s { s.hart with ipoison := [], pc := s.hart.pc + BitVec.ofNat 64 (rvLen half) }))

/-- Loads and stores (R103, R109) complete wherever the access does: a load writes its destination with the extended value, a
store changes no register of the hart but the pc. `memRead` and `memWrite` are the accesses of Table 04-19, and the statements below
say what they do. That those of f registers need FS on, and that a load of one makes FS Dirty, is the model's reading (PRESUMED log 7). -/
def Obligations.ScalarLoadsAndStoresComplete : Prop :=
  (∀ op rd rs1 imm half s v t, (memRead {} (s.hart.xr rs1 + imm.signExtend 64) (ldBytes op)).run s = .ok v t →
    exec (.rv (.load op rd rs1 imm) half) s =
      .next (onHart t { t.hart.setX rd (ldExtend op v) with pc := s.hart.pc + BitVec.ofNat 64 (rvLen half) })) ∧
  (∀ op rs1 rs2 imm half s t,
    (memWrite {} (s.hart.xr rs1 + imm.signExtend 64) (stBytes op) (s.hart.xr rs2).toNat).run s = .ok () t →
    exec (.rv (.store op rs1 rs2 imm) half) s =
      .next (onHart t { t.hart with pc := s.hart.pc + BitVec.ofNat 64 (rvLen half) })) ∧
  (∀ f rd rs1 imm half s v t, s.hart.fsOn = true →
    (memRead {} (s.hart.xr rs1 + imm.signExtend 64) (ffmtBytes f)).run s = .ok v t →
    exec (.rv (.fload f rd rs1 imm) half) s =
      .next (onHart t { (t.hart.setF rd (boxed f v)).fsDirty with pc := s.hart.pc + BitVec.ofNat 64 (rvLen half) })) ∧
  (∀ f rs1 rs2 imm half s t, s.hart.fsOn = true →
    (memWrite {} (s.hart.xr rs1 + imm.signExtend 64) (ffmtBytes f) (s.hart.fr rs2).toNat).run s = .ok () t →
    exec (.rv (.fstore f rs1 rs2 imm) half) s =
      .next (onHart t { t.hart with pc := s.hart.pc + BitVec.ofNat 64 (rvLen half) }))

namespace Sys2Proof.Claims

/-- The block of a scratchpad that holds a byte, unwritten where nothing is listed. -/
def blockAt (s : State) (l : Loc) : Block := (s.block l).getD .unwritten

/-- The root table under which the present hart's accesses are translated: its queue's (R103). -/
def rootFor (s : State) : Nat :=
  match s.launchOf s.hart with
  | some l => s.rootOf l.queue
  | none => 0

/-- No spliced pair and no elided range meets the accesses of the present hart, and its cluster window is no larger than a window is. -/
def plainLaunch (s : State) : Prop :=
  ∀ l, s.launchOf s.hart = some l → l.pair = none ∧ l.a.clSpb ≤ 2 ^ 23 ∧ (s.queue l.queue).elisions = []

/-- The physical address of a byte of a leaf's page. -/
def pageAddr (e level va : Nat) : Nat := ptePpn e * 4096 + va % pageSize level

/-- A leaf that permits U-mode to read, and to write where the access writes (R148, R149, Table 07-2): it is no user-forbidden,
quarantined or misaligned one, its key is loaded, its page lies in memory; and, where another package holds the page, the fabric
delivers the access and answers it. -/
def permits (s : State) (va : Word) (n : Nat) (write : Bool) (e level : Nat) : Prop :=
  e.testBit 4 = true ∧ e.testBit 1 = true ∧ (write = true → e.testBit 2 = true) ∧ e.testBit 9 = false ∧ pteMt e ≠ 3 ∧
  ptePpn e < 2 ^ 28 ∧ ptePpn e * 4096 % pageSize level = 0 ∧ s.keyLoaded (pteHome e) (pteKey e) = true ∧
  (pteHome e = s.domainId → pageAddr e level va.toNat + n ≤ s.physLimit) ∧
  (pteHome e ≠ s.domainId → s.hart.remoteFault = none ∧ s.loses (.hart s.hart.id) va = false)

/-- Where the bytes of an access lie: in physical memory, from bare M-mode; in a scratchpad window; in the page of a leaf at an address and
level, of this package or another. -/
inductive Site
  | bare
  | window (w : Window)
  | page (pte addr level : Nat)

/-- An aligned access of `n` bytes at `va` lies there and nothing forbids it. -/
def Site.holds (x : Site) (s : State) (va : Word) (n : Nat) (write : Bool) : Prop :=
  0 < n ∧ va.toNat % n = 0 ∧ match x with
  | .bare => Claims.bare s ∧ va.toNat + n ≤ s.physLimit
  | .window w => s.hart.mode = .u ∧ plainLaunch s ∧ s.hart.sbanks ≤ 64 ∧ s.windowRange s.hart va.toNat n = .inl w
  | .page e a level =>
    s.hart.mode = .u ∧ plainLaunch s ∧ 4096 % n = 0 ∧ sextN 48 va.toNat = va ∧ inWindow va.toNat = false ∧ rootFor s % 8 = 0 ∧
      walk s va.toNat 4 (rootFor s) 0 = .leaf e a level ∧ permits s va n write e level

/-- The state once the access has been translated: a page's leaf has A set, and D for a write (R150); nothing else changes. -/
def Site.after (x : Site) (s : State) (write : Bool) : State :=
  match x with
  | .page e a _ => { s with mem := Memory.write s.mem a (toBytes 8 (e ||| 32 ||| (if write then 64 else 0))) }
  | _ => s

/-- The bytes of the access, in ascending address, with the encryption key of the page (R151). -/
def Site.places (x : Site) (s : State) (va n : Nat) : List (Loc × Option Phys) :=
  (List.range n).map fun i => match x with
    | .bare => (.mem (va + i), none)
    | .window w => (w.loc (va + i), none)
    | .page e _ level =>
      let k := memKey s.domainId (pteHome e) (pageAddr e level (va + i))
      (.mem k, some { key := k, mt := pteMt e, remote := pteHome e ≠ s.domainId, home := pteHome e,
                      crypt := s.cryptKey (pteHome e) (pteKey e) })

/-- The first poisoned byte of an access and the first that is not live, with their sub-causes (R137, R196). -/
def poisonIn (s : State) (ps : List (Loc × Option Phys)) : Option Nat := ps.findSome? fun p => s.poisonSub p.1
def staleIn (s : State) (ps : List (Loc × Option Phys)) : Option Nat := ps.findSome? fun p => s.staleSub p.1

/-- An access traps, with its element and address, and leaves `u`. -/
def trapsWith {α : Type} (x : Op α) (s u : State) (w : Who) (va : Word) (cause sub : Nat) : Prop :=
  ∃ t, x.run s = .error (.trap t) u ∧ t.cause = cause ∧ t.sub = sub ∧ t.addr = some va ∧ t.elem = w.elem

/-- What a read of bytes that lie at `ps` answers (R109, R137, R188, R198, R199), once translation has left `u`. A poisoned sector
comes first: with the header's PTRAP it raises POISON, without it the access reads zero and VPOISCNT counts it; a byte of a block that is
not live raises STALE; live, clean bytes are answered, little-endian. -/
def readsAt (s u : State) (w : Who) (va : Word) (n : Nat) (ps : List (Loc × Option Phys)) : Prop :=
  (∀ sub, poisonIn u ps = some sub → s.flag s.hart 2 = true → trapsWith (memRead w va n) s u w va 25 sub) ∧
  (∀ sub, staleIn u ps = some sub → (poisonIn u ps = none ∨ s.flag s.hart 2 = false) →
    trapsWith (memRead w va n) s u w va 24 sub) ∧
  (staleIn u ps = none → poisonIn u ps = none → (memRead w va n).run s = .ok (ofBytes (ps.map u.byteAt)) u) ∧
  (staleIn u ps = none → poisonIn u ps ≠ none → s.flag s.hart 2 = false →
    (memRead w va n).run s = .ok 0 { u with hart := { u.hart with
      vpoiscnt := if u.hart.vpoiscnt = BitVec.allOnes 64 then u.hart.vpoiscnt else u.hart.vpoiscnt + 1 } })

/-- What a write of `bs` at `ps` leaves of `u`: the bytes read as written; every other byte that is not of a block that was not live
reads as before under the key of the access, and outside the sectors written memory is the same; each block touched is live with the
present tick as its stamp, every other block is as it was; poison stays where the write covers no sector (R109, R136, R151, R196). -/
def stores (u t : State) (ps : List (Loc × Option Phys)) (bs : List Byte) : Prop :=
  t.memOk ∧
  t = { u with hart := t.hart, others := t.others, clusters := t.clusters, mem := t.mem, poison := t.poison,
               freeCtr := u.freeCtr + 1 } ∧
  t.hart = { u.hart with pool := t.hart.pool, reservation := t.hart.reservation } ∧
  ps.map t.byteAt = bs ∧
  (∀ l ph, l ∉ ps.map (·.1) → (∀ p ∈ ps, cryptOf p.2 = cryptOf ph) → u.staleSub l = none → t.byteAt (l, ph) = u.byteAt (l, ph)) ∧
  (∀ k, (∀ p ∈ ps, ∀ a, p.1 = .mem a → sectorOf k ≠ sectorOf a) → Memory.get t.mem k = Memory.get u.mem k) ∧
  (∀ p ∈ ps, ∀ b, t.block p.1 = some b → b.live = true ∧ b.expired = false ∧ b.stamp = BitVec.ofNat 10 u.time ∧
    (ps.length < 32 → b.poison = (blockAt u p.1).poison)) ∧
  (∀ l, (∀ p ∈ ps, l.offset / 256 ≠ p.1.offset / 256 ∨ l ≠ p.1.move l.offset) → t.block l = u.block l) ∧
  (ps.length < 32 → t.poison = u.poison)

end Sys2Proof.Claims

/-- Reads and writes (R109, R134 to R137, R148 to R151, R196, R198, R199) of bare M-mode memory, of a scratchpad window from U-mode, and
of a page whose leaf permits the access from U-mode, of any home and key: a read answers what `readsAt` says, a write always succeeds and
leaves what `stores` says; a page's leaf has A set, and D for a write. -/
def Sys2Proof.Claims.PermittedAccesses : Prop :=
  ∀ (x : Site) (s : State) (w : Who) (va : Word) (n : Nat), s.memOk →
    (x.holds s va n false → readsAt s (x.after s false) w va n (x.places s va.toNat n)) ∧
    (x.holds s va n true → ∀ v, ∃ t, (memWrite w va n v).run s = .ok () t ∧
      stores (x.after s true) t (x.places s va.toNat n) (toBytes n v))

/-- Accesses that trap (R109, R149): misaligned, in any mode, with cause 4 or 6; at or past the end of memory from bare M-mode, 5 or
7; in U-mode at an address that is not canonical or has no leaf, 13 or 15; nothing changes. -/
def Sys2Proof.Claims.ForbiddenAccesses : Prop :=
  (∀ (s : State) (w : Who) (va : Word) (n v : Nat), 0 < n → va.toNat % n ≠ 0 →
    trapsWith (memRead w va n) s s w va 4 0 ∧ trapsWith (memWrite w va n v) s s w va 6 0) ∧
  (∀ (s : State) (w : Who) (va : Word) (n v : Nat), 0 < n → va.toNat % n = 0 → bare s → s.physLimit ≤ va.toNat →
    trapsWith (memRead w va n) s s w va 5 0 ∧ trapsWith (memWrite w va n v) s s w va 7 0) ∧
  ∀ (s : State) (w : Who) (va : Word) (n v : Nat), 0 < n → va.toNat % n = 0 → s.hart.mode = .u → plainLaunch s →
    inWindow va.toNat = false → (sextN 48 va.toNat ≠ va ∨ walk s va.toNat 4 (rootFor s) 0 = .invalid) →
    trapsWith (memRead w va n) s s w va 13 0 ∧ trapsWith (memWrite w va n v) s s w va 15 0

/-- The state of a scratchpad block (R135 to R137): unwritten unless it is live; expired from 256 ticks, or once the sweeper has marked
it; a sector of it poisoned or not (R196). -/
def Sys2Proof.Claims.BlockStates : Prop :=
  ∀ (s : State) (l : Loc) (b : Block), s.block l = some b →
    (s.staleSub l = some 2 ↔ b.live = false) ∧
    (s.staleSub l = some 1 ↔ b.live = true ∧ (b.expired = true ∨ 256 ≤ b.age s.time)) ∧
    s.poisonSub l = if l.offset % 256 / 32 ∈ b.poison then some 2 else none

/-- Reads and writes of memory from bare M-mode and through translation, and of the scratchpads through their windows. -/
def Obligations.AccessesOfMemory : Prop := PermittedAccesses ∧ ForbiddenAccesses ∧ BlockStates

/-- The page walk (R148 to R150): translation of a U-mode address through a leaf that permits the access sets A, and D for a write,
and changes nothing else of the package; the physical address is the leaf's page and the offset in it, with the page's memory type, home
and encryption key. A missing entry raises the page fault of the access, and a quarantined leaf that permits it QUARANTINE (R197), and
neither changes anything. -/
def Obligations.TranslationSetsAccessedAndDirty : Prop :=
  ∀ (s : State) (w : Who) (kind : AKind) (write amo : Bool) (root : Nat) (fa va : Word),
    (∀ e a level, sextN 48 va.toNat = va → walk s va.toNat 4 root 0 = .leaf e a level →
      e.testBit 4 = true → e.testBit 1 = true → (write = true → e.testBit 2 = true) → (kind = .fetch → e.testBit 3 = true) →
      e.testBit 9 = false → pteMt e ≠ 3 → ptePpn e < 2 ^ 28 → ptePpn e * 4096 % pageSize level = 0 →
      s.keyLoaded (pteHome e) (pteKey e) = true →
      (pteHome e = s.domainId → pageAddr e level va.toNat < s.physLimit) →
      (translate w kind true write amo root fa va).run s =
        .ok { key := memKey s.domainId (pteHome e) (pageAddr e level va.toNat), mt := pteMt e,
              remote := pteHome e ≠ s.domainId, home := pteHome e, crypt := s.cryptKey (pteHome e) (pteKey e) }
          { s with mem := Memory.write s.mem a (toBytes 8 (e ||| 32 ||| (if write then 64 else 0))) }) ∧
    (∀ e a level, sextN 48 va.toNat = va → walk s va.toNat 4 root 0 = .leaf e a level →
      e.testBit 4 = true → e.testBit 1 = true → (write = true → e.testBit 2 = true) → (kind = .fetch → e.testBit 3 = true) →
      e.testBit 9 = true → pteMt e ≠ 3 → ptePpn e < 2 ^ 28 → ptePpn e * 4096 % pageSize level = 0 →
      trapsWith (translate w kind true write amo root fa va) s s w fa 49 0) ∧
    ((sextN 48 va.toNat ≠ va ∨ walk s va.toNat 4 root 0 = .invalid) →
      trapsWith (translate w kind true write amo root fa va) s s w fa kind.pageFault 0)

namespace Sys2Proof.Claims

/-- One atomic access of bytes that lie at `ps`, once translation has left `u` (R306, R353): it answers the old value and leaves the
function of it there, and what `stores` says; a poisoned operand traps under PTRAP, and else is taken as zero and counted; a block that is
not live raises STALE. -/
def atomicAt (s u : State) (w : Who) (va : Word) (n : Nat) (f : Nat → Nat) (ps : List (Loc × Option Phys)) : Prop :=
  let did (v : Nat) (h : Hart) := ∃ t, (memAmo w va n f).run s = .ok v t ∧ stores { u with hart := h } t ps (toBytes n (f v))
  (∀ sub, poisonIn u ps = some sub → s.flag s.hart 2 = true → trapsWith (memAmo w va n f) s u w va 25 sub) ∧
  (∀ sub, staleIn u ps = some sub → (poisonIn u ps = none ∨ s.flag s.hart 2 = false) →
    trapsWith (memAmo w va n f) s u w va 24 sub) ∧
  (staleIn u ps = none → poisonIn u ps = none → did (ofBytes (ps.map u.byteAt)) u.hart) ∧
  (staleIn u ps = none → poisonIn u ps ≠ none → s.flag s.hart 2 = false → did 0 u.hart.countPoison)

/-- The reservation's key of an access's first byte. -/
def reservedKey (ps : List (Loc × Option Phys)) : Nat := (ps.head?.map fun p => p.1.resKey).getD 0

end Sys2Proof.Claims

/-- One atomic access (R306, R353) of bare M-mode memory, of a scratchpad window from U-mode, or of a page whose leaf permits it from
U-mode; misaligned it raises cause 6; at or past the end of memory from bare M-mode, 7; in U-mode where no leaf is, 15; and changes
nothing. -/
def Sys2Proof.Claims.AtomicsOfMemory : Prop :=
  (∀ (x : Site) (s : State) (w : Who) (va : Word) (n : Nat) (f : Nat → Nat), s.memOk → x.holds s va n true →
    atomicAt s (x.after s true) w va n f (x.places s va.toNat n)) ∧
  (∀ (s : State) (w : Who) (va : Word) (n : Nat) (f : Nat → Nat), 0 < n → va.toNat % n ≠ 0 →
    trapsWith (memAmo w va n f) s s w va 6 0) ∧
  (∀ (s : State) (w : Who) (va : Word) (n : Nat) (f : Nat → Nat), 0 < n → va.toNat % n = 0 → bare s → s.physLimit ≤ va.toNat →
    trapsWith (memAmo w va n f) s s w va 7 0) ∧
  ∀ (s : State) (w : Who) (va : Word) (n : Nat) (f : Nat → Nat), 0 < n → va.toNat % n = 0 → s.hart.mode = .u → plainLaunch s →
    inWindow va.toNat = false → (sextN 48 va.toNat ≠ va ∨ walk s va.toNat 4 (rootFor s) 0 = .invalid) →
    trapsWith (memAmo w va n f) s s w va 15 0

/-- LR, SC and the AMOs (R103, R173) complete wherever their access does. An AMO writes the old value to its destination; LR reads and
leaves a reservation; SC answers 0 and stores when the reservation covers its bytes, as one of the same bytes or a wider one does, else,
with none or one of other bytes, answers 1 and stores nothing, and ends the reservation either way. -/
def Obligations.ScalarAtomicsComplete : Prop := AtomicsOfMemory ∧
  (∀ op dbl aq rl rd rs1 rs2 half s old t,
    (memAmo {} (s.hart.xr rs1) (amoBytes dbl) fun v => amoValue op (8 * amoBytes dbl) v (s.hart.xr rs2).toNat).run s = .ok old t →
    exec (.rv (.amo op dbl aq rl rd rs1 rs2) half) s =
      .next (onHart t { t.hart.setX rd (sextN (8 * amoBytes dbl) old) with pc := s.hart.pc + BitVec.ofNat 64 (rvLen half) })) ∧
  (∀ (x : Site) dbl aq rl rd rs1 half s v t, s.memOk → x.holds s (s.hart.xr rs1) (amoBytes dbl) false →
    (memRead {} (s.hart.xr rs1) (amoBytes dbl)).run s = .ok v t →
    exec (.rv (.lr dbl aq rl rd rs1) half) s =
      .next (onHart t { ({ t.hart with
        reservation := some (reservedKey (x.places s (s.hart.xr rs1).toNat (amoBytes dbl)), amoBytes dbl) } : Hart).setX rd
          (sextN (8 * amoBytes dbl) v) with pc := s.hart.pc + BitVec.ofNat 64 (rvLen half) })) ∧
  ∀ (x : Site) dbl aq rl rd rs1 rs2 half s, s.memOk → x.holds s (s.hart.xr rs1) (amoBytes dbl) true →
    let n := amoBytes dbl
    let ps := x.places s (s.hart.xr rs1).toNat n
    let covered := ∃ k m, s.hart.reservation = some (k, m) ∧ k ≤ reservedKey ps ∧ reservedKey ps + n ≤ k + m
    let ends (v : Word) (h : Hart) : Hart :=
      { ({ h with reservation := none } : Hart).setX rd v with pc := s.hart.pc + BitVec.ofNat 64 (rvLen half) }
    (covered → ∃ t, stores (x.after s true) t ps (toBytes n (s.hart.xr rs2).toNat) ∧
      exec (.rv (.sc dbl aq rl rd rs1 rs2) half) s = .next (onHart t (ends 0 t.hart))) ∧
    (¬ covered → exec (.rv (.sc dbl aq rl rd rs1 rs2) half) s =
      .next (onHart (x.after s true) (ends 1 s.hart)))

/-- Scalar floating point (R103) completes with mstatus.FS on and a rounding mode that is not reserved: it writes one f register, or
one x register, with the result exact before one rounding, accrues its flags in fcsr alone, and leaves VTYPE and VFFLAGS as they are
(Table 04-14). Sums, products and fused sums of finite numbers are exact; a quotient by zero is an infinity with DZ, the root of a
negative number and every operation on a NaN the canonical NaN; a conversion to an integer clamps with NV, a NaN to the largest. With FS
off, or a reserved rounding mode, each raises illegal instruction. The clauses on FS are the model's reading: that FS off makes these
instructions illegal, and that FS becomes Dirty exactly where an f register or a nonzero flag is written, comes from the RISC-V privileged
architecture, which leaves the latter to the implementation (PRESUMED log 7). -/
def Obligations.ScalarFloatCompletes : Prop :=
  (∀ op half s m v fl, s.hart.fsOn = true → rmNamed s.hart (fpRm op) = some m → fpResult s.hart m op = some (v, fl) →
    exec (.rv op half) s = .next (onHart s { (s.hart.setF (fpDest op) v).fsDirty with
      fcsr := fcsrWith s.hart fl, pc := s.hart.pc + BitVec.ofNat 64 (rvLen half) })) ∧
  (∀ op f rd a b half s, s.hart.fsOn = true →
    let x := s.hart.frVal f a
    let y := s.hart.frVal f b
    let invalid := if op = .eq then x.isSnan || y.isSnan else x.isNan || y.isNan
    exec (.rv (.fcmp op f rd a b) half) s =
      .next (onHart s { s.hart.setX rd (if !x.isNan && !y.isNan && (match op with
            | .eq => cmpFx x y = .eq
            | .lt => cmpFx x y = .lt
            | .le => cmpFx x y ≠ .gt) then 1 else 0) with
        fcsr := fcsrWith s.hart (if invalid then flNV else 0)
        mstatus := if invalid then s.hart.mstatus ||| 0x6000#64 else s.hart.mstatus
        pc := s.hart.pc + BitVec.ofNat 64 (rvLen half) })) ∧
  (∀ i f rm rd a half s m, s.hart.fsOn = true → rmNamed s.hart rm = some m →
    let r := toIntFx m (ifmtLimits i).1 (ifmtLimits i).2 (ifmtLimits i).2 (s.hart.frVal f a)
    exec (.rv (.fcvtIF i f rm rd a) half) s = .next (onHart s { s.hart.setX rd (intInX i r.1) with
      fcsr := fcsrWith s.hart r.2, mstatus := if r.2 = 0 then s.hart.mstatus else s.hart.mstatus ||| 0x6000#64
      pc := s.hart.pc + BitVec.ofNat 64 (rvLen half) })) ∧
  (∀ f rd a half s, s.hart.fsOn = true →
    exec (.rv (.fmvXF f rd a) half) s = .next (onHart s { s.hart.setX rd (match f with
      | .d => s.hart.fr a
      | .s => ((s.hart.fr a).setWidth 32).signExtend 64) with pc := s.hart.pc + BitVec.ofNat 64 (rvLen half) }) ∧
    exec (.rv (.fclass f rd a) half) s = .next (onHart s { s.hart.setX rd (1#64 <<< fclassBit f (s.hart.frBits f a)) with
      pc := s.hart.pc + BitVec.ofNat 64 (rvLen half) })) ∧
  (∀ rm a m b n e e', ∃ k m' f, addFx rm (.fin a m e) (.fin b n e') = (.fin k m' f, 0) ∧
    finValue k m' f = finValue a m e + finValue b n e' ∧
    (mulFx (.fin a m e) (.fin b n e')).1 = .fin (a != b) (m * n) (e + e') ∧
    finValue (a != b) (m * n) (e + e') = finValue a m e * finValue b n e') ∧
  (∀ a m b e e', m ≠ 0 → divFx (.fin a m e) (.fin b 0 e') = (.inf (a != b), flDZ) ∧ sqrtFx (.fin true m e) = (.nan false, flNV)) ∧
  (∀ f m q (x : Fx), (fpRounded f m (addFx m (.nan q) x)).1 = boxed f (canonicalNan (fmtOfF f)) ∧
    (fpRounded f m (mulFx x (.nan q))).1 = boxed f (canonicalNan (fmtOfF f)) ∧
    (fpRounded f m (divFx (.nan q) x)).1 = boxed f (canonicalNan (fmtOfF f)) ∧
    (fpRounded f m (sqrtFx (.nan q))).1 = boxed f (canonicalNan (fmtOfF f))) ∧
  (∀ i m (x : Fx), let r := toIntFx m (ifmtLimits i).1 (ifmtLimits i).2 (ifmtLimits i).2 x
    (ifmtLimits i).1 ≤ r.1 ∧ r.1 ≤ (ifmtLimits i).2 ∧ (x.isNan = true → r = ((ifmtLimits i).2, flNV))) ∧
  (∀ op half s, (fpOp op).isSome = true ∨ (∃ o f rd a b, op = .fcmp o f rd a b) ∨ (∃ i f rm rd a, op = .fcvtIF i f rm rd a) ∨
      (∃ f rd a, op = .fmvXF f rd a ∨ op = .fclass f rd a) ∨ (∃ f rd a imm, op = .fload f rd a imm ∨ op = .fstore f rd a imm) →
    s.hart.fsOn = false → exec (.rv op half) s = .next (deliver { cause := 2 } s)) ∧
  (∀ op half s, (fpOp op).isSome = true → s.hart.fsOn = true → rmNamed s.hart (fpRm op) = none →
    exec (.rv op half) s = .next (deliver { cause := 2 } s)) ∧
  (∀ i f rm rd a half s, s.hart.fsOn = true → rmNamed s.hart rm = none →
    exec (.rv (.fcvtIF i f rm rd a) half) s = .next (deliver { cause := 2 } s))

/-- Rounding (R112, R113, R115): the value that a finite bit pattern of FP8, BF16, FP16, FP32, A40 or FP64 encodes rounds back to
that pattern, in every mode, without a flag. -/
def Obligations.RepresentableValuesRoundToThemselves : Prop :=
  ∀ f ∈ [Fmt.f8, Fmt.bf16, Fmt.f16, Fmt.f32, Fmt.a40, Fmt.f64], ∀ (rm : Rm) (v : Nat) (neg : Bool) (m : Nat) (e : Int),
    v < 2 ^ f.width → decodeF f v = .fin neg m e → roundFx f rm (.fin neg m e) = (v, 0)

/-- CSR reads and WFI (R103, R104): a read that is allowed writes the CSR's value to its destination and changes nothing else; one
that is not allowed raises illegal instruction (R4). That WFI in M-mode only moves on, and raises illegal instruction in U-mode, the spec
does not say: it is taken from the RISC-V privileged architecture (PRESUMED log 7). -/
def Sys2Proof.Claims.CsrReadsComplete : Prop :=
  (∀ op imm rd a half s, csrAllowed s a.toNat false = true →
    exec (.rv (.csrRead op imm rd a) half) s = .next (onHart s (past (s.hart.setX rd ((csrValue s a.toNat).getD 0))))) ∧
  (∀ op imm rd a half s, csrAllowed s a.toNat false = false →
    exec (.rv (.csrRead op imm rd a) half) s = .next (deliver { cause := 2 } s)) ∧
  (∀ half s, s.hart.mode = .m → exec (.rv .wfi half) s =
    .next (onHart s { s.hart with pc := s.hart.pc + BitVec.ofNat 64 (rvLen half) })) ∧
  (∀ half s, s.hart.mode = .u → exec (.rv .wfi half) s = .next (deliver { cause := 2 } s))

/-! ## Control and status registers -/

namespace Sys2Proof.Claims

/-- The value that a CSR instruction writes. -/
def newValue (s : State) (a : Nat) (acc : CsrAcc) : Word := csrNew acc.op ((csrValue s a).getD 0) (csrSrcValue s.hart acc.src)

end Sys2Proof.Claims

/-- VTYPE and MFC (Table 02-1, Table 07-5, R41, R383): a write of legal fields sets the defined bits, starts a convoy and returns the
old value; a VTYPE write leaves the validity masks undefined exactly when it changes BLK or GRP. A reserved value raises illegal
instruction and changes neither (R4). -/
def Sys2Proof.Claims.VtypeAndMfcWritesComplete : Prop :=
  (∀ (acc : CsrAcc) s, vtypeOk (newValue s 0x800 acc) = true →
    ∃ t, exec (.vtypeWrite acc) s = .next t ∧
      t = { s with hart := t.hart, freeCtr := t.freeCtr } ∧
      t.hart = (past (({ s.hart with
        vtype := newValue s 0x800 acc &&& 0x1FDF#64, freshConvoy := true, masks := t.hart.masks } : Hart).setX acc.rd s.hart.vtype)).retire ∧
      (bits (newValue s 0x800 acc) 6 4 = s.hart.blkLog ∧ bits (newValue s 0x800 acc) 0 2 = bits s.hart.vtype 0 2 →
        t.hart.masks = s.hart.masks) ∧
      (¬ (bits (newValue s 0x800 acc) 6 4 = s.hart.blkLog ∧ bits (newValue s 0x800 acc) 0 2 = bits s.hart.vtype 0 2) →
        t.hart.masks = .undef s.freeCtr)) ∧
  (∀ (acc : CsrAcc) s, vtypeOk (newValue s 0x800 acc) = false →
    exec (.vtypeWrite acc) s = .next (deliver { cause := 2 } s)) ∧
  (∀ (acc : CsrAcc) s, bits (newValue s 0x801 acc) 0 3 ≠ 3 →
    exec (.mfcWrite acc) s = .next (onHart s (past (({ s.hart with
      mfc := newValue s 0x801 acc &&& 0x1FFF#64, freshConvoy := true } : Hart).setX acc.rd s.hart.mfc)))) ∧
  (∀ (acc : CsrAcc) s, bits (newValue s 0x801 acc) 0 3 = 3 → exec (.mfcWrite acc) s = .next (deliver { cause := 2 } s))

/-- VXI (R8, R184): writable in M-mode up to nel(), where it sets the resume element; above nel() and from U-mode a write raises
illegal instruction and changes nothing. -/
def Sys2Proof.Claims.VxiWritesComplete : Prop :=
  ∀ (acc : CsrAcc) s,
    (s.hart.mode = .m → (newValue s 0x802 acc).toNat ≤ s.hart.nel →
      ∃ t, exec (.vxiWrite acc) s = .next t ∧ t.hart.vxi = (newValue s 0x802 acc).toNat ∧
        t = { s with hart := t.hart } ∧
        t.hart = (past (({ s.hart with vxi := (newValue s 0x802 acc).toNat, skipped := t.hart.skipped } : Hart).setX acc.rd
          (BitVec.ofNat 64 s.hart.vxi))).retire ∧
        (∀ lo hi, (lo, hi) ∈ t.hart.skipped → (lo, hi) ∈ s.hart.skipped ∨
          (lo = min (newValue s 0x802 acc).toNat s.hart.vxi ∧ hi = max (newValue s 0x802 acc).toNat s.hart.vxi))) ∧
    (s.hart.mode = .m → s.hart.nel < (newValue s 0x802 acc).toNat → exec (.vxiWrite acc) s = .next (deliver { cause := 2 } s)) ∧
    (s.hart.mode = .u → exec (.vxiWrite acc) s = .next (deliver { cause := 2 } s))

/-- VVALID (R123): where VVSEL names the first register of a group below N, a write replaces the mask's bits below ⌈nel() ÷ 2^BLK⌉ and
leaves the others, and a read shows just those bits; where it does not, VVALID reads zero and a write changes no mask. -/
def Sys2Proof.Claims.VvalidShowsAndReplacesTheMask : Prop :=
  ∀ (acc : CsrAcc) s,
    (s.hart.vvselOk (s.nvreg s.hart) = true →
      vvalid s = BitVec.ofNat 64 ((s.hart.masks.get (bits s.hart.vvsel 0 5)).toNat % 2 ^ s.hart.nblk) ∧
      ∃ m : BitVec 64, exec (.vvalidWrite acc) s =
        .next (onHart s (past (({ s.hart with masks := s.hart.masks.set (bits s.hart.vvsel 0 5) m } : Hart).setX acc.rd (vvalid s)))) ∧
        ∀ i, i < 64 → m.getLsbD i =
          if i < s.hart.nblk then (newValue s 0x805 acc).getLsbD i else (s.hart.masks.get (bits s.hart.vvsel 0 5)).getLsbD i) ∧
    (s.hart.vvselOk (s.nvreg s.hart) = false → vvalid s = 0 ∧
      exec (.vvalidWrite acc) s = .next (onHart s (past (s.hart.setX acc.rd 0))))

/-- The basis-difference registers (Table 14-4): a write of 1 to 4096 sets the register named, any other raises illegal instruction
and changes none. -/
def Sys2Proof.Claims.BdWritesComplete : Prop :=
  ∀ (n : BitVec 4) (acc : CsrAcc) s,
    (1 ≤ bits (newValue s (0x810 + n.toNat) acc) 0 13 ∧ bits (newValue s (0x810 + n.toNat) acc) 0 13 ≤ 4096 →
      exec (.bdCsrWrite n acc) s = .next (onHart s (past (({ s.hart with
        bd := s.hart.bd.set n.toNat ((newValue s (0x810 + n.toNat) acc).setWidth 13) } : Hart).setX acc.rd
          ((s.hart.bd.getD n.toNat 1).setWidth 64))))) ∧
    (¬ (1 ≤ bits (newValue s (0x810 + n.toNat) acc) 0 13 ∧ bits (newValue s (0x810 + n.toNat) acc) 0 13 ≤ 4096) →
      exec (.bdCsrWrite n acc) s = .next (deliver { cause := 2 } s))

/-- The pool boundaries (R127 to R129): with access allowed, legal boundaries and no command of the hart in its core scratchpad, a
write moves the one boundary it names; a changed V leaves the vector state undefined, a changed S drops the blocks that leave the
scratchpad, nothing else changes; a command of the hart in its core scratchpad makes the write wait, and no pre-emption falls before it
(Table 09-6). Boundaries that R128 forbids raise illegal instruction and change nothing; U-mode without POOLCTL has no access. -/
def Sys2Proof.Claims.PoolBoundaryWritesComplete : Prop :=
  ∀ (k : BitVec 2) (acc : CsrAcc) s, k ≠ 3 →
    let w := newValue s (0x7C0 + k.toNat) acc
    let v := if k = 0 then bits w 0 7 else s.hart.vbanks
    let vm := if k = 0 then bits w 8 7 else s.hart.vmax
    let sp := if k = 1 then bits w 0 7 else s.hart.sbanks
    let c := if k = 2 then bits w 0 7 else s.hart.cbanks
    let old := if k = 0 then s.hart.poolv else if k = 1 then s.hart.pools else s.hart.poolc
    ((s.hart.mode = .m ∨ s.flag s.hart 1 = true) → 1 ≤ c → v + c + sp ≤ 64 → v ≤ vm → vm ≤ 63 → s.coreBusy s.hart = false →
      ∃ t, exec (.poolBoundaryWrite k acc) s = .next t ∧
        t = { s with hart := t.hart, freeCtr := t.freeCtr } ∧
        t.hart = (past (({ s.hart with
          poolv := t.hart.poolv, pools := t.hart.pools, poolc := t.hart.poolc, pool := t.hart.pool, vregs := t.hart.vregs,
          preds := t.hart.preds, sf := t.hart.sf, masks := t.hart.masks, boundaryWait := false } : Hart).setX acc.rd old)).retire ∧
        t.hart.poolv = BitVec.ofNat 64 (v + 256 * vm) ∧ t.hart.pools = BitVec.ofNat 64 sp ∧ t.hart.poolc = BitVec.ofNat 64 c ∧
        (v = s.hart.vbanks → t.hart.vregs = s.hart.vregs ∧ t.hart.preds = s.hart.preds ∧ t.hart.sf = s.hart.sf ∧
          t.hart.masks = s.hart.masks ∧ t.freeCtr = s.freeCtr) ∧
        (v ≠ s.hart.vbanks → t.hart.vregs = .undef s.freeCtr ∧ t.hart.preds = .undef s.freeCtr ∧ t.hart.sf = .undef s.freeCtr ∧
          t.hart.masks = .undef s.freeCtr) ∧
        t.hart.pool = if sp = s.hart.sbanks then s.hart.pool
          else s.hart.pool.filter fun p => (64 - min s.hart.sbanks sp) * 64 ≤ p.1) ∧
    ((s.hart.mode = .m ∨ s.flag s.hart 1 = true) → 1 ≤ c → v + c + sp ≤ 64 → v ≤ vm → vm ≤ 63 → s.coreBusy s.hart = true →
      exec (.poolBoundaryWrite k acc) s = .next { s with hart := { s.hart with boundaryWait := true } }) ∧
    ((s.hart.mode = .m ∨ s.flag s.hart 1 = true) → ¬ (1 ≤ c ∧ v + c + sp ≤ 64 ∧ v ≤ vm ∧ vm ≤ 63) →
      exec (.poolBoundaryWrite k acc) s = .next (deliver { cause := 2 } s)) ∧
    (s.hart.mode = .u → s.flag s.hart 1 = false → exec (.poolBoundaryWrite k acc) s = .next (deliver { cause := 2 } s))

/-- Every write of a vector-unit, pool or bind CSR that has a row of its own completes. -/
def Obligations.VectorRegisterWritesComplete : Prop :=
  VtypeAndMfcWritesComplete ∧ VxiWritesComplete ∧ VvalidShowsAndReplacesTheMask ∧ BdWritesComplete ∧ PoolBoundaryWritesComplete

namespace Sys2Proof.Claims

/-- The CSRs that exist (R14, R104, Tables 04-14 and 04-15; those of the RISC-V privileged architecture and its counters, PRESUMED log 7). -/
def csrNamed (a : Nat) : Bool :=
  a ∈ [0x001, 0x002, 0x003, 0x300, 0x301, 0x304, 0x305, 0x306, 0x30A, 0x320, 0x340, 0x341, 0x342, 0x343, 0x344,
    0x7C0, 0x7C1, 0x7C2, 0x7C3, 0x7C4, 0x7C5, 0x7C6, 0x800, 0x801, 0x802, 0x803, 0x804, 0x805, 0x806, 0x807, 0x808,
    0x820, 0x824, 0x828, 0x82C, 0xB00, 0xB02, 0xC00, 0xC01, 0xC02, 0xCC0, 0xCC1, 0xCC8, 0xCC9,
    0xF11, 0xF12, 0xF13, 0xF14, 0xF15] ∨
  0x810 ≤ a ∧ a < 0x820 ∨ 0xCC2 ≤ a ∧ a < 0xCC8 ∨ 0xC03 ≤ a ∧ a < 0xC20 ∨ 0xB03 ≤ a ∧ a < 0xB20 ∨ 0x323 ≤ a ∧ a < 0x340

/-- A value that holds a reserved value of a defined field (R4): KCAUSE's UNIT above 5, and, as the RISC-V architecture gives these
registers (PRESUMED log 7), frm 5 to 7, MPP 1 and 2, mtvec.MODE 2 and 3. -/
def csrReserved (a : Nat) (v : Word) : Prop :=
  a = 0x002 ∧ 4 < bits v 0 3 ∨ a = 0x003 ∧ 4 < bits v 5 3 ∨ a = 0x300 ∧ (bits v 11 2 = 1 ∨ bits v 11 2 = 2) ∨
  a = 0x305 ∧ 1 < bits v 0 2 ∨ a = 0x7C4 ∧ 5 < bits v 8 4

/-- The hart after a write of a CSR that has no row of its own. Reserved bits are ignored (R4). The fields of mstatus, mie, mcounteren
and mcountinhibit that a write sets, and bit 0 of mepc, are those of the RISC-V privileged architecture (PRESUMED log 7). -/
def csrTakes (h : Hart) (v : Word) : Nat → Option Hart
  | 0x001 => some { h with fcsr := h.fcsr &&& 0xE0#8 ||| v.setWidth 8 &&& 0x1F#8, mstatus := h.mstatus ||| 0x6000#64 }
  | 0x002 => some { h with fcsr := h.fcsr &&& 0x1F#8 ||| v.setWidth 8 <<< 5, mstatus := h.mstatus ||| 0x6000#64 }
  | 0x003 => some { h with fcsr := v.setWidth 8, mstatus := h.mstatus ||| 0x6000#64 }
  | 0x300 => some { h with mstatus := v &&& 0x227888#64 ||| 0x200000000#64 }
  | 0x304 => some { h with mie := v &&& 0x10000#64 }
  | 0x305 => some { h with mtvec := v }
  | 0x306 => some { h with mcounteren := v &&& 0xFFFFFFFF#64 }
  | 0x320 => some { h with mcountinhibit := v &&& 5#64 }
  | 0x340 => some { h with mscratch := v }
  | 0x341 => some { h with mepc := v &&& ~~~ 1#64 }
  | 0x342 => some { h with mcause := v }
  | 0x343 => some { h with mtval := v }
  | 0x7C3 => some { h with
    preq := v &&& 0xFFFFFFFF0003#64
    mip := if bitAt v 0 then h.mip ||| 0x10000#64 else h.mip &&& ~~~ 0x10000#64 }
  | 0x7C4 => some { h with kcause := v &&& 0x3F0FFF#64 }
  | 0x7C5 => some { h with korigin := v }
  | 0x7C6 => some { h with faddr := v }
  | 0x803 => some { h with vfflags := v &&& 0x7F#64 }
  | 0x804 => some { h with vvsel := v &&& 0x1F#64 }
  | 0x806 => some { h with vhint := v &&& 1#64 }
  | 0x807 => some { h with chstep := v.setWidth 12 }
  | 0xB00 => some { h with mcycle := v }
  | a => if a = 0x301 ∨ a = 0x30A ∨ a = 0x344 ∨ 0xB03 ≤ a ∧ a < 0xB20 ∨ 0x323 ≤ a ∧ a < 0x340 then some h else none

end Sys2Proof.Claims

/-- Every other CSR write (R4, R8, R104): where the access is allowed and the value legal, the register takes it, its reserved bits
ignored (VFFLAGS, VVSEL, VHINT, CHSTEP, PREQ, KCAUSE), and the destination the old value, and nothing else changes; PREQ's P is mip's
bit 16 (R200). Which bits of mstatus, mie, mcounteren, mcountinhibit and mepc a write sets, and which values of mstatus.MPP, mtvec.MODE
and frm are reserved, is taken from the RISC-V privileged architecture (PRESUMED log 7). A reserved value raises illegal instruction and
changes nothing. A CSR that does not exist or that is marked machine mode
for U-mode code is not accessible, one that is read-only not writable, and the access raises illegal instruction and changes nothing;
M-mode reads every CSR there is, the floating-point ones with mstatus.FS on; U-mode reads the counters that mcounteren names. -/
def Sys2Proof.Claims.CsrWritesComplete : Prop :=
  (∀ (a : BitVec 12) (acc : CsrAcc) s h, csrAllowed s a.toNat true = true → csrTakes s.hart (newValue s a.toNat acc) a.toNat = some h →
    ¬ csrReserved a.toNat (newValue s a.toNat acc) →
    exec (.registerWrite (.csr a acc)) s = .next (onHart s (past (h.setX acc.rd ((csrValue s a.toNat).getD 0))))) ∧
  (∀ (acc : CsrAcc) s, csrAllowed s 0xB02 true = true → bitAt s.hart.mcountinhibit 2 = false →
    exec (.registerWrite (.csr 0xB02 acc)) s = .next { s with hart := past (({ s.hart with
      minstret := newValue s 0xB02 acc } : Hart).setX acc.rd s.hart.minstret) }) ∧
  (∀ (a : BitVec 12) (acc : CsrAcc) s, csrAllowed s a.toNat true = true → csrReserved a.toNat (newValue s a.toNat acc) →
    exec (.registerWrite (.csr a acc)) s = .next (deliver { cause := 2 } s)) ∧
  (∀ (a : BitVec 12) (acc : CsrAcc) s, csrAllowed s a.toNat true = false →
    exec (.registerWrite (.csr a acc)) s = .next (deliver { cause := 2 } s)) ∧
  (∀ s a w, csrNamed a = false → csrAllowed s a w = false) ∧
  (∀ s a, (0xC00 ≤ a ∨ a ∈ [0x808, 0x820, 0x824, 0x828, 0x82C] ∨ a = 0x802 ∧ s.hart.mode = .u) → csrAllowed s a true = false) ∧
  (∀ s a, s.hart.mode = .m → csrNamed a = true → (a ∈ [0x001, 0x002, 0x003] → s.hart.fsOn = true) →
    csrAllowed s a false = true ∧ (a < 0xC00 → a ∉ [0x808, 0x820, 0x824, 0x828, 0x82C] → csrAllowed s a true = true)) ∧
  (∀ s a w, a ∈ [0x001, 0x002, 0x003] → s.hart.fsOn = false → csrAllowed s a w = false) ∧
  (∀ s a w, s.hart.mode = .u → a < 4096 → a / 256 % 4 = 3 → (a < 0x7C0 ∨ 0x7C2 < a) → csrAllowed s a w = false) ∧
  (∀ s a w, s.hart.mode = .u → 0x7C0 ≤ a → a ≤ 0x7C2 → csrAllowed s a w = s.flag s.hart 1) ∧
  (∀ s a, s.hart.mode = .u → 0xC00 ≤ a → a < 0xC20 → csrAllowed s a false = s.hart.mcounteren.getLsbD (a - 0xC00)) ∧
  (∀ s a, s.hart.mode = .u → csrNamed a = true → 0x800 ≤ a → a < 0xB00 → csrAllowed s a false = true)

/-- CSR reads, and the writes that have no row of their own. WFI, the write masks of the machine CSRs of the RISC-V architecture and
their reserved values rest on PRESUMED log 7. -/
def Obligations.CsrAccessesComplete : Prop := CsrReadsComplete ∧ CsrWritesComplete

/-! ## Traps -/

/-- R183, R184: a trap that no service of the runtime answers saves the pc, the cause, the element, the address and the kernel header,
enters M-mode at mtvec's base with interrupts off and MPP the mode it came from, ends the open convoy (R41), and leaves vector,
predicate, scale, validity, clause, tile and accumulator state and every scalar register as the trap found them. -/
def Obligations.TrapEntrySavesAndEnters : Prop :=
  ∀ (e : Trap) (s : State), (s.hart.mode = .u → isHookCause e.cause = false ∧ e.cause ≠ 8) →
    ∃ t, deliver e s = t ∧ t = { s with hart := t.hart } ∧
      t.hart = { s.hart with
        mepc := e.pc.getD s.hart.pc, mcause := BitVec.ofNat 64 e.cause, vxi := e.elem, mtval := t.hart.mtval, kcause := t.hart.kcause,
        faddr := e.addr.getD 0, korigin := s.korigin s.hart, mstatus := t.hart.mstatus, mode := .m,
        pc := s.hart.mtvec &&& ~~~ 3#64, convoy := [], freshConvoy := true, stopAt := none, pollPoison := false,
        boundaryWait := false, atOnce := false, remoteFault := none } ∧
      mppOf t.hart.mstatus = s.hart.mode ∧ bitAt t.hart.mstatus 3 = false ∧ bitAt t.hart.mstatus 7 = bitAt s.hart.mstatus 3 ∧
      (∀ i, i ∉ [3, 7, 11, 12] → bitAt t.hart.mstatus i = bitAt s.hart.mstatus i) ∧
      (e.cause = 2 → t.hart.mtval = (e.word.getD s.hart.ir).setWidth 64) ∧
      (e.cause ≠ 2 → e.mtvalAddr = false →
        t.hart.mtval = if e.cause ∈ [1, 5, 7, 12, 13, 15] then e.addr.getD 0 else 0) ∧
      (e.cause < 24 → e.cu = false → t.hart.kcause = 0) ∧
      (24 ≤ e.cause → e.lane < 64 → e.unit < 16 → e.sub < 256 → bits t.hart.kcause 0 8 = e.sub ∧ bits t.hart.kcause 8 4 = e.unit ∧
        bits t.hart.kcause 16 6 = e.lane)

/-- EBREAK raises cause 3 in either mode, an ECALL from M-mode cause 11 (R103, R183). -/
def Sys2Proof.Claims.EcallAndEbreakTrap : Prop :=
  (∀ half s, ∃ t, exec (.rv .ebreak half) s = .next t ∧ t.hart.mcause = 3 ∧ t.hart.mepc = s.hart.pc ∧ t.hart.mode = .m ∧
    t.hart.x = s.hart.x ∧ t.mem = s.mem) ∧
  (∀ half s, s.hart.mode = .m → ∃ t, exec (.rv .ecall half) s = .next t ∧ t.hart.mcause = 11 ∧ t.hart.mepc = s.hart.pc ∧
    t.hart.mode = .m ∧ t.hart.x = s.hart.x ∧ t.mem = s.mem)

/-- R184: MRET, in M-mode, resumes the hart at mepc in the mode that MPP names, restores the interrupt enable, starts a convoy with
the next vector instruction, and clears VXI when no vector instruction stands at mepc; a forced pre-emption that is due then is taken at
once (R201); every register else stays. In U-mode it raises illegal instruction. -/
def Sys2Proof.Claims.MretResumes : Prop :=
  (∀ s, s.hart.mode = .m → ∃ t, exec .mret s = .next t ∧ t = { s with hart := t.hart } ∧
    t.hart = ({ s.hart with
      pc := s.hart.mepc, mode := mppOf s.hart.mstatus, mstatus := t.hart.mstatus, convoy := [], freshConvoy := true,
      vxi := t.hart.vxi, skipped := t.hart.skipped, atOnce := t.forcedDue } : Hart).retire ∧
    bitAt t.hart.mstatus 3 = bitAt s.hart.mstatus 7 ∧ bitAt t.hart.mstatus 7 = true ∧ mppOf t.hart.mstatus = .u ∧
    (({ s with hart := returnFromTrap s.hart } : State).vectorAt (mppOf s.hart.mstatus) s.hart.mepc = true →
      t.hart.vxi = s.hart.vxi ∧ t.hart.skipped = s.hart.skipped) ∧
    (({ s with hart := returnFromTrap s.hart } : State).vectorAt (mppOf s.hart.mstatus) s.hart.mepc = false → t.hart.vxi = 0)) ∧
  (∀ s, s.hart.mode = .u → exec .mret s = .next (deliver { cause := 2 } s))

/-- R256: a trap of cause 24, 25 or 28 from U-mode outside a hook, while a hook is set, is delivered to it: the save area takes the
scalar registers, fcsr, mepc, VXI, mcause, KCAUSE and FADDR; x10, x11 and x12 hold mcause, FADDR and KCAUSE; the hart is in U-mode at
the hook; every other x register, the f registers, fcsr and the vector state hold what the trap left. The entry counts as the MRET of R201:
a forced pre-emption that is due then is taken at once (R257). -/
def Sys2Proof.Claims.HookReceivesTheTrap : Prop :=
  ∀ (e : Trap) (s : State) (a : Word), s.hart.mode = .u → isHookCause e.cause = true → s.hart.hook = some a → s.hart.hookSave = none →
    ∃ t, deliver e s = t ∧ t.hart.pc = a ∧ t.hart.mode = .u ∧ t.hart.atOnce = t.forcedDue ∧
      t.hart.hookSave = some (.mk s.hart.x s.hart.f s.hart.fcsr (e.pc.getD s.hart.pc) e.elem (BitVec.ofNat 64 e.cause)
        (kcauseOf e) (e.addr.getD 0)) ∧
      t.hart.xr 10 = BitVec.ofNat 64 e.cause ∧ t.hart.xr 11 = e.addr.getD 0 ∧ t.hart.xr 12 = kcauseOf e ∧
      (∀ r, r ≠ 10 → r ≠ 11 → r ≠ 12 → t.hart.xr r = s.hart.xr r) ∧ t.hart.f = s.hart.f ∧ t.hart.fcsr = s.hart.fcsr ∧
      t.hart.vregs = s.hart.vregs ∧ t.hart.preds = s.hart.preds ∧ t.hart.masks = s.hart.masks ∧ t.hart.clause = s.hart.clause ∧
      t.hart.job = s.hart.job ∧ t.mem = s.mem

/-- MRET resumes where the trap stopped; a hook receives the trap of a kernel. -/
def Obligations.HandlersReturn : Prop := MretResumes ∧ HookReceivesTheTrap

/-- R255: the ECALL functions of Table 15-2, each on an ECALL from U-mode whose x17 names it, and the same by the ECALL instruction
itself. HOOKSET sets, clears or refuses the hook and answers in x10, every other register as it was (a convoy ends, R41); HOOKRET inside a hook restores the copy and resumes the trapped
context; ABORT, and any other number, end the launch with the cause the hook handles or 8. -/
def Sys2Proof.Claims.EcallServicesComplete : Prop :=
  (∀ s, s.hart.mode = .u → (s.hart.xr 17).toNat = 0x100 → ∃ t, exec .hookset s = .next t ∧ exec (.rv .ecall none) s = .next t ∧
    let a := s.hart.xr 10
    let refused := a.toNat % 4 ≠ 0
    t = { s with hart := { s.hart with
      x := s.hart.x.set 10 (if refused then BitVec.allOnes 64 else 0)
      hook := if refused then s.hart.hook else if a = 0 then none else some a
      pc := s.hart.pc + 4, convoy := [], freshConvoy := true, stopAt := none, pollPoison := false, boundaryWait := false
      remoteFault := none, atOnce := t.forcedDue } }) ∧
  (∀ s c, s.hart.mode = .u → (s.hart.xr 17).toNat = 0x101 → s.hart.hookSave = some c → ∃ t, exec .hookret s = .next t ∧
    exec (.rv .ecall none) s = .next t ∧ t.hart.mode = .u ∧ t.hart.pc = c.mepc ∧ t.hart.x = c.x ∧ t.hart.f = c.f ∧
    t.hart.fcsr = c.fcsr ∧ t.hart.hookSave = none ∧ t.hart.hook = s.hart.hook ∧ t.hart.freshConvoy = true ∧
    (t.hart.vxi = c.vxi ∨ t.hart.vxi = 0) ∧ t.hart.atOnce = t.forcedDue ∧ t.mem = s.mem) ∧
  (∀ s j, s.hart.mode = .u → s.hart.job = some j → (s.hart.xr 17).toNat = 0x102 → ∃ t, exec .abort s = .next t ∧
    exec (.rv .ecall none) s = .next t ∧
    t = endLaunch j.launch (match s.hart.hookSave with
      | some c => c.mcause.toNat
      | none => 8) (takeTrap { cause := 8 } s)) ∧
  (∀ s j, s.hart.mode = .u → s.hart.job = some j → (s.hart.xr 17).toNat < 0x100 ∨ 0x102 < (s.hart.xr 17).toNat →
    exec .ecallUnknown s = .next (endLaunch j.launch 8 (takeTrap { cause := 8 } s)) ∧
    exec (.rv .ecall none) s = .next (endLaunch j.launch 8 (takeTrap { cause := 8 } s)))

/-- ECALL and EBREAK trap, and the services of the runtime that an ECALL asks for. -/
def Obligations.EnvironmentCallsComplete : Prop := EcallAndEbreakTrap ∧ EcallServicesComplete

namespace Sys2Proof.Claims

/-- Memory after a write of the front end at placed bytes: each holds its byte, as it is read under its page's key; of every other byte,
in the sectors written where the page has a key and everywhere where it has none, only the bits A and D of a page-table entry can change. -/
def wroteThrough (s t : State) (ps : List (Loc × Option Phys)) (bs : List Byte) : Prop :=
  ((ps.map (·.1)).Nodup → (∀ p ∈ ps, ∀ p' ∈ ps, cryptOf p.2 = cryptOf p'.2) →
    ∀ i k ph, i < bs.length → ps[i]? = some (.mem k, ph) → byteUnder (cryptOf ph) t.mem k = bs.getD i 0) ∧
  ∀ a, (∀ p ∈ ps, ∀ k, p.1 = .mem k → if cryptOf p.2 = none then a ≠ k else sectorOf a ≠ sectorOf k) →
    Memory.get t.mem a &&& ~~~ 0x60#8 = Memory.get s.mem a &&& ~~~ 0x60#8

end Sys2Proof.Claims

/-- R186: a launch that a handler ends. Its harts stop with their core reservations kept until released (R318), its contexts are
discarded, the queue stops at the record with CAUSE TRAP and the TCAUSE given, the host gets the queue-error vector; no other launch's
hart changes, and commands already issued run on. No counter is advanced: with ERRW 0, or an ERRW that does not translate, memory stays;
else the eight bytes at ERRW hold the error word, and of every other byte only the bits A and D of a page-table entry can change. A queue
that stands stopped at an earlier record stays there (DESIGN CHOICE log 16). -/
def Obligations.EndedLaunchStopsItsQueue : Prop :=
  ∀ (n tcause : Nat) (s : State) (l : Launch), s.launches.get? n = some l →
    let above := (BitVec.ofNat 32 l.recIdx - (s.queue l.queue).head).toNat
    let errw := field512 (s.queue l.queue).installed 0x10 0 48
    let word := errorWord l.recIdx l.dist tcause 0x10
    ∃ t, endLaunch n tcause s = t ∧
      (if 0 < above ∧ above < 2 ^ 31 then (t.queue l.queue).head = (s.queue l.queue).head ∧
          (t.queue l.queue).state = (s.queue l.queue).state
        else (t.queue l.queue).head = BitVec.ofNat 32 l.recIdx ∧ (t.queue l.queue).state = .stopped l.dist none) ∧
      (t.queue l.queue).error = word ∧
      t.msix = 1 :: s.msix ∧
      t.hart = { (if s.hart.inLaunch n then s.hart.retired else s.hart) with reservation := t.hart.reservation } ∧
      t.others.map (fun h => { h with reservation := none }) =
        s.others.map (fun h => { (if h.inLaunch n then h.retired else h) with reservation := none }) ∧
      (∀ c, c ∈ t.contexts ↔ c ∈ s.contexts ∧ c.hart.inLaunch n = false) ∧
      (∀ q, q ≠ l.queue → t.queue q = s.queue q) ∧
      (∀ c, (t.cluster c).scarab = (s.cluster c).scarab) ∧
      ((errw = 0 ∨ ∃ e u, (qPlaces l.queue (sext48 errw) 8).run s = .error e u) → t.mem = s.mem) ∧
      ∀ ps u, errw ≠ 0 → s.memOk → (qPlaces l.queue (sext48 errw) 8).run s = .ok ps u →
        wroteThrough s t ps (toBytes 8 word.toNat)

/-! ## Predicates (Tables 04-10 and 04-11) -/

/-- R43, R97: a predicate branch goes to pc + 4 × its signed offset when its test on the bits below nel() holds (any, all, none, not
all), else to the next word, in any mode and under any shape; it changes nothing else. -/
def Sys2Proof.Claims.PredicateBranchesComplete : Prop :=
  ∀ (ps : BitVec 6) (off : BitVec 16) (s : State) (taken : Bool) (i : Instr),
    (i = .bany ps off ∧ (taken = true ↔ ∃ e, e < s.hart.nel ∧ pbit s.hart ps e = true) ∨
     i = .ball ps off ∧ (taken = true ↔ ∀ e, e < s.hart.nel → pbit s.hart ps e = true) ∨
     i = .bnone ps off ∧ (taken = true ↔ ∀ e, e < s.hart.nel → pbit s.hart ps e = false) ∨
     i = .bnall ps off ∧ (taken = true ↔ ∃ e, e < s.hart.nel ∧ pbit s.hart ps e = false)) →
    exec i s = .next (onHart s { s.hart with
      pc := if taken then s.hart.pc + (off.signExtend 64 <<< 2) else s.hart.pc + 4 })

namespace Sys2Proof.Claims

/-- The unit can take an instruction: it starts a convoy, or the open convoy does not hold the unit yet (R41). -/
def joins (u : VUnit) (c : Bool) (h : Hart) : Prop := c = true ∨ h.freshConvoy = true ∨ u ∉ h.convoy

/-- The hart with the instruction in its convoy. -/
def joined (u : VUnit) (c : Bool) (h : Hart) : Hart :=
  { h with convoy := if c || h.freshConvoy then [u] else u :: h.convoy, freshConvoy := false }

/-- Nothing of the environment falls into the instruction: no mismatch of the Weevil lane, no pre-emption at an element. -/
def undisturbed (h : Hart) : Prop := h.upsets = [] ∧ h.stopAt = none

/-- The bit that each predicate write computes for element `e` (R333 to R337). -/
def predicateBit (h : Hart) : Instr → Option (BitVec 6 × (Nat → Bool))
  | .pand pd a b => some (pd, fun e => pbit h a e && pbit h b e)
  | .por pd a b => some (pd, fun e => pbit h a e || pbit h b e)
  | .pxor pd a b => some (pd, fun e => xor (pbit h a e) (pbit h b e))
  | .pandn pd a b => some (pd, fun e => pbit h a e && !pbit h b e)
  | .pnot pd a => some (pd, fun e => !pbit h a e)
  | .pmov pd a => some (pd, fun e => pbit h a e)
  | .psetn pd r => some (pd, fun e => e < (h.xr r).toNat)
  | .pwhile c pd a b => some (pd, fun e => match c with
    | .lt => (h.xr a).toInt + e < (h.xr b).toInt
    | .le => (h.xr a).toInt + e ≤ (h.xr b).toInt
    | .ltu => (h.xr a).toNat + e < (h.xr b).toNat
    | .leu => (h.xr a).toNat + e ≤ (h.xr b).toNat)
  | _ => none

/-- How many bits of a predicate are set below nel(). -/
def setCount (h : Hart) (p : BitVec 6) : Nat := ((List.range h.nel).filter (pbit h p)).length

/-- The lowest set bit below nel(), or all ones. -/
def firstSet (h : Hart) (p : BitVec 6) : Word :=
  match (List.range h.nel).find? (pbit h p) with
  | some e => BitVec.ofNat 64 e
  | none => BitVec.allOnes 64

/-- The value that each predicate read gives its register (R332). -/
def predicateRead (h : Hart) : Instr → Option (BitVec 5 × Word)
  | .ppopc rd p => some (rd, BitVec.ofNat 64 (setCount h p))
  | .psum rd p => some (rd, h.xr rd + BitVec.ofNat 64 (setCount h p))
  | .pfirst rd p => some (rd, firstSet h p)
  | _ => none

end Sys2Proof.Claims

/-- The PRED family (R93, R330 to R337) completes whenever its unit is free in the convoy, under any shape: a write sets the bits of
its predicate below nel() to the function's, clears the bits above, and p0, which no encoding names as a destination, stays; a read writes one x register. All else
stays. When the unit is taken, illegal instruction. -/
def Sys2Proof.Claims.PredicateInstructionsComplete : Prop :=
  (∀ i pd f s, predicateBit s.hart i = some (pd, f) → joins .pred false s.hart → undisturbed s.hart →
    ∃ t, exec i s = .next t ∧ t = { s with hart := t.hart } ∧
      t.hart = (past { joined .pred false s.hart with preds := t.hart.preds, vxi := 0, skipped := [] }).retire ∧
      (pd ≠ 0 → ∀ e, e < 8192 → (t.hart.preds.get pd.toNat).getLsbD e = (decide (e < s.hart.nel) && f e)) ∧
      ∀ p, (pd = 0 ∨ p ≠ pd.toNat) → t.hart.preds.get p = s.hart.preds.get p) ∧
  (∀ i rd v s, predicateRead s.hart i = some (rd, v) → joins .pred false s.hart → undisturbed s.hart →
    exec i s = .next (onHart s (past { (joined .pred false s.hart).setX rd v with vxi := 0, skipped := [] }))) ∧
  (∀ i s, ((predicateBit s.hart i).isSome = true ∨ (predicateRead s.hart i).isSome = true) → ¬ joins .pred false s.hart →
    exec i s = .next (deliver { cause := 2 } s))

/-- Predicate branches and predicate instructions. -/
def Obligations.PredicatesComplete : Prop := PredicateBranchesComplete ∧ PredicateInstructionsComplete

/-! ## Vector instructions that write elements -/

namespace Sys2Proof.Claims

/-- An instruction that writes elements of a group of registers: its unit, its C bit, its guard, destination and sources, bytes of a
result and of its widest element, whether it takes this shape and type, the elements it writes, each result, and whether it is whole
(R350). -/
structure Lane where
  unit : VUnit
  c : Bool
  pg : BitVec 3
  vd : BitVec 5
  regs : List (BitVec 5)
  eb : Nat
  widest : Nat
  suits : Bool
  writes : Nat → Bool
  res : Nat → ElemRes
  whole : Bool

/-- The checks of Table 04-13 that a vector instruction can fail: 4 (register groups, R35), 6 (the shape fits, R37, and suits), 7 (the
convoy takes it, R41). -/
def Lane.passes (L : Lane) (s : State) : Prop :=
  (∀ r ∈ L.vd :: L.regs, r.toNat % s.hart.grp = 0 ∧ r.toNat + s.hart.grp ≤ s.nvreg s.hart) ∧
  s.hart.nel * L.widest ≤ s.hart.grp * s.capC s.hart ∧ L.suits = true ∧ joins L.unit L.c s.hart

/-- Does it write element `e` of the state `h`: within the shape, at or after VXI unless it is whole, active? -/
def Lane.acts (L : Lane) (h : Hart) (e : Nat) : Prop :=
  e < h.nel ∧ (L.whole = true ∨ h.vxi ≤ e) ∧ h.active L.pg e = true ∧ L.writes e = true

/-- What it writes (R117, R121, R123, R350): the elements it writes hold their results, every other byte of the register file is as it
was, flags accrue, a written block is valid when everything taken into it was, no mask of another register changes; the masks of the
group's other registers are left open. -/
def Lane.Wrote (L : Lane) (s t : State) : Prop :=
  (∀ e, L.acts s.hart e → t.hart.elemAt (s.capC s.hart) L.vd.toNat L.eb e = (L.res e).val % 2 ^ (8 * L.eb)) ∧
  (∀ a, (∀ e, L.acts s.hart e → a < L.vd.toNat * s.capC s.hart + e * L.eb ∨ L.vd.toNat * s.capC s.hart + e * L.eb + L.eb ≤ a) →
    t.hart.vregs.get a = s.hart.vregs.get a) ∧
  (∀ k, t.hart.vfflags.getLsbD k = true ↔
    s.hart.vfflags.getLsbD k = true ∨ ∃ e, L.acts s.hart e ∧ (L.res e).fl.getLsbD k = true) ∧
  (∀ b, b < 64 → (∀ e, L.acts s.hart e → s.hart.blk e ≠ b) → t.hart.valid L.vd.toNat b = s.hart.valid L.vd.toNat b) ∧
  (∀ e, L.acts s.hart e → s.hart.blk e < 64 →
    (t.hart.valid L.vd.toNat (s.hart.blk e) = true ↔
      (∀ e', L.acts s.hart e' → s.hart.blk e' = s.hart.blk e → (L.res e').ok = true) ∧
      (L.whole = true ∨ s.hart.valid L.vd.toNat (s.hart.blk e) = true ∨
        ∀ e', e' < s.hart.vxi → s.hart.blk e' = s.hart.blk e → s.hart.active L.pg e' = false))) ∧
  (∀ v, v < L.vd.toNat ∨ L.vd.toNat + s.hart.grp ≤ v → t.hart.masks.get v = s.hart.masks.get v)

/-- The state that a completed one leaves: all else stays but the pc, minstret, the convoy, the rotation, and VXI, which is 0 (R34). -/
def Lane.Left (L : Lane) (s t : State) : Prop :=
  t = { s with hart := t.hart, freeCtr := t.freeCtr } ∧
  t.hart = (past { joined L.unit L.c s.hart with
    vregs := t.hart.vregs, masks := t.hart.masks, vfflags := t.hart.vfflags, vxi := 0, skipped := [],
    rotation := s.hart.rotation + 1 }).retire ∧
  L.Wrote s t

/-- The instruction cut off before element `k`. -/
def Lane.upto (L : Lane) (k : Nat) : Lane := { L with writes := fun e => L.writes e && decide (e < k) }

/-- What a vector instruction reads of a state. -/
def reads (s : State) : VCtx := { h := s.hart, cap := s.capC s.hart }

/-- A two-source integer instruction (R350). -/
def intLane (s : State) (v : VOp) (signedImm : Bool) (f : Nat → Nat → Nat → Nat × FlagSet) : Lane :=
  let x := reads s
  let r e := f x.w (x.elem v.vs2 e) (x.src (captureV v s.hart) v.b signedImm e)
  .mk .vint v.c v.pg v.vd (v.vs2 :: srcRegs v.b) s.hart.eb s.hart.eb true (fun _ => true)
    (fun e => .mk (r e).1 (r e).2 (x.regValid v.vs2 e && x.srcValid v.b e)) false

/-- A one-source integer instruction (R357). -/
def countLane (s : State) (u : UOp) (f : Nat → Nat → Nat) : Lane :=
  let x := reads s
  .mk .vint u.c u.pg u.vd [u.vs2] s.hart.eb s.hart.eb true (fun _ => true)
    (fun e => .mk (f x.w (x.elem u.vs2 e)) 0 (x.regValid u.vs2 e)) false

/-- A funnel shift (R369): the group after vs2 holds the low half, vd the amount. -/
def funnelLane (s : State) (u : UOp) (f : Nat → Nat → Nat → Nat → Nat) : Lane :=
  let x := reads s
  let low : BitVec 5 := u.vs2 + BitVec.ofNat 5 s.hart.grp
  .mk .vint u.c u.pg u.vd [u.vs2, low] s.hart.eb s.hart.eb (decide (u.vs2.toNat + 2 * s.hart.grp ≤ s.nvreg s.hart)) (fun _ => true)
    (fun e => .mk (f x.w (x.elem u.vs2 e) (x.elem low e) (x.elem u.vd e % x.w)) 0
      (x.regValid u.vs2 e && x.regValid low e && x.regValid u.vd e)) false

/-- The VINT family (Table 04-6). -/
def vintLane (s : State) : Instr → Option Lane
  | .vadd v => some (intLane s v true addW)
  | .vsub v => some (intLane s v true subW)
  | .vmul v => some (intLane s v true mulW)
  | .vmulh v => some (intLane s v true mulhW)
  | .vmin v => some (intLane s v true minW)
  | .vmax v => some (intLane s v true maxW)
  | .vminu v => some (intLane s v false minuW)
  | .vmaxu v => some (intLane s v false maxuW)
  | .vand v => some (intLane s v true andW)
  | .vor v => some (intLane s v true orW)
  | .vxor v => some (intLane s v true xorW)
  | .vsll v => some (intLane s v false sllW)
  | .vsrl v => some (intLane s v false srlW)
  | .vsra v => some (intLane s v false sraW)
  | .vsadd v => some (intLane s v true saddW)
  | .vbfx v => some (intLane s v true bfxW)
  | .vpopc u => some (countLane s u popcount)
  | .vclz u => some (countLane s u clzN)
  | .vfshl u => some (funnelLane s u fshlW)
  | .vfshr u => some (funnelLane s u fshrW)
  | _ => none

/-- A VFLT instruction of two sources and, for the fused ones, vd (R361 to R366). -/
def fltLane (s : State) (v : VOp) (usesD : Bool) (f : Nat → Rm → Nat → Nat → Nat → Nat × FlagSet) : Lane :=
  let x := reads s
  let r e := f s.hart.etype s.hart.rm (x.elem v.vs2 e) (x.src (captureV v s.hart) v.b true e) (x.elem v.vd e)
  .mk .vflt v.c v.pg v.vd (v.vs2 :: srcRegs v.b) s.hart.eb s.hart.eb (isFloat s.hart.etype) (fun _ => true)
    (fun e => .mk (r e).1 (r e).2 (x.regValid v.vs2 e && x.srcValid v.b e && (!usesD || x.regValid v.vd e))) false

/-- A VFLT instruction of one source (R361, R363). -/
def fltLane1 (s : State) (u : UOp) (f : Nat → Rm → Nat → Nat × FlagSet) : Lane :=
  let x := reads s
  let r e := f s.hart.etype s.hart.rm (x.elem u.vs2 e)
  .mk .vflt u.c u.pg u.vd [u.vs2] s.hart.eb s.hart.eb (isFloat s.hart.etype) (fun _ => true)
    (fun e => .mk (r e).1 (r e).2 (x.regValid u.vs2 e)) false

/-- An exact result rounded once into the type, with the flags of both (R115, R116). -/
def rounded (t : Nat) (rm : Rm) (y : Fx × FlagSet) : Nat × FlagSet :=
  ((roundFx (fmtOf t) rm y.1).1, y.2 ||| (roundFx (fmtOf t) rm y.1).2)

/-- The VFLT family (Table 04-7) but VFSCL. -/
def vfltLane (s : State) : Instr → Option Lane
  | .vfadd v => some (fltLane s v false fun t rm a b _ => rounded t rm (addFx (effRm t rm) (fxOf t a) (fxOf t b)))
  | .vfsub v => some (fltLane s v false fun t rm a b _ => rounded t rm (addFx (effRm t rm) (fxOf t a) (fxOf t b).neg))
  | .vfmul v => some (fltLane s v false fun t rm a b _ => rounded t rm (mulFx (fxOf t a) (fxOf t b)))
  | .vfdiv v => some (fltLane s v false fun t rm a b _ => rounded t rm (divFx (fxOf t a) (fxOf t b)))
  | .vfma v => some (fltLane s v true fun t rm a b d => rounded t rm (fmaFx (effRm t rm) (fxOf t a) (fxOf t b) (fxOf t d)))
  | .vfms v => some (fltLane s v true fun t rm a b d => rounded t rm (fmaFx (effRm t rm) (fxOf t a) (fxOf t b) (fxOf t d).neg))
  | .vfnma v => some (fltLane s v true fun t rm a b d => rounded t rm (fmaFx (effRm t rm) (fxOf t a).neg (fxOf t b) (fxOf t d)))
  | .vfmin v => some (fltLane s v false fun t _ a b _ => minMaxF (fmtOf t) false a b)
  | .vfmax v => some (fltLane s v false fun t _ a b _ => minMaxF (fmtOf t) true a b)
  | .vfsgnj v => some (fltLane s v false fun t _ a b _ => signOp t a (signOf t b))
  | .vfscale v => some (fltLane s v false fun t rm a b _ => scaleElem t rm a (toSigned (8 * s.hart.eb) b))
  | .vfabs u => some (fltLane1 s u fun t _ a => signOp t a false)
  | .vfneg u => some (fltLane1 s u fun t _ a => signOp t a (!signOf t a))
  | .vfsqrt u => some (fltLane1 s u fun t rm a => rounded t rm (sqrtFx (fxOf t a)))
  | .vfexp2 u => some (fltLane1 s u fun t rm a => rounded t rm (exp2Fx (fxOf t a)))   -- exp2Fx: DEDUCED log 12
  | .vfrnd u => some (fltLane1 s u fun t rm a => rounded t rm (rndFx rm (fxOf t a)))
  | _ => none

/-- The VPRM instructions that write elements (R359, R360, R371, R372, R380, R385, R387); a slide by `k`. -/
def vprmLane (s : State) : Instr → Option Lane
  | .vslideup v =>
    let x := reads s
    let k := slideOffset v (captureV v s.hart)
    some (.mk .vprm v.c v.pg v.vd [v.vs2] s.hart.eb s.hart.eb true (fun e => decide (k ≤ e))
      (fun e => .mk (x.elem v.vs2 (e - k)) 0 (x.regValid v.vs2 (e - k))) true)
  | .vslidedn v =>
    let x := reads s
    let k := slideOffset v (captureV v s.hart)
    some (.mk .vprm v.c v.pg v.vd [v.vs2] s.hart.eb s.hart.eb true (fun _ => true)
      (fun e => if e + k < s.hart.nel then .mk (x.elem v.vs2 (e + k)) 0 (x.regValid v.vs2 (e + k)) else .mk 0 0 true) true)
  | .vgather v =>
    let x := reads s
    let i e := x.src (captureV v s.hart) v.b false e
    some (.mk .vprm v.c v.pg v.vd (v.vs2 :: srcRegs v.b) s.hart.eb s.hart.eb true (fun _ => true)
      (fun e => if i e < s.hart.nel then .mk (x.elem v.vs2 (i e)) 0 (x.srcValid v.b e && x.regValid v.vs2 (i e))
        else .mk 0 0 (x.srcValid v.b e)) true)
  | .vtrans u =>
    let x := reads s
    let p e := (e % s.hart.vl % s.hart.rows) * s.hart.vl + (e % s.hart.vl) / s.hart.rows * s.hart.rows + e / s.hart.vl
    some (.mk .vprm u.c u.pg u.vd [u.vs2] s.hart.eb s.hart.eb (decide (s.hart.vl % s.hart.rows = 0)) (fun _ => true)
      (fun e => .mk (x.elem u.vs2 (p e)) 0 (x.regValid u.vs2 (p e))) true)
  | .viota u =>
    some (.mk .vprm u.c u.pg u.vd [] s.hart.eb s.hart.eb true (fun _ => true)
      (fun e => .mk (((List.range e).filter (s.hart.pr u.vs2.toNat).getLsbD).length % 2 ^ (8 * s.hart.eb)) 0 true) true)
  | .vid u =>
    some (.mk .vprm u.c u.pg u.vd [] s.hart.eb s.hart.eb true (fun _ => true)
      (fun e => .mk (e % 2 ^ (8 * s.hart.eb)) 0 true) false)
  | .vmv v =>
    let x := reads s
    some (.mk .vprm v.c v.pg v.vd (srcRegs v.b) s.hart.eb s.hart.eb true (fun _ => true)
      (fun e => .mk (x.src (captureV v s.hart) v.b true e) 0 (x.srcValid v.b e)) false)
  | .vcvt u ty =>
    let x := reads s
    let r e := convertBits s.hart.etype (etypeCode ty) s.hart.rm (x.elem u.vs2 e)
    some (.mk .vprm u.c u.pg u.vd [u.vs2] (ebOf (etypeCode ty)) (max s.hart.eb (ebOf (etypeCode ty))) true (fun _ => true)
      (fun e => .mk (r e).1 (r e).2 (x.regValid u.vs2 e)) false)
  | _ => none

/-- An instruction completes when its checks pass. -/
def Lane.Completes (L : Lane) (i : Instr) (s : State) : Prop :=
  L.passes s → undisturbed s.hart → ∃ t, exec i s = .next t ∧ L.Left s t

end Sys2Proof.Claims

/-- The VINT family (Table 04-6, R111, R350 to R352) completes under every ETYPE wherever its checks pass, in every operand form, and
leaves what `Lane.Left` says. -/
def Obligations.VintCompletes : Prop := ∀ i s L, vintLane s i = some L → L.Completes i s

/-- The functions of the VINT family on elements of w bits (R352, R355 to R357, R369, R378, R379, R386), and the operand forms:
immediates are sign-extended, or zero-extended where the table says unsigned, and a form-01 operand is the register's low w bits. -/
def Obligations.VintFunctionsFollowTheSpec : Prop :=
  (∀ (w : Nat) (a b : BitVec w), 0 < w →
    addW w a.toNat b.toNat = ((a + b).toNat, 0) ∧ subW w a.toNat b.toNat = ((a - b).toNat, 0) ∧
    mulW w a.toNat b.toNat = ((a * b).toNat, 0) ∧
    mulhW w a.toNat b.toNat = (((a.signExtend (2 * w) * b.signExtend (2 * w)) >>> w).toNat % 2 ^ w, 0) ∧
    minW w a.toNat b.toNat = ((if a.toInt ≤ b.toInt then a else b).toNat, 0) ∧
    maxW w a.toNat b.toNat = ((if b.toInt ≤ a.toInt then a else b).toNat, 0) ∧
    minuW w a.toNat b.toNat = ((if a ≤ b then a else b).toNat, 0) ∧ maxuW w a.toNat b.toNat = ((if b ≤ a then a else b).toNat, 0) ∧
    andW w a.toNat b.toNat = ((a &&& b).toNat, 0) ∧ orW w a.toNat b.toNat = ((a ||| b).toNat, 0) ∧
    xorW w a.toNat b.toNat = ((a ^^^ b).toNat, 0) ∧
    sllW w a.toNat b.toNat = ((a <<< (b.toNat % w)).toNat, 0) ∧ srlW w a.toNat b.toNat = ((a >>> (b.toNat % w)).toNat, 0) ∧
    sraW w a.toNat b.toNat = ((a.sshiftRight (b.toNat % w)).toNat, 0) ∧
    (saddW w a.toNat b.toNat = if a.toInt + b.toInt < -2 ^ (w - 1) then ((BitVec.intMin w).toNat, flSAT)
      else if 2 ^ (w - 1) ≤ a.toInt + b.toInt then ((BitVec.intMax w).toNat, flSAT) else ((a + b).toNat, 0)) ∧
    clzN w a.toNat = (List.range w).countP (fun i => a.toNat < 2 ^ (w - 1 - i)) ∧
    popcount w a.toNat = (List.range w).countP (fun i => a.getLsbD i)) ∧
  (∀ w ∈ [8, 16, 32], ∀ (a : BitVec w) (s i : Nat), i < w →
    let pos := s % w
    let len := if s / w % w = 0 then w else s / w % w
    (bfxW w a.toNat s).1.testBit i =
      if i < len then a.getLsbD (pos + i) else (s / w / w % 2 = 1 && a.getLsbD (pos + len - 1))) ∧
  (∀ (w : Nat) (hi lo : BitVec w) (n : Nat), n < w →
    fshlW w hi.toNat lo.toNat n = (((hi ++ lo) <<< n) >>> w).toNat ∧
    fshrW w hi.toNat lo.toNat n = ((hi ++ lo) >>> n).toNat % 2 ^ w) ∧
  (∀ (x : VCtx) (c : Cap) (i : BitVec 5) (r : BitVec 5) (sg : Bool) (e : Nat),
    x.src c (.vi i) true e = (i.signExtend x.w).toNat ∧ x.src c (.vi i) false e = (i.setWidth x.w).toNat ∧
    x.src c (.vx r) sg e = c.a.toNat % 2 ^ x.w)

/-- The VFLT family (Table 04-7, R115, R116, R361 to R366, R368) but VFSCL completes under ETYPE 4 to 7 wherever its checks pass: each
result is the exact one, rounded once; VFEXP2's is that of the model's own algorithm, which takes the power to 2^-380 before the
rounding (DEDUCED log 12). -/
def Obligations.VfltCompletes : Prop := ∀ i s L, vfltLane s i = some L → L.Completes i s

/-- The VPRM instructions that write elements (Table 04-8) complete wherever their checks pass. -/
def Obligations.VprmElementsComplete : Prop := ∀ i s L, vprmLane s i = some L → L.Completes i s

namespace Sys2Proof.Claims

/-- A compare of Table 04-8: its operand, whether the type suits it, and what it says of two elements (R358). -/
def compareOf (s : State) : Instr → Option (VOp × Bool × (Nat → Bool × FlagSet))
  | .vcmpeq v => some (v, true, fun e => (decide (a v e = b v true e), 0))
  | .vcmpne v => some (v, true, fun e => (decide (a v e ≠ b v true e), 0))
  | .vcmplt v => some (v, true, fun e => (decide (sg (a v e) < sg (b v true e)), 0))
  | .vcmple v => some (v, true, fun e => (decide (sg (a v e) ≤ sg (b v true e)), 0))
  | .vcmpltu v => some (v, true, fun e => (decide (a v e < b v false e), 0))
  | .vcmpleu v => some (v, true, fun e => (decide (a v e ≤ b v false e), 0))
  | .vfcmplt v => some (v, isFloat s.hart.etype, fun e =>
    if (fx (a v e)).isNan || (fx (b v true e)).isNan then (false, flNV) else (decide (cmpFx (fx (a v e)) (fx (b v true e)) = .lt), 0))
  | .vfcmple v => some (v, isFloat s.hart.etype, fun e =>
    if (fx (a v e)).isNan || (fx (b v true e)).isNan then (false, flNV) else (decide (cmpFx (fx (a v e)) (fx (b v true e)) ≠ .gt), 0))
  | _ => none
where
  a (v : VOp) (e : Nat) : Nat := (reads s).elem v.vs2 e
  b (v : VOp) (signedImm : Bool) (e : Nat) : Nat := (reads s).src (captureV v s.hart) v.b signedImm e
  sg (n : Nat) : Int := toSigned (8 * s.hart.eb) n
  fx (n : Nat) : Fx := fxOf s.hart.etype n

/-- The reductions of Table 04-8: whether the type suits, and one combination (R125, R381). -/
def reductionOf (s : State) : Instr → Option (UOp × Bool × (Nat → Nat → Nat × FlagSet))
  | .vredsum u => some (u, true, addW (8 * s.hart.eb))
  | .vredmax u => some (u, true, maxW (8 * s.hart.eb))
  | .vredmin u => some (u, true, minW (8 * s.hart.eb))
  | .vfredsum u => some (u, isFloat s.hart.etype, fun a b =>
    rounded s.hart.etype s.hart.rm (addFx (effRm s.hart.etype s.hart.rm) (fxOf s.hart.etype a) (fxOf s.hart.etype b)))
  | .vfredmax u => some (u, isFloat s.hart.etype, minMaxF (fmtOf s.hart.etype) true)
  | _ => none

/-- What the checks of Table 04-13 read of the vector instructions that are no `Lane`: the unit, the C bit, the register groups, and
whether the shape, the type and the scales suit. -/
def checksOf (s : State) : Instr → Option (VUnit × Bool × List (BitVec 5) × Bool)
  | .vcompress u _ => some (.vprm, u.c, [u.vd, u.vs2], true)
  | .vfscl v => some (.vflt, v.c, [v.vd, v.vs2], isFloat s.hart.etype && s.hart.scalesFit (bits (captureV v s.hart).a 0 8))
  | .vld m | .vst m => some (.vmem, m.c, m.vd :: indexRegs m.mode, convertSuits (encOf s.hart m.mode) s.hart)
  | .vldc m => some (.vmem, m.c, [m.vd], convertSuits s.hart.menc s.hart)
  | .vlsc m | .vssc m => some (.vmem, m.c, [], decide (8 * m.n8.toNat + s.hart.nblk ≤ 256))
  | .vamoadd m | .vamomax m | .vamomin m =>
    some (.vmem, m.c, m.vd :: indexRegs m.mode, decide (s.hart.menc = s.hart.etype) && !s.hart.scl)
  | i => match compareOf s i with
    | some (v, suits, _) => some (.vprm, v.c, v.vs2 :: srcRegs v.b, suits)
    | none => (reductionOf s i).map fun (u, suits, _) => (.vprm, u.c, [u.vd, u.vs2], suits)

end Sys2Proof.Claims

/-- Table 04-13, checks 4, 6 and 7: a vector instruction whose register groups, shape, type, scales or convoy do not suit it raises
illegal instruction and changes nothing before the trap (R35, R37, R41, R351): the VINT, VFLT and VPRM families, the compares,
VCOMPRESS, the reductions and VFSCL among them, and the VMEM family. -/
def Obligations.VectorChecksRaiseIllegalInstruction : Prop :=
  (∀ i s L, (vintLane s i = some L ∨ vfltLane s i = some L ∨ vprmLane s i = some L) → ¬ L.passes s →
    exec i s = .next (deliver { cause := 2 } s)) ∧
  ∀ i s u c regs suits, checksOf s i = some (u, c, regs, suits) →
    ¬ ((∀ r ∈ regs, r.toNat % s.hart.grp = 0 ∧ r.toNat + s.hart.grp ≤ s.nvreg s.hart) ∧
      s.hart.nel * s.hart.eb ≤ s.hart.grp * s.capC s.hart ∧ suits = true ∧ joins u c s.hart) →
    exec i s = .next (deliver { cause := 2 } s)

/-- The compares (R93, R358) complete wherever the checks pass: the destination's bit of each active element from VXI up is the
comparison, its other bits below nel() stay, its bits from nel() up are 0; p0, which no encoding names, stays; a NaN compares false with NV; no validity mask
changes. -/
def Obligations.VectorComparesComplete : Prop :=
  ∀ i s v suits f, compareOf s i = some (v, suits, f) →
    (∀ r ∈ v.vs2 :: srcRegs v.b, r.toNat % s.hart.grp = 0 ∧ r.toNat + s.hart.grp ≤ s.nvreg s.hart) →
    s.hart.nel * s.hart.eb ≤ s.hart.grp * s.capC s.hart → suits = true → joins .vprm v.c s.hart → undisturbed s.hart →
    ∃ t, exec i s = .next t ∧ t = { s with hart := t.hart } ∧
      t.hart = (past { joined .vprm v.c s.hart with
        preds := t.hart.preds, vfflags := t.hart.vfflags, vxi := 0, skipped := [], rotation := s.hart.rotation + 1 }).retire ∧
      (v.vd ≠ 0 → ∀ e, e < 8192 → (t.hart.preds.get v.vd.toNat).getLsbD e =
        if s.hart.nel ≤ e then false
        else if s.hart.vxi ≤ e ∧ s.hart.active v.pg e = true then (f e).1 else (s.hart.preds.get v.vd.toNat).getLsbD e) ∧
      (∀ p, (v.vd = 0 ∨ p ≠ v.vd.toNat) → t.hart.preds.get p = s.hart.preds.get p) ∧
      ∀ k, t.hart.vfflags.getLsbD k = true ↔ s.hart.vfflags.getLsbD k = true ∨
        ∃ e, s.hart.vxi ≤ e ∧ e < s.hart.nel ∧ s.hart.active v.pg e = true ∧ (f e).2.getLsbD k = true

/-! ## Compress, reductions and VFSCL (R125, R359, R367, R381) -/

namespace Sys2Proof.Claims

/-- Checks 4, 6 and 7 of an instruction with destination group vd and source group vs2, in unit `u` (Table 04-13). -/
def checked (s : State) (u : VUnit) (c : Bool) (vd vs2 : BitVec 5) (suits : Bool) : Prop :=
  (∀ r ∈ [vd, vs2], r.toNat % s.hart.grp = 0 ∧ r.toNat + s.hart.grp ≤ s.nvreg s.hart) ∧
  s.hart.nel * s.hart.eb ≤ s.hart.grp * s.capC s.hart ∧ suits = true ∧ joins u c s.hart

/-- The hart after a completed vector instruction that wrote registers, masks and flags. -/
def vectorFrame (u : VUnit) (c : Bool) (s t : State) : Prop :=
  t = { s with hart := t.hart, freeCtr := t.freeCtr } ∧
  t.hart = (past { joined u c s.hart with
    vregs := t.hart.vregs, masks := t.hart.masks, vfflags := t.hart.vfflags, sf := t.hart.sf, vxi := 0, skipped := [],
    rotation := s.hart.rotation + 1 }).retire

/-- The active elements of the shape, ascending. -/
def activeOnes (s : State) (pg : BitVec 3) : List Nat := (List.range s.hart.nel).filter (s.hart.active pg)

/-- The scale that VFSCL gives a block: that of its active elements' values (R367). -/
def scaleOfBlock (s : State) (v : VOp) (b : Nat) : BitVec 32 :=
  blockScale (((reads s).actives v.pg b).map fun e => fxOf s.hart.etype ((reads s).elem v.vs2 e))

end Sys2Proof.Claims

/-- VCOMPRESS (R359) completes: element e of the destination is the e-th selected element of vs2, and 0 past the last one; a block is
valid when all that was moved into it came from valid blocks. -/
def Sys2Proof.Claims.VcompressCompletes : Prop :=
  ∀ (u : UOp) (ps : BitVec 5) (s : State), checked s .vprm u.c u.vd u.vs2 true → undisturbed s.hart →
    let sel := (List.range s.hart.nel).filter (s.hart.pr ps.toNat).getLsbD
    ∃ t, exec (.vcompress u ps) s = .next t ∧ vectorFrame .vprm u.c s t ∧
      (∀ e, e < s.hart.nel → t.hart.elemAt (s.capC s.hart) u.vd.toNat s.hart.eb e =
        match sel[e]? with
        | some i => (reads s).elem u.vs2 i
        | none => 0) ∧
      (∀ a, a < u.vd.toNat * s.capC s.hart ∨ u.vd.toNat * s.capC s.hart + s.hart.nel * s.hart.eb ≤ a →
        t.hart.vregs.get a = s.hart.vregs.get a) ∧
      (∀ b, b < s.hart.nblk → b < 64 → (t.hart.valid u.vd.toNat b = true ↔
        ∀ e i, s.hart.blk e = b → sel[e]? = some i → s.hart.valid u.vs2.toNat (s.hart.blk i) = true)) ∧
      (∀ v, v < u.vd.toNat ∨ u.vd.toNat + s.hart.grp ≤ v → t.hart.masks.get v = s.hart.masks.get v) ∧
      t.hart.vfflags = s.hart.vfflags ∧ t.hart.sf = s.hart.sf

/-- The reductions (R125, R381) complete: with an active element, element 0 of vd becomes the combination of its old value with the
tree's result over the active elements, valid when all were; with none, nothing is written. An integer sum is the sum modulo 2^w, in
any order. -/
def Sys2Proof.Claims.VectorReductionsComplete : Prop :=
  ∀ i s u suits op, reductionOf s i = some (u, suits, op) → checked s .vprm u.c u.vd u.vs2 suits → undisturbed s.hart →
    let tree := treeReduce op 14 ((List.range s.hart.nel).map fun e =>
      if s.hart.active u.pg e then some ((reads s).elem u.vs2 e) else none)
    ∃ t, exec i s = .next t ∧ vectorFrame .vprm u.c s t ∧ t.hart.sf = s.hart.sf ∧
      (s.hart.nel ≤ 2 ^ 14 → (tree.1 = none ↔ activeOnes s u.pg = [])) ∧
      (tree.1 = none → t.hart.vregs = s.hart.vregs ∧ t.hart.masks = s.hart.masks ∧ t.hart.vfflags = s.hart.vfflags) ∧
      (∀ r, tree.1 = some r →
        t.hart.elemAt (s.capC s.hart) u.vd.toNat s.hart.eb 0 =
          (op ((reads s).elem u.vd 0) r).1 % 2 ^ (8 * s.hart.eb) ∧
        (∀ a, a < u.vd.toNat * s.capC s.hart ∨ u.vd.toNat * s.capC s.hart + s.hart.eb ≤ a →
          t.hart.vregs.get a = s.hart.vregs.get a) ∧
        t.hart.vfflags = s.hart.vfflags ||| (tree.2 ||| (op ((reads s).elem u.vd 0) r).2).setWidth 64 ∧
        (t.hart.valid u.vd.toNat 0 = true ↔ s.hart.valid u.vd.toNat 0 = true ∧
          ∀ e ∈ activeOnes s u.pg, s.hart.valid u.vs2.toNat (s.hart.blk e) = true) ∧
        (∀ b, 0 < b → b < 64 → t.hart.valid u.vd.toNat b = s.hart.valid u.vd.toNat b) ∧
        (∀ v, v < u.vd.toNat ∨ u.vd.toNat + s.hart.grp ≤ v → t.hart.masks.get v = s.hart.masks.get v)) ∧
      (i = .vredsum u → s.hart.nel ≤ 2 ^ 14 → activeOnes s u.pg ≠ [] →
        t.hart.elemAt (s.capC s.hart) u.vd.toNat s.hart.eb 0 =
          ((reads s).elem u.vd 0 + ((activeOnes s u.pg).map ((reads s).elem u.vs2)).sum) % 2 ^ (8 * s.hart.eb))

/-- VFSCL (R367, R119) completes under ETYPE 4 to 7 where the scale base leaves room for every block: each block with an active element
takes its scale at the base plus its number, each of its active elements is divided by it and rounded once, and the block is valid when
its source was and the scale is no NaN. -/
def Sys2Proof.Claims.VfsclCompletes : Prop :=
  ∀ (v : VOp) (s : State),
    let base := bits (captureV v s.hart).a 0 8
    checked s .vflt v.c v.vd v.vs2 (isFloat s.hart.etype && s.hart.scalesFit base) → undisturbed s.hart →
    ∃ t, exec (.vfscl v) s = .next t ∧ vectorFrame .vflt v.c s t ∧
      (∀ n, t.hart.sf.get n =
        if base ≤ n ∧ n < base + s.hart.nblk ∧ (reads s).actives v.pg (n - base) ≠ [] then scaleOfBlock s v (n - base)
        else s.hart.sf.get n) ∧
      (∀ e, e < s.hart.nel → s.hart.active v.pg e = true → t.hart.elemAt (s.capC s.hart) v.vd.toNat s.hart.eb e =
        (storeConvert s.hart.etype s.hart.etype s.hart.rm (some (scaleOfBlock s v (s.hart.blk e))) ((reads s).elem v.vs2 e)).1 %
          2 ^ (8 * s.hart.eb)) ∧
      (∀ a, (∀ e, e < s.hart.nel → s.hart.active v.pg e = true →
          a < v.vd.toNat * s.capC s.hart + e * s.hart.eb ∨ v.vd.toNat * s.capC s.hart + e * s.hart.eb + s.hart.eb ≤ a) →
        t.hart.vregs.get a = s.hart.vregs.get a) ∧
      (∀ b, b < 64 → t.hart.valid v.vd.toNat b =
        if b < s.hart.nblk ∧ (reads s).actives v.pg b ≠ [] then s.hart.valid v.vs2.toNat b && !isNan32 (scaleOfBlock s v b)
        else s.hart.valid v.vd.toNat b) ∧
      (∀ r, r < v.vd.toNat ∨ v.vd.toNat + s.hart.grp ≤ r → t.hart.masks.get r = s.hart.masks.get r)

/-- VCOMPRESS, the reductions and VFSCL, whose results depend on the whole register. -/
def Obligations.VectorWholeRegisterOperationsComplete : Prop := VcompressCompletes ∧ VectorReductionsComplete ∧ VfsclCompletes

/-! ## Vector memory (R156 to R160, R353, R354, R373 to R377) -/

namespace Sys2Proof.Claims

/-- The present hart with other vector state: an access does not read it. -/
def sameView (h g : Hart) : Prop :=
  h = { g with
    vregs := h.vregs, masks := h.masks, vfflags := h.vfflags, sf := h.sf, vcbytes := h.vcbytes, convoy := h.convoy,
    freshConvoy := h.freshConvoy }

/-- An aligned read that succeeds and changes nothing, whatever the vector state: in M-mode of clean bytes; in U-mode of a page whose
A is set, or of live blocks of a scratchpad. -/
def readsAs (s : State) (w : Who) (va : Word) (n v : Nat) : Prop :=
  ∀ h, sameView h s.hart → (memRead w va n).run { s with hart := h } = .ok v { s with hart := h }

/-- The address of element `e` of an access with `mb` bytes an element (Table 07-6, R156, R154), the owner-table entry given; none
outside the tensor. -/
def vaddr (s : State) (m : MOp) (mb : Nat) (entry : Nat → Nat) (e : Nat) : Option Word :=
  match m.mode with
  | .rc r => some (s.hart.xr m.base + BitVec.ofNat 64 (e / s.hart.vl) * s.hart.xr r + BitVec.ofNat 64 (e % s.hart.vl * mb))
  | .es r => some (s.hart.xr m.base + BitVec.ofNat 64 e * s.hart.xr r)
  | .ix v => some (s.hart.xr m.base + sextN (8 * s.hart.eb) ((reads s).elem v e))
  | .td n =>
    let g := globalIndex (s.hart.td.get n.toNat) (s.hart.xr m.base).toNat s.hart.vl e
    if inTensor (s.hart.td.get n.toNat) g then some (descAddr (s.hart.td.get n.toNat) (fun _ => entry e) g) else none

/-- The owner-table entry of an element inside a tensor with OT = 1 reads as given (R154). -/
def ownerReads (s : State) (m : MOp) (entry : Nat → Nat) (e : Nat) : Prop :=
  ∀ n, m.mode = .td n →
    let d := s.hart.td.get n.toNat
    let g := globalIndex d (s.hart.xr m.base).toNat s.hart.vl e
    descOt d = true → inTensor d g = true →
    readsAs s (elemWho e) (s.hart.tdAddr.get n.toNat + 64 + BitVec.ofNat 64 (8 * (descPlace d g).1)) 8 (entry e)

/-- A load of Table 04-9: what was read at each element, none outside the tensor. -/
def loadLane (s : State) (m : MOp) (read : Nat → Option Nat) : Lane :=
  let enc := encOf s.hart m.mode
  let r e := match read e with
    | some v => loadConvert enc s.hart.etype s.hart.rm (mfcScale s.hart e) v
    | none => (0, 0)
  .mk .vmem m.c m.pg m.vd (indexRegs m.mode) s.hart.eb s.hart.eb (convertSuits enc s.hart) (fun _ => true)
    (fun e => .mk (r e).1 (r e).2 ((read e).isNone ||
      (scaleOk (mfcScale s.hart e) && (indexRegs m.mode).all fun v => (reads s).regValid v e))) false

/-- Element `e` of a load reads `read e`. -/
def loadReads (s : State) (m : MOp) (entry : Nat → Nat) (read : Nat → Option Nat) (e : Nat) : Prop :=
  ownerReads s m entry e ∧
  match vaddr s m (ebOf (encOf s.hart m.mode)) entry e with
  | none => read e = none
  | some va => ∃ v, read e = some v ∧ readsAs s (elemWho e) va (ebOf (encOf s.hart m.mode)) v

end Sys2Proof.Claims

/-- VLD (R156 to R159, R373, R375) in all four modes completes where each active element can be read: it converts, scales and rounds
each, gives zeros outside the tensor, and leaves what `Lane.Left` says. An element whose read traps is trapped at with VXI its number,
the elements below it written and no other. -/
def Sys2Proof.Claims.VectorLoadsComplete : Prop :=
  (∀ m s entry read, (loadLane s m read).passes s → undisturbed s.hart →
    (∀ e, (loadLane s m read).acts s.hart e → loadReads s m entry read e) →
    ∃ t, exec (.vld m) s = .next t ∧ (loadLane s m read).Left s t) ∧
  (∀ m s entry read k va tr, (loadLane s m read).passes s → undisturbed s.hart → (loadLane s m read).acts s.hart k →
    (∀ e, e < k → (loadLane s m read).acts s.hart e → loadReads s m entry read e) →
    ownerReads s m entry k → vaddr s m (ebOf (encOf s.hart m.mode)) entry k = some va →
    (∀ h, sameView h s.hart → (memRead (elemWho k) va (ebOf (encOf s.hart m.mode))).run { s with hart := h } =
      .error (.trap tr) { s with hart := h }) →
    tr.elem = k ∧ ∃ u, exec (.vld m) s = .next (deliver tr u) ∧ ((loadLane s m read).upto k).Wrote s u ∧
      u = { s with hart := u.hart } ∧
      u.hart = { joined .vmem m.c s.hart with vregs := u.hart.vregs, masks := u.hart.masks, vfflags := u.hart.vfflags })

/-- VLDC (R160, R376): a compressed stream at an even base, resumed at a group of 16. With the groups below `last` read, and the next one,
where the shape has room for it, past the byte budget, it completes: each element of the groups from VXI's on is its converted value
where its mask bit is set, else zero; VCBYTES holds the bytes used and the elements done; elements from 16 `last` on stay. An odd base
raises cause 4. -/
def Sys2Proof.Claims.VldcCompletes : Prop :=
  (∀ (m : MOp) (rb : BitVec 5) (s : State) (mask : Nat → Nat) (value : Nat → Nat) (used : Nat → Nat) (first last : Nat),
    m.mode = .rc rb → checked s .vmem m.c m.vd m.vd (convertSuits s.hart.menc s.hart) → undisturbed s.hart → s.hart.skipped = [] →
    s.hart.vxi = 16 * first → first ≤ last → 16 * last ≤ s.hart.nel → s.hart.nel ≤ 8192 → (s.hart.xr m.base).toNat % 2 = 0 →
    (∀ q, mask q < 2 ^ 16) → used 0 = 0 → (∀ q, used (q + 1) = used q + 2 + popcount 16 (mask q) * ebOf s.hart.menc) →
    (∀ q, q < last → used (q + 1) ≤ (s.hart.xr rb).toNat) →
    (16 * (last + 1) ≤ s.hart.nel → (s.hart.xr rb).toNat < used (last + 1)) →
    (∀ h q e, sameView h s.hart → (q < last ∨ 16 * (last + 1) ≤ s.hart.nel ∧ q = last) →
      (streamRead e (s.hart.xr m.base + BitVec.ofNat 64 (used q)) 2).run { s with hart := h } =
        .ok (mask q, false) { s with hart := h }) →
    (∀ h q k, sameView h s.hart → q < last → k < 16 → (mask q).testBit k = true →
      (streamRead q (s.hart.xr m.base + BitVec.ofNat 64 (used q + 2 + popcount k (mask q) * ebOf s.hart.menc)) (ebOf s.hart.menc)).run
        { s with hart := h } = .ok (value (16 * q + k), false) { s with hart := h }) →
    ∃ t, exec (.vldc m) s = .next t ∧ t = { s with hart := t.hart, freeCtr := t.freeCtr } ∧
      t.hart = (past { joined .vmem m.c s.hart with
        vregs := t.hart.vregs, masks := t.hart.masks, vfflags := t.hart.vfflags,
        vcbytes := BitVec.ofNat 64 (used last % 2 ^ 32 + 16 * last % 2 ^ 16 * 2 ^ 32), vxi := 0, skipped := [],
        rotation := s.hart.rotation + 1 }).retire ∧
      (∀ e, 16 * first ≤ e → e < 16 * last → t.hart.elemAt (s.capC s.hart) m.vd.toNat s.hart.eb e =
        (if (mask (e / 16)).testBit (e % 16) then
          (loadConvert s.hart.menc s.hart.etype s.hart.rm (mfcScale s.hart e) (value e)).1 else 0) % 2 ^ (8 * s.hart.eb)) ∧
      (∀ a, a < m.vd.toNat * s.capC s.hart + 16 * first * s.hart.eb ∨ m.vd.toNat * s.capC s.hart + 16 * last * s.hart.eb ≤ a →
        t.hart.vregs.get a = s.hart.vregs.get a) ∧
      ∀ v, v < m.vd.toNat ∨ m.vd.toNat + s.hart.grp ≤ v → t.hart.masks.get v = s.hart.masks.get v) ∧
  (∀ (m : MOp) (s : State), checked s .vmem m.c m.vd m.vd (convertSuits s.hart.menc s.hart) → (s.hart.xr m.base).toNat % 2 = 1 →
    ∃ u tr, exec (.vldc m) s = .next (deliver tr u) ∧ tr.cause = 4 ∧ tr.addr = some (s.hart.xr m.base) ∧ tr.elem = 0 ∧
      u = { s with hart := joined .vmem m.c s.hart })

namespace Sys2Proof.Claims

/-- A store of `n` elements or blocks from `k` up: bytes of each, which are performed, the address and the value of each. -/
structure Stores where
  first : Nat
  n : Nat
  size : Nat
  acts : Nat → Prop
  addr : Nat → Option Word
  val : Nat → Nat

/-- Does element `e` store to the byte at `a`? -/
def Stores.covers (S : Stores) (e a : Nat) : Prop :=
  S.first ≤ e ∧ e < S.n ∧ S.acts e ∧ ∃ va, S.addr e = some va ∧ va.toNat ≤ a ∧ a < va.toNat + S.size

/-- Bare M-mode memory that every element can be stored to. -/
def Stores.storable (S : Stores) (s : State) : Prop :=
  bare s ∧ s.memOk ∧
  ∀ e va, S.first ≤ e → e < S.n → S.acts e → S.addr e = some va →
    va.toNat % S.size = 0 ∧ va.toNat + S.size ≤ s.physLimit ∧ cleanBytes s va.toNat S.size

/-- Memory afterwards: each byte holds what the last element that stores to it put there, and a byte that none stores to is as it was. -/
def Stores.Stored (S : Stores) (s t : State) : Prop :=
  t.memOk ∧
  (∀ e va i, S.first ≤ e → e < S.n → S.acts e → S.addr e = some va → i < S.size →
    (∀ e', e < e' → ¬ S.covers e' (va.toNat + i)) →
    Memory.get t.mem (va.toNat + i) = (toBytes S.size (S.val e)).getD i 0) ∧
  ∀ a, (∀ e, ¬ S.covers e a) → Memory.get t.mem a = Memory.get s.mem a

/-- All but memory, the vector flags, VXI, the convoy, the pc, the counters and load reservations is as it was. -/
def storeFrame (c : Bool) (s t : State) : Prop :=
  t = { s with hart := t.hart, mem := t.mem, others := t.others, freeCtr := t.freeCtr } ∧
  t.hart = (past { joined .vmem c s.hart with
    vfflags := t.hart.vfflags, reservation := t.hart.reservation, vxi := 0, skipped := [], rotation := s.hart.rotation + 1 }).retire ∧
  t.others.map (fun h => { h with reservation := none }) = s.others.map (fun h => { h with reservation := none })

/-- What an element of a store gives memory, with its flags (R374): zero and IB for a block that is not valid (R122), else the element
converted for memory. -/
def stored (s : State) (m : MOp) (e : Nat) : Nat × FlagSet :=
  if (reads s).regValid m.vd e then
    storeConvert s.hart.etype (encOf s.hart m.mode) s.hart.rm (mfcScale s.hart e) ((reads s).elem m.vd e)
  else (0, flIB)

/-- A vector store. -/
def vstStores (s : State) (m : MOp) (entry : Nat → Nat) : Stores :=
  .mk s.hart.vxi s.hart.nel (ebOf (encOf s.hart m.mode)) (fun e => s.hart.active m.pg e = true)
    (vaddr s m (ebOf (encOf s.hart m.mode)) entry) (fun e => (stored s m e).1)

/-- An access made in its turn: from `s` it leaves `u`, whatever the vector state, which it does not touch. -/
def accessed (x : Op Unit) (s u : State) : Prop :=
  u.hart = { s.hart with pool := u.hart.pool, reservation := u.hart.reservation, vpoiscnt := u.hart.vpoiscnt } ∧
  ∀ h, sameView h s.hart → x.run { s with hart := h } = .ok () { u with hart := { h with
    pool := u.hart.pool, reservation := u.hart.reservation, vpoiscnt := u.hart.vpoiscnt } }

/-- An access that traps in its turn, and what it leaves: a leaf's A and D may be set, an answer that was waited for is over. -/
def accessTraps (x : Op Unit) (tr : Trap) (s u : State) : Prop :=
  ∀ h, sameView h s.hart → x.run { s with hart := h } = .error (.trap tr) { u with hart := { h with
    remoteFault := u.hart.remoteFault } }

/-- `n` elements from `e` up act in ascending order, each as `does` says, from `s` to `t`. -/
def inTurn (does : Nat → State → State → Prop) : Nat → Nat → State → State → Prop
  | 0, _, s, t => t = s
  | n + 1, e, s, t => ∃ u, does e s u ∧ inTurn does n (e + 1) u t

/-- What element `e` of a store does in its turn: an active one inside the tensor writes its value at its address (`memWrite`, for whose
effect see `AccessesOfMemory`), in any mode; `s` is the state in which the instruction began. -/
def storeDoes (s : State) (m : MOp) (entry : Nat → Nat) (e : Nat) (u v : State) : Prop :=
  if s.hart.active m.pg e = true then ownerReads u m entry e ∧ match vaddr s m (ebOf (encOf s.hart m.mode)) entry e with
    | none => v = u
    | some va => accessed (memWrite (elemWho e) va (ebOf (encOf s.hart m.mode)) (stored s m e).1) u v
  else v = u

/-- Nothing that the present hart reaches is poisoned. -/
def unpoisoned (s : State) : Prop := ∀ l, s.poisonSub l = none

/-- The flags of a store whose elements from VXI's to below `k` were written. -/
def storeFlags (s : State) (m : MOp) (entry : Nat → Nat) (k : Nat) (fl : Word) : Prop :=
  ∀ b, fl.getLsbD b = true ↔ s.hart.vfflags.getLsbD b = true ∨
    ∃ e, s.hart.vxi ≤ e ∧ e < k ∧ s.hart.active m.pg e = true ∧
      (vaddr s m (ebOf (encOf s.hart m.mode)) entry e).isSome = true ∧ (stored s m e).2.getLsbD b = true

/-- The hart after a vector memory instruction that wrote no register: what it left of `h` for its accesses, and its flags. -/
def storeDone (c : Bool) (h : Hart) (fl : Word) : Hart :=
  (past { joined .vmem c h with vfflags := fl, vxi := 0, skipped := [], rotation := h.rotation + 1 }).retire

/-- The checks of Table 04-13 that a vector memory instruction on these groups passes, when nothing of the environment falls into it. -/
def vmemPasses (s : State) (c : Bool) (regs : List (BitVec 5)) (suits : Prop) : Prop :=
  (∀ r ∈ regs, r.toNat % s.hart.grp = 0 ∧ r.toNat + s.hart.grp ≤ s.nvreg s.hart) ∧
  s.hart.nel * s.hart.eb ≤ s.hart.grp * s.capC s.hart ∧ suits ∧ joins .vmem c s.hart ∧ undisturbed s.hart

/-- The owner-table entries of a tensor with OT = 1 (R154), in clean memory that the store leaves alone. -/
def tableHolds (s : State) (m : MOp) (entry : Nat → Nat) (S : Stores) : Prop :=
  ∀ n e, m.mode = .td n → descOt (s.hart.td.get n.toNat) = true → S.first ≤ e → e < S.n → S.acts e →
    let g := globalIndex (s.hart.td.get n.toNat) (s.hart.xr m.base).toNat s.hart.vl e
    let a := (s.hart.tdAddr.get n.toNat + 64 + BitVec.ofNat 64 (8 * (descPlace (s.hart.td.get n.toNat) g).1)).toNat
    inTensor (s.hart.td.get n.toNat) g = true →
    a % 8 = 0 ∧ a + 8 ≤ s.physLimit ∧ cleanBytes s a 8 ∧ ofBytes (Memory.read s.mem a 8) = entry e ∧
      ∀ e' i, i < 8 → ¬ S.covers e' (a + i)

end Sys2Proof.Claims

/-- VST and VSSC (R374, R377, R122) from bare M-mode complete: every active element's bytes are stored at its address, in ascending
order, every other byte of memory stays; an element of a block that is not valid stores zeros and sets IB; no register of the hart
changes but VFFLAGS and VXI. An owner table is apart from the bytes stored. -/
def Sys2Proof.Claims.BareStoresComplete : Prop :=
  (∀ m s entry, let S := vstStores s m entry
    (∀ r ∈ m.vd :: indexRegs m.mode, r.toNat % s.hart.grp = 0 ∧ r.toNat + s.hart.grp ≤ s.nvreg s.hart) →
    s.hart.nel * s.hart.eb ≤ s.hart.grp * s.capC s.hart → convertSuits (encOf s.hart m.mode) s.hart = true →
    joins .vmem m.c s.hart → undisturbed s.hart → S.storable s → tableHolds s m entry S →
    ∃ t, exec (.vst m) s = .next t ∧ storeFrame m.c s t ∧ S.Stored s t ∧
      ∀ k, t.hart.vfflags.getLsbD k = true ↔ s.hart.vfflags.getLsbD k = true ∨
        ∃ e, S.first ≤ e ∧ e < S.n ∧ S.acts e ∧ (S.addr e).isSome = true ∧ (stored s m e).2.getLsbD k = true) ∧
  (∀ (m : SOp) (s : State),
    let S : Stores := .mk s.hart.vxi s.hart.nblk 4 (fun b => s.hart.active m.pg b = true)
      (fun b => some (s.hart.xr m.base + BitVec.ofNat 64 b * s.hart.xr m.stride))
      (fun b => (s.hart.sf.get (8 * m.n8.toNat + b)).toNat)
    s.hart.nel * s.hart.eb ≤ s.hart.grp * s.capC s.hart → 8 * m.n8.toNat + s.hart.nblk ≤ 256 →
    joins .vmem m.c s.hart → undisturbed s.hart → S.storable s →
    ∃ t, exec (.vssc m) s = .next t ∧ storeFrame m.c s t ∧ S.Stored s t ∧ t.hart.vfflags = s.hart.vfflags)

/-- VST and VSSC (R374, R377) in every mode, of memory through translation and of the scratchpads: where every element's write succeeds
in its turn, the instruction leaves what the writes leave, with its flags. Where the write of an element traps, the elements below it are
written and no other, and the trap is taken with VXI its number. -/
def Sys2Proof.Claims.StoresInTurn : Prop :=
  (∀ m s entry u, vmemPasses s m.c (m.vd :: indexRegs m.mode) (convertSuits (encOf s.hart m.mode) s.hart = true) → unpoisoned s →
    inTurn (storeDoes s m entry) (s.hart.nel - s.hart.vxi) s.hart.vxi s u →
    ∃ fl, exec (.vst m) s = .next { u with hart := storeDone m.c u.hart fl } ∧ storeFlags s m entry s.hart.nel fl) ∧
  (∀ m s entry u v k va tr, vmemPasses s m.c (m.vd :: indexRegs m.mode) (convertSuits (encOf s.hart m.mode) s.hart = true) →
    unpoisoned s → s.hart.vxi ≤ k → k < s.hart.nel → s.hart.active m.pg k = true →
    inTurn (storeDoes s m entry) (k - s.hart.vxi) s.hart.vxi s u → ownerReads u m entry k →
    vaddr s m (ebOf (encOf s.hart m.mode)) entry k = some va →
    accessTraps (memWrite (elemWho k) va (ebOf (encOf s.hart m.mode)) (stored s m k).1) tr u v →
    tr.elem = k ∧ ∃ fl, storeFlags s m entry k fl ∧ exec (.vst m) s = .next (deliver tr { v with hart := { joined .vmem m.c u.hart with
      vfflags := fl, remoteFault := v.hart.remoteFault } })) ∧
  ∀ (m : SOp) (s : State),
    let word (b : Nat) : Op Unit := memWrite (elemWho b) (s.hart.xr m.base + BitVec.ofNat 64 b * s.hart.xr m.stride) 4
      (s.hart.sf.get (8 * m.n8.toNat + b)).toNat
    let does (b : Nat) (u v : State) : Prop := if s.hart.active m.pg b = true then accessed (word b) u v else v = u
    vmemPasses s m.c [] (8 * m.n8.toNat + s.hart.nblk ≤ 256) → unpoisoned s →
    (∀ u, inTurn does (s.hart.nblk - s.hart.vxi) s.hart.vxi s u →
      exec (.vssc m) s = .next { u with hart := storeDone m.c u.hart s.hart.vfflags }) ∧
    (∀ u v k tr, s.hart.vxi ≤ k → k < s.hart.nblk → s.hart.active m.pg k = true →
      inTurn does (k - s.hart.vxi) s.hart.vxi s u → accessTraps (word k) tr u v →
      tr.elem = k ∧ exec (.vssc m) s = .next (deliver tr { v with hart := { joined .vmem m.c u.hart with
        remoteFault := v.hart.remoteFault } }))

/-- The vector stores: from bare M-mode, with what memory then holds; in every mode, element by element; and where an element traps. -/
def Obligations.VectorStoresComplete : Prop := BareStoresComplete ∧ StoresInTurn

/-- VLSC (R377) completes where each active block's word can be read: the scale registers from 8 × its field take them, all else stays. -/
def Sys2Proof.Claims.VlscCompletes : Prop :=
  ∀ (m : SOp) (s : State) (v : Nat → Nat),
    s.hart.nel * s.hart.eb ≤ s.hart.grp * s.capC s.hart → 8 * m.n8.toNat + s.hart.nblk ≤ 256 →
    joins .vmem m.c s.hart → undisturbed s.hart →
    (∀ b, s.hart.vxi ≤ b → b < s.hart.nblk → s.hart.active m.pg b = true →
      readsAs s (elemWho b) (s.hart.xr m.base + BitVec.ofNat 64 b * s.hart.xr m.stride) 4 (v b)) →
    ∃ t, exec (.vlsc m) s = .next t ∧ t = { s with hart := t.hart } ∧
      t.hart = (past { joined .vmem m.c s.hart with
        sf := t.hart.sf, vxi := 0, skipped := [], rotation := s.hart.rotation + 1 }).retire ∧
      ∀ n, t.hart.sf.get n =
        if 8 * m.n8.toNat + s.hart.vxi ≤ n ∧ n < 8 * m.n8.toNat + s.hart.nblk ∧ s.hart.active m.pg (n - 8 * m.n8.toNat) = true
        then BitVec.ofNat 32 (v (n - 8 * m.n8.toNat)) else s.hart.sf.get n

/-- The vector loads: VLD, VLDC and VLSC. -/
def Obligations.VectorLoadsOfMemoryComplete : Prop := VectorLoadsComplete ∧ VldcCompletes ∧ VlscCompletes

namespace Sys2Proof.Claims

/-- The vector atomics (R353). -/
def vamoOf : Instr → Option (MOp × VAmo)
  | .vamoadd m => some (m, .add)
  | .vamomax m => some (m, .max)
  | .vamomin m => some (m, .min)
  | _ => none

end Sys2Proof.Claims

/-- VAMOADD, VAMOMAX and VAMOMIN (R353, R354) from bare M-mode complete: each active element of a valid block performs its operation at
its address, an element of an invalid block only sets IB; a byte that no element's operation reaches stays, and where one element alone
reaches its bytes they become op(old, element); no register but VFFLAGS and VXI changes. -/
def Sys2Proof.Claims.BareVectorAtomicsComplete : Prop :=
  ∀ i m a s entry, vamoOf i = some (m, a) → (∀ n, m.mode ≠ .td n) →
    let S : Stores := .mk s.hart.vxi s.hart.nel s.hart.eb (fun e => s.hart.active m.pg e = true ∧ (reads s).regValid m.vd e = true)
      (vaddr s m s.hart.eb entry) (fun _ => 0)
    (∀ r ∈ m.vd :: indexRegs m.mode, r.toNat % s.hart.grp = 0 ∧ r.toNat + s.hart.grp ≤ s.nvreg s.hart) →
    s.hart.nel * s.hart.eb ≤ s.hart.grp * s.capC s.hart → s.hart.menc = s.hart.etype → s.hart.scl = false →
    joins .vmem m.c s.hart → undisturbed s.hart → S.storable s →
    ∃ t, exec i s = .next t ∧ storeFrame m.c s t ∧ t.memOk ∧
      (∀ b, (∀ e, ¬ S.covers e b) → Memory.get t.mem b = Memory.get s.mem b) ∧
      (∀ e va, S.first ≤ e → e < S.n → S.acts e → S.addr e = some va →
        (∀ e' b, e' ≠ e → va.toNat ≤ b → b < va.toNat + s.hart.eb → ¬ S.covers e' b) →
        Memory.read t.mem va.toNat s.hart.eb =
          toBytes s.hart.eb (vamoOp a s.hart.etype (ofBytes (Memory.read s.mem va.toNat s.hart.eb)) ((reads s).elem m.vd e))) ∧
      ((∃ e, s.hart.vxi ≤ e ∧ e < s.hart.nel ∧ s.hart.active m.pg e = true ∧ (reads s).regValid m.vd e = false) →
        t.hart.vfflags = s.hart.vfflags ||| flIB.setWidth 64) ∧
      ((∀ e, s.hart.vxi ≤ e → e < s.hart.nel → s.hart.active m.pg e = true → (reads s).regValid m.vd e = true) →
        t.hart.vfflags = s.hart.vfflags)

namespace Sys2Proof.Claims

/-- The operation of element `e` of a vector atomic, its old value dropped. -/
def vamoAt (s : State) (m : MOp) (a : VAmo) (e : Nat) (va : Word) : Op Unit :=
  discard (memAmo (streamWho e) va s.hart.eb fun old => vamoOp a s.hart.etype old ((reads s).elem m.vd e))

/-- What element `e` of a vector atomic does in its turn: nothing to memory where it is inactive or its block is not valid. -/
def vamoDoes (s : State) (m : MOp) (a : VAmo) (e : Nat) (u v : State) : Prop :=
  if s.hart.active m.pg e = true ∧ (reads s).regValid m.vd e = true then
    ∃ va, vaddr s m s.hart.eb (fun _ => 0) e = some va ∧ accessed (vamoAt s m a e va) u v
  else v = u

/-- IB where an active element below `k` is of a block that is not valid. -/
def vamoFlags (s : State) (m : MOp) (k : Nat) (fl : Word) : Prop :=
  ((∃ e, s.hart.vxi ≤ e ∧ e < k ∧ s.hart.active m.pg e = true ∧ (reads s).regValid m.vd e = false) →
    fl = s.hart.vfflags ||| flIB.setWidth 64) ∧
  ((∀ e, s.hart.vxi ≤ e → e < k → s.hart.active m.pg e = true → (reads s).regValid m.vd e = true) → fl = s.hart.vfflags)

end Sys2Proof.Claims

/-- The vector atomics (R353, R354) in every mode, of memory through translation and of the scratchpads: where each element's operation
(`memAmo`, for whose effect see `ScalarAtomicsComplete`) succeeds in its turn, the instruction leaves what they leave; where one traps,
the elements below it are done and no other, and the trap is taken with VXI its number. -/
def Sys2Proof.Claims.VectorAtomicsInTurn : Prop :=
  ∀ i m a s, vamoOf i = some (m, a) → (∀ n, m.mode ≠ .td n) →
    vmemPasses s m.c (m.vd :: indexRegs m.mode) (s.hart.menc = s.hart.etype ∧ s.hart.scl = false) →
    (∀ u, inTurn (vamoDoes s m a) (s.hart.nel - s.hart.vxi) s.hart.vxi s u →
      ∃ fl, exec i s = .next { u with hart := storeDone m.c u.hart fl } ∧ vamoFlags s m s.hart.nel fl) ∧
    (∀ u v k va tr, s.hart.vxi ≤ k → k < s.hart.nel → s.hart.active m.pg k = true → (reads s).regValid m.vd k = true →
      inTurn (vamoDoes s m a) (k - s.hart.vxi) s.hart.vxi s u → vaddr s m s.hart.eb (fun _ => 0) k = some va →
      accessTraps (vamoAt s m a k va) tr u v →
      tr.elem = k ∧ ∃ fl, vamoFlags s m k fl ∧ exec i s = .next (deliver tr { v with hart := { joined .vmem m.c u.hart with
        vfflags := fl, remoteFault := v.hart.remoteFault } }))

/-- The vector atomics: from bare M-mode, with what memory then holds; in every mode, element by element; and where an element traps. -/
def Obligations.VectorAtomicsComplete : Prop := BareVectorAtomicsComplete ∧ VectorAtomicsInTurn

/-! ## Shape, type, clauses (R36, R44 to R49, R131) -/

/-- VSHAPE (R36, R131, R384) completes in every state without a pending request, and inside a hook (R257): ROWS is the largest power of two that neither the
request nor 16 is below; VL is the least of the request, what the group holds, and 8,192 ÷ ROWS, and goes to the destination; k banks
move from the scalar L1 to the register file, the smallest number that makes the request fit, else that reaches the largest capacity
allowed; vector registers, predicates, scales and masks are undefined, and so are the tensor descriptors (DEDUCED log 41). A pending
request is taken before it outside a hook. -/
def Sys2Proof.Claims.VshapeCompletes : Prop :=
  (∀ rd rs1 rs2 s, (s.hart.requestPending = false ∨ s.hart.hookSave.isSome = true) → ∃ t k rows,
    exec (.vshape rd rs1 rs2) s = .next t ∧
    let h := s.hart
    let room j := h.grp * capacity (s.nvreg h) (h.vbanks + j)
    let need := (h.xr rs2).toNat * rows * h.eb
    let limit := min (h.vmax - h.vbanks) (h.cbanks - 1)
    let vl := min (h.xr rs2).toNat (min (room k / (rows * h.eb)) (8192 / rows))
    rows ∈ [1, 2, 4, 8, 16] ∧ rows ≤ max 1 (h.xr rs1).toNat ∧ (rows = 16 ∨ max 1 (h.xr rs1).toNat < 2 * rows) ∧
    k ≤ limit ∧
    (need ≤ room k ∧ (∀ j, j < k → room j < need) ∨
      (∀ j, j ≤ limit → room j < need) ∧ room k = room limit ∧ ∀ j, j < k → room j ≠ room limit) ∧
    t.hart.rows = rows ∧ t.hart.vl = vl ∧ (rd ≠ 0 → t.hart.xr rd = BitVec.ofNat 64 vl) ∧
    (∀ r, r ≠ rd → t.hart.xr r = h.xr r) ∧ t.hart.vbanks = h.vbanks + k ∧ t.hart.cbanks = h.cbanks - k ∧
    t.hart.sbanks = h.sbanks ∧ t.hart.vmax = h.vmax ∧
    (∃ n m, t.hart.vregs = .undef n ∧ t.hart.preds = .undef n ∧ t.hart.sf = .undef n ∧ t.hart.masks = .undef n ∧
      t.hart.td = .undef m ∧ t.hart.tdAddr = .undef m) ∧
    t = { s with hart := t.hart, freeCtr := t.freeCtr } ∧
    t.hart = (past { h with
      x := t.hart.x, poolv := t.hart.poolv, poolc := t.hart.poolc, pools := t.hart.pools, vshp := t.hart.vshp, vxi := 0,
      freshConvoy := true, vregs := t.hart.vregs, preds := t.hart.preds, sf := t.hart.sf, masks := t.hart.masks, td := t.hart.td,
      tdAddr := t.hart.tdAddr }).retire) ∧
  (∀ rd rs1 rs2 s, s.hart.requestPending = true → s.hart.hookSave = none →
    exec (.vshape rd rs1 rs2) s = .next (preempt false false s.hart.pc 0 s))

/-- VSETT (R382, R383) completes with a value that sets only defined bits to defined values: VTYPE takes it, rd the old VTYPE, a convoy
starts, the masks become undefined when GRP or BLK changes; any other value raises illegal instruction and changes nothing. -/
def Sys2Proof.Claims.VsettCompletes : Prop :=
  (∀ rd rs1 s, s.hart.xr rs1 &&& ~~~ 0x1FDF#64 = 0 → vtypeOk (s.hart.xr rs1) = true →
    ∃ t, exec (.vsett rd rs1) s = .next t ∧ t = { s with hart := t.hart, freeCtr := t.freeCtr } ∧
      t.hart = (past (({ s.hart with vtype := s.hart.xr rs1, freshConvoy := true, masks := t.hart.masks } : Hart).setX rd
        s.hart.vtype)).retire ∧
      t.hart.masks = if bits (s.hart.xr rs1) 6 4 = s.hart.blkLog ∧ bits (s.hart.xr rs1) 0 2 = bits s.hart.vtype 0 2
        then s.hart.masks else .undef s.freeCtr) ∧
  (∀ rd rs1 s, (s.hart.xr rs1 &&& ~~~ 0x1FDF#64 ≠ 0 ∨ vtypeOk (s.hart.xr rs1) = false) →
    exec (.vsett rd rs1) s = .next (deliver { cause := 2 } s))

/-- VSHAPE and VSETT; the check of a shape against the new VTYPE at the next vector instruction (R37) is in the statements about
those. -/
def Obligations.VectorShapeComplete : Prop := VshapeCompletes ∧ VsettCompletes

namespace Sys2Proof.Claims

/-- An advance bit falls on an indexed or tensor-descriptor access (R45). -/
def advanceMisplaced (mask : Word) (is : List Instr) : Prop :=
  ∃ k i m, is[k]? = some i ∧ mopOf i = some m ∧ bitAt mask k = true ∧ ((∃ v, m.mode = .ix v) ∨ ∃ n, m.mode = .td n)

/-- Table 02-4: the bytes by which the base of a body word moves after the pass, `b` its captured pitch or stride. -/
def baseAdvance (h : Hart) (b : Word) : Instr → Word
  | .vld m | .vst m | .vamoadd m | .vamomax m | .vamomin m => match m.mode with
    | .rc _ => BitVec.ofNat 64 h.rows * b
    | .es _ => BitVec.ofNat 64 (h.rows * h.vl) * b
    | _ => 0
  | .vldc _ => BitVec.ofNat 64 (bits h.vcbytes 0 32)
  | .vlsc _ | .vssc _ => BitVec.ofNat 64 h.nblk * b
  | _ => 0

/-- The hart at body word `k` of a clause: its own address and word; the first word of a pass starts a convoy (R312). -/
def atWord (c : Clause) (o : ClauseOp) (k : Nat) (s : State) : State :=
  { s with hart := { s.hart with
    pc := c.pc + BitVec.ofNat 64 (4 * k), ir := o.word, freshConvoy := s.hart.freshConvoy || decide (k = 0) } }

/-- After body word `k`: its base has moved where its advance bit is set, minstret has counted it. -/
def wordDone (c : Clause) (o : ClauseOp) (i : Instr) (k : Nat) (u : State) : State :=
  { u with hart := ({ u.hart with clause := u.hart.clause.map fun d => { d with
    ops := d.ops.modify k fun p => { p with a := p.a + if bitAt c.mask k = true then baseAdvance u.hart o.b i else 0 }
    cur := k + 1 } } : Hart).retire }

/-- Body words from `k` on execute in order, each the effect of its instruction on its captured operands (R46). -/
def wordsRun (c : Clause) : List ClauseOp → Nat → State → State → Prop
  | [], _, s, t => t = s
  | o :: os, k, s, t => ∃ i f u, decodeWordOf o.word = some i ∧ vbody i = some f ∧
      (f (.mk o.a o.b)).run (atWord c o k s) = .ok () u ∧ wordsRun c os (k + 1) (wordDone c o i k u) t

/-- The clause as a pass takes it: operands that CLPUTs put in force from a pass that begins now (R47). -/
def passClause (c : Clause) : Clause := if c.begun = true then c else c.applyPuts

/-- The state in which a pass goes on, in the mode of its CLAUSE (R106): it has begun, and the scalar core would go on at `cont` in its
own mode. A pass of another mode meets no mismatch of the environment's (DESIGN CHOICE log 48). -/
def passState (c : Clause) (cont : Word) (s : State) : State :=
  { s with hart := { s.hart with
    mode := c.mode, upsets := if s.hart.mode = c.mode then s.hart.upsets else []
    clause := some { passClause c with begun := true, stopped := some cont, heldIn := s.hart.mode } } }

/-- The scalar core's own mode again, after words that ran from `s` to `t`. -/
def backFrom (c : Clause) (s t : State) : State :=
  { t with hart := { t.hart with
    mode := s.hart.mode, upsets := if s.hart.mode = c.mode then t.hart.upsets else s.hart.upsets ++ t.hart.upsets } }

/-- The state after a whole pass: it counts as completed, and the scalar core stands at `cont`. A fence that passed the clause starts
a convoy behind it. -/
def passDone (cont : Word) (s t : State) : State :=
  let c' := t.hart.clause.map fun d => { d with done := d.done + 1, cur := 0, begun := false, stopped := none }
  { t with hart := { t.hart with
    clause := c', pc := cont, ir := s.hart.ir
    freshConvoy := t.hart.freshConvoy || (match c' with
      | some d => !decide (d.done < d.trips) && d.fenced
      | none => false) } }

end Sys2Proof.Claims

/-- CLAUSE (R44, R45, R310, R311) captures each body word with its operands, checks the advance mask, begins the clause with the trip
count and goes on behind the body. A misplaced advance bit raises illegal instruction at the CLAUSE; a body word that is no four-byte
vector or predicate instruction, or whose register groups are wrong, illegal instruction at its own address; a failing fetch of a body
word its cause with mepc at the CLAUSE and mtval at the word's address, a poisoned one POISON at the word. A body word has the effect
that the instruction has from the scalar core (R46). -/
def Sys2Proof.Claims.ClauseCaptures : Prop :=
  (∀ xm xt nm1 s u os, (captureWords s.hart.pc (nm1.toNat + 1) 0).run s = .ok os u → u.hart.x = s.hart.x → u.hart.pc = s.hart.pc →
    (¬ advanceMisplaced (s.hart.xr xm) (os.map (·.2)) → exec (.clause xm xt nm1) s = .next (onHart u { u.hart with
      clause := some (.mk (s.hart.pc + 4) (os.map (·.1)) (s.hart.xr xm) (bits (s.hart.xr xt) 0 32) 0 0 false [] none u.hart.mode u.hart.mode false)
      freshConvoy := decide (bits (s.hart.xr xt) 0 32 = 0)
      pc := s.hart.pc + 4 + BitVec.ofNat 64 (4 * (nm1.toNat + 1)) })) ∧
    (advanceMisplaced (s.hart.xr xm) (os.map (·.2)) → exec (.clause xm xt nm1) s = .next (deliver { cause := 2 } u))) ∧
  (∀ xm xt nm1 s u tr, (captureWords s.hart.pc (nm1.toNat + 1) 0).run s = .error (.trap tr) u →
    exec (.clause xm xt nm1) s = .next (deliver tr u)) ∧
  (∀ pc n k s, (captureWords pc 0 k).run s = .ok [] s ∧
    ∀ o u, (captureWord pc (pc + 4 + BitVec.ofNat 64 (4 * k))).run s = .ok o u →
      (∀ os v, (captureWords pc n (k + 1)).run u = .ok os v → (captureWords pc (n + 1) k).run s = .ok (o :: os) v) ∧
      ∀ e v, (captureWords pc n (k + 1)).run u = .error e v → (captureWords pc (n + 1) k).run s = .error e v) ∧
  (∀ pc n k s e u, (captureWord pc (pc + 4 + BitVec.ofNat 64 (4 * k))).run s = .error e u →
    (captureWords pc (n + 1) k).run s = .error e u) ∧
  (∀ cp va s u bs i rest, (fetchAt (s.fetchAccess s.hart.mode s.hart) va).run s = .ok bs u → decode bs = .ok (i, rest) →
    (captureWord cp va).run s =
      if bs.length = 4 ∧ (vbody i).isSome = true ∧ check4 (u.nvreg u.hart) u.hart.grp i = true then
        .ok (.mk (irOf bs) (captureOf i u.hart).a (captureOf i u.hart).b, i) u
      else .error (.trap { cause := 2, word := some (irOf bs), pc := some va }) u) ∧
  (∀ cp va s u bs r, (fetchAt (s.fetchAccess s.hart.mode s.hart) va).run s = .ok bs u → decode bs = .error r →
    (captureWord cp va).run s = .error (.trap { cause := 2, word := some (irOf bs), pc := some va }) u) ∧
  (∀ cp va s u tr, (fetchAt (s.fetchAccess s.hart.mode s.hart) va).run s = .error (.trap tr) u →
    (captureWord cp va).run s = .error (.trap (if tr.cause = 25 then { tr with pc := some va }
      else { tr with pc := some cp, addr := some va })) u) ∧
  (∀ i f s, vbody i = some f → exec i s = finish (do f (captureOf i s.hart); advance 4) s)

/-- The passes of a clause (R46, R47, R49, R106, R312, Table 02-4). A pass executes the body words in order from the one at which it
stands, in the mode of the CLAUSE, each on its captured operands, those in force that CLPUTs have named for the pass; bases advance; then
the pass counts. A word that traps
stops the clause there: the trap has the word's address, and the hart, when it comes back to that address, goes on with that pass. A step
in which the next instruction waits for the clause, or the hart stands at the word where it stopped, is one pass. -/
def Sys2Proof.Claims.ClausePasses : Prop :=
  (∀ s c cont t, s.hart.clause = some c →
    wordsRun (passClause c) ((passClause c).ops.drop c.cur) c.cur (passState c cont s) t →
    runPass cont s = .next (passDone cont s (backFrom c s t))) ∧
  (∀ s c cont done o os k v i f tr u, s.hart.clause = some c → (passClause c).ops.drop c.cur = done ++ o :: os →
    k = c.cur + done.length → wordsRun (passClause c) done c.cur (passState c cont s) v →
    decodeWordOf o.word = some i → vbody i = some f →
    (f (.mk o.a o.b)).run (atWord (passClause c) o k v) = .error (.trap tr) u →
    runPass cont s = .next (deliver tr (backFrom c s u))) ∧
  (∀ (c : Clause) (k : Nat) (o : ClauseOp), c.ops[k]? = some o → c.applyPuts.ops[k]? = some { o with
    a := match (c.puts.filter fun p => p.k = k ∧ p.pass ≤ c.done).getLast? with
      | some p => p.value
      | none => o.a }) ∧
  (∀ s u bs i rest, s.agenda = [] → s.status.fatal ≠ 1 → s.status.fatal ≠ 2 → s.hart.status = .running → s.forcedDue = false →
    s.hart.atStoppedClause = none →
    (fetchAt (s.fetchAccess s.hart.mode s.hart) s.hart.pc).run s = .ok bs u → decode bs = .ok (i, rest) →
    u.hart.clauseRuns = true → waitsForClause { u.hart with ir := irOf bs } i = true → u.hart.requestPending = false →
    step s = runPass u.hart.pc { u with hart := { u.hart with ir := irOf bs } }) ∧
  (∀ s c cont, s.agenda = [] → s.status.fatal ≠ 1 → s.status.fatal ≠ 2 → s.hart.status = .running → s.forcedDue = false →
    s.hart.clause = some c → s.hart.mode = c.heldIn → c.stopped = some cont → c.done < c.trips →
    s.hart.pc = c.pc + BitVec.ofNat 64 (4 * c.cur) → step s = runPass cont s)

/-- CLPUT and CLWAIT (R47, R48, R313, R314). CLPUT puts an operand in force from the first pass that has not begun, or answers all
ones; CLWAIT answers the passes done once enough are, and waits until then. -/
def Sys2Proof.Claims.ClputAndClwaitComplete : Prop :=
  (∀ rd rs1 rs2 s, (∀ c, putTarget s.hart (bits (s.hart.xr rs2) 0 5) = some c →
      exec (.clput rd rs1 rs2) s = .next (onHart s (past (({ s.hart with
        clause := some { c with
          puts := (c.puts.filter fun q => !(q.k = bits (s.hart.xr rs2) 0 5 && max (bits (s.hart.xr rs2) 32 32) c.firstFree ≤ q.pass)) ++
            [.mk (bits (s.hart.xr rs2) 0 5) (max (bits (s.hart.xr rs2) 32 32) c.firstFree) (s.hart.xr rs1)] } } : Hart).setX rd
          (BitVec.ofNat 64 (max (bits (s.hart.xr rs2) 32 32) c.firstFree)))))) ∧
    (putTarget s.hart (bits (s.hart.xr rs2) 0 5) = none →
      exec (.clput rd rs1 rs2) s = .next (onHart s (past (s.hart.setX rd 0xFFFFFFFF))))) ∧
  (∀ h k c, putTarget h k = some c ↔ h.clause = some c ∧ c.done < c.trips ∧
    ∃ o i, c.ops[k]? = some o ∧ decodeWordOf o.word = some i ∧ hasPutOperand i = true) ∧
  (∀ rd rs1 s, let done := (s.hart.clause.map (·.done)).getD 0
    ((∀ c, s.hart.clause = some c → c.trips ≤ c.done ∨ (s.hart.xr rs1).toNat ≤ c.done) →
      exec (.clwait rd rs1) s = .next (onHart s (past (s.hart.setX rd (BitVec.ofNat 64 done))))) ∧
    ((∃ c, s.hart.clause = some c ∧ c.done < c.trips ∧ c.done < (s.hart.xr rs1).toNat) → s.hart.requestPending = false →
      exec (.clwait rd rs1) s = .next s))

/-- CLAUSE, its passes, CLPUT and CLWAIT. -/
def Obligations.ClauseInstructionsComplete : Prop := ClauseCaptures ∧ ClausePasses ∧ ClputAndClwaitComplete

/-! ## Fences, barriers, descriptors (R155, R172 to R175, R304) -/

/-- The Celvin fences (R174, R319) and BAR (R175, R304). A fence starts a convoy, behind a clause that runs on, brings the lost writes of
the one agent into the other's view and moves on: that every access has been performed in order by then is the model's (DESIGN CHOICE
DESIGN CHOICE log 9). BAR with no launch moves on (DESIGN CHOICE log 17); in a launch, the hart that completes the generation moves every participant on, one that does
not waits; a count outside 1 to 4 raises illegal instruction, one unlike the open generation's ENGINE 1. -/
def Obligations.FencesAndBarComplete : Prop :=
  (∀ sc s, let h := past (if s.hart.clauseRuns = true
        then { s.hart with clause := s.hart.clause.map fun c => { c with fenced := true } } else { s.hart with freshConvoy := true })
    exec (.fenceSv sc) s = .next (onHart { s with lost := s.lost.map (fenceViews s.hart.id .scalar .vector) } h) ∧
    exec (.fenceVs sc) s = .next (onHart { s with lost := s.lost.map (fenceViews s.hart.id .vector .scalar) } h) ∧
    exec (.fenceVv sc) s = .next (onHart s h) ∧
    exec (.fenceAll sc) s = .next (onHart { s with
      lost := s.lost.map (fun l => fenceViews s.hart.id .vector .scalar (fenceViews s.hart.id .scalar .vector l)) } h)) ∧
  (∀ rs1 s, 1 ≤ (s.hart.xr rs1).toNat → (s.hart.xr rs1).toNat ≤ 4 → s.hart.job = none →
    exec (.bar rs1) s = .next (onHart s (past s.hart))) ∧
  (∀ rs1 s, ¬ (1 ≤ (s.hart.xr rs1).toNat ∧ (s.hart.xr rs1).toNat ≤ 4) →
    exec (.bar rs1) s = .next (deliver { cause := 2 } s)) ∧
  (∀ rs1 s j, 1 ≤ (s.hart.xr rs1).toNat → (s.hart.xr rs1).toNat ≤ 4 → s.hart.job = some j →
    let g := ((s.cluster s.hart.cluster).openGen j.launch).getD (.mk j.launch (s.hart.xr rs1).toNat [])
    let w := if s.hart.id ∈ g.waiting then g.waiting else g.waiting ++ [s.hart.id]
    (g.count ≠ (s.hart.xr rs1).toNat → exec (.bar rs1) s = .next (deliver { cause := 48, sub := 1 } s)) ∧
    (g.count = (s.hart.xr rs1).toNat →
      (g.count ≤ w.length ∨ s.allWait j.launch s.hart.cluster w = true) →
      ∃ t, exec (.bar rs1) s = .next t ∧ t = { s with hart := t.hart, others := t.others, clusters := t.clusters } ∧
        t.hart = (past s.hart).retire ∧
        t.others = s.others.map (fun h => if h.id ∈ w ∧ h.id ≠ s.hart.id then { h.retire with pc := h.pc + 4 } else h) ∧
        (t.cluster s.hart.cluster).openGen j.launch = none ∧
        ∀ c, c ≠ s.hart.cluster → t.cluster c = s.cluster c) ∧
    (g.count = (s.hart.xr rs1).toNat → w.length < g.count → s.allWait j.launch s.hart.cluster w = false →
      s.hart.requestPending = false → g.launch = j.launch →
      ∃ t, exec (.bar rs1) s = .next t ∧ t = { s with clusters := t.clusters } ∧
        (t.cluster s.hart.cluster).openGen j.launch = some { g with waiting := w }))

/-- TDLD (R155, R348): a descriptor read whole from an address of 64-byte alignment goes to its register with the address; one whose
fields break R155 raises ENGINE 1 (its UNIT, 0, is DESIGN CHOICE log 48), another alignment cause 4, and both leave the registers
alone. -/
def Sys2Proof.Claims.TdldCompletes : Prop :=
  (∀ td rs1 s u d, (s.hart.xr rs1).toNat % 64 = 0 → (readDesc { unit := 2 } (s.hart.xr rs1)).run s = .ok d u →
    (descOk d = true → exec (.tdld td rs1) s = .next (onHart u (past { u.hart with
      td := u.hart.td.set td.toNat d, tdAddr := u.hart.tdAddr.set td.toNat (s.hart.xr rs1) }))) ∧
    (descOk d = false → exec (.tdld td rs1) s = .next (deliver { cause := 48, sub := 1, addr := some (s.hart.xr rs1) }
      { u with hart := { u.hart with vpoiscnt := s.hart.vpoiscnt } }))) ∧
  (∀ td rs1 s, (s.hart.xr rs1).toNat % 64 ≠ 0 → exec (.tdld td rs1) s = .next (deliver
    { cause := 4, addr := some (s.hart.xr rs1), unit := 2 } s))

/-! ## Scratchpads and rings (R134 to R142, R146, R167, R168) -/

namespace Sys2Proof.Claims

/-- The scratchpad's tables are in order. -/
def padsSorted (s : State) : Prop :=
  (∀ id, Tab.sorted (s.hartOf id).pool = true) ∧ ∀ c, Tab.sorted (s.cluster c).spad = true

end Sys2Proof.Claims

/-- SPALLOC, SPFREE, RENEW, SPAGE (R140 to R142, R341 to R343). On a range of whole blocks within one window SPALLOC and SPFREE make its
blocks unwritten and leave every other block; that a block keeps the poison of its sectors is the model's choice (`Block.freed`, DESIGN
CHOICE log 46); RENEW queues the range's live blocks, or waits while eight ranges stand, in the hart's queue or its cluster's; SPAGE
answers a live block's age, 256 for an expired one and all ones for an unwritten one. A misaligned range raises cause 6, one that
leaves its window cause 7, SPAGE outside a window cause 5; a count of zero does nothing. -/
def Obligations.ScratchpadInstructionsComplete : Prop :=
  (∀ i rs1 rs2 s w, (i = Instr.spalloc rs1 rs2 ∨ i = Instr.spfree rs1 rs2) → padsSorted s →
    let a := (s.hart.xr rs1).toNat
    let n := (s.hart.xr rs2).toNat
    n ≠ 0 → a % 256 = 0 → n % 256 = 0 → s.windowRange s.hart a n = .inl w →
    ∃ t, exec i s = .next t ∧ t.mem = s.mem ∧ t.hart.x = s.hart.x ∧ t.hart.pc = s.hart.pc + 4 ∧ t.hart.vregs = s.hart.vregs ∧
      (∀ o, (w.loc a).offset / 256 ≤ o / 256 → o / 256 < (w.loc a).offset / 256 + n / 256 →
        blockAt t (w.first.move o) = (blockAt s (w.first.move o)).freed) ∧
      ∀ l, (∀ o, l ≠ w.first.move o) ∨ l.offset / 256 < (w.loc a).offset / 256 ∨
          (w.loc a).offset / 256 + n / 256 ≤ l.offset / 256 →
        t.block l = s.block l) ∧
  (∀ i rs1 rs2 s, (i = Instr.spalloc rs1 rs2 ∨ i = Instr.spfree rs1 rs2 ∨ i = Instr.renew rs1 rs2) →
    ((s.hart.xr rs2).toNat = 0 → exec i s = .next (onHart s (past s.hart))) ∧
    ((s.hart.xr rs2).toNat ≠ 0 → ((s.hart.xr rs1).toNat % 256 ≠ 0 ∨ (s.hart.xr rs2).toNat % 256 ≠ 0) →
      exec i s = .next (deliver { cause := 6, addr := some (s.hart.xr rs1) } s)) ∧
    (∀ bad, (s.hart.xr rs2).toNat ≠ 0 → (s.hart.xr rs1).toNat % 256 = 0 → (s.hart.xr rs2).toNat % 256 = 0 →
      s.windowRange s.hart (s.hart.xr rs1).toNat (s.hart.xr rs2).toNat = .inr bad →
      exec i s = .next (deliver { cause := 7, addr := some (BitVec.ofNat 64 bad) } s))) ∧
  (∀ rs1 rs2 s w,
    let a := (s.hart.xr rs1).toNat
    let n := (s.hart.xr rs2).toNat
    n ≠ 0 → a % 256 = 0 → n % 256 = 0 → s.windowRange s.hart a n = .inl w →
    (∀ id b, w.loc a = .core id b → s.hart.renewQ.length < 8 →
      exec (.renew rs1 rs2) s = .next (onHart s (past { s.hart with
        renewQ := s.hart.renewQ ++ [{ blocks := liveBlocks s.time (b / 256) (n / 256) s.hart.pool, since := s.time }] }))) ∧
    (∀ c b, w.loc a = .cluster c b → (s.cluster c).renewQ.length < 8 →
      exec (.renew rs1 rs2) s = .next (onHart (s.setCluster c { s.cluster c with
        renewQ := (s.cluster c).renewQ ++
          [{ blocks := liveBlocks s.time (b / 256) (n / 256) (s.cluster c).spad, since := s.time }] }) (past s.hart))) ∧
    ((∃ id b, w.loc a = .core id b ∧ 8 ≤ s.hart.renewQ.length) ∨ (∃ c b, w.loc a = .cluster c b ∧ 8 ≤ (s.cluster c).renewQ.length) →
      (s.hart.requestPending = false → exec (.renew rs1 rs2) s = .next s) ∧
      (s.hart.requestPending = true → exec (.renew rs1 rs2) s = .next (preempt true false s.hart.pc 0 s)))) ∧
  (∀ rd rs1 s w, s.windowOf s.hart (s.hart.xr rs1).toNat = some w →
    exec (.spage rd rs1) s = .next (onHart s (past (s.hart.setX rd
      (match (blockAt s (w.loc (s.hart.xr rs1).toNat)).state s.time with
        | .live => BitVec.ofNat 64 ((blockAt s (w.loc (s.hart.xr rs1).toNat)).age s.time)
        | .expired => 256
        | .unwritten => BitVec.allOnes 64))))) ∧
  (∀ rd rs1 s, s.windowOf s.hart (s.hart.xr rs1).toNat = none →
    exec (.spage rd rs1) s = .next (deliver { cause := 5, addr := some (s.hart.xr rs1) } s))

/-- PIN and UNPIN (R145, R146, R334). Where a slot of the die is free, the range translates page by page, and the ways have room, PIN
takes the lowest free slot and answers its number; with no slot, no room, no bytes or more than 32 MiB it answers all ones and takes
none; a misaligned range raises cause 4. UNPIN frees a slot that the launch holds, and does nothing else. Which sets of pages the ways
hold is the model's open function (DESIGN CHOICE log 18), and that PIN without a launch answers all ones is its choice too (DESIGN CHOICE
DESIGN CHOICE log 17). -/
def Sys2Proof.Claims.PinsComplete : Prop :=
  (∀ rd rs1 rs2 s u l j pages, (s.hart.xr rs1).toNat % 4096 = 0 → (s.hart.xr rs2).toNat % 4096 = 0 →
    s.launchOf s.hart = some l → s.hart.job = some j → (s.hart.xr rs2).toNat ≠ 0 → (s.hart.xr rs2).toNat ≤ 33554432 →
    (pinPages (s.rootOf l.queue) (s.hart.mode = .u) ((s.hart.xr rs2).toNat / 4096) (s.hart.xr rs1)).run s = .ok pages u →
    u = { s with mem := u.mem } →
    exec (.pin rd rs1 rs2) s = .next (match (s.pinSlots s.hart.die).findIdx? (·.isNone) with
      | some i =>
        if Config.pinWaysFit (((s.pinSlots s.hart.die).flatMap fun p => (p.map (·.pas)).getD []) ++ pages).dedup then
          onHart { u with pins := s.pins.put s.hart.die ((s.pinSlots s.hart.die).set i (some (.mk j.launch l.queue
            ((s.hart.xr rs2).toNat / 4096) ((s.hart.xr rs1).toNat % 2 ^ 48) pages))) } (past (s.hart.setX rd (BitVec.ofNat 64 i)))
        else onHart u (past (s.hart.setX rd (BitVec.allOnes 64)))
      | none => onHart u (past (s.hart.setX rd (BitVec.allOnes 64))))) ∧
  (∀ rd rs1 rs2 s, (s.hart.xr rs1).toNat % 4096 = 0 → (s.hart.xr rs2).toNat % 4096 = 0 →
    (s.launchOf s.hart = none ∨ (s.hart.xr rs2).toNat = 0 ∨ 33554432 < (s.hart.xr rs2).toNat) →
    exec (.pin rd rs1 rs2) s = .next (onHart s (past (s.hart.setX rd (BitVec.allOnes 64))))) ∧
  (∀ rd rs1 rs2 s, ((s.hart.xr rs1).toNat % 4096 ≠ 0 ∨ (s.hart.xr rs2).toNat % 4096 ≠ 0) →
    exec (.pin rd rs1 rs2) s = .next (deliver { cause := 4, addr := some (s.hart.xr rs1) } s)) ∧
  (∀ rs1 s, exec (.unpin rs1) s = .next (onHart
    (if (s.hart.xr rs1).toNat < 4 ∧ ownsSlot s.hart ((s.pinSlots s.hart.die).getD (s.hart.xr rs1).toNat none) = true then
      { s with pins := s.pins.put s.hart.die ((s.pinSlots s.hart.die).set (s.hart.xr rs1).toNat none) } else s) (past s.hart)))

/-- TDLD, PIN and UNPIN. -/
def Obligations.DescriptorsAndPinsComplete : Prop := TdldCompletes ∧ PinsComplete

/-- CADD and CWAIT (R166, R306, R307) complete wherever their access does: CADD adds to the counter, modulo 2^64, and changes no register;
CWAIT polls: it goes on when the counter has reached its operand, and else stays where it is; of its poisoned polls it counts one, as it
goes on. Only CADD at scope dom or sys awaits remote writes: it waits for one that is not delivered, and raises cause 7 at it once 4,000
ticks have passed (R278). -/
def Sys2Proof.Claims.CountersComplete : Prop :=
  (∀ sc rs1 rs2 s t old, (s.hart.xr rs1).toNat % 8 = 0 →
    (sc = .dom ∨ sc = .sys → s.lostBy (.hart s.hart.id) .scalar = none) →
    (memAmo {} (s.hart.xr rs1) 8 fun m => (m + (s.hart.xr rs2).toNat) % 2 ^ 64).run s = .ok old t →
    exec (.cadd sc rs1 rs2) s = .next (onHart t (past t.hart))) ∧
  (∀ aq sc rs1 rs2 s bs zero t, (s.hart.xr rs1).toNat % 8 = 0 →
    (readUncounted {} (s.access s.hart) .load .running (s.hart.xr rs1) 8).run s = .ok (bs, zero) t →
    ((s.hart.xr rs2).toNat ≤ ofBytes bs → exec (.cwait aq sc rs1 rs2) s = .next (onHart t (past
      { (if (t.hart.pollPoison || zero) = true then t.hart.countPoison else t.hart) with pollPoison := false }))) ∧
    (ofBytes bs < (s.hart.xr rs2).toNat → t.hart.requestPending = false →
      exec (.cwait aq sc rs1 rs2) s = .next { t with hart := { t.hart with pollPoison := t.hart.pollPoison || zero } })) ∧
  (∀ s (va : Word), bare s → va.toNat + 8 ≤ s.physLimit → cleanBytes s va.toNat 8 →
    (readUncounted {} (s.access s.hart) .load .running va 8).run s = .ok (Memory.read s.mem va.toNat 8, false) s) ∧
  (∀ sc rs1 rs2 s l, (s.hart.xr rs1).toNat % 8 = 0 → (sc = .dom ∨ sc = .sys) → s.lostBy (.hart s.hart.id) .scalar = some l →
    (s.time < l.since + 4000 → exec (.cadd sc rs1 rs2) s = .next s) ∧
    (l.since + 4000 ≤ s.time →
      exec (.cadd sc rs1 rs2) s = .next (deliver { cause := 7, addr := some l.va } { s with lost := s.lost.erase l }))) ∧
  (∀ (s : State) w a l, s.lostBy w a = some l → l ∈ s.lost ∧ l.writer = w ∧ a ∈ l.views)

namespace Sys2Proof.Claims

/-- The ring descriptor at an address of a window. -/
def ringAt (s : State) (w : Window) (a : Nat) : Ring := ringOf (ofBytes ((List.range 32).map fun i => s.byteAt (w.loc (a + i), none)))

/-- Its bytes are live and clean (R137, R196). -/
def ringLive (s : State) (w : Window) (a : Nat) : Prop :=
  ∀ i, i < 32 → s.staleSub (w.loc (a + i)) = none ∧ s.poisonSub (w.loc (a + i)) = none

/-- What a ring instruction leaves: the descriptor as given, every other byte of memory and of the scratchpads, and every register but
one, as it was. -/
def ringLeft (s t : State) (w : Window) (a : Nat) (r : Ring) (rd : BitVec 5) : Prop :=
  ringAt t w a = r ∧ t.mem = s.mem ∧ (∀ l, (∀ i, i < 32 → l ≠ w.loc (a + i)) → t.byteAt (l, none) = s.byteAt (l, none)) ∧
  (∀ x, x ≠ rd → t.hart.xr x = s.hart.xr x) ∧ t.hart.pc = s.hart.pc + 4 ∧ t.hart.vregs = s.hart.vregs ∧ t.hart.preds = s.hart.preds ∧
  t.hart.f = s.hart.f ∧ t.hart.mode = s.hart.mode

end Sys2Proof.Claims

/-- The rings (R167, R168, R338 to R340). On a live, clean descriptor of 32-byte alignment in a window, that meets the invariant, with n
at most its capacity: RCLAIM, once n granules are free, claims them and answers the address of the first; RCOMMIT publishes n claimed
ones; RAWAIT, once n are published, takes them and answers the first; RRETIRE frees n taken ones. Each moves one count by n, modulo
2^32, and nothing else; one whose condition fails waits (RCLAIM, RAWAIT) or raises ENGINE 4 (RCOMMIT, RRETIRE). -/
def Sys2Proof.Claims.RingsComplete : Prop :=
  ∀ (rd rs1 rs2 : BitVec 5) (s : State) (w : Window),
    let a := (s.hart.xr rs1).toNat
    let n := bits (s.hart.xr rs2) 0 32
    let r := ringAt s w a
    let bad : Outcome := .next (deliver { cause := 48, sub := 4, addr := some (s.hart.xr rs1) } s)
    (a % 32 = 0 → s.windowRange s.hart a 32 = .inl w → ringLive s w a → r.checks n = true →
      (serial r.tclaim r.hretire + n ≤ r.cap → ∃ t, exec (.rclaim rd rs1 rs2) s = .next t ∧
        ringLeft s t w a { r with tclaim := (r.tclaim + n) % 2 ^ 32 } rd ∧
        (rd ≠ 0 → t.hart.xr rd = r.base + BitVec.ofNat 64 (64 * (r.tclaim % r.cap)))) ∧
      (r.cap < serial r.tclaim r.hretire + n → s.hart.requestPending = false → exec (.rclaim rd rs1 rs2) s = .next s) ∧
      (n ≤ serial r.tclaim r.tcommit → ∃ t, exec (.rcommit rs1 rs2) s = .next t ∧
        ringLeft s t w a { r with tcommit := (r.tcommit + n) % 2 ^ 32 } 0) ∧
      (serial r.tclaim r.tcommit < n → exec (.rcommit rs1 rs2) s = bad) ∧
      (n ≤ serial r.tcommit r.hclaim → ∃ t, exec (.rawait rd rs1 rs2) s = .next t ∧
        ringLeft s t w a { r with hclaim := (r.hclaim + n) % 2 ^ 32 } rd ∧
        (rd ≠ 0 → t.hart.xr rd = r.base + BitVec.ofNat 64 (64 * (r.hclaim % r.cap)))) ∧
      (serial r.tcommit r.hclaim < n → s.hart.requestPending = false → exec (.rawait rd rs1 rs2) s = .next s) ∧
      (n ≤ serial r.hclaim r.hretire → ∃ t, exec (.rretire rs1 rs2) s = .next t ∧
        ringLeft s t w a { r with hretire := (r.hretire + n) % 2 ^ 32 } 0) ∧
      (serial r.hclaim r.hretire < n → exec (.rretire rs1 rs2) s = bad)) ∧
    ((a % 32 ≠ 0 ∨ (∃ b, s.windowRange s.hart a 32 = .inr b) ∨
        (s.windowRange s.hart a 32 = .inl w ∧ ringLive s w a ∧ r.checks n = false)) →
      ∀ i ∈ [Instr.rclaim rd rs1 rs2, .rcommit rs1 rs2, .rawait rd rs1 rs2, .rretire rs1 rs2], exec i s = bad)

/-- Counters and rings. -/
def Obligations.CountersAndRingsComplete : Prop := CountersComplete ∧ RingsComplete

/-! ## The Scarab (R161 to R165, R345 to R347) -/

namespace Sys2Proof.Claims

/-- Bytes placed in this package's memory, each at a key of its own, in pages of one encryption key. -/
def placedAt (ps : List (Loc × Option Phys)) (c : Option (BitVec 512)) (keys : List Nat) : Prop :=
  ps.map (·.1) = keys.map Loc.mem ∧ (∀ p ∈ ps, cryptOf p.2 = c) ∧ ps.any isRemote = false ∧ keys.Nodup

/-- Memory after bytes went to keys, as it is read under an encryption key: those bytes there, every other byte as it was; outside their
sectors memory is the same; of every hart only a load reservation may have gone, and no queue or cluster changes. -/
def tookBytes (v t : State) (c : Option (BitVec 512)) (keys : List Nat) (bs : List Byte) : Prop :=
  t.memOk ∧ (∀ i, i < keys.length → byteUnder c t.mem (keys.getD i 0) = bs.getD i 0) ∧
  (∀ a, a ∉ keys → byteUnder c t.mem a = byteUnder c v.mem a) ∧
  (∀ a, (∀ k ∈ keys, sectorOf a ≠ sectorOf k) → Memory.get t.mem a = Memory.get v.mem a) ∧
  t.queues = v.queues ∧ t.clusters = v.clusters ∧ t.hart = { v.hart with reservation := t.hart.reservation }

/-- The number that the bytes at keys hold. -/
def numberAt (s : State) (c : Option (BitVec 512)) (keys : List Nat) : Nat := ofBytes (keys.map (byteUnder c s.mem))

end Sys2Proof.Claims

/-- The issue of STREAM and STREAMU (R161, R162, R347): with an aligned descriptor and counter, fields that R162 allows, and fewer than
16 commands of the hart unfinished, the command is queued last in its cluster, and the hart goes on; with 16 it waits. A misaligned
descriptor or counter raises ENGINE 1 with its address, fields that R162 forbids ENGINE 1 with the descriptor's; that ENGINE has UNIT 0
there is the model's choice (DESIGN CHOICE log 48). A plain command's fields are those of its descriptor, its count nel() where COUNT is 0. -/
def Sys2Proof.Claims.StreamIssueCompletes : Prop :=
  (∀ (unfold : Bool) (o : Order) (rs1 rs2 : BitVec 5) (s : State),
    let i := if unfold then Instr.streamu o rs1 rs2 else Instr.stream o rs1 rs2
    (∀ u d, (s.hart.xr rs1).toNat % 64 = 0 → (s.hart.xr rs2).toNat % 8 = 0 → (readCommand (s.hart.xr rs1)).run s = .ok d u →
      u = { s with mem := u.mem } →
      (scarabFieldsOk unfold d = true → (s.cluster s.hart.cluster).commandsOf s.hart.id < 16 →
        exec i s = .next (onHart { u.setCluster s.hart.cluster { s.cluster s.hart.cluster with
          scarab := (s.cluster s.hart.cluster).scarab ++ [scarabCmd s unfold o d (s.hart.xr rs2)] } with nextCmd := s.nextCmd + 1 }
        (past s.hart))) ∧
      (scarabFieldsOk unfold d = true → 16 ≤ (s.cluster s.hart.cluster).commandsOf s.hart.id → s.hart.requestPending = false →
        exec i s = .next u) ∧
      (scarabFieldsOk unfold d = false → exec i s = .next (deliver { cause := 48, sub := 1, addr := some (s.hart.xr rs1) } u))) ∧
    ((s.hart.xr rs1).toNat % 64 ≠ 0 → exec i s = .next (deliver { cause := 48, sub := 1, addr := some (s.hart.xr rs1) } s)) ∧
    ((s.hart.xr rs1).toNat % 64 = 0 → (s.hart.xr rs2).toNat % 8 ≠ 0 →
      exec i s = .next (deliver { cause := 48, sub := 1, addr := some (s.hart.xr rs2) } s))) ∧
  (∀ s o (d : BitVec 512) ctr, let c := scarabCmd s false o d ctr
    c.src = (sext48 (field512 d 0 0 48)).toNat ∧ c.dst = (sext48 (field512 d 8 0 48)).toNat ∧
    c.sstr = toSigned 40 (field512 d 0x10 0 40) ∧ c.dstr = toSigned 40 (field512 d 0x18 0 40) ∧
    c.count = (if field512 d 0x20 0 32 = 0 then s.hart.nel else field512 d 0x20 0 32) ∧ c.esz = 2 ^ field512 d 0x24 0 2 ∧
    c.status = (sext48 (field512 d 0x28 0 48)).toNat ∧ c.counter = ctr.toNat ∧ c.landed = 0)

/-- The steps of a Scarab command (R163, R165, R171, R278, R345, R346). It begins in the order its hart issued it; a prefix lands, and the
counter grows by the elements that landed; it completes when every element has landed, after its status block, and bit 63 of the counter
says that the block was lost; a failing element ends it: the counter stands at the elements below it, the status block tells its cause,
sub-cause and address, then bit 63 is set; so does an element whose remote write was not delivered and that a release of the command
covers, once 4,000 ticks have passed. One element of plain memory lands as the bytes its source holds. That elements land in order, in
prefixes that cut no aligned 8-byte word of the destination, and which words above a failing element land (`landAbove`), is the model's
choice within R163, R165 and R171 (DESIGN CHOICE log 33). -/
def Sys2Proof.Claims.ScarabStepsComplete : Prop :=
  (∀ cl hart s c, ((s.cluster cl).scarab.find? fun c => c.via.hart = hart && !c.begun) = some c →
    exec (.scarabCommandBegin cl hart) s = .next (s.setCluster cl { s.cluster cl with
      scarab := (s.cluster cl).scarab.map fun d => if d.id = c.id then { c with begun := true, since := s.time } else d })) ∧
  (∀ cl id upto s c c' k u v, s.command? cl id = some c → c.begun = true → c.landed < upto → upto < c.count →
    c.cutsWord upto = false → (copyElems c (upto - c.landed) c.landed).run s = .ok (c', k, none) u → c'.lostElem u false upto = none →
    (addCounter c' (upto - c.landed)).run u = .ok none v →
    exec (.scarabPrefixAdvance cl id upto) s = .next (v.setCluster cl { v.cluster cl with
      scarab := (v.cluster cl).scarab.map fun d => if d.id = c'.id then { c' with landed := upto } else d })) ∧
  (∀ (c : ScarabCmd) n, 0 < c.esz → (c.cutsWord n = true ↔ ∃ i j, i < c.esz ∧ j < c.esz ∧
    ((c.dstOf (n - 1)).toNat + i) / 8 = ((c.dstOf n).toNat + j) / 8)) ∧
  (∀ cl id upto s c, s.command? cl id = some c → c.cutsWord upto = true → exec (.scarabPrefixAdvance cl id upto) s = .next s) ∧
  (∀ cl id s c c' k lost u v w x, s.command? cl id = some c → c.begun = true →
    (copyElems c (c.count - c.landed) c.landed).run s = .ok (c', k, none) u → c'.lostElem u true c.count = none →
    (writeStatus c' c.count 0 0 0).run u = .ok lost v →
    (addCounter c' (c.count - c.landed)).run v = .ok none w → (if lost = true then setBit63 c' else pure ()).run w = .ok () x →
    ∃ t, exec (.scarabCommandComplete cl id) s = .next t ∧ t.mem = x.mem ∧ t.hart = x.hart ∧
      (t.cluster cl).scarab = (x.cluster cl).scarab.filter fun d => d.id ≠ c'.id) ∧
  (∀ cl id s c c' c2 k tr lost u v w x y, s.command? cl id = some c → c.begun = true → c.landed < c.count →
    let s1 : State := { s with freeCtr := s.freeCtr + 1 }
    (∀ j, c.landed ≤ j → j < c.count → (remoteSource c j).run s1 = .ok [] s1) →
    (copyElems c (c.count - c.landed) c.landed).run s1 = .ok (c', k, some tr) u →
    (landAbove c' s.freeCtr k (c.count - k - 1) (k + 1)).run u = .ok c2 v → c2.lostElem v false k = none →
    (addCounter c2 (k - c2.landed)).run v = .ok none w →
    (writeStatus c2 k tr.cause tr.sub (tr.addr.getD 0)).run w = .ok lost x → (setBit63 c2).run x = .ok () y →
    ∃ t, exec (.scarabFault cl id) s = .next t ∧ t.mem = y.mem ∧ t.hart = y.hart ∧ t.command? cl c2.id = none) ∧
  (∀ cl id s c c' k j lost u v w x, s.command? cl id = some c → c.begun = true →
    (copyElems c (c.count - c.landed) c.landed).run s = .ok (c', k, none) u → c'.lostElem u true c.count = some j →
    (u.time < c'.since + 4000 → exec (.scarabCommandComplete cl id) s = .next s) ∧
    (c'.since + 4000 ≤ u.time → (addCounter c' (j - c'.landed)).run u = .ok none v →
      (writeStatus c' j 7 0 (c'.dstOf j)).run v = .ok lost w → (setBit63 c').run w = .ok () x →
      ∃ t, exec (.scarabCommandComplete cl id) s = .next t ∧ t.mem = x.mem ∧ t.hart = x.hart ∧ t.command? cl c'.id = none)) ∧
  (∀ (c : ScarabCmd) (s : State) final n j, c.lostElem s final n = some j →
    (c.order.scope = .dom ∨ c.order.scope = .sys) ∧ (c.counter ≠ 0 ∨ final = true ∧ c.order.rl = true) ∧ j < n ∧
    ∃ l ∈ s.lost, l.writer = .scarab c.id ∧ l.va = c.dstOf j) ∧
  (∀ (c : ScarabCmd) k s va bs ps cr keys u v, c.srcOf k = some va →
    (engineRead c.access c.since va c.esz).run s = .ok bs u → (enginePlace c.access false (c.dstOf k) c.esz).run u = .ok ps v →
    placedAt ps cr keys → (∀ b ∈ bs, b.2 = false) → v.poison = [] → v.memOk →
    (∀ i, i < c.esz → c.inSource ((c.dstOf k).toNat + i) = false) →
    ∃ t, (copyElem c k).run s = .ok c t ∧ tookBytes v t cr keys (bs.map (·.1)))

/-- The counter and the status block of a Scarab command (R165, Table 07-9) in plain memory. An addition adds, modulo 2^64, and a counter
of 0 or an addition of nothing does nothing; bit 63 is set and no other bit changes; the status block takes its 16 bytes: DONE, the
sub-cause, the cause, the element count, the faulting address. An access that fails answers its trap, or that the block was lost, and
stops nothing. -/
def Sys2Proof.Claims.ScarabReportsFollow : Prop :=
  (∀ (c : ScarabCmd) n s, (c.counter = 0 ∨ n = 0) → (addCounter c n).run s = .ok none s) ∧
  (∀ (c : ScarabCmd) s ps cr keys v, c.counter ≠ 0 → (enginePlace c.access true (BitVec.ofNat 64 c.counter) 8).run s = .ok ps v →
    placedAt ps cr keys → v.poison = [] → v.memOk →
    (∀ n, n ≠ 0 → ∃ t, (addCounter c n).run s = .ok none t ∧ tookBytes v t cr keys (toBytes 8 ((numberAt v cr keys + n) % 2 ^ 64))) ∧
    ∃ t, (setBit63 c).run s = .ok () t ∧ tookBytes v t cr keys (toBytes 8 (numberAt v cr keys ||| 2 ^ 63))) ∧
  (∀ (c : ScarabCmd) n s tr u, c.counter ≠ 0 → n ≠ 0 →
    (enginePlace c.access true (BitVec.ofNat 64 c.counter) 8).run s = .error (.trap tr) u →
    (addCounter c n).run s = .ok (some tr) u) ∧
  (∀ (c : ScarabCmd) done cause sub fva s, c.status = 0 → (writeStatus c done cause sub fva).run s = .ok false s) ∧
  (∀ (c : ScarabCmd) done cause sub (fva : Word) s ps cr keys v, c.status ≠ 0 → done < 2 ^ 32 → cause < 256 → sub < 256 →
    (enginePlace c.access false (BitVec.ofNat 64 c.status) 16).run s = .ok ps v → placedAt ps cr keys → v.memOk →
    ∃ t, (writeStatus c done cause sub fva).run s = .ok false t ∧
      tookBytes v t cr keys ([1, 0, BitVec.ofNat 8 sub, BitVec.ofNat 8 cause] ++ toBytes 4 done ++ toBytes 8 fva.toNat)) ∧
  (∀ (c : ScarabCmd) done cause sub fva s tr u, c.status ≠ 0 →
    (enginePlace c.access false (BitVec.ofNat 64 c.status) 16).run s = .error (.trap tr) u →
    (writeStatus c done cause sub fva).run s = .ok true u)

/-- STREAM and STREAMU, the Scarab's own steps, its counter and its status block. -/
def Obligations.ScarabCompletes : Prop := StreamIssueCompletes ∧ ScarabStepsComplete ∧ ScarabReportsFollow

/-! ## The contraction unit and weight chains (R234 to R253) -/

namespace Sys2Proof.Claims

/-- The instructions of the CM profile (R64). -/
def cmInstr : Instr → Bool
  | .attach _ _ | .detach | .mld _ _ _ _ | .mldx _ _ _ | .mlsc _ _ _ | .mma _ _ _ | .mrpt _ _ _ | .msld _ _ _ | .mst _ _ _ _
  | .mzero _ | .bdset _ _ | .chnrun _ _ _ | .chnstep _ _ _ => true
  | _ => false

/-- A command's release at its scope meets no lost write of the unit (R239, R278). -/
def releases (o : Order) (s : State) : Prop :=
  o.rl = true → (o.scope = .dom ∨ o.scope = .sys) → s.lostBy (.hart s.hart.id) .array = none

/-- The state in which the hart's scalar agent observes the unit's writes, lost ones among them: so it stands once a command completes
(R239). -/
def unitSeen (s : State) : State := { s with lost := s.lost.map (fenceViews s.hart.id .array .scalar) }

/-- A contraction-unit trap with its sub-cause (R108, R240). -/
def cuEngine (sub : Nat) : Trap := { cause := 48, sub := sub, unit := 4, cu := true }

/-- The hart with another grant. -/
def granted (h : Hart) (g : Grant) : Hart := { h with grant := some g }

/-- The other quarter of a quarter's half (R301). -/
def otherQuarter (x : Nat) : Nat := x / 2 * 2 + (1 - x % 2)

/-- The grant's tables are in order. -/
def grantSorted (g : Grant) : Prop :=
  Tab.sorted g.mt.data = true ∧ Tab.sorted g.latch.data = true ∧ Tab.sorted g.sc.data = true ∧ Tab.sorted g.acc.data = true

/-- What an array command on accumulator `n` gives its element (i, j), from operands `a` and `b` (R124, R242). -/
def product (g : Grant) (t : TileTy) (n : Nat) (a b : TileRef) (i j : Nat) : BitVec 40 :=
  accumulate (g.accAt n i j) (dotFx ((List.range 128).map fun k => (tileElem a.file a.base t i k, tileElem b.file b.base t k j)))
    (g.scale a i) (g.scale b 0)

def convolution (g : Grant) (t : TileTy) (n c : Nat) (a w : TileRef) (i j : Nat) : BitVec 40 :=
  accumulate (g.accAt n i j)
    (dotFx ((List.range (min c (128 - j))).map fun k => (tileElem a.file a.base t i (j + k), tileElem w.file w.base t i k)))
    (g.scale a i) (g.scale w 0)

/-- An array command completes on operands of one type in the grant, untouched by the check column, and leaves everything of the hart but
its accumulators, the check column's number, which an MMA-family command advances by 1 for each of its k-blocks (R193, R242), one for each
accumulator it names, and the pc; the accumulators it does not name stay. -/
def arrayLeft (i : Instr) (s : State) (g : Grant) (accs : List Nat) (cell : Nat → Nat → Nat → BitVec 40) : Prop :=
  ∃ t g', exec i s = .next t ∧ t = { unitSeen s with hart := t.hart, freeCtr := t.freeCtr } ∧
    t.hart = (past (granted s.hart g')).retire ∧
    g' = { g with
      acc := g'.acc
      checkCol := if (match i with | .mzero _ => true | _ => false) then g.checkCol else (g.checkCol + accs.length) % 128 } ∧
    (∀ q ∈ accs, ∀ x y, x < 128 → y < 128 → g'.accAt q x y = cell q x y) ∧
    ∀ q, q ∉ accs → ∀ x y, x < 128 → y < 128 → g'.accAt q x y = g.accAt q x y

end Sys2Proof.Claims

/-- Grants (R64, R234 to R236, R301, R317) and BDSET (R305). ATTACH of 32, 64 or 128 rows answers the rows held, or takes the largest grant
that does not exceed the request and that the free quarters allow, in the quarters of R301, its registers undefined and its check column 0,
or answers 0; any other request raises ENGINE 1. DETACH gives the grant up. BDSET of 1 to 4,096 sets its bond register, of another value
raises ENGINE 1. Each leaves all else. Without USECU in the header every instruction of the profile raises illegal instruction. -/
def Obligations.GrantsComplete : Prop :=
  (∀ rd rs1 s, s.cmOk s.hart = true → (s.hart.xr rs1).toNat ∈ [32, 64, 128] →
    (∀ g, s.hart.grant = some g → exec (.attach rd rs1) s = .next (onHart (unitSeen s) (past (s.hart.setX rd (BitVec.ofNat 64 g.rows))))) ∧
    (∀ n q, s.hart.grant = none → grantFor (s.usedQuarters s.hart.cluster) (s.hart.xr rs1).toNat = some (n, q) →
      exec (.attach rd rs1) s = .next (onHart (unitSeen { s with freeCtr := s.freeCtr + 1 })
        (past ((granted s.hart (newGrant s.freeCtr n q)).setX rd (BitVec.ofNat 64 n))))) ∧
    (s.hart.grant = none → grantFor (s.usedQuarters s.hart.cluster) (s.hart.xr rs1).toNat = none →
      exec (.attach rd rs1) s = .next (onHart (unitSeen s) (past (s.hart.setX rd 0))))) ∧
  (∀ used r n q, grantFor used r = some (n, q) →
    n ∈ [32, 64, 128] ∧ n ≤ r ∧ q.length = n / 32 ∧ (∀ x ∈ q, x < 4 ∧ x ∉ used) ∧
    (n = 64 → q = if 0 ∉ used ∧ 1 ∉ used then [0, 1] else [2, 3]) ∧
    (∀ x, n = 32 → q = [x] → ∀ y, y < 4 → y ∉ used →
      (otherQuarter y ∈ used → otherQuarter x ∈ used ∧ x ≤ y) ∧ (otherQuarter x ∉ used → x ≤ y)) ∧
    (n < 64 → 64 ≤ r → (0 ∈ used ∨ 1 ∈ used) ∧ (2 ∈ used ∨ 3 ∈ used)) ∧ (n < 128 → 128 ≤ r → ∃ y, y < 4 ∧ y ∈ used)) ∧
  (∀ used r, 32 ≤ r → (grantFor used r = none ↔ ∀ y, y < 4 → y ∈ used)) ∧
  (∀ rd rs1 s, s.cmOk s.hart = true → (s.hart.xr rs1).toNat ∉ [32, 64, 128] →
    exec (.attach rd rs1) s = .next (deliver (cuEngine 1) s)) ∧
  (∀ s, s.cmOk s.hart = true → exec .detach s = .next (onHart (unitSeen s) (past { s.hart with grant := none }))) ∧
  (∀ n rs1 s, s.cmOk s.hart = true →
    (1 ≤ (s.hart.xr rs1).toNat → (s.hart.xr rs1).toNat ≤ 4096 → exec (.bdset n rs1) s = .next (onHart (unitSeen s) (past { s.hart with
      bd := s.hart.bd.set n.toNat (BitVec.ofNat 13 (s.hart.xr rs1).toNat) }))) ∧
    (¬ (1 ≤ (s.hart.xr rs1).toNat ∧ (s.hart.xr rs1).toNat ≤ 4096) → exec (.bdset n rs1) s = .next (deliver (cuEngine 1) s))) ∧
  (∀ i s, cmInstr i = true → s.cmOk s.hart = false → exec i s = .next (deliver { cause := 2 } s))

/-- Tile loads (R237, R241, R323): MLD, MLDX and MLSC complete where the reads do. MLD puts 128 rows into its register, with its type and
unit scales; MLDX puts rows chosen by a vector into the latch; MLSC replaces a tile's scales. Each register byte is the byte read: of
plain memory the one at base + row × pitch + column, a row of MLDX that its vector leaves out is zero, and one outside a scratchpad
window raises cause 5. -/
def Sys2Proof.Claims.TileLoadsComplete : Prop :=
  (∀ o mt rs1 rs2 s g ty bs u, s.cmOk s.hart = true → s.hart.grant = some g → tileTyOf (bits (s.hart.xr rs2) 61 3) = some ty →
    bits (s.hart.xr rs2) 40 21 = 0 → g.oddOfPair mt.toNat = false → ¬ (ty = .bf16 ∧ mt.toNat % 2 = 1) → typeInService s ty = true →
    mt.toNat < g.tiles → (readRows (tyBytes ty) (sextN 40 (bits (s.hart.xr rs2) 0 40)) 128 (s.hart.xr rs1)).run s = .ok bs u →
    u.hart.grant = some g → releases o u →
    exec (.mld o mt rs1 rs2) s = .next (onHart (unitSeen u) (past (granted u.hart (g.loadTile mt.toNat ty bs))))) ∧
  (∀ o rs1 vs s g ty bs u, s.cmOk s.hart = true → vs.toNat % s.hart.grp = 0 → vs.toNat + s.hart.grp ≤ s.nvreg s.hart →
    s.hart.grant = some g → tileTyOf (bits (s.hart.xr rs1) 61 3) = some ty → bits (s.hart.xr rs1) 48 13 = 0 → s.hart.etype = 2 →
    typeInService s ty = true →
    (gatherRows s.hart (s.capC s.hart) vs.toNat (tyBytes ty) (sext48 (bits (s.hart.xr rs1) 0 48)) 128 0).run s = .ok bs u →
    u.hart.grant = some g → releases o u →
    exec (.mldx o rs1 vs) s = .next (onHart (unitSeen u) (past (granted u.hart { g with
      latch := g.latch.putRange 0 bs, latchTy := some ty, sc := g.sc.putRange 1024 (List.replicate 128 one32) })))) ∧
  (∀ o mt rs1 s g bs u, s.cmOk s.hart = true → s.hart.grant = some g → g.oddOfPair mt.toNat = false → mt.toNat < g.tiles →
    (readElems 4 128 (s.hart.xr rs1)).run s = .ok bs u → u.hart.grant = some g → releases o u →
    exec (.mlsc o mt rs1) s = .next (onHart (unitSeen u) (past (granted u.hart { g with
      sc := g.sc.putRange (128 * mt.toNat)
        ((List.range 128).map fun i => BitVec.ofNat 32 (ofBytes ((bs.drop (4 * i)).take 4))) })))) ∧
  (∀ (w : Nat) (f : File w) base vs k, Tab.sorted f.data = true →
    (f.putRange base vs).get k = if base ≤ k ∧ k < base + vs.length then vs.getD (k - base) 0 else f.get k) ∧
  (∀ (g : Grant) n ty bs, (g.loadTile n ty bs).mt = g.mt.putRange (16384 * n) bs ∧
    (g.loadTile n ty bs).sc = g.sc.putRange (128 * n) (List.replicate (if ty = .bf16 then 256 else 128) one32) ∧
    (n < g.types.length → (g.loadTile n ty bs).types.getD n none = some ty) ∧
    (ty = .bf16 → n + 1 < g.types.length → (g.loadTile n ty bs).types.getD (n + 1) none = some .bf16) ∧
    (g.loadTile n ty bs).acc = g.acc ∧ (g.loadTile n ty bs).latch = g.latch ∧ (g.loadTile n ty bs).rows = g.rows) ∧
  (∀ s es n (va : Word), bare s → 0 < es →
    (∀ k, k < n → let a := (va + BitVec.ofNat 64 (k * es)).toNat
      a % es = 0 ∧ a + es ≤ s.physLimit ∧ cleanBytes s a es) →
    ∃ bs, (readElems es n va).run s = .ok bs s ∧ bs.length = n * es ∧
      ∀ k b, k < n → b < es → bs.getD (k * es + b) 0 = Memory.get s.mem ((va + BitVec.ofNat 64 (k * es)).toNat + b)) ∧
  (∀ s es n (va pitch : Word), bare s → 0 < es →
    (∀ r k, r < n → k < 128 → let a := (va + BitVec.ofNat 64 r * pitch + BitVec.ofNat 64 (k * es)).toNat
      a % es = 0 ∧ a + es ≤ s.physLimit ∧ cleanBytes s a es) →
    ∃ bs, (readRows es pitch n va).run s = .ok bs s ∧ bs.length = n * (128 * es) ∧
      ∀ r k b, r < n → k < 128 → b < es → bs.getD (r * (128 * es) + (k * es + b)) 0 =
        Memory.get s.mem ((va + BitVec.ofNat 64 r * pitch + BitVec.ofNat 64 (k * es)).toNat + b)) ∧
  (∀ (h : Hart) cap vs es base n i s, let x := h.elemAt cap vs 4 i
    ((h.nel ≤ i ∨ x = 2 ^ 32 - 1) → ∀ rest u, (gatherRows h cap vs es base n (i + 1)).run s = .ok rest u →
      (gatherRows h cap vs es base (n + 1) i).run s = .ok (List.replicate (128 * es) 0 ++ rest) u) ∧
    (i < h.nel → x ≠ 2 ^ 32 - 1 → let va := base + sextN 32 x
      let n' := va.toNat + 128 * es - 1
      let inside := inCoreWindow va.toNat = true ∧ inCoreWindow n' = true ∨ inClusterWindow va.toNat = true ∧ inClusterWindow n' = true
      (∀ row rest u v, inside → (readElems es 128 va).run s = .ok row u →
        (gatherRows h cap vs es base n (i + 1)).run u = .ok rest v →
        (gatherRows h cap vs es base (n + 1) i).run s = .ok (row ++ rest) v) ∧
      (∀ tr u, inside → (readElems es 128 va).run s = .error (.trap tr) u →
        (gatherRows h cap vs es base (n + 1) i).run s = .error (.trap tr) u) ∧
      (¬ inside → ∃ t, (gatherRows h cap vs es base (n + 1) i).run s = .error (.trap t) s ∧ t.cause = 5 ∧ t.addr = some va)))

namespace Sys2Proof.Claims

/-- The accumulators that an array command of the MMA family updates and what each element of them takes (R242), where its operands lie in
the grant and their types agree. -/
def arrayRuns (s : State) (g : Grant) (accs : List Nat) (cell : Nat → Nat → Nat → BitVec 40) : Instr → Prop
  | .mma acc a b => ∃ ty, (g.operand a).ty = some ty ∧ (g.tile b.toNat).ty = some ty ∧ parityOk a g = true ∧
    g.oddOfPair b.toNat = false ∧ typeInService s ty = true ∧ operandInGrant a g = true ∧ b.toNat < g.tiles ∧ acc.toNat < g.accs ∧
    accs = [acc.toNat] ∧ cell = fun n => product g ty n (g.operand a) (g.tile b.toNat)
  | .mrpt acc a rs2 => ∃ ty,
    let w := s.hart.xr rs2
    let n := bits w 0 3
    let f := bits w 4 3
    w &&& ~~~ 0x77#64 = 0 ∧ n ≠ 0 ∧ acc.toNat + n ≤ g.accs ∧ acc.toNat + n ≤ 4 ∧ f + (n - 1) * tyBytes ty ≤ 7 ∧
    (g.operand a).ty = some ty ∧ parityOk a g = true ∧ typeInService s ty = true ∧ operandInGrant a g = true ∧
    (∀ q, q < n → (g.tile (f + q * tyBytes ty)).ty = some ty ∧ g.oddOfPair (f + q * tyBytes ty) = false ∧
      f + q * tyBytes ty < g.tiles) ∧
    accs = (List.range n).map (acc.toNat + ·) ∧
    cell = fun m => product g ty m (g.operand a) (g.tile (f + (m - acc.toNat) * tyBytes ty))
  | .msld acc a rs2 => ∃ ty,
    let w := s.hart.xr rs2
    let c := bits w 0 8
    let n := bits w 8 3
    w &&& ~~~ 0x7FF#64 = 0 ∧ 1 ≤ c ∧ c ≤ 128 ∧ acc.toNat < g.accs ∧ (g.operand a).ty = some ty ∧ (g.tile n).ty = some ty ∧
    parityOk a g = true ∧ g.oddOfPair n = false ∧ typeInService s ty = true ∧ operandInGrant a g = true ∧ n < g.tiles ∧
    accs = [acc.toNat] ∧ cell = fun m => convolution g ty m c (g.operand a) (g.tile n)
  | _ => False

/-- The state in which the one mismatch that the check column met has been counted: the core's health register holds `v`. -/
def columnSet (s : State) (v : Word) : State := { s.setLane s.hart.id v with hart := { s.hart with upsets := [] } }

end Sys2Proof.Claims

/-- The array (R124, R237, R242, R324, R326): MMA, MRPT, MSLD and MZERO complete on operands in the grant whose types agree: each
accumulator element takes the exact sum of its k-block, scaled, added and rounded once; MZERO
clears; with an operand that nothing has loaded a command completes all the same, its accumulators left open (R237); without a grant MMA
and MZERO raise ENGINE 3. -/
def Sys2Proof.Claims.ArrayCommandsComplete : Prop :=
  (∀ i accs cell s g, s.cmOk s.hart = true → s.hart.grant = some g → grantSorted g → s.hart.upsets = [] →
    arrayRuns s g accs cell i → arrayLeft i s g accs cell) ∧
  (∀ acc s g, s.cmOk s.hart = true → s.hart.grant = some g → grantSorted g → acc.toNat < g.accs →
    arrayLeft (.mzero acc) s g [acc.toNat] (fun _ _ _ => 0)) ∧
  (∀ acc a b s g, s.cmOk s.hart = true → s.hart.grant = some g → grantSorted g → s.hart.upsets = [] →
    ((g.operand a).ty = none ∨ (g.tile b.toNat).ty = none) → parityOk a g = true → g.oddOfPair b.toNat = false →
    typeInService s (((g.operand a).ty.or (g.tile b.toNat).ty).getD .f8) = true → operandInGrant a g = true → b.toNat < g.tiles →
    acc.toNat < g.accs → ∃ cell, arrayLeft (.mma acc a b) s g [acc.toNat] cell) ∧
  (∀ acc a b s, s.cmOk s.hart = true → s.hart.grant = none →
    exec (.mma acc a b) s = .next (deliver (cuEngine 3) s) ∧ exec (.mzero acc) s = .next (deliver (cuEngine 3) s))

/-- The check column (R193, R324), where it finds a mismatch at one of the command's k-blocks. A transient one is counted, and the command,
the k-block repeated, does what it does without it; a persistent one remaps the column that was checked to a spare, is counted, and the
command goes on; with LCTRAP it raises LANE_CHECK, SUB 2, UNIT 4 instead, every accumulator unchanged; that it counts and remaps then too is
the model's choice (DESIGN CHOICE log 48). On a core whose lane is remapped a mismatch takes the core out of
service, and the context moves on (R192). The fields of Table 09-2. -/
def Sys2Proof.Claims.CheckColumnFollows : Prop :=
  (∀ i accs cell s g u, s.cmOk s.hart = true → s.hart.grant = some g → arrayRuns s g accs cell i → s.hart.upsets = [u] →
    u.column = true → u.elem < accs.length → hasRemap (s.lane s.hart.id) = false →
    let v := s.lane s.hart.id
    let spare := columnRemap (lanePersistent v) ((g.checkCol + u.elem) % 128)
    (u.persistent = false → exec i s = exec i (columnSet s (laneTransient v))) ∧
    (u.persistent = true → s.flag s.hart 3 = false → exec i s = exec i (columnSet s spare)) ∧
    (u.persistent = true → s.flag s.hart 3 = true →
      exec i s = .next (deliver { cause := 29, sub := 2, unit := 4, cu := true } (columnSet s spare)) ∧
      (columnSet s spare).hart.grant = some g)) ∧
  (∀ i accs cell s g u, s.cmOk s.hart = true → s.hart.grant = some g → arrayRuns s g accs cell i → s.hart.upsets = [u] →
    u.column = true → u.elem < accs.length → hasRemap (s.lane s.hart.id) = true → s.hart.mode = .u → s.anyInService s.hart = true →
    exec i s = .next (preempt true true s.hart.pc 0 (columnSet s (laneOff (s.lane s.hart.id))))) ∧
  ∀ (v : Word) c,
    bits (laneTransient v) 0 32 = min (bits v 0 32 + 1) (2 ^ 32 - 1) ∧ bits (laneTransient v) 32 32 = bits v 32 32 ∧
    bits (lanePersistent v) 32 17 = min (bits v 32 17 + 1) (2 ^ 17 - 1) ∧ bits (lanePersistent v) 0 32 = bits v 0 32 ∧
    bits (lanePersistent v) 49 15 = bits v 49 15 ∧
    bits (columnRemap v c) 55 1 = 1 ∧ bits (columnRemap v c) 56 7 = c % 128 ∧ bits (columnRemap v c) 0 55 = bits v 0 55

namespace Sys2Proof.Claims

/-- The conversion of R243: rounded once to nearest even into FP8 with saturation, BF16 or FP32, or into INT8 with saturation, a NaN
as 0. -/
def storedAs (ty : Nat) (v : BitVec 40) : Nat :=
  if isFloat ty then (roundFx (fmtOf ty) .rne (decodeF Fmt.a40 v.toNat)).1
  else ((toIntFx .rne (-128) 127 0 (decodeF Fmt.a40 v.toNat)).1.emod 256).toNat

/-- The elements that MST stores of accumulator `n`: element 128 i + j at base + i × pitch + j × es (R243). -/
def mstStores (g : Grant) (n ty : Nat) (base pitch : Word) (count : Nat) : Stores :=
  .mk 0 count (ebOf ty) (fun _ => True)
    (fun k => some (base + BitVec.ofNat 64 (k / 128) * pitch + BitVec.ofNat 64 (k % 128 * ebOf ty)))
    (fun k => storedAs ty (g.accAt n (k / 128) (k % 128)))

end Sys2Proof.Claims

/-- MST (R243, R325) completes where its writes do. In plain memory each of the 16,384 elements holds the accumulator's value rounded once
into the operand word's type, at base + i × pitch + j × es, in ascending order, and every other byte of memory is as it was; no
accumulator, tile or x register changes. At an element whose write fails it traps, those below it written and no other. An operand word
with a reserved type or bit raises ENGINE 1, an accumulator outside the grant ENGINE 3. -/
def Sys2Proof.Claims.AccumulatorStoreCompletes : Prop :=
  ∀ o acc rs1 rs2 s g, s.cmOk s.hart = true → s.hart.grant = some g →
    let base := s.hart.xr rs1
    let w := s.hart.xr rs2
    let pitch := sextN 40 (bits w 0 40)
    (∀ ty, storeType (bits w 61 3) = some ty → bits w 40 21 = 0 → acc.toNat < g.accs →
      (∀ u, (mstElems g acc.toNat ty (ebOf ty) base pitch 16384 0).run s = .ok () u → releases o u →
        exec (.mst o acc rs1 rs2) s = .next (onHart (unitSeen u) (past u.hart))) ∧
      ((mstStores g acc.toNat ty base pitch 16384).storable s → releases o s →
        ∃ t, exec (.mst o acc rs1 rs2) s = .next t ∧ (mstStores g acc.toNat ty base pitch 16384).Stored s t ∧
          t = { unitSeen s with hart := t.hart, mem := t.mem, others := t.others, freeCtr := t.freeCtr } ∧
          t.hart = (past { s.hart with reservation := t.hart.reservation }).retire ∧
          t.others.map (fun h => { h with reservation := none }) = s.others.map (fun h => { h with reservation := none })) ∧
      (∀ k, k < 16384 → let va := base + BitVec.ofNat 64 (k / 128) * pitch + BitVec.ofNat 64 (k % 128 * ebOf ty)
        (mstStores g acc.toNat ty base pitch k).storable s → (va.toNat % ebOf ty ≠ 0 ∨ s.physLimit ≤ va.toNat) →
        ∃ u tr, exec (.mst o acc rs1 rs2) s = .next (deliver tr u) ∧ tr.cause = (if va.toNat % ebOf ty ≠ 0 then 6 else 7) ∧
          tr.addr = some va ∧ tr.unit = 4 ∧ (mstStores g acc.toNat ty base pitch k).Stored s u ∧
          u.hart = { s.hart with reservation := u.hart.reservation })) ∧
    ((storeType (bits w 61 3) = none ∨ bits w 40 21 ≠ 0) → exec (.mst o acc rs1 rs2) s = .next (deliver (cuEngine 1) s)) ∧
    (∀ ty, storeType (bits w 61 3) = some ty → bits w 40 21 = 0 → g.accs ≤ acc.toNat →
      exec (.mst o acc rs1 rs2) s = .next (deliver (cuEngine 3) s))

/-- The contraction unit: loads of tiles, array commands and the check column, stores of accumulators. -/
def Obligations.ArrayInstructionsComplete : Prop :=
  TileLoadsComplete ∧ ArrayCommandsComplete ∧ CheckColumnFollows ∧ AccumulatorStoreCompletes

namespace Sys2Proof.Claims

/-- The step words of Table 14-6. -/
def stepFields (v : Nat) (w : StepWord) : Prop :=
  w.fidx = v % 16 ∧ w.bin = v / 2 ^ 4 % 16 ∧ w.bout = v / 2 ^ 8 % 16 ∧ w.m = v / 2 ^ 12 % 4096 ∧ w.n = v / 2 ^ 24 % 4096 ∧
  w.cin = v / 2 ^ 36 % 8 ∧ w.cout = v / 2 ^ 39 % 8 ∧ w.last = v.testBit 42

/-- One carry-out value (R251): for each k-block of 128 rows the exact sum of the rounded carry-in times the factor, scaled, added and
rounded once to A40; the last sum rounded to FP32. -/
def chainValue (e : StepEnv) (scales : List Nat) (tiles : List (List (List Nat))) (carry : List Nat) (p m q c t : Nat) : Nat :=
  let tc := (e.nc + 127) / 128
  let s := m * e.bo + c
  let input r := decodeF Fmt.bf16 (roundFx Fmt.bf16 .rne (decodeF Fmt.f32
    (carry.getD ((((p * e.w.n + r / e.bi) * e.q + q) * e.bi + r % e.bi) * e.t + t) 0))).1
  let factor r := decodeF Fmt.f8 (((tiles.getD (r / 128 * tc + s / 128) []).getD (r % 128) []).getD (s % 128) 0)
  let block (z : BitVec 40) a :=
    let rows := (List.range (min 128 (e.kr - 128 * a))).map (128 * a + ·)
    accumulate z (dotFx (rows.map fun r => (input r, factor r))) (.fin false 1 0) (decodeF Fmt.f32 (scales.getD (a * tc + s / 128) 0))
  (roundFx Fmt.f32 .rne (decodeF Fmt.a40 ((List.range ((e.kr + 127) / 128)).foldl block 0).toNat)).1

/-- The structures that a step has read (R252 step 3): header, step words to the first LAST, carry descriptor, factor descriptor. -/
structure ChainRead where
  hdr : Nat
  steps : List StepWord
  cd : Nat
  w : StepWord
  fd : Nat

/-- Slot `n` of the carry descriptor (Table 14-8). -/
def ChainRead.slot (r : ChainRead) (n : Nat) : Word := sext48 (r.cd / 2 ^ (128 + 64 * n) % 2 ^ 48)
def ChainRead.cap (r : ChainRead) (n : Nat) : Nat := r.cd / 2 ^ (176 + 64 * n) % 2 ^ 16

/-- What a step works from (R247, R249, R250). -/
def ChainRead.env (r : ChainRead) (h : Hart) (k : Nat) : StepEnv where
  w := r.w
  p := ((r.steps.take k).map (·.m)).prod
  q := ((r.steps.drop (k + 1)).map (·.n)).prod
  bi := (h.bd.getD r.w.bin 1).toNat
  bo := (h.bd.getD r.w.bout 1).toNat
  t := r.cd % 2 ^ 32
  kr := r.fd / 2 ^ 128 % 2 ^ 16
  nc := r.fd / 2 ^ 144 % 2 ^ 16
  tiles := sext48 (r.fd % 2 ^ 48)
  scales := sext48 (r.fd / 2 ^ 64 % 2 ^ 48)
  inSlot := r.slot r.w.cin
  outSlot := r.slot r.w.cout

/-- The checks of R252 step 4 on a step that the program holds. -/
def ChainRead.fieldsOk (r : ChainRead) (h : Hart) (k : Nat) : Prop :=
  let e := r.env h k
  (∀ w ∈ r.steps, w.m ≠ 0 ∧ w.n ≠ 0) ∧ r.w.cin ≤ 5 ∧ r.w.cout ≤ 5 ∧ r.w.cin ≠ r.w.cout ∧ r.cap r.w.cin ≠ 0 ∧ r.cap r.w.cout ≠ 0 ∧
  e.kr = r.w.n * e.bi ∧ e.nc = r.w.m * e.bo ∧ 1 ≤ e.t ∧ e.t ≤ 16777216 ∧ (sext48 (r.hdr % 2 ^ 48)).toNat % 32 = 0 ∧
  e.tiles.toNat % 64 = 0 ∧ e.scales.toNat % 4 = 0 ∧ e.inSlot.toNat % 4 = 0 ∧ e.outSlot.toNat % 4 = 0

/-- `n` steps of a weight chain from CHSTEP on, none of which sets LAST (R252). -/
def chainSteps (prog cd : Word) : Nat → State → State → Prop
  | 0, s, u => u = s
  | n + 1, s, u => ∃ v, (chainStep prog cd s.hart.chstep.toNat none).run s = .ok false v ∧
      chainSteps prog cd n { v with hart := { v.hart with chstep := BitVec.ofNat 12 (s.hart.chstep.toNat + 1) } } u

/-- The grant that a chain command leaves: its accumulators, tiles and latch undefined (R252). -/
def spent (k : Nat) (h : Hart) : Hart := { h with grant := h.grant.map (·.undefined k) }

end Sys2Proof.Claims

/-- One step of a weight chain (R247 to R252). It reads the header, the step words up to LAST, the carry descriptor and the factor
descriptor, and works from their fields; a step that the program does not hold, or fields that R252 forbids, raise ENGINE 1, a carry
that exceeds its slot CARRY_OVERFLOW with the slot's entry as FADDR, the input's first; then it reads scales, tiles and the carry-in and
writes every value of the carry-out at its place. In plain memory the values read and written are the memory's. -/
def Sys2Proof.Claims.ChainStepFollows : Prop :=
  (∀ prog cd k s hdr ws cdv a b c, (readStruct prog 64).run s = .ok hdr a → (readSteps prog 4096 0).run a = .ok ws b →
    (readStruct cd 64).run b = .ok cdv c →
    (((ws.getLast?.map (·.last)).getD false = false ∨ ws.length ≤ k) →
      ∃ t, (chainChecks prog cd k).run s = .error (.trap t) c ∧ t.cause = 48 ∧ t.sub = 1) ∧
    (∀ w fd d, (ws.getLast?.map (·.last)).getD false = true → ws[k]? = some w →
      (readStruct (sext48 (hdr % 2 ^ 48) + BitVec.ofNat 64 (32 * w.fidx)) 32).run c = .ok fd d →
      let r : ChainRead := .mk hdr ws cdv w fd
      let e := r.env d.hart k
      let entry n := cd + BitVec.ofNat 64 (16 + 8 * n)
      let tooBig (slot x bonds : Nat) := r.cap slot * 65536 < 4 * e.p * x * e.q * bonds * e.t
      (¬ r.fieldsOk d.hart k → ∃ t, (chainChecks prog cd k).run s = .error (.trap t) d ∧ t.cause = 48 ∧ t.sub = 1) ∧
      (r.fieldsOk d.hart k → tooBig w.cin w.n e.bi → ∃ t, (chainChecks prog cd k).run s = .error (.trap t) d ∧ t.cause = 28 ∧
        t.sub = 1 ∧ t.addr = some (entry w.cin)) ∧
      (r.fieldsOk d.hart k → ¬ tooBig w.cin w.n e.bi → tooBig w.cout w.m e.bo →
        ∃ t, (chainChecks prog cd k).run s = .error (.trap t) d ∧ t.cause = 28 ∧ t.sub = 1 ∧ t.addr = some (entry w.cout)) ∧
      (r.fieldsOk d.hart k → ¬ tooBig w.cin w.n e.bi → ¬ tooBig w.cout w.m e.bo → (chainChecks prog cd k).run s = .ok e d))) ∧
  (∀ prog n k s v u, (memRead cuWho (prog + BitVec.ofNat 64 (64 + 8 * k)) 8).run s = .ok v u →
    stepFields v (stepWordOf v) ∧
    (v.testBit 42 = true → (readSteps prog (n + 1) k).run s = .ok [stepWordOf v] u) ∧
    (v.testBit 42 = false → ∀ ws w, (readSteps prog n (k + 1)).run u = .ok ws w →
      (readSteps prog (n + 1) k).run s = .ok (stepWordOf v :: ws) w)) ∧
  (∀ prog cd k s e scales tiles carry outs a b c d t,
    let n := (e.kr + 127) / 128 * ((e.nc + 127) / 128)
    (chainChecks prog cd k).run s = .ok e a → (readValues 4 n e.scales).run a = .ok scales b →
    (readTiles e ((e.nc + 127) / 128) n 0).run b = .ok tiles c →
    (readValues 4 (e.p * e.w.n * e.q * e.bi * e.t) e.inSlot).run c = .ok carry d →
    outs.length = e.p * e.w.m * e.q * e.bo * e.t →
    (∀ p m q x y, p < e.p → m < e.w.m → q < e.q → x < e.bo → y < e.t →
      outs.getD ((((p * e.w.m + m) * e.q + q) * e.bo + x) * e.t + y) 0 = chainValue e scales tiles carry p m q x y) →
    (writeValues e.outSlot outs 0).run d = .ok () t → (chainStep prog cd k none).run s = .ok e.w.last t) ∧
  (∀ s es n (va : Word), bare s → 0 < es →
    (∀ k, k < n → let a := (va + BitVec.ofNat 64 (k * es)).toNat
      a % es = 0 ∧ a + es ≤ s.physLimit ∧ cleanBytes s a es) →
    ∃ vs, (readValues es n va).run s = .ok vs s ∧ vs.length = n ∧
      ∀ k, k < n → vs.getD k 0 = ofBytes (Memory.read s.mem (va + BitVec.ofNat 64 (k * es)).toNat es)) ∧
  (∀ s (e : StepEnv) tc n, bare s → 0 < tc →
    let rows i := min 128 (e.kr - 128 * (i / tc))
    let cols i := min 128 (e.nc - 128 * (i % tc))
    let at' i r c := (e.tiles + BitVec.ofNat 64 (16384 * i) + BitVec.ofNat 64 (128 * r) + BitVec.ofNat 64 c).toNat
    (∀ i r c, i < n → r < rows i → c < cols i → at' i r c + 1 ≤ s.physLimit ∧ cleanBytes s (at' i r c) 1) →
    ∃ ts, (readTiles e tc n 0).run s = .ok ts s ∧ ts.length = n ∧
      ∀ i r c, i < n → r < rows i → c < cols i →
        ((ts.getD i []).getD r []).getD c 0 = (Memory.get s.mem (at' i r c)).toNat) ∧
  (∀ s (base : Word) (vs : List Nat),
    let S : Stores := .mk 0 vs.length 4 (fun _ => True) (fun k => some (base + BitVec.ofNat 64 (4 * k))) (fun k => vs.getD k 0)
    S.storable s → ∃ t, (writeValues base vs 0).run s = .ok () t ∧ S.Stored s t ∧
      t.hart = { s.hart with reservation := t.hart.reservation })

/-- Weight chains (R252, R253, R309): CHNRUN runs the steps from CHSTEP to the one that sets LAST, and sets CHSTEP to 0; CHNSTEP runs one
and moves CHSTEP on. A step that traps, the first or a later one of CHNRUN, leaves CHSTEP at it, the steps before it complete, and the
grant's registers as they were; a forced pre-emption that is due before a step stops there, with CHSTEP at it. A misaligned program or
descriptor raises ENGINE 1, no grant ENGINE 3. -/
def Sys2Proof.Claims.ChainRunsComplete : Prop :=
  (∀ o rs1 rs2 s g n v u, s.cmOk s.hart = true → s.hart.grant = some g → (s.hart.xr rs1).toNat % 64 = 0 →
    (s.hart.xr rs2).toNat % 64 = 0 → s.hart.stopAt = none → n < 4096 → chainSteps (s.hart.xr rs1) (s.hart.xr rs2) n s v →
    (chainStep (s.hart.xr rs1) (s.hart.xr rs2) v.hart.chstep.toNat none).run v = .ok true u → releases o u →
    exec (.chnrun o rs1 rs2) s = .next (onHart (unitSeen { u with freeCtr := u.freeCtr + 1 })
      (past (spent u.freeCtr { u.hart with chstep := 0 })))) ∧
  (∀ o rs1 rs2 s g last u, s.cmOk s.hart = true → s.hart.grant = some g → (s.hart.xr rs1).toNat % 64 = 0 →
    (s.hart.xr rs2).toNat % 64 = 0 → s.hart.stopAt = none →
    (chainStep (s.hart.xr rs1) (s.hart.xr rs2) s.hart.chstep.toNat none).run s = .ok last u → releases o u →
    exec (.chnstep o rs1 rs2) s = .next (onHart (unitSeen { u with freeCtr := u.freeCtr + 1 })
      (past (spent u.freeCtr { u.hart with
        chstep := if last then 0 else BitVec.ofNat 12 (s.hart.chstep.toNat + 1) })))) ∧
  (∀ i o rs1 rs2 s g n v tr u, (i = Instr.chnrun o rs1 rs2 ∨ i = Instr.chnstep o rs1 rs2 ∧ n = 0) → s.cmOk s.hart = true →
    s.hart.grant = some g → (s.hart.xr rs1).toNat % 64 = 0 → (s.hart.xr rs2).toNat % 64 = 0 → s.hart.stopAt = none → n < 4096 →
    s.hart.chstep.toNat + n < 4096 → chainSteps (s.hart.xr rs1) (s.hart.xr rs2) n s v →
    (chainStep (s.hart.xr rs1) (s.hart.xr rs2) v.hart.chstep.toNat none).run v = .error (.trap tr) u →
    v.hart.chstep.toNat = s.hart.chstep.toNat + n ∧ u.hart.chstep = v.hart.chstep ∧
    exec i s = .next (deliver (cuTrap tr) { u with hart := { u.hart with vpoiscnt := v.hart.vpoiscnt, grant := some g } })) ∧
  (∀ o rs1 rs2 s g n v, s.cmOk s.hart = true → s.hart.grant = some g → (s.hart.xr rs1).toNat % 64 = 0 →
    (s.hart.xr rs2).toNat % 64 = 0 → s.forcedDue = true → s.hart.chstep.toNat + n < 4096 →
    s.hart.stopAt = some (s.hart.chstep.toNat + n) → chainSteps (s.hart.xr rs1) (s.hart.xr rs2) n s v →
    v.hart.chstep.toNat = s.hart.chstep.toNat + n ∧
    exec (.chnrun o rs1 rs2) s = .next (preempt true true v.hart.pc 0 v)) ∧
  (∀ i o rs1 rs2 s, (i = Instr.chnrun o rs1 rs2 ∨ i = Instr.chnstep o rs1 rs2) → s.cmOk s.hart = true →
    (s.hart.grant = none → exec i s = .next (deliver (cuEngine 3) s)) ∧
    (∀ g, s.hart.grant = some g → (s.hart.xr rs1).toNat % 64 ≠ 0 →
      exec i s = .next (deliver { cuEngine 1 with addr := some (s.hart.xr rs1) } s)) ∧
    (∀ g, s.hart.grant = some g → (s.hart.xr rs1).toNat % 64 = 0 → (s.hart.xr rs2).toNat % 64 ≠ 0 →
      exec i s = .next (deliver { cuEngine 1 with addr := some (s.hart.xr rs2) } s)))

/-- A step of a weight chain, and the commands that run them. -/
def Obligations.ChainCommandsComplete : Prop := ChainStepFollows ∧ ChainRunsComplete

/-! ## Iterations (R24, R28 to R31, R222, R318, R320, R327, R329, R388, R389) -/

namespace Sys2Proof.Claims

/-- Vector state that an entry, a YIELD and a light resumption leave: the control registers at their reset values, no element at which to
resume, everything else undefined (R28, R36, R210, R388). -/
def lightVector (h : Hart) : Prop :=
  h.vtype = 0x1DC#64 ∧ h.mfc = 0x8#64 ∧ h.vshp = 0x10000#64 ∧ h.vhint = 0 ∧ h.vvsel = 0 ∧ h.vxi = 0 ∧ h.freshConvoy = true ∧
  ∃ n m, h.vregs = .undef n ∧ h.preds = .undef n ∧ h.sf = .undef n ∧ h.masks = .undef n ∧ h.td = .undef m ∧ h.tdAddr = .undef m

/-- How far a launch's key has come. -/
def keyAt (s : State) (n : Nat) (key : List Nat) : Option KeyState := (s.launches.get? n).map (·.keyState key)

/-- The registers of an iteration: IDX0 to IDX5 and IDXLIN (R23). -/
def hasIndex (h : Hart) (exts it : List Nat) : Prop :=
  (∀ l, l < 6 → h.idx.getD l 0 = BitVec.ofNat 32 (it.getD l 0)) ∧ h.idxlin = BitVec.ofNat 64 (idxLin exts it)

/-- Where a hart that a key has just been given to begins: the launch's first setup, else the body of its first run (R28, R221). -/
def startsAt (l : Launch) (key : List Nat) : Option Word :=
  match setups l, l.runFrom key (l.keyState key).nextPos with
  | b :: _, _ => some (BitVec.ofNat 64 ((l.kernel b).hdr + (l.kernel b).setOff))
  | [], some r => some (BitVec.ofNat 64 ((l.kernel r.inB).hdr + (l.kernel r.inB).entry))
  | [], none => none

/-- The kernel whose setup or body that is: B's? -/
def startsIn (l : Launch) (key : List Nat) : Option Bool :=
  match setups l with
  | b :: _ => some b
  | [] => (l.runFrom key (l.keyState key).nextPos).map (·.inB)

/-- x2 in a setup or body: the top of the slot, for A of a pair the top of its lower half; zero with no stack (R28, R222, R290). -/
def stackAt (qu : Queue) (l : Launch) (inB : Bool) (slot : Nat) : Word :=
  if (l.kernel inB).stack = 0 then 0
  else qu.cstkbase + BitVec.ofNat 64 ((slot + 1) * 2 ^ qu.cstklog -
    if l.pair.isSome = true ∧ inB = false then 2 ^ qu.cstklog / 2 else 0)

/-- A hart that begins a key of a launch at its first entry, with a stack slot or none (R25, R28, R130, R189, R236, R257, R290). -/
def begins (qu : Queue) (n : Nat) (l : Launch) (key : List Nat) (slot : Option Nat) (h : Hart) : Prop :=
  h.status = .running ∧ h.mode = .u ∧ startsAt l key = some h.pc ∧ (h.job.map (·.launch)) = some n ∧ (h.job.map (·.key)) = some key ∧
  h.job.bind (·.slot) = slot ∧
  (∀ b, startsIn l key = some b → h.xr 2 = stackAt qu l b (slot.getD 0) ∧ h.xr 10 = BitVec.ofNat 64 (l.kernel b).param) ∧
  (∀ r, r ≠ 2 → r ≠ 10 → h.xr r = 0) ∧ (∀ r, h.fr r = 0) ∧ lightVector h ∧ h.rotation = 0 ∧ h.hook = none ∧ h.grant = none ∧
  h.clause = none ∧ h.sbanks = entryBanks l ∧ h.vbanks = 0 ∧ h.cbanks = 64 - entryBanks l ∧
  h.vmax = (if l.a.feat.testBit 3 then 63 - entryBanks l else 0) ∧ h.pool = []

/-- A hart that runs a launch from its first entry, newly given to it: no request pends. -/
def entered (qu : Queue) (n : Nat) (l : Launch) (key : List Nat) (slot : Nat) (h : Hart) : Prop :=
  begins qu n l key (if needsSlot l then some slot else none) h ∧ h.preq = 0

/-- A hart that a handler's end of its launch, or a retirement, has freed from the program. -/
def left (h : Hart) : Prop := h.status = .retired ∧ h.mode = .m ∧ h.hook = none ∧ h.grant = none ∧ h.clause = none

end Sys2Proof.Claims

/-- ITER (R30, R320), NEXT (R25, R29, R327), END (R31, R318), YIELD (R388). ITER in the body of an unspliced launch takes the key's next
iteration and answers 1, or answers 0 with none left; the indices move, all else stays. NEXT enters the body again with the next
iteration: PMASK's registers kept, x10 the parameter, vector state as at every entry; with none left of its key and another key free, it
begins that one as a hart newly given to the launch does, its stack slot kept, and the distributor chooses which; at both a pending
request is taken, interrupt 16 with the saved PC the entry that NEXT makes (R58); with no iteration of any key left the hart retires. END retires it, and it takes no more of the launch. YIELD undefines the vector state and goes on. Inside a hook
NEXT, END and U-mode's YIELD end the launch with TCAUSE 8 (R329, R389). -/
def Obligations.IterationInstructionsComplete : Prop :=
  (∀ rd s j l r, s.hart.job = some j → s.launchOf s.hart = some l → j.inSetup = false → l.pair = none →
    l.runFor s.hart.id j.key (l.keyState j.key).nextPos = some r →
    ∃ t, exec (.iter rd) s = .next t ∧ t = { s with hart := t.hart, launches := t.launches } ∧
      t.hart = (past { s.hart with
        x := t.hart.x, idx := t.hart.idx, idxlin := t.hart.idxlin, job := t.hart.job, freshConvoy := true }).retire ∧
      (rd ≠ 0 → t.hart.xr rd = 1) ∧ (∀ x, x ≠ rd → t.hart.xr x = s.hart.xr x) ∧ hasIndex t.hart l.a.exts r.iter ∧
      keyAt t j.launch j.key = some (.mk j.key (r.pos + 1) (some s.hart.id))) ∧
  (∀ rd s, (∀ j l, s.hart.job = some j → s.launchOf s.hart = some l → j.inSetup = true ∨ l.pair.isSome = true ∨
      l.runFor s.hart.id j.key (l.keyState j.key).nextPos = none) →
    exec (.iter rd) s = .next (onHart s (past (({ s.hart with freshConvoy := true } : Hart).setX rd 0)))) ∧
  (∀ s j l r, s.hart.job = some j → s.launchOf s.hart = some l → l.pair = none → s.hart.hookSave = none →
    l.runFor s.hart.id j.key (l.keyState j.key).nextPos = some r →
    ∃ t, exec .next s = .next (if s.hart.requestPending then preempt false false t.hart.pc 0 t else t) ∧
      t.hart.mode = .u ∧ t.hart.pc = BitVec.ofNat 64 (l.a.hdr + l.a.entry) ∧ lightVector t.hart ∧
      (preempt false false t.hart.pc 0 t).hart.mepc = t.hart.pc ∧
      (preempt false false t.hart.pc 0 t).hart.mcause = BitVec.ofNat 64 (2 ^ 63 + 16) ∧ t.hart.job.bind (·.iter) = some r.iter ∧
      t.hart.xr 10 = BitVec.ofNat 64 l.a.param ∧ t.hart.xr 2 = stackTop (s.queue l.queue) l false j.slot ∧
      (∀ x : BitVec 5, x ≠ 2 → x ≠ 10 → l.a.pmask.testBit x.toNat = true → t.hart.xr x = s.hart.xr x) ∧
      (∀ x : BitVec 5, l.a.pmask.testBit (32 + x.toNat) = true → t.hart.fr x = s.hart.fr x) ∧
      hasIndex t.hart l.a.exts r.iter ∧ t.hart.grant = s.hart.grant ∧ t.hart.hook = s.hart.hook ∧ t.hart.pool = s.hart.pool ∧
      keyAt t j.launch j.key = some (.mk j.key (r.pos + 1) (some s.hart.id)) ∧ t.mem = s.mem ∧ t.others = s.others) ∧
  (∀ s j l, s.hart.job = some j → s.launchOf s.hart = some l → l.pair = none → s.hart.hookSave = none →
    l.runFor s.hart.id j.key (l.keyState j.key).nextPos = none → (∀ key, key ≠ j.key → keyFree l s.hart.die key = false) →
    ∃ t, exec .next s = .next t ∧ left t.hart ∧ t.hart.pool = s.hart.pool ∧ t.mem = s.mem ∧ t.others = s.others ∧
      (keyAt t j.launch j.key).map (·.holder) = some none) ∧
  (∀ s j l i, s.hart.job = some j → s.launchOf s.hart = some l → l.pair = none → s.hart.hookSave = none →
    l.runFrom j.key (l.keyState j.key).nextPos = none → l.a.isGang = false → s.hart.id ∉ l.left → i < keyCount l.a →
    keyFree l s.hart.die (unflatten (spatial l.a) i) = true → entryBanks l ≤ 63 →
    ∃ t key, exec .next s = .next (if s.hart.requestPending then preempt false false t.hart.pc 0 t else t) ∧ key ≠ j.key ∧ keyFree l s.hart.die key = true ∧
      begins (s.queue l.queue) j.launch l key j.slot t.hart ∧ (t.hart.job.map (·.since)) = some s.time ∧ t.hart.preq = s.hart.preq ∧
      (keyAt t j.launch j.key).map (·.holder) = some none ∧ (keyAt t j.launch key).map (·.holder) = some (some s.hart.id) ∧
      t.mem = s.mem ∧ t.others = s.others) ∧
  (∀ s j l, s.hart.job = some j → s.launchOf s.hart = some l → s.hart.hookSave = none →
    ∃ t, exec .endK s = .next t ∧ left t.hart ∧ t.mem = s.mem ∧ t.others = s.others ∧
      (keyAt t j.launch j.key).map (·.holder) = some none ∧
      ((t.launches.get? j.launch).map (·.left.contains s.hart.id)) = some true) ∧
  (∀ s, (s.hart.hookSave = none ∨ s.hart.mode = .m) →
    ∃ u : State, exec .yield s = .next (if u.hart.requestPending then preempt false false u.hart.pc 0 u else u) ∧
      lightVector u.hart ∧ u.hart.x = s.hart.x ∧ u.hart.f = s.hart.f ∧ u.hart.fcsr = s.hart.fcsr ∧ u.hart.pc = s.hart.pc + 4 ∧
      u.hart.job = s.hart.job ∧ u.hart.idx = s.hart.idx ∧ u.hart.bd = s.hart.bd ∧ u.hart.vfflags = s.hart.vfflags ∧
      u.hart.pool = s.hart.pool ∧ u.hart.grant = s.hart.grant ∧ u = { s with hart := u.hart, freeCtr := u.freeCtr }) ∧
  (∀ s c, s.hart.hookSave = some c → exec .next s = .next (endOwnLaunch 8 s) ∧ exec .endK s = .next (endOwnLaunch 8 s) ∧
    (s.hart.mode = .u → exec .yield s = .next (endOwnLaunch 8 s)))

/-! ## Launches and collectives from a kernel (R231, R232, R261 to R265) -/

/-- LAUNCH and SPLBAR (R231, R232, R321, R322, R344). With LPERM's bit and the target queue enabled and not full, the record is written
at the tail, its 64 bytes where the queue's translation places them and no other byte of memory but page-table bits A and D, taken, and
announced; a record whose write fails is announced as unreadable; a full ring raises ENGINE 2, no permission ENGINE 1,
a misaligned record ENGINE 1 with its address. SPLBAR puts a barrier at the tail, once, ENGINE 2 when eight stand. -/
def Sys2Proof.Claims.LaunchAndBarrierComplete : Prop :=
  (∀ rs1 rs2 s u r, let q := (s.hart.xr rs1).toNat
    let slot := (u.queue q).recordAt (u.queue q).tail.toNat
    s.launchPermission s.hart q = true → (s.queue q).cen = true → (s.hart.xr rs2).toNat % 64 = 0 →
    (readDesc {} (s.hart.xr rs2)).run s = .ok r u →
    idxDist (u.queue q).tail.toNat (u.queue q).head.toNat ≠ 2 ^ (u.queue q).clog2n →
    (∀ v, (qWrite q slot (toBytes 64 r.toNat)).run u = .ok () v →
      exec (.launch rs1 rs2) s = .next (onHart (v.setQueue q { v.queue q with
        taken := (v.queue q).taken.put (u.queue q).tail.toNat r
        unreadable := (v.queue q).unreadable.filter (· ≠ (u.queue q).tail.toNat)
        tail := (v.queue q).tail + 1 }) (past v.hart))) ∧
    (∀ tr v, (qWrite q slot (toBytes 64 r.toNat)).run u = .error (.trap tr) v →
      ∃ t, exec (.launch rs1 rs2) s = .next t ∧ t.mem = u.mem ∧ t.hart = (past u.hart).retire ∧
        (t.queue q).tail = (u.queue q).tail + 1 ∧ (t.queue q).unreadable = (u.queue q).tail.toNat :: (u.queue q).unreadable ∧
        ∀ p, p ≠ q → t.queue p = u.queue p)) ∧
  (∀ q va bs s ps u, s.memOk → (qPlaces q va bs.length).run s = .ok ps u → ∃ t, (qWrite q va bs).run s = .ok () t ∧
    t = { s with
      hart := t.hart, others := t.others, mem := t.mem, poison := t.poison, freeCtr := t.freeCtr } ∧
    t.hart = { s.hart with reservation := t.hart.reservation } ∧
    wroteThrough s t ps bs) ∧
  (∀ rs1 rs2 s u r, let q := (s.hart.xr rs1).toNat
    s.launchPermission s.hart q = true → (s.queue q).cen = true → (s.hart.xr rs2).toNat % 64 = 0 →
    (readDesc {} (s.hart.xr rs2)).run s = .ok r u →
    idxDist (u.queue q).tail.toNat (u.queue q).head.toNat = 2 ^ (u.queue q).clog2n →
    exec (.launch rs1 rs2) s = .next (deliver { cause := 48, sub := 2 }
      { u with hart := { u.hart with vpoiscnt := s.hart.vpoiscnt } })) ∧
  (∀ rs1 rs2 s, ((s.launchPermission s.hart (s.hart.xr rs1).toNat && (s.queue (s.hart.xr rs1).toNat).cen) = false →
      exec (.launch rs1 rs2) s = .next (deliver { cause := 48, sub := 1 } s)) ∧
    (s.launchPermission s.hart (s.hart.xr rs1).toNat = true → (s.queue (s.hart.xr rs1).toNat).cen = true →
      (s.hart.xr rs2).toNat % 64 ≠ 0 →
      exec (.launch rs1 rs2) s = .next (deliver { cause := 48, sub := 1, addr := some (s.hart.xr rs2) } s))) ∧
  (∀ rs1 s, let q := (s.hart.xr rs1).toNat
    let b := (s.queue q).tail.toNat
    let standing := ((s.queue q).barriers.filter fun i => idxAtLeast i (s.queue q).head.toNat).length
    (s.launchPermission s.hart q = false → exec (.splbar rs1) s = .next (deliver { cause := 48, sub := 1 } s)) ∧
    (s.launchPermission s.hart q = true → b ∈ (s.queue q).barriers → exec (.splbar rs1) s = .next (onHart s (past s.hart))) ∧
    (s.launchPermission s.hart q = true → b ∉ (s.queue q).barriers → standing < 8 →
      exec (.splbar rs1) s = .next (onHart (s.setQueue q { s.queue q with barriers := (s.queue q).barriers ++ [b] })
        (past s.hart))) ∧
    (s.launchPermission s.hart q = true → b ∉ (s.queue q).barriers → 8 ≤ standing →
      exec (.splbar rs1) s = .next (deliver { cause := 48, sub := 2 } s)))

/-- COLL and CCANCEL (R64, R261 to R264, R308, R315). COLL, once R261's checks pass and fewer than 1,024 registrations live,
registers the collective, not yet numbered, and goes on; CCANCEL
answers 2 without a registration, else sends the cancellation, and from then on waits, whatever comes of the registration and of
pre-emption requests. Without USECOLL each raises illegal instruction. ENGINE of a COLL in the reduced service, and of one at a misaligned
descriptor, has UNIT 0, which is the model's choice (DESIGN CHOICE log 48). -/
def Sys2Proof.Claims.CollectiveInstructionsComplete : Prop :=
  (∀ o rs1 rs2 s u d q j, s.ccOk s.hart = true → s.status.full = true → (s.hart.xr rs1).toNat % 64 = 0 →
    (s.hart.xr rs2).toNat % 8 = 0 → (readDesc {} (s.hart.xr rs1)).run s = .ok d u → u = { s with hart := u.hart, mem := u.mem } →
    s.queueOf s.hart = some q → s.hart.job = some j → collChecks s q (s.hart.xr rs1) (collDesc d) = true → s.regs.length < 1024 →
    ∃ t g, exec (.coll o rs1 rs2) s = .next t ∧
      t = { u with hart := t.hart, regs := s.regs ++ [g], nextReg := s.nextReg + 1, collSeen := true } ∧ g.id = s.nextReg ∧
      t.hart = (past u.hart).retire ∧ g.comm = (collDesc d).comm ∧ g.tag = (collDesc d).tag ∧ g.desc = d ∧ g.queue = q ∧
      g.launch = j.launch ∧ g.holder = some (.hart s.hart.id) ∧ g.descVa = s.hart.xr rs1 ∧ g.counter = (s.hart.xr rs2).toNat ∧ g.order = o ∧ g.state = .unnumbered ∧
      g.cancelPending = false ∧ g.verdict = none ∧ g.accepted = false ∧ g.told = none) ∧
  (∀ o rs1 rs2 s, s.ccOk s.hart = true →
    (s.status.full = false → exec (.coll o rs1 rs2) s = .next (deliver { cause := 48, sub := 1 } s)) ∧
    (s.status.full = true → (s.hart.xr rs1).toNat % 64 ≠ 0 →
      exec (.coll o rs1 rs2) s = .next (deliver { cause := 48, sub := 1, addr := some (s.hart.xr rs1) } s))) ∧
  (∀ rd rs1 s, s.ccOk s.hart = true → s.regAt s.hart (s.hart.xr rs1) = none → s.hart.requestPending = false →
    s.hart.cancel = none → exec (.ccancel rd rs1) s = .next (onHart s (past (s.hart.setX rd 2)))) ∧
  (∀ rd rs1 s g, s.ccOk s.hart = true → s.regAt s.hart (s.hart.xr rs1) = some g → s.hart.requestPending = false →
    s.hart.cancel = none →
    exec (.ccancel rd rs1) s = .next { s with
      hart := { s.hart with cancel := some (.mk g.comm g.tag g.id none rd s.time) }
      regs := s.regs.map fun x => if x.id = g.id then { x with cancelPending := true } else x }) ∧
  (∀ rd rs1 s c, s.ccOk s.hart = true → s.hart.cancel = some c → exec (.ccancel rd rs1) s = .next s) ∧
  (∀ i s, (∃ o a b, i = Instr.coll o a b ∨ i = .cstat a b ∨ i = .ccancel a b) → s.ccOk s.hart = false →
    exec i s = .next (deliver { cause := 2 } s))

/-- What a kernel asks of the front end and of the collective engine. -/
def Obligations.KernelRequestsComplete : Prop := LaunchAndBarrierComplete ∧ CollectiveInstructionsComplete

/-- R316, R265, R308: CSTAT answers what the live registration has come to that a COLL of this queue read at that descriptor address: 0
with none, 1 unnumbered, 2 numbered and not started, void or not, 3 started, with the start number once there is one. It changes nothing
else, and does not wait. -/
def Obligations.CstatShowsTheState : Prop :=
  ∀ rd rs1 s, s.ccOk s.hart = true → exec (.cstat rd rs1) s = .next (onHart s (past (s.hart.setX rd
    (match s.regs.find? (fun r => decide (s.queueOf s.hart = some r.queue) && decide (r.descVa = s.hart.xr rs1)) with
      | none => 0
      | some g => match g.state with
        | .unnumbered => 1
        | .numbered n _ _ _ => BitVec.ofNat 64 (n % 2 ^ 32 * 2 ^ 32 + 2)
        | .started n => BitVec.ofNat 64 (n % 2 ^ 32 * 2 ^ 32 + (if g.accepted then 3 else 2))))))

/-! ## The front end and the distributor (R24 to R32, R50 to R54, R130, R211, R318, R328) -/

namespace Sys2Proof.Claims

/-- Check 2 of Table 02-5 (R22, R63, R214). -/
def headerFits (r : RawLaunch) : Prop :=
  r.magic = 0x4B4C4543 ∧ r.version = 1 ∧ r.crcOk = true ∧
  r.k.entry % 2 = 0 ∧ 0x60 ≤ r.k.entry ∧ (r.k.setOff = 0 ∨ r.k.setOff % 2 = 0 ∧ 0x60 ≤ r.k.setOff) ∧
  1 ≤ r.k.nvreg ∧ r.k.nvreg ≤ 32 ∧ r.k.minRows ∈ [1, 2, 4, 8, 16] ∧ 1 ≤ r.lvlCnt ∧ r.lvlCnt ≤ 6 ∧ r.mapCnt ≤ 15 ∧
  (∀ l ∈ r.k.levels, l ≤ 2) ∧
  ∀ m ∈ r.k.maps, 1 ≤ m.mode ∧ m.mode ≤ 3 ∧ 1 ≤ m.dims ∧ m.dims ≤ 6 ∧ 8 * m.pidx + 8 ≤ r.k.paramSz ∧ m.dims = descRank m.desc ∧
    (∀ b ∈ m.box.take m.dims, b ≠ 0) ∧ descOk m.desc = true

/-- Check 4 (R1): for each profile the header names, the device's major version and at most its minor one. -/
def profileFits (k : Kernel) : Prop :=
  ∀ i, i < 3 → let w := k.profile / 2 ^ (8 * i) % 256
    let d := [0x12, 0x11, 0x10].getD i 0
    w / 16 = 0 ∨ w / 16 = d / 16 ∧ w % 16 ≤ d % 16

/-- Check 6 (R228): a map entry touches a range that an earlier record's pair elided. -/
def namesElided (qu : Queue) (idx : Nat) (k : Kernel) : Prop :=
  ∃ m ∈ k.maps, ∃ e ∈ qu.elisions, e.recIdx ≠ idx ∧ idxAtLeast idx e.recIdx = true ∧ rangesMeet m.desc m.owners e.desc e.owners = true

/-- The declared minimums with `banks` pool banks in the core scratchpad (R63, R130). -/
def minimumsFit (k : Kernel) (banks : Nat) : Prop :=
  banks ≤ 63 ∧ k.clSpb ≤ 8388608 ∧ k.minLen * k.minRows ≤ 8192 ∧
  k.minRows * k.minLen * 4 ≤ capacity k.nvreg (if k.feat.testBit 3 then 64 - banks - 1 else 0)

/-- A core in service remains (R192). -/
def coreRemains (s : State) : Prop := ∃ h, h < 512 ∧ isOff (s.lane h) = false

/-- Check 7 (R63, R130, R290). -/
def resourcesFit (s : State) (qu : Queue) (k : Kernel) : Prop :=
  minimumsFit k ((k.coreSp + 16383) / 16384) ∧ (k.stack = 0 ∨ qu.cstklog ≠ 0 ∧ k.stack ≤ 2 ^ qu.cstklog) ∧ coreRemains s

/-- A tiling map (R218). -/
def tiles (k : Kernel) (m : ElemMap) : Prop :=
  let L := k.levels.length
  (∀ d, d < m.dims → ((List.range L).filter fun l => m.coef d l ≠ 0).length ≤ 1) ∧
  (∀ l, l < L → 1 < k.exts.getD l 0 → ((List.range m.dims).filter fun d => m.coef d l ≠ 0).length = 1) ∧
  ∀ d l, d < m.dims → l < L → m.coef d l = 0 ∨ m.coef d l = m.box.getD d 0

/-- T's descriptor is dense, row-major and unsharded (condition 6). -/
def dense (d : BitVec 512) : Prop :=
  descOt d = false ∧ (∀ i, i < 6 → descSh d i = 0) ∧ descStr d (descRank d - 1) = descEsz d ∧
  ∀ i, i < descRank d - 1 → descStr d i = descStr d (i + 1) * descExt d (i + 1)

/-- The maps of A and B on T compose with a lag (Table 12-3). -/
def composes (a b : Kernel) (ma mb : ElemMap) (lag : Nat) : Prop :=
  a.levels = b.levels ∧ ma.mat = mb.mat ∧ ma.off = mb.off ∧ ma.dims = mb.dims ∧
  ((ma.box = mb.box ∧ lag = 0 ∧ ∀ p ∈ b.exts.zip a.exts, p.1 ≤ p.2) ∨
    (ma.box ≠ mb.box ∧ a.exts = b.exts ∧ a.levels.getLastD 0 = 0 ∧ (lag = 1 ∨ lag = 2) ∧
      ∃ d, d < ma.dims ∧ ma.coef d (a.levels.length - 1) ≠ 0 ∧
        (mb.box.getD d 0 : Int) = ma.coef d (a.levels.length - 1) * (1 + (lag : Int)) ∧ mb.box = ma.box.set d (mb.box.getD d 0)))

/-- The conditions of Table 12-2 for the record at the head of a queue, a candidate B whose wait counter holds `v`, the tensor of A's
entry `ma` and B's entry `mb` on it. -/
def splices (s : State) (qu : Queue) (a b : Kernel) (win : List WinRec) (idxB : Nat) (v : Option Nat) (ma mb : ElemMap) (lag : Nat) :
    Prop :=
  let h := qu.head.toNat
  (∀ k ∈ [a, b], k.nosplice = false ∧ k.flags.testBit 0 = true ∧ k.flags.testBit 5 = false ∧ k.flags.testBit 1 = false ∧
    k.feat.testBit 3 = false ∧ k.isGang = false) ∧
  (∀ x ∈ qu.barriers, ¬ (idxDist x h ≠ 0 ∧ idxDist x h ≤ idxDist idxB h)) ∧
  (b.waitCtr = 0 ∨ ∃ x, v = some x ∧ (b.waitTgt ≤ x ∨ b.waitCtr = a.doneCtr ∧ b.waitTgt ≤ x + 1)) ∧
  a.pmask &&& b.pmask = 0 ∧
  (a.goodMaps.filter fun m => sameTensor m.desc ma.desc) = [ma] ∧ ma.mode = 2 ∧ a.trans.testBit ma.pidx = true ∧
  (b.goodMaps.filter fun m => sameTensor m.desc ma.desc) = [mb] ∧ mb.mode = 1 ∧
  dense ma.desc ∧ dense mb.desc ∧ tiles a ma ∧ composes a b ma mb lag ∧
  (∀ w ∈ win, ∀ k, w.raw = some k → ∀ m ∈ k.rangeMaps, (m.mode = 2 ∨ m.mode = 3) → mapsMeet m ma = false) ∧
  (∀ w ∈ win, w.idx ≠ idxB → idxDist w.idx h < idxDist idxB h → ∃ k, w.raw = some k ∧ w.tableOk = true ∧ k.flags.testBit 0 = true ∧
    ∀ m ∈ k.rangeMaps, ∀ n ∈ b.goodMaps, (m.mode = 2 ∨ m.mode = 3 ∨ 2 ≤ n.mode) → mapsMeet m n = false) ∧
  (∀ m ∈ a.goodMaps, ∀ n ∈ b.goodMaps, sameTensor m.desc ma.desc = false → sameTensor n.desc ma.desc = false →
    (2 ≤ m.mode → mapsMeet m n = false) ∧ (2 ≤ n.mode → m.mode % 2 = 1 → mapsMeet m n = false)) ∧
  let banks := (a.coreSp + 16383) / 16384 + (b.coreSp + 16383) / 16384 + ((lag + 1) * ma.slotBytes + 16383) / 16384
  minimumsFit a banks ∧ minimumsFit b banks ∧ a.clSpb + b.clSpb ≤ 8388608 ∧
  (∀ k ∈ [a, b], k.stack = 0 ∨ qu.cstklog ≠ 0 ∧ 2 * k.stack ≤ 2 ^ qu.cstklog) ∧ coreRemains s

/-- The pair that they then form; T is materialised when another record of the window names a range that meets it, or when the elision
record is full (R227). -/
def formed (qu : Queue) (b : Kernel) (win : List WinRec) (idxB : Nat) (ma mb : ElemMap) (lag : Nat) (p : Pair) : Prop :=
  p.b = b ∧ p.dist = idxDist idxB qu.head.toNat ∧ p.lag = lag ∧ p.mapA = ma ∧ p.mapB = mb ∧
  (p.materialised = true ↔ 64 ≤ qu.elisions.length ∨
    ∃ w ∈ win, w.idx ≠ idxB ∧ ∃ k, w.raw = some k ∧ ∃ m ∈ k.rangeMaps, mapsMeet m ma = true)

end Sys2Proof.Claims

/-- The checks of Table 02-5 (R1, R22, R27, R52, R63, R130, R214, R287, R290, R322): the record is what its slot held when TAIL passed it;
one not readable then, or of which check 1 cannot read something now, fails with ADDRESS; of the other checks the first that fails gives
the cause, in the table's order; else the kernel is as read. Where no package answered then it is read now (DESIGN CHOICE log 13). -/
def Sys2Proof.Claims.RecordChecksFollow : Prop :=
  (∀ q i (s : State), let qu := s.queue q
    (i ∈ qu.unreadable → (recordTaken q i).run s = .ok none s) ∧
    (∀ r, i ∉ qu.unreadable → qu.taken.get? i = some r → (recordTaken q i).run s = .ok (some r) s) ∧
    (∀ bs u, i ∉ qu.unreadable → qu.taken.get? i = none → (qRead q (qu.recordAt i) 64).run s = .ok bs u →
      (recordTaken q i).run s = .ok (some (BitVec.ofNat 512 (ofBytes bs))) u) ∧
    (∀ tr u, i ∉ qu.unreadable → qu.taken.get? i = none → (qRead q (qu.recordAt i) 64).run s = .error (.trap tr) u →
      (recordTaken q i).run s = .ok none u)) ∧
  (∀ q i s u, (recordTaken q i).run s = .ok none u → (validate q i).run s = .ok (.inl 6) u) ∧
  (∀ q i s rec v tr u, (recordTaken q i).run s = .ok (some rec) v →
    (readLaunch q ((s.queue q).recordAt i) rec).run v = .error (.trap tr) u → (validate q i).run s = .ok (.inl 6) u) ∧
  (∀ q i s rec v r u, (recordTaken q i).run s = .ok (some rec) v → (readLaunch q ((s.queue q).recordAt i) rec).run v = .ok r u →
    let qu := s.queue q
    let needsPriv := r.k.flags.testBit 1 = true ∧ qu.cpriv = false
    let answers (x : Nat ⊕ Kernel) := (validate q i).run s = .ok x u
    (¬ headerFits r → answers (.inl 1)) ∧
    (headerFits r → needsPriv → answers (.inl 7)) ∧
    (headerFits r → ¬ needsPriv → ¬ profileFits r.k → answers (.inl 2)) ∧
    (headerFits r → ¬ needsPriv → profileFits r.k → 2 ^ 48 ≤ r.k.exts.prod → answers (.inl 3)) ∧
    (headerFits r → ¬ needsPriv → profileFits r.k → r.k.exts.prod < 2 ^ 48 → namesElided qu i r.k → answers (.inl 5)) ∧
    (headerFits r → ¬ needsPriv → profileFits r.k → r.k.exts.prod < 2 ^ 48 → ¬ namesElided qu i r.k → ¬ resourcesFit s qu r.k →
      answers (.inl 4)) ∧
    (headerFits r → ¬ needsPriv → profileFits r.k → r.k.exts.prod < 2 ^ 48 → ¬ namesElided qu i r.k → resourcesFit s qu r.k →
      answers (.inr r.k)))

/-- The Conjunction (R216 to R219, R223, R227, Tables 12-2 and 12-3): a pair forms on a tensor of one of A's maps exactly when every
condition of Table 12-2 holds, and B is the first candidate that passes the checks of Table 02-5 and forms one; a record that fails
them is passed over. A record of the window bars a pair, or materialises T, by the range of each of its maps, failing or not. The window
is the next seven announced records; one of a pair already is no candidate. -/
def Sys2Proof.Claims.PairsForm : Prop :=
  (∀ s qu a win idxB b v ma, ma ∈ a.goodMaps →
    (∀ p, pairOn s qu a win idxB b v ma = some p → ∃ mb lag, splices s qu a b win idxB v ma mb lag ∧ formed qu b win idxB ma mb lag p) ∧
    ∀ mb lag, splices s qu a b win idxB v ma mb lag → ∃ p, pairOn s qu a win idxB b v ma = some p ∧ formed qu b win idxB ma mb lag p) ∧
  (∀ q a win s, (findPair q a win []).run s = .ok none s) ∧
  (∀ q a win w ws s cause u, (validate q w.idx).run s = .ok (.inl cause) u →
    (findPair q a win (w :: ws)).run s = (findPair q a win ws).run u) ∧
  (∀ q a win w ws s b u v t, (validate q w.idx).run s = .ok (.inr b) u →
    (if b.waitCtr = 0 then v = none ∧ t = u else (readCounter q b.waitCtr).run u = .ok v t) →
    ((∀ m ∈ a.goodMaps, pairOn t (t.queue q) a win w.idx b v m = none) →
      (findPair q a win (w :: ws)).run s = (findPair q a win ws).run t) ∧
    ∀ ms m ns p, a.goodMaps = ms ++ m :: ns → (∀ m' ∈ ms, pairOn t (t.queue q) a win w.idx b v m' = none) →
      pairOn t (t.queue q) a win w.idx b v m = some p → (findPair q a win (w :: ws)).run s = .ok (some p) t) ∧
  (∀ (k : Kernel) m, m ∈ k.rangeMaps ↔ m ∈ k.maps ∧ 8 * m.pidx + 8 ≤ k.paramSz ∧ 1 ≤ descRank m.desc ∧ descRank m.desc ≤ 6 ∧
    descEnc m.desc ≠ 3) ∧
  (∀ (qu : Queue) i, i ∈ qu.window ↔ 1 ≤ idxDist i qu.head.toNat ∧ idxDist i qu.head.toNat ≤ 7 ∧ i < 2 ^ 32 ∧
    idxDist i qu.head.toNat < idxDist qu.tail.toNat qu.head.toNat) ∧
  (∀ (qu : Queue) (win : List WinRec) w, w ∈ qu.candidates win ↔ w ∈ win ∧ w.idx ∉ qu.consumed)

/-- What becomes of a record (R50 to R54, R177, R220, R228, R229, R278, R295, R299, R318, R328). At the head it is validated, or stops the queue with its cause in
the error word; once its wait counter has reached its target its launch begins, at once with no counter; a launch that is done makes its
addition and leaves the device, its head passed; a pair makes two; the addition of a SYSREL completion waits 4,000 ticks, then fails, where
a remote write of the launch was not delivered (R278, R328; that this stops the queue as R54 says is DESIGN CHOICE log 16); a record
between those of a pair waits for the pair (R220); the front end waits 4,000 ticks for a remote access without an answer, which then fails
(R277, R295); one to a scratchpad window is an access fault (R134; DESIGN CHOICE log 15); a retired hart is released once its Scarab
commands on its core window have ended. No record reaches the head or begins while an update of the scheduler firmware runs. The front
end's accesses ignore US (DEDUCED log 15); the candidates are read as DEDUCED log 22 says. -/
def Sys2Proof.Claims.RecordsMove : Prop :=
  (∀ q (s : State), let qu := s.queue q
    (s.firmware.update ≠ .none → s.atHead q = none) ∧ (qu.cen = false → s.atHead q = none) ∧
    (qu.state = .waiting → qu.cen = true → s.firmware.update = .none → qu.head ≠ qu.tail → qu.overlapped = [] → s.atHead q = some qu) ∧
    (∀ n l, qu.state = .begun n → s.launches.get? n = some l → mayOverlap l = false → s.atHead q = none) ∧
    (∀ n l, qu.state = .waiting → n ∈ qu.overlapped → s.launches.get? n = some l → idxAtLeast l.recIdx qu.head.toNat = false →
      (mayOverlap l = false ∨ idxDist qu.head.toNat l.recIdx < l.dist) → s.atHead q = none) ∧
    (∀ l : Launch, mayOverlap l = true ↔ l.a.overlap = true ∧ (∀ p, l.pair = some p → p.b.overlap = true) ∧ l.distributed = true)) ∧
  (∀ q s qu, s.atHead q = some qu →
    let s1 := s.setQueue q { qu.applyBarriers with state := .waiting }
    let h := qu.applyBarriers.head.toNat
    (∀ cause u, (validate q h).run s1 = .ok (.inl cause) u →
      exec (.recordReachesHead q) s =
        .next ((queueError q h 0 0 cause (u.setQueue q { u.queue q with state := .stopped 0 none })).answered q)) ∧
    (∀ k u win v p w, (validate q h).run s1 = .ok (.inr k) u → (readWindow q qu.applyBarriers.window).run u = .ok win v →
      (if mayPair k = true then findPair q k win (qu.applyBarriers.candidates win) else (pure none : Op (Option Pair))).run v = .ok p w → k.product ≠ 0 →
      ∃ t, exec (.recordReachesHead q) s = .next t ∧ (t.queue q).state = .validated k p ∧ t.mem = w.mem ∧ t.hart = w.hart ∧
        t.launches = w.launches ∧ (t.queue q).elisions = (w.queue q).elisions ++ match p with
          | some p' => if p'.materialised = true then [] else [.mk p'.mapA.desc [] h]
          | none => [])) ∧
  (∀ q s k p, (s.queue q).state = .validated k p → s.firmware.update = .none → (s.queue q).cen = true →
    (k.waitCtr = 0 ∨ ∃ v, (readCounter q k.waitCtr).run s = .ok (some v) s ∧ k.waitTgt ≤ v) →
    exec (.recordDispatchStart q) s = .next (State.answered q { s.setQueue q { s.queue q with state := .begun s.nextLaunch } with
      launches := s.launches.put s.nextLaunch (.mk q (s.queue q).head.toNat k p [] [] false), nextLaunch := s.nextLaunch + 1 })) ∧
  (∀ n s l u, s.launches.get? n = some l → l.pair = none → s.launchDone n l = true →
    (completeAt n (Sys2Proof.Machine.scopeOf l.a) l.queue l.a.doneCtr).run s = .ok true u →
    let v := dropLaunch n l u
    exec (.launchComplete n) s =
      .next ((v.setQueue l.queue ((v.queue l.queue).completed n (Sys2Proof.Machine.scopeOf l.a) none)).answered l.queue)) ∧
  (∀ (s : State) q, (State.answered q s).queue q = { s.queue q with asked := none } ∧
    State.answered q s = { s with queues := (State.answered q s).queues } ∧
    ∀ p, p ≠ q → (State.answered q s).queue p = s.queue p) ∧
  (∀ n s l, s.launches.get? n = some l → l.pair = none → s.launchDone n l = true →
    (completeAt n (Sys2Proof.Machine.scopeOf l.a) l.queue l.a.doneCtr).run s = .error .wait s →
    exec (.launchComplete n) s = .next (s.answered l.queue)) ∧
  (∀ n s l p u v, s.launches.get? n = some l → l.pair = some p → s.launchDone n l = true →
    (completeAt n (Sys2Proof.Machine.scopeOf l.a) l.queue l.a.doneCtr).run s = .ok true u →
    (completeAt n (Sys2Proof.Machine.scopeOf p.b) l.queue p.b.doneCtr).run u = .ok true v →
    let w := dropLaunch n l v
    exec (.pairComplete n) s =
      .next ((w.setQueue l.queue ((w.queue l.queue).completed n (Sys2Proof.Machine.scopeOf p.b) (some p.dist))).answered l.queue)) ∧
  (∀ (qu : Queue) n sc, qu.state = .begun n → qu.consumed = [] →
    (qu.completed n sc none).head = qu.head + 1 ∧ (qu.completed n sc none).state = .waiting ∧
    (qu.completed n sc none).prevScope = some sc) ∧
  (∀ n sc q va (s : State), let unmet := sc = .sys ∧ ∃ l ∈ s.lost, l.writer = .launch n
    (va = 0 → (completeAt n sc q va).run s = .ok true s) ∧
    (va ≠ 0 → ¬ unmet → (completeAt n sc q va).run s = (qAddOne q va).run s) ∧
    (va ≠ 0 → unmet → (∃ l ∈ s.lost, l.writer = .launch n ∧ s.time < l.since + 4000) →
      (completeAt n sc q va).run s = .error .wait s) ∧
    (va ≠ 0 → unmet → (∀ l ∈ s.lost, l.writer = .launch n → l.since + 4000 ≤ s.time) →
      (completeAt n sc q va).run s = .ok false { s with lost := s.lost.filter fun l => l.writer ≠ .launch n })) ∧
  (∀ q kind write amo va s p u, inWindow va.toNat = false → (translate {} kind false write amo (s.rootOf q) va va).run s = .ok p u →
    let silent := p.remote = true ∧ (s.linksUp = false ∨ Config.answers p.home s.time = false)
    let late := ∃ t, (s.queue q).asked = some t ∧ t + 4000 ≤ s.time
    (¬ silent → (qTranslate q kind write amo va).run s = .ok p u) ∧
    (silent → ¬ late → (qTranslate q kind write amo va).run s = .error (.hold none) u) ∧
    (silent → late → trapsWith (qTranslate q kind write amo va) s u {} va kind.accessFault 0)) ∧
  (∀ q kind write amo (va : Word) s, inWindow va.toNat = true → trapsWith (qTranslate q kind write amo va) s s {} va kind.accessFault 0) ∧
  (∀ q va s p u, (qTranslate q .store true true (BitVec.ofNat 64 va)).run s = .ok p u →
    u.memOk → ∃ t, (qAddOne q va).run s = .ok true t ∧ t.memOk ∧
      ofBytes (readUnder p.crypt t.mem p.key 8) = (ofBytes (readUnder p.crypt u.mem p.key 8) + 1) % 2 ^ 64 ∧
      (∀ a, a < p.key ∨ p.key + 8 ≤ a → byteUnder p.crypt t.mem a = byteUnder p.crypt u.mem a) ∧
      ∀ a, sectorOf a < sectorOf p.key ∨ sectorOf (p.key + 7) < sectorOf a → Memory.get t.mem a = Memory.get u.mem a) ∧
  (∀ id s, (s.hartOf id).status = .retired → s.scarabBusy (s.hartOf id) = false → (s.hartOf id).job = none →
    exec (.coreReservationRelease id) s = .next (s.setHart (s.hartOf id).freed)) ∧
  (∀ id s j l, (s.hartOf id).status = .retired → s.scarabBusy (s.hartOf id) = false → (s.hartOf id).job = some j →
    s.launches.get? j.launch = some l → l.ended = false →
    ∃ t, exec (.coreReservationRelease id) s = .next t ∧ (t.hartOf id).status = .free ∧ (t.hartOf id).job = none ∧
      (∀ i, j.slot = some i → i ∉ (t.queue l.queue).slots) ∧ t.mem = s.mem)

/-- Records, their checks, the pairs they form. -/
def Obligations.RecordsComplete : Prop := RecordsMove ∧ RecordChecksFollow ∧ PairsForm

namespace Sys2Proof.Claims

/-- The step `r` of the spliced loop of a key (R221). -/
def isStep (a : Kernel) (p : Pair) (key : List Nat) (r : BodyRun) : Prop :=
  if temporalInner a then
    let outer := iterAt a key (r.u * innerExt a)
    r.u < iterCount a / innerExt a ∧ r.j < innerExt a + p.lag ∧
    (r.inB = false → r.pos = 2 * (r.u * (innerExt a + p.lag) + r.j) ∧ r.j < innerExt a ∧ r.iter = withInner outer r.j) ∧
    (r.inB = true → r.pos = 2 * (r.u * (innerExt a + p.lag) + r.j) + 1 ∧ p.lag ≤ r.j ∧ r.iter = withInner outer (r.j - p.lag) ∧
      inExts p.b r.iter = true)
  else r.u < iterCount a ∧ r.j = key.getLastD 0 ∧ r.iter = iterAt a key r.u ∧
    (r.inB = false → r.pos = 2 * r.u) ∧ (r.inB = true → r.pos = 2 * r.u + 1 ∧ inExts p.b r.iter = true)

/-- Where a byte of element `g` of T lies in the ring, in the box of A's iteration at inner index `i` (R223, R224). -/
def ringByte (p : Pair) (it g : List Nat) (i byte : Nat) : Overlay :=
  .ring (i % (p.lag + 1) * p.mapA.slotBytes + p.mapA.boxPos (withInner it i) g * descEsz p.mapA.desc + byte)

end Sys2Proof.Claims

/-- HART_ASSIGN and GANG_DISPATCH (R24, R25, R28, R31, R55, R56, R130, R211, R290): a free hart in service takes an ungiven key of a launch
whose queue's turn it is, where its cluster holds the launch's reservation or has room at the base chosen, and a stack slot is free; it
begins at the entry with x2 the top of its stack, x10 the parameter block and every other register zero, VMAX as FEAT[3] says, and the
queue's effective priority is its base again. A gang's harts begin together, and one key of a gang is given alone only once it stands. When it is a queue's turn
is the model's reading of R56 (DEDUCED log 26). -/
def Sys2Proof.Claims.HartsAreGiven : Prop :=
  (∀ id n key slot base s l, s.launches.get? n = some l → (l.a.isGang = false ∨ s.gangStands n (id / 4) l = true) →
    s.turnOf l.queue id = true → s.hartFree id = true →
    l.ended = false → id ∉ l.left → keyFree l (s.hartOf id).die key = true → entryBanks l ≤ 63 →
    (needsSlot l = true → slot < 1024 ∧ slot ∉ (s.queue l.queue).slots) → s.savePending n (s.hartOf id).cluster = false →
    ((s.cluster (s.hartOf id).cluster).resvs.any (·.launch = n) = true ∨
      baseFits (s.cluster (s.hartOf id).cluster) base ((layResvs n base (resvSizes l)).map (·.size)).sum = true) →
    ∃ t, exec (.hartAssign id n key slot base) s = .next t ∧ entered (s.queue l.queue) n l key slot (t.hartOf id) ∧
      (keyAt t n key).map (·.holder) = some (some id) ∧ (t.queue l.queue).prio = (s.queue l.queue).cprio ∧ t.lastServed = l.queue ∧
      t.mem = s.mem ∧ (∀ h, h ≠ id → t.hartOf h = s.hartOf h) ∧ t.hart.id = s.hart.id) ∧
  (∀ n (harts slots : List Nat) base s l,
    let keys := (List.range (keyCount l.a)).map (unflatten (spatial l.a))
    s.launches.get? n = some l → l.a.isGang = true → s.turnOf l.queue (harts.headD 0) = true → l.keys = [] → l.left = [] →
    l.ended = false → l.pair = none → harts.length = keys.length → harts.Nodup →
    (∀ h ∈ harts, h / 4 = harts.headD 0 / 4 ∧ s.hartFree h = true) → keys.Nodup →
    (∀ key ∈ keys, keyFree l (harts.headD 0 / 128) key = true) → entryBanks l ≤ 63 →
    (needsSlot l = true → slots.length = harts.length ∧ slots.Nodup ∧ ∀ i ∈ slots, i < 1024 ∧ i ∉ (s.queue l.queue).slots) →
    baseFits (s.cluster (harts.headD 0 / 4)) base (clusterLimit l false) = true → (∀ v ∈ s.clusterSaves, v.launch ≠ n) →
    ∃ t, exec (.gangDispatch n harts slots base) s = .next t ∧
      ∀ i, i < harts.length → entered (s.queue l.queue) n l (keys.getD i []) (slots.getD i 0) (t.hartOf (harts.getD i 0))) ∧
  (∀ id n key slot base s l, s.launches.get? n = some l → l.a.isGang = true → s.gangStands n (id / 4) l = false →
    exec (.hartAssign id n key slot base) s = .next s)

/-- The spliced loop (R221 to R225, R227, R228). A key of a pair goes through the steps of R221 in order, setup B after setup A; NEXT
enters the next one at its kernel's entry, with that kernel's parameter, stack, indices and persistent registers, and a pending request is
taken there (R222). Body A's slot is
unwritten when it begins. In T's range a byte of a body lies in the ring where R224 says, else an access outside its boxes, a read where
A only writes, a write by B or any access of a setup is a violation: MAP_VIOLATION, SUB 1, at its element with FADDR set; that an
atomic of body A is a violation where A only writes is the model's reading, since it reads (DEDUCED log 42). Of a materialised T, A's
writes reach memory as well, and fault as an ordinary store there does. An access to a range that another pair elided raises ELIDED. -/
def Sys2Proof.Claims.SplicedLoopFollows : Prop :=
  (∀ (l : Launch) p key pos, l.pair = some p → 0 < innerExt l.a → p.lag ≤ 2 → (temporalInner l.a = false → p.lag = 0) →
    match l.runFrom key pos with
    | some r => pos ≤ r.pos ∧ isStep l.a p key r ∧ ∀ r', pos ≤ r'.pos → r'.pos < r.pos → ¬ isStep l.a p key r'
    | none => ∀ r', pos ≤ r'.pos → ¬ isStep l.a p key r') ∧
  (∀ s j l p r, s.hart.job = some j → s.launchOf s.hart = some l → l.pair = some p → s.hart.hookSave = none →
    (j.inSetup = true → j.inB = true ∨ p.b.setOff = 0) →
    l.runFor s.hart.id j.key (l.keyState j.key).nextPos = some r →
    ∃ t, exec .next s = .next (if s.hart.requestPending then preempt false false t.hart.pc 0 t else t) ∧ t.hart.mode = .u ∧
      t.hart.pc = BitVec.ofNat 64 ((l.kernel r.inB).hdr + (l.kernel r.inB).entry) ∧ lightVector t.hart ∧
      t.hart.xr 10 = BitVec.ofNat 64 (l.kernel r.inB).param ∧ t.hart.xr 2 = stackAt (s.queue l.queue) l r.inB (j.slot.getD 0) ∧
      (∀ x : BitVec 5, x ≠ 0 → x ≠ 2 → x ≠ 10 → (l.kernel r.inB).pmask.testBit x.toNat = true → t.hart.xr x =
        if j.inB = r.inB then s.hart.xr x else if r.inB then j.shadowBx.get x.toNat else j.shadowAx.get x.toNat) ∧
      hasIndex t.hart (l.kernel r.inB).exts r.iter ∧ t.hart.grant = s.hart.grant ∧ t.hart.hook = s.hart.hook ∧
      t.hart.pool = (clearSlot l r s.hart).pool ∧ (t.hart.job.map (·.inB)) = some r.inB ∧ (t.hart.job.bind (·.iter)) = some r.iter ∧
      keyAt t j.launch j.key = some (.mk j.key (r.pos + 1) (some s.hart.id)) ∧ t.mem = s.mem ∧ t.others = s.others) ∧
  (∀ s j l p, s.hart.job = some j → s.launchOf s.hart = some l → l.pair = some p → s.hart.hookSave = none →
    j.inSetup = true → j.inB = false → p.b.setOff ≠ 0 →
    ∃ t, exec .next s = .next (if s.hart.requestPending then preempt false false t.hart.pc 0 t else t) ∧ t.hart.mode = .u ∧ t.hart.pc = BitVec.ofNat 64 (p.b.hdr + p.b.setOff) ∧ lightVector t.hart ∧
      t.hart.xr 10 = BitVec.ofNat 64 p.b.param ∧ hasIndex t.hart [] [] ∧ t.hart.pool = s.hart.pool ∧ t.mem = s.mem ∧
      t.launches = s.launches) ∧
  (∀ (l : Launch) p (r : BodyRun) (h : Hart) i, l.pair = some p → Tab.sorted h.pool = true →
    let first := (64 - h.sbanks + (l.a.coreSp + 16383) / 16384 + (p.b.coreSp + 16383) / 16384) * 64 +
      r.j % (p.lag + 1) * (p.mapA.slotBytes / 256)
    if r.inB = false ∧ first ≤ i ∧ i < first + p.mapA.slotBytes / 256 then
      (((clearSlot l r h).pool.get? i).getD .unwritten).live = false
    else ((clearSlot l r h).pool.get? i).getD .unwritten = (h.pool.get? i).getD .unwritten) ∧
  (∀ (s : State) l p (v : Via) kind amo va, s.launches.get? v.launch = some l → l.pair = some p →
    s.overlayAt (some v) kind amo va = match kind, denseElem p.mapA.desc va with
      | .fetch, _ => .plain
      | _, none => .plain
      | _, some (e, b) => overlayOf l p v kind amo (unflatten (descExts p.mapA.desc) e) b) ∧
  (∀ (l : Launch) p (v : Via) (kind : AKind) amo g byte,
    (v.inSetup = true → overlayOf l p v kind amo g byte = .violation) ∧
    ∀ it, v.inSetup = false → v.iter = some it → it ≠ [] →
      let t := it.getLastD 0
      let inner := l.a.exts.getD (l.a.levels.length - 1) 1
      (v.inB = false →
        (p.mapA.inBox it g = false → overlayOf l p v kind amo g byte = .violation) ∧
        (p.mapA.inBox it g = true → (kind.isWrite = false ∨ amo = true) → p.mapA.mode = 2 →
          overlayOf l p v kind amo g byte = .violation) ∧
        (p.mapA.inBox it g = true → (kind.isWrite = true ∧ amo = false ∨ p.mapA.mode ≠ 2) →
          overlayOf l p v kind amo g byte = ringByte p it g t byte)) ∧
      (v.inB = true →
        (kind.isWrite = true → overlayOf l p v kind amo g byte = .violation) ∧
        (∀ i, kind.isWrite = false → t ≤ i → i ≤ t + p.lag → i < inner → p.mapA.inBox (withInner it i) g = true →
          (∀ i', t ≤ i' → i' < i → p.mapA.inBox (withInner it i') g = false) →
          overlayOf l p v kind amo g byte = ringByte p it g i byte) ∧
        (kind.isWrite = false → (∀ i, t ≤ i → i ≤ t + p.lag → i < inner → p.mapA.inBox (withInner it i) g = false) →
          overlayOf l p v kind amo g byte = if p.mapB.inBox it g then .plain else .violation))) ∧
  (∀ w (v : Via) kind user write amo fa va s l p, s.launches.get? v.launch = some l → l.pair = some p →
    let h := s.hartOf v.hart
    let x := (placeByte w (some v) kind user write amo fa va).run s
    (s.overlayAt (some v) kind amo va = .violation →
      ∃ tr, x = .error (.trap tr) s ∧ tr.cause = 26 ∧ tr.sub = 1 ∧ tr.elem = w.elem ∧ tr.addr = some fa) ∧
    (∀ o, s.overlayAt (some v) kind amo va = .ring o →
      let at' : Loc := .core h.id ((64 - h.sbanks + (l.a.coreSp + 16383) / 16384 + (p.b.coreSp + 16383) / 16384) * 16384 + o)
      (¬ (p.materialised = true ∧ write = true) → x = .ok (at', none) s) ∧
      (p.materialised = true → write = true →
        ((∃ e ∈ (s.queue l.queue).elisions, (denseElem e.desc va).isSome = true) → trapsWith (placeByte w (some v) kind user write amo fa va)
          s s w fa 27 0) ∧
        ((∀ e ∈ (s.queue l.queue).elisions, denseElem e.desc va = none) → inWindow va.toNat = false →
          (∀ ph u, (translate w kind user write amo (s.rootOf l.queue) fa va).run s = .ok ph u → x = .ok (at', some ph) u) ∧
          ∀ e u, (translate w kind user write amo (s.rootOf l.queue) fa va).run s = .error e u → x = .error e u)))) ∧
  (∀ w (v : Via) kind user write amo fa va s l e, s.launches.get? v.launch = some l → kind ≠ .fetch → l.pair = none →
    e ∈ (s.queue l.queue).elisions → (denseElem e.desc va).isSome = true →
    ∃ tr, (placeByte w (some v) kind user write amo fa va).run s = .error (.trap tr) s ∧ tr.cause = 27 ∧ tr.elem = w.elem ∧
      tr.addr = some fa)

/-- How harts come to launches, and the steps of a spliced pair. -/
def Obligations.DistributionCompletes : Prop := HartsAreGiven ∧ SplicedLoopFollows

/-! ## Priorities and pre-emption (R55 to R60, R200 to R212) -/

namespace Sys2Proof.Claims

/-- The request that a hart receives: P, DL 400 ticks on, F as it stands; mip bit 16 (R200). -/
def asked (time : Nat) (h : Hart) : Hart :=
  { h with
    preq := BitVec.ofNat 64 ((time + 400) % 2 ^ 32 * 65536 + bits h.preq 1 1 * 2 + 1), mip := setBit h.mip 16 true, atOnce := false }

/-- Memory once bytes of a context's image have been written where the model puts the image (DESIGN CHOICE log 31). -/
def imageWrote (s : State) (c : Context) (off : Nat) (bs : List Byte) (m m' : List Host.Cell) : Prop :=
  match s.imageAt c with
  | none => m' = m
  | some (q, va) => ∃ v : State, v.mem = m ∧ v.queues = s.queues ∧ v.keys = s.keys ∧ v.domainId = s.domainId ∧ v.status = s.status ∧
      v.linksUp = s.linksUp ∧ v.time = s.time ∧ m' = ((tryOp (qWrite q (va + BitVec.ofNat 64 off) bs) v).2).mem

end Sys2Proof.Claims

/-- Requests (R55, R56, R59, R200, R201, R212, R299, R391). A queue that has aged 2,000 ticks gains a priority; an expired quantum, or a
waiting queue of higher priority, sends a request with its deadline 400 ticks on, to every running hart of a gang; past the deadline the
interrupt falls at the next boundary, or is armed at an element of the next vector instruction, whose elements below have then committed,
never in a hart that MRET has just resumed; before a waiting instruction the hart's next step decides, and a hart that waits there saves as on
any other request. Which ticks age a queue and which queues wait is the model's choice (DESIGN CHOICE log 47, DEDUCED log 26), and so is that
a forced pre-emption is due in U-mode with P and mie bit 16 set, whatever mstatus.MIE holds (DEDUCED log 11). -/
def Sys2Proof.Claims.RequestsAreSent : Prop :=
  (∀ q s, 2000 ≤ (s.queue q).age → (s.queue q).prio < 6 →
    exec (.queueAgeing q) s = .next (s.setQueue q { s.queue q with prio := (s.queue q).prio + 1, age := 0 })) ∧
  (∀ q : Queue, q.eff = if 2000 ≤ q.age ∧ q.prio < 6 then q.prio + 1 else q.prio) ∧
  (∀ id s l j, (s.hartOf id).job = some j → s.launchOf (s.hartOf id) = some l → s.requestDue (s.hartOf id) = true →
    s.firmware.update = .none →
    let t := if l.a.isGang then s.mapHarts fun g => if g.inLaunch j.launch && g.status = .running then asked s.time g else g
      else s.setHart (asked s.time (s.hartOf id))
    exec (.preemptionRequest id) s = .next t ∧ (s.expired (s.hartOf id) = true → exec (.quantumExpiry id) s = .next t)) ∧
  (∀ id (s : State), s.expired (s.hartOf id) = true → s.requestDue (s.hartOf id) = false → exec (.quantumExpiry id) s = .next s) ∧
  (∀ (s : State) h q, s.queueOf h = some q → (s.requestDue h = true ↔ h.status = .running ∧ bitAt h.preq 0 = false ∧
    ∃ p qu, (p, qu) ∈ s.queues ∧ p ≠ q ∧ s.runnable p = true ∧
      ((s.queue q).eff < qu.eff ∨ s.expired h = true ∧ (s.queue q).eff ≤ qu.eff))) ∧
  (∀ s, s.hart.status = .running →
    (s.forcedDue = true →
      ((∃ i, s.instrHere = some i ∧ isWaiting i = true) →
        exec (.preemptDeadline s.hart.id none) s = .next { s with hart := { s.hart with stopAt := none } }) ∧
      ((∀ i, s.instrHere = some i → isWaiting i = false) →
        exec (.preemptDeadline s.hart.id none) s = .next (preempt true true s.hart.pc s.hart.vxi s)) ∧
      ∀ e, exec (.preemptDeadline s.hart.id (some e)) s =
        .next (if s.hart.atOnce = true then s else { s with hart := { s.hart with stopAt := some e } })) ∧
    (s.forcedDue = false → ∀ e, exec (.preemptDeadline s.hart.id e) s = .next s)) ∧
  (∀ s u bs i rest, s.agenda = [] → s.status.fatal ≠ 1 → s.status.fatal ≠ 2 → s.hart.status = .running → s.forcedDue = true →
    s.hart.stopAt = none → s.hart.atStoppedClause = none →
    (fetchAt (s.fetchAccess s.hart.mode s.hart) s.hart.pc).run s = .ok bs u → decode bs = .ok (i, rest) →
    (isWaiting i = false → step s = .next (preempt true true s.hart.pc s.hart.vxi s)) ∧
    (isWaiting i = true → u.hart.clauseRuns = false → ∀ v, exec i { u with hart := { u.hart with ir := irOf bs } } = .next v →
      step s = .next (if bitAt v.hart.preq 0 = false ∧ v.hart.mcause = BitVec.ofNat 64 (2 ^ 63 + 16) then v
        else preempt true true s.hart.pc s.hart.vxi s))) ∧
  (∀ (s : State), s.forcedDue = true ↔ s.hart.mode = .u ∧ bitAt s.hart.preq 0 = true ∧ bitAt s.hart.mie 16 = true ∧
    (s.time % 2 ^ 32 + 2 ^ 32 - bits s.hart.preq 16 32) % 2 ^ 32 < 2 ^ 31 ∧ s.hart.cancel = none ∧ s.hart.boundaryWait = false) ∧
  (∀ i s L k, (vintLane s i = some L ∨ vfltLane s i = some L) → L.passes s → s.forcedDue = true → s.hart.stopAt = some k →
    s.hart.upsets = [] → (s.hart.vxi < k → k < s.hart.nel → ∃ u, exec i s = .next (preempt true true s.hart.pc k u) ∧ (L.upto k).Wrote s u ∧
      u = { s with hart := u.hart, freeCtr := u.freeCtr }) ∧
    (¬ (s.hart.vxi < k ∧ k < s.hart.nel) → exec i s = .next (preempt true true s.hart.pc s.hart.vxi s)))

/-- Taking interrupt 16 and saving (R183, R185, R200 to R204, R207, R208, R212, R236, R391). The hart enters the handler with the saved position,
P and mip bit 16 clear and F saying whether it was forced; a hart of a launch leaves any barrier it waits in, gives up its grant, and its
context is recorded; the live blocks of its core scratchpad are renewed. A save that ends frees the hart, keeps its live blocks, marks the expired ones, and writes the
image, whose header is that of Table 09-7; where the image lies, what its sections hold, and that FEAT holds the device's seven features, are
the model's choice (DESIGN CHOICE log 31). -/
def Sys2Proof.Claims.SavesComplete : Prop :=
  (∀ full forced pc vxi s, let t := preempt full forced pc vxi s
    t.hart.mode = .m ∧ t.hart.mepc = pc ∧ t.hart.vxi = vxi ∧ t.hart.mcause = BitVec.ofNat 64 (2 ^ 63 + 16) ∧ t.hart.mtval = 0 ∧
    t.hart.kcause = 0 ∧ t.hart.faddr = 0 ∧ t.hart.korigin = s.korigin s.hart ∧ bitAt t.hart.preq 0 = false ∧ bitAt t.hart.preq 1 = forced ∧ bitAt t.hart.mip 16 = false ∧
    t.hart.pc = trapVector s.hart.mtvec true 16 ∧ t.hart.x = s.hart.x ∧ t.hart.f = s.hart.f ∧ t.mem = s.mem ∧ t.others = s.others ∧
    (s.hart.job = none → t.hart.status = s.hart.status ∧ t.contexts = s.contexts) ∧
    (∀ j l, s.hart.job = some j → s.launchOf s.hart = some l → t.hart.status = .saving ∧ t.hart.grant = none ∧
      (∀ g ∈ (t.cluster s.hart.cluster).gens, s.hart.id ∉ g.waiting) ∧
      t.hart.pool = renewRange s.time s.hart.coreBlocks.1 s.hart.coreBlocks.2 s.hart.pool ∧
      ∃ c, t.contexts = s.contexts ++ [c] ∧ c.id = s.nextContext ∧ c.full = full ∧ c.saved = false ∧ c.status = 0 ∧
        c.cluster = s.hart.cluster ∧ c.hart.grant = s.hart.grant ∧ c.hart.mepc = pc ∧ c.hart.vxi = vxi ∧ c.hart.x = s.hart.x ∧
        c.hart.f = s.hart.f ∧ c.hart.job = s.hart.job ∧ c.hart.vregs = s.hart.vregs ∧ c.hart.clause = s.hart.clause ∧
        (∀ b, c.live.testBit b = true ↔ b ∈ [0, 3, 6] ∧ full = true ∨ b = 1 ∧ s.hart.grant.isSome = true ∨
          b = 2 ∧ ∃ r ∈ s.regs, r.holder = some (.hart s.hart.id) ∧ r.launch = j.launch))) ∧
  (∀ n s l cl, s.launches.get? n = some l → l.a.isGang = true → s.contextClusters n = [cl] →
    (∀ h ∈ s.harts, h.inLaunch n = true → h.status ≠ .running) → s.clusterBusy n cl = false →
    (∀ v ∈ s.clusterSaves, v.launch = n → v.cluster ≠ cl) →
    exec (.gangSaveStart n) s = .next (startClusterSave cl n s)) ∧
  (∀ id s c, s.contexts.find? (·.id = id) = some c → c.saved = false → s.hart.id = c.hart.id →
    (∀ n, s.clusterSaveDue n c.cluster = false) → (∀ v ∈ s.clusterSaves, v.cluster ≠ c.cluster) →
    ∃ t d, exec (.contextSaveComplete id) s = .next t ∧ t.hart.status = .free ∧ t.hart.job = none ∧ t.hart.pool = [] ∧
      d ∈ t.contexts ∧ d = { c with
        saved := true, blocks := saveBlocks s.time s.hart.coreBlocks.1 s.hart.coreBlocks.2 s.hart.pool, live := d.live } ∧
      d.live = c.live + (if d.blocks = [] then 0 else 16) ∧ imageWrote s c 0 d.image s.mem t.mem) ∧
  (∀ time first count (p : Tab Block) b, b ∈ saveBlocks time first count p ↔ ∃ k, (first + b.block, k) ∈ p ∧ b.block < count ∧
    k.live = true ∧ b.content = if k.state time = .live then some k else none) ∧
  (∀ c : Context, c.header.length = 128 ∧
    let f off n := hdrField c.image off n
    f 0 4 = 0x49585443 ∧ f 4 2 = 1 ∧ f 6 1 = (if c.full then 1 else 0) ∧ f 7 1 = c.status % 256 ∧ f 8 8 = 0x7F ∧
    f 0x10 8 = c.live % 2 ^ 64 ∧ f 0x18 8 = c.missing % 2 ^ 64 ∧ f 0x20 4 = c.profile % 2 ^ 32 ∧ f 0x24 4 = 0 ∧
    f 0x28 8 = c.hdr.toNat ∧ f 0x30 8 = c.hart.mepc.toNat ∧ f 0x38 8 = c.hart.vxi % 2 ^ 64 ∧
    f 0x40 8 = (if c.full then c.hart.vshp.toNat else 0) ∧ f 0x48 8 = c.hart.idxlin.toNat ∧ f 0x50 8 = 128 ∧
    (c.live.testBit 0 = false → f 0x58 8 = 0) ∧ (c.live.testBit 4 = false → c.live.testBit 5 = false → f 0x60 8 = 0) ∧
    (c.live.testBit 1 = false → f 0x68 8 = 0) ∧ f 0x70 8 = c.image.length % 2 ^ 64 ∧ f 0x78 8 = 0)

/-- CONTEXT_RESUME (R202, R204, R205, R209, R210, R236). A saved context whose image's header the device can restore runs where it was
saved, with its registers, its image's STATUS 1, and its grant on the free quarters that R301 names, and is gone from the list; while none are
free it does not resume; one that cannot be restored stays, marked with STATUS 2 and MISSING, in its image too, and the host is told. The header is read where the model puts it (DESIGN CHOICE log 31). -/
def Sys2Proof.Claims.ResumesComplete : Prop :=
  (∀ id hart s c n l i u, s.contexts.find? (·.id = id) = some c → (c.hart.job.map (·.launch)) = some n → s.launches.get? n = some l →
    l.a.isGang = false → l.ended = false → c.saved = true → c.status ≠ 2 →
    (∀ g, c.hart.grant = some g → quartersFor (u.usedQuarters c.cluster) g.rows ≠ none) →
    s.hartFree hart = true → hart / 4 = c.cluster → s.turnOf l.queue hart = true → (imageHead c).run s = .ok i u →
    s.restorable n l c i = true → (s.cluster c.cluster).resvs.any (·.launch = n) = true → s.savePending n c.cluster = false →
    ∃ t, exec (.contextResume id hart) s = .next t ∧ let h := t.hartOf hart
      h.status = .running ∧ h.mode = .u ∧ h.pc = c.hart.mepc ∧
      h.x = c.hart.x ∧ h.f = c.hart.f ∧ h.fcsr = c.hart.fcsr ∧ h.vfflags = c.hart.vfflags ∧ h.vpoiscnt = c.hart.vpoiscnt ∧
      h.preq = c.hart.preq ∧ h.hook = c.hart.hook ∧ h.hookSave = c.hart.hookSave ∧ h.idx = c.hart.idx ∧ h.idxlin = c.hart.idxlin ∧
      h.poolv = c.hart.poolv ∧ h.pools = c.hart.pools ∧ h.poolc = c.hart.poolc ∧ h.bd = c.hart.bd ∧ h.chstep = c.hart.chstep ∧
      (c.full = true → h.vregs = c.hart.vregs ∧ h.preds = c.hart.preds ∧ h.sf = c.hart.sf ∧ h.masks = c.hart.masks ∧
        h.td = c.hart.td ∧ h.vtype = c.hart.vtype ∧ h.mfc = c.hart.mfc ∧ h.vshp = c.hart.vshp ∧ h.vxi = c.hart.vxi ∧
        h.vcbytes = c.hart.vcbytes ∧ h.vhint = c.hart.vhint ∧ h.vvsel = c.hart.vvsel ∧ h.rotation = c.hart.rotation ∧
        h.clause = c.hart.clause) ∧
      (c.full = false → lightVector h) ∧
      h.grant = (c.hart.grant.map fun g => { g with quarters := (quartersFor (u.usedQuarters c.cluster) g.rows).getD [], checkCol := 0 }) ∧
      imageWrote s c 7 [1] u.mem t.mem ∧ ∀ d ∈ t.contexts, d.id ≠ id) ∧
  (∀ id hart s c n l i u g, s.contexts.find? (·.id = id) = some c → (c.hart.job.map (·.launch)) = some n → s.launches.get? n = some l →
    l.a.isGang = false → (imageHead c).run s = .ok i u → s.restorable n l c i = true → c.hart.grant = some g →
    quartersFor (u.usedQuarters c.cluster) g.rows = none →
    exec (.contextResume id hart) s = .next (s.answered (s.queueOfContext id))) ∧
  (∀ id hart s c n l i u, s.contexts.find? (·.id = id) = some c → (c.hart.job.map (·.launch)) = some n → s.launches.get? n = some l →
    l.a.isGang = false → c.saved = true → c.status ≠ 2 → s.turnOf l.queue hart = true → (imageHead c).run s = .ok i u →
    s.restorable n l c i = false →
    ∃ t, exec (.contextResume id hart) s = .next t ∧ t.msix = 1 :: s.msix ∧
      t.hart = { s.hart with reservation := t.hart.reservation } ∧ t.others.map (·.id) = s.others.map (·.id) ∧
      t.contexts = s.contexts.map (fun d => if d.id = id then { d with status := 2, missing := missingFeatures i } else d) ∧
      (∃ d ∈ t.contexts, d = { c with status := 2, missing := missingFeatures i }) ∧
      (∀ q, (t.queue q).error = (s.queue q).error) ∧
      ∃ m, imageWrote s c 7 [2] u.mem m ∧ imageWrote s c 0x18 (toBytes 8 (missingFeatures i)) m t.mem) ∧
  (∀ (s : State) n l c (i : ImageHead), s.restorable n l c i = true ↔ i.version ≤ 1 ∧
    (∀ b, i.live.testBit b = true → b < 7 ∧ ∀ k, (b ∈ [0, 3, 6] ∧ k = 0 ∨ b = 1 ∧ k = 1 ∨ b = 2 ∧ k = 2) →
      let w := i.profile / 2 ^ (8 * k) % 256
      w / 16 = 0 ∨ w / 16 = 1 ∧ w % 16 ≤ [2, 1, 0].getD k 0) ∧
    (i.live.testBit 0 = true → let n := bits i.shape 16 16 * bits i.shape 0 16
      n ≤ 8192 ∧ n ≤ 8 * capacity (l.kernel ((c.hart.job.map (·.inB)).getD false)).nvreg c.hart.vbanks) ∧
    (i.live.testBit 5 = true → ∀ v ∈ s.clusterSaves, v.launch = n → v.cluster = c.cluster → ∀ b ∈ v.blocks,
      b.block < ((resvSizes l).map (·.2)).sum / 256)) ∧
  (∀ (s : State) c, s.imageAt c = none → (imageHead c).run s = .ok (.mk 1 c.live c.profile (if c.full then c.hart.vshp else 0)) s)

/-- Requests, saves and resumptions. -/
def Obligations.SchedulingCompletes : Prop := RequestsAreSent ∧ SavesComplete ∧ ResumesComplete

/-! ## Retention and poison (R133, R138, R141, R143, R144, R196, R197, R224) -/

/-- Retention: the sweeper marks a block of 256 ticks or more expired, and no other; a renewal, of a core or of a cluster, restamps the
live blocks queued for it, and the next range reaches the front; a running pair's ring is renewed; write-backs, bank and line renewals are
not seen; a poisoned sector is recorded, its bytes lost; one that an HBM controller's full record cannot hold quarantines its frame: every
leaf that maps the frame in the tables of a queue in use has Q set, the frame's entries are freed and its lines are unpinned (R197). -/
def Sys2Proof.Claims.RetentionAndPoison : Prop :=
  (∀ owner block s, ∃ t, exec (.sweeperVisit true owner block) s = .next t ∧ t.mem = s.mem ∧ t.hart.x = s.hart.x ∧
    (Tab.sorted (s.hartOf owner).pool = true → ∀ i, (t.hartOf owner).pool.get? i =
      ((s.hartOf owner).pool.get? i).map fun b => if i = block ∧ b.live = true ∧ 256 ≤ b.age s.time then { b with expired := true } else b) ∧
    ∀ id, id ≠ owner → (t.hartOf id).pool = (s.hartOf id).pool) ∧
  (∀ owner block s, ∃ t, exec (.sweeperVisit false owner block) s = .next t ∧ t.mem = s.mem ∧ t.hart = s.hart ∧
    (Tab.sorted (s.cluster owner).spad = true → ∀ i, (t.cluster owner).spad.get? i =
      ((s.cluster owner).spad.get? i).map fun b => if i = block ∧ b.live = true ∧ 256 ≤ b.age s.time then { b with expired := true } else b) ∧
    ∀ c, c ≠ owner → t.cluster c = s.cluster c) ∧
  (∀ owner s r rs, (s.hartOf owner).renewQ = r :: rs → ∃ t, exec (.renewalPerform true owner) s = .next t ∧
    (t.hartOf owner).renewQ = (match rs with
      | q :: qs => { q with since := s.time } :: qs
      | [] => []) ∧ t.mem = s.mem ∧
    (Tab.sorted (s.hartOf owner).pool = true → ∀ i, (t.hartOf owner).pool.get? i = ((s.hartOf owner).pool.get? i).map fun b =>
      if i ∈ r.blocks ∧ b.state s.time = .live then { b with stamp := BitVec.ofNat 10 s.time } else b)) ∧
  (∀ owner s r rs, (s.cluster owner).renewQ = r :: rs → ∃ t, exec (.renewalPerform false owner) s = .next t ∧
    (t.cluster owner).renewQ = (match rs with
      | q :: qs => { q with since := s.time } :: qs
      | [] => []) ∧ t.mem = s.mem ∧ t.hart = s.hart ∧ t.others = s.others ∧
    (Tab.sorted (s.cluster owner).spad = true → ∀ i, (t.cluster owner).spad.get? i = ((s.cluster owner).spad.get? i).map fun b =>
      if i ∈ r.blocks ∧ b.state s.time = .live then { b with stamp := BitVec.ofNat 10 s.time } else b) ∧
    ∀ c, c ≠ owner → t.cluster c = s.cluster c) ∧
  (∀ id s l p, s.launchOf (s.hartOf id) = some l → l.pair = some p → (s.hartOf id).status = .running →
    exec (.ringBlockRenewal id) s = .next (s.setHart { s.hartOf id with
      pool := renewRange s.time (ringBlocks l p (s.hartOf id)).1 ((ringBlocks l p (s.hartOf id)).2 * (p.lag + 1)) (s.hartOf id).pool })) ∧
  (∀ i a b s, i ∈ [Instr.l1DirtyWriteback a b, .extensionBankRenewal a b, .l2LineRetention a b] → exec i s = .next s) ∧
  (∀ sector s, 32 * sector < s.physLimit → s.memOk → s.poisonRecord (controllerOf sector) < 512 →
    ∃ t, exec (.sectorPoisonDetect 0 0 sector) s = .next t ∧ t.memOk ∧ t.poisonOf (32 * sector) = some .hbm ∧
      (∀ a, a < 32 * sector ∨ 32 * sector + 32 ≤ a → Memory.get t.mem a = Memory.get s.mem a ∧ t.poisonOf a = s.poisonOf a) ∧
      t.hart = s.hart ∧ t.status = s.status) ∧
  (∀ owner sector s, owner < 512 → sector < 32768 → ∃ t, exec (.sectorPoisonDetect 2 owner sector) s = .next t ∧ t.mem = s.mem ∧
    (blockAt t (.core owner (32 * sector))).poison.contains (sector % 8) = true) ∧
  (∀ sector s, 32 * sector < s.physLimit → s.poisonOf (32 * sector) ≠ some .hbm → 512 ≤ s.poisonRecord (controllerOf sector) →
    ∃ t, exec (.sectorPoisonDetect 0 0 sector) s = .next t ∧ t.status.qframes = s.status.qframes + 1 ∧
      (s.memOk → (∀ q qu, (q, qu) ∈ s.queues → field512 qu.installed 8 0 40 % 8 = 0) →
        ∀ q qu va e a level, (q, qu) ∈ s.queues → s.usesRoot q qu = true →
          walk t va 4 (field512 qu.installed 8 0 40) 0 = .leaf e a level → pteHome e = s.domainId →
          ptePpn e % 2 ^ 28 ≤ sector / 128 → sector / 128 < ptePpn e % 2 ^ 28 + pageSize level / 4096 → e.testBit 9 = true) ∧
      (∀ p, p ∈ t.poison ↔ p ∈ s.poison ∧ p.1 / 128 ≠ sector / 128) ∧
      t.pins = s.pins.map (fun p => (p.1, p.2.map fun x => x.map fun v => { v with pas := v.pas.filter (· ≠ sector / 128) })) ∧
      t.hart = s.hart)

namespace Sys2Proof.Claims

/-- The mismatch that the environment brings next falls into the instruction (R189): element `u.elem` of those it still runs, in the
columns that the Weevil lane checks. -/
def meetsLane (s : State) (u : Upset) : Prop :=
  u.column = false ∧ s.hart.vxi ≤ u.elem ∧ u.elem < s.hart.nel ∧ s.hart.vl ≠ 0 ∧ (u.elem % s.hart.vl) % 32 = s.hart.rotation.toNat

/-- The state with a hart's lane-health word and the mismatches still to come. -/
def laneSet (s : State) (v : Word) (us : List Upset) : State :=
  { s.setLane s.hart.id v with hart := { s.hart with upsets := us } }

end Sys2Proof.Claims

/-- The Weevil check (R189 to R192) of an element-wise instruction of VINT or VFLT that meets a mismatch at element m. A transient one counts, and the
instruction goes on as it does without it, to the next mismatch above m or, with none, to its end; a persistent one counts, remaps the
lane, and does the same, or with LCTRAP raises LANE_CHECK,
SUB 1, UNIT 1, LANE the rotation count, at m, with the elements below m committed. On a remapped lane no further mismatch counts but a
persistent one, which takes the core out of service: the hart is saved at m, or, with no core of its cluster left, its launch ends with TCAUSE 29;
a hart in M-mode, which is never pre-empted (R200), goes on, a request at once due (DESIGN CHOICE log 47). A forced stop at an element above m
comes after a transient mismatch at m has counted. -/
def Sys2Proof.Claims.WeevilCheckFollows : Prop :=
  (∀ i s L u k, (vintLane s i = some L ∨ vfltLane s i = some L) → L.passes s → s.forcedDue = true → s.hart.stopAt = some k →
    s.hart.upsets = [u] → meetsLane s u → u.persistent = false → bitAt (s.lane s.hart.id) 49 = false → u.elem < k → k < s.hart.nel →
    ∃ t, exec i s = .next (preempt true true s.hart.pc k t) ∧ (L.upto k).Wrote s t ∧
      t = { (laneSet s (laneTransient (s.lane s.hart.id)) []) with hart := t.hart, freeCtr := t.freeCtr } ∧ t.hart.upsets = []) ∧
  ∀ i s L u us, (vintLane s i = some L ∨ vfltLane s i = some L) → L.passes s → s.hart.stopAt = none → s.hart.upsets = u :: us →
    let v := s.lane s.hart.id
    let c := s.hart.rotation.toNat
    (meetsLane s u → bitAt v 49 = false →
      ((∀ w ∈ us.head?, u.elem < w.elem) →
        (u.persistent = false → exec i s = exec i (laneSet s (laneTransient v) us)) ∧
        (u.persistent = true → s.flag s.hart 3 = false → exec i s = exec i (laneSet s (laneRemap (lanePersistent v) c) us))) ∧
      (us = [] → ∃ t, (u.persistent = false → exec i s = .next t ∧ L.Left (laneSet s (laneTransient v) []) t) ∧
        (u.persistent = true → s.flag s.hart 3 = false →
          exec i s = .next t ∧ L.Left (laneSet s (laneRemap (lanePersistent v) c) []) t)) ∧
      (u.persistent = true → s.flag s.hart 3 = true → ∃ t, (L.upto u.elem).Wrote s t ∧
        t = { (laneSet s (laneRemap (lanePersistent v) c) us) with hart := t.hart, freeCtr := t.freeCtr } ∧ t.hart.upsets = us ∧
        exec i s = .next (deliver { cause := 29, elem := u.elem, sub := 1, unit := 1, lane := c } t))) ∧
    (u.column = false → s.hart.vxi ≤ u.elem → u.elem < s.hart.nel → bitAt v 49 = true → u.persistent = true →
      ∃ t, (L.upto u.elem).Wrote s t ∧ t.hart.vxi = u.elem ∧ isOff (t.lane s.hart.id) = true ∧ t.mem = s.mem ∧
        ((∃ k, k < 4 ∧ 4 * (s.hart.id / 4) + k ≠ s.hart.id ∧ isOff (s.lane (4 * (s.hart.id / 4) + k)) = false) →
          (s.hart.mode = .u → exec i s = .next (preempt true true s.hart.pc u.elem t)) ∧
          (s.hart.mode = .m → us = [] → ∃ w, exec i s = .next w ∧
            L.Left { laneSet s (laneOff (lanePersistent v)) [] with hart := { s.hart with
              upsets := [], atOnce := false, mip := setBit s.hart.mip 16 true
              preq := BitVec.ofNat 64 (s.time % 2 ^ 32 * 65536 + bits s.hart.preq 1 1 * 2 + 1) } } w)) ∧
        ((∀ k, k < 4 → 4 * (s.hart.id / 4) + k ≠ s.hart.id → isOff (s.lane (4 * (s.hart.id / 4) + k)) = true) →
          exec i s = .next (endOwnLaunch 29 t))) ∧
    (u.column = true ∨ u.elem < s.hart.vxi ∨ s.hart.nel ≤ u.elem ∨ (bitAt v 49 = true ∧ u.persistent = false) ∨
        (bitAt v 49 = false ∧ s.hart.vl ≠ 0 ∧ (u.elem % s.hart.vl) % 32 ≠ c) →
      ∃ t, exec i s = .next t ∧ L.Left s t)

/-- The events of on-chip retention and of poison, and the Weevil lane's check. -/
def Obligations.RetentionEventsComplete : Prop := RetentionAndPoison ∧ WeevilCheckFollows

/-! ## The host (R18, R19, R54, R150, R228, R285, R287 to R289, R291 to R299) -/

namespace Sys2Proof.Claims

/-- A management command has ended with a status: no command runs, the status word holds it, and MSI-X vector 2 is raised (R291). -/
def answered (v : Nat) (s : State) : State :=
  { s with mailbox := { s.mailbox with command := none, status := BitVec.ofNat 64 v }, msix := 2 :: s.msix }

/-- What a write of bytes at a physical address under an encryption key leaves: the bytes there, every other byte as it was under that
key, memory the same outside their sectors, and of every hart only a load reservation may have gone (R151, R173). -/
def wroteAt (s t : State) (c : Option (BitVec 512)) (a : Nat) (bs : List Byte) : Prop :=
  t.memOk ∧ readUnder c t.mem a bs.length = bs ∧
  (∀ b, b < a ∨ a + bs.length ≤ b → byteUnder c t.mem b = byteUnder c s.mem b) ∧
  (∀ b, sectorOf b < sectorOf a ∨ sectorOf (a + bs.length - 1) < sectorOf b → Memory.get t.mem b = Memory.get s.mem b) ∧
  (∀ id, t.hartOf id = { s.hartOf id with reservation := (t.hartOf id).reservation }) ∧ t.queues = s.queues ∧ t.status = s.status

/-- The hart is as it was, but that a write may have broken its load reservation (R173). -/
def sameHart (s t : State) : Prop := t.hart = { s.hart with reservation := t.hart.reservation }

/-- What becomes of the record at an index when TAIL passes it (R322): its slot's bytes are taken as they stand; a slot that cannot be
read makes the index unreadable. One whose package does not answer in the meantime is left to be read later (DESIGN CHOICE log 13). -/
def takesRecord (q i : Nat) (s t : State) : Prop :=
  let read := (qRead q ((s.queue q).recordAt i) 64).run s
  (∀ bs u, read = .ok bs u → t = u.setQueue q { u.queue q with
    taken := (u.queue q).taken.put i (BitVec.ofNat 512 (ofBytes bs)), unreadable := (u.queue q).unreadable.filter (· ≠ i) }) ∧
  (∀ f u, read = .error (.trap f) u → t = u.setQueue q { u.queue q with unreadable := i :: (u.queue q).unreadable }) ∧
  (∀ w u, read = .error (.hold w) u → t = s)

/-- A queue's entry once the host's entry is installed (R287). -/
def installed (qu : Queue) : Queue :=
  let new : Queue := { qu with installed := qu.written }
  { new with prio := new.cprio, age := 0 }

end Sys2Proof.Claims

/-- R288: record i of a queue lies at RING + 64 × (i mod 2^LOG2N). A value t written to an enabled queue's doorbell becomes TAIL when
neither HEAD nor TAIL is more than the ring behind it, modulo 2^32; any other is ignored and counts in DOORBAD. Each record is taken as its
slot stands when TAIL passes it (R322). The doorbell of queue q is the four bytes of BAR0 at 0x1000 + 8 q. -/
def Obligations.DoorbellsAnnounceRecords : Prop :=
  (∀ (qu : Queue) i, qu.recordAt i = sext48 (field512 qu.installed 0 0 48) + BitVec.ofNat 64 (64 * (i % 2 ^ qu.clog2n))) ∧
  (∀ q (v : BitVec 32) s, q < 64 → let qu := s.queue q
    let fits : Bool := qu.cen && decide ((v - qu.head).toNat ≤ 2 ^ qu.clog2n) && decide ((v - qu.tail).toNat ≤ 2 ^ qu.clog2n)
    exec (.doorbellWrite q v) s = .next (if fits = true then takeRecords q (v - qu.tail).toNat s
      else { s with status := { s.status with doorbad := s.status.doorbad + 1 } })) ∧
  (∀ q s, takeRecords q 0 s = s ∧ ∀ n, ∃ t, takesRecord q (s.queue q).tail.toNat s t ∧
    takeRecords q (n + 1) s = takeRecords q n (t.setQueue q { t.queue q with tail := (s.queue q).tail + 1 })) ∧
  (∀ q n s, q < 64 → let t := takeRecords q n s
    t = { s with queues := t.queues, mem := t.mem } ∧
    t.queue q = { s.queue q with
      tail := (s.queue q).tail + BitVec.ofNat 32 n, taken := (t.queue q).taken, unreadable := (t.queue q).unreadable } ∧
    (∀ p, p ≠ q → t.queue p = s.queue p) ∧
    ∀ i r, (t.queue q).taken.get? i = some r → i ∉ (t.queue q).unreadable → (s.queue q).taken.get? i = some r ∨
      ∃ k, k < n ∧ i = ((s.queue q).tail + BitVec.ofNat 32 k).toNat) ∧
  (∀ q bs s, q < 64 → bs.length = 4 →
    exec (.registerWrite (.bar0 (0x1000 + 8 * q) bs)) s = exec (.doorbellWrite q (BitVec.ofNat 32 (ofBytes bs))) s)

/-- BAR0 and BAR2 (R4, R285, R287, R288, R291). A BAR2 read answers memory's bytes at the aperture; a BAR2 write stores them. A BAR0 byte of a queue entry takes the
bits the host may write; the mailbox's buffer takes its bytes; 1 in the go word issues the command, or answers busy; other offsets
ignore writes. That the go word keeps what was written, that the bytes of a write are taken one by one, that BAR2 reads ignore poison, and
that a write of another length or place among the doorbells counts in DOORBAD, is the model's (DESIGN CHOICE log 34). -/
def Obligations.HostAccessesComplete : Prop :=
  (∀ off len s, off + len ≤ 2 ^ 36 → ∃ t : State, exec (.hostBar2Access (.read off len)) s = .next t ∧
    t = { s with hostData := t.hostData, freeCtr := s.freeCtr + 1 } ∧ t.hostData.length = len ∧
    ∀ i, i < len → s.bar2 + off + i < s.physLimit → t.hostData[i]? = some (Memory.get s.mem (s.bar2 + off + i))) ∧
  (∀ off bs s, s.memOk → off + bs.length ≤ 2 ^ 36 → s.bar2 + off + bs.length ≤ s.physLimit →
    ∃ t, exec (.hostBar2Access (.write off bs)) s = .next t ∧ wroteAt s t none (s.bar2 + off) bs) ∧
  (∀ q i b s, q < 64 → i < 64 → ∃ v : BitVec 512,
    exec (.registerWrite (.bar0 (0x2000 + 64 * q + i) [b])) s = .next (s.setQueue q { s.queue q with written := v }) ∧
    ∀ j, j < 512 → v.getLsbD j = (entryMask.getLsbD j &&
      (if 8 * i ≤ j ∧ j < 8 * i + 8 then b.getLsbD (j - 8 * i) else (s.queue q).written.getLsbD j))) ∧
  (∀ off bs s, s.mailbox.buffer.length = 64 → 0x10000 ≤ off → off + bs.length ≤ 0x10040 →
    ∃ t : State, exec (.registerWrite (.bar0 off bs)) s = .next t ∧
      t = { s with mailbox := { s.mailbox with buffer := t.mailbox.buffer } } ∧
      ∀ i, i < 64 → t.mailbox.buffer.getD i 0 = if off ≤ 0x10000 + i ∧ 0x10000 + i < off + bs.length
        then bs.getD (0x10000 + i - off) 0 else s.mailbox.buffer.getD i 0) ∧
  (∀ s, s.status.ready = true →
    (s.mailbox.command = none → exec (.registerWrite (.bar0 0x10040 (toBytes 8 1))) s =
      .next { s with mailbox := { s.mailbox with go := 1, command := some s.mailbox.buffer } }) ∧
    (∀ c, s.mailbox.command = some c → exec (.registerWrite (.bar0 0x10040 (toBytes 8 1))) s =
      .next { s with mailbox := { s.mailbox with go := 1, status := 1 }, msix := 2 :: s.msix })) ∧
  (∀ off bs s, 0x1000 ≤ off → off < 0x1200 → (off % 8 ≠ 0 ∨ bs.length ≠ 4) →
    exec (.registerWrite (.bar0 off bs)) s = .next { s with status := { s.status with doorbad := s.status.doorbad + 1 } }) ∧
  (∀ off bs s, (off + bs.length ≤ 0x1000 ∧ off < 0x1000 ∨ 0x3000 ≤ off ∧ off + bs.length ≤ 0x10000 ∨ 0x10048 ≤ off) →
    exec (.registerWrite (.bar0 off bs)) s = .next s)

/-- The management commands (Table 18-4, R18, R54, R150, R228, R277, R285, R287, R289, R291 to R293): each, when its command runs, ends
with the status of its checks and has its effect when that is 0. That QCONFIG checks the queue's state (status 2) before the entry
(status 3) and clears the stopped state of a queue it disables, that ELIDECLR compares record numbers serially, and that QRESUME with
action 0 repeats only a failed addition, is the model's choice (DESIGN CHOICE log 34); and so is that COMMSET answers 3 for a table beyond
memory and counts the package's own domain among the four sequences (DESIGN CHOICE log 35). -/
def Obligations.MailboxCommandsComplete : Prop :=
  (∀ q s, s.running 1 [q] = true →
    (63 < q → exec (.qconfig q) s = .next (answered 3 s)) ∧
    (q ≤ 63 → (s.queue q).mayConfigure = false → exec (.qconfig q) s = .next (answered 2 s)) ∧
    (q ≤ 63 → (s.queue q).mayConfigure = true → entryOk (s.queue q).written = false → exec (.qconfig q) s = .next (answered 3 s)) ∧
    (q ≤ 63 → (s.queue q).mayConfigure = true → entryOk (s.queue q).written = true → let new := installed (s.queue q)
      (new.cen = false → exec (.qconfig q) s = .next (answered 0 (s.setQueue q { new with state := .waiting }))) ∧
      (new.cen = true → (s.queue q).cen = true → exec (.qconfig q) s = .next (answered 0 (s.setQueue q new))) ∧
      (new.cen = true → (s.queue q).cen = false → ∃ t : State, exec (.qconfig q) s = .next (answered 0 t) ∧
        sameHart s t ∧ (t.queue q).head = 0 ∧ (t.queue q).tail = 0 ∧ (t.queue q).state = .waiting ∧ (t.queue q).error = 0 ∧
        (t.queue q).installed = (s.queue q).written ∧ (t.queue q).elisions = [] ∧ (t.queue q).barriers = [] ∧
        (t.queue q).taken = [] ∧ (t.queue q).unreadable = [] ∧
        ∀ p, p ≠ q → t.queue p = s.queue p))) ∧
  (∀ q va len s, s.running 2 [q, va, len] = true → exec (.shootdown q va len) s =
    .next (answered (if q ≤ 63 ∧ va % 4096 = 0 ∧ len % 4096 = 0 then 0 else 3) s)) ∧
  (∀ q idx s, s.running 3 [q, idx] = true →
    ((63 < q ∨ 2 ^ 32 ≤ idx) → exec (.elideclr q idx) s = .next (answered 3 s)) ∧
    (q ≤ 63 → idx < 2 ^ 32 → exec (.elideclr q idx) s = .next (answered 0 (s.setQueue q { s.queue q with
      elisions := (s.queue q).elisions.filter fun e => idxAtLeast e.recIdx idx })))) ∧
  (∀ table count s, s.running 4 [table, count] = true →
    ((table % 64 ≠ 0 ∨ count = 0 ∨ 4096 < count ∨ s.physLimit < table + 64 * count ∨
      ∃ i, i < count ∧ commOf s (table + 64 * i) = none) → exec (.commset table count) s = .next (answered 3 s)) ∧
    (∀ cs : List Comm, table % 64 = 0 → 0 < count → count ≤ 4096 → table + 64 * count ≤ s.physLimit → cs.length = count →
      (∀ i, i < count → commOf s (table + 64 * i) = cs[i]?) → (cs.map (·.id)).Nodup →
      let all := (s.comms.filter fun c => !cs.any (·.id = c.id)) ++ cs
      all.length ≤ 4096 → (sequencesOf all).length ≤ 4 →
      exec (.commset table count) s = .next (if s.regs.any (fun r => cs.any (·.id = r.comm)) = true then answered 2 s
        else answered 0 { s with comms := all }))) ∧
  (∀ watts s, s.running 5 [watts] = true → exec (.powerlimit watts) s =
    .next (if 1200 ≤ watts ∧ watts ≤ 2400 ∧ watts % 25 = 0 then answered 0 { s with powerLimit := watts } else answered 3 s)) ∧
  (∀ n s, s.running 6 [n] = true → exec (.domainid n) s = .next (if 255 < n then answered 3 s
    else if s.collSeen = true then answered 2 s else answered 0 { s with domainId := n })) ∧
  (∀ base s, s.running 7 [base] = true → exec (.aperture base) s =
    .next (if base % 2 ^ 36 = 0 ∧ base < 2 ^ 40 then answered 0 { s with bar2 := base } else answered 3 s)) ∧
  (∀ q action s, s.running 10 [q, action] = true →
    ((63 < q ∨ 1 < action) → exec (.qresume q action) s = .next ((answered 3 s).answered q)) ∧
    (q ≤ 63 → action ≤ 1 → (∀ d f, (s.queue q).state ≠ .stopped d f) → exec (.qresume q action) s = .next ((answered 2 s).answered q)) ∧
    (q ≤ 63 → action ≤ 1 → (s.queue q).state = .stopped 0 none → (s.queue q).consumed = [] →
      ∃ t, exec (.qresume q action) s = .next (answered 0 t) ∧ sameHart s t ∧ (t.queue q).error = 0 ∧
        (t.queue q).state = .waiting ∧ (t.queue q).head = (s.queue q).head + (if action = 1 then 1 else 0) ∧
        ∀ p, p ≠ q → t.queue p = s.queue p) ∧
    (∀ d, q ≤ 63 → action ≤ 1 → 1 ≤ d → d ≤ 7 → (s.queue q).state = .stopped d none → (s.queue q).consumed = [] →
      ∃ t, exec (.qresume q action) s = .next (answered 0 t) ∧ sameHart s t ∧ (t.queue q).error = 0 ∧ (t.queue q).state = .waiting ∧
        (action = 0 → (t.queue q).head = (s.queue q).head ∧ (t.queue q).consumed = []) ∧
        (action = 1 → (t.queue q).head = (s.queue q).head + (if d = 1 then 2 else 1) ∧
          (t.queue q).consumed = (if d = 1 then [] else [((s.queue q).head + BitVec.ofNat 32 d).toNat]))) ∧
    (∀ d f, q ≤ 63 → action = 1 → (s.queue q).state = .stopped d (some f) →
      ∃ t, exec (.qresume q action) s = .next (answered 0 t) ∧ sameHart s t ∧ (t.queue q).error = 0 ∧
        (t.queue q).state = .waiting ∧ (t.queue q).head = (s.queue q).head ∧ ∀ p, p ≠ q → t.queue p = s.queue p) ∧
    (∀ d ctr r p, q ≤ 63 → action = 0 → (s.queue q).state = .stopped d (some (ctr, r, p)) →
      ∃ v, sameHart s v ∧ (v.queue q).error = 0 ∧ (v.queue q).state = .waiting ∧ (v.queue q).head = (s.queue q).head ∧
        (∀ u, (completionAdd q ctr).run v = .ok true u → exec (.qresume q action) s = .next ((answered 0 u).answered q)) ∧
        (∀ w u, (completionAdd q ctr).run v = .error (.hold w) u → exec (.qresume q action) s =
          .next (s.setQueue q { s.queue q with asked := (s.queue q).asked.or (some s.time) })) ∧
        ∀ u, (completionAdd q ctr).run v = .ok false u → exec (.qresume q action) s = .next ((answered 0
          (queueError q r p 0 8 (u.setQueue q { u.queue q with state := .stopped p (some (ctr, r, p)) }))).answered q))) ∧
  (∀ (code : Byte) s, (code.toNat = 0 ∨ 10 < code.toNat) → s.running code.toNat [] = true →
    exec (.mailboxUnknownCode code) s = .next (answered 3 s))

namespace Sys2Proof.Claims

/-- The check of R294 on an image. -/
def imageGood (img : List Byte) : Prop := Config.signatureValid img = true ∧ Config.fusedMinimum ≤ Config.securityVersion img

/-- Image `k` (0 boot firmware, 1 security engine, 2 scheduler) of slot `i`. -/
def slotOf (slots : List (List (List Byte))) (i k : Nat) : List Byte := (slots.getD i []).getD k []

/-- A change of one die's clock: the other dies keep theirs, and nothing else of the package changes but the draws of free values. -/
def clocked (s t : State) (die : Nat) : Prop :=
  t = { s with clocks := t.clocks, freeCtr := t.freeCtr } ∧ ∀ e, e ≠ die → t.clocks[e]? = s.clocks[e]?

end Sys2Proof.Claims

/-- Reset and boot (R294 to R296). Device reset leaves the reset state, the image slots kept. Boot takes the first slot whose boot
firmware passes: READY and SLOT when its other images pass, else FATAL 2. Trained HBM sets FULL, raises the clock to 4.0 GHz and brings
the links up. Live update (R298, R299): FWSTAGE copies and verifies, FWSWITCH writes the handover structure and starts the staged image,
whose heartbeat in time ends the update from the other slot; without it, or where it does not accept the structure, the previous image
restarts, and its heartbeat ends the command with status 5. The model's choices (DESIGN CHOICE log 36): that the sections follow CRC, that
image slots, host data and agenda outlive a reset, that FWSWITCH with nothing staged ends with status 2, that a rejected image stays in
its slot, that an engine or scheduler image that fails gives FATAL 2, and that both a heartbeat and its timeout may fall at 4,000 ticks. What
memory holds after a reset is the model's too (DESIGN CHOICE log 1). -/
def Sys2Proof.Claims.FirmwareEventsComplete : Prop :=
  (∀ s, exec .deviceReset s = .next { State.reset with
    firmware := { Firmware.reset with images := s.firmware.images }
    hostData := s.hostData
    agenda := s.agenda
    freeCtr := s.freeCtr }) ∧
  (∀ a b s, let slots := [a, b]
    s.status.ready = false → s.status.fatal = 0 →
    (∀ i, i < 2 → s.firmware.images.getD i [] = [] ∨ s.firmware.images.getD i [] = slotOf slots i 2) →
    (∀ i, i < 2 → imageGood (slotOf slots i 0) → (∀ j, j < i → ¬ imageGood (slotOf slots j 0)) →
      (imageGood (slotOf slots i 1) ∧ imageGood (slotOf slots i 2) → ∃ t, exec (.bootComplete a b) s = .next t ∧
        t.status = { s.status with ready := true, slot := i } ∧ t.hart = s.hart ∧ t.mem = s.mem ∧
        (∀ k, k ≠ 0 → t.keys.get? k = s.keys.get? k) ∧ t.keys.get? 0 = some none ∧ t.firmware.bootSlot = i ∧
        t.msix = (if s.status.slot = i then s.msix else 3 :: s.msix)) ∧
      (¬ (imageGood (slotOf slots i 1) ∧ imageGood (slotOf slots i 2)) → exec (.bootComplete a b) s =
        .next { s with status := { s.status with fatal := 2 }, msix := 3 :: s.msix })) ∧
    ((∀ i, i < 2 → ¬ imageGood (slotOf slots i 0)) → exec (.bootComplete a b) s =
      .next { s with status := { s.status with fatal := 2 }, msix := 3 :: s.msix })) ∧
  (∀ s, s.status.ready = true → s.status.full = false → s.status.fatal = 0 → exec .hbmTrainingComplete s = .next { s with
    status := { s.status with full := true }
    clocks := s.clocks.map fun c => { c with mhz := 4000 }
    linksUp := true
    msix := 3 :: s.msix }) ∧
  (∀ slot addr len s, s.running 8 [slot, addr, len] = true →
    let bad := 1 < slot ∨ addr % 4096 ≠ 0 ∨ len = 0 ∨ 2 ^ 26 < len ∨ s.physLimit < addr + len
    (bad → exec (.fwstage slot addr len) s = .next (answered 3 s)) ∧
    (¬ bad → slot = s.status.slot → exec (.fwstage slot addr len) s = .next (answered 2 s)) ∧
    (¬ bad → slot ≠ s.status.slot → let img := Memory.read s.mem addr len
      exec (.fwstage slot addr len) s = .next (answered (if imagePasses img = true then 0 else 4) { s with firmware :=
        { s.firmware with images := s.firmware.images.set slot img, staged := imagePasses img } }))) ∧
  (∀ s, s.running 9 [] = true →
    (s.firmware.staged = true → ∃ t : State, exec .fwswitch s = .next t ∧
      t = { s with firmware := { s.firmware with update := .starting s.time, handover := t.firmware.handover }, freeCtr := t.freeCtr } ∧
      t.firmware.handover.take 8 = toBytes 4 0x4F564448 ++ toBytes 2 1 ++ toBytes 2 s.status.slot ∧
      hdrField t.firmware.handover 0x10 8 = t.firmware.handover.length % 2 ^ 64 ∧
      (∀ i, i < 3 → hdrField t.firmware.handover (0x18 + 8 * i) 8 =
        (0x34 + ((List.range i).flatMap fun k => Config.handoverSection k (s.handoverData k)).length) % 2 ^ 64) ∧
      t.firmware.handover.drop 0x34 = (List.range 3).flatMap (fun i => Config.handoverSection i (s.handoverData i))) ∧
    (s.firmware.staged = false → exec .fwswitch s = .next (answered 2 s))) ∧
  (∀ s t0, s.firmware.update = .starting t0 →
    let gone : Firmware := { s.firmware with update := .none }
    (s.time - t0 ≤ 4000 → exec (.fwHeartbeat true) s = .next (answered 0 { s with
      firmware := { gone with staged := false }
      status := { s.status with slot := 1 - s.status.slot }
      msix := if 1 - s.status.slot = s.status.slot then s.msix else 3 :: s.msix })) ∧
    (s.time - t0 ≤ 4000 → exec (.fwHeartbeat false) s = .next { s with firmware := { s.firmware with update := .restarting t0 } }) ∧
    (4000 ≤ s.time - t0 → exec .fwHeartbeatTimeout s = .next { s with firmware := { s.firmware with update := .restarting t0 } })) ∧
  (∀ s t0 accepts, s.firmware.update = .restarting t0 →
    exec (.fwHeartbeat accepts) s = .next (answered 5 { s with firmware := { s.firmware with update := .none } }))

/-- Power, temperature, clocks (R18 to R20). A throttled die's clock does not rise; the power limit takes a die's clock down by 125 MHz,
not below 1.0 GHz, and with every die there withholds one issue cycle more in eight; a stretch begins and ends; each changes that die's
clock only. A thermal trip, after a failed boot too, frees every hart, empties the dies, ends any management command and raises MSI-X vectors
0 and 3; HBM keeps its bytes but for the sectors that were dirty in the L2. How far a throttled clock falls, which sectors are dirty, that the
trip ends the command, and that lowered clocks and withheld cycles do not return, is the model's choice (DESIGN CHOICE log 37), and so is
what memory reads as once lost (DESIGN CHOICE log 1). -/
def Sys2Proof.Claims.PowerEventsComplete : Prop :=
  (∀ die s c, die < 4 → s.clocks[die]? = some c →
    (∃ t d, exec (.thermalThrottle die) s = .next t ∧ clocked s t die ∧ t.clocks[die]? = some d ∧ d.throttled = true ∧
      d.mhz ≤ c.mhz ∧ d.stretched = c.stretched) ∧
    (∃ t, exec (.clockStretch die) s = .next t ∧ clocked s t die ∧ t.clocks[die]? = some { c with stretched := true }) ∧
    (∃ t, exec (.supplyRecovery die) s = .next t ∧ clocked s t die ∧ t.clocks[die]? = some { c with stretched := false }) ∧
    ((∃ d ∈ s.clocks, 1000 < d.mhz) → ∃ t, exec (.powerLimitEnforce die) s = .next t ∧ clocked s t die ∧
      t.clocks[die]? = some { c with mhz := if c.mhz ≤ 1000 then c.mhz else max 1000 (c.mhz - 125) }) ∧
    ((∀ d ∈ s.clocks, d.mhz ≤ 1000) → exec (.powerLimitEnforce die) s = .next { s with withheld := min 7 (s.withheld + 1) })) ∧
  (∀ s, s.status.fatal ≠ 1 → ∃ t, exec .thermalTrip s = .next t ∧ t.status = { s.status with
      fatal := 1, rlost := s.status.rlost + BitVec.ofNat 64 (s.lost.filter fun l => l.since + 4000 ≤ s.time).length } ∧
    t.lost = (s.lost.filter fun l => s.time < l.since + 4000).map (fun l => { l with writer := .gone }) ∧ t.doomed = [] ∧
    t.msix = 3 :: 0 :: s.msix ∧ (∀ h ∈ t.harts, h.status = .free ∧ h.job = none) ∧ t.mailbox = { s.mailbox with command := none } ∧
    (s.status.full = true → s.memOk → t.memOk ∧
      ∀ a, a / 32 ∉ Config.dirtySectors s.freeCtr → Memory.get t.mem a = Memory.get s.mem a) ∧
    (s.status.full = false → t.mem = []) ∧
    t.clusters = [] ∧ t.pins = [] ∧ t.launches = [] ∧ t.contexts = [] ∧ t.linksUp = false)

/-- Reset, boot, update, power and clocks. -/
def Obligations.FirmwareAndPowerComplete : Prop := FirmwareEventsComplete ∧ PowerEventsComplete

/-- The SPDM responder and the keys (R297). Each request moves the conversation as its phase allows, adds to the transcript and is
answered with what Table 18-11's row names; one out of order is answered with an error and changes nothing else. KEY_LOAD and KEY_CLEAR
act in a secured session, on keys 1 to 8,191: accesses then use the new key, or find none loaded. The message codes and error numbers are the model's (PRESUMED log 23). -/
def Obligations.SpdmAndKeysComplete : Prop :=
  (∀ s, exec .spdmGetVersion s = .next { s with spdm := { phase := .version, answer := .version 0x13, transcript := [0x84], secret := 0 } }) ∧
  (∀ s, s.spdm.phase = .version → exec .spdmGetCapabilities s = .next { s with spdm := { s.spdm with
    phase := .capabilities, answer := .capabilities, transcript := s.spdm.transcript ++ [0xE1] } }) ∧
  (∀ s, s.spdm.phase = .capabilities → exec .spdmNegotiateAlgorithms s = .next { s with spdm := { s.spdm with
    phase := .negotiated, answer := .algorithms, transcript := s.spdm.transcript ++ [0xE3] } }) ∧
  (∀ s, s.spdm.phase.ready = true →
    exec .spdmGetDigests s = .next { s with spdm := { s.spdm with
      answer := .digests (Config.sha256 Config.certificateChain), transcript := s.spdm.transcript ++ [0x81] } } ∧
    (∀ off len, ∃ t : State, exec (.spdmGetCertificate off len) s = .next t ∧ t = { s with spdm := t.spdm } ∧
      t.spdm.answer = .certificate ((Config.certificateChain.drop off).take len) ∧ t.spdm.phase = s.spdm.phase ∧
      s.spdm.transcript <+: t.spdm.transcript) ∧
    (∀ nonce, ∃ (t : State) (own : BitVec 256), exec (.spdmChallenge nonce) s = .next t ∧
      t = { s with spdm := t.spdm, freeCtr := t.freeCtr } ∧ t.spdm.phase = s.spdm.phase ∧
      t.spdm.transcript = s.spdm.transcript ++ 0x83 :: toBytes 32 nonce.toNat ∧
      t.spdm.answer = .challenge (Config.sha256 Config.certificateChain) own (Config.identitySign (Config.sha256 t.spdm.transcript))) ∧
    (∀ index nonce, 1 ≤ index → index ≤ 5 → ∃ (t : State) (own : BitVec 256), exec (.spdmGetMeasurements index nonce) s = .next t ∧
      t = { s with spdm := t.spdm, freeCtr := t.freeCtr } ∧ t.spdm.phase = s.spdm.phase ∧
      t.spdm.answer = .measurements [(index, measurement s index)] own (Config.identitySign (Config.sha256 t.spdm.transcript)))) ∧
  (∀ share s, s.spdm.phase = .negotiated → ∃ (t : State) (mine : BitVec 512), exec (.spdmKeyExchange share) s = .next t ∧
    t = { s with spdm := t.spdm, freeCtr := t.freeCtr } ∧ t.spdm.phase = .exchanging ∧ t.spdm.secret = Config.ecdhe s.freeCtr share ∧
    t.spdm.answer = .keyExchange mine (Config.identitySign (Config.sha256 t.spdm.transcript))) ∧
  (∀ mac s, s.spdm.phase = .exchanging → ∃ t : State, exec (.spdmFinish mac) s = .next t ∧ t = { s with spdm := t.spdm } ∧
    (mac = Config.finishMac s.spdm.secret s.spdm.transcript → t.spdm.phase = .secured ∧ t.spdm.answer = .finished ∧
      t.spdm.secret = s.spdm.secret) ∧
    (mac ≠ Config.finishMac s.spdm.secret s.spdm.transcript → t.spdm.phase = .negotiated ∧ t.spdm.secret = 0)) ∧
  (∀ s, s.spdm.phase = .secured → exec .spdmEndSession s = .next { s with spdm :=
    { phase := .negotiated, answer := .ended, transcript := s.spdm.transcript ++ [0xEC], secret := 0 } }) ∧
  (∀ i s, (i = Instr.spdmGetCapabilities ∧ s.spdm.phase ≠ .version ∨ i = .spdmNegotiateAlgorithms ∧ s.spdm.phase ≠ .capabilities ∨
      i = .spdmGetDigests ∧ s.spdm.phase.ready = false ∨ (∃ n, i = .spdmChallenge n) ∧ s.spdm.phase.ready = false ∨
      (∃ x, i = .spdmKeyExchange x) ∧ s.spdm.phase ≠ .negotiated ∨ (∃ m, i = .spdmFinish m) ∧ s.spdm.phase ≠ .exchanging ∨
      i = .spdmEndSession ∧ s.spdm.phase ≠ .secured) →
    ∃ t : State, exec i s = .next t ∧ t = { s with spdm := { s.spdm with answer := .error 4 }, freeCtr := t.freeCtr }) ∧
  (∀ k key s, s.spdm.phase = .secured → 1 ≤ k → k ≤ 8191 →
    exec (.keyLoad k key) s = .next { s with keys := s.keys.put k (some key), spdm := { s.spdm with answer := .ack } } ∧
    exec (.keyClear k) s = .next { s with keys := s.keys.drop k, spdm := { s.spdm with answer := .ack } } ∧
    ({ s with keys := s.keys.put k (some key) } : State).cryptKey s.domainId k = some key ∧
    ({ s with keys := s.keys.drop k } : State).keyLoaded s.domainId k = false) ∧
  (∀ k key s, (s.spdm.phase ≠ .secured ∨ k = 0 ∨ 8191 < k) →
    (∃ e, exec (.keyLoad k key) s = .next { s with spdm := { s.spdm with answer := .error e } }) ∧
    ∃ e, exec (.keyClear k) s = .next { s with spdm := { s.spdm with answer := .error e } })

/-! ## The Ordinal (R258, R264, R266 to R268, R271, R273, R274, R280) -/

namespace Sys2Proof.Claims

/-- Registrations once the start report of a number has been accepted. -/
def nowAccepted (num : Nat) (rs : List Registration) : List Registration :=
  rs.map fun r => if r.numIs num 0 = true then { r with accepted := true } else r

/-- What the primary does for an entry that needs no acknowledgement, or has it (R273): an accepted start report takes effect at the member;
the answer to a cancellation reaches the harts that wait for it, and ends what is pending of it at its registration. -/
def acts (comm : Nat) (k : ReplicaKind) (s t : State) : Prop :=
  match k with
  | .start num rank => t = { s with
      regs := if (s.comm? comm).map (·.ownRank) = some rank then nowAccepted num s.regs else s.regs }
  | .cancel _ a (some reg) =>
    t = { s with
      hart := t.hart, others := t.others
      regs := s.regs.map fun r => if r.id = reg then { r with cancelPending := false } else r } ∧
    ∀ id, t.hartOf id = match (s.hartOf id).cancel with
      | some c => if c.reg = reg then returnCancel (if s.time - c.since ≤ 300 then a else 4) (s.hartOf id) else s.hartOf id
      | none => s.hartOf id
  | _ => t = s

/-- An entry of the Ordinal's that has these registrations has been given the next number, and a notice to each member, whose PREV is
the last number of that member's chain (R258, R266). -/
def numbered (o p : Machine.Ordinal) (e : OrdEntry) : Prop :=
  p.nextNum = (o.nextNum + 1) % 2 ^ 32 ∧ ∃ d ∈ p.entries, d.comm = e.comm ∧ d.tag = e.tag ∧ d.num = some o.nextNum ∧ d.regs = e.regs ∧
    d.void = e.void ∧ d.aborted = (!e.void && e.mismatched) ∧ (∀ r ∈ e.regs, d.prevs.any (·.1 = r.pkg) = true) ∧
    ((e.regs.map (·.pkg)).Nodup → e.prevs = [] → d.prevs = e.regs.map fun r => (r.pkg, o.chainOf r.pkg))

end Sys2Proof.Claims

/-- The Ordinal's work (R258, R264, R266 to R268, R271, R274, R280, R281). The registration that completes a collective gives it the next
number; an earlier one is kept, a repeated one and one that no live COLL backs change nothing. A deferred number is given once the limits
allow, void entries counted until every member has ended them. An accepted start report is recorded and starts the timer; none is accepted
once the timer has run out; one that the replica holds is answered when it is sent again; another sequence's is accepted by its own Ordinal. A
cancellation concerns one registration: this package's the one it names, another's the last of its rank that is not finished. It is decided
on receipt, not before that registration has arrived, and answered to the harts that wait for it, with 4 after 300 ticks, and an
unstarted collective becomes void; another domain's Ordinal answers as it will, but nothing that an answer, an acceptance, a notice or an
end has ruled out (Table 16-5, R268, R279). A run-out timer ends a strict collective with TIMEOUT; a loose one goes on once among the members
that started and met no fault. Logs 24 and 39 name what the spec leaves open. -/
def Sys2Proof.Claims.OrdinalDecisionsComplete : Prop :=
  (∀ m s, s.ordinalActive = true → s.mayRegister m = true →
    let o := s.ordinal.joined m
    let e := o.openEntry m
    let own := if m.pkg = s.domainId then (s.ownReg m.comm m.tag).map (·.id) else none
    let e' : OrdEntry := e.join o m own
    e'.regs = e.regs ++ [m] ∧ e'.num = e.num ∧ e'.mine = e.mine.or own ∧
    (s.registered m = true → exec (.ordinalRegistration m) s = .next s) ∧
    (s.registered m = false → e.num = none → ((e'.complete = true ∨ e'.void = true) ∧ o.mayNumber = true) →
      ∃ t : State, exec (.ordinalRegistration m) s = .next t ∧ t = { s with ordinal := t.ordinal } ∧ numbered o t.ordinal e') ∧
    (s.registered m = false → e.num = none → ¬ ((e'.complete = true ∨ e'.void = true) ∧ o.mayNumber = true) →
      exec (.ordinalRegistration m) s = .next { s with ordinal := o.put e' }) ∧
    (∀ num, s.registered m = false → e.num = some num → ∃ t : State, exec (.ordinalRegistration m) s = .next t ∧
      t = { s with ordinal := t.ordinal } ∧ t.ordinal.nextNum = s.ordinal.nextNum ∧
      ∃ d ∈ t.ordinal.entries, d.num = some num ∧ d.regs = e.regs ++ [m] ∧
        (e.prevs.any (·.1 = m.pkg) = false → (m.pkg, o.chainOf m.pkg) ∈ d.prevs))) ∧
  (∀ m (s : State), ¬ (s.ordinalActive = true ∧ s.mayRegister m = true) → exec (.ordinalRegistration m) s = .next s) ∧
  (∀ m (s : State), m.pkg = s.domainId → (s.regs.any (fun r => r.comm = m.comm && r.tag = m.tag && r.state = .unnumbered) = false ∨
    s.comm? m.comm = none) → s.mayRegister m = false) ∧
  (∀ o : Machine.Ordinal, o.mayNumber = true ↔ (o.entries.filter fun e => e.num.isSome && !e.finished).length < 2 ^ 20 ∧
    ∀ e ∈ o.entries, ∀ n, e.num = some n → e.finished = false → (o.nextNum + 2 ^ 32 - n % 2 ^ 32) % 2 ^ 32 < 2 ^ 29) ∧
  (∀ comm tag s e, (s.ordinal.openFor comm tag).find? (·.num.isNone) = some e → s.ordinalActive = true →
    (e.complete = true ∨ e.void = true) → s.ordinal.mayNumber = true →
    ∃ t : State, exec (.ordinalDeferredNumber comm tag) s = .next t ∧ t = { s with ordinal := t.ordinal } ∧ numbered s.ordinal t.ordinal e) ∧
  (∀ num rank s e, s.ordinal.byNum num = some e → s.ordinalActive = true → s.ordinal.role = .primary →
    ((s.comm? e.comm).map (·.ownRank) ≠ some rank ∨ ((s.regOf num 0).map (·.isStarted)) = some true) →
    (e.timedOut s.time = true → e.startStands rank = false → exec (.ordinalStartReport ⟨num, 0⟩ rank) s = .next s) ∧
    (e.mayStart rank = true → e.timedOut s.time = false → ∃ t, exec (.ordinalStartReport ⟨num, 0⟩ rank) s = .next t ∧ t.hart = s.hart ∧ t.mem = s.mem ∧
      (∃ d ∈ t.ordinal.entries, d.num = some num ∧ d.starts = e.starts ++ [rank] ∧ d.timer = e.timer.or (some s.time)) ∧
      (s.ordinal.standby = none → (s.comm? e.comm).map (·.ownRank) = some rank →
        t.regs = nowAccepted num s.regs) ∧
      (s.ordinal.standby ≠ none → t.regs = s.regs)) ∧
    (e.startStands rank = true → s.ordinal.awaits e.comm e.tag (.start num rank) = false →
      exec (.ordinalStartReport ⟨num, 0⟩ rank) s = .next { s with
        regs := if (s.comm? e.comm).map (·.ownRank) = some rank then nowAccepted num s.regs else s.regs })) ∧
  (∀ num seq rank s, (seq ≠ 0 ∨ s.ordinal.role ≠ .primary) → ∃ t : State, exec (.ordinalStartReport ⟨num, seq⟩ rank) s = .next t ∧
    t = { s with regs := t.regs } ∧ t.regs.length = s.regs.length ∧ ∀ (i : Nat) (r : Registration), s.regs[i]? = some r →
      t.regs[i]? = some (if r.state = .started num ∧ r.seq = seq ∧ r.verdict = none ∧ s.stalled seq = false ∧
          (s.comm? r.comm).map (·.ownRank) = some rank then { r with accepted := true } else r)) ∧
  (∀ comm tag rank reg s, s.numbersHere comm = true → (s.comm? comm).map (·.ownRank) = some rank → s.nextCancel comm tag = some reg →
    let e := s.ordinal.holding reg
    let a := (e.bind (·.reply? rank)).getD (s.ordinal.cancelAnswer e)
    let k : ReplicaKind := .cancel rank a (some reg)
    ((s.ordinalActive = false ∨ s.regOnWay reg = true) → exec (.ordinalCancellation comm tag rank) s = .next s) ∧
    (s.ordinalActive = true → s.regOnWay reg = false → ∃ o : Machine.Ordinal,
      (e.bind (·.reply? rank) = none → a = 0 → ∃ d ∈ o.entries, e.map (·.comm) = some d.comm ∧ e.map (·.tag) = some d.tag ∧ d.void = true) ∧
      ((s.ordinal.standby = none ∨ e.bind (·.reply? rank) ≠ none) → ∃ t, exec (.ordinalCancellation comm tag rank) s = .next t ∧
        acts comm k { s with ordinal := o } t) ∧
      (s.ordinal.standby ≠ none → e.bind (·.reply? rank) = none →
        exec (.ordinalCancellation comm tag rank) s = .next { s with ordinal := o } ∧
        ∃ p ∈ o.pending, p.comm = comm ∧ p.tag = tag ∧ p.kind = k))) ∧
  (∀ comm tag rank s, (s.comm? comm).map (·.ownRank) ≠ some rank → let e := s.ordinal.cancelEntry comm tag rank
    (¬ (s.numbersHere comm = true ∧ s.ordinalActive = true ∧ e ≠ none) → exec (.ordinalCancellation comm tag rank) s = .next s) ∧
    (s.numbersHere comm = true → s.ordinalActive = true → e ≠ none → ∃ t : State,
      exec (.ordinalCancellation comm tag rank) s = .next t ∧ t = { s with ordinal := t.ordinal } ∧
      (e.bind (·.reply? rank) = none → s.ordinal.cancelAnswer e = 0 →
        ∃ d ∈ t.ordinal.entries, d.comm = comm ∧ d.tag = tag ∧ d.void = true))) ∧
  (∀ comm tag rank (s : State) e, s.ordinal.cancelEntry comm tag rank = some e →
    e ∈ s.ordinal.entries ∧ e.comm = comm ∧ e.tag = tag ∧ (∃ m ∈ e.regs, m.rank = rank) ∧
    (e.finished = true → ∀ d ∈ s.ordinal.entries, d.comm = comm → d.tag = tag → (∃ m ∈ d.regs, m.rank = rank) → d.finished = true)) ∧
  (∀ comm tag rank (s : State), (s.comm? comm).map (·.ownRank) = some rank → s.nextCancel comm tag = none →
    exec (.ordinalCancellation comm tag rank) s = .next s) ∧
  (∀ comm tag rank reg s, s.numbersHere comm = false → (s.comm? comm).map (·.ownRank) = some rank → s.nextCancel comm tag = some reg →
    (s.stalled (s.commSeq comm) = true → exec (.ordinalCancellation comm tag rank) s = .next s) ∧
    (s.stalled (s.commSeq comm) = false → ∃ a t, exec (.ordinalCancellation comm tag rank) s = .next t ∧
      (s.answersLeft reg ≠ [] → a ∈ s.answersLeft reg) ∧
      ∃ u, acts comm (.cancel rank a (some reg)) s u ∧ t = { u with
        freeCtr := s.freeCtr + 1
        regs := u.regs.map fun r => if r.id = reg then { r with
          told := if a = 3 then r.told else some a
          verdict := if a = 0 ∨ a = 2 then r.verdict.or (some 2) else r.verdict } else r })) ∧
  (∀ reg (s : State) (r : Registration), s.regs.find? (·.id = reg) = some r → s.answersLeft reg = r.answers) ∧
  (∀ r : Registration, (r.told = some 1 → r.answers = [1]) ∧ (∀ a, r.told = some a → a ≠ 1 → r.answers = [2]) ∧
    (r.told = none → r.accepted = true → r.answers = [1]) ∧
    (r.told = none → r.accepted = false →
      (∀ n p v a, r.state = .numbered n p v a → r.answers =
        if v = true then [0, 2] else if a = true then [2] else if r.verdict = none then [0, 1, 2, 3]
        else if r.verdict = some 2 then [0, 2] else [1, 2]) ∧
      ((∀ n p v a, r.state ≠ .numbered n p v a) → r.answers =
        if r.verdict = none then [0, 1, 2, 3] else if r.verdict = some 2 then [0, 2] else [1, 2]))) ∧
  (∀ (o : Machine.Ordinal), o.cancelAnswer none = 2 ∧ ∀ e : OrdEntry, (e.starts ≠ [] → o.cancelAnswer (some e) = 1) ∧
    (e.starts = [] → (e.void = true ∨ e.ended = true ∨ e.aborted = true) → o.cancelAnswer (some e) = 2) ∧
    (e.starts = [] → e.void = false → e.ended = false → e.aborted = false →
      o.cancelAnswer (some e) = if e.num = none ∧ 65536 ≤ o.keptVoid then 3 else 0)) ∧
  (∀ num s e z, s.ordinal.byNum num = some e → s.ordinalActive = true → e.ended = false → e.timedOut s.time = true → e.rank0 = some z →
    let goesOn := z.strict = false ∧ e.contributors = none ∧ e.present.length < z.n ∧ 2 ≤ e.present.length
    (goesOn → ∃ t, exec (.collectiveTimeout num) s = .next t ∧ t.hart = s.hart ∧ t.mem = s.mem ∧
      ∃ d ∈ t.ordinal.entries, d.num = some num ∧ d.contributors = some e.present ∧ d.timer = some s.time) ∧
    (¬ goesOn → ∃ t, exec (.collectiveTimeout num) s = .next t ∧ t.hart = s.hart ∧ t.mem = s.mem ∧
      (∃ d ∈ t.ordinal.entries, d.num = some num ∧ d.outcome = some 3 ∧ d.ended = true) ∧
      ∀ r ∈ t.regs, (r.numIs num 0 = true ∨ r.state = .unnumbered ∧ e.mine = some r.id ∧ s.standsHere e = true) →
        r.verdict.isSome = true))

/-- Which package numbers (R273, R274). An election gives this package its role; a heartbeat sets its time; 100 ticks without an
acknowledgement stop the primary, at the tick itself; after 200 ticks of silence the standby takes over, and hears no heartbeat and no entry
before it has, numbering on at H + 2^16, with the replicated answers of cancellations that still wait; the standby records what
it receives, the primary performs what is acknowledged; the loss of both reads FATAL 3. What a failover keeps is DESIGN CHOICE log 39's. -/
def Sys2Proof.Claims.OrdinalRolesComplete : Prop :=
  (∀ p b s, s.ordinal.lost = false → s.status.full = true → let sb := if b = s.domainId then none else some b
    (p = s.domainId → s.ordinal.role = .none → exec (.ordinalElection p b) s = .next { s with ordinal :=
      { Machine.Ordinal.reset with role := OrdRole.primary, standby := sb, lastBeat := s.time } }) ∧
    (p = s.domainId → s.ordinal.role = .standby → ∃ t : State, exec (.ordinalElection p b) s = .next t ∧ t = { s with ordinal := t.ordinal } ∧
      t.ordinal.role = .primary ∧ t.ordinal.standby = sb ∧ ∀ h, s.ordinal.highest = some h → t.ordinal.nextNum = (h + 2 ^ 16) % 2 ^ 32) ∧
    (p = s.domainId → s.ordinal.role = .primary → ∃ t, exec (.ordinalElection p b) s = .next t ∧ t.mem = s.mem ∧
      t.ordinal = { s.ordinal with standby := sb, stopped := false, pending := [], lastBeat := s.time }) ∧
    (p ≠ s.domainId → b = s.domainId → ∃ t : State, exec (.ordinalElection p b) s = .next t ∧ t = { s with ordinal := t.ordinal } ∧
      t.ordinal.role = .standby ∧ t.ordinal.lastBeat = s.time) ∧
    (p ≠ s.domainId → b ≠ s.domainId → exec (.ordinalElection p b) s = .next { s with ordinal := Machine.Ordinal.reset })) ∧
  (∀ s, (s.ordinal.role = .standby ∧ s.time - s.ordinal.lastBeat < 200 ∨ s.ordinal.role = .primary ∧ 40 ≤ s.time - s.ordinal.lastBeat) →
    exec .ordinalHeartbeat s = .next { s with ordinal := { s.ordinal with lastBeat := s.time } }) ∧
  (∀ num void rs s, s.ordinal.role = .standby → 200 ≤ s.time - s.ordinal.lastBeat →
    exec .ordinalHeartbeat s = .next s ∧ exec (.ordinalReplication (.assign num void rs)) s = .next s) ∧
  (∀ s : State, s.ordinalActive = true ↔ s.ordinal.role = .primary ∧ s.ordinal.stopped = false ∧ s.ordinal.lost = false ∧
    (s.ordinal.pending = [] ∨ s.time - s.ordinal.lastAck < 100)) ∧
  (∀ s, s.ordinal.role = .primary → s.ordinal.pending ≠ [] → 100 ≤ s.time - s.ordinal.lastAck →
    exec .ordinalStandbyAckTimeout s = .next { s with ordinal := { s.ordinal with stopped := true } }) ∧
  (∀ s, s.ordinal.role = .standby → 200 ≤ s.time - s.ordinal.lastBeat → ∃ t : State, exec .ordinalFailover s = .next t ∧
    t = { s with ordinal := t.ordinal } ∧ t.ordinal.role = .primary ∧ t.ordinal.standby = none ∧ t.ordinal.stopped = false ∧
    (∀ h, s.ordinal.highest = some h → t.ordinal.nextNum = (h + 2 ^ 16) % 2 ^ 32) ∧
    ∀ e, e ∈ t.ordinal.entries ↔ ∃ d ∈ s.ordinal.entries, e = { d with answers := e.answers } ∧
      (e.num.isSome = true ∨ e.void = true ∨ e.answers ≠ []) ∧
      e.answers = if d.finished then [] else d.answers.filter fun a =>
        (s.comm? d.comm).map (·.ownRank) ≠ some a.1 || s.cancelSent d) ∧
  (∀ id s r, s.ordinal.pending.find? (·.id = id) = some r → s.ordinal.role = .primary → s.ordinal.stopped = false →
    s.time - s.ordinal.lastAck < 100 →
    ∃ t, exec (.ordinalReplication (.ack id)) s = .next t ∧ acts r.comm r.kind { s with ordinal :=
      { s.ordinal with pending := s.ordinal.pending.filter (·.id ≠ id), lastAck := s.time } } t) ∧
  (∀ num void z rs s, s.ordinal.role = .standby → s.time - s.ordinal.lastBeat < 200 → ∃ t : State, exec (.ordinalReplication (.assign num void (z :: rs))) s = .next t ∧
    t = { s with ordinal := t.ordinal } ∧ t.ordinal.highest = some num ∧ t.ordinal.nextNum = (num + 1) % 2 ^ 32 ∧
    let told := (s.ordinal.openFor z.comm z.tag).find? (·.num.isNone)
    ∃ d ∈ t.ordinal.entries, d.comm = z.comm ∧ d.tag = z.tag ∧ d.num = some num ∧ d.regs = z :: rs ∧
      d.void = (void || (told.map (·.void)).getD false) ∧ d.answers = (told.map (·.answers)).getD []) ∧
  (∀ comm tag rank a num s, s.ordinal.role = .standby → s.time - s.ordinal.lastBeat < 200 → ∃ t : State,
    exec (.ordinalReplication (.cancel comm tag rank a num)) s = .next t ∧ t = { s with ordinal := t.ordinal } ∧
    (num = none → ∃ d ∈ t.ordinal.entries, d.comm = comm ∧ d.tag = tag ∧ d.num = none ∧ d.reply? rank = some a ∧
      (a = 0 → d.void = true)) ∧
    (∀ n, num = some n → s.ordinal.byNum n = none → t = s) ∧
    ∀ n e, num = some n → s.ordinal.byNum n = some e → ∃ d, t.ordinal.byNum n = some d ∧ d.regs = e.regs ∧ d.reply? rank = some a ∧
      d.void = (e.void || a = 0)) ∧
  (∀ s, s.status.fatal = 0 → exec .domainFault s = .next { s with
    ordinal := { s.ordinal with lost := true }
    status := { s.status with fatal := 3 }
    msix := 3 :: s.msix })

/-- The Ordinal: its decisions and its roles. -/
def Obligations.OrdinalCompletes : Prop := OrdinalDecisionsComplete ∧ OrdinalRolesComplete

/-! ## The collective engine (R263, R264, R266, R268 to R272, R275) -/

namespace Sys2Proof.Claims

/-- The pairwise tree of R125 over ranks 0 to 2^k - 1; a member that did not contribute is absent. -/
def overRanks (op : Leaf → Leaf → Leaf) : Nat → (Nat → Option Leaf) → Option Leaf
  | 0, v => v 0
  | k + 1, v => overRanks op k fun i => match v (2 * i), v (2 * i + 1) with
    | some a, some b => some (op a b)
    | a, b => a.or b

/-- A step of a collective's end, which stops nothing under FAULT: the state it leaves. -/
def passedOver (x : Op Unit) (s t : State) : Prop := x.run s = .ok () t ∨ ∃ f, x.run s = .error (.trap f) t

end Sys2Proof.Claims

/-- A collective before its end (R263, R266, R268). A notice numbers its registration, voids a numbered one, and decides a started one whose
start report was not accepted, unless another domain's Ordinal has answered 1 to a cancellation of it (R268); a repeated one, of a number
that the engine has ended too, changes nothing. The engine begins a numbered collective that is not void once it has ended
the previous one. -/
def Sys2Proof.Claims.CollectivesBegin : Prop :=
  (∀ comm tag num prev void aborted s, s.stalled (s.commSeq comm) = false →
    (s.numbersHere comm = false ∨ s.noticeTrue comm tag num prev void aborted = true) →
    ∃ t : State, exec (.collectiveNotice comm tag num prev void aborted) s = .next t ∧ t = { s with regs := t.regs } ∧
      t.regs.length = s.regs.length ∧ ∀ (i : Nat) (g : Registration), s.regs[i]? = some g → ∃ d, t.regs[i]? = some d ∧
        (¬ (g.comm = comm ∧ g.tag = tag) ∨ num ∈ (s.seqAt (s.commSeq comm)).endedNums → d = g) ∧
        (num ∉ (s.seqAt (s.commSeq comm)).endedNums → g.comm = comm → g.tag = tag → g.state = .unnumbered →
          d = { g with state := .numbered num prev (void && g.told ≠ some 1) aborted }) ∧
        (∀ n p v a, num ∉ (s.seqAt (s.commSeq comm)).endedNums → g.comm = comm → g.tag = tag → g.state = .numbered n p v a →
          d = if n = num then { g with state := .numbered n p (v || (void && g.told ≠ some 1)) (a || aborted) } else g) ∧
        (∀ n, num ∉ (s.seqAt (s.commSeq comm)).endedNums → g.comm = comm → g.tag = tag → g.state = .started n →
          d = if n = num ∧ void = true ∧ g.accepted = false ∧ g.told ≠ some 1 then { g with verdict := g.verdict.or (some (if aborted then 6 else 2)) }
            else g)) ∧
  (∀ comm s, s.stalled (s.commSeq comm) = true → ∀ tag num prev void aborted,
    exec (.collectiveNotice comm tag num prev void aborted) s = .next s) ∧
  (∀ num seq s r prev, s.regOf num seq = some r → r.state = .numbered num prev false false → s.linksUp = true → r.verdict = none →
    s.reached seq prev = true → ∃ t : State, exec (.collectiveBegin num seq) s = .next t ∧
      t = { s with regs := t.regs, seqs := t.seqs } ∧ (t.regOf num seq).map (·.state) = some (.started num) ∧
      (t.regOf num seq).map (·.since) = some s.time ∧
      (∀ g ∈ s.regs, g.numIs num seq = false → g ∈ t.regs) ∧
      (t.seqAt seq).running = some num ∧ (t.seqAt seq).endedNums = (s.seqAt seq).endedNums) ∧
  (∀ id s c, (s.hartOf id).cancel = some c → 300 ≤ s.time - c.since → ∃ h : Hart,
    exec (.ccancelAnswerTimeout id) s = .next (s.setHart h) ∧ h.cancel = none ∧ h.pc = (s.hartOf id).pc + 4 ∧ h.id = (s.hartOf id).id ∧
      (c.rd ≠ 0 → h.xr c.rd = 4) ∧ ∀ x, x ≠ c.rd → h.xr x = (s.hartOf id).xr x)

/-- A collective's end (R258, R263, R268, R270, R271, R278). A DONE reads SRC, places and writes what DST and RESID take, once the
contributions of the members outside the domain have arrived and each has been sent this member's; TIMEOUT and ABORTED leave the buffers
undefined (DEDUCED log 38). Every end then writes the record of Table 16-6 at CREC, releases, adds 1 to the counter, and removes the registration;
under FAULT a step that faults is passed over (DESIGN CHOICE log 9). A release that meets a write undelivered, and the addition to a
counter in another package that does not answer, fault once 4,000 ticks have passed since the engine began (R277, R278). -/
def Sys2Proof.Claims.CollectivesEnd : Prop :=
  (∀ num seq status peers s, s.regOf num seq = none → exec (.collectiveEnd num seq status peers) s = .next (ordinalEnded num seq false s)) ∧
  (∀ num seq here s, ((seq ≠ 0 ∨ s.ordinal.role ≠ .primary ∨ s.ordinal.byNum num = none) → ordinalEnded num seq here s = s) ∧
    ∀ e, seq = 0 → s.ordinal.role = .primary → s.ordinal.byNum num = some e →
      ((e.void = true ∧ e.complete = false ∨ s.standsHere e = true) → ordinalEnded num seq here s = s) ∧
      (¬ (e.void = true ∧ e.complete = false ∨ s.standsHere e = true) → let t := ordinalEnded num seq here s
        t = { s with ordinal := { s.ordinal with entries := t.ordinal.entries } } ∧
        t.ordinal.byNum num = some { e with ended := true, finished := e.finished || !here })) ∧
  (∀ num seq status peers s r m u z, s.regOf num seq = some r → s.comm? r.comm = some m →
    (∀ p v a, r.state = .numbered num p v a → s.reached seq p = true → s.mayEndUnstarted r m v a status = true →
      (if (status = 3 ∨ status = 6) ∧ a = false then undefBuffers undefUnseen r m else pure ()).run s = .ok () u →
      (endColl r num status 0 0 []).run u = .ok () z → exec (.collectiveEnd num seq status peers) s = .next (ordinalEnded num seq true z)) ∧
    (r.state = .started num → status ≠ 1 → s.mayEndStarted r m status = true →
      (if status = 3 ∨ status = 6 then undefBuffers undefBytes r m else pure ()).run s = .ok () u →
      (endColl r num status 0 0 []).run u = .ok () z → exec (.collectiveEnd num seq status peers) s = .next (ordinalEnded num seq true z))) ∧
  (∀ num seq peers s r m own dp rp t u v w x y z, let d := collDesc r.desc
    let es := ebOf d.type
    let a := s.collAccess r
    let mine : Contribution := .mk m.ownRank (own.map fun e => BitVec.ofNat 32 e.1) (own.map (·.2))
    let ranks := m.ownRank :: peers.map (·.rank)
    let dst := dstElems d m.members.length m.ownRank ((mine :: peers).map (partOf d))
    let res := residElems d own
    s.regOf num seq = some r → s.comm? r.comm = some m → r.state = .started num → r.accepted = true → r.verdict = none →
    peersOk m d peers = true → peers.all (s.arrived m num) = true → s.doneHere num seq ranks = true →
    (collRead a r.since d.src es (srcCount d m.members.length m.ownRank) 0).run s = .ok own u →
    (sealTo m (peers.map (·.rank)) (own.length * es)).run u = .ok () t →
    (placeElems a d.dst es dst).run t = .ok dp v → (placeElems a d.resid 4 res).run v = .ok rp w →
    (writeElems r.writer d.dst es dp dst).run w = .ok () x → (writeElems r.writer d.resid 4 rp res).run x = .ok () y →
    (endColl r num 1 0 0 ranks).run y = .ok () z →
    exec (.collectiveEnd num seq 1 peers) s = .next (ordinalEnded num seq true z)) ∧
  (∀ m ranks n s, (∀ k ∈ ranks, m.ether? k = none) → (sealTo m ranks n).run s = .ok () s) ∧
  (∀ r num status cause faddr mask s t u v, let n := ((s.comm? r.comm).map (·.members.length)).getD 0
    let write := writeRecordOf r (completionRecord num status cause faddr n mask)
    let out := engineRelease r.writer r.since (releaseCode r (collDesc r.desc))
    (status ≠ 5 → write.run s = .ok () t → out.run t = .ok () u → (addToCounter r).run u = .ok () v →
      (endColl r num status cause faddr mask).run s = .ok () (endRegistration r num status v)) ∧
    (status = 5 → passedOver write s t → passedOver out t u → passedOver (addToCounter r) u v →
      (endColl r num status cause faddr mask).run s = .ok () (endRegistration r num status v))) ∧
  (∀ num status cause faddr n mask, status < 256 → cause < 256 → let bs := completionRecord num status cause faddr n mask
    bs.length = 16 + 8 * ((n + 63) / 64) ∧ bs.take 4 = [0, 0, BitVec.ofNat 8 cause, BitVec.ofNat 8 status] ∧
    ofBytes ((bs.drop 4).take 4) = num % 2 ^ 32 ∧ ofBytes ((bs.drop 8).take 8) = faddr % 2 ^ 64 ∧
    (mask.Nodup → ∀ k, k < 64 * ((n + 63) / 64) → (ofBytes (bs.drop 16)).testBit k = decide (k ∈ mask))) ∧
  (∀ (r : Registration) bs s, ((collDesc r.desc).crec = 0 → (writeRecordOf r bs).run s = .ok () s) ∧
    ∀ ps c keys v, (collDesc r.desc).crec ≠ 0 → (enginePlace (s.collAccess r) false (collDesc r.desc).crec bs.length).run s = .ok ps v →
      placedAt ps c keys → v.memOk → ∃ t, (writeRecordOf r bs).run s = .ok () t ∧ tookBytes v t c keys bs) ∧
  (∀ w since code s, let x := engineRelease w since code
    ((code < 4 ∨ s.lost.find? (·.writer = w) = none) → x.run s = .ok () s) ∧
    ∀ l, 4 ≤ code → s.lost.find? (·.writer = w) = some l →
      (s.time < since + 4000 → x.run s = .error .wait s) ∧
      (since + 4000 ≤ s.time → x.run s = .error (.trap { cause := 7, addr := some l.va })
        { s with lost := s.lost.filter fun l => l.writer ≠ w })) ∧
  (∀ (r : Registration) s, (r.counter = 0 → (addToCounter r).run s = .ok () s) ∧
    ∀ ps v, r.counter ≠ 0 → (enginePlace (s.collAccess r) true (BitVec.ofNat 64 r.counter) 8).run s = .ok ps v →
      (∀ c keys, placedAt ps c keys → v.poison = [] → v.memOk →
        ∃ t, (addToCounter r).run s = .ok () t ∧ tookBytes v t c keys (toBytes 8 ((numberAt v c keys + 1) % 2 ^ 64))) ∧
      (ps.any isRemote = true → (v.linksUp = false ∨ (r.writer, BitVec.ofNat 64 r.counter) ∈ v.doomed) →
        (v.time < r.since + 4000 → (addToCounter r).run s = .error .wait v) ∧
        (r.since + 4000 ≤ v.time → ∃ t, trapsWith (addToCounter r) s t {} (BitVec.ofNat 64 r.counter) 7 0 ∧ t.mem = v.mem))) ∧
  (∀ (r : Registration) num status s, ∃ t : State, endRegistration r num status s = t.forget (· = r.writer) ∧
    t = { s with regs := s.regs.erase r, seqs := t.seqs, ordinal := t.ordinal, hart := t.hart, others := t.others } ∧
    (∀ id, t.hartOf id = { s.hartOf id with cancel := (s.hartOf id).cancel.map fun c =>
      if c.reg = r.id then { c with left := some (r.answersAt status) } else c }) ∧
    (∀ k, k ∈ (t.seqAt r.seq).endedNums ↔ k = num ∨ k ∈ (s.seqAt r.seq).endedNums ∧
      ((k + 2 ^ 32 - num % 2 ^ 32) % 2 ^ 32 < 2 ^ 30 ∨ (num + 2 ^ 32 - k % 2 ^ 32) % 2 ^ 32 < 2 ^ 30)) ∧
    (r.seq ≠ 0 → t.ordinal = s.ordinal) ∧
    (∀ e, r.seq = 0 → s.ordinal.byNum num = some e → t.ordinal.byNum num = some { e with passed := true }) ∧
    ((s.seqAt r.seq).running = some num → (t.seqAt r.seq).running = none)) ∧
  (∀ (r : Registration) status, (r.told ≠ none → r.answersAt status = r.answers) ∧ (r.told = none → r.answersAt status =
    if status = 2 then [0, 2] else if status = 3 ∨ status = 4 then [1] else if status = 6 then [1, 2] else r.answers)) ∧
  (∀ reg (s : State) l, s.regs.find? (·.id = reg) = none → (∃ h ∈ s.harts, ∃ c, h.cancel = some c ∧ c.reg = reg) →
    (∀ h ∈ s.harts, ∀ c, h.cancel = some c → c.reg = reg → c.left = some l) → s.answersLeft reg = l)

/-- What a collective computes (Table 16-3, R115, R269, R275). Sums and extrema run over ranks in the tree of R125; INT32 wraps, a
floating-point sum rounds to nearest even; gathers, broadcasts and exchanges move blocks; poison follows. Compression works in blocks of
128, its residual goes to RESID. -/
def Sys2Proof.Claims.CollectivesCompute : Prop :=
  (∀ (d : CollDesc) n r ps, (d.op = 0 ∨ d.op = 1) → d.cmp = false → dstElems d n r ps = (List.range d.count).map fun i =>
    let v := reduceAt d n ps (if d.op = 0 then i else r * d.count + i)
    { idx := i, bits := v.1, poisoned := v.2 }) ∧
  (∀ (d : CollDesc) n r ps, (d.op = 2 ∨ d.op = 4) → ∀ x, x ∈ dstElems d n r ps ↔ ∃ p ∈ ps, ∃ i l q, i < d.count ∧
    p.elems[if d.op = 2 then i else r * d.count + i]? = some (l, q) ∧
    x = { idx := p.rank * d.count + i, bits := l.bits, poisoned := q }) ∧
  (∀ (d : CollDesc) n r ps, d.op = 3 → ∀ x, x ∈ dstElems d n r ps ↔ ∃ p, ps.find? (·.rank = d.root) = some p ∧ ∃ i l q, i < d.count ∧
    p.elems[i]? = some (l, q) ∧ x = { idx := i, bits := l.bits, poisoned := q }) ∧
  (∀ (d : CollDesc) n ps i k, n ≤ 2 ^ k → k ≤ 11 →
    let leaf (r : Nat) : Option (Leaf × Bool) := if r < n then (ps.find? (·.rank = r)).bind (·.elems[i]?) else none
    (reduceAt d n ps i).1 = ((overRanks (combineLeaf d.type d.red) k fun r => (leaf r).map (·.1)).map (·.bits)).getD 0 ∧
    ((reduceAt d n ps i).2 = true ↔ ∃ r l, leaf r = some (l, true))) ∧
  (∀ a b, (combineLeaf 2 0 a b).bits = (a.bits + b.bits) % 2 ^ 32 ∧
    (combineLeaf 2 1 a b).bits = (if toSigned 32 a.bits < toSigned 32 b.bits then b.bits else a.bits) ∧
    (combineLeaf 2 2 a b).bits = (if toSigned 32 a.bits < toSigned 32 b.bits then a.bits else b.bits)) ∧
  (∀ t a b, t ≠ 2 → (combineLeaf t 0 a b).fx = decodeF (fmtOf t) (roundFx (fmtOf t) .rne (addFx .rne a.fx b.fx).1).1 ∧
    (combineLeaf t 1 a b).bits = (minMaxF (fmtOf t) true a.bits b.bits).1 ∧
    (combineLeaf t 2 a b).bits = (minMaxF (fmtOf t) false a.bits b.bits).1) ∧
  (∀ (d : CollDesc) own, (d.res = false → residElems d own = []) ∧
    (d.res = true → (residElems d own).length = own.length ∧ ∀ j v q, own[j]? = some (v, q) →
      let b := (own.drop (128 * (j / 128))).take 128
      let f := throughFp8 (blockScale (b.map fun e => decodeF Fmt.f32 e.1)) v
      (residElems d own)[j]? = some { idx := j, bits := residual v f, poisoned := b.any (·.2) })) ∧
  (blockScale (List.replicate 128 (.fin false 0 0)) = 0x3F800000 ∧ ∀ l x, x ∈ l → (match x with | Fx.fin _ _ _ => False | _ => True) →
    blockScale l = 0x7FC00000)

/-- Faults of a collective's engine (R272, R277). A fault is one that an access of the collective meets, in its data, its record or its
counter, or a release that meets a write undelivered. It ends the collective here with FAULT, its cause and its address: nothing is written
before acceptance, a fault of the end finds the result written whole, one of the data any part of it (DESIGN CHOICE log 49). At the Ordinal a
strict collective ends with ABORTED, a loose one goes on without that member. -/
def Sys2Proof.Claims.CollectiveFaultsEnd : Prop :=
  (∀ num seq cause (pt : FaultPoint) s r m data last rel u z, s.regOf num seq = some r → s.comm? r.comm = some m →
    (faultsWith r (s.collAccess r) cause pt.addr (dataNow r m)).run s = .ok data s →
    (faultsWith r (s.collAccess r) cause pt.addr (s.endNow r m)).run s = .ok last s → (releaseFails r m pt.addr).run s = .ok rel s →
    (data = true ∨ last = true ∨ cause = 7 ∧ rel = true) → (faultResult r m num pt.peers (!data)).run s = .ok () u →
    (endColl r num 5 cause pt.addr []).run u = .ok () z → exec (.collectiveEngineFault num seq cause pt) s =
      .next (match z.entryHere num r.seq with
        | some e => memberFault e num m.ownRank z
        | none => z)) ∧
  (∀ r m num peers (atEnd : Bool) s, let x := faultResult r m num peers atEnd
    let whole := atEnd = true ∧ r.verdict = none ∧ (s.mayFinish r m num peers = true ∨ s.numbersHere r.comm = true)
    (r.accepted = false → x.run s = .ok () s) ∧
    (r.accepted = true → ¬ whole → x.run s = (writePart r m num peers).run s) ∧
    (r.accepted = true → whole → s.mayFinish r m num peers = true → x.run s = (writeResult r m peers).run s) ∧
    (r.accepted = true → whole → s.mayFinish r m num peers = false → x.run s = .error .wait s)) ∧
  (∀ w a base es k l s, (writeSome w a base es k l []).run s = .ok () s ∧ ∀ v vs,
    let mine := l.filter fun e => (base + BitVec.ofNat 64 (es * e.1.idx)).toNat / 8 = v
    let x := (writeSome w a base es k l (v :: vs)).run s
    ((Config.freeChoice k v % 2 = 0 ∨ ∃ e ∈ mine, e.2 = false) → x = (writeSome w a base es k l vs).run s) ∧
    (Config.freeChoice k v % 2 = 1 → (∀ e ∈ mine, e.2 = true) →
      (∀ f u, (placeElems a base es (mine.map (·.1))).run s = .error (.trap f) u → x = (writeSome w a base es k l vs).run u) ∧
      ∀ p u z, (placeElems a base es (mine.map (·.1))).run s = .ok p u → (writeElems w base es p (mine.map (·.1))).run u = .ok () z →
        x = (writeSome w a base es k l vs).run z)) ∧
  (∀ r a cause addr s, (faultsWith r a cause addr []).run s = .ok false s ∧ ∀ x xs,
    (∀ u, (accessTrap r a x).run s = .ok none u → (faultsWith r a cause addr (x :: xs)).run s = (faultsWith r a cause addr xs).run s) ∧
    (∀ f u, ((accessTrap r a x).run s = .ok (some f) u ∨ (accessTrap r a x).run s = .error (.trap f) u) →
      (faultsWith r a cause addr (x :: xs)).run s =
        if f.cause = cause ∧ (f.addr.map (·.toNat)) = some addr then .ok true s else (faultsWith r a cause addr xs).run s)) ∧
  (∀ (r : Registration) a va n bs p u v s, (engineRead a r.since va n).run s = .ok bs u → (placeOne {} a .load false false va va).run u = .ok p v →
    isRemote p = true → (accessTrap r a (.read va n)).run s =
      .ok (if r.since + 4000 ≤ v.time then some { cause := 5, addr := some va } else none) v) ∧
  (∀ (s : State) (r : Registration) (m : Comm) x, let d := collDesc r.desc
    let es := ebOf d.type
    let n := m.members.length
    let at' (base : Word) (w i : Nat) : Word := base + BitVec.ofNat 64 (w * i)
    (x ∈ dataNow r m ↔ r.isStarted = true ∧ r.verdict = none ∧ ((∃ i, i < srcCount d n m.ownRank ∧ x = .read (at' d.src es i) es) ∨
        (r.accepted = true ∧ ∃ i, i < dstCount d n ∧ x = .write (at' d.dst es i) es) ∨
        (r.accepted = true ∧ d.res = true ∧ ∃ i, i < srcCount d n m.ownRank ∧ x = .write (at' d.resid 4 i) 4))) ∧
    (x ∈ s.endNow r m ↔ s.mayBeEnding r = true ∧ ((d.crec ≠ 0 ∧ x = .write d.crec (16 + 8 * ((n + 63) / 64))) ∨
        (r.counter ≠ 0 ∧ x = .amo (BitVec.ofNat 64 r.counter))))) ∧
  (∀ num seq cause (pt : FaultPoint) s e z, (s.regOf num seq = none ∨ ∃ r m, s.regOf num seq = some r ∧ s.comm? r.comm = some m ∧
      (faultsWith r (s.collAccess r) cause pt.addr (dataNow r m)).run s = .ok false s ∧
      (faultsWith r (s.collAccess r) cause pt.addr (s.endNow r m)).run s = .ok false s ∧ (releaseFails r m pt.addr).run s = .ok false s) →
    s.entryHere num seq = some e → e.rank0 = some z →
    (z.strict = true → ∃ t, exec (.collectiveEngineFault num seq cause pt) s = .next t ∧ t.mem = s.mem ∧
      ∃ d ∈ t.ordinal.entries, d.num = some num ∧ d.outcome = some 6 ∧ d.ended = true) ∧
    (z.strict = false → e.contributors = none → ∃ t, exec (.collectiveEngineFault num seq cause pt) s = .next t ∧ t.mem = s.mem ∧
      ∃ k, ∃ d ∈ t.ordinal.entries, d.num = some num ∧ d.gone = k :: e.gone ∧ d.starts = e.starts ∧ d.ended = false))

/-- The collective engine. -/
def Obligations.CollectiveEngineCompletes : Prop := CollectivesBegin ∧ CollectivesEnd ∧ CollectivesCompute ∧ CollectiveFaultsEnd

/-! ## The fabric (R151, R276 to R278) -/

/-- Remote accesses (R151, R277, R278). At their home, a remote read is answered with memory's bytes under the access's key, a write made,
an atomic, a vector's among them, performed whole and its old value answered; one that fails its check gets no answer. At their issuer, a
read, or an atomic's, that no answer comes to keeps its instruction waiting, and 4,000 ticks after it was made raises the access
fault of its kind at its element and address. A write that the fabric does not deliver changes nothing at its home and is remembered; the
writer's next release at .dom or .sys that covers it waits for its 4,000 ticks and faults at its address; where the writer ends before one
meets it, it is counted once those have passed. Which accesses go unanswered is foretold before they are made (DESIGN CHOICE log 13). -/
def Sys2Proof.Claims.RemoteAccessesFollow : Prop :=
  (∀ pa key n s, s.homeOk pa n key = true →
    exec (.remoteAccessAtHome (.read n) pa key) s = .next { s with homeData := readUnder (s.cryptKey s.domainId key) s.mem pa n }) ∧
  (∀ pa key bs s, s.homeOk pa bs.length key = true → s.memOk →
    ∃ t, exec (.remoteAccessAtHome (.write bs) pa key) s = .next t ∧ wroteAt s t (s.cryptKey s.domainId key) pa bs) ∧
  (∀ pa key op dbl v s, let n := if dbl = true then 8 else 4
    let c := s.cryptKey s.domainId key
    s.homeOk pa n key = true → pa % n = 0 → s.memOk →
    ∃ t, exec (.remoteAccessAtHome (.amo op dbl v) pa key) s = .next t ∧ t.homeData = readUnder c s.mem pa n ∧
      wroteAt s t c pa (toBytes n (amoValue op (8 * n) (ofBytes (readUnder c s.mem pa n)) v.toNat))) ∧
  (∀ pa key op ty v s, let n := ebOf (EType.code ty)
    let c := s.cryptKey s.domainId key
    s.homeOk pa n key = true → pa % n = 0 → s.memOk →
    ∃ t, exec (.remoteAccessAtHome (.vamo op ty v) pa key) s = .next t ∧ t.homeData = readUnder c s.mem pa n ∧
      wroteAt s t c pa (toBytes n (vamoOp op (EType.code ty) (ofBytes (readUnder c s.mem pa n)) (v.toNat % 2 ^ (8 * n))))) ∧
  (∀ pa key (s : State), (∀ n, s.homeOk pa n key = false → exec (.remoteAccessAtHome (.read n) pa key) s = .next s) ∧
    (∀ bs, s.homeOk pa bs.length key = false → exec (.remoteAccessAtHome (.write bs) pa key) s = .next s) ∧
    ∀ n, s.homeOk pa n key = true ↔ s.linksUp = true ∧ pa + n ≤ s.physLimit ∧ (s.keys.get? key).isSome = true) ∧
  (∀ op pa key s, (s.linksUp = false ∨ s.keys.get? key = none) → exec (.remoteAccessAtHome op pa key) s = .next s) ∧
  (∀ id kind elem va s, (s.hartOf id).status = .running → exec (.remoteReadTimeout id kind elem va) s =
    .next (s.setHart { s.hartOf id with remoteFault := some { kind := kind, elem := elem, va := va, since := none } })) ∧
  (∀ (x : Op Unit) s r u, x.run s = .error (.hold r) u → finish x s = .next (match r with
    | some (kind, elem, va) => { s with hart := { s.hart with
        remoteFault := some { kind := kind, elem := elem, va := va, since := some s.time } } }
    | none => s)) ∧
  (∀ w a (kind : AKind) pol va n s ps u, s.parts a kind false va n = [n] →
    (placeBytes w a kind false false va va n).run s = .ok ps u → ps.any isRemote = true →
    let cause := match kind with
      | .fetch => 1
      | .load => 5
      | .store => 7
    let fault := { cause := cause, elem := w.elem, addr := some va, unit := w.unit, lane := w.lane, cu := w.cu, mtvalAddr := w.mtvalAddr }
    let x := (readBytes w a kind pol va n).run s
    let waits := x = .error (.hold (some (kind.remote, w.elem, va))) u
    let mine (since : Option Nat) := u.hart.remoteFault = some { kind := kind.remote, elem := w.elem, va := va, since := since }
    ((∀ f, u.hart.remoteFault = some f → f.kind = kind.remote → f.elem = w.elem → f.va ≠ va) → u.linksUp = false → waits) ∧
    (mine none → waits) ∧
    ∀ t, mine (some t) → (u.time < t + 4000 → x = .error (.hold none) u) ∧
      (t + 4000 ≤ u.time → x = .error (.trap fault) { u with hart := { u.hart with remoteFault := none } })) ∧
  (∀ w va n f s ps u, va.toNat % n = 0 → s.parts (s.access s.hart) .store true va n = [n] →
    (placeBytes w (s.access s.hart) .store true true va va n).run s = .ok ps u → ps.any isRemote = true →
    let mine (since : Option Nat) := u.hart.remoteFault = some { kind := .store, elem := w.elem, va := va, since := since }
    (mine none → (memAmo w va n f).run s = .error (.hold (some (.store, w.elem, va))) u) ∧
    (u.linksUp = false → u.hart.remoteFault = none → (memAmo w va n f).run s = .error (.hold (some (.store, w.elem, va))) u) ∧
    ∀ t, mine (some t) → (u.time < t + 4000 → (memAmo w va n f).run s = .error (.hold none) u) ∧
      (t + 4000 ≤ u.time → ∃ v, trapsWith (memAmo w va n f) s v w va 7 0 ∧ v.mem = u.mem)) ∧
  (∀ w va s, exec (.remoteWriteUndeliverable w va) s = .next (if s.mayWrite w then { s with doomed := s.doomed ++ [(w, va)] } else s)) ∧
  (∀ wr views va ps bs s, s.memOk → ps.any isRemote = true →
    (s.linksUp = false ∨ (wr, va) ∈ s.doomed → ∃ t, (writeAs wr views va ps bs).run s = .ok () t ∧
      t.lost = s.lost ++ [LostWrite.mk wr views va s.time] ∧ t.doomed = s.doomed.erase (wr, va) ∧
      ∀ k, (∀ q ∈ ps, isRemote q = false → (∀ a, q.1 = .mem a → sectorOf a ≠ sectorOf k) ∧ ∀ p, q.2 = some p →
        sectorOf p.key ≠ sectorOf k) → Memory.get t.mem k = Memory.get s.mem k) ∧
    (s.linksUp = true → (wr, va) ∉ s.doomed → ∀ t, (writeAs wr views va ps bs).run s = .ok () t → t.lost = s.lost)) ∧
  (∀ ag sc s, let mine (l : LostWrite) : Bool := l.writer = .hart s.hart.id && l.views.contains ag
    (sc ≠ .dom → sc ≠ .sys → (release ag sc).run s = .ok () s) ∧
    (s.lost.find? mine = none → (release ag sc).run s = .ok () s) ∧
    (∀ l, (sc = .dom ∨ sc = .sys) → s.lost.find? mine = some l →
      (s.time < l.since + 4000 → (release ag sc).run s = .error (.hold none) s) ∧
      (l.since + 4000 ≤ s.time →
        (release ag sc).run s = .error (.trap { cause := 7, addr := some l.va }) { s with lost := s.lost.erase l }))) ∧
  (∀ (p : Writer → Bool) (s : State), let t := s.forget p
    let late (l : LostWrite) : Bool := (p l.writer || l.writer = .gone) && l.since + 4000 ≤ s.time
    t.status = { s.status with rlost := s.status.rlost + BitVec.ofNat 64 (s.lost.filter late).length } ∧
    t.lost = (s.lost.filter fun l => !late l).map (fun l => if p l.writer then { l with writer := .gone } else l) ∧
    t.doomed = s.doomed.filter (fun d => !p d.1) ∧ t = { s with status := t.status, lost := t.lost, doomed := t.doomed }) ∧
  (∀ ticks cycles (s : State), let t := s.elapse ticks cycles
    let late (l : LostWrite) : Bool := l.writer = .gone && l.since + 4000 ≤ s.time + ticks
    t.time = s.time + ticks ∧ t.status = { s.status with rlost := s.status.rlost + BitVec.ofNat 64 (s.lost.filter late).length } ∧
    t.lost = s.lost.filter (fun l => !late l) ∧ t.mem = s.mem)

/-- The Ethernet sessions (R276). They are keyed and rekeyed from zero; a record that authenticates in sequence is delivered, any other
counted in SESSBAD; what is not acknowledged stays so over a rekeying, and a retransmission changes nothing. -/
def Sys2Proof.Claims.SessionsFollow : Prop :=
  (∀ peer share s, s.linksUp = true → ∃ (t : State) (v : Session), exec (.sessionKeyExchange peer share) s = .next t ∧
    t = { s with sessions := t.sessions, freeCtr := t.freeCtr } ∧ t.session? peer = some v ∧ v.key = Config.ecdhe s.freeCtr share ∧
    v.nextRecv = 0 ∧ v.sealed = 0 ∧ v.sealedBytes = 0 ∧ v.unacked = [] ∧ v.delivered = [] ∧
    ∀ q, q ≠ peer → t.session? q = s.session? q) ∧
  (∀ peer s u, s.session? peer = some u → ∃ (t : State) (v : Session), exec (.sessionRekey peer) s = .next t ∧
    t = { s with sessions := t.sessions, freeCtr := t.freeCtr } ∧ t.session? peer = some v ∧ v.nextRecv = 0 ∧ v.sealed = 0 ∧
    v.sealedBytes = 0 ∧ v.delivered = u.delivered ∧ v.unacked = u.unacked ∧ ∀ q, q ≠ peer → t.session? q = s.session? q) ∧
  (∀ peer n bytes s, s.linksUp = true →
    let bad : State := { s with status := { s.status with sessbad := s.status.sessbad + 1 } }
    (s.session? peer = none → exec (.ethernetRecordReceive peer n bytes) s = .next bad) ∧
    (∀ v, s.session? peer = some v →
      (n = v.nextRecv → Config.gcmValid v.key (nonceOf v n) bytes = true → ∃ t : State,
        exec (.ethernetRecordReceive peer n bytes) s = .next t ∧ t = { s with sessions := t.sessions } ∧
        t.session? peer = some { v with nextRecv := n + 1, delivered := v.delivered ++ [Config.gcmOpen v.key (nonceOf v n) bytes] } ∧
        ∀ q, q ≠ peer → t.session? q = s.session? q) ∧
      (¬ (n = v.nextRecv ∧ Config.gcmValid v.key (nonceOf v n) bytes = true) →
        exec (.ethernetRecordReceive peer n bytes) s = .next bad))) ∧
  (∀ peer n s, exec (.ethernetRetransmission peer n) s = .next s)

/-- The fabric: remote accesses and Ethernet sessions. -/
def Obligations.FabricEventsComplete : Prop := RemoteAccessesFollow ∧ SessionsFollow
end

