-- ==== Sys2Proof/Laws/Op.lean ====
section
/-!
SUPPORT. What the primitive operations of the step monad answer, one lemma each: later proofs rewrite with these and do not
unfold the monad.
-/

namespace Sys2Proof.Machine

@[simp] theorem toBytes_length : ∀ n v, (toBytes n v).length = n
  | 0, _ => rfl
  | n + 1, v => congrArg (· + 1) (toBytes_length n (v / 256))

variable {α β : Type}

@[simp] theorem Op.run_bind (x : Op α) (f : α → Op β) (s : State) :
    (x >>= f).run s = match x.run s with
      | .ok a t => (f a).run t
      | .error e t => .error e t := by
  simp only [bind, EStateM.bind, EStateM.run]
  cases x s <;> rfl

@[simp] theorem Op.run_map (f : α → β) (x : Op α) (s : State) :
    (f <$> x).run s = match x.run s with
      | .ok a t => .ok (f a) t
      | .error e t => .error e t := by
  simp only [Functor.map, EStateM.map, EStateM.run]
  cases x s <;> rfl

@[simp] theorem Op.run_pure (a : α) (s : State) : (pure a : Op α).run s = .ok a s := rfl
@[simp] theorem Op.run_get (s : State) : (get : Op State).run s = .ok s s := rfl
@[simp] theorem Op.run_set (t s : State) : (set t : Op PUnit).run s = .ok ⟨⟩ t := rfl
@[simp] theorem Op.run_modify (f : State → State) (s : State) : (modify f : Op PUnit).run s = .ok ⟨⟩ (f s) := rfl
@[simp] theorem Op.run_throw (e : Stop) (s : State) : (throw e : Op α).run s = .error e s := rfl
@[simp] theorem Op.run_raise (t : Trap) (s : State) : (raise t : Op α).run s = .error (.trap t) s := rfl
@[simp] theorem Op.run_illegal (s : State) : (illegal : Op α).run s = .error (.trap { cause := 2 }) s := rfl
@[simp] theorem Op.run_getH (s : State) : getH.run s = .ok s.hart s := rfl
@[simp] theorem Op.run_modH (f : Hart → Hart) (s : State) : (modH f).run s = .ok ⟨⟩ { s with hart := f s.hart } := rfl
@[simp] theorem Op.run_readX (r : BitVec 5) (s : State) : (readX r).run s = .ok (s.hart.xr r) s := rfl
@[simp] theorem Op.run_writeX (r : BitVec 5) (v : Word) (s : State) :
    (writeX r v).run s = .ok ⟨⟩ { s with hart := s.hart.setX r v } := rfl
@[simp] theorem Op.run_advance (n : Nat) (s : State) :
    (advance n).run s = .ok ⟨⟩ { s with hart := { s.hart with pc := s.hart.pc + BitVec.ofNat 64 n } } := rfl
@[simp] theorem Op.run_setPc (v : Word) (s : State) : (setPc v).run s = .ok ⟨⟩ { s with hart := { s.hart with pc := v } } := rfl
@[simp] theorem Op.run_draw (s : State) : draw.run s = .ok s.freeCtr { s with freeCtr := s.freeCtr + 1 } := rfl

/-- A handler sees the state at the stop: nothing is undone. -/
@[simp] theorem Op.run_tryCatch (x : Op α) (f : Stop → Op α) (s : State) :
    (tryCatch x f).run s = match x.run s with
      | .ok a t => .ok a t
      | .error e t => (f e).run t := by
  simp only [tryCatch, tryCatchThe, MonadExceptOf.tryCatch, EStateM.tryCatch, EStateM.run]
  cases x s <;> rfl

theorem Op.run_illegalUnless (b : Bool) (s : State) :
    (illegalUnless b).run s = if b then .ok ⟨⟩ s else .error (.trap { cause := 2 }) s := by cases b <;> rfl
@[simp] theorem Op.run_illegalUnless_true (s : State) : (illegalUnless true).run s = .ok ⟨⟩ s := rfl
@[simp] theorem Op.run_illegalUnless_false (s : State) : (illegalUnless false).run s = .error (.trap { cause := 2 }) s := rfl
theorem Op.run_waitFor (b : Bool) (s : State) :
    (waitFor b).run s = if b then .ok ⟨⟩ s else .error .wait s := by cases b <;> rfl
@[simp] theorem Op.run_waitFor_true (s : State) : (waitFor true).run s = .ok ⟨⟩ s := rfl
@[simp] theorem Op.run_waitFor_false (s : State) : (waitFor false).run s = .error .wait s := rfl
theorem Op.run_onlyIf (b : Bool) (s : State) :
    (onlyIf b).run s = if b then .ok ⟨⟩ s else .error .wait s := by cases b <;> rfl
@[simp] theorem Op.run_onlyIf_true (s : State) : (onlyIf true).run s = .ok ⟨⟩ s := rfl
@[simp] theorem Op.run_onlyIf_false (s : State) : (onlyIf false).run s = .error .wait s := rfl

@[simp] theorem Op.run_ite (c : Prop) [Decidable c] (x y : Op α) (s : State) :
    (if c then x else y).run s = if c then x.run s else y.run s := by split <;> rfl

/-! ## Outcomes -/

theorem finish_ok {x : Op Unit} {s t : State} (h : x.run s = .ok () t) : finish x s = .next t.retire := by
  simp [finish, h]
theorem finish_trap {x : Op Unit} {s t : State} {e : Trap} (h : x.run s = .error (.trap e) t) :
    finish x s = .next (deliver e t) := by simp [finish, h]
theorem finishWaiting_ok {x : Op Unit} {s t : State} (h : x.run s = .ok () t) : finishWaiting x s = .next t.retire := by
  simp [finishWaiting, h]
theorem finishWaiting_trap {x : Op Unit} {s t : State} {e : Trap} (h : x.run s = .error (.trap e) t) :
    finishWaiting x s = .next (deliver e t) := by simp [finishWaiting, h]
theorem event_ok {x : Op Unit} {s t : State} (h : x.run s = .ok () t) : event x s = .next t := by simp [event, h]
theorem event_error {x : Op Unit} {s t : State} {e : Stop} (h : x.run s = .error e t) : event x s = .next s := by
  simp [event, h]

/-- An instruction always goes on: no fault and no refusal leaves these wrappers. -/
theorem finish_next (x : Op Unit) (s : State) : ∃ t, finish x s = .next t := by
  unfold finish; split <;> exact ⟨_, rfl⟩
theorem finishWaiting_next (x : Op Unit) (s : State) : ∃ t, finishWaiting x s = .next t := by
  unfold finishWaiting; split <;> exact ⟨_, rfl⟩
theorem event_next (x : Op Unit) (s : State) : ∃ t, event x s = .next t := by
  unfold event; split <;> exact ⟨_, rfl⟩

end Sys2Proof.Machine
end

