-- ==== Sys2Proof/Laws/Access.lean ====
section
/-!
SUPPORT. What the parts of an access do: where the bytes of a physical access lie, that placing them changes nothing, that clean
bytes pass the checks of a read, what a store and an atomic update leave, and where a translation puts a byte.
-/

namespace Sys2Proof.Machine

/-- The bytes of a physical access, in ascending address. -/
def physBytes (a n : Nat) : List (Loc × Option Phys) := (List.range' a n).map fun x => (Loc.mem x, none)

theorem placeOne_phys {w : Who} {kind : AKind} {write amo : Bool} {fa va : Word} {s : State} (h : va.toNat < s.physLimit) :
    (placeOne w .phys kind write amo fa va).run s = .ok (.mem va.toNat, none) s := by
  simp [placeOne, Nat.not_le.mpr h]

theorem physLimit_le (s : State) : s.physLimit ≤ 2 ^ 40 := by
  unfold State.physLimit
  split <;> decide

/-- Every byte of a physical access within memory is placed at its own address; nothing changes. -/
theorem placeBytes_phys (w : Who) (kind : AKind) (write amo : Bool) (fa : Word) (s : State) :
    ∀ (n : Nat) (va : Word), va.toNat + n ≤ s.physLimit →
      (placeBytes w .phys kind write amo fa va n).run s = .ok (physBytes va.toNat n) s
  | 0, _, _ => rfl
  | n + 1, va, h => by
    have hl := physLimit_le s
    have h1 : (va + 1).toNat = va.toNat + 1 := by
      rw [BitVec.toNat_add]
      have : (1 : Word).toNat = 1 := rfl
      rw [this]
      omega
    have ih := placeBytes_phys w kind write amo fa s n (va + 1) (by omega)
    rw [h1] at ih
    rw [placeBytes, Op.run_bind, placeOne_phys (by omega)]
    simp only [Op.run_bind, ih, Op.run_pure]
    rfl

/-- A physical access that begins past the end of memory fails with its access fault and changes nothing. -/
theorem placeBytes_phys_fault {w : Who} {kind : AKind} {write amo : Bool} {fa va : Word} {s : State} {n : Nat}
    (h : s.physLimit ≤ va.toNat) :
    (placeBytes w .phys kind write amo fa va (n + 1)).run s = (fail w kind.accessFault fa : Op (List (Loc × Option Phys))).run s := by
  simp only [placeBytes, Op.run_bind]
  simp [placeOne, h, fail]

/-- Bytes of which none lies in another package pass the check for an unanswered read. -/
theorem checkRemote_local {w : Who} {kind : AKind} {fa : Word} {ps : List (Loc × Option Phys)} {s : State}
    (h : ps.any isRemote = false) : (checkRemote w kind fa ps).run s = .ok () s := by
  simp [checkRemote, h]

theorem physBytes_local (a n : Nat) : (physBytes a n).any isRemote = false := by
  simp [physBytes, isRemote]

theorem findSome_physBytes {α : Type} (f : Loc → Option α) (a n : Nat) (h : ∀ i, i < n → f (.mem (a + i)) = none) :
    (physBytes a n).findSome? (fun p => f p.1) = none := by
  rw [List.findSome?_eq_none_iff]
  intro p hp
  obtain ⟨x, hx, rfl⟩ := List.mem_map.mp hp
  obtain ⟨i, hi, rfl⟩ := List.mem_range'.mp hx
  simpa using h i hi

/-- Clean bytes of memory pass the checks of a read under every policy (R137, R196). -/
theorem readChecks_phys {w : Who} {pol : PoisonPolicy} {fa : Word} {s : State} {a n : Nat}
    (h : ∀ i, i < n → s.poisonOf (a + i) = none) : (readChecks w pol fa (physBytes a n)).run s = .ok false s := by
  have hp : (physBytes a n).findSome? (fun p => s.poisonSub p.1) = none :=
    findSome_physBytes s.poisonSub a n fun i hi => by simp [State.poisonSub, h i hi]
  have hs : (physBytes a n).findSome? (fun p => s.staleSub p.1) = none :=
    findSome_physBytes s.staleSub a n fun i _ => rfl
  unfold readChecks
  simp [hp, hs]

theorem byteAt_physBytes (s : State) : ∀ a n, (physBytes a n).map s.byteAt = Memory.read s.mem a n
  | _, 0 => rfl
  | a, n + 1 => congrArg (Memory.get s.mem a :: ·) (byteAt_physBytes s (a + 1) n)

/-- The parts of a physical read of clean bytes: one, that nothing stops. -/
theorem placeParts_phys {w : Who} {kind : AKind} {write amo : Bool} {pol : PoisonPolicy} {fa va : Word} {n : Nat} {s : State}
    (hl : va.toNat + n ≤ s.physLimit) (hc : ∀ i, i < n → s.poisonOf (va.toNat + i) = none) :
    (placeParts w .phys kind write amo pol fa va [n]).run s = .ok (physBytes va.toNat n, false) s := by
  simp only [placeParts, Op.run_bind, Op.run_get, placeBytes_phys w kind write amo fa s n va hl,
    checkRemote_local (physBytes_local _ _), readChecks_phys hc, Op.run_pure]
  simp

/-- A read of clean physical bytes answers them, uncounted, and changes nothing. -/
theorem readUncounted_phys {w : Who} {kind : AKind} {pol : PoisonPolicy} {va : Word} {n : Nat} {s : State}
    (hl : va.toNat + n ≤ s.physLimit) (hc : ∀ i, i < n → s.poisonOf (va.toNat + i) = none) :
    (readUncounted w .phys kind pol va n).run s = .ok (Memory.read s.mem va.toNat n, false) s := by
  unfold readUncounted
  simp only [Op.run_bind, Op.run_get, State.parts, placeParts_phys hl hc, Op.run_pure]
  simp [byteAt_physBytes]

theorem readBytes_phys {w : Who} {kind : AKind} {pol : PoisonPolicy} {va : Word} {n : Nat} {s : State}
    (hl : va.toNat + n ≤ s.physLimit) (hc : ∀ i, i < n → s.poisonOf (va.toNat + i) = none) :
    (readBytes w .phys kind pol va n).run s = .ok (Memory.read s.mem va.toNat n) s := by
  unfold readBytes
  simp only [Op.run_bind, readUncounted_phys hl hc]
  simp

/-- A physical read that begins past the end of memory fails with its access fault and changes nothing. -/
theorem readBytes_phys_fault {w : Who} {kind : AKind} {pol : PoisonPolicy} {va : Word} {n : Nat} {s : State}
    (h : s.physLimit ≤ va.toNat) :
    (readBytes w .phys kind pol va (n + 1)).run s = (fail w kind.accessFault va : Op (List Byte)).run s := by
  unfold readBytes readUncounted
  simp only [Op.run_bind, Op.run_get, State.parts, placeParts, placeBytes_phys_fault h]
  rfl

/-! ## The accesses of the present hart at a physical address -/

theorem memWrite_phys {w : Who} {va : Word} {n v : Nat} {s : State} (hs : s.access s.hart = .phys) (ha : va.toNat % n = 0)
    (hl : va.toNat + n ≤ s.physLimit) :
    (memWrite w va n v).run s = (writePlaced w va (physBytes va.toNat n) (toBytes n v)).run s := by
  unfold memWrite writeBytes
  simp only [ha, ne_eq, not_true_eq_false, if_false, Op.run_bind, Op.run_pure, Op.run_get, hs, toBytes_length, placeBytes_phys _ _ _ _ _ _ _ _ hl]

/-- A store past the end of memory traps with access fault 7 and changes nothing. -/
theorem memWrite_phys_fault {w : Who} {va : Word} {n v : Nat} {s : State} (hs : s.access s.hart = .phys) (ha : va.toNat % (n + 1) = 0)
    (hl : s.physLimit ≤ va.toNat) : (memWrite w va (n + 1) v).run s = (fail w 7 va : Op Unit).run s := by
  unfold memWrite writeBytes
  simp only [ha, ne_eq, not_true_eq_false, if_false, Op.run_bind, Op.run_pure, Op.run_get, hs, toBytes_length, placeBytes_phys_fault hl]
  rfl

/-- An atomic on clean memory stores what its function makes of the old value, and answers that. -/
theorem memAmo_phys {w : Who} {va : Word} {n : Nat} {f : Nat → Nat} {s : State} (hs : s.access s.hart = .phys) (ha : va.toNat % n = 0)
    (hl : va.toNat + n ≤ s.physLimit) (hc : ∀ i, i < n → s.poisonOf (va.toNat + i) = none) :
    let old := ofBytes (Memory.read s.mem va.toNat n)
    (memAmo w va n f).run s = match (storePlaced (physBytes va.toNat n) (toBytes n (f old))).run s with
      | .ok _ t => .ok old t
      | .error e t => .error e t := by
  unfold memAmo
  simp [ha, hs, State.parts, placeParts_phys hl hc, byteAt_physBytes]
  cases (storePlaced (physBytes va.toNat n) (toBytes n (f (ofBytes (Memory.read s.mem va.toNat n))))).run s <;> rfl

theorem memAmo_phys_fault {w : Who} {va : Word} {n : Nat} {f : Nat → Nat} {s : State} (hs : s.access s.hart = .phys)
    (ha : va.toNat % (n + 1) = 0) (hl : s.physLimit ≤ va.toNat) : (memAmo w va (n + 1) f).run s = (fail w 7 va : Op Nat).run s := by
  unfold memAmo
  simp only [ha, ne_eq, not_true_eq_false, if_false, Op.run_bind, Op.run_pure, Op.run_get, hs, State.parts, placeParts, placeBytes_phys_fault hl]
  rfl

/-! ## An access that is translated -/

theorem walk_congr {s t : State} (hm : t.mem = s.mem) (hp : t.physLimit = s.physLimit) (va : Nat) :
    ∀ fuel table level, walk t va fuel table level = walk s va fuel table level
  | 0, _, _ => rfl
  | fuel + 1, table, level => by
    have hr : ∀ a n, t.readPhys a n = s.readPhys a n := fun a n => by unfold State.readPhys; rw [hm]
    simp only [walk, hr, hp, walk_congr hm hp va fuel]

/-- An ordinary U-mode access of a launch that runs no spliced pair and meets no elided range, outside the windows, is translated. -/
theorem placeOne_page {w : Who} {v : Via} {l : Launch} {kind : AKind} {write amo : Bool} {fa va : Word} {s : State}
    (hl : s.launches.get? v.launch = some l) (hp : l.pair = none) (he : (s.queue l.queue).elisions = []) (hw : inWindow va.toNat = false) :
    (placeOne w (.virt (some v) true) kind write amo fa va).run s =
      match (translate w kind true write amo (s.rootOf l.queue) fa va).run s with
      | .ok p t => .ok (.mem p.key, some p) t
      | .error e t => .error e t := by
  have h1 : inCoreWindow va.toNat = false ∧ inClusterWindow va.toNat = false := by
    unfold inWindow at hw
    simpa using hw
  have ho : s.overlayAt (some v) kind amo va = .plain := by
    cases kind <;> simp [State.overlayAt, hl, hp]
  have hn : inElided (s.queue l.queue) va = false := by simp [inElided, he]
  unfold placeOne placeByte placePlain
  simp only [Op.run_bind, Op.run_get, ho]
  cases kind <;> simp [hl, hn, h1.1, h1.2, hp] <;> cases (translate w _ true write amo (s.rootOf l.queue) fa va).run s <;> rfl

/-! ## A write of placed bytes -/

@[simp] theorem clearPoison_run (ls : List Loc) (s : State) : ∃ t, (clearPoison ls).run s = .ok () t := ⟨_, rfl⟩
@[simp] theorem breakReservations_run (ks : List Nat) (s : State) : ∃ t, (breakReservations ks).run s = .ok () t := ⟨_, rfl⟩

/-- Placed bytes that nothing forbids are always written. -/
theorem storePlaced_ok (ps : List (Loc × Option Phys)) (bs : List Byte) (s : State) : ∃ t, (storePlaced ps bs).run s = .ok () t := by
  unfold storePlaced
  simp only [Op.run_bind, Op.run_draw]
  have loop : ∀ (l : List ((Loc × Option Phys) × Byte)) (k : Nat) (u : State), ∃ t,
      (forIn l PUnit.unit fun (x : (Loc × Option Phys) × Byte) (_ : PUnit) => (do
        writeLoc k (cryptOf x.1.2) x.1.1 x.2
        match x.1.1, x.1.2 with
        | .mem _, _ => do pure PUnit.unit; pure (ForInStep.yield PUnit.unit)
        | _, some p => do writeLoc k p.crypt (.mem p.key) x.2; pure (ForInStep.yield PUnit.unit)
        | _, none => do pure PUnit.unit; pure (ForInStep.yield PUnit.unit) : Op (ForInStep PUnit))).run u = .ok PUnit.unit t := by
    intro l k
    induction l with
    | nil => exact fun u => ⟨u, rfl⟩
    | cons x l ih =>
      intro u
      simp only [List.forIn_cons, Op.run_bind]
      obtain ⟨⟨loc, ph⟩, b⟩ := x
      cases loc <;> cases ph <;> exact ih _
  obtain ⟨t, ht⟩ := loop (ps.zip bs) s.freeCtr { s with freeCtr := s.freeCtr + 1 }
  refine ⟨?_, ?_⟩
  · exact (match (clearPoison (allLocs ps)).run t with
      | .ok _ u => (match (breakReservations (ps.map (·.1.resKey) ++ placedKeys ps)).run u with
        | .ok _ v => v
        | .error _ v => v)
      | .error _ v => v)
  · erw [ht]
    rfl

end Sys2Proof.Machine
end

