-- ==== Sys2Proof/Laws/State.lean ====
section
/-!
SUPPORT. One lemma for each field that an update of the state leaves or sets, so that no later proof unfolds a record.
-/

namespace Sys2Proof.Machine

/-! ## Tables -/

theorem Tab.get?_put_self {α : Type} (t : Tab α) (i : Nat) (a : α) : (Tab.put t i a).get? i = some a := by
  induction t with
  | nil => simp [Tab.put, Tab.get?]
  | cons p t ih =>
    obtain ⟨k, b⟩ := p
    by_cases h1 : i < k
    · simp [Tab.put, Tab.get?, h1]
    · by_cases h2 : i = k
      · subst h2; simp [Tab.put, Tab.get?]
      · simp [Tab.put, Tab.get?, h1, h2, ih]

theorem Tab.get?_put_ne {α : Type} (t : Tab α) (i j : Nat) (a : α) (h : j ≠ i) : (Tab.put t i a).get? j = t.get? j := by
  induction t with
  | nil => simp [Tab.put, Tab.get?, h]
  | cons p t ih =>
    obtain ⟨k, b⟩ := p
    by_cases h1 : i < k
    · by_cases h3 : j < i
      · have h4 : j ≠ k := by omega
        have h5 : j < k := by omega
        simp [Tab.put, Tab.get?, h1, h, h3, h4, h5]
      · simp [Tab.put, Tab.get?, h1, h, h3]
    · by_cases h2 : i = k
      · subst h2; simp [Tab.put, Tab.get?, h]
      · simp [Tab.put, Tab.get?, h1, h2, ih]

@[simp] theorem File.get_set_self {w : Nat} (f : File w) (i : Nat) (v : BitVec w) : (f.set i v).get i = v := by
  simp [File.get, File.set, Tab.get?_put_self]

theorem File.get_set_ne {w : Nat} (f : File w) (i j : Nat) (v : BitVec w) (h : j ≠ i) : (f.set i v).get j = f.get j := by
  simp [File.get, File.set, Tab.get?_put_ne _ _ _ _ h]

/-! ## Scalar registers -/

@[simp] theorem Hart.xr_zero (h : Hart) : h.xr 0 = 0 := rfl
@[simp] theorem Hart.setX_zero (h : Hart) (v : Word) : h.setX 0 v = h := rfl

theorem Hart.setX_of_ne {h : Hart} {r : BitVec 5} (v : Word) (hr : r ≠ 0) :
    h.setX r v = { h with x := h.x.set r.toNat v } := by rw [Hart.setX, if_neg hr]

theorem Hart.xr_setX_self (h : Hart) (r : BitVec 5) (v : Word) (hr : r ≠ 0) : (h.setX r v).xr r = v := by
  rw [setX_of_ne v hr, Hart.xr, if_neg hr, File.get_set_self]

theorem Hart.xr_setX_ne (h : Hart) (r q : BitVec 5) (v : Word) (hq : q ≠ r) : (h.setX r v).xr q = h.xr q := by
  by_cases hr : r = 0
  · rw [hr, Hart.setX_zero]
  · have : q.toNat ≠ r.toNat := fun e => hq (BitVec.eq_of_toNat_eq e)
    rw [setX_of_ne v hr]
    unfold Hart.xr
    rw [File.get_set_ne _ _ _ _ this]

section
variable (h : Hart) (r : BitVec 5) (v : Word)
@[simp] theorem Hart.setX_id : (h.setX r v).id = h.id := rfl
@[simp] theorem Hart.setX_mode : (h.setX r v).mode = h.mode := rfl
@[simp] theorem Hart.setX_status : (h.setX r v).status = h.status := rfl
@[simp] theorem Hart.setX_pc : (h.setX r v).pc = h.pc := rfl
@[simp] theorem Hart.setX_f : (h.setX r v).f = h.f := rfl
@[simp] theorem Hart.setX_fcsr : (h.setX r v).fcsr = h.fcsr := rfl
@[simp] theorem Hart.setX_mstatus : (h.setX r v).mstatus = h.mstatus := rfl
@[simp] theorem Hart.setX_mepc : (h.setX r v).mepc = h.mepc := rfl
@[simp] theorem Hart.setX_mcause : (h.setX r v).mcause = h.mcause := rfl
@[simp] theorem Hart.setX_faddr : (h.setX r v).faddr = h.faddr := rfl
@[simp] theorem Hart.setX_kcause : (h.setX r v).kcause = h.kcause := rfl
@[simp] theorem Hart.setX_mcountinhibit : (h.setX r v).mcountinhibit = h.mcountinhibit := rfl
@[simp] theorem Hart.setX_minstret : (h.setX r v).minstret = h.minstret := rfl
@[simp] theorem Hart.setX_vtype : (h.setX r v).vtype = h.vtype := rfl
@[simp] theorem Hart.setX_vxi : (h.setX r v).vxi = h.vxi := rfl
@[simp] theorem Hart.setX_vshp : (h.setX r v).vshp = h.vshp := rfl
@[simp] theorem Hart.setX_vregs : (h.setX r v).vregs = h.vregs := rfl
@[simp] theorem Hart.setX_preds : (h.setX r v).preds = h.preds := rfl
@[simp] theorem Hart.setX_job : (h.setX r v).job = h.job := rfl
@[simp] theorem Hart.setX_clause : (h.setX r v).clause = h.clause := rfl
@[simp] theorem Hart.setX_reservation : (h.setX r v).reservation = h.reservation := rfl
end

section
variable (h : Hart) (r : BitVec 5) (v : Word)
@[simp] theorem Hart.setF_x : (h.setF r v).x = h.x := rfl
@[simp] theorem Hart.setF_pc : (h.setF r v).pc = h.pc := rfl
@[simp] theorem Hart.setF_mode : (h.setF r v).mode = h.mode := rfl
@[simp] theorem Hart.setF_fcsr : (h.setF r v).fcsr = h.fcsr := rfl
@[simp] theorem Hart.setF_mstatus : (h.setF r v).mstatus = h.mstatus := rfl
@[simp] theorem Hart.setF_fr : (h.setF r v).fr r = v := by simp [Hart.setF, Hart.fr]
theorem Hart.setF_fr_ne (q : BitVec 5) (hq : q ≠ r) : (h.setF r v).fr q = h.fr q := by
  have : q.toNat ≠ r.toNat := fun e => hq (BitVec.eq_of_toNat_eq e)
  simp [Hart.setF, Hart.fr, File.get_set_ne _ _ _ _ this]
end

/-! ## Tables of the package -/

section
variable (s : State) (q : Nat) (v : Queue)
@[simp] theorem State.setQueue_hart : (s.setQueue q v).hart = s.hart := rfl
@[simp] theorem State.setQueue_mem : (s.setQueue q v).mem = s.mem := rfl
@[simp] theorem State.setQueue_launches : (s.setQueue q v).launches = s.launches := rfl
@[simp] theorem State.setQueue_clusters : (s.setQueue q v).clusters = s.clusters := rfl
@[simp] theorem State.setQueue_self : (s.setQueue q v).queue q = v := by simp [State.queue, State.setQueue, Tab.get?_put_self]
theorem State.setQueue_ne (p : Nat) (h : p ≠ q) : (s.setQueue q v).queue p = s.queue p := by
  simp [State.queue, State.setQueue, Tab.get?_put_ne _ _ _ _ h]
end

section
variable (s : State) (c : Nat) (v : Cluster)
@[simp] theorem State.setCluster_hart : (s.setCluster c v).hart = s.hart := rfl
@[simp] theorem State.setCluster_mem : (s.setCluster c v).mem = s.mem := rfl
@[simp] theorem State.setCluster_queues : (s.setCluster c v).queues = s.queues := rfl
@[simp] theorem State.setCluster_launches : (s.setCluster c v).launches = s.launches := rfl
@[simp] theorem State.setCluster_self : (s.setCluster c v).cluster c = v := by
  simp [State.cluster, State.setCluster, Tab.get?_put_self]
theorem State.setCluster_ne (d : Nat) (h : d ≠ c) : (s.setCluster c v).cluster d = s.cluster d := by
  simp [State.cluster, State.setCluster, Tab.get?_put_ne _ _ _ _ h]
end

theorem State.setHart_mem (s : State) (h : Hart) : (s.setHart h).mem = s.mem := by
  unfold State.setHart; split <;> rfl
@[simp] theorem State.mapHarts_mem (s : State) (f : Hart → Hart) : (s.mapHarts f).mem = s.mem := rfl
theorem State.selectHart_mem (s : State) (i : Nat) : (s.selectHart i).mem = s.mem := by
  unfold State.selectHart; split <;> rfl
@[simp] theorem State.retire_mem (s : State) : s.retire.mem = s.mem := rfl
@[simp] theorem State.retire_others (s : State) : s.retire.others = s.others := rfl

/-! ## Writes that the fabric loses -/

section
variable (a b : Writer) (n : Nat) (s : State)
@[simp] theorem State.rename_hart : (s.rename a b).hart = s.hart := rfl
@[simp] theorem State.rename_mem : (s.rename a b).mem = s.mem := rfl
@[simp] theorem State.rename_queues : (s.rename a b).queues = s.queues := rfl
@[simp] theorem State.rename_launches : (s.rename a b).launches = s.launches := rfl
@[simp] theorem State.rename_contexts : (s.rename a b).contexts = s.contexts := rfl
@[simp] theorem countLost_hart : (countLost n s).hart = s.hart := rfl
@[simp] theorem countLost_mem : (countLost n s).mem = s.mem := rfl
@[simp] theorem countLost_lost : (countLost n s).lost = s.lost := rfl
end

/-! ## Taking a trap and returning from one -/

section
variable (t : Trap) (s : State)
@[simp] theorem takeTrap_mem : (takeTrap t s).mem = s.mem := rfl
@[simp] theorem takeTrap_others : (takeTrap t s).others = s.others := rfl
@[simp] theorem takeTrap_mode : (takeTrap t s).hart.mode = .m := rfl
@[simp] theorem takeTrap_mepc : (takeTrap t s).hart.mepc = t.pc.getD s.hart.pc := rfl
@[simp] theorem takeTrap_mcause : (takeTrap t s).hart.mcause = BitVec.ofNat 64 t.cause := rfl
@[simp] theorem takeTrap_vxi : (takeTrap t s).hart.vxi = t.elem := rfl
@[simp] theorem takeTrap_faddr : (takeTrap t s).hart.faddr = t.addr.getD 0 := rfl
@[simp] theorem takeTrap_kcause : (takeTrap t s).hart.kcause = kcauseOf t := rfl
@[simp] theorem takeTrap_x : (takeTrap t s).hart.x = s.hart.x := rfl
@[simp] theorem takeTrap_f : (takeTrap t s).hart.f = s.hart.f := rfl
@[simp] theorem takeTrap_fcsr : (takeTrap t s).hart.fcsr = s.hart.fcsr := rfl
@[simp] theorem takeTrap_vregs : (takeTrap t s).hart.vregs = s.hart.vregs := rfl
@[simp] theorem takeTrap_preds : (takeTrap t s).hart.preds = s.hart.preds := rfl
@[simp] theorem takeTrap_clause : (takeTrap t s).hart.clause = s.hart.clause := rfl
@[simp] theorem takeTrap_grant : (takeTrap t s).hart.grant = s.hart.grant := rfl
@[simp] theorem takeTrap_hook : (takeTrap t s).hart.hook = s.hart.hook := rfl
@[simp] theorem takeTrap_hookSave : (takeTrap t s).hart.hookSave = s.hart.hookSave := rfl
@[simp] theorem takeTrap_job : (takeTrap t s).hart.job = s.hart.job := rfl
@[simp] theorem takeTrap_pc : (takeTrap t s).hart.pc = trapVector s.hart.mtvec false t.cause := rfl
@[simp] theorem takeTrap_freshConvoy : (takeTrap t s).hart.freshConvoy = true := rfl
@[simp] theorem takeTrap_mstatus : (takeTrap t s).hart.mstatus = mstatusTrap s.hart.mstatus s.hart.mode := rfl
end

section
variable (pc : Word) (k : Nat) (b : Bool) (s : State)
@[simp] theorem takeInterrupt_mem : (takeInterrupt pc k b s).mem = s.mem := rfl
@[simp] theorem takeInterrupt_mode : (takeInterrupt pc k b s).hart.mode = .m := rfl
@[simp] theorem takeInterrupt_mepc : (takeInterrupt pc k b s).hart.mepc = pc := rfl
@[simp] theorem takeInterrupt_vxi : (takeInterrupt pc k b s).hart.vxi = k := rfl
@[simp] theorem takeInterrupt_x : (takeInterrupt pc k b s).hart.x = s.hart.x := rfl
@[simp] theorem takeInterrupt_vregs : (takeInterrupt pc k b s).hart.vregs = s.hart.vregs := rfl
end

section
variable (h : Hart)
@[simp] theorem returnFromTrap_pc : (returnFromTrap h).pc = h.mepc := rfl
@[simp] theorem returnFromTrap_mode : (returnFromTrap h).mode = mppOf h.mstatus := rfl
@[simp] theorem returnFromTrap_x : (returnFromTrap h).x = h.x := rfl
@[simp] theorem returnFromTrap_vxi : (returnFromTrap h).vxi = h.vxi := rfl
@[simp] theorem returnFromTrap_vregs : (returnFromTrap h).vregs = h.vregs := rfl
@[simp] theorem returnFromTrap_freshConvoy : (returnFromTrap h).freshConvoy = true := rfl
end

end Sys2Proof.Machine
end

