-- ==== Sys2Proof/Laws/Memory.lean ====
section
/-!
SUPPORT. The laws of plain memory: read after write, what a write leaves alone, and the canonical form kept.
-/

namespace Sys2Proof.Machine.Memory

/-- Every key of a canonical list that stands above a bound. -/
def above (b : Nat) (m : List Host.Cell) : Prop := ∀ c ∈ m, b < c.1

theorem wf_tail {c : Host.Cell} {t : List Host.Cell} (h : wf (c :: t) = true) : wf t = true := by
  cases t with
  | nil => rfl
  | cons d t => simp only [wf, Bool.and_eq_true] at h; exact h.2

theorem wf_head {c : Host.Cell} {t : List Host.Cell} (h : wf (c :: t) = true) : c.2 ≠ unlistedByte := by
  cases t with
  | nil => simpa [wf] using h
  | cons d t => simp only [wf, Bool.and_eq_true, decide_eq_true_eq] at h; exact h.1.1

theorem wf_above {c : Host.Cell} {t : List Host.Cell} (h : wf (c :: t) = true) : above c.1 t := by
  induction t generalizing c with
  | nil => intro x hx; cases hx
  | cons d t ih =>
    have hlt : c.1 < d.1 := by simp only [wf, Bool.and_eq_true, decide_eq_true_eq] at h; exact h.1.2
    intro x hx
    rcases List.mem_cons.1 hx with rfl | hx
    · exact hlt
    · exact Nat.lt_trans hlt (ih (wf_tail h) x hx)

theorem wf_cons {c : Host.Cell} {t : List Host.Cell} (h1 : c.2 ≠ unlistedByte) (h2 : above c.1 t) (h3 : wf t = true) :
    wf (c :: t) = true := by
  cases t with
  | nil => simp [wf, h1]
  | cons d t => simp [wf, h1, h2 d (List.mem_cons_self ..), h3]

theorem get_of_above {m : List Host.Cell} {a : Nat} (h : above a m) : get m a = unlistedByte := by
  cases m with
  | nil => rfl
  | cons c t =>
    have hk := h c (List.mem_cons_self ..)
    simp [get, hk, Nat.ne_of_lt hk]

/-- What stands in memory after a write: old keys and the written one. -/
theorem mem_put {m : List Host.Cell} {a : Nat} {v : Byte} {c : Host.Cell} (h : c ∈ put m a v) : c = (a, v) ∨ c ∈ m := by
  induction m with
  | nil =>
    simp only [put] at h
    split at h <;> simp_all
  | cons d t ih =>
    obtain ⟨k, b⟩ := d
    simp only [put] at h
    split at h
    · split at h <;> simp_all
    · split at h
      · split at h
        · simp_all
        · rcases List.mem_cons.1 h with h | h
          · exact .inl h
          · exact .inr (List.mem_cons_of_mem _ h)
      · rcases List.mem_cons.1 h with rfl | h
        · exact .inr (List.mem_cons_self ..)
        · rcases ih h with rfl | h
          · exact .inl rfl
          · exact .inr (List.mem_cons_of_mem _ h)

/-- A write of a byte keeps the canonical form. -/
theorem wf_put {m : List Host.Cell} (h : wf m = true) (a : Nat) (v : Byte) : wf (put m a v) = true := by
  induction m with
  | nil => simp only [put]; split <;> simp_all [wf]
  | cons d t ih =>
    obtain ⟨k, b⟩ := d
    have hb := wf_above h
    simp only [put]
    split
    · next hlt =>
      split
      · exact h
      · next hv =>
        refine wf_cons hv ?_ h
        intro x hx
        rcases List.mem_cons.1 hx with rfl | hx
        · exact hlt
        · exact Nat.lt_trans hlt (hb x hx)
    · split
      · next heq =>
        subst heq
        split
        · exact wf_tail h
        · next hv => exact wf_cons hv hb (wf_tail h)
      · next hn1 hn2 =>
        refine wf_cons (wf_head h) ?_ (ih (wf_tail h))
        intro x hx
        rcases mem_put hx with rfl | hx
        · show k < a; omega
        · exact hb x hx

theorem wf_write {m : List Host.Cell} (h : wf m = true) (a : Nat) (bs : List Byte) : wf (write m a bs) = true := by
  induction bs generalizing m a with
  | nil => exact h
  | cons b bs ih => exact ih (wf_put h a b) (a + 1)

/-- A byte written reads as written. -/
theorem get_put_self {m : List Host.Cell} (h : wf m = true) (a : Nat) (v : Byte) : get (put m a v) a = v := by
  induction m with
  | nil => simp only [put]; split <;> simp_all [get]
  | cons d t ih =>
    obtain ⟨k, b⟩ := d
    simp only [put]
    split
    · next hlt => split <;> simp_all [get, Nat.ne_of_lt hlt]
    · split
      · next heq =>
        subst heq
        split
        · next hv => rw [hv]; exact get_of_above (wf_above h)
        · simp [get]
      · next h1 h2 => simp [get, h1, h2, ih (wf_tail h)]

/-- A write leaves every other byte alone. -/
theorem get_put_ne {m : List Host.Cell} (h : wf m = true) (a x : Nat) (v : Byte) (hx : x ≠ a) : get (put m a v) x = get m x := by
  induction m with
  | nil => simp only [put]; split <;> simp [get, hx]
  | cons d t ih =>
    obtain ⟨k, b⟩ := d
    have hab := wf_above h
    simp only [put]
    split
    · next hlt =>
      split
      · rfl
      · by_cases hxa : x < a
        · have h1 : x ≠ k := by omega
          have h2 : x < k := by omega
          simp [get, hx, hxa, h1, h2]
        · simp [get, hx, hxa]
    · split
      · next heq =>
        subst heq
        split
        · by_cases hxa : x < a
          · have : above x t := fun c hc => Nat.lt_trans hxa (hab c hc)
            simp [get, hx, hxa, get_of_above this]
          · simp [get, hx, hxa]
        · simp [get, hx]
      · simp [get, ih (wf_tail h)]

/-- A range written leaves every byte outside it alone. -/
theorem get_write_out {m : List Host.Cell} (h : wf m = true) (a : Nat) (bs : List Byte) (x : Nat)
    (hx : x < a ∨ a + bs.length ≤ x) : get (write m a bs) x = get m x := by
  induction bs generalizing m a with
  | nil => rfl
  | cons b bs ih =>
    simp only [List.length_cons] at hx
    have hne : x ≠ a := by omega
    rw [write, ih (wf_put h a b) (a + 1) (by omega), get_put_ne h a x b hne]

/-- A range written reads as written. -/
theorem get_write_in {m : List Host.Cell} (h : wf m = true) (a : Nat) (bs : List Byte) (i : Nat) (hi : i < bs.length) :
    get (write m a bs) (a + i) = bs[i] := by
  induction bs generalizing m a i with
  | nil => simp at hi
  | cons b bs ih =>
    rw [write]
    cases i with
    | zero => rw [get_write_out (wf_put h a b) (a + 1) bs (a + 0) (by omega)]; simpa using get_put_self h a b
    | succ i =>
      have := ih (wf_put h a b) (a + 1) i (by simpa using hi)
      rw [show a + (i + 1) = a + 1 + i by omega, this]; rfl

theorem read_write_self {m : List Host.Cell} (h : wf m = true) (a : Nat) (bs : List Byte) :
    read (write m a bs) a bs.length = bs := by
  have key : ∀ n i, i + n = bs.length → read (write m a bs) (a + i) n = bs.drop i := by
    intro n
    induction n with
    | zero => intro i hi; rw [List.drop_of_length_le (by omega)]; rfl
    | succ n ih =>
      intro i hi
      have hlt : i < bs.length := by omega
      rw [read, get_write_in h a bs i hlt, show a + i + 1 = a + (i + 1) by omega, ih (i + 1) (by omega),
        List.drop_eq_getElem_cons hlt]
  simpa using key bs.length 0 (by omega)

@[simp] theorem read_length (m : List Host.Cell) (a n : Nat) : (read m a n).length = n := by
  induction n generalizing a with
  | zero => rfl
  | succ n ih => simp [read, ih]

theorem wf_reset : wf State.reset.mem = true := rfl

/-- Two canonical lists that read alike everywhere are equal. -/
theorem ext {m n : List Host.Cell} (hm : wf m = true) (hn : wf n = true) (h : ∀ a, get m a = get n a) : m = n := by
  induction m generalizing n with
  | nil =>
    cases n with
    | nil => rfl
    | cons d t =>
      have := h d.1
      simp [get] at this
      exact absurd this.symm (wf_head hn)
  | cons c t ih =>
    cases n with
    | nil =>
      have := h c.1
      simp [get] at this
      exact absurd this (wf_head hm)
    | cons d u =>
      have hkey : c.1 = d.1 := by
        rcases Nat.lt_trichotomy c.1 d.1 with hlt | heq | hgt
        · have := h c.1
          simp [get, hlt, Nat.ne_of_lt hlt] at this
          exact absurd this (wf_head hm)
        · exact heq
        · have := h d.1
          simp [get, hgt, Nat.ne_of_lt hgt] at this
          exact absurd this.symm (wf_head hn)
      have hval : c.2 = d.2 := by
        have := h c.1
        simpa [get, hkey] using this
      have hcd : c = d := Prod.ext hkey hval
      subst hcd
      refine congrArg (c :: ·) (ih (wf_tail hm) (wf_tail hn) fun a => ?_)
      have ha := h a
      by_cases h1 : a ≤ c.1
      · have e1 : above a t := fun x hx => Nat.lt_of_le_of_lt h1 (wf_above hm x hx)
        have e2 : above a u := fun x hx => Nat.lt_of_le_of_lt h1 (wf_above hn x hx)
        rw [get_of_above e1, get_of_above e2]
      · have h2 : a ≠ c.1 := by omega
        have h3 : ¬ a < c.1 := by omega
        simpa [get, h2, h3] using ha

end Sys2Proof.Machine.Memory
end

