-- ==== Sys2Proof/Laws/Cipher.lean ====
section
/-!
SUPPORT. The laws of memory under an encryption key (R151): what a read under a key finds after a write under it, and the canonical
form kept.
-/

namespace Sys2Proof

theorem ofBytes_toBytes : ∀ n v, ofBytes (toBytes n v) = v % 256 ^ n
  | 0, v => by simp [toBytes, ofBytes, Nat.mod_one]
  | n + 1, v => by
    simp only [toBytes, ofBytes, ofBytes_toBytes n, BitVec.toNat_ofNat]
    rw [show (256 : Nat) ^ (n + 1) = 256 * 256 ^ n from pow_succ' 256 n, Nat.mod_mul]

theorem ofBytes_lt : ∀ l : List Byte, ofBytes l < 256 ^ l.length
  | [] => by simp [ofBytes]
  | b :: t => by
    have h := ofBytes_lt t
    have hb := b.isLt
    simp only [ofBytes, List.length_cons, pow_succ']
    omega

/-- The byte at a place of the number that bytes hold. -/
theorem byte_ofBytes : ∀ (l : List Byte) (i : Nat) (h : i < l.length), BitVec.ofNat 8 (ofBytes l / 2 ^ (8 * i)) = l[i]
  | b :: t, 0, _ => by
    apply BitVec.eq_of_toNat_eq
    have hb := b.isLt
    simp only [ofBytes, BitVec.toNat_ofNat, List.getElem_cons_zero]
    omega
  | b :: t, i + 1, h => by
    have hb := b.isLt
    have e : ofBytes (b :: t) / 2 ^ (8 * (i + 1)) = ofBytes t / 2 ^ (8 * i) := by
      rw [show 8 * (i + 1) = 8 + 8 * i by omega, pow_add, ← Nat.div_div_eq_div_mul]
      congr 1
      simp only [ofBytes]
      omega
    rw [e, List.getElem_cons_succ]
    exact byte_ofBytes t i (by simpa using h)

namespace Machine

theorem wf_putUnder {c : Option (BitVec 512)} {m : List Host.Cell} (h : Memory.wf m = true) (k : Nat) (b : Byte) :
    Memory.wf (putUnder c m k b) = true := by
  cases c with
  | none => exact Memory.wf_put h k b
  | some v => exact Memory.wf_write h _ _

theorem wf_writeUnder {c : Option (BitVec 512)} {m : List Host.Cell} (h : Memory.wf m = true) (k : Nat) (bs : List Byte) :
    Memory.wf (writeUnder c m k bs) = true := by
  induction bs generalizing m k with
  | nil => exact h
  | cons b bs ih => exact ih (wf_putUnder h k b) (k + 1)

/-- Without a key a run of bytes is read and written as it stands. -/
theorem readUnder_none (m : List Host.Cell) (k n : Nat) : readUnder none m k n = Memory.read m k n := by
  induction n generalizing k with
  | zero => rfl
  | succ n ih =>
    have := ih (k + 1)
    simp only [readUnder, byteUnder, Memory.read] at this ⊢
    rw [List.range_succ_eq_map, List.map_cons, List.map_map, Nat.add_zero, ← this]
    congr 1
    apply List.map_congr_left
    intro i _
    show Memory.get m (k + (i + 1)) = Memory.get m (k + 1 + i)
    congr 1
    omega

theorem writeUnder_none (m : List Host.Cell) (k : Nat) (bs : List Byte) : writeUnder none m k bs = Memory.write m k bs := by
  induction bs generalizing m k with
  | nil => rfl
  | cons b bs ih => exact ih _ _

/-- A sector written under a key reads as what was written under that key. -/
theorem sectorUnder_write {v : BitVec 512} {m : List Host.Cell} (h : Memory.wf m = true) (k : Nat) (x : BitVec 256) :
    sectorUnder (some v) (Memory.write m (sectorBase k) (toBytes 32 (Config.xts v (tweakOf k) x).toNat)) k = x := by
  have hr := Memory.read_write_self h (sectorBase k) (toBytes 32 (Config.xts v (tweakOf k) x).toNat)
  rw [toBytes_length] at hr
  have hx : BitVec.ofNat 256 (ofBytes (toBytes 32 (Config.xts v (tweakOf k) x).toNat)) = Config.xts v (tweakOf k) x := by
    rw [ofBytes_toBytes]
    apply BitVec.eq_of_toNat_eq
    have := (Config.xts v (tweakOf k) x).isLt
    rw [BitVec.toNat_ofNat]
    omega
  simp only [sectorUnder, hr, hx, Equiv.symm_apply_apply]

/-- The bytes of a sector as they read under a key. -/
theorem byteUnder_some (v : BitVec 512) (m : List Host.Cell) (k : Nat) :
    byteUnder (some v) m k = (toBytes 32 (sectorUnder (some v) m k).toNat)[k % 32]'(by simp; omega) := by
  have h := byte_ofBytes (toBytes 32 (sectorUnder (some v) m k).toNat) (k % 32) (by simp; omega)
  rw [← h, ofBytes_toBytes, Nat.mod_eq_of_lt]
  · rfl
  · have := (sectorUnder (some v) m k).isLt
    omega

/-- A byte written under a key reads back under it. -/
theorem byteUnder_put_self {c : Option (BitVec 512)} {m : List Host.Cell} (h : Memory.wf m = true) (k : Nat) (b : Byte) :
    byteUnder c (putUnder c m k b) k = b := by
  cases c with
  | none => exact Memory.get_put_self h k b
  | some v =>
    simp only [byteUnder, putUnder, sectorUnder_write h]
    have hl : ((toBytes 32 (sectorUnder (some v) m k).toNat).set (k % 32) b).length = 32 := by simp
    have hlt := ofBytes_lt ((toBytes 32 (sectorUnder (some v) m k).toNat).set (k % 32) b)
    rw [hl] at hlt
    rw [BitVec.toNat_ofNat, Nat.mod_eq_of_lt (by simpa using hlt), byte_ofBytes _ _ (by simp; omega)]
    simp

/-- Every other byte reads under that key as before. -/
theorem byteUnder_put_ne {c : Option (BitVec 512)} {m : List Host.Cell} (h : Memory.wf m = true) {k x : Nat} (hx : x ≠ k) (b : Byte) :
    byteUnder c (putUnder c m k b) x = byteUnder c m x := by
  cases c with
  | none => exact Memory.get_put_ne h k x b hx
  | some v =>
    by_cases hs : k / 32 = x / 32
    · have e1 : sectorBase x = sectorBase k := by simp [sectorBase, hs]
      have e2 : tweakOf x = tweakOf k := by unfold tweakOf; omega
      have e3 (n : List Host.Cell) : sectorUnder (some v) n x = sectorUnder (some v) n k := by simp [sectorUnder, e1, e2]
      have hne : k % 32 ≠ x % 32 := by omega
      rw [byteUnder_some v m x]
      simp only [byteUnder, putUnder, e3, sectorUnder_write h]
      have hl : ((toBytes 32 (sectorUnder (some v) m k).toNat).set (k % 32) b).length = 32 := by simp
      have hlt := ofBytes_lt ((toBytes 32 (sectorUnder (some v) m k).toNat).set (k % 32) b)
      rw [hl] at hlt
      rw [BitVec.toNat_ofNat, Nat.mod_eq_of_lt (by simpa using hlt), byte_ofBytes _ _ (by simp; omega), List.getElem_set_ne hne]
    · have hr : Memory.read (putUnder (some v) m k b) (sectorBase x) 32 = Memory.read m (sectorBase x) 32 := by
        have out : ∀ i, i < 32 → Memory.get (putUnder (some v) m k b) (sectorBase x + i) = Memory.get m (sectorBase x + i) := by
          intro i hi
          refine Memory.get_write_out h _ _ _ ?_
          simp only [toBytes_length, sectorBase]
          omega
        rw [← readUnder_none, ← readUnder_none]
        simp only [readUnder, byteUnder]
        exact List.map_congr_left fun i hi => out i (List.mem_range.mp hi)
      simp only [byteUnder, sectorUnder, hr]

end Machine

end Sys2Proof
end

