-- ==== Sys2Proof/Laws/Encode.lean ====
section
/-!
SUPPORT. The fields of each encoding layout, read back one by one: each field of an encoded word is the field it was built of.
-/

namespace Sys2Proof

theorem toNat_append {a b : Nat} (x : BitVec a) (y : BitVec b) : (x ++ y).toNat = x.toNat * 2 ^ b + y.toNat := by
  rw [BitVec.toNat_append, ← Nat.shiftLeft_add_eq_or_of_lt y.isLt, Nat.shiftLeft_eq]

theorem fld_eq {n lo len : Nat} (w : BitVec n) (v : BitVec len) (h : w.toNat / 2 ^ lo % 2 ^ len = v.toNat) : fld w lo len = v := by
  apply BitVec.eq_of_toNat_eq
  rw [BitVec.extractLsb'_toNat, Nat.shiftRight_eq_div_pow, h]

/-- The words of JAL, of the branches and of LUI and AUIPC, by their pieces. -/
def encJw (a : BitVec 1) (b : BitVec 10) (c : BitVec 1) (d : BitVec 8) (rd : BitVec 5) : BitVec 32 := a ++ b ++ c ++ d ++ rd ++ 0x6F#7
def encBw (a : BitVec 1) (b : BitVec 6) (rs2 rs1 : BitVec 5) (f3 : BitVec 3) (c : BitVec 4) (d : BitVec 1) : BitVec 32 :=
  a ++ b ++ rs2 ++ rs1 ++ f3 ++ c ++ d ++ 0x63#7
def encUw (imm : BitVec 20) (rd : BitVec 5) (op : BitVec 7) : BitVec 32 := imm ++ rd ++ op

theorem bitAt_eq {n : Nat} (w : BitVec n) (i : Nat) : bitAt w i = decide (w.toNat / 2 ^ i % 2 = 1) := by
  rw [bitAt, BitVec.getLsbD, Nat.testBit_eq_decide_div_mod_eq]

theorem bit_of_fld {n i : Nat} {w : BitVec n} {b : Bool} (h : fld w i 1 = BitVec.ofBool b) : bitAt w i = b := by
  have := congrArg (fun v => v.getLsbD 0) h
  simpa [bitAt, BitVec.getLsbD_extractLsb'] using this

section
variable (f7 : BitVec 7) (rs2 rs1 : BitVec 5) (f3 : BitVec 3) (rd : BitVec 5) (op : BitVec 7)
theorem encR_toNat :
    (encR f7 rs2 rs1 f3 rd op).toNat = (((((f7.toNat) * 32 + rs2.toNat) * 32 + rs1.toNat) * 8 + f3.toNat) * 32 + rd.toNat) * 128 + op.toNat := by
  simp only [encR, toNat_append]; rfl
@[simp] theorem encR_25_7 : fld (encR f7 rs2 rs1 f3 rd op) 25 7 = f7 := by
  apply fld_eq; rw [encR_toNat]; omega
@[simp] theorem encR_20_5 : fld (encR f7 rs2 rs1 f3 rd op) 20 5 = rs2 := by
  apply fld_eq; rw [encR_toNat]; omega
@[simp] theorem encR_15_5 : fld (encR f7 rs2 rs1 f3 rd op) 15 5 = rs1 := by
  apply fld_eq; rw [encR_toNat]; omega
@[simp] theorem encR_12_3 : fld (encR f7 rs2 rs1 f3 rd op) 12 3 = f3 := by
  apply fld_eq; rw [encR_toNat]; omega
@[simp] theorem encR_7_5 : fld (encR f7 rs2 rs1 f3 rd op) 7 5 = rd := by
  apply fld_eq; rw [encR_toNat]; omega
@[simp] theorem encR_0_7 : fld (encR f7 rs2 rs1 f3 rd op) 0 7 = op := by
  apply fld_eq; rw [encR_toNat]; omega
@[simp] theorem encR_2_3 : fld (encR f7 rs2 rs1 f3 rd op) 2 3 = fld op 2 3 := by
  apply fld_eq; rw [encR_toNat]; simp only [BitVec.extractLsb'_toNat, Nat.shiftRight_eq_div_pow]; omega
@[simp] theorem encR_20_12 : fld (encR f7 rs2 rs1 f3 rd op) 20 12 = f7 ++ rs2 := by
  apply fld_eq; rw [encR_toNat]; simp only [toNat_append]; omega
@[simp] theorem encR_26_6 : fld (encR f7 rs2 rs1 f3 rd op) 26 6 = fld f7 1 6 := by
  apply fld_eq; rw [encR_toNat]; simp only [BitVec.extractLsb'_toNat, Nat.shiftRight_eq_div_pow]; omega
@[simp] theorem encR_28_4 : fld (encR f7 rs2 rs1 f3 rd op) 28 4 = fld f7 3 4 := by
  apply fld_eq; rw [encR_toNat]; simp only [BitVec.extractLsb'_toNat, Nat.shiftRight_eq_div_pow]; omega
@[simp] theorem encR_25_3 : fld (encR f7 rs2 rs1 f3 rd op) 25 3 = fld f7 0 3 := by
  apply fld_eq; rw [encR_toNat]; simp only [BitVec.extractLsb'_toNat, Nat.shiftRight_eq_div_pow]; omega
@[simp] theorem encR_27_5 : fld (encR f7 rs2 rs1 f3 rd op) 27 5 = fld f7 2 5 := by
  apply fld_eq; rw [encR_toNat]; simp only [BitVec.extractLsb'_toNat, Nat.shiftRight_eq_div_pow]; omega
@[simp] theorem encR_25_2 : fld (encR f7 rs2 rs1 f3 rd op) 25 2 = fld f7 0 2 := by
  apply fld_eq; rw [encR_toNat]; simp only [BitVec.extractLsb'_toNat, Nat.shiftRight_eq_div_pow]; omega
@[simp] theorem encR_24_4 : fld (encR f7 rs2 rs1 f3 rd op) 24 4 = (fld f7 0 3) ++ (fld rs2 4 1) := by
  apply fld_eq; rw [encR_toNat]; simp only [toNat_append, BitVec.extractLsb'_toNat, Nat.shiftRight_eq_div_pow]; omega
@[simp] theorem encR_20_6 : fld (encR f7 rs2 rs1 f3 rd op) 20 6 = (fld f7 0 1) ++ rs2 := by
  apply fld_eq; rw [encR_toNat]; simp only [toNat_append, BitVec.extractLsb'_toNat, Nat.shiftRight_eq_div_pow]; omega
@[simp] theorem encR_bit25 : bitAt (encR f7 rs2 rs1 f3 rd op) 25 = bitAt f7 0 := by
  rw [bitAt_eq, bitAt_eq, encR_toNat, decide_eq_decide]; omega
@[simp] theorem encR_bit26 : bitAt (encR f7 rs2 rs1 f3 rd op) 26 = bitAt f7 1 := by
  rw [bitAt_eq, bitAt_eq, encR_toNat, decide_eq_decide]; omega
end

section
variable (imm : BitVec 12) (rs1 : BitVec 5) (f3 : BitVec 3) (rd : BitVec 5) (op : BitVec 7)
theorem encI_toNat :
    (encI imm rs1 f3 rd op).toNat = ((((imm.toNat) * 32 + rs1.toNat) * 8 + f3.toNat) * 32 + rd.toNat) * 128 + op.toNat := by
  simp only [encI, toNat_append]; rfl
@[simp] theorem encI_20_12 : fld (encI imm rs1 f3 rd op) 20 12 = imm := by
  apply fld_eq; rw [encI_toNat]; omega
@[simp] theorem encI_15_5 : fld (encI imm rs1 f3 rd op) 15 5 = rs1 := by
  apply fld_eq; rw [encI_toNat]; omega
@[simp] theorem encI_12_3 : fld (encI imm rs1 f3 rd op) 12 3 = f3 := by
  apply fld_eq; rw [encI_toNat]; omega
@[simp] theorem encI_7_5 : fld (encI imm rs1 f3 rd op) 7 5 = rd := by
  apply fld_eq; rw [encI_toNat]; omega
@[simp] theorem encI_0_7 : fld (encI imm rs1 f3 rd op) 0 7 = op := by
  apply fld_eq; rw [encI_toNat]; omega
@[simp] theorem encI_2_3 : fld (encI imm rs1 f3 rd op) 2 3 = fld op 2 3 := by
  apply fld_eq; rw [encI_toNat]; simp only [BitVec.extractLsb'_toNat, Nat.shiftRight_eq_div_pow]; omega
@[simp] theorem encI_20_5 : fld (encI imm rs1 f3 rd op) 20 5 = fld imm 0 5 := by
  apply fld_eq; rw [encI_toNat]; simp only [BitVec.extractLsb'_toNat, Nat.shiftRight_eq_div_pow]; omega
@[simp] theorem encI_26_6 : fld (encI imm rs1 f3 rd op) 26 6 = fld imm 6 6 := by
  apply fld_eq; rw [encI_toNat]; simp only [BitVec.extractLsb'_toNat, Nat.shiftRight_eq_div_pow]; omega
@[simp] theorem encI_28_4 : fld (encI imm rs1 f3 rd op) 28 4 = fld imm 8 4 := by
  apply fld_eq; rw [encI_toNat]; simp only [BitVec.extractLsb'_toNat, Nat.shiftRight_eq_div_pow]; omega
@[simp] theorem encI_25_7 : fld (encI imm rs1 f3 rd op) 25 7 = fld imm 5 7 := by
  apply fld_eq; rw [encI_toNat]; simp only [BitVec.extractLsb'_toNat, Nat.shiftRight_eq_div_pow]; omega
@[simp] theorem encI_24_4 : fld (encI imm rs1 f3 rd op) 24 4 = fld imm 4 4 := by
  apply fld_eq; rw [encI_toNat]; simp only [BitVec.extractLsb'_toNat, Nat.shiftRight_eq_div_pow]; omega
@[simp] theorem encI_20_4 : fld (encI imm rs1 f3 rd op) 20 4 = fld imm 0 4 := by
  apply fld_eq; rw [encI_toNat]; simp only [BitVec.extractLsb'_toNat, Nat.shiftRight_eq_div_pow]; omega
@[simp] theorem encI_20_6 : fld (encI imm rs1 f3 rd op) 20 6 = fld imm 0 6 := by
  apply fld_eq; rw [encI_toNat]; simp only [BitVec.extractLsb'_toNat, Nat.shiftRight_eq_div_pow]; omega
end

section
variable (f4 : BitVec 4) (rs2 rs1 : BitVec 5) (f3 : BitVec 3) (rd : BitVec 5)
theorem encCd_toNat :
    (encCd f4 rs2 rs1 f3 rd).toNat = ((((((f4.toNat) * 8 + (0#3).toNat) * 32 + rs2.toNat) * 32 + rs1.toNat) * 8 + f3.toNat) * 32 + rd.toNat) * 128 + (0x0B#7).toNat := by
  simp only [encCd, toNat_append]; rfl
@[simp] theorem encCd_28_4 : fld (encCd f4 rs2 rs1 f3 rd) 28 4 = f4 := by
  apply fld_eq; rw [encCd_toNat]; simp only [BitVec.toNat_ofNat]; omega
@[simp] theorem encCd_25_3 : fld (encCd f4 rs2 rs1 f3 rd) 25 3 = 0#3 := by
  apply fld_eq; rw [encCd_toNat]; simp only [BitVec.toNat_ofNat]; omega
@[simp] theorem encCd_20_5 : fld (encCd f4 rs2 rs1 f3 rd) 20 5 = rs2 := by
  apply fld_eq; rw [encCd_toNat]; simp only [BitVec.toNat_ofNat]; omega
@[simp] theorem encCd_15_5 : fld (encCd f4 rs2 rs1 f3 rd) 15 5 = rs1 := by
  apply fld_eq; rw [encCd_toNat]; simp only [BitVec.toNat_ofNat]; omega
@[simp] theorem encCd_12_3 : fld (encCd f4 rs2 rs1 f3 rd) 12 3 = f3 := by
  apply fld_eq; rw [encCd_toNat]; simp only [BitVec.toNat_ofNat]; omega
@[simp] theorem encCd_7_5 : fld (encCd f4 rs2 rs1 f3 rd) 7 5 = rd := by
  apply fld_eq; rw [encCd_toNat]; simp only [BitVec.toNat_ofNat]; omega
@[simp] theorem encCd_0_7 : fld (encCd f4 rs2 rs1 f3 rd) 0 7 = 0x0B#7 := by
  apply fld_eq; rw [encCd_toNat]; simp only [BitVec.toNat_ofNat]; omega
@[simp] theorem encCd_2_3 : fld (encCd f4 rs2 rs1 f3 rd) 2 3 = fld (0x0B#7) 2 3 := by
  apply fld_eq; rw [encCd_toNat]; simp only [BitVec.extractLsb'_toNat, Nat.shiftRight_eq_div_pow, BitVec.toNat_ofNat]; omega
@[simp] theorem encCd_7_3 : fld (encCd f4 rs2 rs1 f3 rd) 7 3 = fld rd 0 3 := by
  apply fld_eq; rw [encCd_toNat]; simp only [BitVec.extractLsb'_toNat, Nat.shiftRight_eq_div_pow, BitVec.toNat_ofNat]; omega
@[simp] theorem encCd_10_2 : fld (encCd f4 rs2 rs1 f3 rd) 10 2 = fld rd 3 2 := by
  apply fld_eq; rw [encCd_toNat]; simp only [BitVec.extractLsb'_toNat, Nat.shiftRight_eq_div_pow, BitVec.toNat_ofNat]; omega
end

section
variable (f4 : BitVec 4) (o : Order) (rs2 rs1 : BitVec 5) (f3 : BitVec 3) (rt : BitVec 3)
theorem encCo_toNat :
    (encCo f4 o rs2 rs1 f3 rt).toNat = ((((((((f4.toNat) * 8 + o.scope.code.toNat) * 32 + rs2.toNat) * 32 + rs1.toNat) * 8 + f3.toNat) * 2 + (BitVec.ofBool o.aq).toNat) * 2 + (BitVec.ofBool o.rl).toNat) * 8 + rt.toNat) * 128 + (0x0B#7).toNat := by
  simp only [encCo, toNat_append]; rfl
@[simp] theorem encCo_28_4 : fld (encCo f4 o rs2 rs1 f3 rt) 28 4 = f4 := by
  apply fld_eq; rw [encCo_toNat]; simp only [BitVec.toNat_ofNat]; omega
@[simp] theorem encCo_25_3 : fld (encCo f4 o rs2 rs1 f3 rt) 25 3 = o.scope.code := by
  apply fld_eq; rw [encCo_toNat]; simp only [BitVec.toNat_ofNat]; omega
@[simp] theorem encCo_20_5 : fld (encCo f4 o rs2 rs1 f3 rt) 20 5 = rs2 := by
  apply fld_eq; rw [encCo_toNat]; simp only [BitVec.toNat_ofNat]; omega
@[simp] theorem encCo_15_5 : fld (encCo f4 o rs2 rs1 f3 rt) 15 5 = rs1 := by
  apply fld_eq; rw [encCo_toNat]; simp only [BitVec.toNat_ofNat]; omega
@[simp] theorem encCo_12_3 : fld (encCo f4 o rs2 rs1 f3 rt) 12 3 = f3 := by
  apply fld_eq; rw [encCo_toNat]; simp only [BitVec.toNat_ofNat]; omega
@[simp] theorem encCo_11_1 : fld (encCo f4 o rs2 rs1 f3 rt) 11 1 = BitVec.ofBool o.aq := by
  apply fld_eq; rw [encCo_toNat]; simp only [BitVec.toNat_ofNat]; omega
@[simp] theorem encCo_10_1 : fld (encCo f4 o rs2 rs1 f3 rt) 10 1 = BitVec.ofBool o.rl := by
  apply fld_eq; rw [encCo_toNat]; simp only [BitVec.toNat_ofNat]; omega
@[simp] theorem encCo_7_3 : fld (encCo f4 o rs2 rs1 f3 rt) 7 3 = rt := by
  apply fld_eq; rw [encCo_toNat]; simp only [BitVec.toNat_ofNat]; omega
@[simp] theorem encCo_0_7 : fld (encCo f4 o rs2 rs1 f3 rt) 0 7 = 0x0B#7 := by
  apply fld_eq; rw [encCo_toNat]; simp only [BitVec.toNat_ofNat]; omega
@[simp] theorem encCo_2_3 : fld (encCo f4 o rs2 rs1 f3 rt) 2 3 = fld (0x0B#7) 2 3 := by
  apply fld_eq; rw [encCo_toNat]; simp only [BitVec.extractLsb'_toNat, Nat.shiftRight_eq_div_pow, BitVec.toNat_ofNat]; omega
@[simp] theorem encCo_10_2 : fld (encCo f4 o rs2 rs1 f3 rt) 10 2 = (BitVec.ofBool o.aq) ++ (BitVec.ofBool o.rl) := by
  apply fld_eq; rw [encCo_toNat]; simp only [toNat_append, BitVec.toNat_ofNat]; omega
@[simp] theorem encCo_bit10 : bitAt (encCo f4 o rs2 rs1 f3 rt) 10 = o.rl := by
  have h := encCo_10_1 f4 o rs2 rs1 f3 rt; exact bit_of_fld h
@[simp] theorem encCo_bit11 : bitAt (encCo f4 o rs2 rs1 f3 rt) 11 = o.aq := by
  have h := encCo_11_1 f4 o rs2 rs1 f3 rt; exact bit_of_fld h
end

section
variable (f7 : BitVec 7) (s : Scope)
theorem encCf_toNat :
    (encCf f7 s).toNat = ((((((f7.toNat) * 4 + (0#2).toNat) * 8 + s.code.toNat) * 32 + (0#5).toNat) * 8 + (2#3).toNat) * 32 + (0#5).toNat) * 128 + (0x0B#7).toNat := by
  simp only [encCf, toNat_append]; rfl
@[simp] theorem encCf_25_7 : fld (encCf f7 s) 25 7 = f7 := by
  apply fld_eq; rw [encCf_toNat]; simp only [BitVec.toNat_ofNat]; omega
@[simp] theorem encCf_23_2 : fld (encCf f7 s) 23 2 = 0#2 := by
  apply fld_eq; rw [encCf_toNat]; simp only [BitVec.toNat_ofNat]; omega
@[simp] theorem encCf_20_3 : fld (encCf f7 s) 20 3 = s.code := by
  apply fld_eq; rw [encCf_toNat]; simp only [BitVec.toNat_ofNat]; omega
@[simp] theorem encCf_15_5 : fld (encCf f7 s) 15 5 = 0#5 := by
  apply fld_eq; rw [encCf_toNat]; simp only [BitVec.toNat_ofNat]; omega
@[simp] theorem encCf_12_3 : fld (encCf f7 s) 12 3 = 2#3 := by
  apply fld_eq; rw [encCf_toNat]; simp only [BitVec.toNat_ofNat]; omega
@[simp] theorem encCf_7_5 : fld (encCf f7 s) 7 5 = 0#5 := by
  apply fld_eq; rw [encCf_toNat]; simp only [BitVec.toNat_ofNat]; omega
@[simp] theorem encCf_0_7 : fld (encCf f7 s) 0 7 = 0x0B#7 := by
  apply fld_eq; rw [encCf_toNat]; simp only [BitVec.toNat_ofNat]; omega
@[simp] theorem encCf_2_3 : fld (encCf f7 s) 2 3 = fld (0x0B#7) 2 3 := by
  apply fld_eq; rw [encCf_toNat]; simp only [BitVec.extractLsb'_toNat, Nat.shiftRight_eq_div_pow, BitVec.toNat_ofNat]; omega
@[simp] theorem encCf_20_5 : fld (encCf f7 s) 20 5 = (0#2) ++ s.code := by
  apply fld_eq; rw [encCf_toNat]; simp only [toNat_append, BitVec.toNat_ofNat]; omega
end

section
variable (f4 : BitVec 4) (v : VOp) (op : BitVec 7)
theorem encV_toNat :
    (encV f4 v op).toNat = (((((((f4.toNat) * 2 + (BitVec.ofBool v.c).toNat) * 4 + v.b.form.toNat) * 8 + v.pg.toNat) * 32 + v.vs2.toNat) * 32 + v.b.field.toNat) * 32 + v.vd.toNat) * 128 + op.toNat := by
  simp only [encV, toNat_append]; rfl
@[simp] theorem encV_28_4 : fld (encV f4 v op) 28 4 = f4 := by
  apply fld_eq; rw [encV_toNat]; omega
@[simp] theorem encV_27_1 : fld (encV f4 v op) 27 1 = BitVec.ofBool v.c := by
  apply fld_eq; rw [encV_toNat]; omega
@[simp] theorem encV_25_2 : fld (encV f4 v op) 25 2 = v.b.form := by
  apply fld_eq; rw [encV_toNat]; omega
@[simp] theorem encV_22_3 : fld (encV f4 v op) 22 3 = v.pg := by
  apply fld_eq; rw [encV_toNat]; omega
@[simp] theorem encV_17_5 : fld (encV f4 v op) 17 5 = v.vs2 := by
  apply fld_eq; rw [encV_toNat]; omega
@[simp] theorem encV_12_5 : fld (encV f4 v op) 12 5 = v.b.field := by
  apply fld_eq; rw [encV_toNat]; omega
@[simp] theorem encV_7_5 : fld (encV f4 v op) 7 5 = v.vd := by
  apply fld_eq; rw [encV_toNat]; omega
@[simp] theorem encV_0_7 : fld (encV f4 v op) 0 7 = op := by
  apply fld_eq; rw [encV_toNat]; omega
@[simp] theorem encV_2_3 : fld (encV f4 v op) 2 3 = fld op 2 3 := by
  apply fld_eq; rw [encV_toNat]; simp only [BitVec.extractLsb'_toNat, Nat.shiftRight_eq_div_pow]; omega
@[simp] theorem encV_bit27 : bitAt (encV f4 v op) 27 = v.c := by
  have h := encV_27_1 f4 v op; exact bit_of_fld h
end

section
variable (f4 : BitVec 4) (u : UOp) (sub : BitVec 5) (op : BitVec 7)
theorem encU_toNat :
    (encU f4 u sub op).toNat = (((((((f4.toNat) * 2 + (BitVec.ofBool u.c).toNat) * 4 + (3#2).toNat) * 8 + u.pg.toNat) * 32 + u.vs2.toNat) * 32 + sub.toNat) * 32 + u.vd.toNat) * 128 + op.toNat := by
  simp only [encU, toNat_append]; rfl
@[simp] theorem encU_28_4 : fld (encU f4 u sub op) 28 4 = f4 := by
  apply fld_eq; rw [encU_toNat]; simp only [BitVec.toNat_ofNat]; omega
@[simp] theorem encU_27_1 : fld (encU f4 u sub op) 27 1 = BitVec.ofBool u.c := by
  apply fld_eq; rw [encU_toNat]; simp only [BitVec.toNat_ofNat]; omega
@[simp] theorem encU_25_2 : fld (encU f4 u sub op) 25 2 = 3#2 := by
  apply fld_eq; rw [encU_toNat]; simp only [BitVec.toNat_ofNat]; omega
@[simp] theorem encU_22_3 : fld (encU f4 u sub op) 22 3 = u.pg := by
  apply fld_eq; rw [encU_toNat]; simp only [BitVec.toNat_ofNat]; omega
@[simp] theorem encU_17_5 : fld (encU f4 u sub op) 17 5 = u.vs2 := by
  apply fld_eq; rw [encU_toNat]; simp only [BitVec.toNat_ofNat]; omega
@[simp] theorem encU_12_5 : fld (encU f4 u sub op) 12 5 = sub := by
  apply fld_eq; rw [encU_toNat]; simp only [BitVec.toNat_ofNat]; omega
@[simp] theorem encU_7_5 : fld (encU f4 u sub op) 7 5 = u.vd := by
  apply fld_eq; rw [encU_toNat]; simp only [BitVec.toNat_ofNat]; omega
@[simp] theorem encU_0_7 : fld (encU f4 u sub op) 0 7 = op := by
  apply fld_eq; rw [encU_toNat]; simp only [BitVec.toNat_ofNat]; omega
@[simp] theorem encU_2_3 : fld (encU f4 u sub op) 2 3 = fld op 2 3 := by
  apply fld_eq; rw [encU_toNat]; simp only [BitVec.extractLsb'_toNat, Nat.shiftRight_eq_div_pow, BitVec.toNat_ofNat]; omega
@[simp] theorem encU_bit27 : bitAt (encU f4 u sub op) 27 = u.c := by
  have h := encU_27_1 f4 u sub op; exact bit_of_fld h
end

section
variable (f4 : BitVec 4) (m : MOp)
theorem encM_toNat :
    (encM f4 m).toNat = (((((((f4.toNat) * 2 + (BitVec.ofBool m.c).toNat) * 4 + m.mode.form.toNat) * 8 + m.pg.toNat) * 32 + m.mode.field.toNat) * 32 + m.base.toNat) * 32 + m.vd.toNat) * 128 + (0x2B#7).toNat := by
  simp only [encM, toNat_append]; rfl
@[simp] theorem encM_28_4 : fld (encM f4 m) 28 4 = f4 := by
  apply fld_eq; rw [encM_toNat]; simp only [BitVec.toNat_ofNat]; omega
@[simp] theorem encM_27_1 : fld (encM f4 m) 27 1 = BitVec.ofBool m.c := by
  apply fld_eq; rw [encM_toNat]; simp only [BitVec.toNat_ofNat]; omega
@[simp] theorem encM_25_2 : fld (encM f4 m) 25 2 = m.mode.form := by
  apply fld_eq; rw [encM_toNat]; simp only [BitVec.toNat_ofNat]; omega
@[simp] theorem encM_22_3 : fld (encM f4 m) 22 3 = m.pg := by
  apply fld_eq; rw [encM_toNat]; simp only [BitVec.toNat_ofNat]; omega
@[simp] theorem encM_17_5 : fld (encM f4 m) 17 5 = m.mode.field := by
  apply fld_eq; rw [encM_toNat]; simp only [BitVec.toNat_ofNat]; omega
@[simp] theorem encM_12_5 : fld (encM f4 m) 12 5 = m.base := by
  apply fld_eq; rw [encM_toNat]; simp only [BitVec.toNat_ofNat]; omega
@[simp] theorem encM_7_5 : fld (encM f4 m) 7 5 = m.vd := by
  apply fld_eq; rw [encM_toNat]; simp only [BitVec.toNat_ofNat]; omega
@[simp] theorem encM_0_7 : fld (encM f4 m) 0 7 = 0x2B#7 := by
  apply fld_eq; rw [encM_toNat]; simp only [BitVec.toNat_ofNat]; omega
@[simp] theorem encM_2_3 : fld (encM f4 m) 2 3 = fld (0x2B#7) 2 3 := by
  apply fld_eq; rw [encM_toNat]; simp only [BitVec.extractLsb'_toNat, Nat.shiftRight_eq_div_pow, BitVec.toNat_ofNat]; omega
@[simp] theorem encM_bit27 : bitAt (encM f4 m) 27 = m.c := by
  have h := encM_27_1 f4 m; exact bit_of_fld h
end

section
variable (f4 : BitVec 4) (m : SOp)
theorem encS_toNat :
    (encS f4 m).toNat = (((((((f4.toNat) * 2 + (BitVec.ofBool m.c).toNat) * 4 + (0#2).toNat) * 8 + m.pg.toNat) * 32 + m.stride.toNat) * 32 + m.base.toNat) * 32 + m.n8.toNat) * 128 + (0x2B#7).toNat := by
  simp only [encS, toNat_append]; rfl
@[simp] theorem encS_28_4 : fld (encS f4 m) 28 4 = f4 := by
  apply fld_eq; rw [encS_toNat]; simp only [BitVec.toNat_ofNat]; omega
@[simp] theorem encS_27_1 : fld (encS f4 m) 27 1 = BitVec.ofBool m.c := by
  apply fld_eq; rw [encS_toNat]; simp only [BitVec.toNat_ofNat]; omega
@[simp] theorem encS_25_2 : fld (encS f4 m) 25 2 = 0#2 := by
  apply fld_eq; rw [encS_toNat]; simp only [BitVec.toNat_ofNat]; omega
@[simp] theorem encS_22_3 : fld (encS f4 m) 22 3 = m.pg := by
  apply fld_eq; rw [encS_toNat]; simp only [BitVec.toNat_ofNat]; omega
@[simp] theorem encS_17_5 : fld (encS f4 m) 17 5 = m.stride := by
  apply fld_eq; rw [encS_toNat]; simp only [BitVec.toNat_ofNat]; omega
@[simp] theorem encS_12_5 : fld (encS f4 m) 12 5 = m.base := by
  apply fld_eq; rw [encS_toNat]; simp only [BitVec.toNat_ofNat]; omega
@[simp] theorem encS_7_5 : fld (encS f4 m) 7 5 = m.n8 := by
  apply fld_eq; rw [encS_toNat]; simp only [BitVec.toNat_ofNat]; omega
@[simp] theorem encS_0_7 : fld (encS f4 m) 0 7 = 0x2B#7 := by
  apply fld_eq; rw [encS_toNat]; simp only [BitVec.toNat_ofNat]; omega
@[simp] theorem encS_2_3 : fld (encS f4 m) 2 3 = fld (0x2B#7) 2 3 := by
  apply fld_eq; rw [encS_toNat]; simp only [BitVec.extractLsb'_toNat, Nat.shiftRight_eq_div_pow, BitVec.toNat_ofNat]; omega
@[simp] theorem encS_bit27 : bitAt (encS f4 m) 27 = m.c := by
  have h := encS_27_1 f4 m; exact bit_of_fld h
end

section
variable (f4 : BitVec 4) (f3 : BitVec 3) (p2 p1 pd : BitVec 6)
theorem encP_toNat :
    (encP f4 f3 p2 p1 pd).toNat = (((((f4.toNat) * 8 + f3.toNat) * 64 + p2.toNat) * 64 + p1.toNat) * 64 + pd.toNat) * 128 + (0x6B#7).toNat := by
  simp only [encP, toNat_append]; rfl
@[simp] theorem encP_28_4 : fld (encP f4 f3 p2 p1 pd) 28 4 = f4 := by
  apply fld_eq; rw [encP_toNat]; simp only [BitVec.toNat_ofNat]; omega
@[simp] theorem encP_25_3 : fld (encP f4 f3 p2 p1 pd) 25 3 = f3 := by
  apply fld_eq; rw [encP_toNat]; simp only [BitVec.toNat_ofNat]; omega
@[simp] theorem encP_19_6 : fld (encP f4 f3 p2 p1 pd) 19 6 = p2 := by
  apply fld_eq; rw [encP_toNat]; simp only [BitVec.toNat_ofNat]; omega
@[simp] theorem encP_13_6 : fld (encP f4 f3 p2 p1 pd) 13 6 = p1 := by
  apply fld_eq; rw [encP_toNat]; simp only [BitVec.toNat_ofNat]; omega
@[simp] theorem encP_7_6 : fld (encP f4 f3 p2 p1 pd) 7 6 = pd := by
  apply fld_eq; rw [encP_toNat]; simp only [BitVec.toNat_ofNat]; omega
@[simp] theorem encP_0_7 : fld (encP f4 f3 p2 p1 pd) 0 7 = 0x6B#7 := by
  apply fld_eq; rw [encP_toNat]; simp only [BitVec.toNat_ofNat]; omega
@[simp] theorem encP_2_3 : fld (encP f4 f3 p2 p1 pd) 2 3 = fld (0x6B#7) 2 3 := by
  apply fld_eq; rw [encP_toNat]; simp only [BitVec.extractLsb'_toNat, Nat.shiftRight_eq_div_pow, BitVec.toNat_ofNat]; omega
end

section
variable (a : BitVec 1) (b : BitVec 10) (c : BitVec 1) (d : BitVec 8) (rd : BitVec 5)
theorem encJw_toNat :
    (encJw a b c d rd).toNat = (((((a.toNat) * 1024 + b.toNat) * 2 + c.toNat) * 256 + d.toNat) * 32 + rd.toNat) * 128 + (0x6F#7).toNat := by
  simp only [encJw, toNat_append]; rfl
@[simp] theorem encJw_31_1 : fld (encJw a b c d rd) 31 1 = a := by
  apply fld_eq; rw [encJw_toNat]; simp only [BitVec.toNat_ofNat]; omega
@[simp] theorem encJw_21_10 : fld (encJw a b c d rd) 21 10 = b := by
  apply fld_eq; rw [encJw_toNat]; simp only [BitVec.toNat_ofNat]; omega
@[simp] theorem encJw_20_1 : fld (encJw a b c d rd) 20 1 = c := by
  apply fld_eq; rw [encJw_toNat]; simp only [BitVec.toNat_ofNat]; omega
@[simp] theorem encJw_12_8 : fld (encJw a b c d rd) 12 8 = d := by
  apply fld_eq; rw [encJw_toNat]; simp only [BitVec.toNat_ofNat]; omega
@[simp] theorem encJw_7_5 : fld (encJw a b c d rd) 7 5 = rd := by
  apply fld_eq; rw [encJw_toNat]; simp only [BitVec.toNat_ofNat]; omega
@[simp] theorem encJw_0_7 : fld (encJw a b c d rd) 0 7 = 0x6F#7 := by
  apply fld_eq; rw [encJw_toNat]; simp only [BitVec.toNat_ofNat]; omega
@[simp] theorem encJw_2_3 : fld (encJw a b c d rd) 2 3 = fld (0x6F#7) 2 3 := by
  apply fld_eq; rw [encJw_toNat]; simp only [BitVec.extractLsb'_toNat, Nat.shiftRight_eq_div_pow, BitVec.toNat_ofNat]; omega
end

section
variable (a : BitVec 1) (b : BitVec 6) (rs2 rs1 : BitVec 5) (f3 : BitVec 3) (c : BitVec 4) (d : BitVec 1)
theorem encBw_toNat :
    (encBw a b rs2 rs1 f3 c d).toNat = (((((((a.toNat) * 64 + b.toNat) * 32 + rs2.toNat) * 32 + rs1.toNat) * 8 + f3.toNat) * 16 + c.toNat) * 2 + d.toNat) * 128 + (0x63#7).toNat := by
  simp only [encBw, toNat_append]; rfl
@[simp] theorem encBw_31_1 : fld (encBw a b rs2 rs1 f3 c d) 31 1 = a := by
  apply fld_eq; rw [encBw_toNat]; simp only [BitVec.toNat_ofNat]; omega
@[simp] theorem encBw_25_6 : fld (encBw a b rs2 rs1 f3 c d) 25 6 = b := by
  apply fld_eq; rw [encBw_toNat]; simp only [BitVec.toNat_ofNat]; omega
@[simp] theorem encBw_20_5 : fld (encBw a b rs2 rs1 f3 c d) 20 5 = rs2 := by
  apply fld_eq; rw [encBw_toNat]; simp only [BitVec.toNat_ofNat]; omega
@[simp] theorem encBw_15_5 : fld (encBw a b rs2 rs1 f3 c d) 15 5 = rs1 := by
  apply fld_eq; rw [encBw_toNat]; simp only [BitVec.toNat_ofNat]; omega
@[simp] theorem encBw_12_3 : fld (encBw a b rs2 rs1 f3 c d) 12 3 = f3 := by
  apply fld_eq; rw [encBw_toNat]; simp only [BitVec.toNat_ofNat]; omega
@[simp] theorem encBw_8_4 : fld (encBw a b rs2 rs1 f3 c d) 8 4 = c := by
  apply fld_eq; rw [encBw_toNat]; simp only [BitVec.toNat_ofNat]; omega
@[simp] theorem encBw_7_1 : fld (encBw a b rs2 rs1 f3 c d) 7 1 = d := by
  apply fld_eq; rw [encBw_toNat]; simp only [BitVec.toNat_ofNat]; omega
@[simp] theorem encBw_0_7 : fld (encBw a b rs2 rs1 f3 c d) 0 7 = 0x63#7 := by
  apply fld_eq; rw [encBw_toNat]; simp only [BitVec.toNat_ofNat]; omega
@[simp] theorem encBw_2_3 : fld (encBw a b rs2 rs1 f3 c d) 2 3 = fld (0x63#7) 2 3 := by
  apply fld_eq; rw [encBw_toNat]; simp only [BitVec.extractLsb'_toNat, Nat.shiftRight_eq_div_pow, BitVec.toNat_ofNat]; omega
end

section
variable (imm : BitVec 20) (rd : BitVec 5) (op : BitVec 7)
theorem encUw_toNat :
    (encUw imm rd op).toNat = ((imm.toNat) * 32 + rd.toNat) * 128 + op.toNat := by
  simp only [encUw, toNat_append]; rfl
@[simp] theorem encUw_12_20 : fld (encUw imm rd op) 12 20 = imm := by
  apply fld_eq; rw [encUw_toNat]; omega
@[simp] theorem encUw_7_5 : fld (encUw imm rd op) 7 5 = rd := by
  apply fld_eq; rw [encUw_toNat]; omega
@[simp] theorem encUw_0_7 : fld (encUw imm rd op) 0 7 = op := by
  apply fld_eq; rw [encUw_toNat]; omega
@[simp] theorem encUw_2_3 : fld (encUw imm rd op) 2 3 = fld op 2 3 := by
  apply fld_eq; rw [encUw_toNat]; simp only [BitVec.extractLsb'_toNat, Nat.shiftRight_eq_div_pow]; omega
end

section
variable (off : BitVec 16) (ps : BitVec 6) (cond : BitVec 3)
theorem encB_toNat :
    (encB off ps cond).toNat = (((off.toNat) * 64 + ps.toNat) * 8 + cond.toNat) * 128 + (0x77#7).toNat := by
  simp only [encB, toNat_append]; rfl
@[simp] theorem encB_16_16 : fld (encB off ps cond) 16 16 = off := by
  apply fld_eq; rw [encB_toNat]; simp only [BitVec.toNat_ofNat]; omega
@[simp] theorem encB_10_6 : fld (encB off ps cond) 10 6 = ps := by
  apply fld_eq; rw [encB_toNat]; simp only [BitVec.toNat_ofNat]; omega
@[simp] theorem encB_7_3 : fld (encB off ps cond) 7 3 = cond := by
  apply fld_eq; rw [encB_toNat]; simp only [BitVec.toNat_ofNat]; omega
@[simp] theorem encB_0_7 : fld (encB off ps cond) 0 7 = 0x77#7 := by
  apply fld_eq; rw [encB_toNat]; simp only [BitVec.toNat_ofNat]; omega
@[simp] theorem encB_2_3 : fld (encB off ps cond) 2 3 = fld (0x77#7) 2 3 := by
  apply fld_eq; rw [encB_toNat]; simp only [BitVec.extractLsb'_toNat, Nat.shiftRight_eq_div_pow, BitVec.toNat_ofNat]; omega
end


end Sys2Proof
end

