-- ==== Sys2Proof/Laws/Package.lean ====
section
/-!
SUPPORT. What the updates of the package's own records leave and set: lost writes in an agent's view, requests, passing time, the Ordinal's
entries and the sequences; and what the operations that many events share can do.
-/

namespace Sys2Proof.Machine

/-! ## Lost writes -/

section
variable (ps : List (Agent × Agent)) (s : State)
@[simp] theorem State.viewWrites_hart : (s.viewWrites ps).hart = s.hart := rfl
@[simp] theorem State.viewWrites_mem : (s.viewWrites ps).mem = s.mem := rfl
@[simp] theorem State.viewWrites_others : (s.viewWrites ps).others = s.others := rfl
@[simp] theorem State.viewWrites_launches : (s.viewWrites ps).launches = s.launches := rfl
@[simp] theorem State.viewWrites_length : (s.viewWrites ps).lost.length = s.lost.length := by simp [State.viewWrites]
end

/-- A fence only adds to the views of a lost write: its writer and its address stay. -/
theorem fenceViews_same (id : Nat) (x y : Agent) (l : LostWrite) :
    (fenceViews id x y l).writer = l.writer ∧ (fenceViews id x y l).va = l.va ∧ ∀ v ∈ l.views, v ∈ (fenceViews id x y l).views := by
  unfold fenceViews
  split
  · exact ⟨rfl, rfl, fun _ h => List.mem_append_left _ h⟩
  · exact ⟨rfl, rfl, fun _ h => h⟩

/-! ## Requests and passing time -/

section
variable (n : Nat) (h : Hart)
@[simp] theorem Hart.request_id : (h.request n).id = h.id := rfl
@[simp] theorem Hart.request_pc : (h.request n).pc = h.pc := rfl
@[simp] theorem Hart.request_x : (h.request n).x = h.x := rfl
@[simp] theorem Hart.request_job : (h.request n).job = h.job := rfl
@[simp] theorem Hart.request_atOnce : (h.request n).atOnce = false := rfl
end

section
variable (q : Queue)
@[simp] theorem Queue.received_prio : q.received.prio = q.cprio := rfl
@[simp] theorem Queue.received_age : q.received.age = 0 := rfl
@[simp] theorem Queue.received_waited : q.received.waited = 0 := rfl
@[simp] theorem Queue.received_head : q.received.head = q.head := rfl
/-- No level is due to a queue that has just received a hart. -/
@[simp] theorem Queue.eff_received : q.received.eff = q.cprio := by simp [Queue.eff, Queue.levelDue, Queue.received]
end

section
variable (ticks : Nat) (cycles : List Nat) (s : State)
@[simp] theorem State.elapse_time : (s.elapse ticks cycles).time = s.time + ticks := rfl
@[simp] theorem State.elapse_mem : (s.elapse ticks cycles).mem = s.mem := rfl
@[simp] theorem State.elapse_launches : (s.elapse ticks cycles).launches = s.launches := rfl
@[simp] theorem State.elapse_contexts : (s.elapse ticks cycles).contexts = s.contexts := rfl
@[simp] theorem State.elapse_ordinal : (s.elapse ticks cycles).ordinal = s.ordinal := rfl
@[simp] theorem State.elapse_regs : (s.elapse ticks cycles).regs = s.regs := rfl
end

/-- Time that may pass stays within the bound of the renewal at the front of every hart's queue, of every save and of every wait
for a cancellation's answer, unless the device is stopped. -/
theorem State.mayElapse_bounds {s : State} {ticks : Nat} (h : s.mayElapse ticks = true) (h1 : s.status.fatal ≠ 1) (h2 : s.status.fatal ≠ 2) :
    (∀ c ∈ s.contexts, c.saved = true ∨ s.time + ticks ≤ c.startTick + 160) ∧
    (∀ g ∈ s.harts, ∀ c, g.cancel = some c → s.time + ticks ≤ c.since + 300) ∧ s.ordinalInTime (s.time + ticks) = true := by
  simp only [State.mayElapse, Bool.or_eq_true, Bool.and_eq_true, decide_eq_true_eq, h1, h2, false_or,
    List.all_eq_true] at h
  obtain ⟨⟨⟨⟨⟨⟨-, ho⟩, hh⟩, -⟩, hc⟩, -⟩, -⟩ := h
  refine ⟨fun c hm => by simpa using hc c hm, fun g hm c hg => ?_, ho⟩
  have := (hh g hm).2
  rw [hg] at this
  simpa using this

/-! ## The Ordinal and the sequences -/

section
variable (v : Sequence) (s : State)
@[simp] theorem putSeq_hart : (putSeq v s).hart = s.hart := rfl
@[simp] theorem putSeq_mem : (putSeq v s).mem = s.mem := rfl
@[simp] theorem putSeq_regs : (putSeq v s).regs = s.regs := rfl
@[simp] theorem putSeq_ordinal : (putSeq v s).ordinal = s.ordinal := rfl
@[simp] theorem putSeq_self : (putSeq v s).seqAt v.id = v := by simp [putSeq, State.seqAt]
end

section
variable (e : OrdEntry)
@[simp] theorem OrdEntry.freed_comm : e.freed.comm = e.comm := by unfold OrdEntry.freed; split <;> rfl
@[simp] theorem OrdEntry.freed_tag : e.freed.tag = e.tag := by unfold OrdEntry.freed; split <;> rfl
@[simp] theorem OrdEntry.freed_num : e.freed.num = e.num := by unfold OrdEntry.freed; split <;> rfl
@[simp] theorem OrdEntry.freed_regs : e.freed.regs = e.regs := by unfold OrdEntry.freed; split <;> rfl
@[simp] theorem OrdEntry.freed_void : e.freed.void = e.void := by unfold OrdEntry.freed; split <;> rfl
@[simp] theorem OrdEntry.freed_finished : e.freed.finished = e.finished := by unfold OrdEntry.freed; split <;> rfl
@[simp] theorem OrdEntry.freed_answers : e.freed.answers = e.answers := by unfold OrdEntry.freed; split <;> rfl
end

/-- The end of a registration touches no memory, and of a hart only what a cancellation that it awaits may still be answered. -/
theorem endRegistration_same (r : Registration) (num status : Nat) (s : State) :
    (endRegistration r num status s).mem = s.mem ∧ (endRegistration r num status s).hart = s.hart.outlives r status ∧
      (endRegistration r num status s).regs = s.regs.erase r := ⟨rfl, rfl, rfl⟩

section
variable (r : Registration) (n : Nat) (h : Hart)
@[simp] theorem Hart.outlives_id : (h.outlives r n).id = h.id := rfl
@[simp] theorem Hart.outlives_x : (h.outlives r n).x = h.x := rfl
@[simp] theorem Hart.outlives_pc : (h.outlives r n).pc = h.pc := rfl
/-- A hart that awaits no answer to a cancellation of it keeps everything. -/
theorem Hart.outlives_none (hc : h.cancel = none) : h.outlives r n = h := by cases h; simp_all [Hart.outlives]
end

/-! ## Lost writes (R278) -/

section
variable (s : State)
@[simp] theorem State.settle_hart : s.settle.hart = s.hart := rfl
@[simp] theorem State.settle_mem : s.settle.mem = s.mem := rfl
@[simp] theorem State.settle_time : s.settle.time = s.time := rfl
@[simp] theorem State.settle_launches : s.settle.launches = s.launches := rfl
@[simp] theorem State.settle_queues : s.settle.queues = s.queues := rfl
@[simp] theorem State.settle_regs : s.settle.regs = s.regs := rfl
@[simp] theorem State.settle_ordinal : s.settle.ordinal = s.ordinal := rfl
variable (p : Writer → Bool)
@[simp] theorem State.forget_hart : (s.forget p).hart = s.hart := rfl
@[simp] theorem State.forget_mem : (s.forget p).mem = s.mem := rfl
@[simp] theorem State.forget_launches : (s.forget p).launches = s.launches := rfl
@[simp] theorem State.forget_regs : (s.forget p).regs = s.regs := rfl
end

/-- A state of which no write is lost settles as it is. -/
theorem State.settle_nil {s : State} (h : s.lost = []) : s.settle = s := by
  cases s
  simp_all [State.settle, countLost]

/-! ## A hart that another package has not answered -/

section
variable (r : Option (RemoteKind × Nat × Word)) (s : State)
@[simp] theorem State.holding_mem : (s.holding r).mem = s.mem := by unfold State.holding; split <;> rfl
@[simp] theorem State.holding_pc : (s.holding r).hart.pc = s.hart.pc := by unfold State.holding; split <;> rfl
@[simp] theorem State.holding_x : (s.holding r).hart.x = s.hart.x := by unfold State.holding; split <;> rfl
@[simp] theorem State.holding_none : s.holding none = s := rfl
end

/-- What a hart has noted of an access without an answer is found by that access's kind, element and address. -/
theorem Hart.unanswered_of {h : Hart} {u : Unanswered} (e : h.remoteFault = some u) :
    h.unanswered u.kind u.elem u.va = some u.since := by
  simp [Hart.unanswered, e]

/-- What the Ordinal decides here changes registrations only, and neither ends nor adds one. -/
theorem decideHere_same (e : OrdEntry) (num status : Nat) (s : State) :
    (decideHere e num status s).mem = s.mem ∧ (decideHere e num status s).hart = s.hart ∧
      (decideHere e num status s).ordinal = s.ordinal ∧ (decideHere e num status s).regs.length = s.regs.length :=
  ⟨rfl, rfl, rfl, by simp [decideHere]⟩

/-! ## Passes in the mode of their CLAUSE -/

/-- Where a clause's mode is the hart's own, running its words there is running them. -/
theorem inMode_same (x : Op Unit) (s t : State) (h : x.run s = .ok () t) (ht : t.hart.mode = s.hart.mode) :
    (inMode s.hart.mode x).run s = .ok () t := by
  have hs : ({ s with hart := { s.hart with mode := s.hart.mode, upsets := s.hart.upsets } } : State) = s := rfl
  simp only [inMode, Op.run_bind, Op.run_getH, Op.run_modH, Op.run_tryCatch, if_true, hs, h]
  simp [Hart.backTo, ← ht]

end Sys2Proof.Machine
end

