-- ==== Sys2Proof/Laws/PerInstr.lean ====
section
/-!
SUPPORT. The family RoundTrip: an instruction's encoding decodes to it, one lemma for each constructor of Instr.
-/

namespace Sys2Proof

/-- A word whose low two bits are 0b11 is decoded as 32 bits (R91). -/
theorem decode_word (w : BitVec 32) (rest : List Byte) (h : fld w 0 2 = 3#2) :
    decode (toBytes 4 w.toNat ++ rest) = (match decodeWord w with
      | .ok i => .ok (i, rest)
      | .error e => .error e) := by
  have e1 : (BitVec.ofNat 8 (w.toNat / 256) ++ BitVec.ofNat 8 w.toNat : BitVec 16) = fld w 0 16 := by
    symm; apply fld_eq; rw [toNat_append]; simp only [BitVec.toNat_ofNat]; omega
  have e2 : (BitVec.ofNat 8 (w.toNat / 256 / 256 / 256) ++ BitVec.ofNat 8 (w.toNat / 256 / 256) ++ BitVec.ofNat 8 (w.toNat / 256) ++
      BitVec.ofNat 8 w.toNat : BitVec 32) = w := by
    apply BitVec.eq_of_toNat_eq
    rw [toNat_append, toNat_append, toNat_append]; simp only [BitVec.toNat_ofNat]; omega
  have e3 : isHalf (fld w 0 16) = false := by
    have : fld (fld w 0 16) 0 2 = fld w 0 2 := by
      apply fld_eq; simp only [BitVec.extractLsb'_toNat, Nat.shiftRight_eq_div_pow]; omega
    simp [isHalf, this, h]
  simp only [toBytes, List.cons_append, List.nil_append, decode, e1, e3, e2]
  rfl

/-- A halfword whose low two bits are not 0b11 is a compressed instruction (R91). -/
theorem decode_half (h : BitVec 16) (op : Rv) (rest : List Byte) (h3 : fld h 0 2 ≠ 3#2) (e : expandHalf h = some op) :
    decode (toBytes 2 h.toNat ++ rest) = .ok (.rv op (some h), rest) := by
  have e1 : (BitVec.ofNat 8 (h.toNat / 256) ++ BitVec.ofNat 8 h.toNat : BitVec 16) = h := by
    apply BitVec.eq_of_toNat_eq
    rw [toNat_append]; simp only [BitVec.toNat_ofNat]; omega
  have e3 : isHalf h = true := by simp [isHalf, h3]
  simp only [toBytes, List.cons_append, List.nil_append, decode, e1, e3, decodeHalf, e]
  rfl

theorem low_of_op {w : BitVec 32} {op : BitVec 7} (h : fld w 0 7 = op) (h2 : fld op 0 2 = 3#2) : fld w 0 2 = 3#2 := by
  subst h
  rw [← h2]; symm
  apply fld_eq; simp only [BitVec.extractLsb'_toNat, Nat.shiftRight_eq_div_pow]; omega

/-- Bits [4:2] of an opcode are 111 (R91). -/
@[simp] theorem fld_long : ∀ op : BitVec 7, (fld op 2 3 = 7#3) = (op &&& 0x1C#7 = 0x1C#7) := by decide

/-! ## The operands of the vector formats, read back -/

@[simp] theorem scopeOf_code (s : Scope) : scopeOf s.code.toNat = some s := by cases s <;> rfl

@[simp] theorem scopeOf_wide (s : Scope) : scopeOf (0#2 ++ s.code).toNat = some s := by cases s <;> rfl

@[simp] theorem nibble_lt (n : BitVec 4) : (n.toNat % 32 < 16) = True := by
  have : n.toNat < 16 := n.isLt
  simp; omega

@[simp] theorem withOrder_encCo (f4 : BitVec 4) (o : Order) (rs2 rs1 : BitVec 5) (f3 rt : BitVec 3) (k : Order → Dec) :
    withOrder (encCo f4 o rs2 rs1 f3 rt) k = k o := by
  simp [withOrder]

@[simp] theorem src2Of_encV (f4 : BitVec 4) (v : VOp) (op : BitVec 7) : src2Of (encV f4 v op) = some v.b := by
  obtain ⟨c, pg, vd, vs2, b⟩ := v
  cases b <;> simp [src2Of, Src2.form, Src2.field]

@[simp] theorem vopOf_encV (f4 : BitVec 4) (v : VOp) (op : BitVec 7) (b : Src2) :
    vopOf (encV f4 v op) b = { v with b := b } := by simp [vopOf]

@[simp] theorem withSrc_encV (f4 : BitVec 4) (v : VOp) (op : BitVec 7) (ok : Src2 → Bool) (k : VOp → Instr) :
    withSrc (encV f4 v op) ok k = if ok v.b then .ok (k v) else .error .badForm := by simp [withSrc]

theorem form_ne (b : Src2) : b.form ≠ 3#2 := by cases b <;> simp [Src2.form]

@[simp] theorem form_eq (b : Src2) : (b.form = 3#2) = False := by simp [form_ne]

@[simp] theorem uopOf_encU (f4 : BitVec 4) (u : UOp) (sub : BitVec 5) (op : BitVec 7) : uopOf (encU f4 u sub op) = u := by
  simp [uopOf]

@[simp] theorem vmodeOf_encM (f4 : BitVec 4) (m : MOp) : vmodeOf (encM f4 m) = some m.mode := by
  obtain ⟨c, pg, vd, base, mode⟩ := m
  cases mode with
  | td n =>
    have : n.toNat < 16 := n.isLt
    simp [vmodeOf, VMode.form, VMode.field, Nat.mod_eq_of_lt (show n.toNat < 32 by omega), this]
  | _ => simp [vmodeOf, VMode.form, VMode.field]

@[simp] theorem withMode_encM (f4 : BitVec 4) (m : MOp) (ok : VMode → Bool) (k : MOp → Instr) :
    withMode (encM f4 m) ok k = if ok m.mode then .ok (k m) else .error .badForm := by simp [withMode]

@[simp] theorem sopOf_encS (f4 : BitVec 4) (m : SOp) : sopOf (encS f4 m) = m := by simp [sopOf]

@[simp] theorem etypeOf_field (t : EType) : etypeOf t.field.toNat = some t := by cases t <;> rfl

@[simp] theorem aOperandOf_field (a : AOperand) : aOperandOf a.field = some a := by
  cases a with
  | mt n =>
    have : n.toNat < 8 := n.isLt
    simp [aOperandOf, AOperand.field, Nat.mod_eq_of_lt (show n.toNat < 32 by omega), this]
  | latch => rfl

@[simp] theorem mtOf_setWidth (n : BitVec 3) : mtOf (n.setWidth 5) = some n := by
  have : n.toNat < 8 := n.isLt
  simp [mtOf, Nat.mod_eq_of_lt (show n.toNat < 32 by omega), this]

@[simp] theorem accOf_setWidth (n : BitVec 2) (k : BitVec 2 → Dec) : accOf (n.setWidth 3) k = k n := by
  have : n.toNat < 4 := n.isLt
  simp [accOf, Nat.mod_eq_of_lt (show n.toNat < 8 by omega), this]

@[simp] theorem orderZero_encCo (f4 : BitVec 4) (rs2 rs1 : BitVec 5) (f3 rt : BitVec 3) :
    orderZero (encCo f4 noOrder rs2 rs1 f3 rt) = true := by simp [orderZero, noOrder, Scope.code]

theorem x5_lt (r : BitVec 5) : (x5 r).toNat < 32 := by
  have : r.toNat < 32 := r.isLt
  simp [x5, Nat.mod_eq_of_lt (show r.toNat < 64 by omega), this]

@[simp] theorem x5_narrow (r : BitVec 5) : (x5 r).setWidth 5 = r := by simp [x5]

/-! ## Scalar words -/

theorem decodeWord_csr (a : CsrAcc) (csr : BitVec 12) : decodeWord (encCsr a csr) = .ok (csrInstr a.op a.rd a.src csr) := by
  obtain ⟨op, rd, src⟩ := a
  cases src <;> cases op <;> simp [encCsr, decodeWord, decodeBase, decodeSystem, CsrOp.code]

theorem csr_low (a : CsrAcc) (csr : BitVec 12) : fld (encCsr a csr) 0 2 = 3#2 := by
  obtain ⟨op, rd, src⟩ := a
  cases src <;> exact low_of_op (encI_0_7 ..) rfl

theorem csr_bd : ∀ n : BitVec 4, (0x81#8 ++ n ≠ 0x800#12) ∧ (0x81#8 ++ n ≠ 0x801#12) ∧ (0x81#8 ++ n ≠ 0x802#12) ∧
    (0x81#8 ++ n ≠ 0x805#12) ∧ 0x810 ≤ (0x81#8 ++ n).toNat ∧ (0x81#8 ++ n).toNat < 0x820 ∧
    (0x81#8 ++ n : BitVec 12).setWidth 4 = n := by decide

theorem csr_pool : ∀ k : BitVec 2, k ≠ 3 → (0x1F0#10 ++ k ≠ 0x800#12) ∧ (0x1F0#10 ++ k ≠ 0x801#12) ∧ (0x1F0#10 ++ k ≠ 0x802#12) ∧
    (0x1F0#10 ++ k ≠ 0x805#12) ∧ ¬ (0x810 ≤ (0x1F0#10 ++ k).toNat ∧ (0x1F0#10 ++ k).toNat < 0x820) ∧
    (0x7C0 ≤ (0x1F0#10 ++ k).toNat ∧ (0x1F0#10 ++ k).toNat ≤ 0x7C2) ∧ (0x1F0#10 ++ k : BitVec 12).setWidth 2 = k := by decide

theorem csrInstr_bd (a : CsrAcc) (n : BitVec 4) (h : a.writes = true) : csrInstr a.op a.rd a.src (0x81#8 ++ n) = .bdCsrWrite n a := by
  obtain ⟨h1, h2, h3, h4, h5, h6, h7⟩ := csr_bd n
  unfold csrInstr
  rw [if_pos h, if_neg h1, if_neg h2, if_neg h3, if_neg h4, if_pos ⟨h5, h6⟩, h7]

theorem csrInstr_pool (a : CsrAcc) (k : BitVec 2) (hk : k ≠ 3) (h : a.writes = true) :
    csrInstr a.op a.rd a.src (0x1F0#10 ++ k) = .poolBoundaryWrite k a := by
  obtain ⟨h1, h2, h3, h4, h5, h6, h7⟩ := csr_pool k hk
  unfold csrInstr
  rw [if_pos h, if_neg h1, if_neg h2, if_neg h3, if_neg h4, if_neg h5, if_pos h6, h7]

theorem csrInstr_other (a : CsrAcc) (n : BitVec 12) (hn : csrHasOwnRow n = false) (h : a.writes = true) :
    csrInstr a.op a.rd a.src n = .registerWrite (.csr n a) := by
  simp only [csrHasOwnRow, Bool.or_eq_false_iff, Bool.and_eq_false_iff, decide_eq_false_iff_not] at hn
  obtain ⟨⟨⟨⟨⟨h1, h2⟩, h3⟩, h4⟩, h5⟩, h6⟩ := hn
  unfold csrInstr
  rw [if_pos h, if_neg h1, if_neg h2, if_neg h3, if_neg h4, if_neg (by omega), if_neg (by omega)]

theorem fld_join {n lo l1 l2 hi : Nat} (o : BitVec n) (h : hi = lo + l1) : fld o hi l2 ++ fld o lo l1 = fld o lo (l2 + l1) :=
  BitVec.extractLsb'_append_extractLsb'_eq_extractLsb' h

@[simp] theorem fld_hi6 (x y : BitVec 6) : fld (x ++ y : BitVec 12) 6 6 = x := by
  apply fld_eq; rw [toNat_append]; omega
@[simp] theorem fld_lo6 (x y : BitVec 6) : fld (x ++ y : BitVec 12) 0 6 = y := by
  apply fld_eq; rw [toNat_append]; omega

@[simp] theorem fld_amo (f : BitVec 5) (a b : BitVec 1) : fld (f ++ a ++ b : BitVec 7) 2 5 = f := by
  apply fld_eq; rw [toNat_append, toNat_append]; omega
@[simp] theorem bit_aq (f : BitVec 5) (a b : Bool) : bitAt (f ++ BitVec.ofBool a ++ BitVec.ofBool b : BitVec 7) 1 = a :=
  bit_of_fld (by apply fld_eq; rw [toNat_append, toNat_append]; omega)
@[simp] theorem bit_rl (f : BitVec 5) (a b : Bool) : bitAt (f ++ BitVec.ofBool a ++ BitVec.ofBool b : BitVec 7) 0 = b :=
  bit_of_fld (by apply fld_eq; rw [toNat_append, toNat_append]; omega)
@[simp] theorem fld_fp_hi (f : BitVec 5) (a : BitVec 2) : fld (f ++ a : BitVec 7) 2 5 = f := by
  apply fld_eq; rw [toNat_append]; omega
@[simp] theorem fld_fp_lo (f : BitVec 5) (a : BitVec 2) : fld (f ++ a : BitVec 7) 0 2 = a := by
  apply fld_eq; rw [toNat_append]; omega
@[simp] theorem fld_fence_a (a b c : BitVec 4) : fld (a ++ b ++ c : BitVec 12) 8 4 = a := by
  apply fld_eq; rw [toNat_append, toNat_append]; omega
@[simp] theorem fld_fence_b (a b c : BitVec 4) : fld (a ++ b ++ c : BitVec 12) 4 4 = b := by
  apply fld_eq; rw [toNat_append, toNat_append]; omega
@[simp] theorem fld_fence_c (a b c : BitVec 4) : fld (a ++ b ++ c : BitVec 12) 0 4 = c := by
  apply fld_eq; rw [toNat_append, toNat_append]; omega

theorem slliUw_field (sh : BitVec 6) : (fld (2#6 ++ sh : BitVec 12) 5 7).toNat = 4 ∨ (fld (2#6 ++ sh : BitVec 12) 5 7).toNat = 5 := by
  rw [BitVec.extractLsb'_toNat, Nat.shiftRight_eq_div_pow, toNat_append, BitVec.toNat_ofNat]
  omega

theorem jal_offset (o : BitVec 20) : (fld o 19 1 ++ fld o 11 8 ++ fld o 10 1 ++ fld o 0 10 : BitVec 20) = o := by
  rw [fld_join (lo := 11) (l1 := 8) (hi := 19) (l2 := 1) o rfl, fld_join (lo := 10) (l1 := 1) (hi := 11) (l2 := 9) o rfl,
    fld_join (lo := 0) (l1 := 10) (hi := 10) (l2 := 10) o rfl]
  exact BitVec.extractLsb'_eq_self

theorem branch_offset (o : BitVec 12) : (fld o 11 1 ++ fld o 10 1 ++ fld o 4 6 ++ fld o 0 4 : BitVec 12) = o := by
  rw [fld_join (lo := 10) (l1 := 1) (hi := 11) (l2 := 1) o rfl, fld_join (lo := 4) (l1 := 6) (hi := 10) (l2 := 2) o rfl,
    fld_join (lo := 0) (l1 := 4) (hi := 4) (l2 := 8) o rfl]
  exact BitVec.extractLsb'_eq_self

theorem store_offset (o : BitVec 12) : (fld o 5 7 ++ fld o 0 5 : BitVec 12) = o := by
  rw [fld_join (lo := 0) (l1 := 5) (hi := 5) (l2 := 7) o rfl]
  exact BitVec.extractLsb'_eq_self

@[simp] theorem brOpOf_code (o : BrOp) : brOpOf o.code.toNat = some o := by cases o <;> rfl
@[simp] theorem ldOpOf_code (o : LdOp) : ldOpOf o.code.toNat = some o := by cases o <;> rfl
@[simp] theorem stOpOf_code (o : StOp) : stOpOf o.code.toNat = some o := by cases o <;> rfl
@[simp] theorem ffmtOf_code (f : FFmt) : ffmtOf f.code.toNat = some f := by cases f <;> rfl
@[simp] theorem ifmtOf_code (f : IFmt) : ifmtOf f.code.toNat = some f := by cases f <;> rfl

/-- The word of every well-formed scalar instruction decodes to it. -/
theorem decodeWord_rv (op : Rv) (hw : op.wf = true) : decodeWord (encodeRv op) = .ok (.rv op none) := by
  cases op with
  | lui rd imm => change decodeWord (encUw imm rd 0x37) = _; simp [decodeWord, decodeBase, rv]
  | auipc rd imm => change decodeWord (encUw imm rd 0x17) = _; simp [decodeWord, decodeBase, rv]
  | jal rd o =>
    change decodeWord (encJw (fld o 19 1) (fld o 0 10) (fld o 10 1) (fld o 11 8) rd) = _
    simp [decodeWord, decodeBase, rv, jal_offset]
  | jalr rd rs1 imm => simp [encodeRv, decodeWord, decodeBase, rv, need]
  | branch op rs1 rs2 o =>
    change decodeWord (encBw (fld o 11 1) (fld o 4 6) rs2 rs1 op.code (fld o 0 4) (fld o 10 1)) = _
    simp [decodeWord, decodeBase, rv, branch_offset]
  | load op rd rs1 imm => simp [encodeRv, decodeWord, decodeBase, rv]
  | store op rs1 rs2 imm => simp [encodeRv, decodeWord, decodeBase, rv, store_offset]
  | opImm op rd rs1 imm => cases op <;> simp [encodeRv, decodeWord, decodeBase, rv, ofOpt, opImmOf, ImmOp.code]
  | shImm op rd rs1 sh =>
    cases op with
    | slliUw => rcases slliUw_field sh with h | h <;> simp only [encodeRv, decodeWord, decodeBase, rv, ofOpt, opImm32Of, encI_0_7, encI_2_3, encI_12_3, encI_25_7, encI_26_6, encI_20_6, h] <;> simp
    | _ => simp [encodeRv, decodeWord, decodeBase, rv, ofOpt, opImmOf]
  | addiw rd rs1 imm => simp [encodeRv, decodeWord, decodeBase, rv, ofOpt, opImm32Of]
  | shImmW op rd rs1 sh => cases op <;> simp [encodeRv, decodeWord, decodeBase, rv, ofOpt, opImm32Of]
  | alu op rd rs1 rs2 => cases op <;> simp [encodeRv, decodeWord, decodeBase, rv, ofOpt, aluOpOf, alu32Of, AluOp.codes]
  | aluW op rd rs1 rs2 => cases op <;> simp [encodeRv, decodeWord, decodeBase, rv, ofOpt, alu32Of, AluWOp.codes]
  | un op rd rs1 => cases op <;> simp [fld, encodeRv, decodeWord, decodeBase, rv, ofOpt, opImmOf, opImm32Of, alu32Of, UnOp.codes]
  | fence fm p s rd rs1 => simp [encodeRv, decodeWord, decodeBase, rv]
  | fenceI imm rd rs1 => simp [encodeRv, decodeWord, decodeBase, rv]
  | ecall => rfl
  | ebreak => rfl
  | wfi => rfl
  | csrRead op v rd csr => cases op <;> cases v <;> simp_all [encodeRv, decodeWord, decodeBase, rv, decodeSystem, CsrOp.code, csrInstr, CsrAcc.writes, Rv.wf]
  | lr d aq rl rd rs1 => cases d <;> simp [encodeRv, decodeWord, decodeBase, rv, ofOpt, encAmo, amoOf]
  | sc d aq rl rd rs1 rs2 => cases d <;> simp [encodeRv, decodeWord, decodeBase, rv, ofOpt, encAmo, amoOf]
  | amo op d aq rl rd rs1 rs2 => cases d <;> cases op <;> simp [encodeRv, decodeWord, decodeBase, rv, ofOpt, encAmo, amoOf, AmoOp.code, amoOpOf]
  | fload f rd rs1 imm => cases f <;> simp [encodeRv, decodeWord, decodeBase, rv]
  | fstore f rs1 rs2 imm => cases f <;> simp [encodeRv, decodeWord, decodeBase, rv, store_offset]
  | farith op f rm rd rs1 rs2 => cases op <;> cases f <;> simp_all [encodeRv, decodeWord, decodeBase, rv, ofOpt, encFp, opFpOf, FFmt.code, ffmtOf, Rv.wf]
  | fsqrt f rm rd rs1 => cases f <;> simp_all [encodeRv, decodeWord, decodeBase, rv, ofOpt, encFp, opFpOf, FFmt.code, ffmtOf, Rv.wf]
  | fma op f rm rd rs1 rs2 rs3 => cases op <;> cases f <;> simp_all [encodeRv, decodeWord, decodeBase, rv, decodeFma, need, FFmt.code, ffmtOf, Rv.wf]
  | fsgnj op f rd rs1 rs2 => cases op <;> cases f <;> simp [encodeRv, decodeWord, decodeBase, rv, ofOpt, encFp, opFpOf, FFmt.code, ffmtOf]
  | fminmax m f rd rs1 rs2 => cases m <;> cases f <;> simp [encodeRv, decodeWord, decodeBase, rv, ofOpt, encFp, opFpOf, FFmt.code, ffmtOf]
  | fcmp op f rd rs1 rs2 => cases op <;> cases f <;> simp [encodeRv, decodeWord, decodeBase, rv, ofOpt, encFp, opFpOf, FFmt.code, ffmtOf]
  | fclass f rd rs1 => cases f <;> simp [encodeRv, decodeWord, decodeBase, rv, ofOpt, encFp, opFpOf, FFmt.code, ffmtOf]
  | fcvtFF d s rm rd rs1 => cases d <;> cases s <;> simp_all [encodeRv, decodeWord, decodeBase, rv, ofOpt, encFp, opFpOf, FFmt.code, ffmtOf, Rv.wf]
  | fcvtIF i f rm rd rs1 => cases i <;> cases f <;> simp_all [encodeRv, decodeWord, decodeBase, rv, ofOpt, encFp, opFpOf, FFmt.code, IFmt.code, ffmtOf, ifmtOf, Rv.wf]
  | fcvtFI f i rm rd rs1 => cases i <;> cases f <;> simp_all [encodeRv, decodeWord, decodeBase, rv, ofOpt, encFp, opFpOf, FFmt.code, IFmt.code, ffmtOf, ifmtOf, Rv.wf]
  | fmvXF f rd rs1 => cases f <;> simp [encodeRv, decodeWord, decodeBase, rv, ofOpt, encFp, opFpOf, FFmt.code, ffmtOf]
  | fmvFX f rd rs1 => cases f <;> simp [encodeRv, decodeWord, decodeBase, rv, ofOpt, encFp, opFpOf, FFmt.code, ffmtOf]

theorem rv_low (op : Rv) : fld (encodeRv op) 0 2 = 3#2 := by
  cases op with
  | lui rd imm => exact low_of_op (encUw_0_7 ..) rfl
  | auipc rd imm => exact low_of_op (encUw_0_7 ..) rfl
  | jal rd o => exact low_of_op (encJw_0_7 ..) rfl
  | branch op rs1 rs2 o => exact low_of_op (encBw_0_7 ..) rfl
  | ecall => decide
  | ebreak => decide
  | wfi => decide
  | shImm op rd rs1 sh => cases op <;> exact low_of_op (encI_0_7 ..) rfl
  | shImmW op rd rs1 sh => cases op <;> exact low_of_op (encR_0_7 ..) rfl
  | alu op rd rs1 rs2 => cases op <;> exact low_of_op (encR_0_7 ..) rfl
  | un op rd rs1 => cases op <;> exact low_of_op (encI_0_7 ..) rfl
  | fma op f rm rd rs1 rs2 rs3 => cases op <;> exact low_of_op (encR_0_7 ..) rfl
  | jalr _ _ _ | load _ _ _ _ | opImm _ _ _ _ | addiw _ _ _ | fence _ _ _ _ _ | fenceI _ _ _ | csrRead _ _ _ _ | fload _ _ _ _ =>
    exact low_of_op (encI_0_7 ..) rfl
  | _ => exact low_of_op (encR_0_7 ..) rfl

/-! ## The family -/

section
set_option linter.unusedSimpArgs false
set_option Elab.async false

def Laws.RoundTrip.Statement (i : Instr) : Prop :=
  i.wf = true → (∀ op h, i = .rv op (some h) → expandHalf h = some op) →
    ∀ bs rest, encode i = some bs → decode (bs ++ rest) = .ok (i, rest)

theorem Laws.RoundTrip.ofWord {i : Instr} {w : BitVec 32} (e : encode i = some (toBytes 4 w.toNat)) (h : fld w 0 2 = 3#2)
    (d : i.wf = true → decodeWord w = .ok i) : Laws.RoundTrip.Statement i := by
  intro hw _ bs rest hb
  rw [e] at hb
  cases hb
  rw [decode_word w rest h, d hw]

theorem Laws.RoundTrip.noWord {i : Instr} (e : encode i = none) : Laws.RoundTrip.Statement i := by
  intro _ _ bs rest hb
  rw [e] at hb
  cases hb

theorem Laws.RoundTrip.vshape (rd rs1 rs2 : BitVec 5) : Laws.RoundTrip.Statement (.vshape rd rs1 rs2) :=
  Laws.RoundTrip.ofWord rfl (low_of_op (encR_0_7 ..) rfl) (by simp +contextual [decodeWord, Instr.wf, need, decodeCtl, decodeCr])
theorem Laws.RoundTrip.vsett (rd rs1 : BitVec 5) : Laws.RoundTrip.Statement (.vsett rd rs1) :=
  Laws.RoundTrip.ofWord rfl (low_of_op (encR_0_7 ..) rfl) (by simp +contextual [decodeWord, Instr.wf, need, decodeCtl, decodeCr])
theorem Laws.RoundTrip.iter (rd : BitVec 5) : Laws.RoundTrip.Statement (.iter rd) :=
  Laws.RoundTrip.ofWord rfl (low_of_op (encR_0_7 ..) rfl) (by simp +contextual [decodeWord, Instr.wf, need, decodeCtl, decodeCr])
theorem Laws.RoundTrip.next : Laws.RoundTrip.Statement (.next) :=
  Laws.RoundTrip.ofWord rfl (low_of_op (encR_0_7 ..) rfl) (by simp +contextual [decodeWord, Instr.wf, need, decodeCtl, decodeCr])
theorem Laws.RoundTrip.endK : Laws.RoundTrip.Statement (.endK) :=
  Laws.RoundTrip.ofWord rfl (low_of_op (encR_0_7 ..) rfl) (by simp +contextual [decodeWord, Instr.wf, need, decodeCtl, decodeCr])
theorem Laws.RoundTrip.yield : Laws.RoundTrip.Statement (.yield) :=
  Laws.RoundTrip.ofWord rfl (low_of_op (encR_0_7 ..) rfl) (by simp +contextual [decodeWord, Instr.wf, need, decodeCtl, decodeCr])
theorem Laws.RoundTrip.clput (rd rs1 rs2 : BitVec 5) : Laws.RoundTrip.Statement (.clput rd rs1 rs2) :=
  Laws.RoundTrip.ofWord rfl (low_of_op (encR_0_7 ..) rfl) (by simp +contextual [decodeWord, Instr.wf, need, decodeCtl, decodeCr])
theorem Laws.RoundTrip.clwait (rd rs1 : BitVec 5) : Laws.RoundTrip.Statement (.clwait rd rs1) :=
  Laws.RoundTrip.ofWord rfl (low_of_op (encR_0_7 ..) rfl) (by simp +contextual [decodeWord, Instr.wf, need, decodeCtl, decodeCr])
theorem Laws.RoundTrip.clause (xm xt nm1 : BitVec 5) : Laws.RoundTrip.Statement (.clause xm xt nm1) :=
  Laws.RoundTrip.ofWord rfl (low_of_op (encR_0_7 ..) rfl) (by simp +contextual [decodeWord, Instr.wf, need, decodeCtl, decodeCr])
theorem Laws.RoundTrip.fenceSv (s : Scope) : Laws.RoundTrip.Statement (.fenceSv s) :=
  Laws.RoundTrip.ofWord rfl (low_of_op (encCf_0_7 ..) rfl) (by simp +contextual [decodeWord, Instr.wf, need, decodeCtl, decodeCf])
theorem Laws.RoundTrip.fenceVs (s : Scope) : Laws.RoundTrip.Statement (.fenceVs s) :=
  Laws.RoundTrip.ofWord rfl (low_of_op (encCf_0_7 ..) rfl) (by simp +contextual [decodeWord, Instr.wf, need, decodeCtl, decodeCf])
theorem Laws.RoundTrip.fenceVv (s : Scope) : Laws.RoundTrip.Statement (.fenceVv s) :=
  Laws.RoundTrip.ofWord rfl (low_of_op (encCf_0_7 ..) rfl) (by simp +contextual [decodeWord, Instr.wf, need, decodeCtl, decodeCf])
theorem Laws.RoundTrip.fenceAll (s : Scope) : Laws.RoundTrip.Statement (.fenceAll s) :=
  Laws.RoundTrip.ofWord rfl (low_of_op (encCf_0_7 ..) rfl) (by simp +contextual [decodeWord, Instr.wf, need, decodeCtl, decodeCf])
theorem Laws.RoundTrip.bar (rs1 : BitVec 5) : Laws.RoundTrip.Statement (.bar rs1) :=
  Laws.RoundTrip.ofWord rfl (low_of_op (encR_0_7 ..) rfl) (by simp +contextual [decodeWord, Instr.wf, need, decodeCtl, decodeCf])
theorem Laws.RoundTrip.spalloc (rs1 rs2 : BitVec 5) : Laws.RoundTrip.Statement (.spalloc rs1 rs2) :=
  Laws.RoundTrip.ofWord rfl (low_of_op (encR_0_7 ..) rfl) (by simp +contextual [decodeWord, Instr.wf, need, decodeCtl, decodeCr])
theorem Laws.RoundTrip.spfree (rs1 rs2 : BitVec 5) : Laws.RoundTrip.Statement (.spfree rs1 rs2) :=
  Laws.RoundTrip.ofWord rfl (low_of_op (encR_0_7 ..) rfl) (by simp +contextual [decodeWord, Instr.wf, need, decodeCtl, decodeCr])
theorem Laws.RoundTrip.renew (rs1 rs2 : BitVec 5) : Laws.RoundTrip.Statement (.renew rs1 rs2) :=
  Laws.RoundTrip.ofWord rfl (low_of_op (encR_0_7 ..) rfl) (by simp +contextual [decodeWord, Instr.wf, need, decodeCtl, decodeCr])
theorem Laws.RoundTrip.spage (rd rs1 : BitVec 5) : Laws.RoundTrip.Statement (.spage rd rs1) :=
  Laws.RoundTrip.ofWord rfl (low_of_op (encR_0_7 ..) rfl) (by simp +contextual [decodeWord, Instr.wf, need, decodeCtl, decodeCr])
theorem Laws.RoundTrip.pin (rd rs1 rs2 : BitVec 5) : Laws.RoundTrip.Statement (.pin rd rs1 rs2) :=
  Laws.RoundTrip.ofWord rfl (low_of_op (encR_0_7 ..) rfl) (by simp +contextual [decodeWord, Instr.wf, need, decodeCtl, decodeCr])
theorem Laws.RoundTrip.unpin (rs1 : BitVec 5) : Laws.RoundTrip.Statement (.unpin rs1) :=
  Laws.RoundTrip.ofWord rfl (low_of_op (encR_0_7 ..) rfl) (by simp +contextual [decodeWord, Instr.wf, need, decodeCtl, decodeCr])
theorem Laws.RoundTrip.stream (o : Order) (rs1 rs2 : BitVec 5) : Laws.RoundTrip.Statement (.stream o rs1 rs2) :=
  Laws.RoundTrip.ofWord rfl (low_of_op (encCo_0_7 ..) rfl) (by simp +contextual [decodeWord, Instr.wf, need, decodeCtl, decodeCe100])
theorem Laws.RoundTrip.streamu (o : Order) (rs1 rs2 : BitVec 5) : Laws.RoundTrip.Statement (.streamu o rs1 rs2) :=
  Laws.RoundTrip.ofWord rfl (low_of_op (encCo_0_7 ..) rfl) (by simp +contextual [decodeWord, Instr.wf, need, decodeCtl, decodeCe100])
theorem Laws.RoundTrip.cwait (aq : Bool) (s : Scope) (rs1 rs2 : BitVec 5) : Laws.RoundTrip.Statement (.cwait aq s rs1 rs2) :=
  Laws.RoundTrip.ofWord rfl (low_of_op (encCo_0_7 ..) rfl) (by simp +contextual [decodeWord, Instr.wf, need, decodeCtl, decodeCe100])
theorem Laws.RoundTrip.cadd (s : Scope) (rs1 rs2 : BitVec 5) : Laws.RoundTrip.Statement (.cadd s rs1 rs2) :=
  Laws.RoundTrip.ofWord rfl (low_of_op (encCo_0_7 ..) rfl) (by simp +contextual [decodeWord, Instr.wf, need, decodeCtl, decodeCe100])
theorem Laws.RoundTrip.rclaim (rd rs1 rs2 : BitVec 5) : Laws.RoundTrip.Statement (.rclaim rd rs1 rs2) :=
  Laws.RoundTrip.ofWord rfl (low_of_op (encCd_0_7 ..) rfl) (by simp +contextual [decodeWord, Instr.wf, need, decodeCtl, decodeCe100])
theorem Laws.RoundTrip.rcommit (rs1 rs2 : BitVec 5) : Laws.RoundTrip.Statement (.rcommit rs1 rs2) :=
  Laws.RoundTrip.ofWord rfl (low_of_op (encCd_0_7 ..) rfl) (by simp +contextual [decodeWord, Instr.wf, need, decodeCtl, decodeCe100])
theorem Laws.RoundTrip.rawait (rd rs1 rs2 : BitVec 5) : Laws.RoundTrip.Statement (.rawait rd rs1 rs2) :=
  Laws.RoundTrip.ofWord rfl (low_of_op (encCd_0_7 ..) rfl) (by simp +contextual [decodeWord, Instr.wf, need, decodeCtl, decodeCe100])
theorem Laws.RoundTrip.rretire (rs1 rs2 : BitVec 5) : Laws.RoundTrip.Statement (.rretire rs1 rs2) :=
  Laws.RoundTrip.ofWord rfl (low_of_op (encCd_0_7 ..) rfl) (by simp +contextual [decodeWord, Instr.wf, need, decodeCtl, decodeCe100])
theorem Laws.RoundTrip.attach (rd rs1 : BitVec 5) : Laws.RoundTrip.Statement (.attach rd rs1) :=
  Laws.RoundTrip.ofWord rfl (low_of_op (encCd_0_7 ..) rfl) (by simp +contextual [decodeWord, Instr.wf, need, decodeCtl, decodeCe101])
theorem Laws.RoundTrip.detach : Laws.RoundTrip.Statement (.detach) :=
  Laws.RoundTrip.ofWord rfl (low_of_op (encCd_0_7 ..) rfl) (by simp +contextual [decodeWord, Instr.wf, need, decodeCtl, decodeCe101])
theorem Laws.RoundTrip.mld (o : Order) (mt : BitVec 3) (rs1 rs2 : BitVec 5) : Laws.RoundTrip.Statement (.mld o mt rs1 rs2) :=
  Laws.RoundTrip.ofWord rfl (low_of_op (encCo_0_7 ..) rfl) (by simp +contextual [decodeWord, Instr.wf, need, decodeCtl, decodeCe101])
theorem Laws.RoundTrip.mldx (o : Order) (rs1 vs : BitVec 5) : Laws.RoundTrip.Statement (.mldx o rs1 vs) :=
  Laws.RoundTrip.ofWord rfl (low_of_op (encCo_0_7 ..) rfl) (by simp +contextual [decodeWord, Instr.wf, need, decodeCtl, decodeCe101])
theorem Laws.RoundTrip.mlsc (o : Order) (mt : BitVec 3) (rs1 : BitVec 5) : Laws.RoundTrip.Statement (.mlsc o mt rs1) :=
  Laws.RoundTrip.ofWord rfl (low_of_op (encCo_0_7 ..) rfl) (by simp +contextual [decodeWord, Instr.wf, need, decodeCtl, decodeCe101])
theorem Laws.RoundTrip.mma (acc : BitVec 2) (a : AOperand) (b : BitVec 3) : Laws.RoundTrip.Statement (.mma acc a b) :=
  Laws.RoundTrip.ofWord rfl (low_of_op (encCo_0_7 ..) rfl) (by simp +contextual [decodeWord, Instr.wf, need, decodeCtl, decodeCe101])
theorem Laws.RoundTrip.mrpt (acc : BitVec 2) (a : AOperand) (rs2 : BitVec 5) : Laws.RoundTrip.Statement (.mrpt acc a rs2) :=
  Laws.RoundTrip.ofWord rfl (low_of_op (encCo_0_7 ..) rfl) (by simp +contextual [decodeWord, Instr.wf, need, decodeCtl, decodeCe101])
theorem Laws.RoundTrip.msld (acc : BitVec 2) (a : AOperand) (rs2 : BitVec 5) : Laws.RoundTrip.Statement (.msld acc a rs2) :=
  Laws.RoundTrip.ofWord rfl (low_of_op (encCo_0_7 ..) rfl) (by simp +contextual [decodeWord, Instr.wf, need, decodeCtl, decodeCe101])
theorem Laws.RoundTrip.mst (o : Order) (acc : BitVec 2) (rs1 rs2 : BitVec 5) : Laws.RoundTrip.Statement (.mst o acc rs1 rs2) :=
  Laws.RoundTrip.ofWord rfl (low_of_op (encCo_0_7 ..) rfl) (by simp +contextual [decodeWord, Instr.wf, need, decodeCtl, decodeCe101])
theorem Laws.RoundTrip.mzero (acc : BitVec 2) : Laws.RoundTrip.Statement (.mzero acc) :=
  Laws.RoundTrip.ofWord rfl (low_of_op (encCo_0_7 ..) rfl) (by simp +contextual [decodeWord, Instr.wf, need, decodeCtl, decodeCe101])
theorem Laws.RoundTrip.bdset (n : BitVec 4) (rs1 : BitVec 5) : Laws.RoundTrip.Statement (.bdset n rs1) :=
  Laws.RoundTrip.ofWord rfl (low_of_op (encCo_0_7 ..) rfl) (by simp +contextual [decodeWord, Instr.wf, need, decodeCtl, decodeCe101])
theorem Laws.RoundTrip.chnrun (o : Order) (rs1 rs2 : BitVec 5) : Laws.RoundTrip.Statement (.chnrun o rs1 rs2) :=
  Laws.RoundTrip.ofWord rfl (low_of_op (encCo_0_7 ..) rfl) (by simp +contextual [decodeWord, Instr.wf, need, decodeCtl, decodeCe101])
theorem Laws.RoundTrip.chnstep (o : Order) (rs1 rs2 : BitVec 5) : Laws.RoundTrip.Statement (.chnstep o rs1 rs2) :=
  Laws.RoundTrip.ofWord rfl (low_of_op (encCo_0_7 ..) rfl) (by simp +contextual [decodeWord, Instr.wf, need, decodeCtl, decodeCe101])
theorem Laws.RoundTrip.coll (o : Order) (rs1 rs2 : BitVec 5) : Laws.RoundTrip.Statement (.coll o rs1 rs2) :=
  Laws.RoundTrip.ofWord rfl (low_of_op (encCo_0_7 ..) rfl) (by simp +contextual [decodeWord, Instr.wf, need, decodeCtl, decodeCe110])
theorem Laws.RoundTrip.ccancel (rd rs1 : BitVec 5) : Laws.RoundTrip.Statement (.ccancel rd rs1) :=
  Laws.RoundTrip.ofWord rfl (low_of_op (encCd_0_7 ..) rfl) (by simp +contextual [decodeWord, Instr.wf, need, decodeCtl, decodeCe110])
theorem Laws.RoundTrip.cstat (rd rs1 : BitVec 5) : Laws.RoundTrip.Statement (.cstat rd rs1) :=
  Laws.RoundTrip.ofWord rfl (low_of_op (encCd_0_7 ..) rfl) (by simp +contextual [decodeWord, Instr.wf, need, decodeCtl, decodeCe110])
theorem Laws.RoundTrip.launch (rs1 rs2 : BitVec 5) : Laws.RoundTrip.Statement (.launch rs1 rs2) :=
  Laws.RoundTrip.ofWord rfl (low_of_op (encCd_0_7 ..) rfl) (by simp +contextual [decodeWord, Instr.wf, need, decodeCtl, decodeCe110])
theorem Laws.RoundTrip.splbar (rs1 : BitVec 5) : Laws.RoundTrip.Statement (.splbar rs1) :=
  Laws.RoundTrip.ofWord rfl (low_of_op (encCd_0_7 ..) rfl) (by simp +contextual [decodeWord, Instr.wf, need, decodeCtl, decodeCe110])
theorem Laws.RoundTrip.tdld (td : BitVec 4) (rs1 : BitVec 5) : Laws.RoundTrip.Statement (.tdld td rs1) :=
  Laws.RoundTrip.ofWord rfl (low_of_op (encR_0_7 ..) rfl) (by simp +contextual [decodeWord, Instr.wf, need, decodeCtl, decodeCr])
theorem Laws.RoundTrip.bany (ps : BitVec 6) (off : BitVec 16) : Laws.RoundTrip.Statement (.bany ps off) :=
  Laws.RoundTrip.ofWord rfl (low_of_op (encB_0_7 ..) rfl) (by simp +contextual [decodeWord, Instr.wf, need, decodePbr])
theorem Laws.RoundTrip.ball (ps : BitVec 6) (off : BitVec 16) : Laws.RoundTrip.Statement (.ball ps off) :=
  Laws.RoundTrip.ofWord rfl (low_of_op (encB_0_7 ..) rfl) (by simp +contextual [decodeWord, Instr.wf, need, decodePbr])
theorem Laws.RoundTrip.bnone (ps : BitVec 6) (off : BitVec 16) : Laws.RoundTrip.Statement (.bnone ps off) :=
  Laws.RoundTrip.ofWord rfl (low_of_op (encB_0_7 ..) rfl) (by simp +contextual [decodeWord, Instr.wf, need, decodePbr])
theorem Laws.RoundTrip.bnall (ps : BitVec 6) (off : BitVec 16) : Laws.RoundTrip.Statement (.bnall ps off) :=
  Laws.RoundTrip.ofWord rfl (low_of_op (encB_0_7 ..) rfl) (by simp +contextual [decodeWord, Instr.wf, need, decodePbr])
theorem Laws.RoundTrip.pand (pd ps1 ps2 : BitVec 6) : Laws.RoundTrip.Statement (.pand pd ps1 ps2) :=
  Laws.RoundTrip.ofWord rfl (low_of_op (encP_0_7 ..) rfl) (by simp +contextual [decodeWord, Instr.wf, need, decodePred, x5_lt, WhileCond.code])
theorem Laws.RoundTrip.por (pd ps1 ps2 : BitVec 6) : Laws.RoundTrip.Statement (.por pd ps1 ps2) :=
  Laws.RoundTrip.ofWord rfl (low_of_op (encP_0_7 ..) rfl) (by simp +contextual [decodeWord, Instr.wf, need, decodePred, x5_lt, WhileCond.code])
theorem Laws.RoundTrip.pxor (pd ps1 ps2 : BitVec 6) : Laws.RoundTrip.Statement (.pxor pd ps1 ps2) :=
  Laws.RoundTrip.ofWord rfl (low_of_op (encP_0_7 ..) rfl) (by simp +contextual [decodeWord, Instr.wf, need, decodePred, x5_lt, WhileCond.code])
theorem Laws.RoundTrip.pandn (pd ps1 ps2 : BitVec 6) : Laws.RoundTrip.Statement (.pandn pd ps1 ps2) :=
  Laws.RoundTrip.ofWord rfl (low_of_op (encP_0_7 ..) rfl) (by simp +contextual [decodeWord, Instr.wf, need, decodePred, x5_lt, WhileCond.code])
theorem Laws.RoundTrip.pnot (pd ps1 : BitVec 6) : Laws.RoundTrip.Statement (.pnot pd ps1) :=
  Laws.RoundTrip.ofWord rfl (low_of_op (encP_0_7 ..) rfl) (by simp +contextual [decodeWord, Instr.wf, need, decodePred, x5_lt, WhileCond.code])
theorem Laws.RoundTrip.pmov (pd ps1 : BitVec 6) : Laws.RoundTrip.Statement (.pmov pd ps1) :=
  Laws.RoundTrip.ofWord rfl (low_of_op (encP_0_7 ..) rfl) (by simp +contextual [decodeWord, Instr.wf, need, decodePred, x5_lt, WhileCond.code])
theorem Laws.RoundTrip.psetn (pd : BitVec 6) (rs : BitVec 5) : Laws.RoundTrip.Statement (.psetn pd rs) :=
  Laws.RoundTrip.ofWord rfl (low_of_op (encP_0_7 ..) rfl) (by simp +contextual [decodeWord, Instr.wf, need, decodePred, x5_lt, WhileCond.code])
theorem Laws.RoundTrip.pwhile (cond : WhileCond) (pd : BitVec 6) (rsa rsb : BitVec 5) : Laws.RoundTrip.Statement (.pwhile cond pd rsa rsb) :=
  Laws.RoundTrip.ofWord rfl (low_of_op (encP_0_7 ..) rfl) (by cases cond <;> simp +contextual [decodeWord, Instr.wf, need, decodePred, x5_lt, WhileCond.code])
theorem Laws.RoundTrip.ppopc (rd : BitVec 5) (ps : BitVec 6) : Laws.RoundTrip.Statement (.ppopc rd ps) :=
  Laws.RoundTrip.ofWord rfl (low_of_op (encP_0_7 ..) rfl) (by simp +contextual [decodeWord, Instr.wf, need, decodePred, x5_lt, WhileCond.code])
theorem Laws.RoundTrip.pfirst (rd : BitVec 5) (ps : BitVec 6) : Laws.RoundTrip.Statement (.pfirst rd ps) :=
  Laws.RoundTrip.ofWord rfl (low_of_op (encP_0_7 ..) rfl) (by simp +contextual [decodeWord, Instr.wf, need, decodePred, x5_lt, WhileCond.code])
theorem Laws.RoundTrip.psum (rd : BitVec 5) (ps : BitVec 6) : Laws.RoundTrip.Statement (.psum rd ps) :=
  Laws.RoundTrip.ofWord rfl (low_of_op (encP_0_7 ..) rfl) (by simp +contextual [decodeWord, Instr.wf, need, decodePred, x5_lt, WhileCond.code])
theorem Laws.RoundTrip.vadd (v : VOp) : Laws.RoundTrip.Statement (.vadd v) :=
  Laws.RoundTrip.ofWord rfl (low_of_op (encV_0_7 ..) rfl) (by simp +contextual [decodeWord, Instr.wf, need, decodeVint])
theorem Laws.RoundTrip.vsub (v : VOp) : Laws.RoundTrip.Statement (.vsub v) :=
  Laws.RoundTrip.ofWord rfl (low_of_op (encV_0_7 ..) rfl) (by simp +contextual [decodeWord, Instr.wf, need, decodeVint])
theorem Laws.RoundTrip.vmul (v : VOp) : Laws.RoundTrip.Statement (.vmul v) :=
  Laws.RoundTrip.ofWord rfl (low_of_op (encV_0_7 ..) rfl) (by simp +contextual [decodeWord, Instr.wf, need, decodeVint])
theorem Laws.RoundTrip.vmulh (v : VOp) : Laws.RoundTrip.Statement (.vmulh v) :=
  Laws.RoundTrip.ofWord rfl (low_of_op (encV_0_7 ..) rfl) (by simp +contextual [decodeWord, Instr.wf, need, decodeVint])
theorem Laws.RoundTrip.vmin (v : VOp) : Laws.RoundTrip.Statement (.vmin v) :=
  Laws.RoundTrip.ofWord rfl (low_of_op (encV_0_7 ..) rfl) (by simp +contextual [decodeWord, Instr.wf, need, decodeVint])
theorem Laws.RoundTrip.vmax (v : VOp) : Laws.RoundTrip.Statement (.vmax v) :=
  Laws.RoundTrip.ofWord rfl (low_of_op (encV_0_7 ..) rfl) (by simp +contextual [decodeWord, Instr.wf, need, decodeVint])
theorem Laws.RoundTrip.vminu (v : VOp) : Laws.RoundTrip.Statement (.vminu v) :=
  Laws.RoundTrip.ofWord rfl (low_of_op (encV_0_7 ..) rfl) (by simp +contextual [decodeWord, Instr.wf, need, decodeVint])
theorem Laws.RoundTrip.vmaxu (v : VOp) : Laws.RoundTrip.Statement (.vmaxu v) :=
  Laws.RoundTrip.ofWord rfl (low_of_op (encV_0_7 ..) rfl) (by simp +contextual [decodeWord, Instr.wf, need, decodeVint])
theorem Laws.RoundTrip.vand (v : VOp) : Laws.RoundTrip.Statement (.vand v) :=
  Laws.RoundTrip.ofWord rfl (low_of_op (encV_0_7 ..) rfl) (by simp +contextual [decodeWord, Instr.wf, need, decodeVint])
theorem Laws.RoundTrip.vor (v : VOp) : Laws.RoundTrip.Statement (.vor v) :=
  Laws.RoundTrip.ofWord rfl (low_of_op (encV_0_7 ..) rfl) (by simp +contextual [decodeWord, Instr.wf, need, decodeVint])
theorem Laws.RoundTrip.vxor (v : VOp) : Laws.RoundTrip.Statement (.vxor v) :=
  Laws.RoundTrip.ofWord rfl (low_of_op (encV_0_7 ..) rfl) (by simp +contextual [decodeWord, Instr.wf, need, decodeVint])
theorem Laws.RoundTrip.vsll (v : VOp) : Laws.RoundTrip.Statement (.vsll v) :=
  Laws.RoundTrip.ofWord rfl (low_of_op (encV_0_7 ..) rfl) (by simp +contextual [decodeWord, Instr.wf, need, decodeVint])
theorem Laws.RoundTrip.vsrl (v : VOp) : Laws.RoundTrip.Statement (.vsrl v) :=
  Laws.RoundTrip.ofWord rfl (low_of_op (encV_0_7 ..) rfl) (by simp +contextual [decodeWord, Instr.wf, need, decodeVint])
theorem Laws.RoundTrip.vsra (v : VOp) : Laws.RoundTrip.Statement (.vsra v) :=
  Laws.RoundTrip.ofWord rfl (low_of_op (encV_0_7 ..) rfl) (by simp +contextual [decodeWord, Instr.wf, need, decodeVint])
theorem Laws.RoundTrip.vsadd (v : VOp) : Laws.RoundTrip.Statement (.vsadd v) :=
  Laws.RoundTrip.ofWord rfl (low_of_op (encV_0_7 ..) rfl) (by simp +contextual [decodeWord, Instr.wf, need, decodeVint])
theorem Laws.RoundTrip.vbfx (v : VOp) : Laws.RoundTrip.Statement (.vbfx v) :=
  Laws.RoundTrip.ofWord rfl (low_of_op (encV_0_7 ..) rfl) (by simp +contextual [decodeWord, Instr.wf, need, decodeVint])
theorem Laws.RoundTrip.vpopc (u : UOp) : Laws.RoundTrip.Statement (.vpopc u) :=
  Laws.RoundTrip.ofWord rfl (low_of_op (encU_0_7 ..) rfl) (by simp +contextual [decodeWord, Instr.wf, need, decodeVint])
theorem Laws.RoundTrip.vclz (u : UOp) : Laws.RoundTrip.Statement (.vclz u) :=
  Laws.RoundTrip.ofWord rfl (low_of_op (encU_0_7 ..) rfl) (by simp +contextual [decodeWord, Instr.wf, need, decodeVint])
theorem Laws.RoundTrip.vfshl (u : UOp) : Laws.RoundTrip.Statement (.vfshl u) :=
  Laws.RoundTrip.ofWord rfl (low_of_op (encU_0_7 ..) rfl) (by simp +contextual [decodeWord, Instr.wf, need, decodeVint])
theorem Laws.RoundTrip.vfshr (u : UOp) : Laws.RoundTrip.Statement (.vfshr u) :=
  Laws.RoundTrip.ofWord rfl (low_of_op (encU_0_7 ..) rfl) (by simp +contextual [decodeWord, Instr.wf, need, decodeVint])
theorem Laws.RoundTrip.vfadd (v : VOp) : Laws.RoundTrip.Statement (.vfadd v) :=
  Laws.RoundTrip.ofWord rfl (low_of_op (encV_0_7 ..) rfl) (by simp +contextual [decodeWord, Instr.wf, need, decodeVflt])
theorem Laws.RoundTrip.vfsub (v : VOp) : Laws.RoundTrip.Statement (.vfsub v) :=
  Laws.RoundTrip.ofWord rfl (low_of_op (encV_0_7 ..) rfl) (by simp +contextual [decodeWord, Instr.wf, need, decodeVflt])
theorem Laws.RoundTrip.vfmul (v : VOp) : Laws.RoundTrip.Statement (.vfmul v) :=
  Laws.RoundTrip.ofWord rfl (low_of_op (encV_0_7 ..) rfl) (by simp +contextual [decodeWord, Instr.wf, need, decodeVflt])
theorem Laws.RoundTrip.vfdiv (v : VOp) : Laws.RoundTrip.Statement (.vfdiv v) :=
  Laws.RoundTrip.ofWord rfl (low_of_op (encV_0_7 ..) rfl) (by simp +contextual [decodeWord, Instr.wf, need, decodeVflt])
theorem Laws.RoundTrip.vfma (v : VOp) : Laws.RoundTrip.Statement (.vfma v) :=
  Laws.RoundTrip.ofWord rfl (low_of_op (encV_0_7 ..) rfl) (by simp +contextual [decodeWord, Instr.wf, need, decodeVflt])
theorem Laws.RoundTrip.vfms (v : VOp) : Laws.RoundTrip.Statement (.vfms v) :=
  Laws.RoundTrip.ofWord rfl (low_of_op (encV_0_7 ..) rfl) (by simp +contextual [decodeWord, Instr.wf, need, decodeVflt])
theorem Laws.RoundTrip.vfnma (v : VOp) : Laws.RoundTrip.Statement (.vfnma v) :=
  Laws.RoundTrip.ofWord rfl (low_of_op (encV_0_7 ..) rfl) (by simp +contextual [decodeWord, Instr.wf, need, decodeVflt])
theorem Laws.RoundTrip.vfmin (v : VOp) : Laws.RoundTrip.Statement (.vfmin v) :=
  Laws.RoundTrip.ofWord rfl (low_of_op (encV_0_7 ..) rfl) (by simp +contextual [decodeWord, Instr.wf, need, decodeVflt])
theorem Laws.RoundTrip.vfmax (v : VOp) : Laws.RoundTrip.Statement (.vfmax v) :=
  Laws.RoundTrip.ofWord rfl (low_of_op (encV_0_7 ..) rfl) (by simp +contextual [decodeWord, Instr.wf, need, decodeVflt])
theorem Laws.RoundTrip.vfsgnj (v : VOp) : Laws.RoundTrip.Statement (.vfsgnj v) :=
  Laws.RoundTrip.ofWord rfl (low_of_op (encV_0_7 ..) rfl) (by simp +contextual [decodeWord, Instr.wf, need, decodeVflt])
theorem Laws.RoundTrip.vfscale (v : VOp) : Laws.RoundTrip.Statement (.vfscale v) :=
  Laws.RoundTrip.ofWord rfl (low_of_op (encV_0_7 ..) rfl) (by simp +contextual [decodeWord, Instr.wf, need, decodeVflt])
theorem Laws.RoundTrip.vfscl (v : VOp) : Laws.RoundTrip.Statement (.vfscl v) :=
  Laws.RoundTrip.ofWord rfl (low_of_op (encV_0_7 ..) rfl) (by simp +contextual [decodeWord, Instr.wf, need, decodeVflt])
theorem Laws.RoundTrip.vfsqrt (u : UOp) : Laws.RoundTrip.Statement (.vfsqrt u) :=
  Laws.RoundTrip.ofWord rfl (low_of_op (encU_0_7 ..) rfl) (by simp +contextual [decodeWord, Instr.wf, need, decodeVflt])
theorem Laws.RoundTrip.vfexp2 (u : UOp) : Laws.RoundTrip.Statement (.vfexp2 u) :=
  Laws.RoundTrip.ofWord rfl (low_of_op (encU_0_7 ..) rfl) (by simp +contextual [decodeWord, Instr.wf, need, decodeVflt])
theorem Laws.RoundTrip.vfabs (u : UOp) : Laws.RoundTrip.Statement (.vfabs u) :=
  Laws.RoundTrip.ofWord rfl (low_of_op (encU_0_7 ..) rfl) (by simp +contextual [decodeWord, Instr.wf, need, decodeVflt])
theorem Laws.RoundTrip.vfneg (u : UOp) : Laws.RoundTrip.Statement (.vfneg u) :=
  Laws.RoundTrip.ofWord rfl (low_of_op (encU_0_7 ..) rfl) (by simp +contextual [decodeWord, Instr.wf, need, decodeVflt])
theorem Laws.RoundTrip.vfrnd (u : UOp) : Laws.RoundTrip.Statement (.vfrnd u) :=
  Laws.RoundTrip.ofWord rfl (low_of_op (encU_0_7 ..) rfl) (by simp +contextual [decodeWord, Instr.wf, need, decodeVflt])
theorem Laws.RoundTrip.vcmpeq (v : VOp) : Laws.RoundTrip.Statement (.vcmpeq v) :=
  Laws.RoundTrip.ofWord rfl (low_of_op (encV_0_7 ..) rfl) (by simp +contextual [decodeWord, Instr.wf, need, decodeVprm])
theorem Laws.RoundTrip.vcmpne (v : VOp) : Laws.RoundTrip.Statement (.vcmpne v) :=
  Laws.RoundTrip.ofWord rfl (low_of_op (encV_0_7 ..) rfl) (by simp +contextual [decodeWord, Instr.wf, need, decodeVprm])
theorem Laws.RoundTrip.vcmplt (v : VOp) : Laws.RoundTrip.Statement (.vcmplt v) :=
  Laws.RoundTrip.ofWord rfl (low_of_op (encV_0_7 ..) rfl) (by simp +contextual [decodeWord, Instr.wf, need, decodeVprm])
theorem Laws.RoundTrip.vcmple (v : VOp) : Laws.RoundTrip.Statement (.vcmple v) :=
  Laws.RoundTrip.ofWord rfl (low_of_op (encV_0_7 ..) rfl) (by simp +contextual [decodeWord, Instr.wf, need, decodeVprm])
theorem Laws.RoundTrip.vcmpltu (v : VOp) : Laws.RoundTrip.Statement (.vcmpltu v) :=
  Laws.RoundTrip.ofWord rfl (low_of_op (encV_0_7 ..) rfl) (by simp +contextual [decodeWord, Instr.wf, need, decodeVprm])
theorem Laws.RoundTrip.vcmpleu (v : VOp) : Laws.RoundTrip.Statement (.vcmpleu v) :=
  Laws.RoundTrip.ofWord rfl (low_of_op (encV_0_7 ..) rfl) (by simp +contextual [decodeWord, Instr.wf, need, decodeVprm])
theorem Laws.RoundTrip.vfcmplt (v : VOp) : Laws.RoundTrip.Statement (.vfcmplt v) :=
  Laws.RoundTrip.ofWord rfl (low_of_op (encV_0_7 ..) rfl) (by simp +contextual [decodeWord, Instr.wf, need, decodeVprm])
theorem Laws.RoundTrip.vfcmple (v : VOp) : Laws.RoundTrip.Statement (.vfcmple v) :=
  Laws.RoundTrip.ofWord rfl (low_of_op (encV_0_7 ..) rfl) (by simp +contextual [decodeWord, Instr.wf, need, decodeVprm])
theorem Laws.RoundTrip.vcompress (u : UOp) (ps : BitVec 5) : Laws.RoundTrip.Statement (.vcompress u ps) :=
  Laws.RoundTrip.ofWord rfl (low_of_op (encU_0_7 ..) rfl) (by simp +contextual [decodeWord, Instr.wf, need, decodeVprm])
theorem Laws.RoundTrip.vslideup (v : VOp) : Laws.RoundTrip.Statement (.vslideup v) :=
  Laws.RoundTrip.ofWord rfl (low_of_op (encV_0_7 ..) rfl) (by simp +contextual [decodeWord, Instr.wf, need, decodeVprm])
theorem Laws.RoundTrip.vslidedn (v : VOp) : Laws.RoundTrip.Statement (.vslidedn v) :=
  Laws.RoundTrip.ofWord rfl (low_of_op (encV_0_7 ..) rfl) (by simp +contextual [decodeWord, Instr.wf, need, decodeVprm])
theorem Laws.RoundTrip.vgather (v : VOp) : Laws.RoundTrip.Statement (.vgather v) :=
  Laws.RoundTrip.ofWord rfl (low_of_op (encV_0_7 ..) rfl) (by simp +contextual [decodeWord, Instr.wf, need, decodeVprm])
theorem Laws.RoundTrip.vredsum (u : UOp) : Laws.RoundTrip.Statement (.vredsum u) :=
  Laws.RoundTrip.ofWord rfl (low_of_op (encU_0_7 ..) rfl) (by simp +contextual [decodeWord, Instr.wf, need, decodeVprm])
theorem Laws.RoundTrip.vredmax (u : UOp) : Laws.RoundTrip.Statement (.vredmax u) :=
  Laws.RoundTrip.ofWord rfl (low_of_op (encU_0_7 ..) rfl) (by simp +contextual [decodeWord, Instr.wf, need, decodeVprm])
theorem Laws.RoundTrip.vredmin (u : UOp) : Laws.RoundTrip.Statement (.vredmin u) :=
  Laws.RoundTrip.ofWord rfl (low_of_op (encU_0_7 ..) rfl) (by simp +contextual [decodeWord, Instr.wf, need, decodeVprm])
theorem Laws.RoundTrip.vfredsum (u : UOp) : Laws.RoundTrip.Statement (.vfredsum u) :=
  Laws.RoundTrip.ofWord rfl (low_of_op (encU_0_7 ..) rfl) (by simp +contextual [decodeWord, Instr.wf, need, decodeVprm])
theorem Laws.RoundTrip.vfredmax (u : UOp) : Laws.RoundTrip.Statement (.vfredmax u) :=
  Laws.RoundTrip.ofWord rfl (low_of_op (encU_0_7 ..) rfl) (by simp +contextual [decodeWord, Instr.wf, need, decodeVprm])
theorem Laws.RoundTrip.vcvt (u : UOp) (t : EType) : Laws.RoundTrip.Statement (.vcvt u t) :=
  Laws.RoundTrip.ofWord rfl (low_of_op (encU_0_7 ..) rfl) (by simp +contextual [decodeWord, Instr.wf, need, decodeVprm])
theorem Laws.RoundTrip.vmv (v : VOp) : Laws.RoundTrip.Statement (.vmv v) :=
  Laws.RoundTrip.ofWord rfl (low_of_op (encV_0_7 ..) rfl) (by simp +contextual [decodeWord, Instr.wf, need, decodeVprm])
theorem Laws.RoundTrip.viota (u : UOp) : Laws.RoundTrip.Statement (.viota u) :=
  Laws.RoundTrip.ofWord rfl (low_of_op (encU_0_7 ..) rfl) (by simp +contextual [decodeWord, Instr.wf, need, decodeVprm])
theorem Laws.RoundTrip.vid (u : UOp) : Laws.RoundTrip.Statement (.vid u) :=
  Laws.RoundTrip.ofWord rfl (low_of_op (encU_0_7 ..) rfl) (by simp +contextual [decodeWord, Instr.wf, need, decodeVprm])
theorem Laws.RoundTrip.vtrans (u : UOp) : Laws.RoundTrip.Statement (.vtrans u) :=
  Laws.RoundTrip.ofWord rfl (low_of_op (encU_0_7 ..) rfl) (by simp +contextual [decodeWord, Instr.wf, need, decodeVprm])
theorem Laws.RoundTrip.vld (m : MOp) : Laws.RoundTrip.Statement (.vld m) :=
  Laws.RoundTrip.ofWord rfl (low_of_op (encM_0_7 ..) rfl) (by simp +contextual [decodeWord, Instr.wf, need, decodeVmem])
theorem Laws.RoundTrip.vst (m : MOp) : Laws.RoundTrip.Statement (.vst m) :=
  Laws.RoundTrip.ofWord rfl (low_of_op (encM_0_7 ..) rfl) (by simp +contextual [decodeWord, Instr.wf, need, decodeVmem])
theorem Laws.RoundTrip.vldc (m : MOp) : Laws.RoundTrip.Statement (.vldc m) :=
  Laws.RoundTrip.ofWord rfl (low_of_op (encM_0_7 ..) rfl) (by simp +contextual [decodeWord, Instr.wf, need, decodeVmem])
theorem Laws.RoundTrip.vlsc (m : SOp) : Laws.RoundTrip.Statement (.vlsc m) :=
  Laws.RoundTrip.ofWord rfl (low_of_op (encS_0_7 ..) rfl) (by simp +contextual [decodeWord, Instr.wf, need, decodeVmem])
theorem Laws.RoundTrip.vssc (m : SOp) : Laws.RoundTrip.Statement (.vssc m) :=
  Laws.RoundTrip.ofWord rfl (low_of_op (encS_0_7 ..) rfl) (by simp +contextual [decodeWord, Instr.wf, need, decodeVmem])
theorem Laws.RoundTrip.vamoadd (m : MOp) : Laws.RoundTrip.Statement (.vamoadd m) :=
  Laws.RoundTrip.ofWord rfl (low_of_op (encM_0_7 ..) rfl) (by simp +contextual [decodeWord, Instr.wf, need, decodeVmem])
theorem Laws.RoundTrip.vamomax (m : MOp) : Laws.RoundTrip.Statement (.vamomax m) :=
  Laws.RoundTrip.ofWord rfl (low_of_op (encM_0_7 ..) rfl) (by simp +contextual [decodeWord, Instr.wf, need, decodeVmem])
theorem Laws.RoundTrip.vamomin (m : MOp) : Laws.RoundTrip.Statement (.vamomin m) :=
  Laws.RoundTrip.ofWord rfl (low_of_op (encM_0_7 ..) rfl) (by simp +contextual [decodeWord, Instr.wf, need, decodeVmem])
theorem Laws.RoundTrip.rv (op : Rv) (half : Option (BitVec 16)) : Laws.RoundTrip.Statement (.rv op half) :=
  by
  cases half with
  | none =>
    refine Laws.RoundTrip.ofWord (w := encodeRv op) rfl (rv_low op) (fun h => decodeWord_rv op ?_)
    simpa [Instr.wf] using h
  | some h =>
    intro hw he bs rest hb
    cases hb
    simp only [Instr.wf, Bool.and_eq_true, decide_eq_true_eq] at hw
    exact decode_half h op rest hw.2 (he op h rfl)
theorem Laws.RoundTrip.mret : Laws.RoundTrip.Statement (.mret) :=
  Laws.RoundTrip.ofWord (w := 0x30200073#32) rfl (by decide) (fun _ => rfl)
theorem Laws.RoundTrip.hookset : Laws.RoundTrip.Statement (.hookset) :=
  Laws.RoundTrip.noWord rfl
theorem Laws.RoundTrip.hookret : Laws.RoundTrip.Statement (.hookret) :=
  Laws.RoundTrip.noWord rfl
theorem Laws.RoundTrip.abort : Laws.RoundTrip.Statement (.abort) :=
  Laws.RoundTrip.noWord rfl
theorem Laws.RoundTrip.ecallUnknown : Laws.RoundTrip.Statement (.ecallUnknown) :=
  Laws.RoundTrip.noWord rfl
theorem Laws.RoundTrip.vtypeWrite (a : CsrAcc) : Laws.RoundTrip.Statement (.vtypeWrite a) :=
  Laws.RoundTrip.ofWord (w := encCsr a 0x800) rfl (csr_low ..) (fun h => by
    have h : a.writes = true := h
    rw [decodeWord_csr]; unfold csrInstr; rw [if_pos h]; rfl)
theorem Laws.RoundTrip.mfcWrite (a : CsrAcc) : Laws.RoundTrip.Statement (.mfcWrite a) :=
  Laws.RoundTrip.ofWord (w := encCsr a 0x801) rfl (csr_low ..) (fun h => by
    have h : a.writes = true := h
    rw [decodeWord_csr]; unfold csrInstr; rw [if_pos h]; rfl)
theorem Laws.RoundTrip.vxiWrite (a : CsrAcc) : Laws.RoundTrip.Statement (.vxiWrite a) :=
  Laws.RoundTrip.ofWord (w := encCsr a 0x802) rfl (csr_low ..) (fun h => by
    have h : a.writes = true := h
    rw [decodeWord_csr]; unfold csrInstr; rw [if_pos h]; rfl)
theorem Laws.RoundTrip.poolBoundaryWrite (which : BitVec 2) (a : CsrAcc) : Laws.RoundTrip.Statement (.poolBoundaryWrite which a) :=
  Laws.RoundTrip.ofWord (w := encCsr a (0x1F0#10 ++ which)) rfl (csr_low ..) (fun h => by
    simp only [Instr.wf, Bool.and_eq_true, decide_eq_true_eq] at h
    rw [decodeWord_csr, csrInstr_pool a which h.2 h.1])
theorem Laws.RoundTrip.vvalidWrite (a : CsrAcc) : Laws.RoundTrip.Statement (.vvalidWrite a) :=
  Laws.RoundTrip.ofWord (w := encCsr a 0x805) rfl (csr_low ..) (fun h => by
    have h : a.writes = true := h
    rw [decodeWord_csr]; unfold csrInstr; rw [if_pos h]; rfl)
theorem Laws.RoundTrip.bdCsrWrite (n : BitVec 4) (a : CsrAcc) : Laws.RoundTrip.Statement (.bdCsrWrite n a) :=
  Laws.RoundTrip.ofWord (w := encCsr a (0x81#8 ++ n)) rfl (csr_low ..) (fun h => by rw [decodeWord_csr, csrInstr_bd a n h])
theorem Laws.RoundTrip.registerWrite (t : RegTarget) : Laws.RoundTrip.Statement (.registerWrite t) :=
  by
  cases t with
  | csr n a =>
    refine Laws.RoundTrip.ofWord (w := encCsr a n) rfl (csr_low ..) (fun h => ?_)
    simp only [Instr.wf, Bool.and_eq_true, Bool.not_eq_true'] at h
    rw [decodeWord_csr, csrInstr_other a n h.2 h.1]
  | bar0 off bytes => exact Laws.RoundTrip.noWord rfl
theorem Laws.RoundTrip.doorbellWrite (q : Nat) (t : BitVec 32) : Laws.RoundTrip.Statement (.doorbellWrite q t) :=
  Laws.RoundTrip.noWord rfl
theorem Laws.RoundTrip.hostBar2Access (b : Bar2) : Laws.RoundTrip.Statement (.hostBar2Access b) :=
  Laws.RoundTrip.noWord rfl
theorem Laws.RoundTrip.qconfig (q : Nat) : Laws.RoundTrip.Statement (.qconfig q) :=
  Laws.RoundTrip.noWord rfl
theorem Laws.RoundTrip.shootdown (q : Nat) (va : Nat) (len : Nat) : Laws.RoundTrip.Statement (.shootdown q va len) :=
  Laws.RoundTrip.noWord rfl
theorem Laws.RoundTrip.elideclr (q : Nat) (idx : Nat) : Laws.RoundTrip.Statement (.elideclr q idx) :=
  Laws.RoundTrip.noWord rfl
theorem Laws.RoundTrip.commset (table count : Nat) : Laws.RoundTrip.Statement (.commset table count) :=
  Laws.RoundTrip.noWord rfl
theorem Laws.RoundTrip.powerlimit (watts : Nat) : Laws.RoundTrip.Statement (.powerlimit watts) :=
  Laws.RoundTrip.noWord rfl
theorem Laws.RoundTrip.domainid (id : Nat) : Laws.RoundTrip.Statement (.domainid id) :=
  Laws.RoundTrip.noWord rfl
theorem Laws.RoundTrip.aperture (base : Nat) : Laws.RoundTrip.Statement (.aperture base) :=
  Laws.RoundTrip.noWord rfl
theorem Laws.RoundTrip.fwstage (slot addr len : Nat) : Laws.RoundTrip.Statement (.fwstage slot addr len) :=
  Laws.RoundTrip.noWord rfl
theorem Laws.RoundTrip.fwswitch : Laws.RoundTrip.Statement (.fwswitch) :=
  Laws.RoundTrip.noWord rfl
theorem Laws.RoundTrip.qresume (q action : Nat) : Laws.RoundTrip.Statement (.qresume q action) :=
  Laws.RoundTrip.noWord rfl
theorem Laws.RoundTrip.mailboxUnknownCode (code : Byte) : Laws.RoundTrip.Statement (.mailboxUnknownCode code) :=
  Laws.RoundTrip.noWord rfl
theorem Laws.RoundTrip.fwHeartbeat (accepts : Bool) : Laws.RoundTrip.Statement (.fwHeartbeat accepts) :=
  Laws.RoundTrip.noWord rfl
theorem Laws.RoundTrip.fwHeartbeatTimeout : Laws.RoundTrip.Statement (.fwHeartbeatTimeout) :=
  Laws.RoundTrip.noWord rfl
theorem Laws.RoundTrip.spdmGetVersion : Laws.RoundTrip.Statement (.spdmGetVersion) :=
  Laws.RoundTrip.noWord rfl
theorem Laws.RoundTrip.spdmGetCapabilities : Laws.RoundTrip.Statement (.spdmGetCapabilities) :=
  Laws.RoundTrip.noWord rfl
theorem Laws.RoundTrip.spdmNegotiateAlgorithms : Laws.RoundTrip.Statement (.spdmNegotiateAlgorithms) :=
  Laws.RoundTrip.noWord rfl
theorem Laws.RoundTrip.spdmGetDigests : Laws.RoundTrip.Statement (.spdmGetDigests) :=
  Laws.RoundTrip.noWord rfl
theorem Laws.RoundTrip.spdmGetCertificate (off len : Nat) : Laws.RoundTrip.Statement (.spdmGetCertificate off len) :=
  Laws.RoundTrip.noWord rfl
theorem Laws.RoundTrip.spdmChallenge (nonce : BitVec 256) : Laws.RoundTrip.Statement (.spdmChallenge nonce) :=
  Laws.RoundTrip.noWord rfl
theorem Laws.RoundTrip.spdmGetMeasurements (index : Nat) (nonce : BitVec 256) : Laws.RoundTrip.Statement (.spdmGetMeasurements index nonce) :=
  Laws.RoundTrip.noWord rfl
theorem Laws.RoundTrip.spdmKeyExchange (peerShare : BitVec 512) : Laws.RoundTrip.Statement (.spdmKeyExchange peerShare) :=
  Laws.RoundTrip.noWord rfl
theorem Laws.RoundTrip.spdmFinish (mac : BitVec 256) : Laws.RoundTrip.Statement (.spdmFinish mac) :=
  Laws.RoundTrip.noWord rfl
theorem Laws.RoundTrip.spdmEndSession : Laws.RoundTrip.Statement (.spdmEndSession) :=
  Laws.RoundTrip.noWord rfl
theorem Laws.RoundTrip.keyLoad (k : Nat) (key : BitVec 512) : Laws.RoundTrip.Statement (.keyLoad k key) :=
  Laws.RoundTrip.noWord rfl
theorem Laws.RoundTrip.keyClear (k : Nat) : Laws.RoundTrip.Statement (.keyClear k) :=
  Laws.RoundTrip.noWord rfl
theorem Laws.RoundTrip.deviceReset : Laws.RoundTrip.Statement (.deviceReset) :=
  Laws.RoundTrip.noWord rfl
theorem Laws.RoundTrip.bootComplete (slot0 slot1 : List (List Byte)) : Laws.RoundTrip.Statement (.bootComplete slot0 slot1) :=
  Laws.RoundTrip.noWord rfl
theorem Laws.RoundTrip.hbmTrainingComplete : Laws.RoundTrip.Statement (.hbmTrainingComplete) :=
  Laws.RoundTrip.noWord rfl
theorem Laws.RoundTrip.thermalThrottle (die : Nat) : Laws.RoundTrip.Statement (.thermalThrottle die) :=
  Laws.RoundTrip.noWord rfl
theorem Laws.RoundTrip.thermalTrip : Laws.RoundTrip.Statement (.thermalTrip) :=
  Laws.RoundTrip.noWord rfl
theorem Laws.RoundTrip.powerLimitEnforce (die : Nat) : Laws.RoundTrip.Statement (.powerLimitEnforce die) :=
  Laws.RoundTrip.noWord rfl
theorem Laws.RoundTrip.clockStretch (die : Nat) : Laws.RoundTrip.Statement (.clockStretch die) :=
  Laws.RoundTrip.noWord rfl
theorem Laws.RoundTrip.recordReachesHead (q : Nat) : Laws.RoundTrip.Statement (.recordReachesHead q) :=
  Laws.RoundTrip.noWord rfl
theorem Laws.RoundTrip.recordDispatchStart (q : Nat) : Laws.RoundTrip.Statement (.recordDispatchStart q) :=
  Laws.RoundTrip.noWord rfl
theorem Laws.RoundTrip.hartAssign (hart launch : Nat) (key : List Nat) (slot : Nat) (resv : Nat) : Laws.RoundTrip.Statement (.hartAssign hart launch key slot resv) :=
  Laws.RoundTrip.noWord rfl
theorem Laws.RoundTrip.gangDispatch (launch : Nat) (harts : List Nat) (slots : List Nat) (resv : Nat) : Laws.RoundTrip.Statement (.gangDispatch launch harts slots resv) :=
  Laws.RoundTrip.noWord rfl
theorem Laws.RoundTrip.launchComplete (launch : Nat) : Laws.RoundTrip.Statement (.launchComplete launch) :=
  Laws.RoundTrip.noWord rfl
theorem Laws.RoundTrip.pairComplete (launch : Nat) : Laws.RoundTrip.Statement (.pairComplete launch) :=
  Laws.RoundTrip.noWord rfl
theorem Laws.RoundTrip.coreReservationRelease (hart : Nat) : Laws.RoundTrip.Statement (.coreReservationRelease hart) :=
  Laws.RoundTrip.noWord rfl
theorem Laws.RoundTrip.queueAgeing (q : Nat) : Laws.RoundTrip.Statement (.queueAgeing q) :=
  Laws.RoundTrip.noWord rfl
theorem Laws.RoundTrip.quantumExpiry (hart : Nat) : Laws.RoundTrip.Statement (.quantumExpiry hart) :=
  Laws.RoundTrip.noWord rfl
theorem Laws.RoundTrip.preemptionRequest (hart : Nat) : Laws.RoundTrip.Statement (.preemptionRequest hart) :=
  Laws.RoundTrip.noWord rfl
theorem Laws.RoundTrip.preemptDeadline (hart : Nat) (elem : Option Nat) : Laws.RoundTrip.Statement (.preemptDeadline hart elem) :=
  Laws.RoundTrip.noWord rfl
theorem Laws.RoundTrip.gangSaveStart (launch : Nat) : Laws.RoundTrip.Statement (.gangSaveStart launch) :=
  Laws.RoundTrip.noWord rfl
theorem Laws.RoundTrip.contextSaveComplete (ctx : Nat) : Laws.RoundTrip.Statement (.contextSaveComplete ctx) :=
  Laws.RoundTrip.noWord rfl
theorem Laws.RoundTrip.contextResume (ctx hart : Nat) : Laws.RoundTrip.Statement (.contextResume ctx hart) :=
  Laws.RoundTrip.noWord rfl
theorem Laws.RoundTrip.sweeperVisit (core : Bool) (owner block : Nat) : Laws.RoundTrip.Statement (.sweeperVisit core owner block) :=
  Laws.RoundTrip.noWord rfl
theorem Laws.RoundTrip.renewalPerform (core : Bool) (owner : Nat) : Laws.RoundTrip.Statement (.renewalPerform core owner) :=
  Laws.RoundTrip.noWord rfl
theorem Laws.RoundTrip.ringBlockRenewal (hart : Nat) : Laws.RoundTrip.Statement (.ringBlockRenewal hart) :=
  Laws.RoundTrip.noWord rfl
theorem Laws.RoundTrip.l1DirtyWriteback (hart line : Nat) : Laws.RoundTrip.Statement (.l1DirtyWriteback hart line) :=
  Laws.RoundTrip.noWord rfl
theorem Laws.RoundTrip.extensionBankRenewal (hart bank : Nat) : Laws.RoundTrip.Statement (.extensionBankRenewal hart bank) :=
  Laws.RoundTrip.noWord rfl
theorem Laws.RoundTrip.l2LineRetention (die line : Nat) : Laws.RoundTrip.Statement (.l2LineRetention die line) :=
  Laws.RoundTrip.noWord rfl
theorem Laws.RoundTrip.sectorPoisonDetect (place : Nat) (owner sector : Nat) : Laws.RoundTrip.Statement (.sectorPoisonDetect place owner sector) :=
  Laws.RoundTrip.noWord rfl
theorem Laws.RoundTrip.scarabCommandBegin (cluster : Nat) (hart : Nat) : Laws.RoundTrip.Statement (.scarabCommandBegin cluster hart) :=
  Laws.RoundTrip.noWord rfl
theorem Laws.RoundTrip.scarabPrefixAdvance (cluster : Nat) (cmd : Nat) (upto : Nat) : Laws.RoundTrip.Statement (.scarabPrefixAdvance cluster cmd upto) :=
  Laws.RoundTrip.noWord rfl
theorem Laws.RoundTrip.scarabFault (cluster : Nat) (cmd : Nat) : Laws.RoundTrip.Statement (.scarabFault cluster cmd) :=
  Laws.RoundTrip.noWord rfl
theorem Laws.RoundTrip.scarabCommandComplete (cluster : Nat) (cmd : Nat) : Laws.RoundTrip.Statement (.scarabCommandComplete cluster cmd) :=
  Laws.RoundTrip.noWord rfl
theorem Laws.RoundTrip.ordinalRegistration (m : RegMsg) : Laws.RoundTrip.Statement (.ordinalRegistration m) :=
  Laws.RoundTrip.noWord rfl
theorem Laws.RoundTrip.ordinalDeferredNumber (comm tag : Nat) : Laws.RoundTrip.Statement (.ordinalDeferredNumber comm tag) :=
  Laws.RoundTrip.noWord rfl
theorem Laws.RoundTrip.ordinalStartReport (num : SeqNum) (rank : Nat) : Laws.RoundTrip.Statement (.ordinalStartReport num rank) :=
  Laws.RoundTrip.noWord rfl
theorem Laws.RoundTrip.ordinalCancellation (comm tag rank : Nat) : Laws.RoundTrip.Statement (.ordinalCancellation comm tag rank) :=
  Laws.RoundTrip.noWord rfl
theorem Laws.RoundTrip.collectiveNotice (comm tag num : Nat) (prev : Option Nat) (void : Bool) (aborted : Bool) : Laws.RoundTrip.Statement (.collectiveNotice comm tag num prev void aborted) :=
  Laws.RoundTrip.noWord rfl
theorem Laws.RoundTrip.collectiveBegin (num seq : Nat) : Laws.RoundTrip.Statement (.collectiveBegin num seq) :=
  Laws.RoundTrip.noWord rfl
theorem Laws.RoundTrip.collectiveEnd (num seq : Nat) (status : Nat) (peers : List Contribution) : Laws.RoundTrip.Statement (.collectiveEnd num seq status peers) :=
  Laws.RoundTrip.noWord rfl
theorem Laws.RoundTrip.collectiveEngineFault (num seq : Nat) (cause : Nat) (addr : FaultPoint) : Laws.RoundTrip.Statement (.collectiveEngineFault num seq cause addr) :=
  Laws.RoundTrip.noWord rfl
theorem Laws.RoundTrip.collectiveTimeout (num : Nat) : Laws.RoundTrip.Statement (.collectiveTimeout num) :=
  Laws.RoundTrip.noWord rfl
theorem Laws.RoundTrip.ccancelAnswerTimeout (hart : Nat) : Laws.RoundTrip.Statement (.ccancelAnswerTimeout hart) :=
  Laws.RoundTrip.noWord rfl
theorem Laws.RoundTrip.ordinalElection (primary standby : Nat) : Laws.RoundTrip.Statement (.ordinalElection primary standby) :=
  Laws.RoundTrip.noWord rfl
theorem Laws.RoundTrip.ordinalHeartbeat : Laws.RoundTrip.Statement (.ordinalHeartbeat) :=
  Laws.RoundTrip.noWord rfl
theorem Laws.RoundTrip.ordinalStandbyAckTimeout : Laws.RoundTrip.Statement (.ordinalStandbyAckTimeout) :=
  Laws.RoundTrip.noWord rfl
theorem Laws.RoundTrip.ordinalFailover : Laws.RoundTrip.Statement (.ordinalFailover) :=
  Laws.RoundTrip.noWord rfl
theorem Laws.RoundTrip.ethernetRecordReceive (peer : Nat) (seqNum : Nat) (rec : List Byte) : Laws.RoundTrip.Statement (.ethernetRecordReceive peer seqNum rec) :=
  Laws.RoundTrip.noWord rfl
theorem Laws.RoundTrip.sessionRekey (peer : Nat) : Laws.RoundTrip.Statement (.sessionRekey peer) :=
  Laws.RoundTrip.noWord rfl
theorem Laws.RoundTrip.remoteAccessAtHome (op : RemoteOp) (pa key : Nat) : Laws.RoundTrip.Statement (.remoteAccessAtHome op pa key) :=
  Laws.RoundTrip.noWord rfl
theorem Laws.RoundTrip.remoteReadTimeout (hart : Nat) (kind : RemoteKind) (elem : Nat) (va : Word) : Laws.RoundTrip.Statement (.remoteReadTimeout hart kind elem va) :=
  Laws.RoundTrip.noWord rfl
theorem Laws.RoundTrip.remoteWriteUndeliverable (writer : Writer) (va : Word) : Laws.RoundTrip.Statement (.remoteWriteUndeliverable writer va) :=
  Laws.RoundTrip.noWord rfl
theorem Laws.RoundTrip.supplyRecovery (die : Nat) : Laws.RoundTrip.Statement (.supplyRecovery die) :=
  Laws.RoundTrip.noWord rfl
theorem Laws.RoundTrip.domainFault : Laws.RoundTrip.Statement (.domainFault) :=
  Laws.RoundTrip.noWord rfl
theorem Laws.RoundTrip.ordinalReplication (entry : ReplicaMsg) : Laws.RoundTrip.Statement (.ordinalReplication entry) :=
  Laws.RoundTrip.noWord rfl
theorem Laws.RoundTrip.sessionKeyExchange (peer : Nat) (share : BitVec 512) : Laws.RoundTrip.Statement (.sessionKeyExchange peer share) :=
  Laws.RoundTrip.noWord rfl
theorem Laws.RoundTrip.ethernetRetransmission (peer : Nat) (seqNum : Nat) : Laws.RoundTrip.Statement (.ethernetRetransmission peer seqNum) :=
  Laws.RoundTrip.noWord rfl

end

end Sys2Proof
end

