-- ==== Sys2Proof/Tests/Slice0.lean ====
section
/-!
SUPPORT. Checks of the model by fixed values, whose expected results are the spec's examples and tables or hand calculation from
them; for every statement with hypotheses, a state and operands that meet them.
-/

namespace Sys2Proof.Tests

open Sys2Proof Sys2Proof.Machine Sys2Proof.Claims

set_option Elab.async false

/-! ## Ill-formed terms are refused, one for each check of `Instr.wf` -/

def anyV (vd vs2 : BitVec 5) (b : Src2) : VOp := { c := false, pg := 0, vd := vd, vs2 := vs2, b := b }
def anyU (vd vs2 : BitVec 5) : UOp := { c := false, pg := 0, vd := vd, vs2 := vs2 }
def anyM (mode : VMode) : MOp := { c := false, pg := 0, vd := 1, base := 5, mode := mode }

theorem test_wf_predicate_destination_p0 : Instr.wf (.pand 0 1 2) = false ∧ Instr.wf (.pwhile .lt 0 1 2) = false := by decide
theorem test_wf_bit_field_has_no_immediate : Instr.wf (.vbfx (anyV 1 2 (.vi 3))) = false := by decide
theorem test_wf_float_has_no_immediate : Instr.wf (.vfadd (anyV 1 2 (.vi 3))) = false := by decide
theorem test_wf_vfscl_takes_a_scalar : Instr.wf (.vfscl (anyV 1 2 (.vv 3))) = false := by decide
theorem test_wf_compare_destination_p0 : Instr.wf (.vcmpeq (anyV 0 2 (.vv 3))) = false ∧
    Instr.wf (.vfcmplt (anyV 0 2 (.vv 3))) = false := by decide
theorem test_wf_float_compare_has_no_immediate : Instr.wf (.vfcmple (anyV 1 2 (.vi 3))) = false := by decide
theorem test_wf_compress_has_no_guard : Instr.wf (.vcompress { anyU 1 2 with pg := 1 } 3) = false := by decide
theorem test_wf_slide_has_no_vector_amount : Instr.wf (.vslideup (anyV 1 2 (.vv 3))) = false := by decide
theorem test_wf_gather_takes_a_vector : Instr.wf (.vgather (anyV 1 2 (.vx 3))) = false := by decide
theorem test_wf_vmv_has_no_vs2 : Instr.wf (.vmv (anyV 1 2 (.vx 3))) = false := by decide
theorem test_wf_vid_has_no_source : Instr.wf (.vid (anyU 1 2)) = false := by decide
theorem test_wf_vldc_mode_and_guard : Instr.wf (.vldc (anyM (.es 3))) = false ∧
    Instr.wf (.vldc { anyM (.rc 3) with pg := 1 }) = false := by decide
theorem test_wf_vector_atomic_has_no_descriptor : Instr.wf (.vamoadd (anyM (.td 3))) = false := by decide
theorem test_wf_reserved_rounding_mode : Instr.wf (.rv (.fsqrt .s 5 1 2) none) = false := by decide
theorem test_wf_no_conversion_to_itself : Instr.wf (.rv (.fcvtFF .s .s 0 1 2) none) = false := by decide
theorem test_wf_halfword_of_a_word : Instr.wf (.rv (.opImm .addi 1 1 0) (some 0x0003)) = false := by decide
theorem test_wf_csr_read_by_csrrw : Instr.wf (.rv (.csrRead .rw false 1 0xC00) none) = false := by decide
theorem test_wf_csr_write_writes : Instr.wf (.vtypeWrite { op := .rs, rd := 1, src := .reg 0 }) = false ∧
    Instr.wf (.poolBoundaryWrite 3 { op := .rw, rd := 1, src := .reg 2 }) = false := by decide
theorem test_wf_csr_with_its_own_row : Instr.wf (.registerWrite (.csr 0x800 { op := .rw, rd := 1, src := .reg 2 })) = false := by decide

/-! ## Words of the spec, bit by bit, decode to what they stand for -/

/-- Table 20-1, VSHAPE: rs2 29, rs1 28, funct3 000, rd 30. -/
theorem test_decode_vshape : decodeTableWord 32 0b0000000_11101_11100_000_11110_0001011 = some (.vshape 30 28 29) := by decide +kernel
/-- PBR: funct3 and ps and the offset, as `bany p9, -3` prints it. -/
theorem test_decode_bany : decodeTableWord 32 0xFFFD2477 = some (.bany 9 0xFFFD) := by decide +kernel
/-- PRED: 1000, 000, rd 28, ps 1, 0 (Table 20-3). -/
theorem test_decode_ppopc : decodeTableWord 32 0b1000_000_011100_000001_000000_1101011 = some (.ppopc 28 1) := by decide +kernel
/-- VINT with an immediate: `vmul.vi v1, v0, 3`. -/
theorem test_decode_vmul : decodeTableWord 32 0x240030DB = some (.vmul { c := false, pg := 0, vd := 1, vs2 := 0, b := .vi 3 }) := by
  decide +kernel
/-- VINT, the one-source group: `vpopc v3, v5` and `vclz v3, v5`; the function code behind them is unassigned. -/
theorem test_decode_counts : decodeTableWord 32 0x060A01DB = some (.vpopc { c := false, pg := 0, vd := 3, vs2 := 5 }) ∧
    decodeTableWord 32 0x060A11DB = some (.vclz { c := false, pg := 0, vd := 3, vs2 := 5 }) ∧
    decodeTableWord 32 0x060A41DB = none := by decide +kernel
/-- VFLT: `vfadd v1, v0, v0`. -/
theorem test_decode_vfadd : decodeTableWord 32 0x000000FB = some (.vfadd { c := false, pg := 0, vd := 1, vs2 := 0, b := .vv 0 }) := by
  decide +kernel
/-- VPRM: `vmv`, `vcompress`, `vredsum v2, v3`. -/
theorem test_decode_vredsum : decodeTableWord 32 0xC6060157 = some (.vredsum { c := false, pg := 0, vd := 2, vs2 := 3 }) := by
  decide +kernel
/-- VMEM: `vld v0, (x5)` row-contiguous, and a store. -/
theorem test_decode_vld : decodeTableWord 32 0x0000502B = some (.vld { c := false, pg := 0, vd := 0, base := 5, mode := .rc 0 }) := by
  decide +kernel
/-- CTL: CR format, `renew a0, a1`, `tdld td3, a0`, `detach`. -/
theorem test_decode_control : decodeTableWord 32 0x04B5300B = some (.renew 10 11) ∧ decodeTableWord 32 0x0005718B = some (.tdld 3 10) ∧
    decodeTableWord 32 0x1000500B = some .detach := by decide +kernel
/-- The contraction unit: `bdset bd1, x5`, `attach x31, x5`. -/
theorem test_decode_contraction : decodeTableWord 32 0xA012D00B = some (.bdset 1 5) ∧
    decodeTableWord 32 0x0002DF8B = some (.attach 31 5) := by decide +kernel
/-- The counters: `cadd.dom`, `cwait.aq1.cluster a1, t5`. -/
theorem test_decode_counters : decodeTableWord 32 0x386A440B = some (.cadd .dom 20 6) ∧
    decodeTableWord 32 0x23E5C80B = some (.cwait true .cluster 11 30) := by decide +kernel
/-- The scalar core: `addi x5, x0, 1`, `c.nop`, `csrw chstep, x0`, `mret`, `ecall`. -/
theorem test_decode_scalar : decodeTableWord 32 0x00100293 = some (.rv (.opImm .addi 5 0 1) none) ∧
    decodeTableWord 16 0x0001 = some (.rv (.opImm .addi 0 0 0) (some 1)) ∧ decodeTableWord 32 0x30200073 = some .mret ∧
    decodeTableWord 32 0x00000073 = some (.rv .ecall none) := by decide +kernel
/-- R91: bits [4:2] = 0b111 belong to longer encodings. -/
theorem test_decode_long_encoding : decodeTableWord 32 0x0000001F = none := by decide +kernel
/-- R3: a nonzero bit in a reserved position is no instruction: NEXT with rd 1. -/
theorem test_decode_reserved_bit : decodeTableWord 32 0x0600008B = none := by decide +kernel

/-! ## States for the tests -/

/-- The hart after reset: M-mode, physical addresses. -/
def bareS : State := State.reset

/-- A hart that has an instruction's operands in x5, x6, x7. -/
def withX (a b c : Word) (s : State) : State := { s with hart := ((s.hart.setX 5 a).setX 6 b).setX 7 c }

/-- A bare hart with a shape of one row of four INT8 elements and all registers zero, one bank each for the register file and the
scratchpad. -/
def vecHart : Hart :=
  { Hart.reset 0 with
    vtype := 0x1C0#64, mfc := 0x8#64, vshp := 0x10004#64, poolv := 0x101#64, pools := 1, poolc := 62
    vregs := .zero, preds := .zero, sf := .zero, masks := { data := [(0, 1), (1, 1), (2, 1), (3, 1)], fill := .zero }, td := .zero
    tdAddr := .zero }
def vecS : State := { State.reset with hart := vecHart }

/-- A kernel of one hart key with four iterations, with USECU, USECOLL and POOLCTL. -/
def kern : Kernel where
  hdr := 0x1000
  sysrel := false
  overlap := false
  nosplice := false
  param := 7
  trans := 0
  exts := [4]
  waitCtr := 0
  waitTgt := 0
  doneCtr := 0
  flags := 0x32
  profile := 0x101000
  entry := 64
  setOff := 0
  nvreg := 32
  minRows := 1
  minLen := 1
  coreSp := 16384
  clSpb := 65536
  levels := [0]
  paramSz := 0
  pmask := 0
  feat := 0
  stack := 0
  maps := []

def launchL : Launch := { queue := 0, recIdx := 0, a := kern, pair := none, keys := [], left := [], ended := false }

def jobJ : Job where
  launch := 5
  key := []
  inSetup := false
  inB := false
  iter := some [0]
  stepU := 0
  stepJ := 0
  slot := none
  shadowAx := .zero
  shadowAf := .zero
  shadowBx := .zero
  shadowBf := .zero
  since := 0

/-- An enabled queue: ring at 0x4000 of 16 records, root table at 0x10000, every LAUNCH allowed. -/
def entryQ : BitVec 512 :=
  BitVec.ofNat 512 (0x4000 + 0x10000 * 2 ^ 64 + 0x80000004 * 2 ^ 256 + (2 ^ 64 - 1) * 2 ^ 320)
def queueQ : Queue := { Queue.reset with written := entryQ, installed := entryQ, state := .begun 5 }

/-- Memory with a page table at 0x10000 that maps the first GiB to itself, for every access of U-mode. -/
def tables : List Host.Cell := Memory.write (Memory.write [] 0x10000 (toBytes 8 (1 + 0x11 * 2 ^ 31))) 0x11000 (toBytes 8 0x7F)

/-- The package in full service, launch 5 of queue 0 on hart 0, with a cluster reservation. -/
def userS : State :=
  { State.reset with
    hart := { vecHart with mode := .u, job := some jobJ, pc := 0x2000 }
    mem := tables
    status := { StatusBlock.reset with ready := true, full := true }
    keys := [(0, none)]
    queues := [(0, queueQ)]
    launches := [(5, launchL)]
    nextLaunch := 6
    clusters := [(0, { Cluster.empty with resvs := [{ launch := 5, isB := false, base := 0, size := 65536 }] })]
    linksUp := true }

/-- A number as an instruction's bytes stand in memory at the pc. -/
def fetching (w : Nat) (s : State) : State := s.withFetchWord 32 w

/-! ## One step each -/

/-- The state that an instruction leaves; reset if it stops. -/
def after (i : Instr) (s : State) : State :=
  match exec i s with
  | .next t => t
  | _ => State.reset

/-- Bytes of vector register `n`, whose capacity in `vecS` is 8,192 bytes. -/
def withV (n : Nat) (bs : List Byte) (s : State) : State :=
  { s with hart := { s.hart with vregs := s.hart.vregs.putRange (n * 8192) bs } }
def byteV (n e : Nat) (s : State) : Byte := s.hart.vregs.get (n * 8192 + e)

/-- R352's examples under INT8: 100 + 50 gives −106 under VADD, and 127 with SAT under VSADD. -/
theorem test_vadd_wraps : byteV 1 0 (after (.vadd (anyV 1 2 (.vv 3))) (withV 2 [100] (withV 3 [50] vecS))) = BitVec.ofInt 8 (-106) := by
  decide +kernel
theorem test_vsadd_saturates :
    let t := after (.vsadd (anyV 1 2 (.vv 3))) (withV 2 [100] (withV 3 [50] vecS))
    byteV 1 0 t = 127 ∧ bitAt t.hart.vfflags 5 = true := by decide +kernel
/-- R352: 5 − 7 gives −2 under VSUB. -/
theorem test_vsub_borrows : byteV 1 0 (after (.vsub (anyV 1 2 (.vi 7))) (withV 2 [5] vecS)) = BitVec.ofInt 8 (-2) := by decide +kernel
/-- R378: vmin of 0x80 and 0x7F is 0x80, vminu of the same is 0x7F. -/
theorem test_vmin_is_signed : byteV 1 0 (after (.vmin (anyV 1 2 (.vv 3))) (withV 2 [0x80] (withV 3 [0x7F] vecS))) = 0x80 := by
  decide +kernel
theorem test_vminu_is_unsigned : byteV 1 0 (after (.vminu (anyV 1 2 (.vv 3))) (withV 2 [0x80] (withV 3 [0x7F] vecS))) = 0x7F := by
  decide +kernel
/-- R386: under INT8 an immediate of 9 shifts by 1. -/
theorem test_vsll_amount_modulo_width : byteV 1 0 (after (.vsll (anyV 1 2 (.vi 9))) (withV 2 [3] vecS)) = 6 := by decide +kernel
/-- R357: an element of 0 has w leading zeros. -/
theorem test_vclz_of_zero : byteV 1 0 (after (.vclz (anyU 1 2)) vecS) = 8 := by decide +kernel
/-- The destination may be the source, and elements behind the shape stay (R350). -/
theorem test_vmul_in_place :
    let t := after (.vmul (anyV 2 2 (.vi 3))) (withV 2 [1, 2, 3, 4, 5] vecS)
    byteV 2 3 t = 12 ∧ byteV 2 4 t = 5 ∧ t.hart.vxi = 0 ∧ t.hart.pc = 4 := by decide +kernel
/-- R359: selected elements move down, zeros follow. -/
theorem test_vcompress_moves_down :
    let s := withV 2 [1, 2, 3, 4] vecS
    let t := after (.vcompress (anyU 1 2) 3) { s with hart := { s.hart with preds := s.hart.preds.set 3 0b1010 } }
    byteV 1 0 t = 2 ∧ byteV 1 1 t = 4 ∧ byteV 1 2 t = 0 := by decide +kernel
/-- R381: the sum of the active elements is added to element 0. -/
theorem test_vredsum_adds_to_the_old : byteV 1 0 (after (.vredsum (anyU 1 2)) (withV 1 [10] (withV 2 [1, 2, 3, 4] vecS))) = 20 := by
  decide +kernel
/-- R93: bits from nel() up become 0. -/
theorem test_compare_clears_above :
    let t := after (.vcmpeq (anyV 5 2 (.vi 2))) { withV 2 [1, 2, 3, 2] vecS with
      hart := { (withV 2 [1, 2, 3, 2] vecS).hart with preds := vecHart.preds.set 5 0xFFFF } }
    t.hart.preds.get 5 = 0b1010 := by decide +kernel
/-- R332: with ps = p0, c is nel(), here 4, so PSUM adds 4 to x[rd]; PFIRST of no bit gives −1. -/
theorem test_psum_adds : (after (.psum 5 0) (withX 7 0 0 vecS)).hart.xr 5 = 11 := by decide +kernel
theorem test_pfirst_of_none : (after (.pfirst 5 3) vecS).hart.xr 5 = BitVec.allOnes 64 := by decide +kernel
/-- R43: a branch on any bit of p0 is taken; its offset counts words and is signed. -/
theorem test_bany_goes_back : (after (.bany 0 0xFFFF) { vecS with hart := { vecHart with pc := 0x100 } }).hart.pc = 0xFC := by
  decide +kernel
/-- R36: three rows asked for give two; the length is granted in x[rd]. -/
theorem test_vshape_rounds_rows_down :
    let t := after (.vshape 7 5 6) (withX 3 100 0 vecS)
    t.hart.rows = 2 ∧ t.hart.vl = 100 ∧ t.hart.xr 7 = 100 := by decide +kernel
/-- R382: rd takes the old VTYPE; ETYPE 3 is reserved. -/
theorem test_vsett_returns_the_old : (after (.vsett 6 5) (withX 0x1C8 0 0 vecS)).hart.xr 6 = 0x1C0 := by decide +kernel
theorem test_vsett_reserved_type : (after (.vsett 6 5) (withX 0x1CC 0 0 vecS)).hart.mcause = 2 := by decide +kernel
/-- A byte of memory goes to an element, a byte of an element to memory, at a bare hart. -/
theorem test_vst_stores_rows :
    let t := after (.vst (anyM (.rc 0))) (withX 0x100 0 0 (withV 1 [1, 2, 3, 4] vecS))
    Memory.read t.mem 0x100 5 = [1, 2, 3, 4, 0] := by decide +kernel
theorem test_vld_loads_what_vst_stored :
    let s := withX 0x100 0 0 vecS
    byteV 1 2 (after (.vld (anyM (.rc 0))) { s with mem := Memory.write [] 0x100 [9, 8, 7, 6] }) = 7 := by decide +kernel
/-- R183: ECALL from M-mode is cause 11; EBREAK 3. -/
theorem test_ecall_from_m : (after (.rv .ecall none) bareS).hart.mcause = 11 := by decide +kernel
theorem test_ebreak_saves_the_pc : (after (.rv .ebreak none) { bareS with hart := { bareS.hart with pc := 0x40 } }).hart.mepc = 0x40 := by
  decide +kernel
/-- R184: MRET goes to mepc in the mode of MPP, here U (0), and MIE takes MPIE. -/
theorem test_mret :
    let t := after .mret { bareS with hart := { bareS.hart with mepc := 0x80, mstatus := 0x80 } }
    t.hart.pc = 0x80 ∧ t.hart.mode = .u ∧ bitAt t.hart.mstatus 3 = true := by decide +kernel
/-- RISC-V: 0xFF is −1 as a byte; a word is stored low byte first. -/
theorem test_lb_sign_extends :
    (after (.rv (.load .lb 6 5 0) none) { withX 0x100 0 0 bareS with mem := [(0x100, 0xFF)] }).hart.xr 6 = BitVec.allOnes 64 := by
  decide +kernel
theorem test_sw_is_little_endian :
    Memory.read (after (.rv (.store .sw 5 6 0) none) (withX 0x100 0x04030201 0 bareS)).mem 0x100 4 = [1, 2, 3, 4] := by decide +kernel
/-- R183: a misaligned load raises cause 4 with its address in FADDR and 0 in mtval; an access fault has it in both. -/
theorem test_misaligned_load :
    let t := after (.rv (.load .lw 6 5 0) none) (withX 0x102 0 0 bareS)
    t.hart.mcause = 4 ∧ t.hart.mtval = 0 ∧ t.hart.faddr = 0x102 := by decide +kernel
theorem test_load_access_fault :
    let t := after (.rv (.load .lw 6 5 0) none) (withX 0x8000000000 0 0 bareS)
    t.hart.mcause = 5 ∧ t.hart.mtval = 0x8000000000 := by decide +kernel
/-- amoadd.w answers the old value and stores the sum. -/
theorem test_amoadd :
    let t := after (.rv (.amo .add false false false 7 5 6) none) { withX 0x100 3 0 bareS with mem := [(0x100, 4)] }
    t.hart.xr 7 = 4 ∧ Memory.get t.mem 0x100 = 7 := by decide +kernel
/-- lr.d then sc.d to the same bytes succeeds; without a reservation it fails. -/
theorem test_sc_after_lr :
    (after (.rv (.sc true false false 7 5 6) none) (after (.rv (.lr true false false 7 5) none) (withX 0x100 3 0 bareS))).hart.xr 7 = 0 := by
  decide +kernel
theorem test_sc_without_reservation : (after (.rv (.sc true false false 7 5 6) none) (withX 0x100 3 0 bareS)).hart.xr 7 = 1 := by
  decide +kernel
/-- 1.0 + 1.0 is 2.0 in FP64. -/
theorem test_fadd_d :
    let s := { bareS with hart := (bareS.hart.setF 1 0x3FF0000000000000).setF 2 0x3FF0000000000000 }
    (after (.rv (.farith .add .d 0 3 1 2) none) s).hart.fr 3 = 0x4000000000000000 := by decide +kernel
/-- R288: an accepted doorbell moves TAIL; one more than a ring ahead counts in DOORBAD. -/
theorem test_doorbell : ((after (.doorbellWrite 0 16) userS).queue 0).tail = 16 ∧
    (after (.doorbellWrite 0 17) userS).status.doorbad = 1 := by decide +kernel
/-- R18: 1,210 W is no step of 25 W. -/
theorem test_powerlimit_steps :
    (after (.powerlimit 1210) { userS with
      mailbox := { Mailbox.reset with command := some (toBytes 8 5 ++ toBytes 8 1210 ++ List.replicate 48 0) } }).mailbox.status = 3 := by
  decide +kernel
/-- R305: BDSET of 0 is ENGINE; 4,096 is taken. -/
theorem test_bdset : (after (.bdset 3 5) (withX 0 0 0 userS)).hart.mcause = 48 ∧
    (after (.bdset 3 5) (withX 4096 0 0 userS)).hart.bd[3]? = some 4096#13 := by decide +kernel
/-- R142: an unwritten block reads as all ones. -/
theorem test_spage_unwritten : (after (.spage 6 5) (withX 0x7E0000000000 0 0 vecS)).hart.xr 6 = BitVec.allOnes 64 := by decide +kernel

/-! ## Hypotheses that are met: the step, encodings, the scalar core -/

theorem witness_StepKeepsMemoryCanonical : bareS.memOk ∧ ∃ t, step bareS = .next t := ⟨rfl, _, rfl⟩
theorem witness_StepStopsOnlyWhenHalted :
    ({ bareS with status := { bareS.status with fatal := 1 } } : State).halted ∧
    ({ bareS with status := { bareS.status with fatal := 2 } } : State).halted ∧ ¬ bareS.halted :=
  ⟨⟨rfl, .inl rfl⟩, ⟨rfl, .inr rfl⟩, fun h => by
    have := h.2
    revert this
    decide⟩
theorem witness_StepRunsTheDecodedInstruction :
    let s := fetching 0x00100293 bareS
    s.agenda = [] ∧ s.status.fatal ≠ 1 ∧ s.status.fatal ≠ 2 ∧ s.hart.status = .running ∧ s.forcedDue = false ∧
    (s.hart.mode = .u → s.hart.atStoppedClause = none) ∧
    (fetchAt (s.fetchAccess s.hart.mode s.hart) s.hart.pc).run s = .ok (toBytes 4 0x00100293) s ∧
    decode (toBytes 4 0x00100293) = .ok (.rv (.opImm .addi 5 0 1) none, []) ∧ s.hart.clauseRuns = false :=
  ⟨rfl, by decide, by decide, rfl, rfl, by decide, rfl, by decide +kernel, rfl⟩
theorem witness_UndefinedWordTraps :
    (fetchAt (bareS.fetchAccess bareS.hart.mode bareS.hart) bareS.hart.pc).run bareS = .ok [0, 0] bareS ∧
    ∃ r, decode [0, 0] = .error r := ⟨rfl, _, rfl⟩
theorem witness_DecodeInvertsEncode :
    Instr.wf (.rv (.opImm .addi 5 5 1) (some 0x0285)) = true ∧ expandHalf 0x0285 = some (.opImm .addi 5 5 1) ∧
    encode (.rv (.opImm .addi 5 5 1) (some 0x0285)) = some [0x85, 0x02] ∧
    Instr.wf (.vshape 30 28 29) = true ∧ encode (.vshape 30 28 29) = some (toBytes 4 0x01DE0F0B) := by decide +kernel
theorem witness_DecoderFollowsTheLengthRule :
    decode (0x01 :: 0x00 :: [7]) = .ok (.rv (.opImm .addi 0 0 0) (some 1), [7]) ∧
    decode (0x0B :: 0x00 :: [0x00, 0x06, 7]) = .ok (.next, [7]) := by decide +kernel
theorem witness_ScalarArithmeticCompletes : arith bareS.hart (.opImm .addi 5 0 1) = some (5, 1) ∧
    arith bareS.hart (.lui 0 1) = some (0, 0x1000) := by decide +kernel
theorem witness_ScalarJumpsComplete : jump bareS.hart 4 (.jal 1 2) = some (some 1, 4) ∧
    jump bareS.hart 4 (.branch .eq 0 0 4) = some (none, 8) := by decide +kernel
theorem witness_ScalarLoadsAndStoresComplete :
    (memRead {} ((withX 0x100 7 0 bareS).hart.xr 5 + (0 : BitVec 12).signExtend 64) (ldBytes .ld)).run (withX 0x100 7 0 bareS) =
      .ok 0 (withX 0x100 7 0 bareS) ∧
    (∃ t, (memWrite {} ((withX 0x100 7 0 bareS).hart.xr 5 + (0 : BitVec 12).signExtend 64) (stBytes .sd) 7).run (withX 0x100 7 0 bareS) =
      .ok () t) ∧ bareS.hart.fsOn = true := ⟨rfl, ⟨_, rfl⟩, rfl⟩
theorem plain_user {h : Hart} (hj : h.job = some jobJ) : plainLaunch { userS with hart := h } := by
  intro l hl
  have : some launchL = some l := by
    rw [← hl]
    show some launchL = Option.bind h.job _
    rw [hj]
    rfl
  cases this
  exact ⟨rfl, by decide, rfl⟩
/-- The user's hart with one live block of its core scratchpad, the second of the window unwritten, the PTRAP of the header in `kern` set
or not. -/
def padU (ptrap pois : Bool) : State :=
  { userS with
    hart := { userS.hart with pool := [(4032, { Block.unwritten with live := true, poison := if pois then [0] else [] })] }
    launches := [(5, { launchL with a := { kern with flags := if ptrap then 0x36 else 0x32 } })] }
def winU : Window := ((padU true false).windowOf (padU true false).hart 0x7E0000000000).getD { lo := 0, size := 0, first := .mem 0 }
theorem plain_pad (ptrap pois : Bool) : plainLaunch (padU ptrap pois) := by
  intro l hl
  have : some { launchL with a := { kern with flags := if ptrap then 0x36 else 0x32 } } = some l := by
    rw [← hl]
    rfl
  cases this
  exact ⟨rfl, by show 65536 ≤ 2 ^ 23; decide, rfl⟩

/-- The last bytes of bare memory, a page that maps the first GiB to itself, the first bytes of the core's window. -/
theorem bare_holds (write : Bool) : Site.bare.holds bareS 0x7FFFFFF8 8 write :=
  ⟨by decide, by decide, ⟨rfl, by decide⟩, by decide⟩
theorem page_holds (write : Bool) : (Site.page 0x7F 0x11000 1).holds userS 0x2008 8 write :=
  ⟨by decide, by decide, rfl, plain_user rfl, by decide, by decide, by decide, by decide +kernel, by decide +kernel, by decide +kernel,
    by decide, fun _ => by decide, by decide, by decide, by decide, by decide, by decide +kernel, fun _ => by decide +kernel,
    fun h => absurd (by decide +kernel) h⟩
theorem window_holds (ptrap pois : Bool) (k : Nat) (hk : k = 0 ∨ k = 256) (write : Bool) :
    (Site.window winU).holds (padU ptrap pois) (0x7E0000000000 + BitVec.ofNat 64 k) 8 write := by
  refine ⟨by decide, by rcases hk with rfl | rfl <;> decide, rfl, plain_pad _ _, by cases ptrap <;> cases pois <;> decide +kernel, ?_⟩
  cases ptrap <;> cases pois <;> rcases hk with rfl | rfl <;> decide +kernel

theorem witness_AccessesOfMemory :
    bareS.memOk ∧ Site.bare.holds bareS 0x7FFFFFF8 8 true ∧ userS.memOk ∧ (Site.page 0x7F 0x11000 1).holds userS 0x2008 8 true ∧
    (padU true true).memOk ∧ (Site.window winU).holds (padU true true) 0x7E0000000000 8 false ∧
    poisonIn (padU true true) ((Site.window winU).places (padU true true) 0x7E0000000000 8) = some 2 ∧
    (padU true true).flag (padU true true).hart 2 = true ∧
    (Site.window winU).holds (padU false true) 0x7E0000000000 8 false ∧ (padU false true).flag (padU false true).hart 2 = false ∧
    poisonIn (padU false true) ((Site.window winU).places (padU false true) 0x7E0000000000 8) ≠ none ∧
    staleIn (padU false true) ((Site.window winU).places (padU false true) 0x7E0000000000 8) = none ∧
    (Site.window winU).holds (padU true false) 0x7E0000000100 8 false ∧
    staleIn (padU true false) ((Site.window winU).places (padU true false) 0x7E0000000100 8) = some 2 ∧
    (Site.window winU).holds (padU true false) 0x7E0000000000 8 true ∧
    staleIn (padU true false) ((Site.window winU).places (padU true false) 0x7E0000000000 8) = none ∧
    poisonIn (padU true false) ((Site.window winU).places (padU true false) 0x7E0000000000 8) = none :=
  ⟨rfl, bare_holds _, rfl, page_holds _, rfl, window_holds _ _ 0 (.inl rfl) _, by decide +kernel, by decide +kernel,
    window_holds _ _ 0 (.inl rfl) _, by decide +kernel, by decide +kernel, by decide +kernel, window_holds _ _ 256 (.inr rfl) _,
    by decide +kernel, window_holds _ _ 0 (.inl rfl) _, by decide +kernel, by decide +kernel⟩
theorem witness_AccessesForbidden :
    (0x7FFFFFFC#64).toNat % 8 ≠ 0 ∧ bare bareS ∧ bareS.physLimit ≤ (0x80000000#64).toNat ∧ userS.hart.mode = .u ∧ plainLaunch userS ∧
    inWindow (0x8000000000#64).toNat = false ∧ walk userS (0x8000000000#64).toNat 4 (rootFor userS) 0 = .invalid ∧
    sextN 48 (0x800000000000#64).toNat ≠ 0x800000000000#64 ∧
    ((padU true false).block (.core 0 1032192)).isSome = true :=
  ⟨by decide, ⟨rfl, by decide⟩, by decide, rfl, plain_user rfl, by decide, by decide +kernel, by decide, by decide +kernel⟩
theorem witness_TranslationSetsAccessedAndDirty :
    sextN 48 (0x2008#64).toNat = 0x2008#64 ∧ walk userS 0x2008 4 (userS.rootOf 0) 0 = .leaf 0x7F 0x11000 1 ∧
    ptePpn 0x7F * 4096 % pageSize 1 = 0 ∧ userS.keyLoaded (pteHome 0x7F) (pteKey 0x7F) = true ∧ pteHome 0x7F = userS.domainId ∧
    ptePpn 0x7F * 4096 + 0x2008 % pageSize 1 < userS.physLimit ∧
    walk userS 0x8000000000 4 (userS.rootOf 0) 0 = .invalid ∧
    walk { userS with mem := Memory.write tables 0x11000 (toBytes 8 0x27F) } 0x2008 4 (userS.rootOf 0) 0 = .leaf 0x27F 0x11000 1 ∧
    (0x27F : Nat).testBit 9 = true ∧ ptePpn 0x27F * 4096 % pageSize 1 = 0 := by decide +kernel
/-- Does an operation answer a value? -/
def ok' {α : Type} (x : Op α) (s : State) : Bool :=
  match x.run s with
  | .ok _ _ => true
  | .error _ _ => false
theorem witness_ScalarAtomicsComplete :
    let s := withX 0x100 7 0 bareS
    (∃ t, (memAmo {} (s.hart.xr 5) (amoBytes true) fun v => amoValue .add (8 * amoBytes true) v 7).run s = .ok 0 t) ∧
    s.memOk ∧ Site.bare.holds s (s.hart.xr 5) (amoBytes true) true ∧ Site.bare.holds s (s.hart.xr 5) (amoBytes true) false ∧
    ok' (memRead {} (s.hart.xr 5) (amoBytes true)) s = true ∧ reservedKey (Site.bare.places s (s.hart.xr 5).toNat 8) = 0x100 ∧
    s.hart.reservation = none ∧ (after (.rv (.lr true false false 7 5) none) s).hart.reservation = some (0x100, 8) :=
  ⟨⟨_, rfl⟩, rfl, ⟨by decide, by decide, ⟨rfl, by decide⟩, by decide⟩, ⟨by decide, by decide, ⟨rfl, by decide⟩, by decide⟩, rfl, rfl, rfl, rfl⟩
/-- The same from U-mode, of a mapped page and of the window: lr.d leaves its reservation, sc.d of the same bytes is covered. -/
theorem witness_ScalarAtomicsTranslated :
    let s := { userS with hart := (userS.hart.setX 5 0x2008).setX 6 3 }
    (Site.page 0x7F 0x11000 1).holds s (s.hart.xr 5) 8 true ∧ ok' (memRead {} (s.hart.xr 5) (amoBytes true)) s = true ∧
    reservedKey ((Site.page 0x7F 0x11000 1).places s (s.hart.xr 5).toNat 8) = 0x2008 ∧
    (after (.rv (.lr true false false 7 5) none) s).hart.reservation = some (0x2008, 8) ∧
    (Site.window winU).holds (padU true false) 0x7E0000000000 8 true ∧
    (after (.rv (.sc true false false 7 5 6) none) (after (.rv (.lr true false false 7 5) none) s)).hart.xr 7 = 0 :=
  ⟨⟨by decide, by decide, rfl, plain_user rfl, by decide, by decide, by decide, by decide +kernel, by decide +kernel, by decide +kernel,
      by decide, fun _ => by decide, by decide, by decide, by decide, by decide, by decide +kernel, fun _ => by decide +kernel,
      fun h => absurd (by decide +kernel) h⟩, by decide +kernel, by decide +kernel, by decide +kernel, window_holds _ _ 0 (.inl rfl) _,
    by decide +kernel⟩
theorem witness_ScalarFloatCompletes :
    (fpOp (.farith .add .d 0 3 1 2)).isSome = true ∧ bareS.hart.fsOn = true ∧ (rmNamed bareS.hart 0).isSome = true ∧
    ({ bareS with hart := { bareS.hart with mstatus := 0 } } : State).hart.fsOn = false := ⟨rfl, rfl, rfl, rfl⟩
theorem witness_RepresentableValuesRoundToThemselves : decodeF Fmt.f32 0x3F800000 = .fin false 0x800000 (-23) ∧
    0x3F800000 < 2 ^ Fmt.f32.width := by decide +kernel

/-! ## Registers, traps and handlers -/

/-- CSRRW with x0 as destination from register 5. -/
def writeFrom5 : CsrAcc := { op := .rw, rd := 6, src := .reg 5 }

theorem witness_VtypeAndMfcWrites :
    vtypeOk (newValue (withX 0x1DC 0 0 bareS) 0x800 writeFrom5) = true ∧ vtypeOk (newValue (withX 0 0 0 bareS) 0x800 writeFrom5) = false ∧
    bits (newValue (withX 8 0 0 bareS) 0x801 writeFrom5) 0 3 ≠ 3 ∧ bits (newValue (withX 3 0 0 bareS) 0x801 writeFrom5) 0 3 = 3 := by
  decide +kernel
theorem witness_VxiWrites :
    vecS.hart.mode = .m ∧ (newValue (withX 4 0 0 vecS) 0x802 writeFrom5).toNat ≤ vecS.hart.nel ∧
    vecS.hart.nel < (newValue (withX 5 0 0 vecS) 0x802 writeFrom5).toNat ∧ userS.hart.mode = .u := by decide +kernel
theorem witness_VvalidWrites :
    vecS.hart.vvselOk (vecS.nvreg vecS.hart) = true ∧
    ({ vecS.hart with vtype := 0x1C1, vvsel := 1 } : Hart).vvselOk (vecS.nvreg vecS.hart) = false := by decide +kernel
theorem witness_BdWrites :
    (1 ≤ bits (newValue (withX 4096 0 0 userS) 0x813 writeFrom5) 0 13 ∧ bits (newValue (withX 4096 0 0 userS) 0x813 writeFrom5) 0 13 ≤ 4096) ∧
    ¬ (1 ≤ bits (newValue (withX 0 0 0 userS) 0x813 writeFrom5) 0 13) ∧
    ¬ (bits (newValue (withX 4097 0 0 userS) 0x813 writeFrom5) 0 13 ≤ 4096) := by decide +kernel
/-- With V 1, S 1, C 62 of 64 banks, C may be 62 and not 0, nor may S be 2. -/
theorem witness_PoolBoundaryWrites :
    bits (newValue (withX 62 0 0 vecS) 0x7C2 writeFrom5) 0 7 = 62 ∧ vecS.hart.vbanks + 62 + vecS.hart.sbanks ≤ 64 ∧
    vecS.hart.vbanks ≤ vecS.hart.vmax ∧ vecS.hart.vmax ≤ 63 ∧ vecS.coreBusy vecS.hart = false ∧
    bits (newValue (withX 0 0 0 vecS) 0x7C2 writeFrom5) 0 7 = 0 ∧ userS.flag userS.hart 1 = true ∧
    ({ userS with launches := [(5, { launchL with a := { kern with flags := 0 } })] } : State).flag userS.hart 1 = false := by decide +kernel
theorem witness_CsrAccessesComplete :
    csrAllowed bareS 0xB02 false = true ∧ csrAllowed userS 0x340 false = false ∧ csrAllowed bareS 0x340 true = true ∧
    (csrWrite 0x340 (newValue bareS 0x340 writeFrom5)).run bareS =
      .ok () { bareS with hart := { bareS.hart with mscratch := newValue bareS 0x340 writeFrom5 } } ∧
    csrAllowed bareS 0xF14 true = false ∧ userS.hart.mode = .u ∧ bareS.hart.mode = .m ∧ 0x340 / 256 % 4 = 3 :=
  ⟨by decide +kernel, by decide +kernel, by decide +kernel, rfl, by decide +kernel, rfl, rfl, rfl⟩
theorem witness_TrapEntrySavesAndEnters :
    (userS.hart.mode = .u → isHookCause 13 = false ∧ (13 : Nat) ≠ 8) ∧ (bareS.hart.mode = .u → isHookCause 25 = false ∧ (25 : Nat) ≠ 8) := by
  decide +kernel
theorem witness_MretResumes :
    bareS.hart.mode = .m ∧ userS.hart.mode = .u ∧
    ({ bareS with hart := returnFromTrap bareS.hart } : State).vectorAt .m bareS.hart.mepc = false ∧
    (let s := fetching 0x000000DB { bareS with hart := { bareS.hart with mstatus := 0x1800 } }
     ({ s with hart := returnFromTrap s.hart } : State).vectorAt (mppOf s.hart.mstatus) s.hart.mepc) = true := by decide +kernel
theorem witness_HookReceivesTheTrap :
    let s : State := { userS with hart := { userS.hart with hook := some 0x3000 } }
    s.hart.mode = .u ∧ isHookCause 25 = true ∧ s.hart.hook = some 0x3000 ∧ s.hart.hookSave = none := ⟨rfl, rfl, rfl, rfl⟩

/-- An ECALL of a number, from U-mode in a launch; inside a hook where `c` says so. -/
def asking (n : Word) (c : Option HookSave) : State :=
  { userS with hart := { userS.hart.setX 17 n with hookSave := c } }
def copyC : HookSave := { x := .zero, f := .zero, fcsr := 0, mepc := 0x2040, vxi := 0, mcause := 24, kcause := 0, faddr := 0 }

theorem witness_EnvironmentCallsComplete :
    (asking 0x100 none).hart.mode = .u ∧ ((asking 0x100 none).hart.xr 17).toNat = 0x100 ∧
    ((asking 0x101 (some copyC)).hart.xr 17).toNat = 0x101 ∧ (asking 0x101 (some copyC)).hart.hookSave = some copyC ∧
    (asking 0x102 none).hart.job = some jobJ ∧ ((asking 0x102 none).hart.xr 17).toNat = 0x102 ∧
    ((asking 0xFF none).hart.xr 17).toNat < 0x100 ∧ 0x102 < ((asking 0x103 none).hart.xr 17).toNat := by decide +kernel
theorem witness_EndedLaunchStopsItsQueue : userS.launches.get? 5 = some launchL ∧ userS.hart.inLaunch 5 = true := ⟨rfl, rfl⟩

/-! ## Vector instructions -/

theorem undisturbed_vec : undisturbed vecS.hart := ⟨rfl, rfl⟩
theorem joins_vec (u : VUnit) : joins u false vecS.hart := .inr (.inl rfl)

theorem witness_PredicatesComplete :
    (∃ e, e < vecS.hart.nel ∧ pbit vecS.hart 0 e = true) ∧ (∀ e, e < vecS.hart.nel → pbit vecS.hart 3 e = false) ∧
    (predicateBit vecS.hart (.pand 3 0 0)).isSome = true ∧ (predicateRead vecS.hart (.ppopc 5 0)).isSome = true ∧
    joins .pred false vecS.hart ∧ undisturbed vecS.hart ∧ ¬ joins .pred false { vecS.hart with freshConvoy := false, convoy := [.pred] } :=
  ⟨⟨0, by decide, by decide +kernel⟩, by decide +kernel, by decide +kernel, by decide +kernel, joins_vec _, undisturbed_vec, by
    intro h
    rcases h with h | h | h
    · cases h
    · cases h
    · exact h (by decide)⟩

/-- Each family's checks pass on the four-element state, under INT8 or FP32; they fail on a group that N cuts off. -/
theorem witness_VintCompletes : ∃ L, vintLane vecS (.vadd (anyV 1 2 (.vv 3))) = some L ∧ L.passes vecS ∧ undisturbed vecS.hart :=
  ⟨_, rfl, ⟨by decide +kernel, by decide +kernel, rfl, joins_vec _⟩, undisturbed_vec⟩
def fltS : State := { vecS with hart := { vecHart with vtype := 0x1DC } }
theorem witness_VfltCompletes : ∃ L, vfltLane fltS (.vfma (anyV 1 2 (.vv 3))) = some L ∧ L.passes fltS ∧ undisturbed fltS.hart :=
  ⟨_, rfl, ⟨by decide +kernel, by decide +kernel, by decide +kernel, .inr (.inl rfl)⟩, ⟨rfl, rfl⟩⟩
theorem witness_VprmElementsComplete :
    ∃ L, vprmLane vecS (.vgather (anyV 1 2 (.vv 3))) = some L ∧ L.passes vecS ∧ undisturbed vecS.hart :=
  ⟨_, rfl, ⟨by decide +kernel, by decide +kernel, rfl, joins_vec _⟩, undisturbed_vec⟩
theorem witness_VectorChecksRaiseIllegalInstruction : ∃ L, vfltLane vecS (.vfadd (anyV 1 2 (.vv 3))) = some L ∧ ¬ L.passes vecS :=
  ⟨_, rfl, fun h => by
    have := h.2.2.1
    revert this
    decide +kernel⟩
theorem witness_VintFunctionsFollowTheSpec : 0 < 8 ∧ (8 : Nat) ∈ [8, 16, 32] ∧ 7 < 8 := by decide
theorem witness_VectorComparesComplete :
    (∃ f, compareOf vecS (.vcmpeq (anyV 5 2 (.vv 3))) = some (anyV 5 2 (.vv 3), true, f)) ∧
    (∀ r ∈ (2 : BitVec 5) :: srcRegs (.vv 3), r.toNat % vecS.hart.grp = 0 ∧ r.toNat + vecS.hart.grp ≤ vecS.nvreg vecS.hart) ∧
    vecS.hart.nel * vecS.hart.eb ≤ vecS.hart.grp * vecS.capC vecS.hart ∧ joins .vprm false vecS.hart ∧ undisturbed vecS.hart :=
  ⟨⟨_, rfl⟩, by decide +kernel, by decide +kernel, joins_vec _, undisturbed_vec⟩
theorem witness_VectorWholeRegisterOperationsComplete :
    checked vecS .vprm false 1 2 true ∧ undisturbed vecS.hart ∧
    (∃ op, reductionOf vecS (.vredsum (anyU 1 2)) = some (anyU 1 2, true, op)) ∧ activeOnes vecS 0 ≠ [] ∧ vecS.hart.nel ≤ 2 ^ 14 ∧
    checked fltS .vflt false 1 2 (isFloat fltS.hart.etype && fltS.hart.scalesFit 0) :=
  ⟨⟨by decide +kernel, by decide +kernel, rfl, joins_vec _⟩, undisturbed_vec, ⟨_, rfl⟩, by decide +kernel, by decide +kernel,
    ⟨by decide +kernel, by decide +kernel, by decide +kernel, .inr (.inl rfl)⟩⟩

/-! ## Vector memory -/

/-- The four-element state with addresses in x5, x6. -/
def memS : State := withX 0x100 4 0 vecS

theorem access_bare {s : State} (hb : bare s) : s.access s.hart = .phys := by
  simp [State.access, hb.1]
  exact fun a b => hb.2 ⟨a, b⟩

/-- A bare read of clean memory is the same whatever the vector state. -/
theorem reads_bare {s : State} (hb : bare s) {va : Word} {n : Nat} (hl : va.toNat + n ≤ s.physLimit)
    (hc : cleanBytes s va.toNat n) (w : Who) (h : Hart) (hv : sameView h s.hart) :
    (readUncounted w (State.access { s with hart := h } h) .load .running va n).run { s with hart := h } =
      .ok (Memory.read s.mem va.toNat n, false) { s with hart := h } := by
  have ha : State.access { s with hart := h } h = .phys := by
    have hm : h.mode = s.hart.mode := by rw [hv]
    have hp : h.mstatus = s.hart.mstatus := by rw [hv]
    exact access_bare (s := { s with hart := h }) ⟨by rw [hm]; exact hb.1, by rw [hp]; exact hb.2⟩
  rw [ha]
  exact readUncounted_phys (s := { s with hart := h }) hl hc

/-- Of an aligned value of memory. -/
theorem reads_as {s : State} (hb : bare s) {va : Word} {n : Nat} (hl : va.toNat + n ≤ s.physLimit)
    (hc : cleanBytes s va.toNat n) (ha : va.toNat % n = 0) (w : Who) : readsAs s w va n (ofBytes (Memory.read s.mem va.toNat n)) := by
  intro h hv
  have key := reads_bare hb hl hc w h hv
  unfold memRead readBytes
  simp [ha, key]

theorem reads_byte (w : Who) (k : Nat) (hk : k < 16) : readsAs memS w (0x100 + BitVec.ofNat 64 k) 1 0 :=
  reads_as (s := memS) ⟨rfl, by decide⟩ (by interval_cases k <;> decide +kernel) (fun _ _ => rfl) (Nat.mod_one _) w

theorem witness_VectorStoresComplete :
    let S := vstStores memS (anyM (.rc 0)) (fun _ => 0)
    (∀ r ∈ (1 : BitVec 5) :: indexRegs (.rc 0), r.toNat % memS.hart.grp = 0 ∧ r.toNat + memS.hart.grp ≤ memS.nvreg memS.hart) ∧
    memS.hart.nel * memS.hart.eb ≤ memS.hart.grp * memS.capC memS.hart ∧ convertSuits (encOf memS.hart (.rc 0)) memS.hart = true ∧
    joins .vmem false memS.hart ∧ undisturbed memS.hart ∧ S.storable memS ∧ tableHolds memS (anyM (.rc 0)) (fun _ => 0) S := by
  refine ⟨by decide +kernel, by decide +kernel, by decide +kernel, .inr (.inl rfl), ⟨rfl, rfl⟩, ⟨⟨rfl, by decide +kernel⟩, rfl, ?_⟩, ?_⟩
  · intro e va h0 h1 h2 h3
    have h4 : e < 4 := h1
    interval_cases e <;> (cases h3; refine ⟨?_, ?_, fun _ _ => rfl⟩ <;> decide +kernel)
  · intro n e h
    cases h
theorem witness_VectorScaleStore :
    8 * (0 : BitVec 5).toNat + memS.hart.nblk ≤ 256 ∧ memS.hart.nblk = 1 ∧
    (memS.hart.xr 5 + BitVec.ofNat 64 0 * memS.hart.xr 6).toNat % 4 = 0 := by decide +kernel
theorem witness_VectorAtomicsComplete :
    (∀ r ∈ (1 : BitVec 5) :: indexRegs (.rc 0), r.toNat % memS.hart.grp = 0 ∧ r.toNat + memS.hart.grp ≤ memS.nvreg memS.hart) ∧
    memS.hart.menc = memS.hart.etype ∧ memS.hart.scl = false ∧ (reads memS).regValid 1 0 = true ∧
    vamoOf (.vamoadd (anyM (.rc 0))) = some (anyM (.rc 0), .add) ∧ ∀ n, (anyM (.rc 0)).mode ≠ .td n :=
  ⟨by decide +kernel, by decide +kernel, by decide +kernel, by decide +kernel, rfl, fun _ h => by cases h⟩

/-- The four-element state with its elements in a row from `x`; draws counted from `k`. -/
def lineS (x : Word) (k : Nat) : State := { withX x 4 0 vecS with freeCtr := k }
def rowTrap : Trap := { cause := 7, elem := 1, addr := some 0x80000000, unit := 2, mtvalAddr := true }

/-- What holds of the hart whatever its vector state holds under every other vector state. -/
theorem view_split {P : Hart → Prop} {g : Hart}
    (hp : ∀ a b c d e f k, P { g with vregs := a, masks := b, vfflags := c, sf := d, vcbytes := e, convoy := f, freshConvoy := k }) :
    ∀ h, sameView h g → P h := fun _ hv => hv ▸ hp _ _ _ _ _ _ _

theorem bare_row (x : Word) (k : Nat) : bare (lineS x k) :=
  ⟨rfl, fun h => absurd h.1 (by show ¬ bitAt (Hart.reset 0).mstatus 17 = true; decide)⟩
/-- The same under other vector state. -/
def rowV (x : Word) (k : Nat) (a : File 8) (b : File 64) (c : Word) (d : File 32) (e : Word) (f : List VUnit) (z : Bool) : State :=
  { lineS x k with hart := { (lineS x k).hart with
    vregs := a, masks := b, vfflags := c, sf := d, vcbytes := e, convoy := f, freshConvoy := z } }
/-- A zero stored over zero, whatever the vector state. -/
theorem zero_accessed (w : Who) (x : Word) (k : Nat) {va : Word} (h : va.toNat + 1 ≤ 2 ^ 31) :
    accessed (memWrite w va 1 0) (lineS x k) (lineS x (k + 1)) :=
  ⟨rfl, view_split fun a b c d e f z =>
    memWrite_phys (s := rowV x k a b c d e f z) (access_bare (bare_row x k)) (Nat.mod_one _) h⟩
theorem row_traps (x : Word) (k : Nat) {va : Word} (h : 2 ^ 31 ≤ va.toNat) :
    accessTraps (memWrite (elemWho 1) va 1 0) { rowTrap with addr := some va } (lineS x k) (lineS x k) :=
  view_split fun a b c d e f z =>
    memWrite_phys_fault (s := rowV x k a b c d e f z) (access_bare (bare_row x k)) (Nat.mod_one _) h
/-- An atomic that leaves zero for zero. -/
theorem zero_amo (w : Who) (x : Word) (k : Nat) {va : Word} {f : Nat → Nat} (hf : f 0 = 0) (h : va.toNat + 1 ≤ 2 ^ 31) :
    accessed (discard (memAmo w va 1 f)) (lineS x k) (lineS x (k + 1)) := by
  refine ⟨rfl, view_split fun a b c d e f' z => ?_⟩
  have hp := memAmo_phys (w := w) (f := f) (s := rowV x k a b c d e f' z) (access_bare (bare_row x k)) (Nat.mod_one _) h fun _ _ => rfl
  have h0 : ofBytes (Memory.read (rowV x k a b c d e f' z).mem va.toNat 1) = 0 := rfl
  simp only [h0, hf] at hp
  show ((fun _ => ()) <$> memAmo w va 1 f).run (rowV x k a b c d e f' z) = _
  rw [Op.run_map, hp]
  rfl
theorem row_amo_traps (x : Word) (k : Nat) {va : Word} (f : Nat → Nat) (h : 2 ^ 31 ≤ va.toNat) :
    accessTraps (discard (memAmo (streamWho 1) va 1 f)) { cause := 7, elem := 1, addr := some va, unit := 2 } (lineS x k) (lineS x k) := by
  refine view_split fun a b c d e f' z => ?_
  show ((fun _ => ()) <$> memAmo (streamWho 1) va 1 f).run (rowV x k a b c d e f' z) = _
  rw [Op.run_map, memAmo_phys_fault (s := rowV x k a b c d e f' z) (access_bare (bare_row x k)) (Nat.mod_one _) h]
  rfl

theorem row_unpoisoned (x : Word) (k : Nat) : unpoisoned (lineS x k) := fun l => by
  cases l with
  | mem a => rfl
  | core h b =>
    have hp : ((lineS x k).hartOf h).pool = [] := by
      unfold State.hartOf
      split <;> rfl
    simp [State.poisonSub, State.block, hp, Block.unwritten, Tab.get?]
  | cluster c b => rfl

/-- What one of its elements does: a zero stored at its address. -/
theorem row_does (x : Word) (k e : Nat) {va : Word}
    (hd : (lineS x 0).hart.active 0 e = true ∧ ebOf (encOf (lineS x 0).hart (.rc 0)) = 1 ∧ (stored (lineS x 0) (anyM (.rc 0)) e).1 = 0 ∧
      vaddr (lineS x 0) (anyM (.rc 0)) 1 (fun _ => 0) e = some va ∧ va.toNat + 1 ≤ 2 ^ 31) :
    storeDoes (lineS x 0) (anyM (.rc 0)) (fun _ => 0) e (lineS x k) (lineS x (k + 1)) := by
  obtain ⟨ha, h1, h0, hv, h⟩ := hd
  have hm : (anyM (.rc 0)).mode = .rc 0 := rfl
  have hp : (anyM (.rc 0)).pg = 0 := rfl
  unfold storeDoes
  simp only [hm, hp, h1, hv, h0, ha, if_true]
  exact ⟨fun _ h => (by cases h), zero_accessed _ x k h⟩

theorem witness_StoresInTurn :
    let m := anyM (.rc 0)
    (let s := lineS 0x100 0
     vmemPasses s false (m.vd :: indexRegs m.mode) (convertSuits (encOf s.hart m.mode) s.hart = true) ∧ unpoisoned s ∧
     inTurn (storeDoes s m (fun _ => 0)) 4 0 s (lineS 0x100 4)) ∧
    (let s := lineS 0x7FFFFFFF 0
     vmemPasses s false (m.vd :: indexRegs m.mode) (convertSuits (encOf s.hart m.mode) s.hart = true) ∧ unpoisoned s ∧
     (s.hart.vxi ≤ 1 ∧ 1 < s.hart.nel ∧ s.hart.active 0 1 = true ∧ vaddr s m 1 (fun _ => 0) 1 = some 0x80000000 ∧
       (stored s m 1).1 = 0 ∧ ebOf (encOf s.hart m.mode) = 1) ∧
     inTurn (storeDoes s m (fun _ => 0)) 1 0 s (lineS 0x7FFFFFFF 1) ∧ ownerReads (lineS 0x7FFFFFFF 1) m (fun _ => 0) 1 ∧
     accessTraps (memWrite (elemWho 1) 0x80000000 1 0) { rowTrap with addr := some 0x80000000 } (lineS 0x7FFFFFFF 1) (lineS 0x7FFFFFFF 1)) :=
  ⟨⟨⟨by decide +kernel, by decide +kernel, by decide +kernel, .inr (.inl rfl), rfl, rfl⟩, row_unpoisoned _ _,
      ⟨_, row_does _ 0 0 (va := 0x100) (by decide +kernel), _, row_does _ 1 1 (va := 0x101) (by decide +kernel),
        _, row_does _ 2 2 (va := 0x102) (by decide +kernel), _, row_does _ 3 3 (va := 0x103) (by decide +kernel), rfl⟩⟩,
    ⟨by decide +kernel, by decide +kernel, by decide +kernel, .inr (.inl rfl), rfl, rfl⟩, row_unpoisoned _ _, by decide +kernel,
    ⟨_, row_does _ 0 0 (va := 0x7FFFFFFF) (by decide +kernel), rfl⟩, fun _ h => (by cases h), row_traps _ 1 (by decide)⟩

/-- What one element of VAMOADD does: zero added to zero at its address. -/
theorem row_adds (x : Word) (k e : Nat) {va : Word}
    (hd : ((lineS x 0).hart.active 0 e = true ∧ (reads (lineS x 0)).regValid 1 e = true) ∧ (lineS x 0).hart.eb = 1 ∧
      vamoOp .add (lineS x 0).hart.etype 0 ((reads (lineS x 0)).elem 1 e) = 0 ∧
      vaddr (lineS x 0) (anyM (.rc 0)) 1 (fun _ => 0) e = some va ∧ va.toNat + 1 ≤ 2 ^ 31) :
    vamoDoes (lineS x 0) (anyM (.rc 0)) .add e (lineS x k) (lineS x (k + 1)) := by
  obtain ⟨ha, h1, h0, hv, h⟩ := hd
  have hm : (anyM (.rc 0)).vd = 1 := rfl
  have hp : (anyM (.rc 0)).pg = 0 := rfl
  unfold vamoDoes vamoAt
  rw [if_pos (by rw [hm, hp]; exact ha), h1, hm]
  exact ⟨va, hv, zero_amo _ x k h0 h⟩

theorem witness_VectorAtomicsInTurn :
    let m := anyM (.rc 0)
    vamoOf (.vamoadd m) = some (m, .add) ∧ (∀ n, m.mode ≠ .td n) ∧
    (let s := lineS 0x100 0
     vmemPasses s false (m.vd :: indexRegs m.mode) (s.hart.menc = s.hart.etype ∧ s.hart.scl = false) ∧
     inTurn (vamoDoes s m .add) 4 0 s (lineS 0x100 4)) ∧
    (let s := lineS 0x7FFFFFFF 0
     vmemPasses s false (m.vd :: indexRegs m.mode) (s.hart.menc = s.hart.etype ∧ s.hart.scl = false) ∧
     (s.hart.vxi ≤ 1 ∧ 1 < s.hart.nel ∧ s.hart.active 0 1 = true ∧ (reads s).regValid 1 1 = true ∧
       vaddr s m s.hart.eb (fun _ => 0) 1 = some 0x80000000) ∧
     inTurn (vamoDoes s m .add) 1 0 s (lineS 0x7FFFFFFF 1) ∧
     accessTraps (vamoAt s m .add 1 0x80000000) { cause := 7, elem := 1, addr := some 0x80000000, unit := 2 }
       (lineS 0x7FFFFFFF 1) (lineS 0x7FFFFFFF 1)) :=
  ⟨rfl, fun _ h => (by cases h), ⟨⟨by decide +kernel, by decide +kernel, by decide +kernel, .inr (.inl rfl), rfl, rfl⟩,
      ⟨_, row_adds _ 0 0 (va := 0x100) (by decide +kernel), _, row_adds _ 1 1 (va := 0x101) (by decide +kernel),
        _, row_adds _ 2 2 (va := 0x102) (by decide +kernel), _, row_adds _ 3 3 (va := 0x103) (by decide +kernel), rfl⟩⟩,
    ⟨by decide +kernel, by decide +kernel, by decide +kernel, .inr (.inl rfl), rfl, rfl⟩, by decide +kernel,
    ⟨_, row_adds _ 0 0 (va := 0x7FFFFFFF) (by decide +kernel), rfl⟩, row_amo_traps _ 1 _ (by decide)⟩

theorem witness_VectorLoadsComplete :
    (loadLane memS (anyM (.rc 0)) (fun _ => some 0)).passes memS ∧ undisturbed memS.hart ∧
    (∀ e, (loadLane memS (anyM (.rc 0)) (fun _ => some 0)).acts memS.hart e →
      loadReads memS (anyM (.rc 0)) (fun _ => 0) (fun _ => some 0) e) := by
  refine ⟨⟨by decide +kernel, by decide +kernel, by decide +kernel, .inr (.inl rfl)⟩, ⟨rfl, rfl⟩, ?_⟩
  intro e he
  have h4 : e < 4 := he.1
  refine ⟨fun n h => (by cases h), ?_⟩
  interval_cases e
  · exact ⟨0, rfl, reads_byte _ 0 (by decide)⟩
  · exact ⟨0, rfl, reads_byte _ 1 (by decide)⟩
  · exact ⟨0, rfl, reads_byte _ 2 (by decide)⟩
  · exact ⟨0, rfl, reads_byte _ 3 (by decide)⟩


/-- Sixteen elements in a row, addresses in x5, a budget of 2 bytes in x6. -/
def rowS : State := withX 0x100 2 0 { vecS with hart := { vecHart with vshp := 0x10010 } }

/-- One group whose mask is zero fits the budget; VXI 0. -/
theorem witness_VldcCompletes :
    checked rowS .vmem false 1 1 (convertSuits rowS.hart.menc rowS.hart) ∧ undisturbed rowS.hart ∧ rowS.hart.skipped = [] ∧
    rowS.hart.vxi = 16 * 0 ∧ 16 * 1 ≤ rowS.hart.nel ∧ rowS.hart.nel ≤ 8192 ∧ (rowS.hart.xr 5).toNat % 2 = 0 ∧
    0 + 2 + popcount 16 0 * ebOf rowS.hart.menc ≤ (rowS.hart.xr 6).toNat ∧ ¬ 16 * (1 + 1) ≤ rowS.hart.nel ∧
    (∀ h e, sameView h rowS.hart → (streamRead e (rowS.hart.xr 5 + BitVec.ofNat 64 0) 2).run { rowS with hart := h } =
      .ok (0, false) { rowS with hart := h }) := by
  refine ⟨⟨by decide +kernel, by decide +kernel, rfl, .inr (.inl rfl)⟩, ⟨rfl, rfl⟩, rfl, by decide, by decide +kernel, by decide +kernel,
    by decide, by decide +kernel, by decide +kernel, ?_⟩
  intro h e hv
  have key := reads_bare (s := rowS) (va := rowS.hart.xr 5 + BitVec.ofNat 64 0) (n := 2) ⟨rfl, by decide⟩ (by decide +kernel)
    (fun _ _ => rfl) (streamWho (16 * e)) h hv
  have hz : Memory.read rowS.mem (rowS.hart.xr 5 + BitVec.ofNat 64 0).toNat 2 = [0, 0] := rfl
  rw [hz] at key
  unfold streamRead
  simp only [Op.run_bind, Op.run_get]
  rw [key]
  rfl
theorem witness_VldcMisaligned : (convertSuits vecS.hart.menc vecS.hart) = true ∧ ((withX 0x101 0 0 vecS).hart.xr 5).toNat % 2 = 1 := by
  decide +kernel
theorem witness_VlscCompletes :
    8 * (0 : BitVec 5).toNat + memS.hart.nblk ≤ 256 ∧ memS.hart.active 0 0 = true ∧
    ∀ w, readsAs memS w (memS.hart.xr 5 + BitVec.ofNat 64 0 * memS.hart.xr 6) 4 0 :=
  ⟨by decide +kernel, by decide +kernel, fun w => reads_as (s := memS) (va := memS.hart.xr 5 + BitVec.ofNat 64 0 * memS.hart.xr 6)
    ⟨rfl, by decide⟩ (by decide +kernel) (fun _ _ => rfl) (by decide +kernel) w⟩
theorem witness_VectorShapeComplete :
    vecS.hart.requestPending = false ∧ ({ userS.hart with preq := 1, mie := 0x10000 } : Hart).requestPending = true ∧
    ((withX 0x1C8 0 0 vecS).hart.xr 5 &&& ~~~ 0x1FDF#64 = 0 ∧ vtypeOk ((withX 0x1C8 0 0 vecS).hart.xr 5) = true) ∧
    (withX 0x20 0 0 vecS).hart.xr 5 &&& ~~~ 0x1FDF#64 ≠ 0 ∧ vtypeOk ((withX 3 0 0 vecS).hart.xr 5) = false := by decide +kernel

/-! ## Clauses, fences, scratchpads, rings -/

/-- vadd.vv v1, v2, v3 as a word. -/
def vaddWord : Nat := ofBytes ((encode (.vadd (anyV 1 2 (.vv 3)))).getD [])
/-- A clause of that one word at the pc, trip count 3 in x6. -/
def clauseS : State := withX 0 3 0 { vecS with mem := Memory.write [] 4 (toBytes 4 vaddWord) }
/-- That clause begun, at its first pass. -/
def inClause : Clause :=
  { pc := 4, ops := [.mk (BitVec.ofNat 32 vaddWord) 0 0], mask := 0, trips := 3, done := 1, cur := 0, begun := false, puts := [],
    stopped := none, heldIn := .m, mode := .m, fenced := false }
def clausedS : State := { clauseS with hart := { clauseS.hart with clause := some inClause, pc := 4 } }

theorem witness_ClauseCaptured :
    ∃ os, (captureWords clauseS.hart.pc ((0 : BitVec 5).toNat + 1) 0).run clauseS = .ok os clauseS ∧ os.length = 1 ∧
      badAdvance (clauseS.hart.xr 5) (os.map (·.2)) = false := ⟨_, rfl, rfl, rfl⟩
theorem witness_ClauseWords :
    (fetchAt (clauseS.fetchAccess clauseS.hart.mode clauseS.hart) 4).run clauseS = .ok (toBytes 4 vaddWord) clauseS ∧
    decode (toBytes 4 vaddWord) = .ok (.vadd (anyV 1 2 (.vv 3)), []) ∧
    (vbody (.vadd (anyV 1 2 (.vv 3)))).isSome = true ∧ check4 32 1 (.vadd (anyV 1 2 (.vv 3))) = true ∧
    (vbody (.rv .ecall none)).isSome = false := ⟨rfl, by decide +kernel, rfl, by decide +kernel, rfl⟩
theorem witness_ClauseInstructions :
    (putTarget { clausedS.hart with clause := some { inClause with ops := [.mk (BitVec.ofNat 32 (vaddWord + 0x02000000)) 0 0] } } 0).isSome = true ∧
    putTarget vecS.hart 0 = none ∧
    clwaitDone (withX 1 0 0 clausedS).hart 5 = true ∧ clwaitDone (withX 2 0 0 clausedS).hart 5 = false ∧
    clausedS.hart.clauseRuns = true ∧ waitsForClause { clausedS.hart with ir := BitVec.ofNat 32 vaddWord } (.vadd (anyV 1 2 (.vv 3))) = true ∧
    clausedS.hart.requestPending = false := by decide +kernel

theorem witness_FencesAndBarComplete :
    (1 ≤ ((withX 1 0 0 userS).hart.xr 5).toNat ∧ ((withX 4 0 0 userS).hart.xr 5).toNat ≤ 4) ∧ vecS.hart.job = none ∧
    ¬ 1 ≤ ((withX 0 0 0 userS).hart.xr 5).toNat ∧ ¬ ((withX 5 0 0 userS).hart.xr 5).toNat ≤ 4 ∧ userS.hart.job = some jobJ ∧
    (userS.cluster userS.hart.cluster).openGen jobJ.launch = none ∧ userS.allWait 5 0 [0] = true ∧
    ({ userS with others := [(1, { userS.hart with id := 1 })].map (·.2) } : State).allWait 5 0 [0] = false ∧
    userS.hart.requestPending = false := by decide +kernel

/-- Does a computation answer a value and leave a state of which `p` holds? -/
def ok {α : Type} (x : Op α) (s : State) (p : α → State → Bool) : Bool :=
  match x.run s with
  | .ok a t => p a t
  | .error _ _ => false
/-- Does it end in a trap and a state of which `p` holds? -/
def trapped {α : Type} (x : Op α) (s : State) (p : Trap → State → Bool) : Bool :=
  match x.run s with
  | .error (.trap t) u => p t u
  | _ => false

theorem ok_of {α : Type} {x : Op α} {s : State} {p : α → State → Bool} (h : ok x s p = true) :
    ∃ a t, x.run s = .ok a t ∧ p a t = true := by
  unfold ok at h
  split at h
  · exact ⟨_, _, ‹_›, h⟩
  · cases h

/-- A descriptor of rank 1 with extent 4; one of rank 0 is broken. -/
def descS : State := withX 0x100 0 0 { vecS with mem := Memory.write [] 0x100 (toBytes 64 (2 ^ 25 + 0x1000 * 2 ^ 32 + 4 * 2 ^ 80)) }
theorem witness_TdldCompletes :
    (descS.hart.xr 5).toNat % 64 = 0 ∧ ok (readDesc { unit := 2 } (descS.hart.xr 5)) descS (fun d t => descOk d && t = descS) = true ∧
    ok (readDesc { unit := 2 } (memS.hart.xr 5)) memS (fun d t => !descOk d && t = memS) = true ∧
    ((withX 0x120 0 0 vecS).hart.xr 5).toNat % 64 ≠ 0 := by decide +kernel
/-- One page at 0x4000, in a launch; a free slot of the die. -/
def pinS : State := withX 0x4000 4096 0 userS
theorem witness_PinsComplete :
    (pinS.hart.xr 5).toNat % 4096 = 0 ∧ (pinS.hart.xr 6).toNat % 4096 = 0 ∧ pinS.launchOf pinS.hart = some launchL ∧
    pinS.hart.job = some jobJ ∧ (pinS.hart.xr 6).toNat ≠ 0 ∧ (pinS.hart.xr 6).toNat ≤ 33554432 ∧
    ok (pinPages (pinS.rootOf launchL.queue) (pinS.hart.mode = .u) ((pinS.hart.xr 6).toNat / 4096) (pinS.hart.xr 5)) pinS
      (fun p u => p = [4] && u = { pinS with mem := u.mem }) = true ∧
    vecS.launchOf vecS.hart = none ∧ (withX 0 0x2001000 0 userS).hart.xr 6 = 0x2001000 ∧ (withX 0x4008 0 0 userS).hart.xr 5 = 0x4008 ∧
    ownsSlot pinS.hart ((pinS.pinSlots pinS.hart.die).getD 0 none) = false := by decide +kernel

/-- Addresses of the core's window, 256 bytes: block 4,032 of the pool, live and zero. -/
def liveBlock : Block := { Block.unwritten with live := true }
def padS : State := withX 0x7E0000000000 256 0 { vecS with hart := { vecHart with pool := [(4032, liveBlock)] } }
def coreWin : Window := ((padS.windowOf padS.hart 0x7E0000000000).getD { lo := 0, size := 0, first := .mem 0 })
theorem witness_ScratchpadInstructionsComplete :
    Tab.sorted padS.hart.pool = true ∧ (padS.hart.xr 6).toNat ≠ 0 ∧ (padS.hart.xr 5).toNat % 256 = 0 ∧
    (padS.hart.xr 6).toNat % 256 = 0 ∧ padS.windowRange padS.hart (padS.hart.xr 5).toNat (padS.hart.xr 6).toNat = .inl coreWin ∧
    coreWin.loc 0x7E0000000000 = .core 0 1032192 ∧ padS.hart.renewQ.length < 8 ∧
    (withX 0x7E0000000000 0 0 vecS).hart.xr 6 = 0 ∧ ((withX 0x7E0000000080 256 0 vecS).hart.xr 5).toNat % 256 ≠ 0 ∧
    padS.windowRange padS.hart (coreWin.lo + coreWin.size - 256) 512 = .inr (coreWin.lo + coreWin.size) ∧ padS.windowOf padS.hart 0 = none ∧
    padS.hart.requestPending = false ∧
    ((blockAt padS (coreWin.loc 0x7E0000000000)).state padS.time = .live) ∧
    ((blockAt padS (coreWin.loc 0x7E0000000100)).state padS.time = .unwritten) := by decide +kernel
theorem padS_sorted : padsSorted padS := by
  refine ⟨fun id => ?_, fun c => rfl⟩
  unfold State.hartOf
  split
  · rfl
  · rfl

/-- A ring at the window's first byte: base 0x1000, capacity 4, two granules claimed by the producer, one published. -/
def ringS (tclaim tcommit hclaim hretire n : Nat) : State :=
  withX 0x7E0000000000 n 0 { vecS with hart := { vecHart with pool := [(4032, { liveBlock with
    data := (File.zero : File 8).putRange 0 (toBytes 32 (0x1000 + 4 * 2 ^ 64 + tclaim * 2 ^ 128 + tcommit * 2 ^ 160 +
      hclaim * 2 ^ 192 + hretire * 2 ^ 224)) })] } }
theorem witness_RingsComplete :
    let s := ringS 2 1 0 0 1
    let r := ringAt s coreWin 0x7E0000000000
    (s.hart.xr 5).toNat % 32 = 0 ∧ s.windowRange s.hart (s.hart.xr 5).toNat 32 = .inl coreWin ∧
    (∀ i, i < 32 → s.staleSub (coreWin.loc (0x7E0000000000 + i)) = none ∧ s.poisonSub (coreWin.loc (0x7E0000000000 + i)) = none) ∧
    r.checks 1 = true ∧ serial r.tclaim r.hretire + 1 ≤ r.cap ∧ r.cap < serial r.tclaim r.hretire + 3 ∧ r.checks 3 = true ∧
    1 ≤ serial r.tclaim r.tcommit ∧ serial r.tclaim r.tcommit < 2 ∧ 1 ≤ serial r.tcommit r.hclaim ∧ serial r.tcommit r.hclaim < 2 ∧
    serial r.hclaim r.hretire < 1 ∧ 0 ≤ serial r.hclaim r.hretire ∧ s.hart.requestPending = false ∧ r.checks 5 = false ∧
    (0x7E0000000010 : Nat) % 32 ≠ 0 := by decide +kernel
theorem witness_CountersComplete :
    let s := withX 0x100 7 0 vecS
    (s.hart.xr 5).toNat % 8 = 0 ∧ s.lostBy (.hart 0) .scalar = none ∧
    ok (memAmo {} (s.hart.xr 5) 8 fun m => (m + (s.hart.xr 6).toNat) % 2 ^ 64) s (fun old _ => old = 0) = true ∧
    ok (readUncounted {} (s.access s.hart) .load .running (s.hart.xr 5) 8) s
      (fun r t => ofBytes r.1 = 0 && !r.2 && t = s) = true ∧ (s.hart.xr 7).toNat ≤ 0 ∧ 0 < (s.hart.xr 6).toNat ∧
    s.hart.requestPending = false ∧
    ({ s with lost := [.mk (.hart 0) [.scalar] 0x40 0] } : State).lostBy (.hart 0) .scalar = some (.mk (.hart 0) [.scalar] 0x40 0) ∧
    s.time < 0 + 4000 ∧ 0 + 4000 ≤ ({ s with time := 4000 } : State).time := by decide +kernel
theorem witness_CountersOfMemory : bare memS ∧ (0x100#64).toNat + 8 ≤ memS.physLimit ∧ cleanBytes memS (0x100#64).toNat 8 :=
  ⟨⟨rfl, by decide⟩, by decide, fun _ _ => rfl⟩

/-! ## The Scarab -/

/-- A descriptor at 0x4000 that copies 4 elements of 1 byte from 0x5000 to 0x6000; counter at 0x4800. -/
def streamD : BitVec 512 := BitVec.ofNat 512 (0x5000 + 0x6000 * 2 ^ 64 + 1 * 2 ^ 128 + 1 * 2 ^ 192 + 4 * 2 ^ 256)
def streamS : State := withX 0x4000 0x4800 0 { userS with mem := Memory.write tables 0x4000 (toBytes 64 streamD.toNat) }
def relaxed : Order := { aq := false, rl := false, scope := .die }
def cmdC : ScarabCmd := scarabCmd streamS false relaxed streamD 0x4800
def queuedS (c : ScarabCmd) : State :=
  { userS with clusters := [(0, { userS.cluster 0 with scarab := [c] })] }
def begunC : ScarabCmd := { cmdC with begun := true }
theorem witness_StreamIssueCompletes :
    (streamS.hart.xr 5).toNat % 64 = 0 ∧ (streamS.hart.xr 6).toNat % 8 = 0 ∧
    ok (readCommand (streamS.hart.xr 5)) streamS (fun d u => d = streamD && u = streamS) = true ∧ scarabFieldsOk false streamD = true ∧
    (streamS.cluster streamS.hart.cluster).commandsOf streamS.hart.id < 16 ∧
    ((withX 0x4010 0 0 userS).hart.xr 5).toNat % 64 ≠ 0 ∧ ((withX 0x4000 4 0 userS).hart.xr 6).toNat % 8 ≠ 0 := by decide +kernel
/-- The same to every eighth byte: a prefix cuts no 8-byte word. -/
def spreadC : ScarabCmd := { begunC with dstr := 8 }
theorem witness_ScarabStepsComplete :
    ((userS.cluster 0).scarab = [] ∧ ((queuedS cmdC).cluster 0).scarab.find? (fun c => c.via.hart = 0 && !c.begun) = some cmdC) ∧
    (queuedS spreadC).command? 0 spreadC.id = some spreadC ∧ spreadC.landed < 2 ∧ 2 < spreadC.count ∧ spreadC.count = 4 ∧
    spreadC.cutsWord 2 = false ∧ begunC.cutsWord 2 = true ∧ (queuedS begunC).command? 0 begunC.id = some begunC ∧
    ok (copyElems spreadC 2 0) (queuedS spreadC) (fun r u => r.2.2.isNone && r.1 = spreadC && r.1.lostElem u false 2 = none &&
      ok (addCounter spreadC 2) u (fun a _ => a = none)) = true ∧
    ok (copyElems begunC 4 0) (queuedS begunC) (fun r u => r.2.2.isNone && r.1 = begunC &&
      ok (writeStatus begunC 4 0 0 0) u (fun a v => a = false && ok (addCounter begunC 4) v (fun b _ => b = none))) = true := by
  decide +kernel
/-- The destination lies in a page that the tables do not map: the first element fails. -/
def strayC : ScarabCmd := { begunC with dst := 0x8000000000 }
theorem witness_ScarabFault :
    (queuedS strayC).command? 0 strayC.id = some strayC ∧ strayC.landed < strayC.count ∧
    ok (remoteSource strayC 0) (queuedS strayC) (fun b t => b = [] && t = queuedS strayC) = true ∧
    ok (copyElems strayC 4 0) (queuedS strayC) (fun r _ => r.2.2.isSome) = true := by decide +kernel
theorem witness_ScarabElement :
    begunC.srcOf 0 = some 0x5000 ∧ begunC.esz = 1 ∧
    ok (engineRead begunC.access begunC.since 0x5000 1) (queuedS begunC) (fun r t => r = [(0, false)] && t = queuedS begunC) = true ∧
    ok (enginePlace begunC.access false (begunC.dstOf 0) 1) (queuedS begunC)
      (fun p t => p.map (·.1) = [Loc.mem 0x6000] && t = queuedS begunC) = true ∧
    (queuedS begunC).poison = [] ∧ Memory.wf (queuedS begunC).mem = true ∧ begunC.inSource 0x6000 = false := by decide +kernel

/-! ## The contraction unit and weight chains -/

/-- A grant of the whole array, its INT8 tiles and accumulators zero. -/
def gridG : Grant :=
  { rows := 128, quarters := [0, 1, 2, 3], mt := .zero, types := List.replicate 8 (some .i8), latch := .zero, latchTy := some .i8
    sc := .zero, acc := .zero, checkCol := 0 }
/-- In a handler of the launch, with the grant; draws counted from `k`. -/
def armS (k : Nat) : State :=
  { userS with hart := { userS.hart with mode := .m, grant := some gridG }, mem := [], freeCtr := k }

theorem witness_GrantsComplete :
    userS.cmOk userS.hart = true ∧ ((withX 128 0 0 userS).hart.xr 5).toNat ∈ [32, 64, 128] ∧ (armS 0).hart.grant = some gridG ∧
    userS.hart.grant = none ∧ grantFor (userS.usedQuarters 0) 128 = some (128, [0, 1, 2, 3]) ∧ grantFor [1] 64 = some (64, [2, 3]) ∧
    grantFor [0, 1, 2, 3] 128 = none ∧ grantFor [] 32 = some (32, [0]) ∧ 96 ∉ [32, 64, 128] ∧ vecS.cmOk vecS.hart = false ∧
    cmInstr .detach = true ∧ 1 ≤ ((withX 4096 0 0 userS).hart.xr 5).toNat ∧ ¬ ((withX 4097 0 0 userS).hart.xr 5).toNat ≤ 4096 := by
  decide +kernel

theorem readElems_bare {s : State} (hb : bare s) (hc : ∀ a, s.poisonOf a = none) {es : Nat}
    (h0 : 0 < es) : ∀ (n : Nat) (va : Word), va.toNat % es = 0 → va.toNat + n * es ≤ s.physLimit →
    ∃ bs, (readElems es n va).run s = .ok bs s
  | 0, _, _, _ => ⟨_, rfl⟩
  | n + 1, va, ha, hl => by
    have hp := physLimit_le s
    have h1 : va.toNat + es ≤ s.physLimit := by rw [Nat.add_mul] at hl; omega
    have h2 : (va + BitVec.ofNat 64 es).toNat = va.toNat + es := by rw [BitVec.toNat_add, BitVec.toNat_ofNat]; omega
    obtain ⟨bs, hbs⟩ := readElems_bare hb hc h0 n (va + BitVec.ofNat 64 es) (by rw [h2]; simp [ha])
      (by rw [h2]; rw [Nat.add_mul] at hl; omega)
    have hv := reads_as hb h1 (fun i _ => hc _) ha cuWho s.hart rfl
    exact ⟨_, by rw [readElems, Op.run_bind, hv]; simp only [Op.run_bind, hbs]; rfl⟩

theorem readRows_bare {s : State} (hb : bare s) (hc : ∀ a, s.poisonOf a = none) {va : Word}
    (hl : va.toNat + 128 ≤ s.physLimit) : ∀ n, ∃ bs, (readRows 1 0 n va).run s = .ok bs s
  | 0 => ⟨_, rfl⟩
  | n + 1 => by
    obtain ⟨b, hb1⟩ := readElems_bare hb hc (es := 1) (by decide) 128 va (Nat.mod_one _) (by simpa using hl)
    obtain ⟨c, hc1⟩ := readRows_bare hb hc hl n
    refine ⟨_, by
      rw [readRows, Op.run_bind, hb1]
      simp only [show va + (0 : Word) = va by simp, Op.run_bind, hc1]
      rfl⟩

/-- `rs1` gives 0x4000, `rs2` a type in bits 63 to 61. -/
def armX (a b : Nat) (k : Nat) : State := { armS k with hart := ((armS k).hart.setX 5 (BitVec.ofNat 64 a)).setX 6 (BitVec.ofNat 64 b) }
/-- Every index of v2 is all ones: every row is zeros. -/
def idxS : State :=
  let s := armX (2 ^ 62) 0 0
  { s with hart := { s.hart with vtype := 0x1C8, vregs := (File.zero : File 8).putRange (2 * 8192) (List.replicate 16 0xFF) } }

theorem bare_arm (a b k : Nat) : bare (armX a b k) := ⟨rfl, fun h => absurd h.1 (by show ¬ bitAt (Hart.reset 0).mstatus 17 = true; decide)⟩
theorem witness_TileLoadsComplete :
    ((armX 0x4000 (2 ^ 62) 0).cmOk (armX 0x4000 (2 ^ 62) 0).hart = true ∧ (armX 0x4000 (2 ^ 62) 0).hart.grant = some gridG ∧
      tileTyOf (bits ((armX 0x4000 (2 ^ 62) 0).hart.xr 6) 61 3) = some .i8 ∧ bits ((armX 0x4000 (2 ^ 62) 0).hart.xr 6) 40 21 = 0 ∧
      gridG.oddOfPair 3 = false ∧ typeInService (armX 0x4000 (2 ^ 62) 0) .i8 = true ∧ 3 < gridG.tiles ∧
      (armX 0x4000 (2 ^ 62) 0).lostBy (.hart 0) .array = none) ∧
    (∃ bs, (readRows (tyBytes .i8) (sextN 40 (bits ((armX 0x4000 (2 ^ 62) 0).hart.xr 6) 0 40)) 128 ((armX 0x4000 (2 ^ 62) 0).hart.xr 5)).run
      (armX 0x4000 (2 ^ 62) 0) = .ok bs (armX 0x4000 (2 ^ 62) 0)) ∧
    (∃ bs, (readElems 4 128 ((armX 0x4000 (2 ^ 62) 0).hart.xr 5)).run (armX 0x4000 (2 ^ 62) 0) = .ok bs (armX 0x4000 (2 ^ 62) 0)) ∧
    (2 % idxS.hart.grp = 0 ∧ 2 + idxS.hart.grp ≤ idxS.nvreg idxS.hart ∧ idxS.hart.etype = 2 ∧
      tileTyOf (bits (idxS.hart.xr 5) 61 3) = some .i8 ∧ bits (idxS.hart.xr 5) 48 13 = 0 ∧
      ok (gatherRows idxS.hart (idxS.capC idxS.hart) 2 (tyBytes .i8) (sext48 (bits (idxS.hart.xr 5) 0 48)) 128 0) idxS
        (fun _ u => u = idxS) = true) := by
  refine ⟨by decide +kernel, ?_, ?_, by decide +kernel⟩
  · exact readRows_bare (bare_arm _ _ _) (fun _ => rfl) (by decide +kernel) 128
  · exact readElems_bare (bare_arm _ _ _) (fun _ => rfl) (by decide) 128 _ (by decide +kernel) (by decide +kernel)
theorem witness_ArrayCommandsComplete :
    (armS 0).hart.upsets = [] ∧ (gridG.operand (.mt 1)).ty = some .i8 ∧ (gridG.tile 2).ty = some .i8 ∧ parityOk (.mt 1) gridG = true ∧
    gridG.oddOfPair 2 = false ∧ operandInGrant .latch gridG = true ∧ operandInGrant (.mt 7) gridG = true ∧ 3 < gridG.accs ∧
    ((0x13#64 &&& ~~~ 0x77#64 = 0) ∧ bits 0x13#64 0 3 = 3 ∧ bits 0x13#64 4 3 = 1 ∧ 1 + 3 ≤ gridG.accs ∧ 1 + (3 - 1) * tyBytes .i8 ≤ 7) ∧
    ((0x280#64 &&& ~~~ 0x7FF#64 = 0) ∧ bits 0x280#64 0 8 = 128 ∧ bits 0x280#64 8 3 = 2) ∧ userS.hart.grant = none := by decide +kernel
theorem grid_sorted : grantSorted gridG := ⟨rfl, rfl, rfl, rfl⟩

/-- A zero stored over zero leaves the state but for a draw. -/
theorem zero_stored (w : Who) (a b k : Nat) {va : Word} (h : va.toNat + 1 ≤ 2 ^ 40) :
    (memWrite w va 1 0).run (armX a b k) = .ok () (armX a b (k + 1)) :=
  memWrite_phys (s := armX a b k) (access_bare (bare_arm a b k)) (Nat.mod_one _) h
theorem elem_written (act : Nat → Bool) (addr : Nat → Op (Option Word)) (e a b k : Nat) {va : Word} (h : va.toNat + 1 ≤ 2 ^ 40) :
    (writeElem cuWho act addr 1 e va 0).run (armX a b k) = .ok () (armX a b (k + 1)) := by
  have hp := placeBytes_phys {} .store true false va (armX a b k) 1 va (show va.toNat + 1 ≤ userS.physLimit from h)
  have hl : (armX a b k).storeLocs va 1 = [.mem va.toNat] := by
    unfold State.storeLocs
    rw [access_bare (bare_arm a b k), hp]
    rfl
  unfold writeElem
  simp only [Op.run_bind, Op.run_get, hl, zero_stored cuWho a b k h]
  rfl
theorem mst_runs (n k c : Nat) : ∃ d, (mstElems gridG 0 0 1 0x4000 0 n k).run (armX 0x4000 (2 ^ 62) c) = .ok () (armX 0x4000 (2 ^ 62) d) := by
  induction n generalizing k c with
  | zero => exact ⟨c, rfl⟩
  | succ n ih =>
    obtain ⟨d, hd⟩ := ih (k + 1) (c + 1)
    have hv : (mstAddr 0x4000 0 1 k).toNat + 1 ≤ 2 ^ 40 := by
      unfold mstAddr
      simp
      have := Nat.mod_lt k (show 0 < 128 by decide)
      omega
    have hz : accConvert 0 (gridG.accAt 0 (k / 128) (k % 128)) = 0 := by
      show accConvert 0 0 = 0
      decide +kernel
    refine ⟨d, ?_⟩
    unfold mstElems
    simp only [Op.run_bind, hz, elem_written _ _ _ _ _ _ hv, hd]
theorem witness_AccumulatorStoreCompletes :
    let s := armX 0x4000 (2 ^ 62) 0
    s.cmOk s.hart = true ∧ s.hart.grant = some gridG ∧ storeType (bits (s.hart.xr 6) 61 3) = some 0 ∧ bits (s.hart.xr 6) 40 21 = 0 ∧
    ebOf 0 = 1 ∧ (∀ d, releases relaxed (armX 0x4000 (2 ^ 62) d)) ∧
    ∃ d, (mstElems gridG 0 0 1 (s.hart.xr 5) (sextN 40 (bits (s.hart.xr 6) 0 40)) 16384 0).run s = .ok () (armX 0x4000 (2 ^ 62) d) :=
  ⟨by decide +kernel, rfl, by decide +kernel, by decide +kernel, rfl, (fun _ h => absurd h (by decide)), mst_runs 16384 0 0⟩
/-- The 16,384 bytes from 0x4000 on, a pitch of 128: each within memory. -/
theorem witness_AccumulatorStoreOfMemory :
    (mstStores gridG 0 0 0x4000 128 16384).storable (armX 0x4000 (2 ^ 62 + 128) 0) ∧
    (mstStores gridG 0 0 0xFFFFFFFFC0 0 64).storable (armX 0xFFFFFFFFC0 (2 ^ 62) 0) ∧
    (armX 0xFFFFFFFFC0 (2 ^ 62) 0).physLimit ≤ (0xFFFFFFFFC0#64 + BitVec.ofNat 64 (64 / 128) * 0 + BitVec.ofNat 64 (64 % 128 * 1)).toNat ∧
    storeType 2 = some 0 ∧ storeType 7 = none := by
  refine ⟨⟨bare_arm _ _ _, rfl, ?_⟩, ⟨bare_arm _ _ _, rfl, ?_⟩, by decide +kernel, by decide +kernel, by decide +kernel⟩
  · intro e va _ he _ hv
    cases hv
    have he' : e < 16384 := he
    have h1 := Nat.mod_lt e (show 0 < 128 by decide)
    have hl : (armX 0x4000 (2 ^ 62 + 128) 0).physLimit = 2 ^ 40 := rfl
    refine ⟨Nat.mod_one _, ?_, fun _ _ => rfl⟩
    rw [hl]
    show (0x4000#64 + BitVec.ofNat 64 (e / 128) * 128#64 + BitVec.ofNat 64 (e % 128 * 1)).toNat + 1 ≤ 2 ^ 40
    simp only [BitVec.toNat_add, BitVec.toNat_mul, BitVec.toNat_ofNat]
    omega
  · intro e va _ he _ hv
    cases hv
    have he' : e < 64 := he
    have hl : (armX 0xFFFFFFFFC0 (2 ^ 62) 0).physLimit = 2 ^ 40 := rfl
    refine ⟨Nat.mod_one _, ?_, fun _ _ => rfl⟩
    rw [hl]
    show (0xFFFFFFFFC0#64 + BitVec.ofNat 64 (e / 128) * 0#64 + BitVec.ofNat 64 (e % 128 * 1)).toNat + 1 ≤ 2 ^ 40
    simp only [BitVec.toNat_add, BitVec.toNat_mul, BitVec.toNat_ofNat]
    omega

/-- A one-step program at 0x8000 (factor table 0x8100, one factor of 1 × 1), a carry descriptor at 0x8200. -/
def chainMem : List Host.Cell :=
  Memory.write (Memory.write (Memory.write (Memory.write [] 0x8000 (toBytes 64 0x8100))
    0x8040 (toBytes 8 (1 * 2 ^ 12 + 1 * 2 ^ 24 + 1 * 2 ^ 39 + 2 ^ 42)))
    0x8100 (toBytes 32 (0x8500 + 0x8600 * 2 ^ 64 + 1 * 2 ^ 128 + 1 * 2 ^ 144)))
    0x8200 (toBytes 64 (1 + (0x8300 + 2 ^ 48) * 2 ^ 128 + (0x8400 + 2 ^ 48) * 2 ^ 192))
def chainS (n : Nat) : State := { armX 0x8000 0x8200 0 with hart := { (armX 0x8000 0x8200 0).hart with chstep := BitVec.ofNat 12 n }, mem := chainMem }
theorem witness_ChainCommandsComplete :
    (chainS 0).cmOk (chainS 0).hart = true ∧ (chainS 0).hart.grant = some gridG ∧ ((chainS 0).hart.xr 5).toNat % 64 = 0 ∧
    ((chainS 0).hart.xr 6).toNat % 64 = 0 ∧ (chainS 0).hart.stopAt = none ∧
    ok (chainStep ((chainS 0).hart.xr 5) ((chainS 0).hart.xr 6) 0 none) (chainS 0) (fun last v => last && v.lost = []) = true ∧
    trapped (chainStep ((chainS 1).hart.xr 5) ((chainS 1).hart.xr 6) 1 none) (chainS 1) (fun t _ => t.cause = 48) = true := by decide +kernel

/-! ## Iterations, launches, collectives -/

/-- The launch with `n` of its four iterations given, held by hart 0. -/
def givenL (n : Nat) : Launch := { launchL with keys := [{ key := [], nextPos := n, holder := some 0 }] }
def givenS (n : Nat) : State := { userS with launches := [(5, givenL n)] }
theorem witness_IterationInstructionsComplete :
    (givenS 1).hart.job = some jobJ ∧ (givenS 1).launchOf (givenS 1).hart = some (givenL 1) ∧ jobJ.inSetup = false ∧ (givenL 1).pair = none ∧
    ((givenL 1).runFor 0 [] ((givenL 1).keyState []).nextPos).map (·.iter) = some [1] ∧
    (givenL 4).runFor 0 [] ((givenL 4).keyState []).nextPos = none ∧ (givenS 1).hart.hookSave = none ∧
    (givenS 1).hart.requestPending = false ∧ (asking 0 (some copyC)).hart.hookSave = some copyC := by decide +kernel
theorem no_other_key (key : List Nat) (h : key ≠ []) (die : Nat) : keyFree (givenL 4) die key = false := by
  cases key with
  | nil => exact absurd rfl h
  | cons a t => simp [keyFree, isKey, show spatial (givenL 4).a = [] from rfl]

/-- A record of zeros at 0x5000 for queue 0. -/
def ringK : State := withX 0 0x5000 0 userS
theorem witness_LaunchAndBarrierComplete :
    ringK.launchPermission ringK.hart 0 = true ∧ (ringK.queue 0).cen = true ∧ (ringK.hart.xr 6).toNat % 64 = 0 ∧
    ok (readDesc {} (ringK.hart.xr 6)) ringK (fun _ u => u.hart = ringK.hart && 
      ok (qWrite 0 ((u.queue 0).recordAt (u.queue 0).tail.toNat) (toBytes 64 0)) u (fun _ v => v.hart = ringK.hart)) = true ∧
    idxDist (ringK.queue 0).tail.toNat (ringK.queue 0).head.toNat ≠ 2 ^ (ringK.queue 0).clog2n ∧
    ringK.launchPermission ringK.hart 64 = false ∧ (withX 0 0x5010 0 userS).hart.xr 6 = 0x5010 := by decide +kernel
/-- Sixteen records in the ring: it is full; eight barriers stand; one stands at the tail. -/
def fullK : State := { ringK with queues := [(0, { queueQ with tail := 16 })] }
def barK (n : Nat) : State := { ringK with queues := [(0, { queueQ with tail := 9, barriers := List.range n })] }
theorem witness_LaunchRefusals :
    idxDist (fullK.queue 0).tail.toNat (fullK.queue 0).head.toNat = 2 ^ (fullK.queue 0).clog2n ∧
    ok (readDesc {} (fullK.hart.xr 6)) fullK (fun _ u => u.hart = fullK.hart) = true ∧
    9 ∉ ((barK 8).queue 0).barriers ∧ 8 ≤ (((barK 8).queue 0).barriers.filter fun i => idxAtLeast i ((barK 8).queue 0).head.toNat).length ∧
    (((barK 7).queue 0).barriers.filter fun i => idxAtLeast i ((barK 7).queue 0).head.toNat).length < 8 ∧
    9 ∈ ((barK 10).queue 0).barriers ∧
    trapped (qWrite 0 0x8000000000 (toBytes 64 0)) ringK (fun _ _ => true) = true := by decide +kernel

/-- A barrier collective of a communicator of one, descriptor at 0x5000, counter at 0x4800. -/
def commM : Comm := { id := 0, strict := true, members := [.pkg 0, .pkg 1], ownRank := 0, timeout := 0 }
def collD : BitVec 512 := BitVec.ofNat 512 (5 * 2 ^ 16)
def collS : State := withX 0x5000 0x4800 0 { userS with comms := [commM], mem := Memory.write tables 0x5000 (toBytes 64 collD.toNat) }
def regM : Registration :=
  { comm := 0, tag := 0, desc := collD, queue := 0, launch := 5, via := cmdC.via, descVa := 0x5000, counter := 0x4800, order := relaxed,
    holder := some (.hart 0), id := 0, since := 0, told := none, state := .unnumbered, seq := 0,
    cancelPending := false, accepted := false, verdict := none }
def regS : State := { collS with regs := [regM] }
theorem witness_CollectiveInstructionsComplete :
    collS.ccOk collS.hart = true ∧ collS.status.full = true ∧ (collS.hart.xr 5).toNat % 64 = 0 ∧ (collS.hart.xr 6).toNat % 8 = 0 ∧
    ok (readDesc {} (collS.hart.xr 5)) collS (fun d u => d = collD && u = { collS with hart := u.hart, mem := u.mem }) = true ∧
    collS.queueOf collS.hart = some 0 ∧ collChecks collS 0 (collS.hart.xr 5) (collDesc collD) = true ∧ collS.regs.length < 1024 ∧
    ({ userS with status := StatusBlock.reset } : State).status.full = false ∧ (withX 0x5020 0 0 userS).hart.xr 5 = 0x5020 ∧
    collS.regAt collS.hart (collS.hart.xr 5) = none ∧ collS.hart.requestPending = false ∧ collS.hart.cancel = none ∧
    regS.regAt regS.hart (regS.hart.xr 5) = some regM ∧ regS.hart.cancel = none ∧ vecS.ccOk vecS.hart = false ∧
    (after (.ccancel 7 5) regS).hart.cancel = some (.mk regM.comm regM.tag regM.id none 7 regS.time) ∧
    (after (.ccancel 7 5) regS).ccOk (after (.ccancel 7 5) regS).hart = true := by decide +kernel
theorem witness_CstatShowsTheState : regS.ccOk regS.hart = true ∧
    ((after (.cstat 7 5) regS).hart.xr 7 = 1) ∧ (after (.cstat 7 5) { regS with regs := [{ regM with state := .numbered 9 none true false }] }).hart.xr 7 =
      0x900000002 := by decide +kernel

/-! ## Records, distribution, scheduling, retention -/

/-- A header of one temporal level, its CRC in place, and a record of 4 iterations of it at the head of queue 0. -/
def headerBytes : List Byte :=
  let f := toBytes 92 (0x4B4C4543 + 1 * 2 ^ 32 + 0x60 * 2 ^ 96 + 1 * 2 ^ 160 + 1 * 2 ^ 168 + 0x68 * 2 ^ 288 + 1 * 2 ^ 320)
  f ++ toBytes 4 (crc32c f)
def recordMem : List Host.Cell := Memory.write (Memory.write tables 0x4000 (toBytes 64 (0x5000 + 4 * 2 ^ 128))) 0x5000 headerBytes
def headQ : Queue := { queueQ with state := .waiting, tail := 1 }
def headS (m : List Host.Cell) : State := { userS with queues := [(0, headQ)], mem := m, hart := vecHart, launches := [] }
theorem witness_RecordReachesHead :
    (headS recordMem).atHead 0 = some headQ ∧ headQ.applyBarriers = headQ ∧
    ok (validate 0 0) (headS recordMem) (fun r u => match r with
      | .inr k => k.product = 4 && !mayPair k && k.waitCtr = 0 && ok (readWindow 0 headQ.window) u (fun w _ => w = [])
      | .inl _ => false) = true ∧
    ok (validate 0 0) (headS tables) (fun r _ => r = .inl 1) = true := by decide +kernel
def doneL (p : Option Pair) : Launch := { launchL with keys := [{ key := [], nextPos := 4, holder := none }], pair := p }
def doneS : State := { headS tables with launches := [(5, doneL none)], queues := [(0, queueQ)] }
theorem witness_RecordsComplete :
    (({ headS tables with queues := [(0, { headQ with state := .validated kern none })] } : State).queue 0).state = .validated kern none ∧
    userS.firmware.update = .none ∧ (userS.queue 0).cen = true ∧ kern.waitCtr = 0 ∧
    doneS.launches.get? 5 = some (doneL none) ∧ doneS.launchDone 5 (doneL none) = true ∧
    ok (completionAdd 0 kern.doneCtr) doneS (fun b u => b && u = doneS) = true ∧
    queueQ.state = .begun 5 ∧ queueQ.consumed = [] ∧
    ok (translate {} .store false true true (doneS.rootOf 0) 0x6000 0x6000) doneS (fun p u => p.key = 0x6000 && Memory.wf u.mem) = true := by
  decide +kernel
/-- Kernel B of a pair and its maps; the pair is done when its runs have all been given and have ended. -/
def pairP : Pair :=
  let m : ElemMap := { pidx := 0, mode := 1, dims := 1, mat := [1], off := [0], box := [1], desc := 0, descVa := 0, owners := [] }
  { b := kern, dist := 1, lag := 0, materialised := false, mapA := m, mapB := m }
def pairL : Launch := { launchL with keys := [{ key := [], nextPos := 8, holder := none }], pair := some pairP }
theorem witness_PairsAndReleases :
    ({ doneS with launches := [(5, pairL)] } : State).launchDone 5 pairL = true ∧
    (({ vecS with hart := { vecHart with status := .retired } } : State).hartOf 0).status = .retired ∧
    ({ vecS with hart := { vecHart with status := .retired } } : State).scarabBusy (({ vecS with hart := { vecHart with status := .retired } } :
      State).hartOf 0) = false ∧
    (({ userS with hart := { userS.hart with status := .retired } } : State).hartOf 0).job = some jobJ ∧ launchL.ended = false := by
  decide +kernel

/-- Hart 0 in M-mode; launch 5 of queue 0, nothing given. -/
def freshS : State := { userS with hart := vecHart }
/-- A gang of two. -/
def gangK : Kernel := { kern with levels := [1], exts := [2] }
def gangL : Launch := { launchL with a := gangK }
def gangS : State := { freshS with launches := [(5, gangL)], clusters := [] }
theorem witness_DistributionCompletes :
    freshS.launches.get? 5 = some launchL ∧ launchL.a.isGang = false ∧ freshS.turnOf 0 1 = true ∧ freshS.hartFree 1 = true ∧
    1 ∉ launchL.left ∧ keyFree launchL (freshS.hartOf 1).die [] = true ∧ (startsAt launchL []).isSome = true ∧ entryBanks launchL ≤ 63 ∧
    needsSlot launchL = false ∧ (freshS.cluster (freshS.hartOf 1).cluster).resvs.any (·.launch = 5) = true ∧
    gangL.a.isGang = true ∧ (List.range (keyCount gangL.a)).map (unflatten (spatial gangL.a)) = [[0], [1]] ∧ gangS.turnOf 0 4 = true ∧
    (∀ h ∈ [4, 5], h / 4 = 1 ∧ gangS.hartFree h = true) ∧
    (∀ key ∈ [[0], [1]], keyFree gangL 0 key = true ∧ (startsAt gangL key).isSome = true) ∧
    baseFits (gangS.cluster 1) 0 (clusterLimit gangL false) = true := by decide +kernel

/-- Queue 1, of priority 1, has launch 6 to give; hart 0 runs launch 5 of queue 0. -/
def busyS (time : Nat) : State :=
  { userS with
    queues := [(0, queueQ), (1, { queueQ with state := .begun 6, prio := 1 })]
    launches := [(5, launchL), (6, { launchL with queue := 1 })]
    time := time
    hart := { userS.hart with preq := if time = 5 then 1 else 0, mie := 0x10000 } }
def savedC (saved : Bool) : Context :=
  { id := 0, cluster := 0, hart := { userS.hart with mepc := 0x2040 }, full := false, hdr := 0x1000, profile := 0, live := 0, status := 0
    missing := 0, startTick := 0, saved := saved, blocks := [] }
def parkedS (saved : Bool) : State :=
  { userS with contexts := [savedC saved], hart := { vecHart with status := if saved then .free else .saving } }
theorem witness_SchedulingCompletes :
    (({ userS with queues := [(0, { queueQ with age := 2000 })] } : State).queue 0).age = 2000 ∧ queueQ.prio < 6 ∧
    (busyS 4000).hart.job = some jobJ ∧ (busyS 4000).launchOf (busyS 4000).hart = some launchL ∧
    (busyS 4000).requestDue (busyS 4000).hart = true ∧ (busyS 4000).expired (busyS 4000).hart = true ∧
    (busyS 4000).firmware.update = .none ∧ ({ userS with time := 4000 } : State).expired userS.hart = true ∧
    ({ userS with time := 4000 } : State).requestDue userS.hart = false ∧ (busyS 5).forcedDue = true ∧ (busyS 5).hart.status = .running := by
  decide +kernel
def strangeC : Context := { savedC true with profile := 0xFF, live := 1 }
theorem witness_SavesAndResumptions :
    ({ gangS with contexts := [savedC false] } : State).contextClusters 5 = [0] ∧ (gangS.cluster 0).scarab = [] ∧
    (parkedS false).contexts.find? (·.id = 0) = some (savedC false) ∧ (parkedS false).hart.id = (savedC false).hart.id ∧
    (parkedS false).clusterSaves = [] ∧ (parkedS true).contexts.find? (·.id = 0) = some (savedC true) ∧
    ((savedC true).hart.job.map (·.launch)) = some 5 ∧ (savedC true).status ≠ 2 ∧ (savedC true).hart.grant = none ∧
    (parkedS true).hartFree 0 = true ∧ (parkedS true).turnOf 0 0 = true ∧
    ok (imageHead (savedC true)) (parkedS true) (fun i _ => (parkedS true).restorable 5 launchL (savedC true) i) = true ∧
    (parkedS true).savePending 5 0 = false ∧
    ((parkedS true).cluster 0).resvs.any (·.launch = 5) = true ∧
    ok (imageHead strangeC) { parkedS true with contexts := [strangeC] } (fun i u => !u.restorable 5 launchL strangeC i) = true := by decide +kernel
theorem witness_RetentionEventsComplete :
    ({ vecS with hart := { vecHart with renewQ := [{ blocks := [0], since := 0 }] } } : State).hart.renewQ = { blocks := [0], since := 0 } :: [] ∧
    ({ userS with launches := [(5, pairL)] } : State).launchOf userS.hart = some pairL ∧ pairL.pair = some pairP ∧
    userS.hart.status = .running ∧ 32 * 100 < userS.physLimit ∧ userS.poisonRecord (controllerOf 100) < 512 ∧ Tab.sorted padS.hart.pool = true ∧
    Instr.l2LineRetention 0 0 ∈ [Instr.l1DirtyWriteback 0 0, .extensionBankRenewal 0 0, .l2LineRetention 0 0] := by decide +kernel

/-! ## The host, firmware, keys -/

theorem witness_DoorbellsAnnounceRecords : (63 : Nat) < 64 ∧ [0, 0, 0, 0].length = 4 := by decide
/-- A command that runs, with its arguments. -/
def commanded (code : Nat) (args : List Nat) : State :=
  { userS with mailbox := { Mailbox.reset with command := some ((toBytes 8 code ++ args.flatMap (toBytes 8) ++ List.replicate 64 0).take 64) } }
theorem witness_HostAccessesComplete :
    0xFFFFFFFFC + 4 ≤ 2 ^ 36 ∧ userS.bar2 + 0xFFFFFFFFC + 4 ≤ userS.physLimit ∧ userS.mailbox.buffer.length = 64 ∧
    0x1003C + 4 ≤ 0x10040 ∧ userS.status.ready = true ∧ userS.mailbox.command = none ∧
    (commanded 5 [1200]).mailbox.command.isSome = true ∧ (0xFFC + 4 ≤ 0x1000 ∧ 0xFFC < 0x1000) ∧ (0x3000 ≤ 0xFFFC ∧ 0xFFFC + 4 ≤ 0x10000) := by
  decide +kernel
/-- A communicator record of two members at 0x5000, its list at 0x5800. -/
def tableMem : List Host.Cell :=
  Memory.write (Memory.write tables 0x5000 (toBytes 64 (7 + 2 * 2 ^ 16 + 0x5800 * 2 ^ 128))) 0x5810 (toBytes 16 (2 ^ 8))
def tableS (args : List Nat) : State := { commanded 4 args with mem := tableMem }
theorem witness_MailboxCommandsComplete :
    (commanded 1 [64]).running 1 [64] = true ∧ (userS.queue 0).mayConfigure = false ∧ (userS.queue 1).mayConfigure = true ∧
    entryOk (userS.queue 1).written = true ∧ entryOk (BitVec.ofNat 512 0) = false ∧ (installed (userS.queue 1)).cen = false ∧
    (installed { Queue.reset with written := entryQ }).cen = true ∧ Queue.reset.cen = false ∧ headQ.cen = true ∧
    (commanded 2 [0, 4096, 4096]).running 2 [0, 4096, 4096] = true ∧ (commanded 3 [63, 4294967296]).running 3 [63, 4294967296] = true ∧
    (tableS [0x5000, 1]).running 4 [0x5000, 1] = true ∧ (commanded 5 [2400]).running 5 [2400] = true ∧
    (commanded 6 [255]).running 6 [255] = true ∧ userS.collSeen = false ∧ (commanded 7 [0]).running 7 [0] = true ∧
    (commanded 10 [0, 1]).running 10 [0, 1] = true ∧ (commanded 11 []).running 11 [] = true := by decide +kernel
theorem witness_Commset :
    ((commOf (tableS [0x5000, 1]) 0x5000).map fun c => (c.id, c.members, sequencesOf [c])) = some (7, [.pkg 0, .pkg 1], [0]) := by
  decide +kernel
theorem witness_FirmwareEventsComplete :
    State.reset.status.ready = false ∧ State.reset.status.fatal = 0 ∧ State.reset.firmware.images.getD 0 [] = [] ∧
    ({ userS with status := { userS.status with full := false } } : State).status.full = false ∧
    (commanded 8 [1, 0x1000, 64]).running 8 [1, 0x1000, 64] = true ∧ userS.status.slot = 0 ∧
    ¬ (1 < 1 ∨ 0x1000 % 4096 ≠ 0 ∨ 64 = 0 ∨ 2 ^ 26 < 64 ∨ userS.physLimit < 0x1000 + 64) ∧ (commanded 9 []).running 9 [] = true ∧
    ({ userS with time := 4000, firmware := { userS.firmware with update := .starting 0 } } : State).firmware.update = .starting 0 ∧
    4000 - 0 ≤ 4000 := by decide +kernel
theorem witness_PowerEventsComplete :
    userS.clocks[3]? = some { mhz := 1000, stretched := false, throttled := false } ∧ (∀ d ∈ userS.clocks, d.mhz ≤ 1000) ∧
    (∃ d ∈ ({ userS with clocks := [{ mhz := 4000, stretched := false, throttled := false }] } : State).clocks, 1000 < d.mhz) ∧
    userS.status.fatal ≠ 1 := by decide +kernel
def spdmS (p : SpdmPhase) : State := { userS with spdm := { Spdm.reset with phase := p } }
theorem witness_SpdmAndKeysComplete :
    (spdmS .secured).spdm.phase.ready = true ∧ (spdmS .version).spdm.phase.ready = false ∧ (spdmS .negotiated).spdm.phase.ready = true ∧
    (spdmS .exchanging).spdm.phase ≠ .negotiated ∧ 1 ≤ 8191 ∧ 8191 < 8192 := by decide +kernel

/-! ## Collectives and the fabric -/

def msgM (rank : Nat) : RegMsg := { comm := 0, tag := 0, rank := rank, pkg := rank, n := 2, strict := true, timeout := 0 }
/-- Collective 3 of a strict communicator of two: both registered; started by some ranks. -/
def entryE (num : Option Nat) (starts : List Nat) : OrdEntry :=
  { OrdEntry.fresh 0 0 with regs := [msgM 0, msgM 1], num := num, starts := starts, prevs := [(0, none), (1, none)], timer := some 0 }
def ordS (es : List OrdEntry) (rs : List Registration) : State :=
  { collS with regs := rs, ordinal := { Machine.Ordinal.reset with role := .primary, entries := es, nextNum := 4 } }
/-- A numbered collective at this package, which another domain's Ordinal numbers. -/
def numberedS : State := { regS with regs := [{ regM with state := .numbered 3 none false false }] }
def startedR : Registration := { regM with state := .started 3, accepted := true }
theorem witness_OrdinalDecisionsComplete :
    (ordS [] []).ordinalActive = true ∧ ((ordS [] []).ordinal.openEntry (msgM 0)).regs = [] ∧ (ordS [] []).ordinal.mayNumber = true ∧
    ({ OrdEntry.fresh 0 0 with regs := [msgM 1] ++ [msgM 0] } : OrdEntry).complete = true ∧
    ({ OrdEntry.fresh 0 0 with regs := [] ++ [msgM 1] } : OrdEntry).complete = false ∧
    ((ordS [entryE none []] []).ordinal.openFor 0 0).find? (·.num.isNone) = some (entryE none []) ∧ (entryE none []).complete = true ∧
    (ordS [entryE (some 3) []] []).ordinal.byNum 3 = some (entryE (some 3) []) ∧
    (entryE (some 3) []).timedOut 0 = true ∧ (entryE (some 3) []).startStands 1 = false ∧
    ({ entryE (some 3) [] with timer := none } : OrdEntry).mayStart 1 = true ∧
    ({ entryE (some 3) [] with timer := none } : OrdEntry).timedOut 0 = false ∧ (entryE (some 3) [1]).startStands 1 = true ∧
    (ordS [entryE (some 3) [1]] []).ordinal.awaits 0 0 (.start 3 1) = false ∧
    ((ordS [] []).comm? 0).map (·.ownRank) ≠ some 1 ∧ userS.ordinal.role ≠ .primary ∧ (ordS [] []).numbersHere 0 = true ∧
    (ordS [] []).ordinal.standby = none ∧ (entryE (some 3) [1]).timedOut 0 = true ∧ (entryE (some 3) [1]).rank0 = some (msgM 0) := by
  decide +kernel
/-- The entry that holds this package's registration. -/
def entryO (num : Option Nat) (starts : List Nat) : OrdEntry := { entryE num starts with mine := some 0 }
/-- The hart waits for the answer to its CCANCEL of that registration. -/
def cancelling (s : State) : State := { s with hart := { s.hart with cancel := some (.mk 0 0 0 none 7 0) } }
theorem witness_OrdinalCancellation :
    (let s := cancelling (ordS [entryO (some 3) []] [regM])
     s.numbersHere 0 = true ∧ (s.comm? 0).map (·.ownRank) = some 0 ∧ s.nextCancel 0 0 = some 0 ∧ s.ordinalActive = true ∧
     s.regOnWay 0 = false ∧ s.ordinal.holding 0 = some (entryO (some 3) []) ∧ (entryO (some 3) []).reply? 0 = none ∧
     s.ordinal.cancelAnswer (some (entryO (some 3) [])) = 0 ∧ s.ordinal.standby = none ∧ s.cancelSent (entryO (some 3) []) = true) ∧
    (cancelling (ordS [] [regM])).regOnWay 0 = true ∧ ({ entryO (some 3) [] with answers := [(0, 2)] } : OrdEntry).reply? 0 = some 2 ∧
    ({ (ordS [] []).ordinal with standby := some 1 } : Machine.Ordinal).standby ≠ none ∧
    (let s := ordS [entryE (some 3) []] []
     (s.comm? 0).map (·.ownRank) ≠ some 1 ∧ s.numbersHere 0 = true ∧ s.ordinalActive = true ∧
     s.ordinal.cancelEntry 0 0 1 = some (entryE (some 3) []) ∧ (entryE (some 3) []).reply? 1 = none) ∧
    (ordS [] []).nextCancel 0 0 = none ∧ (ordS [] []).ordinal.cancelEntry 0 0 1 = none ∧
    (let s := cancelling numberedS
     s.numbersHere 0 = false ∧ (s.comm? 0).map (·.ownRank) = some 0 ∧ s.nextCancel 0 0 = some 0 ∧ s.stalled (s.commSeq 0) = false ∧
     s.answersLeft 0 = [0, 1, 2, 3] ∧ s.regs.find? (·.id = 0) = some { regM with state := .numbered 3 none false false }) ∧
    (let r : Registration := { regM with state := .numbered 3 none true false }
     r.told = none ∧ r.accepted = false ∧ r.answers = [0, 2]) ∧ startedR.accepted = true ∧ startedR.answers = [1] ∧
    ({ regM with told := some 0 } : Registration).answers = [2] ∧
    (let s : State := { vecS with hart := { vecHart with cancel := some (.mk 0 0 0 (some [2]) 7 0) } }
     s.regs.find? (·.id = 0) = none ∧ s.answersLeft 0 = [2]) := by decide +kernel
theorem witness_OrdinalRolesComplete :
    userS.ordinal.lost = false ∧ userS.status.full = true ∧ userS.domainId = 0 ∧ userS.ordinal.role = .none ∧
    (ordS [] []).ordinal.role = .primary ∧ 40 ≤ ({ ordS [] [] with time := 40 } : State).time - (ordS [] []).ordinal.lastBeat ∧
    userS.status.fatal = 0 ∧
    (let o : Machine.Ordinal := { (ordS [] [startedR]).ordinal with pending := [.mk 2 0 0 (.start 3 0)] }
     o.pending.find? (·.id = 2) = some (.mk 2 0 0 (.start 3 0)) ∧ o.role = .primary ∧ o.stopped = false ∧ 0 - o.lastAck < 100) ∧
    (let o : Machine.Ordinal := { (ordS [entryE (some 3) []] []).ordinal with role := .standby }
     o.role = .standby ∧ o.byNum 3 = some (entryE (some 3) []) ∧ o.byNum 4 = none ∧ (o.openFor 0 0).find? (·.num.isNone) = none) ∧
    (100 ≤ ({ ordS [] [] with time := 100 } : State).time - (ordS [] []).ordinal.lastAck) ∧ userS.time - userS.ordinal.lastBeat < 200 ∧
    200 ≤ ({ userS with time := 200 } : State).time - userS.ordinal.lastBeat ∧ userS.time - userS.ordinal.lastAck < 100 := by decide +kernel
def begunS : State := ordS [entryE (some 3) [0, 1]] [startedR]
theorem witness_CollectiveEngineCompletes :
    numberedS.numbersHere 0 = false ∧ (ordS [entryE (some 3) []] []).noticeTrue 0 0 3 none false false = true ∧
    numberedS.regOf 3 0 = some { regM with state := .numbered 3 none false false } ∧ numberedS.linksUp = true ∧
    numberedS.reached 0 none = true ∧ userS.regOf 3 0 = none ∧ numberedS.comm? 0 = some commM ∧
    numberedS.mayEndUnstarted regM commM true false 2 = true ∧
    ({ begunS with regs := [{ startedR with verdict := some 3 }] } : State).mayEndStarted { startedR with verdict := some 3 } commM 3 = true ∧
    begunS.mayFinish startedR commM 3 [.mk 1 [] []] = true ∧ begunS.numbersHere startedR.comm = true ∧
    begunS.regOf 3 0 = some startedR ∧ peersOk commM (collDesc collD) [.mk 1 [] []] = true ∧ begunS.doneHere 3 0 [0, 1] = true ∧
    commM.members.any Member.isEther = false ∧
    ok (collRead (begunS.collAccess startedR) 0 (collDesc collD).src 1 0 0) begunS (fun own u => own = [] && u = begunS) = true ∧
    ok (endColl startedR 3 1 0 0 [0, 1]) begunS (fun _ z => z.regs = []) = true ∧
    ({ vecS with time := 300, hart := { vecHart with cancel := some (.mk 0 0 0 none 7 0) } } : State).hart.cancel = some (.mk 0 0 0 none 7 0) := by
  decide +kernel
/-- A collective whose source lies in an unmapped page. -/
def strayD : BitVec 512 := BitVec.ofNat 512 (0 + 2 * 2 ^ 27 + 1 * 2 ^ 96 + 0x8000000000 * 2 ^ 128 + 0x6000 * 2 ^ 192)
def strayR : Registration := { regM with desc := strayD, state := .started 3 }
theorem witness_CollectiveFaults :
    dataNow strayR commM = collAccesses strayR commM ∧ ({ regS with regs := [strayR] } : State).endNow strayR commM = endAccesses strayR commM ∧
    ok (faultsWith strayR (regS.collAccess strayR) 13 0x8000000000 (collAccesses strayR commM)) { regS with regs := [strayR] }
      (fun b u => b && u = { regS with regs := [strayR] }) = true ∧
    ({ regS with regs := [strayR] } : State).entryHere 3 0 = none ∧
    (ordS [entryE (some 3) [1]] []).entryHere 3 0 = some (entryE (some 3) [1]) ∧ (msgM 0).strict = true := by decide +kernel
def writingS : State := { userS with linksUp := true, doomed := [(.hart 0, 0x40)], lost := [.mk (.hart 0) [.scalar] 0x80 0] }
theorem witness_RemoteAccessesAtHome :
    userS.homeOk 0xFFFFFFFFF8 8 0 = true ∧ 0xFFFFFFFFF8 % 8 = 0 ∧ (EType.code (.f32)) = EType.code .f32 ∧ 0xFFFFFFFFF8 % ebOf (EType.code .f32) = 0 ∧
    ({ userS with linksUp := false } : State).linksUp = false ∧ userS.keys.get? 7 = none ∧ (userS.hartOf 0).status = .running := by
  decide +kernel
/-- The second GiB of queue 0's addresses is memory of package 1. -/
def remS (links : Bool) (f : Option Unanswered) : State :=
  { userS with linksUp := links, mem := Memory.write tables 0x11008 (toBytes 8 (0x7F + 2 ^ 23)), hart := { userS.hart with remoteFault := f } }
/-- A byte of it, where package 1's controllers hold key 0 (another package's keys are no state of this one, log 13): read, or in an
atomic. -/
theorem remote_placed (links : Bool) (f : Option Unanswered) (kind : AKind) (b : Bool)
    (hk : kind = .load ∧ b = false ∨ kind = .store ∧ b = true) (h : Config.keyLoadedAt 1 0 0 = true) :
    ∃ p u, (placeBytes {} ((remS links f).access (remS links f).hart) kind b b 0x40000040 0x40000040 1).run
      (remS links f) = .ok [p] u ∧ isRemote p = true ∧ u.linksUp = links ∧ u.hart.remoteFault = f := by
  have hw : walk (remS links f) 1073741888 4 ((remS links f).rootOf 0) 0 = .leaf 0x80007F 0x11008 1 :=
    (show _ = walk (remS true none) 1073741888 4 ((remS true none).rootOf 0) 0 from rfl).trans (by decide +kernel)
  have hp : (remS links f).keyLoaded 1 0 = true := h
  have hs : sextN 48 1073741888 = 1073741888#64 := rfl
  have h2 : Nat.testBit 0x80007F 2 = true ∧ Nat.testBit 0x80007F 1 = true ∧ Nat.testBit 0x80007F 4 = true ∧
    Nat.testBit 0x80007F 9 = false ∧ pteMt 0x80007F = 0 ∧ ptePpn 0x80007F = 0 ∧ pteHome 0x80007F = 1 ∧ pteKey 0x80007F = 0 ∧
    pageSize 1 = 2 ^ 30 := by decide
  have hd : (remS links f).domainId = 0 := rfl
  have ht : (Machine.translate {} kind true b b ((remS links f).rootOf 0) 0x40000040#64 0x40000040#64).run (remS links f) =
      .ok { key := memKey 0 1 64, mt := 0, remote := true, home := 1, crypt := none } { remS links f with
        mem := Memory.write (remS links f).mem 0x11008 (toBytes 8 (0x80007F ||| 32 ||| (if b then 64 else 0))) } := by
    unfold Machine.translate
    rcases hk with ⟨rfl, rfl⟩ | ⟨rfl, rfl⟩ <;> simp_all [memKey, State.cryptKey]
  have ha : (remS links f).access (remS links f).hart =
    .virt (some { hart := 0, launch := 5, inB := false, key := [], iter := some [0], inSetup := false }) true := rfl
  have hb := placeOne_page (w := {}) (v := { hart := 0, launch := 5, inB := false, key := [], iter := some [0], inSetup := false })
    (kind := kind) (write := b) (amo := b) (fa := 0x40000040#64) (va := 0x40000040#64) (s := remS links f) (l := launchL) rfl rfl rfl (by decide)
  rw [show launchL.queue = 0 from rfl, ht] at hb
  refine ⟨(.mem (memKey 0 1 64), some { key := memKey 0 1 64, mt := 0, remote := true, home := 1, crypt := none }), { remS links f with
    mem := Memory.write (remS links f).mem 0x11008 (toBytes 8 (0x80007F ||| 32 ||| (if b then 64 else 0))) }, ?_, rfl, rfl, rfl⟩
  simp only [placeBytes, Op.run_bind, ha]
  erw [hb]
  rfl
theorem witness_RemoteFaults :
    (0x40000040#64).toNat % 1 = 0 ∧ (remS true none).parts ((remS true none).access (remS true none).hart) .load false 0x40000040 1 = [1] ∧
    (remS true none).parts ((remS true none).access (remS true none).hart) .store true 0x40000040 1 = [1] ∧ AKind.load.remote = .load := by
  decide +kernel
theorem witness_RemoteWrites :
    writingS.mayWrite (.hart 0) = true ∧ ([(Loc.mem 0x140000000040, some (.mk 0x140000000040 0 true 1 none))] : List (Loc × Option Phys)).any isRemote = true ∧
    (Writer.hart 0, (0x40#64)) ∈ writingS.doomed ∧ writingS.linksUp = true ∧ (Writer.hart 0, (0x48#64)) ∉ writingS.doomed ∧
    writingS.lost.find? (fun l => l.writer = .hart writingS.hart.id && l.views.contains .scalar) =
      some (.mk (.hart 0) [.scalar] 0x80 0) ∧
    writingS.lost.find? (fun l => l.writer = .hart writingS.hart.id && l.views.contains .vector) = none ∧
    writingS.mayWrite (.context 0) = false := by decide +kernel
/-- A session with the package at peer 1, freshly keyed. -/
def sessS : State := { userS with sessions := [.mk 1 0 0 0 0 0 [] []] }
theorem witness_SessionsFollow :
    sessS.session? 1 = some (.mk 1 0 0 0 0 0 [] []) ∧ sessS.session? 2 = none ∧ sessS.linksUp = true ∧ (0 : Nat) = (Session.mk 1 0 0 0 0 0 [] []).nextRecv := by
  decide +kernel

/-! ## Scratchpads, queues, CSRs: a state for each clause -/

/-- Launch 5 at tick 300, with PTRAP or without, the first block of hart 0's scratchpad as given. -/
def winS (b : Option Block) (ptrap : Bool) : State :=
  { userS with
    hart := { userS.hart with pool := (b.map fun k => (4032, k)).toList }
    launches := [(5, { launchL with a := { kern with flags := if ptrap then 0x36 else 0x32 } })]
    time := 300 }
/-- The last eight bytes of the scratchpad of 16 KiB; one byte further there is no window. -/
theorem witness_WindowAccesses :
    (winS none false).hart.mode = .u ∧ ((winS none false).windowRange (winS none false).hart 0x7E0000003FF8 8).getLeft?.map (·.loc 0x7E0000003FF8) =
      some (.core 0 (4032 * 256 + 0x3FF8)) ∧
    (winS none false).windowRange (winS none false).hart 0x7E0000003FF8 9 = .inr 0x7E0000004000 ∧
    (winS none false).hart.sbanks ≤ 64 ∧ kern.clSpb ≤ 2 ^ 23 ∧ (userS.queue 0).elisions = [] ∧
    (winS none false).staleSub (.core 0 (4032 * 256)) = some 2 ∧
    (winS (some { liveBlock with stamp := 44 }) false).staleSub (.core 0 (4032 * 256)) = some 1 ∧
    (winS (some { liveBlock with stamp := 45 }) false).staleSub (.core 0 (4032 * 256)) = none ∧
    (winS (some { liveBlock with stamp := 45, poison := [0] }) true).poisonSub (.core 0 (4032 * 256)) = some 2 ∧
    (winS none true).flag (winS none true).hart 2 = true ∧ (winS none false).flag (winS none false).hart 2 = false := by decide +kernel

/-- Launch 5 in M-mode over a poisoned sector at 0x100, with PTRAP or without. -/
def poisonS (ptrap : Bool) : State :=
  { winS none ptrap with hart := { (winS none ptrap).hart with mode := .m }, poison := [(8, .l2)] }
theorem witness_AtomicsOfMemory :
    bare (poisonS false) ∧ (poisonS false).memOk ∧ (0x100#64).toNat % 8 = 0 ∧ (0x100#64).toNat + 8 ≤ (poisonS false).physLimit ∧
    ((List.range 8).map fun i => Loc.mem ((0x100#64).toNat + i)).findSome? (poisonS false).poisonSub = some 2 ∧
    (poisonS false).flag (poisonS false).hart 2 = false ∧ (poisonS true).flag (poisonS true).hart 2 = true ∧
    (0x104#64).toNat % 8 ≠ 0 ∧ (poisonS false).physLimit ≤ (0x7FFFFFFFF8#64).toNat * 16 :=
  ⟨⟨rfl, by decide +kernel⟩, rfl, by decide, by decide +kernel, by decide +kernel, by decide +kernel, by decide +kernel, by decide,
    by decide +kernel⟩

theorem witness_CsrWrites :
    csrReserved 0x002 (newValue (withX 5 0 0 bareS) 0x002 writeFrom5) ∧ ¬ csrReserved 0x002 (newValue (withX 4 0 0 bareS) 0x002 writeFrom5) ∧
    csrReserved 0x300 (newValue (withX 0x800 0 0 bareS) 0x300 writeFrom5) ∧ csrReserved 0x305 (newValue (withX 2 0 0 bareS) 0x305 writeFrom5) ∧
    csrReserved 0x7C4 (newValue (withX 0x600 0 0 bareS) 0x7C4 writeFrom5) ∧ ¬ csrReserved 0x7C4 (newValue (withX 0x500 0 0 bareS) 0x7C4 writeFrom5) ∧
    True := by
  unfold csrReserved; refine ⟨?_, ?_, ?_, ?_, ?_, ?_, trivial⟩ <;> decide +kernel
theorem witness_CsrWritesAllowed :
    csrAllowed bareS 0x002 true = true ∧ csrAllowed bareS 0x305 true = true ∧ csrAllowed bareS 0x7C4 true = true ∧
    (csrTakes bareS.hart (newValue bareS 0x7C4 writeFrom5) 0x7C4).isSome = true ∧ csrNamed 0x3A0 = false ∧ csrNamed 0x7C0 = true ∧
    csrAllowed bareS 0xB02 true = true ∧ bitAt bareS.hart.mcountinhibit 2 = false ∧ bareS.hart.fsOn = true ∧
    ({ bareS with hart := { bareS.hart with mstatus := 0 } } : State).hart.fsOn = false := by decide +kernel
theorem witness_CsrReads :
    csrAllowed bareS 0xB02 false = true ∧ csrAllowed userS 0x340 false = false ∧ bareS.hart.mode = .m ∧ userS.hart.mode = .u := by
  decide +kernel

/-- The queue of launch 5 with its error word at 0x6000. -/
def errwS : State := { userS with queues := [(0, { queueQ with installed := entryQ ||| BitVec.ofNat 512 (0x6000 * 2 ^ 128) })] }
theorem witness_ErrorWordPlaced :
    errwS.launches.get? 5 = some launchL ∧ errwS.memOk ∧ field512 (errwS.queue 0).installed 0x10 0 48 = 0x6000 ∧
    ok (qPlaces 0 (sext48 0x6000) 8) errwS (fun ps _ => ps.map (·.1) = (List.range 8).map fun i => Loc.mem (0x6000 + i)) = true ∧
    field512 (userS.queue 0).installed 0x10 0 48 = 0 ∧
    trapped (qPlaces 0 (sext48 0x8000000000) 8) errwS (fun _ _ => true) = true :=
  ⟨rfl, rfl, by decide +kernel, by decide +kernel, by decide +kernel, by decide +kernel⟩

/-- A load whose element 2 lies at the end of memory. -/
def edgeS : State := withX 0x7FFFFFFE 4 0 vecS
theorem edge_traps : ∃ tr, tr.elem = 2 ∧ tr.cause = 5 ∧ ∀ h, sameView h edgeS.hart →
    (memRead (elemWho 2) (0x80000000#64) 1).run { edgeS with hart := h } = .error (.trap tr) { edgeS with hart := h } := by
  refine ⟨{ cause := 5, elem := 2, addr := some 0x80000000, unit := 2, mtvalAddr := true }, rfl, rfl, fun h hv => ?_⟩
  have ha : ({ edgeS with hart := h } : State).access h = .phys := access_bare (s := { edgeS with hart := h })
    ⟨by rw [hv]; rfl, by rw [hv]; exact (by decide : ¬ (bitAt edgeS.hart.mstatus 17 = true ∧ mppOf edgeS.hart.mstatus = .u))⟩
  have hr := readBytes_phys_fault (w := elemWho 2) (kind := .load) (pol := .running) (s := { edgeS with hart := h }) (va := 0x80000000#64)
    (n := 0) (show edgeS.physLimit ≤ _ by decide +kernel)
  unfold memRead
  simp only [Op.run_bind, Op.run_get, ha, Nat.mod_one, ne_eq, not_true_eq_false, if_false]
  rw [hr]
  rfl
theorem witness_VectorLoadTraps :
    (loadLane edgeS (anyM (.rc 0)) (fun _ => some 0)).passes edgeS ∧ undisturbed edgeS.hart ∧
    (loadLane edgeS (anyM (.rc 0)) (fun _ => some 0)).acts edgeS.hart 2 ∧ vaddr edgeS (anyM (.rc 0)) 1 (fun _ => 0) 2 = some 0x80000000 ∧
    (∀ e, e < 2 → loadReads edgeS (anyM (.rc 0)) (fun _ => 0) (fun _ => some 0) e) := by
  refine ⟨⟨by decide +kernel, by decide +kernel, by decide +kernel, .inr (.inl rfl)⟩, ⟨rfl, rfl⟩, by unfold Lane.acts; decide +kernel, by decide +kernel, ?_⟩
  intro e he
  refine ⟨fun n h => (by cases h), ?_⟩
  interval_cases e
  · exact ⟨0, rfl, reads_as (s := edgeS) (va := 0x7FFFFFFE#64) ⟨rfl, by decide⟩ (by decide +kernel) (fun _ _ => rfl) (Nat.mod_one _) _⟩
  · exact ⟨0, rfl, reads_as (s := edgeS) (va := 0x7FFFFFFF#64) ⟨rfl, by decide⟩ (by decide +kernel) (fun _ _ => rfl) (Nat.mod_one _) _⟩

/-! ## Clauses, the Scarab's reports, chains -/

/-- One pass of the clause of one VADD. -/
theorem witness_ClausePass : ∃ t, wordsRun (passClause inClause) ((passClause inClause).ops.drop inClause.cur) inClause.cur
    (passState inClause 8 clausedS) t :=
  ⟨_, .vadd (anyV 1 2 (.vv 3)), _, _, by decide +kernel, rfl, rfl, rfl⟩
/-- A VLD past the end of memory in its place traps. -/
def vldWord : Nat := ofBytes ((encode (.vld (anyM (.rc 0)))).getD [])
def strayClause : Clause := { inClause with ops := [.mk (BitVec.ofNat 32 vldWord) 0x80000000 4] }
theorem witness_ClauseTrap :
    (passClause strayClause).ops.drop strayClause.cur = [] ++ .mk (BitVec.ofNat 32 vldWord) 0x80000000 4 :: [] ∧
    decodeWordOf (BitVec.ofNat 32 vldWord) = some (.vld (anyM (.rc 0))) ∧
    (match vbody (.vld (anyM (.rc 0))) with
      | some f => trapped (f (.mk 0x80000000 4)) (atWord (passClause strayClause) (.mk (BitVec.ofNat 32 vldWord) 0x80000000 4) 0
          (passState strayClause 8 { clausedS with hart := { clausedS.hart with clause := some strayClause } })) (fun t _ => t.cause = 5 && t.elem = 0)
      | none => false) = true := by decide +kernel
/-- The VADD behind the clause waits for it; a hart of U-mode stands at the word where its clause stopped. -/
def stoppedS : State := { userS with hart := { userS.hart with clause := some { inClause with stopped := some 8, heldIn := .u, mode := .u }, pc := 4 } }
theorem witness_ClauseSteps :
    clausedS.agenda = [] ∧ clausedS.status.fatal = 0 ∧ clausedS.hart.status = .running ∧ clausedS.forcedDue = false ∧ clausedS.hart.mode = .m ∧
    ok (fetchAt (clausedS.fetchAccess clausedS.hart.mode clausedS.hart) clausedS.hart.pc) clausedS
      (fun bs u => bs = toBytes 4 vaddWord && u.hart.clauseRuns && !u.hart.requestPending &&
        waitsForClause { u.hart with ir := irOf bs } (.vadd (anyV 1 2 (.vv 3)))) = true ∧
    stoppedS.agenda = [] ∧ stoppedS.status.fatal = 0 ∧ stoppedS.hart.status = .running ∧ stoppedS.forcedDue = false ∧ stoppedS.hart.mode = .u ∧
    stoppedS.hart.pc = inClause.pc + BitVec.ofNat 64 (4 * inClause.cur) ∧ inClause.done < inClause.trips := by decide +kernel
/-- An advance bit on an indexed access; a body word poisoned, one unmapped, one no instruction. -/
theorem witness_ClauseCaptureFails :
    (∃ k i m, ([Instr.vld (anyM (.ix 2))] : List Instr)[k]? = some i ∧ mopOf i = some m ∧ bitAt (1 : Word) k = true ∧ ∃ v, m.mode = .ix v) ∧
    trapped (captureWords 0x7FFFFFFC 1 0) vecS (fun t _ => t.cause = 1) = true ∧
    trapped (fetchAt (vecS.fetchAccess vecS.hart.mode vecS.hart) 0x80000000) vecS (fun t _ => t.cause = 1) = true ∧
    trapped (fetchAt (vecS.fetchAccess vecS.hart.mode vecS.hart) 4) { vecS with poison := [(0, .hbm)] } (fun t _ => t.cause = 25) = true ∧
    ok (fetchAt (vecS.fetchAccess vecS.hart.mode vecS.hart) 4) vecS (fun bs _ => (match decode bs with
      | .error _ => true
      | .ok _ => false)) = true :=
  ⟨⟨0, _, _, rfl, rfl, by decide, 2, rfl⟩, by decide +kernel, by decide +kernel, by decide +kernel, by decide +kernel⟩

theorem witness_ScarabKept :
    begunC.lostElem (queuedS begunC) false 2 = none ∧ begunC.lostElem (queuedS begunC) true 4 = none ∧
    ok (copyElems strayC 4 0) { queuedS strayC with freeCtr := 1 } (fun r u => r.2.1 = 0 && r.2.2.isSome &&
      ok (landAbove r.1 0 0 3 1) u (fun c v => c.lostElem v false 0 = none && ok (addCounter c 0) v (fun a w => a = none &&
        ok (writeStatus c 0 15 0 0x8000000000) w (fun l x => !l && ok (setBit63 c) x (fun _ _ => true))))) = true := by decide +kernel
theorem witness_ScarabReportsFollow :
    begunC.counter = 0x4800 ∧
    ok (enginePlace begunC.access true (BitVec.ofNat 64 begunC.counter) 8) (queuedS begunC)
      (fun ps v => ps.map (·.1) = (List.range 8).map (fun i => Loc.mem (0x4800 + i)) && !ps.any isRemote && v.poison = [] && Memory.wf v.mem) = true ∧
    trapped (enginePlace begunC.access true 0x8000000000 8) (queuedS begunC) (fun _ _ => true) = true ∧
    ok (enginePlace begunC.access false 0x4900 16) (queuedS { begunC with status := 0x4900 })
      (fun ps v => ps.map (·.1) = (List.range 16).map (fun i => Loc.mem (0x4900 + i)) && !ps.any isRemote && Memory.wf v.mem) = true ∧
    trapped (enginePlace begunC.access false 0x8000000000 16) (queuedS begunC) (fun _ _ => true) = true := by decide +kernel
/-- The one-step program of `chainMem`, with `t` columns, slots 0 and 1 of `i` and `o` units of 64 KiB; and what a step reads of it. -/
def chainRead (t i o : Nat) : ChainRead :=
  { hdr := 0x8100, steps := [stepWordOf (2 ^ 12 + 2 ^ 24 + 2 ^ 39 + 2 ^ 42)]
    cd := t + (0x8300 + i * 2 ^ 48) * 2 ^ 128 + (0x8400 + o * 2 ^ 48) * 2 ^ 192, w := stepWordOf (2 ^ 12 + 2 ^ 24 + 2 ^ 39 + 2 ^ 42)
    fd := 0x8500 + 0x8600 * 2 ^ 64 + 2 ^ 128 + 2 ^ 144 }
def chainT (t i o : Nat) : State := { chainS 0 with mem := Memory.write chainMem 0x8200 (toBytes 64 (chainRead t i o).cd) }
def chainHolds (t i o : Nat) : Bool :=
  let r := chainRead t i o
  let s := chainT t i o
  ok (readStruct 0x8000 64) s (fun a u => a = r.hdr && u = s) && ok (readSteps 0x8000 4096 0) s (fun a u => a = r.steps && u = s) &&
    ok (readStruct 0x8200 64) s (fun a u => a = r.cd && u = s) && ok (readStruct 0x8100 32) s (fun a u => a = r.fd && u = s) &&
    (r.steps.getLast?.map (·.last)).getD false && r.steps[0]? = some r.w
theorem witness_ChainStepReads : chainHolds 1 1 1 = true ∧ chainHolds (2 ^ 24) 1 1 = true ∧ chainHolds (2 ^ 24) 1024 1 = true ∧
    chainHolds 0 1 1 = true := by decide +kernel
theorem witness_ChainStepFields :
    (chainRead 1 1 1).fieldsOk (chainT 1 1 1).hart 0 ∧ (chainRead (2 ^ 24) 1024 1).fieldsOk (chainT 1 1 1).hart 0 ∧
    ¬ (chainRead 0 1 1).fieldsOk (chainT 0 1 1).hart 0 := by
  unfold ChainRead.fieldsOk
  decide +kernel
theorem witness_ChainStepFollows :
    ok (chainChecks 0x8000 0x8200 0) (chainT 1 1 1) (fun e u => e = (chainRead 1 1 1).env (chainT 1 1 1).hart 0 && u = chainT 1 1 1) = true ∧
    trapped (chainChecks 0x8000 0x8200 0) (chainT 0 1 1) (fun t _ => t.cause = 48 && t.sub = 1) = true ∧
    trapped (chainChecks 0x8000 0x8200 0) (chainT (2 ^ 24) 1 1) (fun t _ => t.cause = 28 && t.addr = some 0x8210) = true ∧
    trapped (chainChecks 0x8000 0x8200 0) (chainT (2 ^ 24) 1024 1) (fun t _ => t.cause = 28 && t.addr = some 0x8218) = true ∧
    trapped (chainChecks 0x8000 0x8200 1) (chainT 1 1 1) (fun t _ => t.cause = 48 && t.sub = 1) = true ∧
    ok (chainStep 0x8000 0x8200 0 none) (chainT 1 1 1) (fun last v => last && Memory.read v.mem 0x8400 4 = [0, 0, 0, 0]) = true ∧
    ok (readValues 4 1 0x8600) (chainT 1 1 1) (fun a u => a = [0] && u = chainT 1 1 1) = true ∧
    ok (readTiles ((chainRead 1 1 1).env (chainT 1 1 1).hart 0) 1 1 0) (chainT 1 1 1) (fun a u => a.length = 1 && u = chainT 1 1 1) = true ∧
    bare (chainT 1 1 1) := by
  refine ⟨by decide +kernel, by decide +kernel, by decide +kernel, by decide +kernel, by decide +kernel, by decide +kernel, by decide +kernel,
    by decide +kernel, ?_⟩
  exact ⟨rfl, fun h => absurd h.1 (by show ¬ bitAt (Hart.reset 0).mstatus 17 = true; decide)⟩
/-- A forced pre-emption due before step 1 of a chain in a hart of U-mode with USECU. -/
def dueS : State := { chainT 1 1 1 with time := 500, hart := { (chainT 1 1 1).hart with mode := .u, preq := 1, mie := 0x10000, stopAt := some 0 } }
theorem witness_ChainForced : dueS.cmOk dueS.hart = true ∧ dueS.hart.grant = some gridG ∧ dueS.forcedDue = true ∧
    dueS.hart.stopAt = some (dueS.hart.chstep.toNat + 0) ∧ chainSteps (dueS.hart.xr 5) (dueS.hart.xr 6) 0 dueS dueS :=
  ⟨by decide +kernel, rfl, by decide +kernel, rfl, rfl⟩

/-! ## Records, pairs, distribution: a state for each clause -/

/-- Four INT8 elements at 0x7000, dense. -/
def tensorD : BitVec 512 := BitVec.ofNat 512 (2 ^ 25 + 0x7000 * 2 ^ 32 + 4 * 2 ^ 80 + 1 * 2 ^ 272)
/-- Queue 0's head record at 0x4000: header 0x5000, parameter block 0x5400, four iterations; the header of one temporal level, without its
CRC; a map entry at 0x5080, its parameter word at 0x5400, the descriptor of `tensorD` at 0x5500. The page table is at 0x1000. -/
def headCells : List Host.Cell :=
  [(0x1000, 1), (0x1004, 1), (0x2000, 127), (0x4001, 80), (0x4009, 84), (0x4010, 4), (0x5000, 67), (0x5001, 69), (0x5002, 76), (0x5003, 75), (0x5004, 1), (0x500C, 96),
   (0x5014, 1), (0x5015, 1), (0x5024, 104), (0x5028, 1), (0x502C, 128), (0x5081, 2), (0x5082, 1), (0x5084, 1), (0x50C0, 1),
   (0x5401, 85), (0x5503, 2), (0x5505, 112), (0x550A, 4), (0x5522, 1), (0x10000, 1), (0x10003, 128), (0x10004, 8), (0x11000,
   127)]
/-- The same with other bytes, and with a CRC. -/
def headMem (crc : Nat) (cs : List (Nat × List Byte)) : List Host.Cell :=
  cs.foldl (fun m c => Memory.write m c.1 c.2) (Memory.write headCells 0x505C (toBytes 4 crc))
def mapM (mode : Nat) : ElemMap :=
  { pidx := 0, mode := mode, dims := 1, mat := 1 :: List.replicate 35 0, off := List.replicate 6 0, box := 1 :: List.replicate 5 0
    desc := tensorD, descVa := 0x5500, owners := [] }
/-- What check 1 reads of it: a kernel of one temporal level of four iterations. -/
def rawE : RawLaunch :=
  { magic := 0x4B4C4543, version := 1, crcOk := true, lvlCnt := 1, mapCnt := 0
    k := { kern with
      hdr := 0x5000, param := 0x5400, exts := [4], flags := 0, profile := 0, entry := 0x60, nvreg := 1, minRows := 1, minLen := 0, coreSp := 0
      clSpb := 0, levels := [0], paramSz := 0 } }
def onK (f : Kernel → Kernel) : RawLaunch := { rawE with k := f rawE.k }
def withMap : RawLaunch := { onK (fun k => { k with paramSz := 8, maps := [mapM 2] }) with mapCnt := 1 }
def lowQ : Queue := { headQ with installed := BitVec.ofNat 512 (0x4000 + 0x1000 * 2 ^ 64 + 0x80000004 * 2 ^ 256) }
def lowS (m : List Host.Cell) : State := { headS m with queues := [(0, lowQ)] }
/-- The record at the head is taken, and reads as `x`. -/
def recordReads (crc : Nat) (cs : List (Nat × List Byte)) (x : RawLaunch) : Bool :=
  ok (recordTaken 0 0) (lowS (headMem crc cs)) (fun r u => match r with
    | some r => ok (readLaunch 0 0x4000 r) u (fun y _ => y = x)
    | none => false)
def elidedQ : Queue := { lowQ with elisions := [{ desc := tensorD, owners := [], recIdx := 2 ^ 32 - 1 }] }
theorem witness_RecordReads :
    recordReads 1425910951 [] rawE = true ∧ recordReads 1573125714 [(0x5004, [2])] { rawE with version := 2 } = true ∧
    recordReads 3011435071 [(0x5006, [2])] (onK fun k => { k with flags := 2 }) = true ∧
    recordReads 3532816340 [(0x5008, [0x20])] (onK fun k => { k with profile := 0x20 }) = true := by decide +kernel
theorem witness_RecordReadsMore :
    recordReads 3181561768 [(0x5028, [2]), (0x4010, toBytes 8 (2 ^ 24 + 2 ^ 56))]
      { onK (fun k => { k with exts := [2 ^ 24, 2 ^ 24], levels := [0, 0] }) with lvlCnt := 2 } = true ∧
    recordReads 2075616446 [(0x5029, [1]), (0x502A, [8])] withMap = true ∧
    recordReads 2317247349 [(0x501F, [0x40])] (onK fun k => { k with coreSp := 2 ^ 30 }) = true ∧
    0 ∈ ({ lowQ with unreadable := [0] } : Queue).unreadable ∧ lowQ.unreadable = [] ∧ lowQ.recordAt 0 = 0x4000 ∧
    trapped (readLaunch 0 0x4000 (BitVec.ofNat 512 0x8000000000)) (headS tables) (fun _ _ => true) = true ∧
    lowQ.taken = [] ∧ Tab.get? ([(0, entryQ)] : Tab (BitVec 512)) 0 = some entryQ ∧
    ok (recordTaken 0 0) { headS tables with queues := [(0, { lowQ with unreadable := [0] })] } (fun r _ => r = none) = true ∧
    trapped (qRead 0 0x8000000000 64) (headS tables) (fun _ _ => true) = true := by decide +kernel
theorem witness_HeaderFits : headerFits rawE ∧ ¬ headerFits { rawE with version := 2 } ∧ headerFits (onK fun k => { k with flags := 2 }) ∧
    headerFits (onK fun k => { k with profile := 0x20 }) ∧
    headerFits { onK (fun k => { k with exts := [2 ^ 24, 2 ^ 24], levels := [0, 0] }) with lvlCnt := 2 } ∧ headerFits withMap ∧
    headerFits (onK fun k => { k with coreSp := 2 ^ 30 }) := by
  unfold headerFits
  refine ⟨?_, ?_, ?_, ?_, ?_, ?_, ?_⟩ <;> decide +kernel
theorem witness_RecordChecks : ¬ profileFits { rawE.k with profile := 0x20 } ∧ profileFits rawE.k ∧ profileFits withMap.k ∧
    2 ^ 48 ≤ ([2 ^ 24, 2 ^ 24] : List Nat).prod ∧ namesElided elidedQ 0 withMap.k ∧ ¬ namesElided lowQ 0 rawE.k ∧ lowQ.cpriv = false ∧
    ¬ minimumsFit { rawE.k with coreSp := 2 ^ 30 } 65536 ∧ minimumsFit rawE.k 0 ∧ coreRemains userS := by
  unfold profileFits namesElided minimumsFit coreRemains
  refine ⟨?_, ?_, ?_, ?_, ?_, ?_, ?_, ?_, ?_, ⟨0, by decide, by decide +kernel⟩⟩ <;> decide +kernel
/-- A and B of a pair on `tensorD`: A writes element i in iteration i, B reads it, or `n` elements from it on. -/
def mapW (mode n : Nat) : ElemMap := { mapM mode with box := n :: List.replicate 5 0 }
def spliceA : Kernel := { kern with flags := 1, trans := 1, coreSp := 0, clSpb := 0, paramSz := 8, maps := [mapW 2 1] }
def spliceB (n : Nat) : Kernel := { kern with flags := 1, coreSp := 0, clSpb := 0, paramSz := 8, maps := [mapW 1 n] }
theorem witness_PairsForm :
    (pairOn userS lowQ spliceA [] 1 (spliceB 1) none (mapW 2 1)).map (fun p => (p.dist, p.lag, p.materialised)) = some (1, 0, false) ∧
    (pairOn userS lowQ spliceA [] 1 (spliceB 2) none (mapW 2 1)).map (fun p => (p.dist, p.lag, p.materialised)) = some (1, 1, false) ∧
    (pairOn userS lowQ spliceA [.mk 2 (some (spliceB 1)) true] 1 (spliceB 1) none (mapW 2 1)).map (·.materialised) = some true ∧
    pairOn userS lowQ spliceA [] 1 { spliceB 1 with pmask := 1, nosplice := true } none (mapW 2 1) = none ∧
    (mapW 2 1) ∈ spliceA.goodMaps ∧ 1 ∈ ({ lowQ with tail := 2 } : Queue).window ∧ lowQ.consumed = [] := by decide +kernel
theorem tiles_witness : tiles spliceA (mapW 2 1) := by
  refine ⟨by decide +kernel, by decide +kernel, fun d l hd hl => ?_⟩
  have h1 : d < 1 := hd
  have h2 : l < 1 := hl
  interval_cases d
  interval_cases l
  decide +kernel
theorem witness_Splices : splices userS lowQ spliceA (spliceB 1) [] 1 none (mapW 2 1) (mapW 1 1) 0 ∧
    splices userS lowQ spliceA (spliceB 2) [] 1 none (mapW 2 1) (mapW 1 2) 1 := by
  unfold splices
  have ht := tiles_witness
  unfold dense composes minimumsFit coreRemains
  refine ⟨⟨?_, ?_, ?_, ?_, ?_, ?_, ?_, ?_, ?_, ?_, ?_, ht, ?_, ?_, ?_, ?_, ?_, ?_, ?_, ?_, ?_⟩,
    ⟨?_, ?_, ?_, ?_, ?_, ?_, ?_, ?_, ?_, ?_, ?_, ht, ?_, ?_, ?_, ?_, ?_, ?_, ?_, ?_, ?_⟩⟩ <;> decide +kernel

/-- The pair spliced: four iterations, lag 1; launch 5, hart 0 in body A of iteration 0. -/
def splP : Pair := { b := spliceB 2, dist := 1, lag := 1, materialised := false, mapA := mapW 2 1, mapB := mapW 1 2 }
def splL : Launch := { launchL with a := spliceA, pair := some splP, keys := [{ key := [], nextPos := 1, holder := some 0 }] }
def splS (p : Pair) : State := { userS with launches := [(5, { splL with pair := some p })] }
def bodyA : Via := { hart := 0, launch := 5, inB := false, key := [], iter := some [0], inSetup := false }
def bodyB : Via := { bodyA with inB := true }
theorem witness_SplicedLoopFollows :
    splL.pair = some splP ∧ 0 < innerExt splL.a ∧ temporalInner splL.a = true ∧
    (splS splP).launchOf (splS splP).hart = some splL ∧ (splS splP).hart.hookSave = none ∧ (splS splP).hart.requestPending = false ∧
    (splL.runFor 0 [] (splL.keyState []).nextPos).map (fun r => (r.pos, r.inB, r.iter)) = some (2, false, [1]) ∧
    (splS { splP with b := { spliceB 2 with setOff := 0x80 } }).launches.get? 5 = some { splL with pair := some { splP with b := { spliceB 2 with setOff := 0x80 } } } ∧
    Tab.sorted (splS splP).hart.pool = true := by decide +kernel
theorem witness_Overlay :
    denseElem splP.mapA.desc 0x7000 = some (0, 0) ∧ denseElem splP.mapA.desc 0x7004 = none ∧ splP.mapA.inBox [0] [0] = true ∧
    splP.mapA.inBox [0] [1] = false ∧ splP.mapA.mode = 2 ∧ splP.mapA.inBox (withInner [0] 1) [1] = true ∧ splP.mapA.inBox (withInner [0] 0) [1] = false ∧
    splP.mapB.inBox [0] [2] = false ∧ splP.mapA.inBox (withInner [0] 0) [2] = false ∧ splP.mapA.inBox (withInner [0] 1) [2] = false ∧
    (splS splP).overlayAt (some bodyA) .store false 0x7001 = .violation ∧ (splS splP).overlayAt (some bodyA) .store false 0x7000 = .ring 0 ∧
    (splS splP).overlayAt (some bodyB) .load false 0x7001 = .ring 256 ∧
    ok (Machine.translate {} .store true true false ((splS { splP with materialised := true }).rootOf 0) 0x7000 0x7000)
      (splS { splP with materialised := true }) (fun ph _ => ph.key = 0x7000) = true := by decide +kernel
theorem witness_Elided :
    (let s : State := { userS with queues := [(0, { queueQ with elisions := [{ desc := tensorD, owners := [], recIdx := 0 }] })] }
     s.launches.get? 5 = some launchL ∧ launchL.pair = none ∧ { desc := tensorD, owners := [], recIdx := 0 } ∈ (s.queue 0).elisions ∧
     (denseElem tensorD 0x7000).isSome = true ∧ AKind.load ≠ .fetch) := by decide +kernel

/-- A gang that stands on cluster 1, whose hart 4 has left: its key is given again. -/
theorem witness_HartsAreGiven :
    (freshS.savePending 5 0 = false) ∧ launchL.ended = false ∧
    (let l : Launch := { gangL with keys := [{ key := [0], nextPos := 1, holder := none }, { key := [1], nextPos := 1, holder := some 5 }], left := [4] }
     let s : State := { gangS with launches := [(5, l)], clusters := [(1, { Cluster.empty with resvs := [{ launch := 5, isB := false, base := 0, size := 65536 }] })] }
     s.gangStands 5 1 l = true) ∧ gangS.gangStands 5 1 gangL = false ∧ (∀ v ∈ gangS.clusterSaves, v.launch ≠ 5) ∧ gangL.keys = [] ∧ gangL.pair = none := by
  decide +kernel

/-! ## Requests, saves, the Weevil check, the host -/

theorem witness_SetupOfB :
    (let j : Job := { jobJ with inSetup := true, iter := none }
     let p : Pair := { splP with b := { spliceB 2 with setOff := 0x80 } }
     let s : State := { splS p with hart := { (splS p).hart with job := some j } }
     s.hart.job = some j ∧ s.launchOf s.hart = some { splL with pair := some p } ∧ j.inSetup = true ∧ j.inB = false ∧ p.b.setOff ≠ 0 ∧
       s.hart.requestPending = false) := by decide +kernel
/-- A hart past its deadline, armed to stop at element `k` of its next vector instruction. -/
def armedS (k : Nat) : State := { userS with time := 500, hart := { userS.hart with preq := 1, mie := 0x10000, stopAt := some k } }
theorem witness_ForcedAtElement :
    (∃ L, vintLane (armedS 2) (.vadd (anyV 1 2 (.vv 3))) = some L ∧ L.passes (armedS 2)) ∧ (armedS 2).forcedDue = true ∧
    (armedS 2).hart.vxi < 2 ∧ 2 < (armedS 2).hart.nel ∧ (armedS 4).forcedDue = true ∧ ¬ 4 < (armedS 4).hart.nel ∧
    (armedS 2).hart.status = .running ∧ userS.forcedDue = false :=
  ⟨⟨_, rfl, ⟨by decide +kernel, by decide +kernel, rfl, .inr (.inl rfl)⟩⟩, by decide +kernel, by decide +kernel, by decide +kernel,
    by decide +kernel, by decide +kernel, rfl, by decide +kernel⟩
theorem witness_GangSaveStarts :
    (let s : State := { gangS with contexts := [savedC false] }
     s.launches.get? 5 = some gangL ∧ gangL.a.isGang = true ∧ s.contextClusters 5 = [0] ∧ (∀ h ∈ s.harts, h.inLaunch 5 = true → h.status ≠ .running) ∧
       s.clusterBusy 5 0 = false ∧ ∀ v ∈ s.clusterSaves, v.launch = 5 → v.cluster ≠ 0) ∧
    (∀ v ∈ (parkedS false).clusterSaves, v.cluster ≠ (savedC false).cluster) ∧ (parkedS false).clusterSaveDue 5 0 = false ∧
    (savedC false).live.testBit 0 = false ∧ (savedC false).live.testBit 1 = false ∧ (savedC false).live.testBit 4 = false ∧
    (savedC false).live.testBit 5 = false ∧ launchL.ended = false ∧ (parkedS true).imageAt (savedC true) = none := by decide +kernel
/-- The full record of HBM controller of sector 100, of 512 other sectors. -/
theorem witness_Quarantine :
    (let s : State := { userS with poison := (List.range 512).map fun i => (100 + 128 * 64 * (i + 1), .hbm) }
     32 * 100 < s.physLimit ∧ s.poisonOf (32 * 100) ≠ some .hbm ∧ 512 ≤ s.poisonRecord (controllerOf 100)) := by decide +kernel
/-- A mismatch in element 0, which the lane of rotation 0 checks; persistent or not; the core's lane as given. -/
def upsetS (persistent ctrap : Bool) (lane : Word) (u : Upset) : State :=
  ({ userS with
    hart := { userS.hart with upsets := [{ u with persistent := persistent }] }
    launches := [(5, { launchL with a := { kern with flags := if ctrap then 0x3A else 0x32 } })] } : State).setLane 0 lane
def upset0 : Upset := { elem := 0, column := false, persistent := false }
theorem witness_WeevilCheckFollows :
    (∃ L, vintLane (upsetS false false 0 upset0) (.vadd (anyV 1 2 (.vv 3))) = some L ∧ L.passes (upsetS false false 0 upset0)) ∧
    (upsetS true true 0 upset0).hart.stopAt = none ∧ (upsetS true true 0 upset0).flag (upsetS true true 0 upset0).hart 3 = true ∧
    (upsetS true false 0 upset0).flag (upsetS true false 0 upset0).hart 3 = false ∧ meetsLane (upsetS true true 0 upset0) upset0 ∧
    bitAt ((upsetS true true 0 upset0).lane 0) 49 = false ∧ bitAt ((upsetS true true (1 <<< 49) upset0).lane 0) 49 = true ∧
    isOff ((upsetS true true (1 <<< 49) upset0).lane 1) = false ∧ ({ upset0 with elem := 9 }).elem ≥ userS.hart.nel ∧
    ({ upset0 with column := true }).column = true ∧ userS.hart.vl ≠ 0 ∧ (1 % userS.hart.vl) % 32 ≠ userS.hart.rotation.toNat :=
  ⟨⟨_, rfl, ⟨by decide +kernel, by decide +kernel, rfl, .inr (.inl rfl)⟩⟩, rfl, by decide +kernel, by decide +kernel,
    by unfold meetsLane; decide +kernel, by decide +kernel, by decide +kernel, by decide +kernel, by decide +kernel, rfl, by decide +kernel, by decide +kernel⟩
theorem witness_LastCoreLost :
    (let s := (((upsetS true true (1 <<< 49) upset0).setLane 1 (1 <<< 63)).setLane 2 (1 <<< 63)).setLane 3 (1 <<< 63)
     ∀ k, k < 4 → 4 * (s.hart.id / 4) + k ≠ s.hart.id → isOff (s.lane (4 * (s.hart.id / 4) + k)) = true) := by decide +kernel
theorem witness_QueueResumes :
    (let s (st : HeadState) : State := { commanded 10 [0, 1] with queues := [(0, { queueQ with state := st })] }
     (s (.stopped 0 none)).running 10 [0, 1] = true ∧ ((s (.stopped 0 none)).queue 0).state = .stopped 0 none ∧
       ((s (.stopped 7 none)).queue 0).state = .stopped 7 none ∧ ((s (.stopped 7 none)).queue 0).consumed = [] ∧
       ((s (.stopped 1 (some (0x6000, 0, 1)))).queue 0).state = .stopped 1 (some (0x6000, 0, 1)) ∧
       ok (completionAdd 0 0x6000) (s .waiting) (fun b _ => b) = true ∧ ok (completionAdd 0 0x8000000000) (s .waiting) (fun b _ => !b) = true) ∧
    (∀ d f, (userS.queue 0).state ≠ .stopped d f) ∧ (commanded 0 []).running 0 [] = true ∧ (commanded 11 []).running 11 [] = true :=
  ⟨by decide +kernel, (fun _ _ h => by cases h), by decide +kernel, by decide +kernel⟩
theorem witness_CommunicatorTables :
    commOf (tableS [0x5000, 1]) (0x5000 + 64 * 0) = (commOf (tableS [0x5000, 1]) 0x5000).toList[0]? ∧ (commOf (tableS [0x5000, 1]) 0x5000).isSome = true ∧
    commOf (tableS [0x5040, 1]) 0x5040 = none ∧ 0x5020 % 64 ≠ 0 := by decide +kernel
theorem witness_UpdateRestarts :
    ({ userS with time := 4001, firmware := { userS.firmware with update := .starting 0 } } : State).firmware.update = .starting 0 ∧
    4000 ≤ 4001 - 0 ∧ ({ userS with firmware := { userS.firmware with update := .restarting 0 } } : State).firmware.update = .restarting 0 ∧
    ({ userS with firmware := { userS.firmware with staged := true } } : State).firmware.staged = true ∧
    ({ userS with status := { userS.status with full := false } } : State).status.ready = true := by decide +kernel

/-! ## The Ordinal and the engine: a state for each clause -/

def firstS : State := ordS [] [regM]
theorem witness_Registrations :
    firstS.mayRegister (msgM 1) = true ∧ firstS.registered (msgM 1) = false ∧
    firstS.mayRegister { msgM 0 with timeout := 0 } = true ∧ (ordS [] []).mayRegister (msgM 0) = false ∧
    (ordS [entryE none []] []).registered { msgM 1 with resent := true } = true ∧ (ordS [entryE none []] []).mayRegister { msgM 1 with resent := true } = true ∧
    ((ordS [{ OrdEntry.fresh 0 0 with num := some 3, void := true, regs := [msgM 0] }] []).ordinal.openEntry (msgM 1)).num = some 3 ∧
    (msgM 0).pkg = firstS.domainId ∧ (ordS [] []).ordinalActive = true := by decide +kernel
theorem witness_RegistrationCompletes :
    (let o := (ordS [{ OrdEntry.fresh 0 0 with regs := [msgM 0] }] []).ordinal.joined (msgM 1)
     ((o.openEntry (msgM 1)).join o (msgM 1) none).complete = true ∧ o.mayNumber = true ∧ (o.openEntry (msgM 1)).num = none) := by decide +kernel
theorem witness_StartReports :
    (ordS [entryE (some 3) []] []).ordinal.byNum 3 = some (entryE (some 3) []) ∧ (entryE (some 3) []).mayStart 1 = true ∧
    ((ordS [] []).comm? 0).map (·.ownRank) ≠ some 1 ∧
    ((ordS [entryE (some 3) []] [{ startedR with accepted := false }]).regOf 3 0).map (·.isStarted) = some true ∧
    (entryE (some 3) [1]).startStands 1 = true ∧ (ordS [entryE (some 3) [1]] []).ordinal.awaits 0 0 (.start 3 1) = false ∧
    (1 : Nat) ≠ 0 ∧ userS.ordinal.role ≠ .primary ∧ (ordS [] []).ordinal.standby = none := by decide +kernel
theorem witness_Cancellations :
    (ordS [entryE none []] []).numbersHere 0 = true ∧
    (ordS [] [{ regM with cancelPending := true }]).nextCancel 0 0 = some 0 ∧
    (ordS [] [{ regM with cancelPending := true }]).cancelSent (entryO none []) = true ∧
    (ordS [entryE none []] []).ordinal.cancelAnswer ((ordS [entryE none []] []).ordinal.cancelEntry 0 0 1) = 0 ∧
    (entryE none []).starts = [] ∧ (entryE none [1]).starts ≠ [] ∧ (entryE none []).void = false := by decide +kernel
/-- A loose communicator of three: rank 2's engine met a fault, ranks 0 and 1 started. -/
def looseE : OrdEntry :=
  { OrdEntry.fresh 0 0 with
    num := some 3, starts := [0, 1, 2], gone := [2], timer := some 0
    regs := [{ msgM 0 with n := 3, strict := false }, { msgM 1 with n := 3, strict := false }, { msgM 2 with n := 3, strict := false }] }
theorem witness_Timeouts :
    (ordS [looseE] []).ordinal.byNum 3 = some looseE ∧ looseE.timedOut 0 = true ∧ looseE.rank0 = some { msgM 0 with n := 3, strict := false } ∧
    looseE.contributors = none ∧ looseE.present.length < 3 ∧ 2 ≤ looseE.present.length ∧ (ordS [entryE (some 3) [1]] []).ordinal.byNum 3 = some (entryE (some 3) [1]) ∧
    (entryE (some 3) [1]).timedOut 0 = true ∧ (entryE (some 3) [1]).rank0 = some (msgM 0) ∧ (msgM 0).strict = true ∧
    (ordS [looseE] []).regOf 3 0 = none ∧ (ordS [looseE] []).entryHere 3 0 = some looseE := by decide +kernel
theorem witness_Notices :
    (ordS [] [{ startedR with accepted := false }]).numbersHere 0 = true ∧ numberedS.stalled (numberedS.commSeq 0) = false ∧
    ({ numberedS with ordinal := { numberedS.ordinal with lost := true } } : State).stalled (numberedS.commSeq 0) = true ∧
    (match ({ startedR with accepted := false } : Registration).state with
      | .started n => n = 3
      | _ => False) := ⟨by decide +kernel, by decide +kernel, by decide +kernel, rfl⟩
/-- Ends: one by TIMEOUT of a started collective, without record and counter; a record at 0x6800, a counter at 0x4800. -/
def recD : BitVec 512 := BitVec.ofNat 512 (5 * 2 ^ 16)
theorem witness_CollectivesEnd :
    ({ begunS with regs := [{ startedR with verdict := some 3 }] } : State).mayEndStarted { startedR with verdict := some 3 } commM 3 = true ∧
    numberedS.mayEndUnstarted regM commM true false 2 = true ∧ numberedS.reached 0 none = true ∧
    ok (endColl startedR 3 1 0 0 [0, 1]) begunS (fun _ z => z.regs = []) = true ∧
    ok (endColl startedR 3 5 13 0x8000000000 []) begunS (fun _ z => z.regs = []) = true ∧ (collDesc startedR.desc).crec = 0 ∧ startedR.counter ≠ 0 ∧
    ok (enginePlace (begunS.collAccess startedR) true (BitVec.ofNat 64 startedR.counter) 8) begunS
      (fun ps v => ps.map (·.1) = (List.range 8).map (fun i => Loc.mem (0x4800 + i)) && !ps.any isRemote && v.poison = [] && Memory.wf v.mem) = true ∧
    ok (enginePlace (begunS.collAccess startedR) false 0x6800 24) begunS
      (fun ps v => ps.map (·.1) = (List.range 24).map (fun i => Loc.mem (0x6800 + i)) && !ps.any isRemote && Memory.wf v.mem) = true ∧
    begunS.lost.find? (·.writer = startedR.writer) = none ∧
    (let s : State := { begunS with lost := [.mk startedR.writer [] 0x40 0], time := 4000 }
     s.lost.find? (·.writer = startedR.writer) = some (.mk startedR.writer [] 0x40 0) ∧ 4 ≤ releaseCode startedR { collDesc recD with rscope := 4 } ∧
     startedR.since + 4000 ≤ s.time) := by decide +kernel
theorem witness_CollectiveDone :
    begunS.regOf 3 0 = some startedR ∧ begunS.comm? startedR.comm = some commM ∧ startedR.accepted = true ∧ startedR.verdict = none ∧
    peersOk commM (collDesc collD) [.mk 1 [] []] = true ∧ ([.mk 1 [] []] : List Contribution).all (begunS.arrived commM 3) = true ∧
    begunS.doneHere 3 0 [0, 1] = true ∧ (∀ k ∈ [0, 1], commM.ether? k = none) ∧
    ok (collRead (begunS.collAccess startedR) startedR.since (collDesc collD).src (ebOf (collDesc collD).type) (srcCount (collDesc collD) 2 0) 0) begunS
      (fun own u => own = [] && u = begunS) = true := by decide +kernel
theorem witness_CollectiveFaultsEnd :
    ({ regS with regs := [strayR] } : State).comm? strayR.comm = some commM ∧ strayR.isStarted = true ∧
    trapped (accessTrap strayR (regS.collAccess strayR) (.read 0x8000000000 1)) regS (fun f _ => f.cause = 13) = true ∧
    ok (accessTrap strayR (regS.collAccess strayR) (.read 0x6000 1)) regS (fun f _ => f.isNone) = true := by decide +kernel

/-! ## States for the widened clauses -/

theorem witness_StoreConditional :
    (let s (r : Option (Nat × Nat)) : State := withX 0x100 7 0 { bareS with hart := { bareS.hart with reservation := r } }
     (∃ k m, (s (some (0x100, 8))).hart.reservation = some (k, m) ∧ k ≤ ((s (some (0x100, 8))).hart.xr 5).toNat ∧
       ((s (some (0x100, 8))).hart.xr 5).toNat + amoBytes false ≤ k + m) ∧
     ¬ (∃ k m, (s (some (0x104, 4))).hart.reservation = some (k, m) ∧ k ≤ ((s (some (0x104, 4))).hart.xr 5).toNat ∧
       ((s (some (0x104, 4))).hart.xr 5).toNat + amoBytes false ≤ k + m)) :=
  ⟨⟨0x100, 8, rfl, by decide +kernel, by decide +kernel⟩, fun ⟨k, m, hr, h, _⟩ => by
    have e : (0x104, 4) = (k, m) := Option.some.inj hr
    cases e
    exact absurd h (by decide +kernel)⟩
theorem witness_ScalarFloatResults :
    (fpResult bareS.hart .rne (.farith .add .d 0 3 1 2)).isSome = true ∧ rmNamed bareS.hart 0 = some .rne ∧ rmNamed bareS.hart 5 = none ∧
    (fpOp (.farith .add .d 5 3 1 2)).isSome = true ∧ fpRm (.farith .add .d 5 3 1 2) = 5 := by decide +kernel
/-- Register v31 begins no group of two; INT8 is no floating-point type. -/
def groupedS : State := { vecS with hart := { vecHart with vtype := 0x1C0 ||| 0x1000 } }
theorem witness_VectorChecks :
    (checksOf vecS (.vfcmplt (anyV 1 2 (.vv 3)))).map (·.2.2.2) = some false ∧ (checksOf vecS (.vfredsum (anyU 1 2))).map (·.2.2.2) = some false ∧
    (checksOf vecS (.vfscl (anyV 1 2 (.vv 3)))).map (·.2.2.2) = some false ∧
    (checksOf { vecS with hart := { vecHart with vshp := 0x1FFFF } } (.vcompress (anyU 1 2) 1)).isSome = true ∧
    ¬ ({ vecHart with vshp := 0x1FFFF } : Hart).nel * ({ vecHart with vshp := 0x1FFFF } : Hart).eb ≤
      ({ vecHart with vshp := 0x1FFFF } : Hart).grp * vecS.capC { vecHart with vshp := 0x1FFFF } ∧
    (checksOf vecS (.vld (anyM (.rc 0)))).isSome = true ∧ (checksOf vecS (.vamoadd (anyM (.rc 0)))).isSome = true := by decide +kernel

/-- A launch of two keys that is no gang; hart 0 has run all of key 0. -/
def twoL : Launch := { launchL with a := { kern with levels := [1, 1], exts := [2, 4] }, keys := [{ key := [0, 0], nextPos := 1, holder := some 0 }] }
def twoS : State := { userS with launches := [(5, twoL)], hart := { userS.hart with job := some { jobJ with key := [0, 0] } } }
theorem witness_NextKey :
    twoS.hart.job = some { jobJ with key := [0, 0] } ∧ twoS.launchOf twoS.hart = some twoL ∧ twoL.pair = none ∧ twoS.hart.hookSave = none ∧
    twoS.hart.requestPending = false ∧ twoL.runFrom [0, 0] (twoL.keyState [0, 0]).nextPos = none ∧ twoL.a.isGang = false ∧
    twoS.hart.id ∉ twoL.left ∧ 7 < keyCount twoL.a ∧ keyFree twoL twoS.hart.die (unflatten (spatial twoL.a) 7) = true ∧ entryBanks twoL ≤ 63 := by
  decide +kernel

/-! ## Scheduling, completions, the front end -/

/-- A hart past its deadline before an instruction: BAR, which waits, or NEXT. -/
def boundaryS (i : Instr) (atOnce : Bool) : State :=
  { userS with
    time := 500, mem := Memory.write tables 0x2000 ((encode i).getD [])
    hart := { userS.hart with preq := 1, mie := 0x10000, atOnce := atOnce } }
theorem witness_RequestsAtBoundaries :
    (boundaryS (.bar 5) false).forcedDue = true ∧ (boundaryS (.bar 5) false).instrHere = some (.bar 5) ∧ isWaiting (.bar 5) = true ∧
    (boundaryS .next false).instrHere = some .next ∧ isWaiting .next = false ∧ (boundaryS .next true).hart.atOnce = true ∧
    (boundaryS .next false).hart.atOnce = false ∧ (boundaryS .next false).hart.status = .running ∧ (boundaryS .next false).hart.stopAt = none ∧
    (boundaryS .next false).hart.atStoppedClause = none ∧
    ok (fetchAt ((boundaryS (.bar 5) false).fetchAccess .u (boundaryS (.bar 5) false).hart) 0x2000) (boundaryS (.bar 5) false) (fun bs u =>
      !u.hart.clauseRuns && (match decode bs with
        | .ok (i, _) => i = .bar 5
        | .error _ => false)) = true := by decide +kernel
/-- A context with a grant of 32 rows: cluster 0's quarters are free, or all taken. -/
def grantC : Context := { savedC true with hart := { (savedC true).hart with grant := some { gridG with rows := 32, quarters := [0] } } }
theorem witness_GrantResumes :
    (let s (taken : List Nat) : State :=
      { parkedS true with contexts := [grantC], hart := { (parkedS true).hart with grant := some { gridG with quarters := taken } } }
     ok (imageHead grantC) (s []) (fun i u => (s []).restorable 5 launchL grantC i && (quartersFor (u.usedQuarters grantC.cluster) 32).isSome) = true ∧
     ok (imageHead grantC) (s [0, 1, 2, 3]) (fun i u => (s []).restorable 5 launchL grantC i &&
       (quartersFor (u.usedQuarters grantC.cluster) 32).isNone) = true ∧
     (s []).contexts.find? (·.id = 0) = some grantC ∧ (s []).hartFree 0 = true ∧ (s []).turnOf 0 0 = true) := by decide +kernel
theorem witness_Completions :
    (Scope.sys = .sys ∧ ∃ l ∈ ([.mk (.launch 5) [] 0x40 0] : List LostWrite), l.writer = .launch 5) ∧
    ¬ (Scope.sys = .sys ∧ ∃ l ∈ userS.lost, l.writer = .launch 5) ∧ (remS false none).linksUp = false :=
  ⟨⟨rfl, ⟨.launch 5, [], 0x40, 0⟩, List.mem_singleton.mpr rfl, rfl⟩, fun ⟨_, _, h, _⟩ => List.not_mem_nil h, rfl⟩
/-- Another package's page is out of the front end's reach while the ports are down. -/
theorem witness_FrontEndRemote (h : Config.keyLoadedAt 1 0 0 = true) :
    ∃ p u, (translate {} .load false false false ((remS false none).rootOf 0) 0x40000040 0x40000040).run (remS false none) = .ok p u ∧
      p.remote = true := by
  have hw : walk (remS false none) 1073741888 4 ((remS false none).rootOf 0) 0 = .leaf 0x80007F 0x11008 1 := by decide +kernel
  have hp : (remS false none).keyLoaded 1 0 = true := h
  have hs : sextN 48 1073741888 = 1073741888#64 := rfl
  have h2 : Nat.testBit 0x80007F 2 = true ∧ Nat.testBit 0x80007F 1 = true ∧ Nat.testBit 0x80007F 4 = true ∧
    Nat.testBit 0x80007F 9 = false ∧ pteMt 0x80007F = 0 ∧ ptePpn 0x80007F = 0 ∧ pteHome 0x80007F = 1 ∧ pteKey 0x80007F = 0 ∧
    pageSize 1 = 2 ^ 30 := by decide
  have hd : (remS false none).domainId = 0 := rfl
  have ht : (Machine.translate {} .load false false false ((remS false none).rootOf 0) 0x40000040#64 0x40000040#64).run (remS false none) =
      .ok { key := memKey 0 1 64, mt := 0, remote := true, home := 1, crypt := none } { remS false none with
        mem := Memory.write (remS false none).mem 0x11008 (toBytes 8 (0x80007F ||| 32 ||| 0)) } := by
    unfold Machine.translate
    simp_all [memKey, State.cryptKey]
  exact ⟨_, _, ht, rfl⟩
/-- Records 0 and 2 of a queue are a pair that runs; record 1 waits for it. -/
theorem witness_RecordBetween :
    (let l : Launch := { launchL with recIdx := 0, pair := some { pairP with dist := 2 } }
     let q : Queue := { queueQ with state := .waiting, head := 1, tail := 3, overlapped := [5] }
     q.state = .waiting ∧ 5 ∈ q.overlapped ∧ idxAtLeast l.recIdx q.head.toNat = false ∧ (mayOverlap l = false ∨ idxDist q.head.toNat l.recIdx < l.dist)) := by
  decide +kernel

/-! ## The check column, retention and records: a state for each clause -/

/-- A mismatch at the command's first k-block, persistent or not, with the header's LCTRAP set or not, in a handler or in U-mode; the core's
lane as given. -/
def columnS (mode : Mode) (persistent ctrap : Bool) (lane : Word) : State :=
  ({ armS 0 with
    hart := { (armS 0).hart with mode := mode, upsets := [{ elem := 0, column := true, persistent := persistent }] }
    launches := [(5, { launchL with a := { kern with flags := if ctrap then 0x3A else 0x32 } })] } : State).setLane 0 lane
theorem column_runs (mode : Mode) (p c : Bool) (lane : Word) :
    arrayRuns (columnS mode p c lane) gridG [0] (fun n => product gridG .i8 n (gridG.operand (.mt 1)) (gridG.tile 2)) (.mma 0 (.mt 1) 2) :=
  ⟨.i8, by decide +kernel, by decide +kernel, by decide +kernel, by decide +kernel, by cases p <;> cases c <;> rfl, by decide +kernel,
    by decide +kernel, by decide +kernel, rfl, rfl⟩
theorem witness_CheckColumnFollows :
    (let s := columnS .m false false 0
     s.cmOk s.hart = true ∧ s.hart.grant = some gridG ∧ s.hart.upsets = [{ elem := 0, column := true, persistent := false }] ∧
     hasRemap (s.lane s.hart.id) = false) ∧
    (let s := columnS .m true false 0
     s.cmOk s.hart = true ∧ s.flag s.hart 3 = false ∧ hasRemap (s.lane s.hart.id) = false) ∧
    (let s := columnS .m true true 0
     s.cmOk s.hart = true ∧ s.flag s.hart 3 = true ∧ hasRemap (s.lane s.hart.id) = false) ∧
    (let s := columnS .u true false (1 <<< 49)
     s.cmOk s.hart = true ∧ s.hart.grant = some gridG ∧ s.hart.mode = .u ∧ hasRemap (s.lane s.hart.id) = true ∧ s.anyInService s.hart = true) := by
  decide +kernel

/-- The record of HBM controller of sector 100 is full; the page tables map its frame, still after the quarantine. -/
def fullS : State := { userS with poison := (List.range 512).map fun i => (100 + 128 * 64 * (i + 1), .hbm) }
set_option maxRecDepth 100000 in
theorem witness_QuarantineMarksLeaves :
    (0, queueQ) ∈ fullS.queues ∧ field512 queueQ.installed 8 0 40 % 8 = 0 ∧ fullS.usesRoot 0 queueQ = true ∧
    512 ≤ fullS.poisonRecord (controllerOf 100) ∧
    ok (quarantine (100 / 128)) userS (fun _ t =>
      walk t 0x2008 4 (field512 queueQ.installed 8 0 40) 0 = .leaf 0x27F 0x11000 1) = true ∧
    pteHome 0x27F = fullS.domainId ∧ ptePpn 0x27F % 2 ^ 28 ≤ 100 / 128 ∧ 100 / 128 < ptePpn 0x27F % 2 ^ 28 + pageSize 1 / 4096 := by
  decide +kernel
theorem full_ok : fullS.memOk := rfl
theorem witness_ClusterRenewal :
    (let s : State := { vecS with clusters := [(0, { Cluster.empty with renewQ := [{ blocks := [0], since := 0 }] })] }
     (s.cluster 0).renewQ = { blocks := [0], since := 0 } :: [] ∧ Tab.sorted (s.cluster 0).spad = true) := by decide +kernel
/-- Two mismatches in one instruction, the second above the first. -/
theorem witness_SecondMismatch :
    (let s : State := { upsetS false false 0 upset0 with hart := { (upsetS false false 0 upset0).hart with upsets := [upset0, { upset0 with elem := 2 }] } }
     s.hart.upsets = upset0 :: [{ upset0 with elem := 2 }] ∧ s.hart.stopAt = none ∧ bitAt (s.lane s.hart.id) 49 = false ∧
     (∀ w ∈ ([{ upset0 with elem := 2 }] : List Upset).head?, upset0.elem < w.elem) ∧ s.hart.vxi ≤ upset0.elem ∧ upset0.elem < s.hart.nel) := by
  decide +kernel
/-- NEXT with a request pending. -/
theorem witness_NextWithARequest :
    (let s : State := { givenS 1 with hart := { (givenS 1).hart with preq := 1, mie := 0x10000 } }
     s.hart.requestPending = true ∧ s.launchOf s.hart = some (givenL 1) ∧ (givenL 1).pair = none ∧ s.hart.hookSave = none) := by decide +kernel

/-- A record is taken as its slot holds it, or its index is unreadable; the doorbell announces what fits. -/
theorem witness_RecordsAreTaken :
    ok (qRead 0 (((lowS headCells).queue 0).recordAt 0) 64) (lowS headCells) (fun bs _ => bs.length = 64) = true ∧
    trapped (qRead 0 (((lowS []).queue 0).recordAt 0) 64) (lowS []) (fun _ _ => true) = true ∧
    (let qu := (lowS headCells).queue 0
     qu.cen = true ∧ ((qu.tail + 1) - qu.head).toNat ≤ 2 ^ qu.clog2n ∧ ((qu.tail + 1) - qu.tail).toNat ≤ 2 ^ qu.clog2n) ∧
    ((after (.doorbellWrite 0 (((lowS headCells).queue 0).tail + 1)) (lowS headCells)).queue 0).taken ≠ [] := by decide +kernel
/-- The front end has waited 4,000 ticks, or not yet; an address of a window. -/
theorem witness_FrontEndWaits :
    (∃ t, ({ queueQ with asked := some 0 } : Queue).asked = some t ∧ t + 4000 ≤ 4000) ∧ queueQ.asked = none ∧
    inWindow (0x7E0000000000#64).toNat = true ∧ inWindow (0x40000040#64).toNat = false :=
  ⟨⟨0, rfl, by decide⟩, rfl, by decide, by decide⟩
end Sys2Proof.Tests
end

section
/-!
SUPPORT. The host's side of the package: the rules for a write at physical addresses (what it clears and which reservations it breaks),
for the bytes that BAR0 takes, and the accesses of BAR0 and BAR2 assembled from them (R4, R285, R287, R288, R291).
-/

namespace Sys2Proof.Machine

open Sys2Proof.Claims

/-! ## What a write of memory does besides storing its bytes -/

/-- Does a function of a hart change its load reservation at most? -/
def reservationOnly (f : Hart → Hart) : Prop := ∀ h, f h = { h with reservation := (f h).reservation }

/-- A store breaks the reservations that it meets and changes nothing else (R173). -/
theorem breakReservations_mapHarts (keys : List Nat) (s : State) :
    ∃ f, reservationOnly f ∧ (breakReservations keys).run s = .ok () (s.mapHarts f) := by
  by_cases hk : keys = []
  · exact ⟨id, fun _ => rfl, by simp [breakReservations, hk, State.mapHarts]⟩
  · refine ⟨_, fun h => ?_, by simp only [breakReservations, Op.run_modify, hk, if_false]; rfl⟩
    split
    · split <;> rfl
    · rfl

/-- A change of the reservations of all harts is one of the reservation of each, a hart that nothing has touched included. -/
theorem hartOf_mapHarts {f : Hart → Hart} (hf : reservationOnly f) (s : State) (id : Nat) :
    (s.mapHarts f).hartOf id = { s.hartOf id with reservation := ((s.mapHarts f).hartOf id).reservation } := by
  have hid (h : Hart) : (f h).id = h.id := by rw [hf h]
  by_cases hs : s.hart.id = id
  · simpa [State.hartOf, State.mapHarts, hid, hs] using hf s.hart
  · cases ho : s.others.find? (·.id = id) with
    | none => simp [State.hartOf, State.mapHarts, hid, hs, List.find?_map, ho]
    | some g => simpa [State.hartOf, State.mapHarts, hid, hs, List.find?_map, Function.comp_def, ho] using hf g

/-- Clearing the poison of bytes of memory changes the record of poison only. -/
theorem clearPoison_mem {ls : List Loc} (hl : ∀ l ∈ ls, ∃ k, l = .mem k) (s : State) :
    ∃ p, (clearPoison ls).run s = .ok () { s with poison := p } := by
  simp only [clearPoison, Op.run_modify, EStateM.Result.ok.injEq, true_and]
  refine List.foldlRecOn (motive := fun (u : State) => ∃ p, u = { s with poison := p }) ls _ ⟨s.poison, rfl⟩ ?_
  rintro u ⟨p, rfl⟩ l hm
  obtain ⟨k, rfl⟩ := hl l hm
  split
  · exact ⟨p, rfl⟩
  · split
    · exact ⟨_, rfl⟩
    · exact ⟨p, rfl⟩

/-! ## BAR2 (R285), in the view of no key and past poison (DESIGN CHOICE log 28, log 34) -/

/-- The host's write within memory stores its bytes, clears poison and breaks reservations; nothing else changes. -/
theorem hostWrite_run {a : Nat} {bs : List Byte} {s : State} (hl : a + bs.length ≤ s.physLimit) :
    ∃ p f, reservationOnly f ∧
      (hostWrite a bs).run s = .ok () (({ s with mem := Memory.write s.mem a bs, poison := p } : State).mapHarts f) := by
  have htake : bs.take (s.physLimit - a) = bs := List.take_of_length_le (by omega)
  obtain ⟨p, hp⟩ := clearPoison_mem (ls := (List.range bs.length).map fun i => Loc.mem (a + i))
    (List.forall_mem_map.mpr fun _ _ => ⟨_, rfl⟩) { s with mem := Memory.write s.mem a bs }
  obtain ⟨f, hf, hb⟩ := breakReservations_mapHarts (((List.range bs.length).map fun i => Loc.mem (a + i)).map Loc.resKey)
    { s with mem := Memory.write s.mem a bs, poison := p }
  refine ⟨p, f, hf, ?_⟩
  simp only [hostWrite, Op.run_bind, Op.run_get, Op.run_modify, htake, hp, hb]

/-- Bytes stored in the view of no key, with poison and reservations changed at most, are what `wroteAt` says. -/
theorem wroteAt_none_of_write {s : State} (hm : s.memOk) (a : Nat) (bs : List Byte) (p : List (Nat × PoisonSite)) {f : Hart → Hart}
    (hf : reservationOnly f) :
    wroteAt s (({ s with mem := Memory.write s.mem a bs, poison := p } : State).mapHarts f) none a bs := by
  refine ⟨Memory.wf_write hm a bs, ?_, fun b hb => Memory.get_write_out hm a bs b hb, fun b hb => ?_, hartOf_mapHarts hf _, rfl, rfl⟩
  · exact (readUnder_none _ a _).trans (Memory.read_write_self hm a bs)
  · refine Memory.get_write_out hm a bs b ?_
    unfold sectorOf at hb
    omega

theorem exec_bar2_write {off : Nat} {bs : List Byte} {s : State} (hm : s.memOk) (ha : off + bs.length ≤ 2 ^ 36)
    (hl : s.bar2 + off + bs.length ≤ s.physLimit) :
    ∃ t, exec (.hostBar2Access (.write off bs)) s = .next t ∧ wroteAt s t none (s.bar2 + off) bs := by
  obtain ⟨p, f, hf, hw⟩ := hostWrite_run hl
  refine ⟨_, event_ok ?_, wroteAt_none_of_write hm (s.bar2 + off) bs p hf⟩
  simp only [bar2Op, Op.run_bind, Op.run_get, inAperture, ha, decide_true, Op.run_onlyIf_true]
  exact hw

theorem hostRead_length (k : Nat) (s : State) (a n : Nat) : (hostRead k s a n).length = n := by simp [hostRead]

/-- A byte that the host reads is memory's, where its address exists. -/
theorem hostRead_getElem? {k a n i : Nat} {s : State} (hi : i < n) (hl : a + i < s.physLimit) :
    (hostRead k s a n)[i]? = some (Memory.get s.mem (a + i)) := by
  simp [hostRead, hi, hl]

theorem exec_bar2_read {off len : Nat} (s : State) (ha : off + len ≤ 2 ^ 36) :
    exec (.hostBar2Access (.read off len)) s =
      .next { s with hostData := hostRead s.freeCtr s (s.bar2 + off) len, freeCtr := s.freeCtr + 1 } :=
  event_ok (by simp only [bar2Op, Op.run_bind, Op.run_get, inAperture, ha, decide_true, Op.run_onlyIf_true, Op.run_draw, Op.run_modify])

/-! ## Bytes of a register -/

theorem getLsbD_patchByte {w : Nat} (v : BitVec w) (i : Nat) (b : Byte) {j : Nat} (hj : j < w) :
    (patchByte v i b).getLsbD j = if 8 * i ≤ j ∧ j < 8 * i + 8 then b.getLsbD (j - 8 * i) else v.getLsbD j := by
  have h255 : (BitVec.ofNat w 255).getLsbD (j - 8 * i) = decide (j - 8 * i < 8) := by
    rw [BitVec.getLsbD_ofNat, show (255 : Nat) = 2 ^ 8 - 1 from rfl, Nat.testBit_two_pow_sub_one]
    simp [show j - 8 * i < w by omega]
  have hw : j - 8 * i < w := by omega
  simp only [patchByte, BitVec.getLsbD_or, BitVec.getLsbD_and, BitVec.getLsbD_not, BitVec.getLsbD_shiftLeft, BitVec.getLsbD_setWidth,
    h255, hj, hw, decide_true, Bool.true_and]
  by_cases h1 : j < 8 * i
  · simp [h1, Nat.not_le.mpr h1]
  · by_cases h2 : j < 8 * i + 8
    · simp [h1, h2, Nat.not_lt.mp h1, show j - 8 * i < 8 by omega]
    · simp [h1, h2, show ¬ j - 8 * i < 8 by omega, BitVec.getLsbD_of_ge b (j - 8 * i) (by omega)]

/-- The bytes of a number, replaced one by one from byte `i` up. -/
def patchBytes {w : Nat} (v : BitVec w) (i : Nat) : List Byte → BitVec w
  | [] => v
  | b :: bs => patchBytes (patchByte v i b) (i + 1) bs

theorem getLsbD_patchBytes {w : Nat} (bs : List Byte) : ∀ (v : BitVec w) (i : Nat) {j : Nat}, j < w →
    (patchBytes v i bs).getLsbD j =
      if 8 * i ≤ j ∧ j < 8 * (i + bs.length) then (bs.getD (j / 8 - i) 0).getLsbD (j % 8) else v.getLsbD j := by
  induction bs with
  | nil =>
    intro v i j _
    rw [patchBytes, if_neg (by simp only [List.length_nil]; omega)]
  | cons b bs ih =>
    intro v i j hj
    rw [patchBytes, ih _ (i + 1) hj, getLsbD_patchByte v i b hj, List.length_cons]
    by_cases here : 8 * i ≤ j ∧ j < 8 * i + 8
    · rw [if_neg (by omega), if_pos here, if_pos (by omega), show j / 8 - i = 0 by omega, show j % 8 = j - 8 * i by omega]
      rfl
    · rw [if_neg here]
      by_cases later : 8 * (i + 1) ≤ j ∧ j < 8 * (i + 1 + bs.length)
      · rw [if_pos later, if_pos (by omega), show j / 8 - i = (j / 8 - (i + 1)) + 1 by omega]
        rfl
      · rw [if_neg later, if_neg (by omega)]

/-- A word whose eight bytes are all written holds what was written, here 1. -/
theorem patchBytes_one (v : Word) : patchBytes v 0 (toBytes 8 1) = 1 := by
  have hbits : ∀ j, j < 64 → ((toBytes 8 1).getD (j / 8 - 0) 0).getLsbD (j % 8) = (1 : Word).getLsbD j := by decide
  refine BitVec.eq_of_getLsbD_eq fun j hj => ?_
  rw [getLsbD_patchBytes _ v 0 hj, if_pos (by simp only [toBytes_length]; omega)]
  exact hbits j hj

/-! ## BAR0 (Table 18-1) -/

/-- A byte of a queue's entry takes the bits that the host may write (Table 18-3). -/
theorem bar0Byte_entry {q i : Nat} (hq : q < 64) (hi : i < 64) (b : Byte) (s : State) :
    bar0Byte (0x2000 + 64 * q + i) b s =
      s.setQueue q { s.queue q with written := patchByte (s.queue q).written i b &&& entryMask } := by
  have hsub : 0x2000 + 64 * q + i - 0x2000 = 64 * q + i := by omega
  have hdiv : (64 * q + i) / 64 = q := by omega
  have hmod : (64 * q + i) % 64 = i := by omega
  rw [bar0Byte, if_pos (by omega), hsub, hdiv, hmod]

theorem bar0Byte_buffer {off : Nat} (h1 : 0x10000 ≤ off) (h2 : off < 0x10040) (b : Byte) (s : State) :
    bar0Byte off b s = { s with mailbox := { s.mailbox with buffer := s.mailbox.buffer.set (off - 0x10000) b } } := by
  rw [bar0Byte, if_neg (by omega), if_pos ⟨h1, h2⟩]

theorem bar0Byte_go {i : Nat} (hi : i < 8) (b : Byte) (s : State) :
    bar0Byte (0x10040 + i) b s = { s with mailbox := { s.mailbox with go := patchByte s.mailbox.go i b } } := by
  rw [bar0Byte, if_neg (by omega), if_neg (by omega), if_pos (by omega), Nat.add_sub_cancel_left]

theorem bar0Byte_ignored {off : Nat} (h : off < 0x2000 ∨ 0x3000 ≤ off ∧ off < 0x10000 ∨ 0x10048 ≤ off) (b : Byte) (s : State) :
    bar0Byte off b s = s := by
  rw [bar0Byte, if_neg (by omega), if_neg (by omega), if_neg (by omega)]

theorem bar0Bytes_ignored (bs : List Byte) (s : State) : ∀ off,
    (off + bs.length ≤ 0x2000 ∨ 0x3000 ≤ off ∧ off + bs.length ≤ 0x10000 ∨ 0x10048 ≤ off) → bar0Bytes off bs s = s := by
  induction bs with
  | nil => exact fun _ _ => rfl
  | cons b bs ih =>
    intro off h
    rw [List.length_cons] at h
    rw [bar0Bytes, bar0Byte_ignored (by omega), ih (off + 1) (by omega)]

theorem bar0Bytes_go (bs : List Byte) : ∀ (i : Nat) (s : State), i + bs.length ≤ 8 →
    bar0Bytes (0x10040 + i) bs s = { s with mailbox := { s.mailbox with go := patchBytes s.mailbox.go i bs } } := by
  induction bs with
  | nil => exact fun _ _ _ => rfl
  | cons b bs ih =>
    intro i s h
    rw [List.length_cons] at h
    rw [bar0Bytes, bar0Byte_go (by omega), Nat.add_assoc, ih (i + 1) _ (by omega)]
    rfl

/-- A list's elements replaced one by one from element `i` up. -/
def setFrom (l : List Byte) (i : Nat) : List Byte → List Byte
  | [] => l
  | b :: bs => setFrom (l.set i b) (i + 1) bs

theorem getD_setFrom (bs : List Byte) : ∀ (l : List Byte) (k : Nat) {i : Nat}, i < l.length →
    (setFrom l k bs).getD i 0 = if k ≤ i ∧ i < k + bs.length then bs.getD (i - k) 0 else l.getD i 0 := by
  induction bs with
  | nil =>
    intro l k i _
    rw [setFrom, if_neg (by simp only [List.length_nil]; omega)]
  | cons b bs ih =>
    intro l k i hi
    rw [setFrom, ih _ (k + 1) (by simpa using hi), List.length_cons]
    by_cases here : i = k
    · subst here
      rw [if_neg (by omega), if_pos (by omega), Nat.sub_self]
      simp [hi]
    · by_cases later : k + 1 ≤ i ∧ i < k + 1 + bs.length
      · rw [if_pos later, if_pos (by omega), show i - k = (i - (k + 1)) + 1 by omega]
        rfl
      · rw [if_neg later, if_neg (by omega)]
        simp [List.getElem?_set_ne (Ne.symm here)]

theorem bar0Bytes_buffer (bs : List Byte) : ∀ (off : Nat) (s : State), 0x10000 ≤ off → off + bs.length ≤ 0x10040 →
    bar0Bytes off bs s = { s with mailbox := { s.mailbox with buffer := setFrom s.mailbox.buffer (off - 0x10000) bs } } := by
  induction bs with
  | nil => exact fun _ _ _ _ => rfl
  | cons b bs ih =>
    intro off s h1 h2
    rw [List.length_cons] at h2
    rw [bar0Bytes, bar0Byte_buffer h1 (by omega), ih (off + 1) _ (by omega) (by omega), Nat.sub_add_comm h1]
    rfl

/-- A write outside the doorbells gives its bytes, and issues the command where it reaches the go word and leaves 1 there. -/
theorem exec_bar0 {off : Nat} (bs : List Byte) (s : State) (hd : ¬ (0x1000 ≤ off ∧ off < 0x1200)) :
    exec (.registerWrite (.bar0 off bs)) s = .next (if off ≤ 0x10040 ∧ 0x10040 < off + bs.length ∧ (bar0Bytes off bs s).mailbox.go = 1
      then issueCommand (bar0Bytes off bs s) else bar0Bytes off bs s) := by
  refine event_ok ?_
  simp only [bar0Write, if_neg hd, Op.run_bind, Op.run_modify, Op.run_get, Op.run_ite, Op.run_pure]
  split <;> rfl

theorem exec_bar0_not_go {off : Nat} {bs : List Byte} (s : State) (hd : ¬ (0x1000 ≤ off ∧ off < 0x1200))
    (hg : ¬ (off ≤ 0x10040 ∧ 0x10040 < off + bs.length)) :
    exec (.registerWrite (.bar0 off bs)) s = .next (bar0Bytes off bs s) := by
  rw [exec_bar0 bs s hd, if_neg fun h => hg ⟨h.1, h.2.1⟩]

theorem exec_bar0_bad_doorbell {off : Nat} {bs : List Byte} (s : State) (h1 : 0x1000 ≤ off) (h2 : off < 0x1200)
    (h : off % 8 ≠ 0 ∨ bs.length ≠ 4) : exec (.registerWrite (.bar0 off bs)) s = .next (countDoorbad s) := by
  refine event_ok ?_
  rw [bar0Write, if_pos ⟨h1, h2⟩, if_neg (by omega)]
  rfl

/-- A write of 1 to the go word asks for the command in the buffer. -/
theorem exec_bar0_go_one (s : State) :
    exec (.registerWrite (.bar0 0x10040 (toBytes 8 1))) s = .next (issueCommand { s with mailbox := { s.mailbox with go := 1 } }) := by
  have hgo := bar0Bytes_go (toBytes 8 1) 0 s (by simp)
  rw [patchBytes_one, Nat.add_zero] at hgo
  rw [exec_bar0 _ s (by omega), hgo, if_pos ⟨by omega, by simp, rfl⟩]

/-- Once READY, the mailbox takes a command when none runs, and answers busy otherwise (R291). -/
theorem issueCommand_idle {s : State} (hr : s.status.ready = true) (hc : s.mailbox.command = none) :
    issueCommand s = { s with mailbox := { s.mailbox with command := some s.mailbox.buffer } } := by
  simp [issueCommand, hr, hc]
theorem issueCommand_busy {s : State} {c : List Byte} (hr : s.status.ready = true) (hc : s.mailbox.command = some c) :
    issueCommand s = mailboxStatus 1 s := by
  simp [issueCommand, hr, hc]

end Sys2Proof.Machine

open Sys2Proof Sys2Proof.Machine Sys2Proof.Claims

/-- Settles O54: each kind of access by its rule above; only a write that covers the go word's first byte can issue a command. -/
theorem hostAccessesComplete : Obligations.HostAccessesComplete := by
  unfold Obligations.HostAccessesComplete
  refine ⟨?bar2Read, fun _ _ _ => exec_bar2_write, ?entry, ?buffer, ?go, ?doorbell, ?other⟩
  case bar2Read =>
    intro off len s ha
    exact ⟨_, exec_bar2_read s ha, rfl, hostRead_length .., fun _ => hostRead_getElem?⟩
  case entry =>
    intro q i b s hq hi
    refine ⟨patchByte (s.queue q).written i b &&& entryMask, ?_, fun j hj => ?_⟩
    · rw [exec_bar0_not_go s (by omega) (by simp only [List.length_singleton]; omega), ← bar0Byte_entry hq hi]
      rfl
    · rw [BitVec.getLsbD_and, getLsbD_patchByte _ i b hj, Bool.and_comm]
  case buffer =>
    intro off bs s hlen h1 h2
    have hset := exec_bar0_not_go (bs := bs) s (by omega : ¬ (0x1000 ≤ off ∧ off < 0x1200)) (by omega)
    rw [bar0Bytes_buffer bs off s h1 h2] at hset
    refine ⟨_, hset, rfl, fun i hi => ?_⟩
    rw [getD_setFrom bs _ _ (by omega), show i - (off - 0x10000) = 0x10000 + i - off by omega]
    exact if_congr (by omega) rfl rfl
  case go =>
    intro s hr
    exact ⟨fun hc => (exec_bar0_go_one s).trans (congrArg _ (issueCommand_idle hr hc)),
      fun c hc => (exec_bar0_go_one s).trans (congrArg _ (issueCommand_busy hr hc))⟩
  case doorbell => exact fun _ _ s h1 h2 h => exec_bar0_bad_doorbell s h1 h2 h
  case other =>
    intro off bs s h
    rw [exec_bar0_not_go s (by omega) (by omega), bar0Bytes_ignored bs s off (by omega)]

end

section
/-!
SUPPORT. No step stops but one of a halted package: every instruction and event answers a next state, and so does every way that a step
can take (R19, R294).
-/

namespace Sys2Proof.Machine

/-! ## An instruction or event -/

theorem dispatch_next (x : Op Unit) (s : State) : ∃ t, dispatch x s = .next t := finish_next _ s
theorem frontEvent_next (q : Nat) (x : Op Unit) (s : State) : ∃ t, frontEvent q x s = .next t := by
  unfold frontEvent; split <;> exact ⟨_, rfl⟩
theorem ecallRow_next (fn : Nat → Bool) (s : State) : ∃ t, ecallRow fn s = .next t := by
  unfold ecallRow; split <;> exact ⟨_, rfl⟩

/-- A choice between two outcomes goes on where both do. -/
theorem ite_next {c : Prop} [Decidable c] {x y : Outcome} (hx : ∃ t, x = .next t) (hy : ∃ t, y = .next t) :
    ∃ t, (if c then x else y) = .next t := by
  split
  · exact hx
  · exact hy

theorem execYield_next (s : State) : ∃ t, execYield s = .next t := by
  refine ite_next ⟨_, rfl⟩ ?_
  split <;> exact ⟨_, rfl⟩

theorem execNext_next (s : State) : ∃ t, execNext s = .next t := by
  refine ite_next ⟨_, rfl⟩ ?_
  split <;> exact ⟨_, rfl⟩

theorem execRegisterWrite_next (r : RegTarget) (s : State) : ∃ t, execRegisterWrite r s = .next t := by
  cases r with
  | csr => exact finish_next _ s
  | bar0 => exact event_next _ s

/-- Every instruction and every event of the environment answers a next state: none faults, and none is left without a meaning. -/
theorem exec_next (i : Instr) (s : State) : ∃ t, exec i s = .next t := by
  unfold exec
  cases i with
  -- the scalar core, predicate branches, commands to the engines, CSRs
  | vsett | iter | clput | clause | spalloc | spfree | spage | pin | unpin | cadd | rcommit | rretire | attach | detach | mld |
    mldx | mlsc | mma | mrpt | msld | mst | mzero | bdset | chnrun | chnstep | cstat | launch | tdld | bany | ball | bnone | bnall |
    rv | mret | vtypeWrite | mfcWrite | vxiWrite | poolBoundaryWrite | vvalidWrite | bdCsrWrite => exact finish_next _ s
  -- the waiting instructions of R391
  | clwait | fenceSv | fenceVs | fenceVv | fenceAll | bar | renew | stream | streamu | cwait | rclaim | rawait | coll | splbar =>
    exact finishWaiting_next _ s
  -- PRED and the vector instructions
  | pand | por | pxor | pandn | pnot | pmov | psetn | pwhile | ppopc | pfirst | psum | vadd | vsub | vmul | vmulh | vmin | vmax |
    vminu | vmaxu | vand | vor | vxor | vsll | vsrl | vsra | vsadd | vbfx | vpopc | vclz | vfshl | vfshr | vfadd | vfsub | vfmul |
    vfdiv | vfma | vfms | vfnma | vfmin | vfmax | vfsgnj | vfscale | vfscl | vfsqrt | vfexp2 | vfabs | vfneg | vfrnd | vcmpeq |
    vcmpne | vcmplt | vcmple | vcmpltu | vcmpleu | vfcmplt | vfcmple | vcompress | vslideup | vslidedn | vgather | vredsum |
    vredmax | vredmin | vfredsum | vfredmax | vcvt | vmv | viota | vid | vtrans | vld | vst | vldc | vlsc | vssc | vamoadd |
    vamomax | vamomin => exact dispatch_next _ s
  -- those that a hook or a pending request changes
  | vshape => exact ite_next ⟨_, rfl⟩ (finish_next _ s)
  | ccancel => exact ite_next ⟨_, rfl⟩ (ite_next ⟨_, rfl⟩ (finish_next _ s))
  | next => exact execNext_next s
  | endK => exact ite_next ⟨_, rfl⟩ (event_next _ s)
  | yield => exact execYield_next s
  -- the ECALL functions and the end of a launch by the runtime
  | hookset | hookret | ecallUnknown => exact ecallRow_next _ s
  | abort => exact ite_next ⟨_, rfl⟩ (ecallRow_next _ s)
  | registerWrite r => exact execRegisterWrite_next r s
  -- events of the environment
  | doorbellWrite | hostBar2Access | qconfig | shootdown | elideclr | commset | powerlimit | domainid | aperture | fwstage |
    fwswitch | mailboxUnknownCode | fwHeartbeat | fwHeartbeatTimeout | spdmGetVersion | spdmGetCapabilities |
    spdmNegotiateAlgorithms | spdmGetDigests | spdmGetCertificate | spdmChallenge | spdmGetMeasurements | spdmKeyExchange |
    spdmFinish | spdmEndSession | keyLoad | keyClear | bootComplete | hbmTrainingComplete | thermalThrottle | thermalTrip |
    powerLimitEnforce | clockStretch | hartAssign | gangDispatch | coreReservationRelease | queueAgeing | quantumExpiry |
    preemptionRequest | preemptDeadline | gangSaveStart | contextSaveComplete | sweeperVisit | renewalPerform |
    ringBlockRenewal | sectorPoisonDetect | scarabCommandBegin | scarabPrefixAdvance | scarabFault | scarabCommandComplete |
    ordinalRegistration | ordinalDeferredNumber | ordinalStartReport | ordinalCancellation | collectiveNotice |
    collectiveBegin | collectiveEnd | collectiveEngineFault | collectiveTimeout | ccancelAnswerTimeout | ordinalElection |
    ordinalHeartbeat | ordinalStandbyAckTimeout | ordinalFailover | ethernetRecordReceive | sessionRekey | remoteAccessAtHome |
    remoteReadTimeout | remoteWriteUndeliverable | supplyRecovery | domainFault | ordinalReplication | sessionKeyExchange |
    ethernetRetransmission => exact event_next _ s
  | qresume | recordReachesHead | recordDispatchStart | launchComplete | pairComplete | contextResume =>
    exact frontEvent_next _ _ s
  | deviceReset | l1DirtyWriteback | extensionBankRenewal | l2LineRetention => exact ⟨_, rfl⟩

/-! ## A step -/

theorem runPass_next (cont : Word) (s : State) : ∃ t, runPass cont s = .next t := by
  unfold runPass; split <;> exact ⟨_, rfl⟩

theorem perform_next (i : Instr) (s : State) : ∃ t, perform i s = .next t :=
  ite_next (ite_next ⟨_, rfl⟩ (runPass_next _ s)) (exec_next i s)

theorem takeForced_next (i : Instr) (s t : State) : ∃ u, takeForced i s t = .next u := by
  obtain ⟨u, hu⟩ := perform_next i t
  refine ite_next ?_ ⟨_, rfl⟩
  rw [hu]
  exact ite_next ⟨_, rfl⟩ ⟨_, rfl⟩

theorem runInstr_next (s : State) : ∃ t, runInstr s = .next t := by
  unfold runInstr
  split
  · exact ⟨_, rfl⟩
  · exact ⟨_, rfl⟩
  · exact ⟨_, rfl⟩
  · dsimp only
    split
    · exact ⟨_, rfl⟩
    · exact ite_next (takeForced_next _ s _) (perform_next _ _)

theorem runHart_next (s : State) : ∃ t, runHart s = .next t := by
  unfold runHart
  split
  · exact ite_next ⟨_, rfl⟩ (runPass_next _ s)
  · exact runInstr_next s

theorem bring_next (a : Agenda) (s : State) : ∃ t, bring a s = .next t := by
  cases a with
  | event i => exact ite_next (exec_next i s) ⟨_, rfl⟩
  | clausePasses n =>
    refine ite_next ?_ ⟨_, rfl⟩
    split <;> exact ⟨_, rfl⟩
  | elapse | select | upset => exact ⟨_, rfl⟩

/-- With something left for the environment to do, it does that, whether or not the device has stopped. -/
theorem step_of_agenda {s : State} {a : Agenda} {as : List Agenda} (h : s.agenda = a :: as) :
    step s = bring a { s with agenda := as } := by simp only [step, stepPackage, h]

theorem step_of_no_agenda {s : State} (h : s.agenda = []) :
    step s = if s.status.fatal = 1 then .fault .thermalTrip else if s.status.fatal = 2 then .fault .bootFailed
      else if s.hart.status = .running then runHart s else .next s := by simp only [step, stepPackage, h]

end Sys2Proof.Machine

open Sys2Proof Sys2Proof.Machine

/-- Settles O4: the environment's items and the running hart always go on; what is left is the two stops themselves. -/
theorem stepStopsOnlyWhenHalted : Obligations.StepStopsOnlyWhenHalted := by
  unfold Obligations.StepStopsOnlyWhenHalted
  intro s
  refine ⟨?stops, ?goesOn⟩
  case stops =>
    rintro ⟨hagenda, htrip | hboot⟩
    · exact ⟨.thermalTrip, by simp [step_of_no_agenda hagenda, htrip]⟩
    · exact ⟨.bootFailed, by simp [step_of_no_agenda hagenda, hboot]⟩
  case goesOn =>
    intro hlive
    match hagenda : s.agenda with
    | a :: as => exact step_of_agenda hagenda ▸ bring_next a _
    | [] =>
      have htrip : s.status.fatal ≠ 1 := fun h => hlive ⟨hagenda, .inl h⟩
      have hboot : s.status.fatal ≠ 2 := fun h => hlive ⟨hagenda, .inr h⟩
      rw [step_of_no_agenda hagenda, if_neg htrip, if_neg hboot]
      exact ite_next (runHart_next s) ⟨_, rfl⟩

end

section
/-!
SUPPORT. The management commands of Table 18-4: how a command that runs ends (R291), what the front end's write of a queue's error word
leaves alone, and each command's checks and effect (R18, R54, R150, R228, R277, R285, R287, R289, R291 to R293).
-/

namespace Sys2Proof.Machine

open Sys2Proof.Claims

/-! ## The end of a command (R291) -/

/-- A command that runs ends with the status that its checks answer. -/
theorem command_run {code v : Nat} {args : List Nat} {x : Op Nat} {s t : State} (hr : s.running code args = true)
    (hx : x.run s = .ok v t) : (command code args x).run s = .ok () (answered v t) := by
  simp only [command, Op.run_bind, Op.run_get, hr, Op.run_onlyIf_true, hx, Op.run_modify]
  rfl

theorem command_run_error {code : Nat} {args : List Nat} {x : Op Nat} {s t : State} {e : Stop} (hr : s.running code args = true)
    (hx : x.run s = .error e t) : (command code args x).run s = .error e t := by
  simp only [command, Op.run_bind, Op.run_get, hr, Op.run_onlyIf_true, hx]

theorem event_command {code v : Nat} {args : List Nat} {x : Op Nat} {s t : State} (hr : s.running code args = true)
    (hx : x.run s = .ok v t) : event (command code args x) s = .next (answered v t) := event_ok (command_run hr hx)

/-- The same where the checks leave two ends. -/
theorem event_command_ite {code v w : Nat} {args : List Nat} {x : Op Nat} {s t u : State} {c : Prop} [Decidable c]
    (hr : s.running code args = true) (hx : x.run s = if c then .ok v t else .ok w u) :
    event (command code args x) s = .next (if c then answered v t else answered w u) := by
  by_cases h : c
  · rw [if_pos h] at hx ⊢
    exact event_command hr hx
  · rw [if_neg h] at hx ⊢
    exact event_command hr hx

theorem frontEvent_ok {q : Nat} {x : Op Unit} {s t : State} (h : x.run s = .ok () t) :
    frontEvent q x s = .next (t.answered q) := by simp only [frontEvent, h]

theorem frontEvent_hold {q : Nat} {x : Op Unit} {s t : State} {w : Option (RemoteKind × Nat × Word)}
    (h : x.run s = .error (.hold w) t) :
    frontEvent q x s = .next (s.setQueue q { s.queue q with asked := (s.queue q).asked.or (some s.time) }) := by
  simp only [frontEvent, h]

section
variable (v q : Nat) (s : State)
@[simp] theorem answered_queue : (answered v s).queue q = s.queue q := rfl
@[simp] theorem State.answered_hart : (s.answered q).hart = s.hart := by unfold State.answered; split <;> rfl
theorem State.answered_queue_self : (s.answered q).queue q = { s.queue q with asked := none } := by
  unfold State.answered
  split
  next h => rw [← h]
  next => exact State.setQueue_self ..
theorem State.answered_queue_ne {p : Nat} (h : p ≠ q) : (s.answered q).queue p = s.queue p := by
  unfold State.answered
  split
  · rfl
  · exact State.setQueue_ne _ _ _ _ h
/-- The end of a command and the end of a front end's wait touch different records. -/
theorem answered_answered : (answered v s).answered q = answered v (s.answered q) := by
  by_cases h : (s.queue q).asked = none
  · simp only [State.answered, answered_queue, h, if_true]
  · simp only [State.answered, answered_queue, h, if_false]
    rfl
end

/-! ## Queues written again -/

theorem Tab.put_put {α : Type} (t : Tab α) (i : Nat) (a b : α) : (Tab.put t i a).put i b = Tab.put t i b := by
  induction t with
  | nil => simp [Tab.put]
  | cons p t ih =>
    obtain ⟨k, c⟩ := p
    by_cases hlt : i < k
    · simp [Tab.put, hlt]
    · by_cases heq : i = k
      · simp [Tab.put, heq]
      · simp [Tab.put, hlt, heq, ih]

@[simp] theorem State.setQueue_setQueue (s : State) (q : Nat) (u v : Queue) : (s.setQueue q u).setQueue q v = s.setQueue q v := by
  simp only [State.setQueue, Tab.put_put]

/-! ## A write through a queue's translation -/

/-- What a write of a queue's front end leaves alone: every queue, and of the present hart all but its load reservation (R173). -/
def frontFrame (s t : State) : Prop := t.queues = s.queues ∧ sameHart s t

theorem frontFrame.refl (s : State) : frontFrame s s := ⟨rfl, rfl⟩
theorem frontFrame.trans {s t u : State} (h : frontFrame s t) (k : frontFrame t u) : frontFrame s u := by
  obtain ⟨hq, hh⟩ := h
  obtain ⟨kq, kh⟩ := k
  refine ⟨kq.trans hq, ?_⟩
  unfold sameHart at hh kh ⊢
  rw [kh, hh]
theorem frontFrame.queue {s t : State} (h : frontFrame s t) (p : Nat) : t.queue p = s.queue p := by
  simp only [State.queue, h.1]
theorem frontFrame.queue_self {s t : State} {q : Nat} {qu : Queue} (h : frontFrame (s.setQueue q qu) t) : t.queue q = qu := by
  rw [h.queue, State.setQueue_self]
theorem frontFrame.queue_ne {s t : State} {q p : Nat} {qu : Queue} (h : frontFrame (s.setQueue q qu) t) (hp : p ≠ q) :
    t.queue p = s.queue p := by
  rw [h.queue, State.setQueue_ne _ _ _ _ hp]

/-- An operation that, where it completes, keeps `frontFrame` and answers a value of which `P` holds. -/
def Op.framed {α : Type} (P : α → Prop) (x : Op α) : Prop := ∀ s a t, x.run s = .ok a t → frontFrame s t ∧ P a

section
variable {α β : Type} {P : α → Prop} {Q : β → Prop} {x : Op α}

theorem Op.framed_pure {a : α} (h : P a) : (pure a : Op α).framed P := by
  intro s b t e
  cases e
  exact ⟨.refl s, h⟩

theorem Op.framed_throw (e : Stop) : (throw e : Op α).framed P := fun _ _ _ h => nomatch h

theorem Op.framed_get {P : State → Prop} (h : ∀ s, P s) : (get : Op State).framed P := by
  intro s b t e
  cases e
  exact ⟨.refl s, h s⟩

theorem Op.framed_modify {f : State → State} (h : ∀ s, frontFrame s (f s)) : (modify f : Op PUnit).framed fun _ => True := by
  intro s b t e
  cases e
  exact ⟨h s, trivial⟩

theorem Op.framed_bind {f : α → Op β} (hx : x.framed P) (hf : ∀ a, P a → (f a).framed Q) : (x >>= f).framed Q := by
  intro s b u e
  rw [Op.run_bind] at e
  split at e
  next a t h =>
    obtain ⟨hframe, hP⟩ := hx s a t h
    obtain ⟨kframe, hQ⟩ := hf a hP t b u e
    exact ⟨hframe.trans kframe, hQ⟩
  next => cases e

theorem Op.framed_ite {c : Prop} [Decidable c] {y : Op α} (hx : c → x.framed P) (hy : ¬ c → y.framed P) :
    (if c then x else y).framed P := by
  split
  next h => exact hx h
  next h => exact hy h

theorem Op.framed_forIn {l : List α} {g : α → PUnit → Op (ForInStep PUnit)} (h : ∀ a ∈ l, (g a ⟨⟩).framed fun _ => True) :
    (forIn l PUnit.unit g).framed fun _ => True := by
  induction l with
  | nil => exact framed_pure trivial
  | cons a l ih =>
    rw [List.forIn_cons]
    refine framed_bind (h a List.mem_cons_self) fun r _ => ?_
    cases r with
    | done => exact framed_pure trivial
    | yield => exact ih fun b hb => h b (List.mem_cons_of_mem a hb)
end

/-- A translation changes memory only, where it sets A and D (R148, R150). -/
theorem translate_framed {w : Who} {kind : AKind} {user write amo : Bool} {root : Nat} {fa va : Word} :
    (translate w kind user write amo root fa va).framed fun _ => True := by
  intro s p t h
  unfold translate at h
  simp only [Op.run_bind, Op.run_get, Op.run_ite, fail, Op.run_raise] at h
  split at h
  · cases h
  · split at h
    · cases h
    · cases h
    · simp only [Op.run_bind, Op.run_ite, Op.run_raise, Op.run_set, Op.run_pure] at h
      split_ifs at h
      all_goals
        cases h
        exact ⟨⟨rfl, rfl⟩, trivial⟩

theorem qTranslate_framed {q : Nat} {kind : AKind} {write amo : Bool} {va : Word} :
    (qTranslate q kind write amo va).framed fun _ => True := by
  unfold qTranslate
  refine Op.framed_bind (Op.framed_get (P := fun _ => True) fun _ => trivial) fun s _ => ?_
  refine Op.framed_ite (fun _ => Op.framed_throw _) fun _ => ?_
  refine Op.framed_bind translate_framed fun p _ => ?_
  refine Op.framed_ite (fun _ => Op.framed_ite (fun _ => Op.framed_throw _) fun _ => Op.framed_throw _) fun _ => ?_
  exact Op.framed_pure trivial

/-- A place in memory, not in a scratchpad. -/
def inMemory (p : Loc × Option Phys) : Prop := ∃ k, p.1 = .mem k

/-- The front end writes memory alone: it has no scratchpad window (DESIGN CHOICE log 15). -/
theorem qPlaces_framed (q : Nat) : ∀ n va, (qPlaces q va n).framed fun ps => ∀ p ∈ ps, inMemory p
  | 0, _ => Op.framed_pure (by simp)
  | n + 1, va => by
    refine Op.framed_bind (qTranslate_framed) fun p _ => ?_
    refine Op.framed_bind (qPlaces_framed q n (va + 1)) fun ps hps => ?_
    exact Op.framed_pure (List.forall_mem_cons.mpr ⟨⟨p.key, rfl⟩, hps⟩)

theorem writeLoc_framed {k : Nat} {c : Option (BitVec 512)} {a : Nat} {b : Byte} : (writeLoc k c (.mem a) b).framed fun _ => True :=
  Op.framed_modify fun _ => ⟨rfl, rfl⟩

theorem clearPoison_framed {ls : List Loc} (hl : ∀ l ∈ ls, ∃ k, l = .mem k) : (clearPoison ls).framed fun _ => True := by
  intro s _ t e
  obtain ⟨p, hp⟩ := clearPoison_mem hl s
  rw [hp] at e
  cases e
  exact ⟨⟨rfl, rfl⟩, trivial⟩

theorem breakReservations_framed (keys : List Nat) : (breakReservations keys).framed fun _ => True := by
  intro s _ t e
  obtain ⟨f, hf, hb⟩ := breakReservations_mapHarts keys s
  rw [hb] at e
  cases e
  exact ⟨⟨rfl, hf s.hart⟩, trivial⟩

theorem allLocs_mem {ps : List (Loc × Option Phys)} (h : ∀ p ∈ ps, inMemory p) : ∀ l ∈ allLocs ps, ∃ k, l = .mem k := by
  intro l hl
  obtain ⟨⟨loc, ph⟩, hp, hl⟩ := List.mem_flatMap.mp hl
  obtain ⟨k, rfl : loc = .mem k⟩ := h _ hp
  exact ⟨k, List.mem_singleton.mp hl⟩

theorem storePlaced_framed {ps : List (Loc × Option Phys)} (h : ∀ p ∈ ps, inMemory p) (bs : List Byte) :
    (storePlaced ps bs).framed fun _ => True := by
  unfold storePlaced
  refine Op.framed_bind (P := fun _ => True) ?draw fun k _ => Op.framed_bind (Op.framed_forIn fun x hx => ?_) fun _ _ =>
    Op.framed_bind (clearPoison_framed (allLocs_mem h)) fun _ _ => breakReservations_framed _
  case draw =>
    intro s a t e
    cases e
    exact ⟨⟨rfl, rfl⟩, trivial⟩
  obtain ⟨⟨loc, ph⟩, b⟩ := x
  obtain ⟨a, rfl : loc = .mem a⟩ := h _ (List.of_mem_zip hx).1
  exact Op.framed_bind writeLoc_framed fun _ _ => Op.framed_pure trivial

theorem qWrite_framed {q : Nat} {va : Word} {bs : List Byte} : (qWrite q va bs).framed fun _ => True :=
  Op.framed_bind (qPlaces_framed q bs.length va) fun _ hps => storePlaced_framed hps bs

theorem tryOp_frontFrame {α : Type} {P : α → Prop} {x : Op α} (hx : x.framed P) (s : State) : frontFrame s (tryOp x s).2 := by
  unfold tryOp
  split
  next a t h => exact (hx s a t h).1
  next => exact .refl s

/-- The error word is cleared whether or not its write to ERRW succeeds (R53, R287, R289). -/
theorem clearError_run (q : Nat) (s : State) :
    ∃ t, (clearError q).run s = .ok () t ∧ frontFrame (s.setQueue q { s.queue q with error := 0 }) t := by
  simp only [clearError, modQueue, Op.run_bind, Op.run_modify, Op.run_get, Op.run_ite, Op.run_set, Op.run_pure]
  split
  · exact ⟨_, rfl, tryOp_frontFrame qWrite_framed _⟩
  · exact ⟨_, rfl, .refl _⟩

/-! ## QCONFIG (R287) -/

theorem qconfigStatus_no_queue {q : Nat} {s : State} (hq : 63 < q) : (qconfigStatus q).run s = .ok 3 s := by
  simp only [qconfigStatus, Op.run_bind, Op.run_get, if_pos hq, Op.run_pure]

theorem qconfigStatus_busy {q : Nat} {s : State} (hq : q ≤ 63) (hc : (s.queue q).mayConfigure = false) :
    (qconfigStatus q).run s = .ok 2 s := by
  simp only [qconfigStatus, Op.run_bind, Op.run_get, if_neg (Nat.not_lt.mpr hq), hc, Bool.not_false, if_true, Op.run_pure]

theorem qconfigStatus_bad_entry {q : Nat} {s : State} (hq : q ≤ 63) (hc : (s.queue q).mayConfigure = true)
    (he : entryOk (s.queue q).written = false) : (qconfigStatus q).run s = .ok 3 s := by
  simp only [qconfigStatus, Op.run_bind, Op.run_get, if_neg (Nat.not_lt.mpr hq), hc, he, Bool.not_true, Bool.not_false,
    Bool.false_eq_true, if_true, if_false, Op.run_pure]

/-- With its checks passed, QCONFIG installs the entry. -/
theorem qconfigStatus_accepted {q : Nat} {s t : State} (hq : q ≤ 63) (hc : (s.queue q).mayConfigure = true)
    (he : entryOk (s.queue q).written = true) (ht : (installEntry q).run s = .ok () t) : (qconfigStatus q).run s = .ok 0 t := by
  simp only [qconfigStatus, Op.run_bind, Op.run_get, if_neg (Nat.not_lt.mpr hq), hc, he, ht, Bool.not_true, Bool.false_eq_true,
    if_false, Op.run_pure]

theorem installEntry_disable {q : Nat} {s : State} (h : (installed (s.queue q)).cen = false) :
    (installEntry q).run s = .ok () (s.setQueue q { installed (s.queue q) with state := .waiting }) := by
  unfold installed at h ⊢
  simp only [installEntry, Op.run_bind, Op.run_get, Op.run_modify, h, Bool.false_eq_true, false_and, if_false]

theorem installEntry_keep {q : Nat} {s : State} (h : (installed (s.queue q)).cen = true) (ho : (s.queue q).cen = true) :
    (installEntry q).run s = .ok () (s.setQueue q (installed (s.queue q))) := by
  unfold installed at h ⊢
  simp only [installEntry, Op.run_bind, Op.run_get, Op.run_modify, h, ho, Bool.not_true, Bool.false_eq_true, and_false,
    if_false, if_true]

/-- QUEUE_ENABLE: the queue starts anew, with its error word cleared. -/
theorem installEntry_enable {q : Nat} {s : State} (h : (installed (s.queue q)).cen = true) (ho : (s.queue q).cen = false) :
    ∃ t, (installEntry q).run s = .ok () t ∧
      frontFrame (s.setQueue q { (installed (s.queue q)).enabled with error := 0 }) t := by
  obtain ⟨t, ht, hframe⟩ := clearError_run q (s.setQueue q (installed (s.queue q)).enabled)
  refine ⟨t, ?_, ?_⟩
  · unfold installed at h ht
    simp only [installEntry, Op.run_bind, Op.run_get, Op.run_modify, h, ho, Bool.not_false, and_self, if_true]
    exact ht
  · rwa [State.setQueue_self, State.setQueue_setQueue] at hframe

/-! ## SHOOTDOWN, ELIDECLR, POWERLIMIT, DOMAINID and APERTURE (R18, R150, R228, R277, R285) -/

theorem shootdown_run (q va len : Nat) (s : State) :
    (shootdownStatus q va len).run s = .ok (if q ≤ 63 ∧ va % 4096 = 0 ∧ len % 4096 = 0 then 0 else 3) s := rfl

theorem elideclr_run_refused {q idx : Nat} {s : State} (h : 63 < q ∨ 2 ^ 32 ≤ idx) : (elideclrStatus q idx).run s = .ok 3 s := by
  simp only [elideclrStatus, if_pos h, Op.run_pure]

theorem elideclr_run {q idx : Nat} {s : State} (hq : q ≤ 63) (hi : idx < 2 ^ 32) :
    (elideclrStatus q idx).run s = .ok 0 (s.setQueue q { s.queue q with
      elisions := (s.queue q).elisions.filter fun e => idxAtLeast e.recIdx idx }) := by
  rw [elideclrStatus, if_neg (by omega)]
  rfl

theorem powerlimit_run (watts : Nat) (s : State) :
    (powerlimitStatus watts).run s =
      if 1200 ≤ watts ∧ watts ≤ 2400 ∧ watts % 25 = 0 then .ok 0 { s with powerLimit := watts } else .ok 3 s := by
  simp only [powerlimitStatus, Op.run_ite, Op.run_bind, Op.run_modify, Op.run_pure]

theorem domainid_run_refused {n : Nat} {s : State} (h : 255 < n) : (domainidStatus n).run s = .ok 3 s := by
  simp only [domainidStatus, Op.run_bind, Op.run_get, if_pos h, Op.run_pure]

theorem domainid_run {n : Nat} {s : State} (h : ¬ 255 < n) :
    (domainidStatus n).run s = if s.collSeen = true then .ok 2 s else .ok 0 { s with domainId := n } := by
  simp only [domainidStatus, Op.run_bind, Op.run_get, if_neg h, Op.run_ite, Op.run_set, Op.run_pure]

theorem aperture_run (base : Nat) (s : State) :
    (apertureStatus base).run s = if base % 2 ^ 36 = 0 ∧ base < 2 ^ 40 then .ok 0 { s with bar2 := base } else .ok 3 s := by
  simp only [apertureStatus, Op.run_ite, Op.run_bind, Op.run_modify, Op.run_pure]

/-! ## COMMSET (R258, R259, R293) -/

theorem allSome_eq_none {α : Type} {l : List (Option α)} : allSome l = none ↔ none ∈ l := by
  induction l with
  | nil => simp [allSome]
  | cons a l ih => cases a <;> simp [allSome, ih]

theorem allSome_map_some {α : Type} (l : List α) : allSome (l.map some) = some l := by
  induction l with
  | nil => rfl
  | cons a l ih => simp [allSome, ih]

theorem commset_run_refused {table count : Nat} {s : State}
    (h : table % 64 ≠ 0 ∨ count = 0 ∨ 4096 < count ∨ s.physLimit < table + 64 * count ∨
      ∃ i, i < count ∧ commOf s (table + 64 * i) = none) : (commsetStatus table count).run s = .ok 3 s := by
  simp only [commsetStatus, Op.run_bind, Op.run_get, Op.run_ite, Op.run_pure]
  split
  · rfl
  next hrange =>
    obtain ⟨i, hi, hbad⟩ : ∃ i, i < count ∧ commOf s (table + 64 * i) = none := by tauto
    have hnone : allSome ((List.range count).map fun i => commOf s (table + 64 * i)) = none :=
      allSome_eq_none.mpr (List.mem_map.mpr ⟨i, List.mem_range.mpr hi, hbad⟩)
    rw [hnone]
    rfl

theorem commset_run {table count : Nat} {s : State} {cs : List Comm}
    (hb : ¬ (table % 64 ≠ 0 ∨ count = 0 ∨ 4096 < count ∨ s.physLimit < table + 64 * count))
    (hlen : cs.length = count) (hcs : ∀ i, i < count → commOf s (table + 64 * i) = cs[i]?) (hid : (cs.map (·.id)).Nodup)
    (hall : (mergeComms s.comms cs).length ≤ 4096) (hseq : (sequencesOf (mergeComms s.comms cs)).length ≤ 4) :
    (commsetStatus table count).run s = if s.regs.any (fun r => cs.any (·.id = r.comm)) = true then .ok 2 s
      else .ok 0 { s with comms := mergeComms s.comms cs } := by
  have htable : (List.range count).map (fun i => commOf s (table + 64 * i)) = cs.map some := by
    refine List.ext_getElem (by simp [hlen]) fun i h1 h2 => ?_
    have hi : i < cs.length := by simpa using h2
    simp [hcs i (hlen ▸ hi), hi]
  simp only [commsetStatus, Op.run_bind, Op.run_get, Op.run_ite, if_neg hb, htable, allSome_map_some]
  rw [if_neg (by simp [hid]; omega)]
  simp only [Op.run_pure, Op.run_set]

/-! ## QRESUME (R220, R289) -/

theorem Queue.resume_again (qu : Queue) (d : Nat) : qu.resume 0 d =
    { qu with state := .waiting,
              consumed := if d = 0 then qu.consumed else qu.consumed.filter (· ≠ (qu.head + BitVec.ofNat 32 d).toNat) } := rfl

section
variable (qu : Queue)
theorem Queue.advanceHead_head : qu.advanceHead.head = nextHead qu.consumed.length qu.consumed (qu.head + 1) := rfl
theorem Queue.advanceHead_consumed :
    qu.advanceHead.consumed = qu.consumed.filter fun i => idxAtLeast i qu.advanceHead.head.toNat := rfl
end

/-- Passing over a record that is no pair's first passes the head over it alone. -/
theorem Queue.resume_past_record (qu : Queue) : qu.resume 1 0 = qu.advanceHead := rfl

/-- Passing over a pair passes the head over its first record; its second is skipped in its turn. -/
theorem Queue.resume_past_pair {qu : Queue} {d : Nat} (hd : d ≠ 0) : qu.resume 1 d =
    Queue.advanceHead { qu with consumed := (qu.head + BitVec.ofNat 32 d).toNat :: qu.consumed } := by
  rw [Queue.resume, if_neg one_ne_zero, if_neg hd]

/-- The head passes the second record of a pair together with the first only where their distance is one (R220). -/
theorem nextHead_pair {head : BitVec 32} {d : Nat} (h1 : 1 ≤ d) (h7 : d ≤ 7) :
    nextHead 1 [(head + BitVec.ofNat 32 d).toNat] (head + 1) = head + (if d = 1 then 2 else 1) := by
  have hone : (1 : BitVec 32).toNat = 1 := rfl
  have hsecond : (head + 1).toNat = (head + BitVec.ofNat 32 d).toNat ↔ d = 1 := by
    simp only [BitVec.toNat_add, BitVec.toNat_ofNat, hone]
    have := head.isLt
    omega
  simp only [nextHead, List.contains_iff_mem, List.mem_singleton, hsecond]
  split
  · rw [BitVec.add_assoc]
    rfl
  · rfl

/-- Of the second record, only one that the head has not passed is left to be skipped. -/
theorem idxAtLeast_pair {head : BitVec 32} {d : Nat} (h1 : 1 ≤ d) (h7 : d ≤ 7) :
    idxAtLeast (head + BitVec.ofNat 32 d).toNat (head + (if d = 1 then 2 else 1)).toNat = decide (d ≠ 1) := by
  have hone : (1 : BitVec 32).toNat = 1 := rfl
  have htwo : (2 : BitVec 32).toNat = 2 := rfl
  have := head.isLt
  split <;> simp only [idxAtLeast, idxDist, BitVec.toNat_add, BitVec.toNat_ofNat, hone, htwo, decide_eq_decide] <;> omega

theorem Queue.advanceHead_pair {qu : Queue} {d : Nat} (h1 : 1 ≤ d) (h7 : d ≤ 7)
    (hc : qu.consumed = [(qu.head + BitVec.ofNat 32 d).toNat]) :
    qu.advanceHead.head = qu.head + (if d = 1 then 2 else 1) ∧
      qu.advanceHead.consumed = if d = 1 then [] else [(qu.head + BitVec.ofNat 32 d).toNat] := by
  have hhead : qu.advanceHead.head = qu.head + (if d = 1 then 2 else 1) := by
    rw [Queue.advanceHead_head, hc, List.length_singleton, nextHead_pair h1 h7]
  refine ⟨hhead, ?_⟩
  rw [Queue.advanceHead_consumed, hhead, hc, List.filter_singleton, idxAtLeast_pair h1 h7]
  by_cases hone : d = 1 <;> simp [hone]

theorem qresumeStatus_refused {q action : Nat} {s : State} (h : 63 < q ∨ 1 < action) :
    (qresumeStatus q action).run s = .ok 3 s := by
  simp only [qresumeStatus, Op.run_bind, Op.run_get, if_pos h, Op.run_pure]

theorem qresumeStatus_running {q action : Nat} {s : State} (hq : q ≤ 63) (ha : action ≤ 1)
    (h : ∀ d f, (s.queue q).state ≠ .stopped d f) : (qresumeStatus q action).run s = .ok 2 s := by
  simp only [qresumeStatus, Op.run_bind, Op.run_get, if_neg (by omega : ¬ (63 < q ∨ 1 < action))]
  split
  next d hs => exact absurd hs (h d none)
  next d c r p hs => exact absurd hs (h d _)
  next => rfl

/-- A queue that stopped at its head record goes on with it, or past it. -/
theorem qresumeStatus_stopped {q action d : Nat} {s : State} (hq : q ≤ 63) (ha : action ≤ 1)
    (h : (s.queue q).state = .stopped d none) : ∃ t,
      frontFrame (s.setQueue q { s.queue q with error := 0 }) t ∧
      (qresumeStatus q action).run s = .ok 0 (t.setQueue q (({ s.queue q with error := 0 } : Queue).resume action d)) := by
  obtain ⟨t, ht, hframe⟩ := clearError_run q s
  refine ⟨t, hframe, ?_⟩
  simp only [qresumeStatus, Op.run_bind, Op.run_get, if_neg (by omega : ¬ (63 < q ∨ 1 < action)), h, ht, modQueue, Op.run_modify,
    hframe.queue_self, Op.run_pure]

/-- A queue whose completion's addition failed goes on without it. -/
theorem qresumeStatus_given_up {q d c r p : Nat} {s : State} (hq : q ≤ 63)
    (h : (s.queue q).state = .stopped d (some (c, r, p))) : ∃ t,
      frontFrame (s.setQueue q { s.queue q with error := 0 }) t ∧
      (qresumeStatus q 1).run s = .ok 0 (t.setQueue q { s.queue q with error := 0, state := .waiting }) := by
  obtain ⟨t, ht, hframe⟩ := clearError_run q s
  refine ⟨t, hframe, ?_⟩
  simp only [qresumeStatus, Op.run_bind, Op.run_get, if_neg (by omega : ¬ (63 < q ∨ 1 < 1)), h, ht, modQueue, Op.run_modify,
    hframe.queue_self, one_ne_zero, if_false, Op.run_pure]

/-- Or it repeats the addition, and stops again where that fails again. -/
theorem qresumeStatus_repeated {q d c r p : Nat} {s : State} (hq : q ≤ 63)
    (h : (s.queue q).state = .stopped d (some (c, r, p))) : ∃ t,
      frontFrame (s.setQueue q { s.queue q with error := 0 }) t ∧
      (∀ b u, (completionAdd q c).run (t.setQueue q { s.queue q with error := 0, state := .waiting }) = .ok b u →
        (qresumeStatus q 0).run s = .ok 0 (if b = true then u
          else queueError q r p 0 8 (u.setQueue q { u.queue q with state := .stopped p (some (c, r, p)) }))) ∧
      (∀ e u, (completionAdd q c).run (t.setQueue q { s.queue q with error := 0, state := .waiting }) = .error e u →
        (qresumeStatus q 0).run s = .error e u) := by
  obtain ⟨t, ht, hframe⟩ := clearError_run q s
  refine ⟨t, hframe, fun b u hadd => ?_, fun e u hadd => ?_⟩ <;>
    simp only [qresumeStatus, Op.run_bind, Op.run_get, if_neg (by omega : ¬ (63 < q ∨ 1 < 0)), h, ht, modQueue, Op.run_modify,
      hframe.queue_self, if_true, hadd]
  cases b <;> rfl

/-- What a queue's resumption leaves, once its front end waits no more: the queue as resumed, the other queues, and of the present hart
all but its load reservation. -/
theorem resumption_frame {q : Nat} {s t : State} (h : frontFrame (s.setQueue q { s.queue q with error := 0 }) t) (qu : Queue) :
    sameHart s ((t.setQueue q qu).answered q) ∧ ((t.setQueue q qu).answered q).queue q = { qu with asked := none } ∧
      ∀ p, p ≠ q → ((t.setQueue q qu).answered q).queue p = s.queue p := by
  refine ⟨?_, ?_, fun p hp => ?_⟩
  · unfold sameHart
    rw [State.answered_hart]
    exact h.2
  · rw [State.answered_queue_self, State.setQueue_self]
  · rw [State.answered_queue_ne _ _ hp, State.setQueue_ne _ _ _ _ hp, h.queue_ne hp]

section
variable {q action : Nat} {s : State} (hr : s.running 10 [q, action] = true)
include hr

theorem qresume_ends {v : Nat} {t : State} (hx : (qresumeStatus q action).run s = .ok v t) :
    exec (.qresume q action) s = .next ((answered v t).answered q) := frontEvent_ok (command_run hr hx)

theorem qresume_resumes {t : State} (hx : (qresumeStatus q action).run s = .ok 0 t) :
    exec (.qresume q action) s = .next (answered 0 (t.answered q)) :=
  (qresume_ends hr hx).trans (congrArg _ (answered_answered ..))

/-- A queue that stopped at one record. -/
theorem qresume_record (hq : q ≤ 63) (ha : action ≤ 1) (hs : (s.queue q).state = .stopped 0 none) (hc : (s.queue q).consumed = []) :
    ∃ t, exec (.qresume q action) s = .next (answered 0 t) ∧ sameHart s t ∧ (t.queue q).error = 0 ∧
      (t.queue q).state = .waiting ∧ (t.queue q).head = (s.queue q).head + (if action = 1 then 1 else 0) ∧
      ∀ p, p ≠ q → t.queue p = s.queue p := by
  obtain ⟨t, hframe, hx⟩ := qresumeStatus_stopped hq ha hs
  obtain ⟨hhart, hqueue, hothers⟩ := resumption_frame hframe (({ s.queue q with error := 0 } : Queue).resume action 0)
  refine ⟨_, qresume_resumes hr hx, hhart, ?_⟩
  rw [hqueue]
  obtain rfl | rfl : action = 0 ∨ action = 1 := by omega
  · exact ⟨rfl, rfl, (BitVec.add_zero _).symm, hothers⟩
  · refine ⟨rfl, rfl, ?_, hothers⟩
    dsimp only
    rw [Queue.resume_past_record, Queue.advanceHead_head, hc]
    rfl

/-- A queue that stopped at a pair. -/
theorem qresume_pair {d : Nat} (hq : q ≤ 63) (ha : action ≤ 1) (h1 : 1 ≤ d) (h7 : d ≤ 7) (hs : (s.queue q).state = .stopped d none)
    (hc : (s.queue q).consumed = []) :
    ∃ t, exec (.qresume q action) s = .next (answered 0 t) ∧ sameHart s t ∧ (t.queue q).error = 0 ∧ (t.queue q).state = .waiting ∧
      (action = 0 → (t.queue q).head = (s.queue q).head ∧ (t.queue q).consumed = []) ∧
      (action = 1 → (t.queue q).head = (s.queue q).head + (if d = 1 then 2 else 1) ∧
        (t.queue q).consumed = (if d = 1 then [] else [((s.queue q).head + BitVec.ofNat 32 d).toNat])) := by
  obtain ⟨t, hframe, hx⟩ := qresumeStatus_stopped hq ha hs
  obtain ⟨hhart, hqueue, -⟩ := resumption_frame hframe (({ s.queue q with error := 0 } : Queue).resume action d)
  have hd : d ≠ 0 := by omega
  refine ⟨_, qresume_resumes hr hx, hhart, ?_⟩
  rw [hqueue]
  obtain rfl | rfl : action = 0 ∨ action = 1 := by omega
  · refine ⟨rfl, rfl, fun _ => ⟨rfl, ?_⟩, nofun⟩
    simp only [Queue.resume_again, if_neg hd, hc, List.filter_nil]
  · rw [Queue.resume_past_pair hd]
    exact ⟨rfl, rfl, nofun, fun _ => Queue.advanceHead_pair h1 h7 (by rw [hc])⟩

end

section
variable {q d : Nat} {s : State}

/-- A queue that stopped because its completion's addition failed, and gives it up. -/
theorem qresume_given_up {f : Nat × Nat × Nat} (hr : s.running 10 [q, 1] = true) (hq : q ≤ 63)
    (hs : (s.queue q).state = .stopped d (some f)) :
    ∃ t, exec (.qresume q 1) s = .next (answered 0 t) ∧ sameHart s t ∧ (t.queue q).error = 0 ∧
      (t.queue q).state = .waiting ∧ (t.queue q).head = (s.queue q).head ∧ ∀ p, p ≠ q → t.queue p = s.queue p := by
  obtain ⟨t, hframe, hx⟩ := qresumeStatus_given_up hq hs
  obtain ⟨hhart, hqueue, hothers⟩ := resumption_frame hframe { s.queue q with error := 0, state := .waiting }
  refine ⟨_, qresume_resumes hr hx, hhart, ?_⟩
  rw [hqueue]
  exact ⟨rfl, rfl, rfl, hothers⟩

/-- A queue that stopped because its completion's addition failed, and repeats it. -/
theorem qresume_repeated {ctr r p : Nat} (hr : s.running 10 [q, 0] = true) (hq : q ≤ 63)
    (hs : (s.queue q).state = .stopped d (some (ctr, r, p))) :
    ∃ v, sameHart s v ∧ (v.queue q).error = 0 ∧ (v.queue q).state = .waiting ∧ (v.queue q).head = (s.queue q).head ∧
      (∀ u, (completionAdd q ctr).run v = .ok true u → exec (.qresume q 0) s = .next ((answered 0 u).answered q)) ∧
      (∀ w u, (completionAdd q ctr).run v = .error (.hold w) u → exec (.qresume q 0) s =
        .next (s.setQueue q { s.queue q with asked := (s.queue q).asked.or (some s.time) })) ∧
      ∀ u, (completionAdd q ctr).run v = .ok false u → exec (.qresume q 0) s = .next ((answered 0
        (queueError q r p 0 8 (u.setQueue q { u.queue q with state := .stopped p (some (ctr, r, p)) }))).answered q) := by
  obtain ⟨t, hframe, hadded, hheld⟩ := qresumeStatus_repeated hq hs
  refine ⟨t.setQueue q { s.queue q with error := 0, state := .waiting }, hframe.2, ?_⟩
  rw [State.setQueue_self]
  exact ⟨rfl, rfl, rfl, fun u hu => qresume_ends hr (hadded true u hu),
    fun w u hu => frontEvent_hold (command_run_error hr (hheld _ u hu)), fun u hu => qresume_ends hr (hadded false u hu)⟩

end

/-! ## An unknown code (R291) -/

theorem mailboxUnknownCode_completes {code : Byte} {s : State} (h : code.toNat = 0 ∨ 10 < code.toNat)
    (hr : s.running code.toNat [] = true) : exec (.mailboxUnknownCode code) s = .next (answered 3 s) := by
  refine event_ok ?_
  have hcode : (code.toNat = 0 || 10 < code.toNat) = true := by simpa using h
  rw [Op.run_bind, hcode, Op.run_onlyIf_true]
  exact command_run hr rfl

end Sys2Proof.Machine

open Sys2Proof Sys2Proof.Machine Sys2Proof.Claims

/-- Settles O55: each command's checks in their order, and its effect where they pass; the error word's write changes no more than
`frontFrame` allows. -/
theorem mailboxCommandsComplete : Obligations.MailboxCommandsComplete := by
  unfold Obligations.MailboxCommandsComplete
  refine ⟨?qconfig, ?shootdown, ?elideclr, ?commset, ?powerlimit, ?domainid, ?aperture, ?qresume, ?unknown⟩
  case qconfig =>
    intro q s hr
    refine ⟨fun hq => event_command hr (qconfigStatus_no_queue hq), fun hq hc => event_command hr (qconfigStatus_busy hq hc),
      fun hq hc he => event_command hr (qconfigStatus_bad_entry hq hc he),
      fun hq hc he => ⟨fun hnew => ?_, fun hnew hold => ?_, fun hnew hold => ?_⟩⟩
    · exact event_command hr (qconfigStatus_accepted hq hc he (installEntry_disable hnew))
    · exact event_command hr (qconfigStatus_accepted hq hc he (installEntry_keep hnew hold))
    · obtain ⟨t, ht, hframe⟩ := installEntry_enable hnew hold
      refine ⟨t, event_command hr (qconfigStatus_accepted hq hc he ht), hframe.2, ?_⟩
      rw [hframe.queue_self]
      exact ⟨rfl, rfl, rfl, rfl, rfl, rfl, rfl, rfl, rfl, fun p hp => hframe.queue_ne hp⟩
  case shootdown => exact fun q va len s hr => event_command hr (shootdown_run q va len s)
  case elideclr =>
    exact fun q idx s hr => ⟨fun h => event_command hr (elideclr_run_refused h), fun hq hi => event_command hr (elideclr_run hq hi)⟩
  case commset =>
    intro table count s hr
    refine ⟨fun h => event_command hr (commset_run_refused h), fun cs h1 h2 h3 h4 hlen hcs hid => ?_⟩
    intro all hall hseq
    exact event_command_ite hr (commset_run (by omega) hlen hcs hid hall hseq)
  case powerlimit => exact fun watts s hr => event_command_ite hr (powerlimit_run watts s)
  case domainid =>
    intro n s hr
    split
    next h => exact event_command hr (domainid_run_refused h)
    next h => exact event_command_ite hr (domainid_run h)
  case aperture => exact fun base s hr => event_command_ite hr (aperture_run base s)
  case qresume =>
    intro q action s hr
    refine ⟨fun h => qresume_ends hr (qresumeStatus_refused h), fun hq ha h => qresume_ends hr (qresumeStatus_running hq ha h),
      ?record, ?pair, ?givenUp, ?repeated⟩
    case record => exact fun hq ha hs hc => qresume_record hr hq ha hs hc
    case pair => exact fun d hq ha h1 h7 hs hc => qresume_pair hr hq ha h1 h7 hs hc
    case givenUp =>
      rintro d f hq rfl hs
      exact qresume_given_up hr hq hs
    case repeated =>
      rintro d ctr r p hq rfl hs
      exact qresume_repeated hr hq hs
  case unknown => exact fun code s h hr => mailboxUnknownCode_completes h hr

end

section
/-!
SUPPORT. Predicates and what every vector instruction goes through: the convoy it joins, its run where nothing of the environment falls into
it, and the PRED family and the predicate branches assembled from them (R41, R43, R93, R330 to R337).
-/

namespace Sys2Proof.Machine

open Sys2Proof.Claims

/-! ## Operations in sequence -/

section
variable {α β : Type} {x : Op α} {f : α → Op β} {s t : State}

theorem Op.bind_ok {a : α} {r : EStateM.Result Stop State β} (hx : x.run s = .ok a t) (hf : (f a).run t = r) :
    (x >>= f).run s = r := by rw [Op.run_bind, hx]; exact hf

theorem Op.bind_error {e : Stop} (hx : x.run s = .error e t) : (x >>= f).run s = .error e t := by rw [Op.run_bind, hx]

theorem Op.tryCatch_ok {g : Stop → Op α} {a : α} (hx : x.run s = .ok a t) : (tryCatch x g).run s = .ok a t := by
  rw [Op.run_tryCatch, hx]

theorem Op.tryCatch_error {g : Stop → Op α} {e : Stop} {r : EStateM.Result Stop State α} (hx : x.run s = .error e t)
    (hg : (g e).run t = r) : (tryCatch x g).run s = r := by rw [Op.run_tryCatch, hx]; exact hg
end

theorem finish_wait {x : Op Unit} {s t : State} (h : x.run s = .error .wait t) : finish x s = .next t := by simp [finish, h]

theorem finishWaiting_wait {x : Op Unit} {s t : State} (h : x.run s = .error .wait t) (hr : t.hart.requestPending = false) :
    finishWaiting x s = .next t := by simp [finishWaiting, h, hr]

/-! ## The convoy and the run of a vector instruction -/

theorem joinConvoy_joins {u : VUnit} {c : Bool} {s : State} (h : joins u c s.hart) :
    (joinConvoy u c).run s = .ok () { s with hart := joined u c s.hart } := by
  simp only [joinConvoy, Op.run_bind, Op.run_getH, Op.run_ite, Op.run_modH, joined]
  by_cases hc : (c || s.hart.freshConvoy) = true
  · simp only [hc, if_true]
  · have hfree : u ∉ s.hart.convoy := by
      simp only [joins] at h
      simp_all
    simp only [Bool.or_eq_true, not_or, Bool.not_eq_true] at hc
    simp [hc, hfree]

theorem joinConvoy_taken {u : VUnit} {c : Bool} {s : State} (h : ¬ joins u c s.hart) :
    (joinConvoy u c).run s = .error (.trap { cause := 2 }) s := by
  obtain ⟨hc, hf, hu⟩ : c = false ∧ s.hart.freshConvoy = false ∧ u ∈ s.hart.convoy := by simpa [joins] using h
  simp [joinConvoy, hc, hf, hu]

/-- A vector instruction into which nothing of the environment falls runs over its positions at once (R34, R189, R350). -/
theorem vecRun_undisturbed {unit : VUnit} {step n : Nat} {pc : Word} {body : Nat → Op Unit} {s t : State}
    (hb : (body n).run s = .ok () t) (h : undisturbed s.hart) :
    (vecRun unit step n pc body).run s = .ok () { t with hart := t.hart.vectorDone unit } := by
  obtain ⟨hup, hst⟩ := h
  have hchecked : (checkedRun unit step n pc body (body n)).run s = .ok () t := by
    simp only [checkedRun, Op.run_bind, Op.run_getH, hup, List.length_nil, weevil, hb, ite_self]
  simp only [vecRun, Op.run_bind, Op.run_get, hst, ite_self, hchecked, Op.run_modH]

theorem undisturbed_joined {h : Hart} (hu : undisturbed h) (u : VUnit) (c : Bool) : undisturbed (joined u c h) := hu

/-- That a completed instruction counts in minstret changes nothing else. -/
theorem Hart.retire_eq (h : Hart) : h.retire = { h with minstret := h.retire.minstret } := by
  unfold Hart.retire
  split <;> rfl

section
variable (h : Hart)
@[simp] theorem Hart.retire_preds : h.retire.preds = h.preds := by rw [h.retire_eq]
@[simp] theorem Hart.retire_masks : h.retire.masks = h.masks := by rw [h.retire_eq]
@[simp] theorem Hart.retire_vregs : h.retire.vregs = h.vregs := by rw [h.retire_eq]
@[simp] theorem Hart.retire_vxi : h.retire.vxi = h.vxi := by rw [h.retire_eq]
@[simp] theorem Hart.retire_skipped : h.retire.skipped = h.skipped := by rw [h.retire_eq]
@[simp] theorem Hart.retire_sf : h.retire.sf = h.sf := by rw [h.retire_eq]
@[simp] theorem Hart.retire_poolv : h.retire.poolv = h.poolv := by rw [h.retire_eq]
@[simp] theorem Hart.retire_pools : h.retire.pools = h.pools := by rw [h.retire_eq]
@[simp] theorem Hart.retire_poolc : h.retire.poolc = h.poolc := by rw [h.retire_eq]
@[simp] theorem Hart.retire_pool : h.retire.pool = h.pool := by rw [h.retire_eq]
end

/-! ## Predicates below nel() -/

theorem Hart.setP_eq (h : Hart) (p : Nat) (v : BitVec 8192) : h.setP p v = { h with preds := (h.setP p v).preds } := by
  unfold Hart.setP
  split <;> rfl

theorem Hart.setP_get_self (h : Hart) {p : Nat} (v : BitVec 8192) (hp : p ≠ 0) : (h.setP p v).preds.get p = v := by
  simp [Hart.setP, hp]

theorem Hart.setP_get_ne (h : Hart) {p q : Nat} (v : BitVec 8192) (hq : p = 0 ∨ q ≠ p) : (h.setP p v).preds.get q = h.preds.get q := by
  unfold Hart.setP
  split
  next => rfl
  next hp => exact File.get_set_ne _ _ _ _ (hq.resolve_left hp)

theorem getLsbD_twoPow_foldl (f : Nat → Bool) (l : List Nat) : ∀ (p : BitVec 8192) {e : Nat}, e < 8192 →
    (l.foldl (fun p e => if f e then p ||| BitVec.twoPow 8192 e else p) p).getLsbD e = (p.getLsbD e || (decide (e ∈ l) && f e)) := by
  induction l with
  | nil => simp
  | cons i l ih =>
    intro p e he
    rw [List.foldl_cons, ih _ he]
    by_cases hi : i = e
    · subst hi
      by_cases hf : f i = true <;> simp [hf, he]
    · by_cases hf : f i = true <;> simp [hf, hi, Ne.symm hi, BitVec.getLsbD_twoPow]

theorem getLsbD_maskOf (n : Nat) (f : Nat → Bool) {e : Nat} (he : e < 8192) :
    (maskOf n f).getLsbD e = (decide (e < n) && f e) := by
  rw [maskOf, getLsbD_twoPow_foldl f _ _ he]
  simp

theorem setBits_length_pos {h : Hart} {p : BitVec 6} : 0 < (h.setBits p).length ↔ ∃ e, e < h.nel ∧ pbit h p e = true := by
  simp [Hart.setBits, List.length_pos_iff_exists_mem]

theorem setBits_length_full {h : Hart} {p : BitVec 6} : (h.setBits p).length = h.nel ↔ ∀ e, e < h.nel → pbit h p e = true := by
  have hfull := List.length_filter_eq_length_iff (p := pbit h p) (l := List.range h.nel)
  simpa [Hart.setBits] using hfull

theorem setBits_length_le (h : Hart) (p : BitVec 6) : (h.setBits p).length ≤ h.nel := by
  simpa [Hart.setBits] using List.length_filter_le (pbit h p) (List.range h.nel)

theorem setBits_length_zero {h : Hart} {p : BitVec 6} : (h.setBits p).length = 0 ↔ ∀ e, e < h.nel → pbit h p e = false := by
  simp [Hart.setBits]

theorem setBits_length_lt {h : Hart} {p : BitVec 6} : (h.setBits p).length < h.nel ↔ ∃ e, e < h.nel ∧ pbit h p e = false := by
  have hle := setBits_length_le h p
  rw [Nat.lt_iff_le_and_ne, and_iff_right hle, Ne, setBits_length_full]
  simp

/-! ## Predicate branches (R43, R97) -/

theorem toSigned_toNat {w : Nat} (a : BitVec w) : toSigned w a.toNat = a.toInt := by
  rw [toSigned, Nat.mod_eq_of_lt a.isLt, BitVec.toInt_eq_msb_cond]
  by_cases hw : w = 0
  · subst hw
    simp [BitVec.eq_nil a]
  · have hm : a.msb = decide (2 ^ (w - 1) ≤ a.toNat) := BitVec.msb_eq_decide a
    simp [hw, hm]

theorem sextN_toNat {w : Nat} (a : BitVec w) : sextN w a.toNat = a.signExtend 64 := by
  rw [sextN, toSigned_toNat]
  rfl

theorem branchTarget_eq (pc : Word) (off : BitVec 16) : branchTarget pc off = pc + (off.signExtend 64 <<< 2) := by
  rw [branchTarget, sextN_toNat, BitVec.shiftLeft_eq_mul_twoPow, BitVec.mul_comm]
  rfl

/-- A predicate branch goes where its test on the set bits sends it, and changes nothing else. -/
theorem predBranch_completes {ps : BitVec 6} {off : BitVec 16} {test : Nat → Nat → Bool} {s : State} {taken : Bool}
    (h : test (s.hart.setBits ps).length s.hart.nel = taken) :
    finish (predBranch ps off test) s = .next (Claims.onHart s { s.hart with
      pc := if taken then s.hart.pc + (off.signExtend 64 <<< 2) else s.hart.pc + 4 }) := by
  refine finish_ok ?_
  simp only [predBranch, Op.run_bind, Op.run_getH, Op.run_ite, h, Op.run_setPc, Op.run_advance, branchTarget_eq]
  cases taken <;> rfl

/-! ## The PRED family (R330 to R337) -/

section
variable {s : State} (hj : joins .pred false s.hart) (hu : undisturbed s.hart)
include hj hu

/-- The run that every predicate instruction shares, `x` what it does in the predicate unit and `g` the hart that this leaves. -/
theorem predicate_completes {x : Op Unit} {g : Hart} (hg : g.stopAt = none)
    (hx : x.run { s with hart := joined .pred false s.hart } = .ok () { s with hart := g }) :
    dispatch (do let h ← getH; joinConvoy .pred false; vecRun .pred 0 h.nel h.pc fun _ => x) s =
      .next (Claims.onHart s (past { g with vxi := 0, skipped := [] })) := by
  have hrun := vecRun_undisturbed (unit := .pred) (step := 0) (n := s.hart.nel) (pc := s.hart.pc) (body := fun _ => x)
    hx (undisturbed_joined hu .pred false)
  refine finish_ok (Op.bind_ok (Op.bind_ok (Op.run_getH s) (Op.bind_ok (joinConvoy_joins hj) hrun)) ?_)
  simp only [Op.run_advance, past, Hart.vectorDone, hg]
  rfl

theorem predWrite_completes (pd : BitVec 6) (f : Hart → Nat → Bool) :
    dispatch (predWrite pd f) s = .next (Claims.onHart s (past { (joined .pred false s.hart).setP pd.toNat
      (maskOf s.hart.nel (f (joined .pred false s.hart))) with vxi := 0, skipped := [] })) := by
  refine predicate_completes hj hu ?_ rfl
  unfold Hart.setP
  split <;> exact hu.2

theorem predRead_completes (rd : BitVec 5) (f : Hart → Word) :
    dispatch (predRead rd f) s = .next (Claims.onHart s (past { (joined .pred false s.hart).setX rd
      (f (joined .pred false s.hart)) with vxi := 0, skipped := [] })) :=
  predicate_completes hj hu hu.2 rfl
end

/-- A predicate instruction whose unit is taken in the open convoy is an illegal instruction (R41). -/
theorem predicate_taken {s : State} (hj : ¬ joins .pred false s.hart) (y : Hart → Op Unit) :
    dispatch (do let h ← getH; joinConvoy .pred false; y h) s = .next (deliver { cause := 2 } s) :=
  finish_trap (Op.bind_error (Op.bind_ok (Op.run_getH s) (Op.bind_error (joinConvoy_taken hj))))

/-- Which instructions write a predicate, and what each computes from the hart as it stands in the convoy. -/
theorem exec_of_predicateBit {i : Instr} {s : State} {pd : BitVec 6} {f : Nat → Bool} (h : predicateBit s.hart i = some (pd, f)) :
    ∃ g : Hart → Nat → Bool, exec i s = dispatch (predWrite pd g) s ∧ g (joined .pred false s.hart) = f := by
  unfold predicateBit at h
  split at h
  case h_9 => exact absurd h (by simp)
  case h_8 c _ _ _ =>
    obtain ⟨rfl, rfl⟩ := by simpa using h
    exact ⟨_, rfl, by funext e; cases c <;> rfl⟩
  all_goals
    obtain ⟨rfl, rfl⟩ := by simpa using h
    exact ⟨_, rfl, rfl⟩

theorem exec_of_predicateRead {i : Instr} {s : State} {rd : BitVec 5} {v : Word} (h : predicateRead s.hart i = some (rd, v)) :
    ∃ g : Hart → Word, exec i s = dispatch (predRead rd g) s ∧ g (joined .pred false s.hart) = v := by
  unfold predicateRead at h
  split at h
  case h_4 => exact absurd h (by simp)
  case h_3 p =>
    obtain ⟨rfl, rfl⟩ := by simpa using h
    refine ⟨_, rfl, ?_⟩
    simp only [firstSet, ← List.head?_filter]
    rfl
  all_goals
    obtain ⟨rfl, rfl⟩ := by simpa using h
    exact ⟨_, rfl, rfl⟩

end Sys2Proof.Machine

open Sys2Proof Sys2Proof.Machine Sys2Proof.Claims

/-- Settles O25: a branch by the count of set bits that its test looks at; the PRED family by the one run that its instructions share. -/
theorem predicatesComplete : Obligations.PredicatesComplete := by
  unfold Obligations.PredicatesComplete
  refine ⟨?branches, ?writes, ?reads, ?taken⟩
  case branches =>
    intro ps off s taken i h
    rcases h with ⟨rfl, h⟩ | ⟨rfl, h⟩ | ⟨rfl, h⟩ | ⟨rfl, h⟩
    · exact predBranch_completes (by rw [Bool.eq_iff_iff, h, decide_eq_true_iff, setBits_length_pos])
    · exact predBranch_completes (by rw [Bool.eq_iff_iff, h, decide_eq_true_iff, setBits_length_full])
    · exact predBranch_completes (by rw [Bool.eq_iff_iff, h, decide_eq_true_iff, setBits_length_zero])
    · exact predBranch_completes (by rw [Bool.eq_iff_iff, h, decide_eq_true_iff, setBits_length_lt])
  case writes =>
    intro i pd f s h hj hu
    obtain ⟨g, hi, rfl⟩ := exec_of_predicateBit h
    refine ⟨_, hi.trans (predWrite_completes hj hu pd g), rfl, ?_, fun hpd e he => ?_, fun p hp => ?_⟩
    · rw [Hart.setP_eq]
      simp only [Claims.onHart, State.retire, past, Hart.retire_preds]
    · have hpd0 : pd.toNat ≠ 0 := fun h0 => hpd (BitVec.eq_of_toNat_eq h0)
      simp only [Claims.onHart, State.retire, past, Hart.retire_preds, Hart.setP_get_self _ _ hpd0, getLsbD_maskOf _ _ he]
    · simp only [Claims.onHart, State.retire, past, Hart.retire_preds]
      exact Hart.setP_get_ne _ _ (hp.imp_left (by rintro rfl; rfl))
  case reads =>
    intro i rd v s h hj hu
    obtain ⟨g, hi, rfl⟩ := exec_of_predicateRead h
    exact hi.trans (predRead_completes hj hu rd g)
  case taken =>
    intro i s h hj
    rcases h with h | h <;> obtain ⟨⟨r, f⟩, h⟩ := Option.isSome_iff_exists.mp h
    · obtain ⟨g, hi, -⟩ := exec_of_predicateBit h
      exact hi.trans (predicate_taken hj _)
    · obtain ⟨g, hi, -⟩ := exec_of_predicateRead h
      exact hi.trans (predicate_taken hj _)

end

section
/-!
SUPPORT. Table 04-13, checks 4, 6 and 7: where one of them fails, each vector instruction stops with illegal instruction before it has
changed anything (R35, R37, R41, R351).
-/

namespace Sys2Proof.Machine

open Sys2Proof.Claims

/-! ## The checks -/

/-- Checks 4, 6 and 7 pass: the register groups, the shape under the widest element, the instruction's own condition, the convoy. -/
def checksPass (s : State) (u : VUnit) (c : Bool) (regs : List (BitVec 5)) (widest : Nat) (suits : Bool) : Prop :=
  (∀ r ∈ regs, r.toNat % s.hart.grp = 0 ∧ r.toNat + s.hart.grp ≤ s.nvreg s.hart) ∧
  s.hart.nel * widest ≤ s.hart.grp * s.capC s.hart ∧ suits = true ∧ joins u c s.hart

theorem all_groupOk {s : State} {regs : List (BitVec 5)} : regs.all (groupOk (s.nvreg s.hart) s.hart.grp) = true ↔
    ∀ r ∈ regs, r.toNat % s.hart.grp = 0 ∧ r.toNat + s.hart.grp ≤ s.nvreg s.hart := by
  simp [groupOk]

/-- An operation that begins by stopping with illegal instruction, and has changed nothing. -/
def Op.refuses {α : Type} (x : Op α) (s : State) : Prop := x.run s = .error (.trap { cause := 2 }) s

theorem Op.refuses.bind {α β : Type} {x : Op α} {f : α → Op β} {s : State} (h : x.refuses s) : (x >>= f).refuses s := Op.bind_error h

theorem Op.refuses.after_getH {α : Type} {f : Hart → Op α} {s : State} (h : (f s.hart).refuses s) : (getH >>= f).refuses s :=
  Op.bind_ok (Op.run_getH s) h

theorem dispatch_refuses {x : Op Unit} {s : State} (h : x.refuses s) : dispatch x s = .next (deliver { cause := 2 } s) :=
  finish_trap h.bind

section
variable {s : State} {u : VUnit} {c : Bool} {pg : BitVec 3} {vd : BitVec 5} {regs : List (BitVec 5)} {eb widest : Nat} {suits : Hart → Bool}

theorem vecChecks_refuses (h : ¬ checksPass s u c regs widest (suits s.hart)) : (vecChecks u c regs widest suits).refuses s := by
  unfold vecChecks Op.refuses
  simp only [Op.run_bind, Op.run_get]
  by_cases hr : regs.all (groupOk (s.nvreg s.hart) s.hart.grp) = true
  · by_cases hf : (s.hart.fits (s.capC s.hart) widest && suits s.hart) = true
    · have hj : ¬ joins u c s.hart := by
        rw [Bool.and_eq_true, Hart.fits, decide_eq_true_iff] at hf
        exact fun hj => h ⟨all_groupOk.mp hr, hf.1, hf.2, hj⟩
      simp only [hr, hf, Op.run_illegalUnless_true, joinConvoy_taken hj]
    · rw [Bool.not_eq_true] at hf
      simp only [hr, hf, Op.run_illegalUnless_true, Op.run_illegalUnless_false]
  · rw [Bool.not_eq_true] at hr
    simp only [hr, Op.run_illegalUnless_false]

theorem lanewise_refuses {f : VCtx → Nat → ElemRes} (h : ¬ checksPass s u c (vd :: regs) widest (suits s.hart)) :
    (lanewise u c pg vd regs eb widest suits f).refuses s := (vecChecks_refuses h).bind

theorem wholewise_refuses {f : VCtx → Nat → ElemRes} {writes : VCtx → Nat → Bool}
    (h : ¬ checksPass s u c (vd :: regs) s.hart.eb (suits s.hart)) : (wholewise u c pg vd regs suits f writes).refuses s :=
  Op.refuses.after_getH (vecChecks_refuses h).bind
end

/-! ## The families -/

theorem vint_refuses {s : State} {v : VOp} {sg : Bool} {f : Nat → Nat → Nat → Nat × FlagSet} (h : ¬ (intLane s v sg f).passes s) :
    (vint v sg f (captureV v s.hart)).refuses s := Op.refuses.after_getH (lanewise_refuses h)

theorem vcount_refuses {s : State} {u : UOp} {f : Nat → Nat → Nat} (h : ¬ (countLane s u f).passes s) : (vcount u f).refuses s :=
  Op.refuses.after_getH (lanewise_refuses h)

theorem vfunnel_refuses {s : State} {u : UOp} {f : Nat → Nat → Nat → Nat → Nat} (h : ¬ (funnelLane s u f).passes s) :
    (vfunnel u f).refuses s := by
  refine Op.bind_ok (Op.run_get s) ?_
  by_cases hs : u.vs2.toNat + 2 * s.hart.grp ≤ s.nvreg s.hart
  · have hrest : ¬ checksPass s .vint u.c [u.vd, u.vs2, u.vs2 + BitVec.ofNat 5 s.hart.grp] s.hart.eb true :=
      fun ⟨hr, hf, _, hj⟩ => h ⟨hr, hf, decide_eq_true hs, hj⟩
    refine Op.bind_ok (a := ()) (t := s) ?_ (lanewise_refuses hrest)
    simp only [hs, decide_true, Op.run_illegalUnless_true]
  · refine Op.bind_error ?_
    simp only [hs, decide_false, Op.run_illegalUnless_false]

theorem vflt_refuses {s : State} {c : Bool} {pg : BitVec 3} {vd : BitVec 5} {regs : List (BitVec 5)} {g : VCtx → Nat → ElemRes}
    (h : ¬ checksPass s .vflt c (vd :: regs) s.hart.eb (isFloat s.hart.etype)) : (vflt c pg vd regs g).refuses s :=
  Op.refuses.after_getH (lanewise_refuses h)

theorem compare_refuses {s : State} {v : VOp} {sg : Bool} {suits : Hart → Bool} {f : VCtx → Nat → Nat → Bool × FlagSet} {c : Cap}
    (h : ¬ checksPass s .vprm v.c (v.vs2 :: srcRegs v.b) s.hart.eb (suits s.hart)) : (compare v sg suits f c).refuses s :=
  Op.refuses.after_getH (vecChecks_refuses h).bind

theorem intCompare_refuses {s : State} {v : VOp} {sg : Bool} {f : Nat → Nat → Nat → Bool} {c : Cap}
    (h : ¬ checksPass s .vprm v.c (v.vs2 :: srcRegs v.b) s.hart.eb true) : (intCompare v sg f c).refuses s :=
  compare_refuses (suits := anyType) h

theorem reduce_refuses {s : State} {u : UOp} {suits : Hart → Bool} {f : VCtx → Nat → Nat → Nat × FlagSet}
    (h : ¬ checksPass s .vprm u.c [u.vd, u.vs2] s.hart.eb (suits s.hart)) : (reduce u suits f).refuses s :=
  Op.refuses.after_getH (vecChecks_refuses h).bind

theorem exec_vintLane_illegal {i : Instr} {s : State} {L : Lane} (h : vintLane s i = some L) (hL : ¬ L.passes s) :
    exec i s = .next (deliver { cause := 2 } s) := by
  unfold vintLane at h
  split at h
  case h_17 | h_18 => cases h; exact dispatch_refuses (vcount_refuses hL)
  case h_19 | h_20 => cases h; exact dispatch_refuses (vfunnel_refuses hL)
  case h_21 => exact absurd h (by simp)
  all_goals
    cases h
    exact dispatch_refuses (vint_refuses hL)

theorem exec_vfltLane_illegal {i : Instr} {s : State} {L : Lane} (h : vfltLane s i = some L) (hL : ¬ L.passes s) :
    exec i s = .next (deliver { cause := 2 } s) := by
  unfold vfltLane at h
  split at h
  case h_17 => exact absurd h (by simp)
  all_goals
    cases h
    exact dispatch_refuses (vflt_refuses hL)

theorem exec_vprmLane_illegal {i : Instr} {s : State} {L : Lane} (h : vprmLane s i = some L) (hL : ¬ L.passes s) :
    exec i s = .next (deliver { cause := 2 } s) := by
  unfold vprmLane at h
  split at h
  case h_9 => exact absurd h (by simp)
  case h_6 | h_7 | h_8 =>
    cases h
    exact dispatch_refuses (Op.refuses.after_getH (lanewise_refuses hL))
  all_goals
    cases h
    exact dispatch_refuses (wholewise_refuses hL)

theorem exec_compareOf_illegal {i : Instr} {s : State} {v : VOp} {suits : Bool} {f : Nat → Bool × FlagSet}
    (h : compareOf s i = some (v, suits, f)) (hc : ¬ checksPass s .vprm v.c (v.vs2 :: srcRegs v.b) s.hart.eb suits) :
    exec i s = .next (deliver { cause := 2 } s) := by
  unfold compareOf at h
  split at h
  case h_7 | h_8 => cases h; exact dispatch_refuses (compare_refuses (suits := floatType) hc)
  case h_9 => exact absurd h (by simp)
  all_goals
    cases h
    exact dispatch_refuses (intCompare_refuses hc)

theorem exec_reductionOf_illegal {i : Instr} {s : State} {u : UOp} {suits : Bool} {f : Nat → Nat → Nat × FlagSet}
    (h : reductionOf s i = some (u, suits, f)) (hc : ¬ checksPass s .vprm u.c [u.vd, u.vs2] s.hart.eb suits) :
    exec i s = .next (deliver { cause := 2 } s) := by
  unfold reductionOf at h
  split at h
  case h_6 => exact absurd h (by simp)
  all_goals
    cases h
    exact dispatch_refuses (reduce_refuses hc)

theorem exec_checksOf_illegal {i : Instr} {s : State} {u : VUnit} {c : Bool} {regs : List (BitVec 5)} {suits : Bool}
    (h : checksOf s i = some (u, c, regs, suits)) (hc : ¬ checksPass s u c regs s.hart.eb suits) :
    exec i s = .next (deliver { cause := 2 } s) := by
  unfold checksOf at h
  split at h
  case h_11 =>
    split at h
    next v suits' f hv =>
      cases h
      exact exec_compareOf_illegal hv hc
    next =>
      obtain ⟨⟨v, suits', f⟩, hv, h⟩ := Option.map_eq_some_iff.mp h
      cases h
      exact exec_reductionOf_illegal hv hc
  all_goals
    cases h
    exact dispatch_refuses (Op.refuses.after_getH (vecChecks_refuses hc).bind)

end Sys2Proof.Machine

open Sys2Proof Sys2Proof.Machine Sys2Proof.Claims

/-- Settles O30: every one of these instructions runs its checks before it changes anything. -/
theorem vectorChecksRaiseIllegalInstruction : Obligations.VectorChecksRaiseIllegalInstruction := by
  unfold Obligations.VectorChecksRaiseIllegalInstruction
  refine ⟨fun i s L h hL => ?_, fun i s u c regs suits h hc => exec_checksOf_illegal h hc⟩
  rcases h with h | h | h
  · exact exec_vintLane_illegal h hL
  · exact exec_vfltLane_illegal h hL
  · exact exec_vprmLane_illegal h hL

end

section
/-!
SUPPORT. Writes of the CSRs that have a row of their own: what a CSR instruction does once its access is allowed, and each write
(R4, R8, R41, R123, R127 to R129, R184, R383).
-/

namespace Sys2Proof.Machine

open Sys2Proof.Claims

/-! ## A CSR instruction -/

section
variable {a : Nat} {acc : CsrAcc} {s : State}

theorem csrInstr_denied (h : csrAllowed s a true = false) : (csrInstr a acc).refuses s := by
  refine Op.bind_ok (Op.run_get s) (Op.bind_error ?_)
  rw [h, Op.run_illegalUnless_false]

/-- An allowed CSR instruction goes as its write goes (Zicsr). -/
theorem csrInstr_run (h : csrAllowed s a true = true) (hv : scalarCsrOk a (newValue s a acc) = true) :
    (csrInstr a acc).run s = match (csrWrite a (newValue s a acc)).run s with
      | .ok _ t => .ok () { t with hart := past (t.hart.setX acc.rd ((csrValue s a).getD 0)) }
      | .error e t => .error e t := by
  unfold newValue at hv ⊢
  simp only [csrInstr, Op.run_bind, Op.run_get, h, hv, Op.run_illegalUnless_true]
  cases (csrWrite a (csrNew acc.op ((csrValue s a).getD 0) (csrSrcValue s.hart acc.src))).run s <;> rfl

theorem csrInstr_ok {t : State} (h : csrAllowed s a true = true) (hv : scalarCsrOk a (newValue s a acc) = true)
    (hw : (csrWrite a (newValue s a acc)).run s = .ok () t) :
    finish (csrInstr a acc) s = .next ({ t with hart := past (t.hart.setX acc.rd ((csrValue s a).getD 0)) } : State).retire :=
  finish_ok (by rw [csrInstr_run h hv, hw])

theorem csrInstr_waits {t : State} (h : csrAllowed s a true = true) (hv : scalarCsrOk a (newValue s a acc) = true)
    (hw : (csrWrite a (newValue s a acc)).run s = .error .wait t) : finish (csrInstr a acc) s = .next t :=
  finish_wait (by rw [csrInstr_run h hv, hw])

theorem csrInstr_illegal (h : csrAllowed s a true = true) (hv : scalarCsrOk a (newValue s a acc) = true)
    (hw : (csrWrite a (newValue s a acc)).refuses s) : finish (csrInstr a acc) s = .next (deliver { cause := 2 } s) :=
  finish_trap (by rw [csrInstr_run h hv, hw])
end

/-- An operation behind a check that fails. -/
theorem Op.refuses_illegalUnless {b : Bool} {f : Unit → Op Unit} {s : State} (h : b = false) : (illegalUnless b >>= f).refuses s :=
  Op.bind_error (by rw [h, Op.run_illegalUnless_false])

/-! ## Access -/

/-- Code of either mode writes the unprivileged CSRs of Table 04-15 that are not read-only (R8, R104). -/
theorem csrAllowed_vector {s : State} {a : Nat} (h1 : 0x800 ≤ a) (h2 : a < 0x820) (hro : csrReadOnly s.hart.mode a = false)
    (hv : (csrValue s a).isSome = true) : csrAllowed s a true = true := by
  have hpriv : ¬ (0x7C0 ≤ a ∧ a ≤ 0x7C2) := by omega
  have hctr : ¬ (0xC00 ≤ a ∧ a < 0xC20) := by omega
  have hmode : a / 256 % 4 = 0 := by omega
  unfold csrAllowed
  simp only [hv, hro, hpriv, hctr, hmode, if_false, decide_true, Bool.and_false, Bool.not_false, show 3 < a by omega, Bool.or_true,
    Bool.true_or, Bool.and_true, Bool.true_and]
  cases s.hart.mode <;> rfl

section
variable {acc : CsrAcc} {s : State}

/-- What makes each of the vector unit's own rows an allowed access. -/
theorem csrAllowed_row {a : Nat} (ha : a = 0x800 ∨ a = 0x801 ∨ a = 0x805) : csrAllowed s a true = true := by
  rcases ha with rfl | rfl | rfl <;> exact csrAllowed_vector (by omega) (by omega) rfl rfl

theorem csrAllowed_vxi (hm : s.hart.mode = .m) : csrAllowed s 0x802 true = true := by
  refine csrAllowed_vector (by omega) (by omega) ?_ rfl
  rw [hm]
  rfl

theorem csrAllowed_vxi_user (hm : s.hart.mode = .u) : csrAllowed s 0x802 true = false := by
  have hro : csrReadOnly s.hart.mode 0x802 = true := by
    rw [hm]
    rfl
  simp [csrAllowed, hro]
end

/-! ## VTYPE and MFC -/

/-- A mask leaves a field that it covers. -/
theorem bits_and {w : Nat} (v m : BitVec w) {lo len : Nat} (hm : ∀ i, i < len → m.getLsbD (lo + i) = true) :
    bits (v &&& m) lo len = bits v lo len := by
  refine Nat.eq_of_testBit_eq fun i => ?_
  simp only [bits, BitVec.toNat_and, Nat.testBit_mod_two_pow, Nat.testBit_div_two_pow, Nat.testBit_and]
  by_cases hi : i < len
  · have := hm i hi
    rw [Nat.add_comm, BitVec.getLsbD] at this
    simp [hi, this]
  · simp [hi]

section
variable {v : Word} {s : State}

theorem undefMasks_run (s : State) :
    undefMasks.run s = .ok () { s with freeCtr := s.freeCtr + 1, hart := { s.hart with masks := .undef s.freeCtr } } := rfl

theorem writeVtype_refuses (h : vtypeOk v = false) : (writeVtype v).refuses s := Op.refuses_illegalUnless h

/-- BLK and GRP of a value are those of VTYPE: the write leaves the masks (R383). -/
def keepsBlocks (h : Hart) (v : Word) : Prop := bits v 6 4 = h.blkLog ∧ bits v 0 2 = bits h.vtype 0 2

theorem writeVtype_run (h : vtypeOk v = true) (s : State) : ∃ m k,
    (writeVtype v).run s = .ok () { s with
      freeCtr := k, hart := { s.hart with vtype := v &&& 0x1FDF#64, freshConvoy := true, masks := m } } ∧
    (keepsBlocks s.hart v → m = s.hart.masks) ∧ (¬ keepsBlocks s.hart v → m = .undef s.freeCtr) := by
  have hblk : bits (v &&& 0x1FDF#64) 6 4 = bits v 6 4 := bits_and _ _ (by decide)
  have hgrp : bits (v &&& 0x1FDF#64) 0 2 = bits v 0 2 := bits_and _ _ (by decide)
  unfold writeVtype
  simp only [Op.run_bind, h, Op.run_illegalUnless_true, Op.run_getH, Op.run_modH, Op.run_ite, hblk, hgrp, Op.run_pure]
  by_cases hk : keepsBlocks s.hart v
  · refine ⟨s.hart.masks, s.freeCtr, ?_, fun _ => rfl, fun hn => absurd hk hn⟩
    rw [if_neg (by obtain ⟨h1, h2⟩ := hk; simp [h1, h2])]
  · refine ⟨.undef s.freeCtr, s.freeCtr + 1, ?_, fun hy => absurd hy hk, fun _ => rfl⟩
    rw [if_pos (by unfold keepsBlocks at hk; omega), undefMasks_run]

theorem writeMfc_refuses (h : bits v 0 3 = 3) : (writeMfc v).refuses s := Op.refuses_illegalUnless (by simp [h])

theorem writeMfc_run (h : bits v 0 3 ≠ 3) :
    (writeMfc v).run s = .ok () { s with hart := { s.hart with mfc := v &&& 0x1FFF#64, freshConvoy := true } } :=
  Op.bind_ok (by rw [decide_eq_true h]; exact Op.run_illegalUnless_true s) rfl
end

theorem vtypeAndMfcWritesComplete : VtypeAndMfcWritesComplete := by
  have hvt : ∀ s : State, csrAllowed s 0x800 true = true := fun s => csrAllowed_row (by omega)
  have hmf : ∀ s : State, csrAllowed s 0x801 true = true := fun s => csrAllowed_row (by omega)
  refine ⟨fun acc s h => ?_, fun acc s h => csrInstr_illegal (hvt s) rfl (writeVtype_refuses h),
    fun acc s h => csrInstr_ok (hmf s) rfl (writeMfc_run h), fun acc s h => csrInstr_illegal (hmf s) rfl (writeMfc_refuses h)⟩
  obtain ⟨m, k, hrun, hkeep, hchange⟩ := writeVtype_run h s
  refine ⟨_, csrInstr_ok (hvt s) rfl hrun, rfl, ?_, ?_, ?_⟩
  · simp only [State.retire, Hart.retire_masks]
    rfl
  · exact fun hk => (Hart.retire_masks _).trans (hkeep hk)
  · exact fun hk => (Hart.retire_masks _).trans (hchange hk)

/-! ## VXI (R184) -/

theorem writeVxi_refuses {v : Word} {s : State} (h : s.hart.nel < v.toNat) : (writeVxi v).refuses s :=
  Op.refuses.after_getH (Op.refuses_illegalUnless (by simp [h]))

theorem writeVxi_run {v : Word} {s : State} (h : v.toNat ≤ s.hart.nel) :
    (writeVxi v).run s = .ok () { s with hart := { s.hart with
      vxi := v.toNat
      skipped := if v.toNat = s.hart.vxi then s.hart.skipped
        else (min v.toNat s.hart.vxi, max v.toNat s.hart.vxi) :: s.hart.skipped } } :=
  Op.bind_ok (Op.run_getH s) (Op.bind_ok (by rw [decide_eq_true h]; exact Op.run_illegalUnless_true s) rfl)

theorem vxiWritesComplete : VxiWritesComplete := by
  refine fun acc s => ⟨fun hm h => ?_, fun hm h => csrInstr_illegal (csrAllowed_vxi hm) rfl (writeVxi_refuses h),
    fun hm => finish_trap (csrInstr_denied (csrAllowed_vxi_user hm))⟩
  refine ⟨_, csrInstr_ok (csrAllowed_vxi hm) rfl (writeVxi_run h), ?_, rfl, ?_, ?_⟩
  · simp only [State.retire, Hart.retire_vxi]
    rfl
  · simp only [State.retire, Hart.retire_skipped]
    rfl
  · simp only [State.retire, Hart.retire_skipped]
    intro lo hi hmem
    change (lo, hi) ∈ ite _ _ _ at hmem
    split at hmem
    · exact .inl hmem
    · rcases List.mem_cons.mp hmem with heq | hmem
      · exact .inr (by simpa using heq)
      · exact .inl hmem

/-! ## VVALID (R123) -/

theorem writeVvalid_hidden {s : State} (h : s.hart.vvselOk (s.nvreg s.hart) = false) (v : Word) : (writeVvalid v).run s = .ok () s := by
  simp [writeVvalid, h]

/-- A mask with its low bits replaced. -/
def replaceLow (m v : BitVec 64) (n : Nat) : BitVec 64 := BitVec.ofNat 64 (m.toNat / 2 ^ n * 2 ^ n + v.toNat % 2 ^ n)

theorem getLsbD_replaceLow (m v : BitVec 64) (n : Nat) {i : Nat} (hi : i < 64) :
    (replaceLow m v n).getLsbD i = if i < n then v.getLsbD i else m.getLsbD i := by
  rw [replaceLow, BitVec.getLsbD_ofNat, Nat.mul_comm, Nat.testBit_two_pow_mul_add _ (Nat.mod_lt _ (Nat.two_pow_pos n))]
  simp only [hi, decide_true, Bool.true_and, Nat.testBit_mod_two_pow, Nat.testBit_div_two_pow, BitVec.getLsbD]
  by_cases hn : i < n
  · simp [hn]
  · simp [hn, Nat.sub_add_cancel (Nat.not_lt.mp hn)]

theorem writeVvalid_shown {s : State} (h : s.hart.vvselOk (s.nvreg s.hart) = true) (v : Word) :
    (writeVvalid v).run s = .ok () { s with hart := { s.hart with
      masks := s.hart.masks.set (bits s.hart.vvsel 0 5) (replaceLow (s.hart.masks.get (bits s.hart.vvsel 0 5)) v s.hart.nblk) } } := by
  simp only [writeVvalid, Op.run_bind, Op.run_get, h, if_true, Op.run_modH]
  rfl

theorem vvalidShowsAndReplacesTheMask : VvalidShowsAndReplacesTheMask := by
  intro acc s
  have ha : csrAllowed s 0x805 true = true := csrAllowed_row (by omega)
  refine ⟨fun h => ⟨if_pos h, replaceLow _ _ _, (csrInstr_ok ha rfl (writeVvalid_shown h _)).trans ?_,
    fun i hi => getLsbD_replaceLow _ _ _ hi⟩, fun h => ?_⟩
  · rw [show (csrValue s 0x805).getD 0 = vvalid s from rfl]
    rfl
  have hz : vvalid s = 0 := if_neg (by simp [h])
  refine ⟨hz, (csrInstr_ok ha rfl (writeVvalid_hidden h _)).trans ?_⟩
  rw [show (csrValue s 0x805).getD 0 = 0 from hz]
  rfl

/-! ## The bond registers (Table 14-4) -/

theorem writeBd_refuses {n : Nat} {v : Word} {s : State} (h : ¬ (1 ≤ bits v 0 13 ∧ bits v 0 13 ≤ 4096)) : (writeBd n v).refuses s :=
  Op.refuses_illegalUnless (by simpa using h)

theorem writeBd_run {n : Nat} {v : Word} {s : State} (h : 1 ≤ bits v 0 13 ∧ bits v 0 13 ≤ 4096) :
    (writeBd n v).run s = .ok () { s with hart := { s.hart with bd := s.hart.bd.set n (v.setWidth 13) } } := by
  have hd : BitVec.ofNat 13 (bits v 0 13) = v.setWidth 13 := BitVec.eq_of_toNat_eq (by simp [bits])
  simp only [writeBd, Op.run_bind, show (decide (1 ≤ bits v 0 13) && decide (bits v 0 13 ≤ 4096)) = true by simpa using h,
    Op.run_illegalUnless_true, Op.run_modH, hd]

/-- The sixteen registers stand at 0x810 to 0x81F. -/
theorem csr_bd (n : BitVec 4) (s : State) : csrAllowed s (0x810 + n.toNat) true = true ∧
    csrValue s (0x810 + n.toNat) = some ((s.hart.bd.getD n.toNat 1).setWidth 64) ∧
    (∀ v, scalarCsrOk (0x810 + n.toNat) v = true) ∧ ∀ v, csrWrite (0x810 + n.toNat) v = writeBd n.toNat v := by
  have hn := n.isLt
  have hval : csrValue s (0x810 + n.toNat) = some ((s.hart.bd.getD n.toNat 1).setWidth 64) := by
    generalize n.toNat = k at hn
    interval_cases k <;> rfl
  refine ⟨csrAllowed_vector (by omega) (by omega) ?_ (by rw [hval]; rfl), hval, fun v => ?_, fun v => ?_⟩
  all_goals
    generalize n.toNat = k at hn
    interval_cases k <;> rfl

theorem bdWritesComplete : BdWritesComplete := by
  intro n acc s
  obtain ⟨hallow, hval, hok, hwrite⟩ := csr_bd n s
  constructor
  · intro h
    refine (csrInstr_ok hallow (hok _) (by rw [hwrite]; exact writeBd_run h)).trans ?_
    rw [hval]
    rfl
  · exact fun h => csrInstr_illegal hallow (hok _) (by rw [hwrite]; exact writeBd_refuses h)

/-! ## The pool boundaries (R127 to R129) -/

section
variable {v c sp vm : Nat} {s : State}

theorem writeBoundaries_refuses (h : ¬ (1 ≤ c ∧ v + c + sp ≤ 64 ∧ v ≤ vm ∧ vm ≤ 63)) : (writeBoundaries v c sp vm).refuses s :=
  Op.refuses_illegalUnless (by simpa [boundariesOk, and_assoc] using h)

theorem boundariesOk_of (h : 1 ≤ c ∧ v + c + sp ≤ 64 ∧ v ≤ vm ∧ vm ≤ 63) : boundariesOk v c sp vm = true := by
  simpa [boundariesOk, and_assoc] using h

theorem writeBoundaries_waits (h : 1 ≤ c ∧ v + c + sp ≤ 64 ∧ v ≤ vm ∧ vm ≤ 63) (hb : s.coreBusy s.hart = true) :
    (writeBoundaries v c sp vm).run s = .error .wait { s with hart := { s.hart with boundaryWait := true } } := by
  simp only [writeBoundaries, boundariesOk_of h, Op.run_bind, Op.run_illegalUnless_true, Op.run_get, Op.run_modH, hb, Bool.not_true,
    Op.run_waitFor_false]

/-- The hart after its boundaries have moved, blocks that left the core scratchpad dropped (R129). -/
def boundariesSet (v c sp vm : Nat) (h : Hart) : Hart := { h with
  boundaryWait := false, poolv := BitVec.ofNat 64 (v + 256 * vm), poolc := BitVec.ofNat 64 c, pools := BitVec.ofNat 64 sp
  pool := if sp = h.sbanks then h.pool else h.pool.filter fun p => (64 - min h.sbanks sp) * 64 ≤ p.1 }

/-- And, where V changed, its vector state has become the draw `k` (R129). -/
def boundariesMoved (v c sp vm k : Nat) (h : Hart) : Hart :=
  if v = h.vbanks then boundariesSet v c sp vm h
  else { boundariesSet v c sp vm h with vregs := .undef k, preds := .undef k, sf := .undef k, masks := .undef k }

theorem writeBoundaries_run (h : 1 ≤ c ∧ v + c + sp ≤ 64 ∧ v ≤ vm ∧ vm ≤ 63) (hb : s.coreBusy s.hart = false) :
    (writeBoundaries v c sp vm).run s = .ok () { s with
      freeCtr := if v = s.hart.vbanks then s.freeCtr else s.freeCtr + 1
      hart := boundariesMoved v c sp vm s.freeCtr s.hart } := by
  unfold writeBoundaries setBoundaries undefVector
  simp only [boundariesOk_of h, Op.run_bind, Op.run_illegalUnless_true, Op.run_get, Op.run_getH, Op.run_modH, hb, Bool.not_false,
    Op.run_waitFor_true, Op.run_ite, Op.run_draw, Op.run_pure, boundariesMoved, Nat.mul_comm vm 256]
  by_cases hv : v = s.hart.vbanks
  · refine (if_neg (not_not_intro hv)).trans ?_
    rw [if_pos hv, if_pos hv]
    rfl
  · refine (if_pos hv).trans ?_
    rw [if_neg hv, if_neg hv]
    rfl
end

/-- What a write of POOLV, POOLS or POOLC proposes: V, C, S and VMAX, three of the four as they stand (R127). -/
def proposed (k : BitVec 2) (w : Word) (h : Hart) : Nat × Nat × Nat × Nat :=
  (if k = 0 then bits w 0 7 else h.vbanks, if k = 2 then bits w 0 7 else h.cbanks, if k = 1 then bits w 0 7 else h.sbanks,
    if k = 0 then bits w 8 7 else h.vmax)

/-- The three boundary registers stand at 0x7C0 to 0x7C2. -/
theorem csr_pool {k : BitVec 2} (hk : k ≠ 3) (s : State) :
    csrAllowed s (0x7C0 + k.toNat) true = (decide (s.hart.mode = .m) || s.flag s.hart 1) ∧
    csrValue s (0x7C0 + k.toNat) = some (if k = 0 then s.hart.poolv else if k = 1 then s.hart.pools else s.hart.poolc) ∧
    (∀ v, scalarCsrOk (0x7C0 + k.toNat) v = true) ∧
    ∀ w, (csrWrite (0x7C0 + k.toNat) w).run s = let (v, c, sp, vm) := proposed k w s.hart; (writeBoundaries v c sp vm).run s := by
  have hcases : k = 0 ∨ k = 1 ∨ k = 2 := by
    revert hk
    revert k
    decide
  rcases hcases with rfl | rfl | rfl
  all_goals
    refine ⟨?_, rfl, fun _ => rfl, fun _ => rfl⟩
    cases hm : s.hart.mode <;> simp [csrAllowed, csrReadOnly, csrValue, hm]

section
variable (v c sp vm k : Nat) (h : Hart)

@[simp] theorem boundariesMoved_poolv : (boundariesMoved v c sp vm k h).poolv = BitVec.ofNat 64 (v + 256 * vm) := by
  unfold boundariesMoved
  split <;> rfl
@[simp] theorem boundariesMoved_pools : (boundariesMoved v c sp vm k h).pools = BitVec.ofNat 64 sp := by
  unfold boundariesMoved
  split <;> rfl
@[simp] theorem boundariesMoved_poolc : (boundariesMoved v c sp vm k h).poolc = BitVec.ofNat 64 c := by
  unfold boundariesMoved
  split <;> rfl
@[simp] theorem boundariesMoved_pool : (boundariesMoved v c sp vm k h).pool =
    if sp = h.sbanks then h.pool else h.pool.filter fun p => (64 - min h.sbanks sp) * 64 ≤ p.1 := by
  unfold boundariesMoved
  split <;> rfl
end

/-- Where V stays, so does the vector state; where it moves, all of it is undefined (R129). -/
theorem boundariesMoved_vector (v c sp vm k : Nat) (h : Hart) :
    let g := boundariesMoved v c sp vm k h
    (v = h.vbanks → g.vregs = h.vregs ∧ g.preds = h.preds ∧ g.sf = h.sf ∧ g.masks = h.masks) ∧
    (v ≠ h.vbanks → g.vregs = .undef k ∧ g.preds = .undef k ∧ g.sf = .undef k ∧ g.masks = .undef k) := by
  refine ⟨fun hv => ?_, fun hv => ?_⟩
  · rw [boundariesMoved, if_pos hv]
    exact ⟨rfl, rfl, rfl, rfl⟩
  · rw [boundariesMoved, if_neg hv]
    exact ⟨rfl, rfl, rfl, rfl⟩

theorem boundariesMoved_eq (v c sp vm k : Nat) (h : Hart) : boundariesMoved v c sp vm k h = { h with
    poolv := (boundariesMoved v c sp vm k h).poolv, pools := (boundariesMoved v c sp vm k h).pools
    poolc := (boundariesMoved v c sp vm k h).poolc, pool := (boundariesMoved v c sp vm k h).pool
    vregs := (boundariesMoved v c sp vm k h).vregs, preds := (boundariesMoved v c sp vm k h).preds
    sf := (boundariesMoved v c sp vm k h).sf, masks := (boundariesMoved v c sp vm k h).masks, boundaryWait := false } := by
  unfold boundariesMoved
  split <;> rfl

theorem poolBoundaryWritesComplete : PoolBoundaryWritesComplete := by
  intro k acc s hk w v vm sp c old
  obtain ⟨hallow, hval, hok, hwrite⟩ := csr_pool hk s
  have hrun : (csrWrite (0x7C0 + k.toNat) w).run s = (writeBoundaries v c sp vm).run s := hwrite w
  have hopen : s.hart.mode = .m ∨ s.flag s.hart 1 = true → csrAllowed s (0x7C0 + k.toNat) true = true := by
    intro h
    rw [hallow]
    simpa using h
  refine ⟨fun hm h1 h2 h3 h4 hb => ?moved, fun hm h1 h2 h3 h4 hb => ?waits, fun hm h => ?refused, fun hm hf => ?denied⟩
  case waits =>
    exact csrInstr_waits (hopen hm) (hok _) (hrun.trans (writeBoundaries_waits ⟨h1, h2, h3, h4⟩ hb))
  case refused => exact csrInstr_illegal (hopen hm) (hok _) (hrun.trans (writeBoundaries_refuses h))
  case denied =>
    refine finish_trap (csrInstr_denied ?_)
    rw [hallow, hm, hf]
    rfl
  case moved =>
    have hmoved := csrInstr_ok (hopen hm) (hok _) (hrun.trans (writeBoundaries_run ⟨h1, h2, h3, h4⟩ hb))
    rw [hval] at hmoved
    have hvector := boundariesMoved_vector v c sp vm s.freeCtr s.hart
    refine ⟨_, hmoved, rfl, ?_, ?_, ?_, ?_, fun hv => ?_, fun hv => ?_, ?_⟩
    all_goals simp only [State.retire, Hart.retire_poolv, Hart.retire_pools, Hart.retire_poolc, Hart.retire_pool, Hart.retire_vregs,
      Hart.retire_preds, Hart.retire_sf, Hart.retire_masks]
    · exact congrArg (fun g : Hart => (past (g.setX acc.rd old)).retire) (boundariesMoved_eq v c sp vm s.freeCtr s.hart)
    · exact boundariesMoved_poolv ..
    · exact boundariesMoved_pools ..
    · exact boundariesMoved_poolc ..
    · obtain ⟨hvregs, hpreds, hsf, hmasks⟩ := hvector.1 hv
      exact ⟨hvregs, hpreds, hsf, hmasks, if_pos hv⟩
    · exact hvector.2 hv
    · exact boundariesMoved_pool ..

end Sys2Proof.Machine

open Sys2Proof Sys2Proof.Machine Sys2Proof.Claims

/-- Settles O19: each register's write, behind the access that its row has. -/
theorem vectorRegisterWritesComplete : Obligations.VectorRegisterWritesComplete :=
  ⟨vtypeAndMfcWritesComplete, vxiWritesComplete, vvalidShowsAndReplacesTheMask, bdWritesComplete, poolBoundaryWritesComplete⟩

end

section
/-!
SUPPORT. Clauses: what CLAUSE captures, how the words of a pass run, the pass that a step makes, and CLPUT and CLWAIT
(R44 to R49, R310 to R314).
-/

namespace Sys2Proof.Machine

open Sys2Proof.Claims

/-! ## CLAUSE -/

/-- A word whose base moves by its own arithmetic, and not by what a pass can advance (R45). -/
def fixedBase (i : Instr) : Bool :=
  match mopOf i with
  | some m => (match m.mode with | .ix _ | .td _ => true | _ => false)
  | none => false

theorem fixedBase_iff {i : Instr} : fixedBase i = true ↔ ∃ m, mopOf i = some m ∧ ((∃ v, m.mode = .ix v) ∨ ∃ n, m.mode = .td n) := by
  unfold fixedBase
  cases mopOf i with
  | none => simp
  | some m => cases hm : m.mode <;> simp [hm]

theorem badAdvance_iff {mask : Word} {is : List Instr} : badAdvance mask is = true ↔ advanceMisplaced mask is := by
  have hany : badAdvance mask is = is.zipIdx.any fun (i, k) => bitAt mask k && fixedBase i := rfl
  simp only [hany, List.any_eq_true, Prod.exists, List.mem_zipIdx_iff_getElem?, Bool.and_eq_true, fixedBase_iff, advanceMisplaced]
  constructor
  · rintro ⟨i, k, hi, hk, m, hm, hmode⟩
    exact ⟨k, i, m, hi, hm, hk, hmode⟩
  · rintro ⟨k, i, m, hi, hm, hk, hmode⟩
    exact ⟨i, k, hi, hk, m, hm, hmode⟩

section
variable {xm xt nm1 : BitVec 5} {s u : State} {os : List (ClauseOp × Instr)}
  (hcap : (captureWords s.hart.pc (nm1.toNat + 1) 0).run s = .ok os u)
include hcap

theorem clauseOp_misplaced (hbad : advanceMisplaced (s.hart.xr xm) (os.map (·.2))) :
    (clauseOp xm xt nm1).run s = .error (.trap { cause := 2 }) u :=
  Op.bind_ok (Op.run_getH s) (Op.bind_ok hcap (Op.refuses_illegalUnless (by rw [badAdvance_iff.mpr hbad]; rfl)))

theorem clauseOp_captured (hx : u.hart.x = s.hart.x) (hpc : u.hart.pc = s.hart.pc)
    (hok : ¬ advanceMisplaced (s.hart.xr xm) (os.map (·.2))) :
    (clauseOp xm xt nm1).run s = .ok () { u with hart := { u.hart with
      clause := some (.mk (s.hart.pc + 4) (os.map (·.1)) (s.hart.xr xm) (bits (s.hart.xr xt) 0 32) 0 0 false [] none u.hart.mode
        u.hart.mode false)
      freshConvoy := decide (bits (s.hart.xr xt) 0 32 = 0)
      pc := s.hart.pc + 4 + BitVec.ofNat 64 (4 * (nm1.toNat + 1)) } } := by
  have hxr : ∀ r, s.hart.xr r = u.hart.xr r := fun r => by rw [Hart.xr, Hart.xr, hx]
  have hgood : badAdvance (s.hart.xr xm) (os.map (·.2)) = false := by
    rw [← Bool.not_eq_true, badAdvance_iff]
    exact hok
  refine Op.bind_ok (Op.run_getH s) (Op.bind_ok hcap (Op.bind_ok (a := ()) (t := u) ?_ ?_))
  · rw [hgood]
    exact Op.run_illegalUnless_true u
  · rw [hxr, hxr, ← hpc]
    rfl
end

section
variable {cp va : Word} {s u : State} {bs rest : List Byte} {i : Instr}

theorem captureWord_fetched (h : (fetchAt (s.fetchAccess s.hart.mode s.hart) va).run s = .ok bs u) (hd : decode bs = .ok (i, rest)) :
    (captureWord cp va).run s =
      if bs.length = 4 ∧ (vbody i).isSome = true ∧ check4 (u.nvreg u.hart) u.hart.grp i = true then
        .ok (.mk (irOf bs) (captureOf i u.hart).a (captureOf i u.hart).b, i) u
      else .error (.trap { cause := 2, word := some (irOf bs), pc := some va }) u := by
  simp only [captureWord, Op.run_bind, Op.run_get, Op.run_tryCatch, h, hd, Op.run_ite, Op.run_raise, Op.run_pure]
  rw [← ite_not]
  refine if_congr ?_ rfl rfl
  simp only [Option.isNone_iff_eq_none, Option.isSome_iff_ne_none, not_or, not_not, Bool.not_eq_true', Bool.not_eq_false, ne_eq]

theorem captureWord_undefined {r : Reject} (h : (fetchAt (s.fetchAccess s.hart.mode s.hart) va).run s = .ok bs u)
    (hd : decode bs = .error r) :
    (captureWord cp va).run s = .error (.trap { cause := 2, word := some (irOf bs), pc := some va }) u := by
  simp only [captureWord, Op.run_bind, Op.run_get, Op.run_tryCatch, h, hd, Op.run_raise]

theorem captureWord_unfetched {tr : Trap} (h : (fetchAt (s.fetchAccess s.hart.mode s.hart) va).run s = .error (.trap tr) u) :
    (captureWord cp va).run s = .error (.trap (if tr.cause = 25 then { tr with pc := some va }
      else { tr with pc := some cp, addr := some va })) u := by
  simp only [captureWord, Op.run_bind, Op.run_get, Op.run_tryCatch, h, Op.run_ite, Op.run_raise]
  by_cases hc : tr.cause = 25 <;> simp only [hc, if_true, if_false]
end

/-- A body word has the effect that its instruction has from the scalar core (R46). -/
theorem exec_vbody {i : Instr} {f : Cap → Op Unit} (h : vbody i = some f) (s : State) :
    exec i s = dispatch (f (captureOf i s.hart)) s := by
  unfold vbody at h
  split at h
  case h_76 => exact absurd h (by simp)
  all_goals
    cases h
    rfl

theorem clauseCaptures : ClauseCaptures := by
  refine ⟨fun xm xt nm1 s u os hcap hx hpc => ⟨fun hok => finish_ok (clauseOp_captured hcap hx hpc hok),
      fun hbad => finish_trap (clauseOp_misplaced hcap hbad)⟩,
    fun xm xt nm1 s u tr h => finish_trap (Op.bind_ok (Op.run_getH s) (Op.bind_error h)),
    fun pc n k s => ⟨rfl, fun o u ho => ⟨fun os v hos => Op.bind_ok ho (Op.bind_ok hos rfl),
      fun e v he => Op.bind_ok ho (Op.bind_error he)⟩⟩,
    fun pc n k s e u he => Op.bind_error he, fun cp va s u bs i rest => captureWord_fetched,
    fun cp va s u bs r => captureWord_undefined, fun cp va s u tr => captureWord_unfetched, fun i f s h => exec_vbody h s⟩

/-! ## The words of a pass -/

/-- Table 02-4: the model's advance of a base is the table's. -/
theorem advanceOf_eq (h : Hart) (i : Instr) (a b : Word) : advanceOf h i { a := a, b := b } = baseAdvance h b i := by
  cases i <;> rfl

/-- A body word runs as its instruction does on the captured operands, and then its base advances (R46, R312). -/
theorem bodyWord_run {c : Clause} {o : ClauseOp} {k : Nat} {i : Instr} {f : Cap → Op Unit} (hd : decodeWordOf o.word = some i)
    (hf : vbody i = some f) (s : State) :
    (bodyWord c o k).run s = match (f (.mk o.a o.b)).run (atWord c o k s) with
      | .ok _ u => .ok () (wordDone c o i k u)
      | .error e u => .error e u := by
  simp only [bodyWord, hd, hf]
  rw [Op.run_bind, Op.run_modH]
  change (f (.mk o.a o.b) >>= _).run (atWord c o k s) = _
  rw [Op.run_bind]
  cases (f (.mk o.a o.b)).run (atWord c o k s) with
  | error e u => rfl
  | ok a u =>
    refine congrArg (EStateM.Result.ok ()) ?_
    unfold wordDone
    rw [← advanceOf_eq u.hart i o.a o.b]

theorem bodyFrom_ok {c : Clause} {os : List ClauseOp} : ∀ {k : Nat} {s t : State}, wordsRun c os k s t →
    (bodyFrom c os k).run s = .ok () t := by
  induction os with
  | nil =>
    rintro k s t rfl
    rfl
  | cons o os ih =>
    rintro k s t ⟨i, f, u, hd, hf, hu, hrest⟩
    exact Op.bind_ok (by rw [bodyWord_run hd hf, hu]) (ih hrest)

/-- Words run up to one that stops: the pass stops there, in the state that this leaves. -/
theorem bodyFrom_error {c : Clause} {o : ClauseOp} {os : List ClauseOp} {e : Stop} {u : State} {done : List ClauseOp} :
    ∀ {k : Nat} {s v : State}, wordsRun c done k s v → (bodyWord c o (k + done.length)).run v = .error e u →
      (bodyFrom c (done ++ o :: os) k).run s = .error e u := by
  induction done with
  | nil =>
    rintro k s v rfl h
    exact Op.bind_error h
  | cons p done ih =>
    rintro k s v ⟨i, f, w, hd, hf, hw, hrest⟩ h
    refine Op.bind_ok (by rw [bodyWord_run hd hf, hw]) (ih hrest ?_)
    rwa [List.length_cons, Nat.add_comm done.length, ← Nat.add_assoc] at h

/-! ## A pass -/

/-- What of the environment's mismatches a pass in mode `m'` leaves for later (DESIGN CHOICE log 48). -/
def heldUpsets (m' : Mode) (h : Hart) : List Upset := if h.mode = m' then [] else h.upsets

/-- The state in which words run in mode `m'`. -/
def inModeState (m' : Mode) (s : State) : State :=
  { s with hart := { s.hart with mode := m', upsets := if s.hart.mode = m' then s.hart.upsets else [] } }

/-- The state after them, in the mode of `s` again. -/
def outOfMode (m' : Mode) (s t : State) : State := { t with hart := Hart.backTo s.hart.mode (heldUpsets m' s.hart) t.hart }

theorem inMode_ok {m' : Mode} {x : Op Unit} {s t : State} (h : x.run (inModeState m' s) = .ok () t) :
    (inMode m' x).run s = .ok () (outOfMode m' s t) := by
  exact Op.bind_ok (Op.run_getH s) (Op.bind_ok (Op.run_modH _ s) (Op.bind_ok (Op.tryCatch_ok h) rfl))

theorem inMode_error {m' : Mode} {x : Op Unit} {s t : State} {e : Stop} (h : x.run (inModeState m' s) = .error e t) :
    (inMode m' x).run s = .error e (outOfMode m' s t) := by
  exact Op.bind_ok (Op.run_getH s) (Op.bind_ok (Op.run_modH _ s) (Op.bind_error (Op.tryCatch_error h rfl)))

theorem outOfMode_eq_backFrom (c : Clause) (s t : State) : outOfMode c.mode s t = backFrom c s t := by
  unfold outOfMode backFrom Hart.backTo heldUpsets
  by_cases hm : s.hart.mode = c.mode
  · simp only [if_pos hm, List.nil_append]
  · simp only [if_neg hm]

@[simp] theorem passClause_mode (c : Clause) : (passClause c).mode = c.mode := by
  unfold passClause
  split <;> rfl

@[simp] theorem passClause_cur (c : Clause) : (passClause c).cur = c.cur := by
  unfold passClause
  split <;> rfl

/-- How a pass begins, runs its words and ends. -/
theorem clausePass_eq {s : State} {c : Clause} (cont : Word) (hc : s.hart.clause = some c) :
    (clausePass cont).run s = (do
      modH fun h => { h with clause := some { passClause c with begun := true, stopped := some cont, heldIn := h.mode } }
      inMode c.mode (bodyFrom (passClause c) ((passClause c).ops.drop c.cur) c.cur)
      modClause fun c => { c with done := c.done + 1, cur := 0, begun := false, stopped := none }
      modH fun h => { h with pc := cont, ir := s.hart.ir, freshConvoy := h.freshConvoy || h.fencePassed }).run s := by
  rw [← passClause_mode c, ← passClause_cur c]
  simp only [clausePass, Op.run_bind, Op.run_getH, hc]
  rfl

section
variable {s t : State} {c : Clause} (cont : Word) (hc : s.hart.clause = some c)
include hc

theorem clausePass_ok (h : (bodyFrom (passClause c) ((passClause c).ops.drop c.cur) c.cur).run (passState c cont s) = .ok () t) :
    (clausePass cont).run s = .ok () (passDone cont s (backFrom c s t)) := by
  rw [clausePass_eq cont hc, ← outOfMode_eq_backFrom]
  refine Op.bind_ok (Op.run_modH _ s) (Op.bind_ok (inMode_ok h) ?_)
  unfold passDone outOfMode Hart.backTo
  simp only [modClause, Op.run_bind, Op.run_modH]
  cases t.hart.clause <;> rfl

theorem clausePass_error {e : Stop}
    (h : (bodyFrom (passClause c) ((passClause c).ops.drop c.cur) c.cur).run (passState c cont s) = .error e t) :
    (clausePass cont).run s = .error e (backFrom c s t) := by
  rw [clausePass_eq cont hc, ← outOfMode_eq_backFrom]
  exact Op.bind_ok (Op.run_modH _ s) (Op.bind_error (inMode_error h))
end

/-! ## The operands that CLPUTs have named -/

/-- The last CLPUT to a word is the one whose operand it has. -/
theorem foldl_puts_getElem? (ps : List ClausePut) : ∀ {ops : List ClauseOp} {k : Nat} {o : ClauseOp}, ops[k]? = some o →
    (ps.foldl (fun (ops : List ClauseOp) p => ops.modify p.k fun o => { o with a := p.value }) ops)[k]? = some { o with
      a := match (ps.filter (·.k = k)).getLast? with
        | some p => p.value
        | none => o.a } := by
  induction ps using List.reverseRecOn with
  | nil => exact fun h => h
  | append_singleton ps p ih =>
    intro ops k o h
    rw [List.foldl_append, List.foldl_cons, List.foldl_nil, List.getElem?_modify, ih h, List.filter_append]
    by_cases hp : p.k = k
    · simp [hp]
    · simp [hp]

theorem applyPuts_getElem? {c : Clause} {k : Nat} {o : ClauseOp} (h : c.ops[k]? = some o) :
    c.applyPuts.ops[k]? = some { o with
      a := match (c.puts.filter fun p => p.k = k ∧ p.pass ≤ c.done).getLast? with
        | some p => p.value
        | none => o.a } := by
  have hfold := foldl_puts_getElem? (c.puts.filter (·.pass ≤ c.done)) h
  rw [List.filter_filter] at hfold
  simp only [Bool.decide_and]
  exact hfold

/-! ## The step that makes a pass -/

theorem runPass_ok {cont : Word} {s t : State} (h : (clausePass cont).run s = .ok () t) : runPass cont s = .next t := by
  rw [runPass, h]
theorem runPass_trap {cont : Word} {s t : State} {tr : Trap} (h : (clausePass cont).run s = .error (.trap tr) t) :
    runPass cont s = .next (deliver tr t) := by rw [runPass, h]

/-- With nothing from the environment, a running hart of a package that has not stopped takes its own step. -/
theorem step_runs {s : State} (ha : s.agenda = []) (h1 : s.status.fatal ≠ 1) (h2 : s.status.fatal ≠ 2) (hr : s.hart.status = .running) :
    step s = runHart s := by
  rw [step_of_no_agenda ha, if_neg h1, if_neg h2, if_pos hr]

/-- At no stopped clause and with no forced pre-emption due, a fetched and decoded instruction meets the vector queue. -/
theorem runHart_performs {s u : State} {bs rest : List Byte} {i : Instr} (hf : s.forcedDue = false) (hs : s.hart.atStoppedClause = none)
    (hfetch : (fetchAt (s.fetchAccess s.hart.mode s.hart) s.hart.pc).run s = .ok bs u) (hd : decode bs = .ok (i, rest)) :
    runHart s = perform i { u with hart := { u.hart with ir := irOf bs } } := by
  rw [runHart, hs]
  simp only [runInstr, hfetch, hd, hf, Bool.false_and, Bool.false_eq_true, if_false]

theorem atStoppedClause_eq {h : Hart} {c : Clause} {cont : Word} (hc : h.clause = some c) (hm : h.mode = c.heldIn)
    (hs : c.stopped = some cont) (hd : c.done < c.trips) (hp : h.pc = c.pc + BitVec.ofNat 64 (4 * c.cur)) :
    h.atStoppedClause = some cont := by
  simp only [Hart.atStoppedClause, hc, hs]
  rw [if_pos ⟨decide_eq_true hd, hm, hp⟩]

theorem clausePasses_hold : Sys2Proof.Claims.ClausePasses := by
  refine ⟨fun s c cont t hc hw => runPass_ok (clausePass_ok cont hc (bodyFrom_ok hw)), ?trapped, fun c k o h => applyPuts_getElem? h,
    ?waits, ?stopped⟩
  case trapped =>
    intro s c cont done o os k v i f tr u hc hops hk hw hd hf hrun
    refine runPass_trap (clausePass_error cont hc ?_)
    rw [hops]
    refine bodyFrom_error hw ?_
    rw [bodyWord_run hd hf, ← hk, hrun]
  case waits =>
    intro s u bs i rest ha h1 h2 hr hf hs hfetch hd hruns hwaits hreq
    rw [step_runs ha h1 h2 hr, runHart_performs hf hs hfetch hd, perform]
    rw [if_pos (by rw [hwaits, Bool.and_true]; exact hruns)]
    refine if_neg fun h => ?_
    have hpend : u.hart.requestPending = true := h.2
    rw [hreq] at hpend
    exact Bool.false_ne_true hpend
  case stopped =>
    intro s c cont ha h1 h2 hr hf hc hm hs hd hp
    rw [step_runs ha h1 h2 hr, runHart, atStoppedClause_eq hc hm hs hd hp]
    simp only [hf, Bool.false_and, Bool.false_eq_true, if_false]

/-! ## CLPUT and CLWAIT -/

theorem putTarget_iff {h : Hart} {k : Nat} {c : Clause} : putTarget h k = some c ↔ h.clause = some c ∧ c.done < c.trips ∧
    ∃ o i, c.ops[k]? = some o ∧ decodeWordOf o.word = some i ∧ hasPutOperand i = true := by
  grind [putTarget, Clause.active]

theorem clput_put {rd rs1 rs2 : BitVec 5} {s : State} {c : Clause} (h : putTarget s.hart (bits (s.hart.xr rs2) 0 5) = some c) :
    exec (.clput rd rs1 rs2) s = .next (Claims.onHart s (past (({ s.hart with
        clause := some { c with
          puts := (c.puts.filter fun q => !(q.k = bits (s.hart.xr rs2) 0 5 && max (bits (s.hart.xr rs2) 32 32) c.firstFree ≤ q.pass)) ++
            [.mk (bits (s.hart.xr rs2) 0 5) (max (bits (s.hart.xr rs2) 32 32) c.firstFree) (s.hart.xr rs1)] } } : Hart).setX rd
          (BitVec.ofNat 64 (max (bits (s.hart.xr rs2) 32 32) c.firstFree))))) := by
  have hc : s.hart.clause = some c := (putTarget_iff.mp h).1
  refine finish_ok ?_
  simp only [clputOp, modClause, Op.run_bind, Op.run_getH, h, Op.run_modH, Op.run_writeX, Op.run_advance, hc, Option.map_some]
  rfl

theorem clput_refused {rd rs1 rs2 : BitVec 5} {s : State} (h : putTarget s.hart (bits (s.hart.xr rs2) 0 5) = none) :
    exec (.clput rd rs1 rs2) s = .next (Claims.onHart s (past (s.hart.setX rd 0xFFFFFFFF))) := by
  refine finish_ok ?_
  simp only [clputOp, Op.run_bind, Op.run_getH, h, Op.run_writeX, Op.run_advance]
  rfl

theorem clwaitDone_iff {h : Hart} {r : BitVec 5} :
    clwaitDone h r = true ↔ ∀ c, h.clause = some c → c.trips ≤ c.done ∨ (h.xr r).toNat ≤ c.done := by
  unfold clwaitDone
  cases h.clause <;> simp [Clause.active]

theorem clwait_answers {rd rs1 : BitVec 5} {s : State} (h : clwaitDone s.hart rs1 = true) :
    exec (.clwait rd rs1) s =
      .next (Claims.onHart s (past (s.hart.setX rd (BitVec.ofNat 64 ((s.hart.clause.map (·.done)).getD 0))))) := by
  refine finishWaiting_ok ?_
  simp only [clwaitOp, Op.run_bind, Op.run_getH, h, Op.run_waitFor_true, Op.run_writeX, Op.run_advance]
  cases s.hart.clause <;> rfl

theorem clwait_waits {rd rs1 : BitVec 5} {s : State} (h : clwaitDone s.hart rs1 = false) (hr : s.hart.requestPending = false) :
    exec (.clwait rd rs1) s = .next s :=
  finishWaiting_wait (Op.bind_ok (Op.run_getH s) (Op.bind_error (by rw [h, Op.run_waitFor_false]))) hr

end Sys2Proof.Machine

open Sys2Proof Sys2Proof.Machine Sys2Proof.Claims

/-- Settles O37: a capture word by word, a pass as the run of its words in the clause's mode, and the two instructions that speak with a
clause that runs. -/
theorem clauseInstructionsComplete : Obligations.ClauseInstructionsComplete := by
  unfold Obligations.ClauseInstructionsComplete
  refine ⟨clauseCaptures, clausePasses_hold, fun rd rs1 rs2 s => ⟨fun c hc => clput_put hc, fun h => clput_refused h⟩,
    fun h k c => putTarget_iff, fun rd rs1 s => ⟨fun h => clwait_answers (clwaitDone_iff.mpr h), fun h hr => clwait_waits ?_ hr⟩⟩
  rw [← Bool.not_eq_true, clwaitDone_iff]
  obtain ⟨c, hc, hd, hx⟩ := h
  intro hall
  have := hall c hc
  omega

end

section
/-!
SUPPORT. Launches and their harts: the entry of a setup or a body, a key that begins on a hart, the key states of a launch, the saved position
of interrupt 16; from them NEXT, ITER, END and YIELD (R25, R28, R29, R222, R318, R320, R327, R388).
-/

namespace Sys2Proof.Machine

open Sys2Proof.Claims

/-! ## Launches and the states of their keys -/

theorem modLaunch_run {n : Nat} {l : Launch} {s : State} (f : Launch → Launch) (h : s.launches.get? n = some l) :
    (modLaunch n f).run s = .ok () { s with launches := s.launches.put n (f l) } := by
  simp only [modLaunch, Op.run_modify, h]

theorem launchOf_eq {s : State} {h : Hart} {j : Job} {l : Launch} (hj : h.job = some j) (hl : s.launchOf h = some l) :
    s.launches.get? j.launch = some l := by simpa [State.launchOf, hj] using hl

theorem launchOf_of {s : State} {h : Hart} {j : Job} {l : Launch} (hj : h.job = some j) (hl : s.launches.get? j.launch = some l) :
    s.launchOf h = some l := by simp [State.launchOf, hj, hl]

theorem Launch.keyState_key (l : Launch) (key : List Nat) : (l.keyState key).key = key := by
  unfold keyState
  cases h : l.keys.find? (·.key = key) with
  | none => rfl
  | some v => simpa using List.find?_some h

@[simp] theorem Launch.keyState_setKey_self (l : Launch) (v : KeyState) : (l.setKey v).keyState v.key = v := by
  simp [keyState, setKey, List.find?_append, List.find?_eq_none.mpr]

theorem Launch.keyState_setKey_ne (l : Launch) (v : KeyState) {key : List Nat} (h : key ≠ v.key) :
    (l.setKey v).keyState key = l.keyState key := by
  have hfilter : (l.keys.filter (·.key ≠ v.key)).find? (·.key = key) = l.keys.find? (·.key = key) := by
    rw [List.find?_filter]
    congr 1
    funext w
    by_cases hw : w.key = key <;> simp [hw, h]
  have hv : ([v] : List KeyState).find? (·.key = key) = none := by simp [Ne.symm h]
  simp only [keyState, setKey, List.find?_append, hfilter, hv, Option.or_none]

theorem keyAt_put {s : State} {n : Nat} {l : Launch} (key : List Nat) :
    keyAt { s with launches := s.launches.put n l } n key = some (l.keyState key) := by
  simp [keyAt, Tab.get?_put_self]

theorem keyAt_of {s : State} {n : Nat} {l : Launch} (h : s.launches.get? n = some l) (key : List Nat) :
    keyAt s n key = some (l.keyState key) := by simp [keyAt, h]

theorem holder_of {s : State} {n : Nat} {l : Launch} (h : s.launches.get? n = some l) (key : List Nat) :
    (keyAt s n key).map (·.holder) = some (l.keyState key).holder := by rw [keyAt_of h, Option.map_some]

theorem Launch.runFor_eq_some {l : Launch} {hart : Nat} {key : List Nat} {pos : Nat} {r : BodyRun} (h : l.runFor hart key pos = some r) :
    l.runFrom key pos = some r := by
  unfold runFor at h
  split at h
  · exact absurd h (by simp)
  · exact h

/-- A launch of one kernel runs only its body. -/
theorem Launch.runFrom_inB {l : Launch} {key : List Nat} {pos : Nat} {r : BodyRun} (hp : l.pair = none) (h : l.runFrom key pos = some r) :
    r.inB = false := by
  simp only [runFrom, hp] at h
  split at h
  · cases h
    rfl
  · exact absurd h (by simp)

theorem Launch.kernel_of_single {l : Launch} (hp : l.pair = none) (inB : Bool) : l.kernel inB = l.a := by
  cases inB <;> simp [kernel, hp]

theorem setups_of_single {l : Launch} (hp : l.pair = none) : (setups l).contains true = false := by
  unfold setups
  simp only [hp]
  split <;> rfl

/-! ## Entries (R28, R29, R222) -/

theorem undefAll_run (s : State) : undefAll.run s = .ok () { s with
    freeCtr := s.freeCtr + 2
    hart := { s.hart with
      vregs := .undef s.freeCtr, preds := .undef s.freeCtr, sf := .undef s.freeCtr, masks := .undef s.freeCtr
      td := .undef (s.freeCtr + 1), tdAddr := .undef (s.freeCtr + 1) } } := rfl

/-- IDX0 to IDX5 of an iteration, zero where there is none (R23). -/
def indicesOf (it : List Nat) : List (BitVec 32) := (List.range 6).map fun l => BitVec.ofNat 32 (it.getD l 0)

theorem hasIndex_indicesOf {h : Hart} {exts it : List Nat} (hi : h.idx = indicesOf it)
    (hl : h.idxlin = BitVec.ofNat 64 (idxLin exts it)) : hasIndex h exts it := by
  refine ⟨fun l hlt => ?_, hl⟩
  rw [hi, indicesOf]
  interval_cases l <;> rfl

/-- The hart that has entered a setup or a body, the free values its entry draws being `k` to `k + 4`. -/
def enteredHart (first inB : Bool) (run : Option BodyRun) (l : Launch) (j : Job) (qu : Queue) (k : Nat) (h : Hart) : Hart :=
  { h.entryState with
    x := ((if first then File.zero else keepX (l.kernel inB).pmask (kept l j inB h).1 (.undef k)).set 2
      (stackTop qu l inB j.slot)).set 10 (BitVec.ofNat 64 (l.kernel inB).param)
    f := if first then File.zero else keepF (l.kernel inB).pmask (kept l j inB h).2 (.undef (k + 1))
    fcsr := freeFcsr (k + 2)
    mode := .u
    pc := BitVec.ofNat 64 ((l.kernel inB).hdr + (if run.isNone then (l.kernel inB).setOff else (l.kernel inB).entry))
    job := some { j with
      inSetup := run.isNone, inB := inB, iter := run.map (·.iter), stepU := (run.map (·.u)).getD 0, stepJ := (run.map (·.j)).getD 0 }
    idx := indicesOf ((run.map (·.iter)).getD [])
    idxlin := ((run.map (·.iter)).map fun it => BitVec.ofNat 64 (idxLin (l.kernel inB).exts it)).getD 0
    vregs := .undef (k + 3), preds := .undef (k + 3), sf := .undef (k + 3), masks := .undef (k + 3)
    td := .undef (k + 4), tdAddr := .undef (k + 4) }

theorem enter_run {s : State} {j : Job} {l : Launch} (first inB : Bool) (run : Option BodyRun) (hj : s.hart.job = some j)
    (hl : s.launchOf s.hart = some l) : (enter first inB run).run s = .ok () { s with
      freeCtr := s.freeCtr + 5, hart := enteredHart first inB run l j (s.queue l.queue) s.freeCtr s.hart } := by
  simp only [enter, Op.run_bind, Op.run_get, hj, hl]
  cases run <;> rfl

section
variable (first inB : Bool) (run : Option BodyRun) (l : Launch) (j : Job) (qu : Queue) (k : Nat) (h : Hart)

theorem enteredHart_lightVector : lightVector (enteredHart first inB run l j qu k h) :=
  ⟨rfl, rfl, rfl, rfl, rfl, rfl, rfl, k + 3, k + 4, rfl, rfl, rfl, rfl, rfl, rfl⟩

theorem enteredHart_xr_ten : (enteredHart first inB run l j qu k h).xr 10 = BitVec.ofNat 64 (l.kernel inB).param := by
  rw [Hart.xr, if_neg (by decide)]
  exact File.get_set_self _ _ _

theorem enteredHart_xr_two : (enteredHart first inB run l j qu k h).xr 2 = stackTop qu l inB j.slot := by
  rw [Hart.xr, if_neg (by decide)]
  exact (File.get_set_ne _ _ _ _ (by decide)).trans (File.get_set_self _ _ _)

theorem enteredHart_xr {x : BitVec 5} (h0 : x ≠ 0) (h2 : x ≠ 2) (h10 : x ≠ 10) : (enteredHart first inB run l j qu k h).xr x =
    (if first then File.zero else keepX (l.kernel inB).pmask (kept l j inB h).1 (.undef k)).get x.toNat := by
  have hne : ∀ y : BitVec 5, x ≠ y → x.toNat ≠ y.toNat := fun y hy e => hy (BitVec.eq_of_toNat_eq e)
  rw [Hart.xr, if_neg h0]
  exact (File.get_set_ne _ _ _ _ (hne 10 h10)).trans (File.get_set_ne _ _ _ _ (hne 2 h2))

theorem enteredHart_hasIndex : hasIndex (enteredHart first inB run l j qu k h) (run.elim [] fun _ => (l.kernel inB).exts)
    ((run.map (·.iter)).getD []) :=
  hasIndex_indicesOf rfl (by cases run <;> rfl)
end

/-! ## Persistent registers (R29) -/

theorem get_keepMasked_foldl (mask : Nat) (skip : List Nat) (src : File 64) (is : List Nat) : ∀ (dst : File 64) (i : Nat),
    (is.foldl (fun d i => if mask.testBit i && !skip.contains i then d.set i (src.get i) else d) dst).get i =
      if i ∈ is ∧ mask.testBit i = true ∧ i ∉ skip then src.get i else dst.get i := by
  induction is with
  | nil => simp
  | cons a is ih =>
    intro dst i
    rw [List.foldl_cons, ih]
    by_cases ha : i = a
    · subst ha
      by_cases hk : mask.testBit i = true ∧ i ∉ skip
      · simp [hk.1, hk.2]
      · rw [if_neg (fun h => hk h.2), if_neg (by simpa using hk), if_neg (fun h => hk h.2)]
    · refine if_congr (by simp [ha]) rfl ?_
      split
      · exact File.get_set_ne _ _ _ _ ha
      · rfl

theorem get_keepMasked {mask i : Nat} {skip : List Nat} (src dst : File 64) (hi : i < 32) (hm : mask.testBit i = true) (hs : i ∉ skip) :
    (keepMasked mask skip src dst).get i = src.get i := by
  rw [keepMasked, get_keepMasked_foldl, if_pos ⟨List.mem_range.mpr hi, hm, hs⟩]

theorem get_keepX {pmask : Nat} {x : BitVec 5} (src dst : File 64) (h0 : x ≠ 0) (h2 : x ≠ 2) (h10 : x ≠ 10)
    (hm : pmask.testBit x.toNat = true) : (keepX pmask src dst).get x.toNat = src.get x.toNat := by
  have hne : ∀ y : BitVec 5, x ≠ y → x.toNat ≠ y.toNat := fun y hy e => hy (BitVec.eq_of_toNat_eq e)
  have hskip : x.toNat ∉ [0, 2, 10] := by simpa using ⟨hne 0 h0, hne 2 h2, hne 10 h10⟩
  exact get_keepMasked src dst x.isLt hm hskip

theorem get_keepF {pmask : Nat} {x : BitVec 5} (src dst : File 64) (hm : pmask.testBit (32 + x.toNat) = true) :
    (keepF pmask src dst).get x.toNat = src.get x.toNat :=
  get_keepMasked src dst x.isLt (by rwa [Nat.testBit_div_two_pow, Nat.add_comm]) (by simp)

/-! ## A body begins -/

theorem clearSlot_eq (l : Launch) (r : BodyRun) (h : Hart) : clearSlot l r h = { h with pool := (clearSlot l r h).pool } := by
  unfold clearSlot
  cases l.pair <;> simp only
  split <;> rfl

theorem clearSlot_of_single {l : Launch} (hp : l.pair = none) (r : BodyRun) (h : Hart) : clearSlot l r h = h := by
  simp only [clearSlot, hp]

/-- The state in which a hart has entered the body of a run that its key gives it. -/
def bodyEntered (first : Bool) (r : BodyRun) (l : Launch) (j : Job) (s : State) : State := { s with
  freeCtr := s.freeCtr + 5
  launches := s.launches.put j.launch (l.setKey { key := j.key, nextPos := r.pos + 1, holder := some s.hart.id })
  hart := enteredHart first r.inB (some r) l j (s.queue l.queue) s.freeCtr (clearSlot l r s.hart) }

theorem enterRun_run {s : State} {j : Job} {l : Launch} (first : Bool) (r : BodyRun) (hj : s.hart.job = some j)
    (hl : s.launchOf s.hart = some l) : (enterRun first r).run s = .ok () (bodyEntered first r l j s) := by
  simp only [enterRun, Op.run_bind, Op.run_get, hj, hl, modLaunch_run _ (launchOf_eq hj hl), Op.run_modH]
  have hclear : (clearSlot l r s.hart).job = some j := by
    rw [clearSlot_eq]
    exact hj
  exact enter_run (l := l.setKey { key := j.key, nextPos := r.pos + 1, holder := some s.hart.id }) first r.inB (some r) hclear
    (launchOf_of hclear (Tab.get?_put_self _ _ _))

/-! ## A key begins on a hart (R25, R28, R221) -/

theorem stackTop_eq_stackAt (qu : Queue) (l : Launch) (inB : Bool) (slot : Option Nat) :
    stackTop qu l inB slot = stackAt qu l inB (slot.getD 0) := by
  unfold stackTop stackAt
  by_cases hs : (l.kernel inB).stack = 0
  · simp only [hs, if_true]
  · simp only [hs, if_false]
    cases l.pair <;> cases inB <;> simp

/-- The pool's registers as an entry sets them (R130). -/
theorem startState_banks {l : Launch} (hb : entryBanks l ≤ 63) (j : Job) (h : Hart) :
    (startState l j h).sbanks = entryBanks l ∧ (startState l j h).vbanks = 0 ∧ (startState l j h).cbanks = 64 - entryBanks l ∧
      (startState l j h).vmax = if l.a.feat.testBit 3 then 63 - entryBanks l else 0 := by
  have hk : kExt l.a = l.a.feat.testBit 3 := rfl
  simp only [startState, Hart.sbanks, Hart.vbanks, Hart.cbanks, Hart.vmax, bits, BitVec.toNat_ofNat, hk]
  cases l.a.feat.testBit 3 <;> simp <;> omega

/-- A hart that stands at the first entry of a key has begun it. -/
theorem begins_enteredHart {inB : Bool} {run : Option BodyRun} {n time k : Nat} {l : Launch} {key : List Nat} {slot : Option Nat}
    {qu : Queue} {h : Hart} (hb : entryBanks l ≤ 63)
    (hpc : startsAt l key =
      some (BitVec.ofNat 64 ((l.kernel inB).hdr + (if run.isNone then (l.kernel inB).setOff else (l.kernel inB).entry))))
    (hin : startsIn l key = some inB) :
    begins qu n l key slot (enteredHart true inB run l (newJob n key slot time) qu k (startState l (newJob n key slot time) h)) := by
  obtain ⟨hsb, hvb, hcb, hvm⟩ := startState_banks hb (newJob n key slot time) h
  refine ⟨rfl, rfl, hpc, rfl, rfl, rfl, fun b hib => ?_, fun r h2 h10 => ?_, fun r => rfl, enteredHart_lightVector ..,
    rfl, rfl, rfl, rfl, hsb, hvb, hcb, hvm, rfl⟩
  · obtain rfl : inB = b := Option.some.inj (hin.symm.trans hib)
    exact ⟨(enteredHart_xr_two ..).trans (stackTop_eq_stackAt ..), enteredHart_xr_ten ..⟩
  · by_cases h0 : r = 0
    · rw [h0, Hart.xr_zero]
    · rw [enteredHart_xr (h0 := h0) (h2 := h2) (h10 := h10)]
      rfl

theorem clearSlot_startState (l : Launch) (r : BodyRun) (j : Job) (h : Hart) : clearSlot l r (startState l j h) = startState l j h := by
  unfold clearSlot
  cases l.pair <;> simp only
  split <;> rfl

/-- The state in which a hart has taken a key and not yet entered (R25). -/
def keyTaken (n : Nat) (l : Launch) (key : List Nat) (slot : Option Nat) (s : State) : State := { s with
  launches := s.launches.put n (l.setKey { key := key, nextPos := (l.keyState key).nextPos, holder := some s.hart.id })
  hart := startState l (newJob n key slot s.time) s.hart }

/-- The launch whose key a hart has taken. -/
def Launch.giveKey (l : Launch) (key : List Nat) (hart : Nat) : Launch :=
  l.setKey { key := key, nextPos := (l.keyState key).nextPos, holder := some hart }

theorem launchOf_keyTaken (n : Nat) (l : Launch) (key : List Nat) (slot : Option Nat) (s : State) :
    (keyTaken n l key slot s).launchOf (keyTaken n l key slot s).hart = some (l.giveKey key s.hart.id) := Tab.get?_put_self _ _ _

section
variable {s : State} {n : Nat} {l : Launch} {key : List Nat} {slot : Option Nat} {r : BodyRun} (hl : s.launches.get? n = some l)
  (hr : l.runFrom key (l.keyState key).nextPos = some r)
include hl

theorem startKey_setup {b : Bool} {bs : List Bool} (hs : setups l = b :: bs) :
    (startKey n l key slot).run s = .ok () { keyTaken n l key slot s with
      freeCtr := s.freeCtr + 5
      hart := enteredHart true b none l (newJob n key slot s.time) (s.queue l.queue) s.freeCtr (keyTaken n l key slot s).hart } := by
  simp only [startKey, Op.run_bind, Op.run_get, modLaunch_run _ hl, Op.run_modH, hs]
  exact enter_run (l := l.giveKey key s.hart.id) true b none rfl (launchOf_keyTaken n l key slot s)

include hr

theorem startKey_body (hs : setups l = []) :
    (startKey n l key slot).run s = .ok () { keyTaken n l key slot s with
      freeCtr := s.freeCtr + 5
      launches := s.launches.put n ((l.giveKey key s.hart.id).setKey { key := key, nextPos := r.pos + 1, holder := some s.hart.id })
      hart := enteredHart true r.inB (some r) l (newJob n key slot s.time) (s.queue l.queue) s.freeCtr (keyTaken n l key slot s).hart } := by
  simp only [startKey, Op.run_bind, Op.run_get, modLaunch_run _ hl, Op.run_modH, hs, hr]
  refine (enterRun_run (l := l.giveKey key s.hart.id) true r rfl (launchOf_keyTaken n l key slot s)).trans ?_
  have hclear := clearSlot_startState (l.giveKey key s.hart.id) r (newJob n key slot s.time) s.hart
  have hput : (s.launches.put n (l.giveKey key s.hart.id)).put n _ = _ := Tab.put_put s.launches n (l.giveKey key s.hart.id)
    ((l.giveKey key s.hart.id).setKey { key := key, nextPos := r.pos + 1, holder := some s.hart.id })
  rw [bodyEntered, ← hput]
  exact congrArg (EStateM.Result.ok ()) (congrArg (fun h : Hart => { keyTaken n l key slot s with
    freeCtr := s.freeCtr + 5
    launches := (s.launches.put n (l.giveKey key s.hart.id)).put n
      ((l.giveKey key s.hart.id).setKey { key := key, nextPos := r.pos + 1, holder := some s.hart.id })
    hart := enteredHart true r.inB (some r) l (newJob n key slot s.time) (s.queue l.queue) s.freeCtr h }) hclear)

omit hr in
/-- A key that begins stands with the hart; every other key is as it was. -/
theorem startKey_run (slot : Option Nat) (hrun : (l.runFrom key (l.keyState key).nextPos).isSome = true) (hb : entryBanks l ≤ 63) :
    ∃ h l', (startKey n l key slot).run s = .ok () { s with
        freeCtr := s.freeCtr + 5, hart := h, launches := s.launches.put n l' } ∧
      begins (s.queue l.queue) n l key slot h ∧ h.id = s.hart.id ∧ h.preq = s.hart.preq ∧ h.job.map (·.since) = some s.time ∧
      (l'.keyState key).holder = some s.hart.id ∧ (∀ key', key' ≠ key → l'.keyState key' = l.keyState key') ∧
      l' = { l with keys := l'.keys } := by
  obtain ⟨r, hr⟩ := Option.isSome_iff_exists.mp hrun
  cases hs : setups l with
  | cons b bs =>
    exact ⟨_, _, startKey_setup hl hs, begins_enteredHart hb (by simp [startsAt, hs]) (by simp [startsIn, hs]), rfl, rfl, rfl,
      congrArg KeyState.holder (l.keyState_setKey_self { key := key, nextPos := _, holder := _ }),
      fun key' hk => l.keyState_setKey_ne _ hk, rfl⟩
  | nil =>
    exact ⟨_, _, startKey_body hl hr hs, begins_enteredHart hb (by simp [startsAt, hs, hr]) (by simp [startsIn, hs, hr]), rfl, rfl, rfl,
      congrArg KeyState.holder (Launch.keyState_setKey_self _ { key := key, nextPos := _, holder := _ }),
      fun key' hk => (Launch.keyState_setKey_ne _ _ hk).trans (l.keyState_setKey_ne _ hk), rfl⟩
end

end Sys2Proof.Machine
end

section
/-!
SUPPORT. What NEXT, ITER, END and YIELD do with a hart and its key: another key looked for, a retirement, the saved position of interrupt 16
(R25, R31, R58, R318).
-/

namespace Sys2Proof.Machine

open Sys2Proof.Claims

/-! ## Another key (R25) -/

theorem keyFree_of_findKey {l : Launch} {die total : Nat} {key : List Nat} {fuel : Nat} : ∀ {n : Nat},
    findKey l die total fuel n = some key → keyFree l die key = true := by
  induction fuel with
  | zero => exact fun h => absurd h (by simp [findKey])
  | succ fuel ih =>
    intro n h
    rw [findKey] at h
    split at h
    next hfree =>
      cases h
      exact hfree
    next => exact ih h

theorem findKey_misses {l : Launch} {die total fuel : Nat} : ∀ {n : Nat}, findKey l die total fuel n = none →
    ∀ k, k < fuel → keyFree l die (unflatten (spatial l.a) ((n + k) % total)) = false := by
  induction fuel with
  | zero => exact fun _ k hk => absurd hk (by omega)
  | succ fuel ih =>
    intro n h k hk
    rw [findKey] at h
    split at h
    next => exact absurd h (by simp)
    next hbusy =>
      cases k with
      | zero => simpa using hbusy
      | succ k => simpa [Nat.add_assoc, Nat.add_comm 1 k] using ih h k (by omega)

/-- A search over all numbers meets every free key. -/
theorem findKey_isSome {l : Launch} {die total i : Nat} (n : Nat) (hi : i < total)
    (hfree : keyFree l die (unflatten (spatial l.a) i) = true) : (findKey l die total total n).isSome = true := by
  rw [Option.isSome_iff_ne_none]
  intro hnone
  have hmod := Nat.mod_lt n (show 0 < total by omega)
  have hmiss := findKey_misses hnone ((i + (total - n % total)) % total) (Nat.mod_lt _ (by omega))
  have hreach : (n + (i + (total - n % total)) % total) % total = i := by
    rw [Nat.add_mod_mod, ← Nat.mod_add_mod, show n % total + (i + (total - n % total)) = i + total by omega, Nat.add_mod_right,
      Nat.mod_eq_of_lt hi]
  rw [hreach, hfree] at hmiss
  exact absurd hmiss (by simp)

theorem anotherKey_run (l : Launch) (hart die : Nat) (s : State) : (anotherKey l hart die).run s =
    .ok (if l.a.isGang || l.left.contains hart || keyCount l.a = 0 then none
      else findKey l die (keyCount l.a) (keyCount l.a) (Config.freeChoice s.freeCtr 0)) { s with freeCtr := s.freeCtr + 1 } := by
  simp only [anotherKey, Op.run_bind, Op.run_draw, Op.run_pure]

/-- A launch one of whose keys no hart holds any more. -/
def Launch.passKey (l : Launch) (key : List Nat) : Launch := l.setKey { l.keyState key with holder := none }

theorem Launch.keyState_passKey_self (l : Launch) (key : List Nat) :
    (l.passKey key).keyState key = { l.keyState key with holder := none } := by
  have h := l.keyState_setKey_self { l.keyState key with holder := none }
  rwa [show ({ l.keyState key with holder := none } : KeyState).key = key from l.keyState_key key] at h

theorem Launch.keyState_passKey_ne (l : Launch) {key key' : List Nat} (h : key' ≠ key) :
    (l.passKey key).keyState key' = l.keyState key' :=
  l.keyState_setKey_ne _ (by rwa [show ({ l.keyState key with holder := none } : KeyState).key = key from l.keyState_key key])

theorem keyFree_passKey_ne (l : Launch) (die : Nat) {key key' : List Nat} (h : key' ≠ key) :
    keyFree (l.passKey key) die key' = keyFree l die key' := by
  unfold keyFree
  rw [l.keyState_passKey_ne h]
  rfl

/-- A key with no run left is free for no hart. -/
theorem keyFree_passKey_self {l : Launch} {die : Nat} {key : List Nat} (h : l.runFrom key (l.keyState key).nextPos = none) :
    keyFree (l.passKey key) die key = false := by
  have hrun : (l.passKey key).runFrom key ((l.passKey key).keyState key).nextPos = none := by
    rw [l.keyState_passKey_self]
    exact h
  simp [keyFree, hrun]

/-! ## Retirement (R31, R318) -/

theorem retireHart_run {s : State} {j : Job} {l : Launch} (hj : s.hart.job = some j) (hl : s.launches.get? j.launch = some l) :
    retireHart.run s = .ok () { State.retireFrom (.hart s.hart.id) j.launch
      { s with launches := s.launches.put j.launch (l.passKey j.key) } with hart := s.hart.retired } := by
  simp only [retireHart, Op.run_bind, Op.run_getH, hj, modLaunch_run _ hl, Op.run_modify, Op.run_modH]
  rfl

/-! ## Interrupt 16 -/

@[simp] theorem startClusterSave_hart (cl n : Nat) (s : State) : (startClusterSave cl n s).hart = s.hart := rfl

/-- The state in which a hart has entered the handler of interrupt 16, and left any barrier it waits in (R175, R181, R200). -/
def interrupted (forced : Bool) (pc : Word) (k : Nat) (s : State) : State :=
  let t := (takeInterrupt pc k forced s).viewWrites bothViews
  t.setCluster t.hart.cluster (withdraw t.hart.id (t.cluster t.hart.cluster))

/-- The context that is recorded of a hart of launch `n` (R203, R204). -/
def contextOf (full : Bool) (n : Nat) (s : State) : Context where
  id := s.nextContext
  cluster := s.hart.cluster
  hart := { s.hart with pool := renewRange s.time s.hart.coreBlocks.1 s.hart.coreBlocks.2 s.hart.pool }
  full := full
  hdr := s.korigin s.hart
  profile := deviceProfile
  live := liveBits full s.hart.grant.isSome (s.regs.any fun r => r.holder = some (.hart s.hart.id) && r.launch = n)
  status := 0
  missing := 0
  startTick := s.time
  saved := false
  blocks := []

/-- The state in which the save of a hart of launch `n` has started (R203, R204, R236). -/
def saveStarted (full : Bool) (n : Nat) (s : State) : State := { s with
  hart := { s.hart with
    pool := renewRange s.time s.hart.coreBlocks.1 s.hart.coreBlocks.2 s.hart.pool, grant := none, status := .saving }
  contexts := s.contexts ++ [contextOf full n s]
  nextContext := s.nextContext + 1 }

section
variable (full forced : Bool) (pc : Word) (k : Nat) {s : State}

theorem preempt_outside (h : s.hart.job = none ∨ s.launchOf s.hart = none) : preempt full forced pc k s = interrupted forced pc k s := by
  unfold preempt
  extract_lets t g u
  split
  next j l hj hl =>
    rcases h with h | h
    · exact absurd (hj.symm.trans h) (by simp)
    · exact absurd (hl.symm.trans h) (by simp)
  next => rfl

/-- The hart of a launch is saved, and, as the last running one of its cluster, the cluster's reservation begins to be (R204). -/
theorem preempt_saves {j : Job} {l : Launch} (hj : s.hart.job = some j) (hl : s.launchOf s.hart = some l) :
    preempt full forced pc k s =
      let t := saveStarted full j.launch (interrupted forced pc k s)
      if !l.a.isGang && !(t.harts.any fun g => g.inLaunch j.launch && g.cluster = s.hart.cluster && g.status = .running)
        && (t.cluster s.hart.cluster).resvs.any (·.launch = j.launch)
      then startClusterSave s.hart.cluster j.launch t else t := by
  unfold preempt
  extract_lets t g u
  split
  next j' l' hj' hl' =>
    cases hj'.symm.trans hj
    cases hl'.symm.trans hl
    rfl
  next hno => exact (hno j l hj hl).elim

/-- The hart that interrupt 16 has taken: a save changes of it only the pool, the grant and the status. -/
theorem preempt_hart (s : State) : ∃ p g st,
    (preempt full forced pc k s).hart = { (takeInterrupt pc k forced s).hart with pool := p, grant := g, status := st } := by
  cases hj : s.hart.job with
  | none => exact ⟨_, _, _, by rw [preempt_outside full forced pc k (.inl hj)]; rfl⟩
  | some j =>
    cases hl : s.launchOf s.hart with
    | none => exact ⟨_, _, _, by rw [preempt_outside full forced pc k (.inr hl)]; rfl⟩
    | some l =>
      rw [preempt_saves full forced pc k hj hl]
      simp only
      split
      · exact ⟨_, _, _, startClusterSave_hart _ _ _⟩
      · exact ⟨_, _, _, rfl⟩

@[simp] theorem preempt_mepc (s : State) : (preempt full forced pc k s).hart.mepc = pc := by
  obtain ⟨p, g, st, h⟩ := preempt_hart full forced pc k s
  rw [h]
  rfl

@[simp] theorem preempt_mcause (s : State) : (preempt full forced pc k s).hart.mcause = BitVec.ofNat 64 (2 ^ 63 + 16) := by
  obtain ⟨p, g, st, h⟩ := preempt_hart full forced pc k s
  rw [h]
  rfl
end

/-! ## ITER -/

section
variable {rd : BitVec 5} {s : State}

theorem iter_takes {j : Job} {l : Launch} {r : BodyRun} (hj : s.hart.job = some j) (hl : s.launchOf s.hart = some l)
    (hbody : j.inSetup = false) (hp : l.pair = none) (hr : l.runFor s.hart.id j.key (l.keyState j.key).nextPos = some r) :
    exec (.iter rd) s = .next (Claims.onHart
      { s with launches := s.launches.put j.launch (l.setKey { key := j.key, nextPos := r.pos + 1, holder := some s.hart.id }) }
      (past (({ s.hart with
        freshConvoy := true, job := some { j with iter := some r.iter, stepU := r.u, stepJ := r.j }
        idx := indicesOf r.iter, idxlin := BitVec.ofNat 64 (idxLin l.a.exts r.iter) } : Hart).setX rd 1))) := by
  have hl' : ∀ h : Hart, ({ s with hart := h } : State).launches.get? j.launch = some l := fun _ => launchOf_eq hj hl
  refine finish_ok ?_
  simp only [iterOp, Op.run_bind, Op.run_get, Op.run_modH, hj, hl, hbody, hp, Option.isSome_none, Bool.or_self, Bool.false_eq_true, if_false,
    hr, modLaunch_run _ (hl' _), Op.run_writeX, Op.run_advance]
  rfl

theorem iter_ends (h : ∀ j l, s.hart.job = some j → s.launchOf s.hart = some l →
    j.inSetup = true ∨ l.pair.isSome = true ∨ l.runFor s.hart.id j.key (l.keyState j.key).nextPos = none) :
    exec (.iter rd) s = .next (Claims.onHart s (past (({ s.hart with freshConvoy := true } : Hart).setX rd 0))) := by
  refine finish_ok ?_
  simp only [iterOp, Op.run_bind, Op.run_get, Op.run_modH]
  split
  next j l hj hl =>
    have hnone : (if (j.inSetup || l.pair.isSome) = true then none else l.runFor s.hart.id j.key (l.keyState j.key).nextPos) = none := by
      rcases h j l hj hl with h | h | h <;> simp [h]
    rw [hnone]
    rfl
  next => rfl
end

/-! ## NEXT -/

/-- What NEXT does once the ended body's registers stand in the job `j` (R222, R327): `h` is the hart as it was. -/
def nextFrom (l : Launch) (j : Job) (h : Hart) : Op Bool := do
  if j.inSetup && !j.inB && (setups l).contains true then
    enter false true none
    return true
  else match l.runFor h.id j.key (l.keyState j.key).nextPos with
    | some r =>
      enterRun false r
      return true
    | none =>
      modLaunch j.launch fun l => l.passKey j.key
      let s ← get
      let l := (s.launches.get? j.launch).getD l
      match ← anotherKey l h.id h.die with
      | some key =>
        startKey j.launch l key j.slot
        return true
      | none =>
        retireHart
        return false

/-- The hart whose body has ended: its job keeps the body's registers, its clause is gone or undefined. -/
def bodyEnded (l : Launch) (j : Job) (c : Option Clause) (h : Hart) : Hart := { h with job := some (saveShadow l j h), clause := c }

theorem undefClause_run (s : State) : ∃ c, undefClause.run s =
    .ok () { s with freeCtr := s.freeCtr + 1, hart := { s.hart with clause := some c } } := ⟨_, rfl⟩

section
variable {s : State} {j : Job} {l : Launch} (hj : s.hart.job = some j) (hl : s.launchOf s.hart = some l)
include hj hl

theorem nextOp_run : ∃ c k, nextOp.run s =
    (nextFrom l (saveShadow l j s.hart) s.hart).run { s with freeCtr := k, hart := bodyEnded l j c s.hart } := by
  cases hc : s.hart.clause with
  | none =>
    refine ⟨none, s.freeCtr, ?_⟩
    simp only [nextOp, Op.run_bind, Op.run_get, hj, hl, Op.run_modH, hc, Option.isSome_none, Bool.false_eq_true, if_false]
    rfl
  | some c =>
    obtain ⟨c', hu⟩ := undefClause_run { s with hart := bodyEnded l j none s.hart }
    unfold bodyEnded at hu
    refine ⟨some c', s.freeCtr + 1, ?_⟩
    simp only [nextOp, Op.run_bind, Op.run_get, hj, hl, Op.run_modH, hc, Option.isSome_some, if_true, hu]
    rfl
end

section
variable {s u : State} {j : Job} {l : Launch} {h : Hart}

theorem nextFrom_body {r : BodyRun} (hset : (j.inSetup && !j.inB && (setups l).contains true) = false)
    (hr : l.runFor h.id j.key (l.keyState j.key).nextPos = some r) (he : (enterRun false r).run s = .ok () u) :
    (nextFrom l j h).run s = .ok true u := by
  rw [nextFrom, Op.run_ite, if_neg (by rw [hset]; exact Bool.false_ne_true), hr]
  exact Op.bind_ok he rfl

section
variable (hset : (j.inSetup && !j.inB && (setups l).contains true) = false)
  (hr : l.runFor h.id j.key (l.keyState j.key).nextPos = none) (hl : s.launches.get? j.launch = some l)
include hset hr hl

/-- With its key at an end, the hart looks for another one. -/
theorem nextFrom_ends : (nextFrom l j h).run s = (do
    match ← anotherKey (l.passKey j.key) h.id h.die with
    | some key =>
      startKey j.launch (l.passKey j.key) key j.slot
      return true
    | none =>
      retireHart
      return false : Op Bool).run { s with launches := s.launches.put j.launch (l.passKey j.key) } := by
  rw [nextFrom, Op.run_ite, if_neg (by rw [hset]; exact Bool.false_ne_true), hr]
  simp only [Op.run_bind, modLaunch_run _ hl, Op.run_get, Tab.get?_put_self, Option.getD_some]

theorem nextFrom_another {key : List Nat} (hk : (anotherKey (l.passKey j.key) h.id h.die).run
      { s with launches := s.launches.put j.launch (l.passKey j.key) } =
        .ok (some key) { s with launches := s.launches.put j.launch (l.passKey j.key), freeCtr := s.freeCtr + 1 })
    (he : (startKey j.launch (l.passKey j.key) key j.slot).run
      { s with launches := s.launches.put j.launch (l.passKey j.key), freeCtr := s.freeCtr + 1 } = .ok () u) :
    (nextFrom l j h).run s = .ok true u :=
  (nextFrom_ends hset hr hl).trans (Op.bind_ok hk (Op.bind_ok he rfl))

theorem nextFrom_retires (hk : (anotherKey (l.passKey j.key) h.id h.die).run
      { s with launches := s.launches.put j.launch (l.passKey j.key) } =
        .ok none { s with launches := s.launches.put j.launch (l.passKey j.key), freeCtr := s.freeCtr + 1 })
    (he : retireHart.run { s with launches := s.launches.put j.launch (l.passKey j.key), freeCtr := s.freeCtr + 1 } = .ok () u) :
    (nextFrom l j h).run s = .ok false u :=
  (nextFrom_ends hset hr hl).trans (Op.bind_ok hk (Op.bind_ok he rfl))
end
end

/-- That a completed instruction counts in minstret changes nothing else. -/
theorem State.retire_eq (s : State) : ∃ n, s.retire = { s with hart := { s.hart with minstret := n } } :=
  ⟨_, by rw [State.retire, Hart.retire_eq]⟩

section
variable (h : Hart)
@[simp] theorem Hart.retire_mode : h.retire.mode = h.mode := by rw [h.retire_eq]
@[simp] theorem Hart.retire_pc : h.retire.pc = h.pc := by rw [h.retire_eq]
@[simp] theorem Hart.retire_xr (r : BitVec 5) : h.retire.xr r = h.xr r := by rw [h.retire_eq]; rfl
@[simp] theorem Hart.retire_fr (r : BitVec 5) : h.retire.fr r = h.fr r := by rw [h.retire_eq]; rfl
@[simp] theorem Hart.retire_job : h.retire.job = h.job := by rw [h.retire_eq]
@[simp] theorem Hart.retire_grant : h.retire.grant = h.grant := by rw [h.retire_eq]
@[simp] theorem Hart.retire_hook : h.retire.hook = h.hook := by rw [h.retire_eq]
@[simp] theorem Hart.retire_preq : h.retire.preq = h.preq := by rw [h.retire_eq]
@[simp] theorem lightVector_retire : lightVector h.retire ↔ lightVector h := by rw [h.retire_eq]; rfl
@[simp] theorem left_retire : left h.retire ↔ left h := by rw [h.retire_eq]; rfl
@[simp] theorem hasIndex_retire (exts it : List Nat) : hasIndex h.retire exts it ↔ hasIndex h exts it := by rw [h.retire_eq]; rfl
@[simp] theorem begins_retire (qu : Queue) (n : Nat) (l : Launch) (key : List Nat) (slot : Option Nat) :
    begins qu n l key slot h.retire ↔ begins qu n l key slot h := by rw [h.retire_eq]; rfl
end

@[simp] theorem State.retire_hart (s : State) : s.retire.hart = s.hart.retire := rfl
@[simp] theorem keyAt_retire (s : State) (n : Nat) (key : List Nat) : keyAt s.retire n key = keyAt s n key := rfl

section
variable {s t : State} (hs : s.hart.hookSave = none)
include hs

theorem next_enters (h : nextOp.run s = .ok true t) :
    exec .next s = .next (if s.hart.requestPending then preempt false false t.retire.hart.pc 0 t.retire else t.retire) := by
  change execNext s = _
  simp only [execNext, hs, h, Option.isSome_none, Bool.false_eq_true, if_false, true_and]

theorem next_retires (h : nextOp.run s = .ok false t) : exec .next s = .next t.retire := by
  change execNext s = _
  simp only [execNext, hs, h, Option.isSome_none, Bool.false_eq_true, if_false, false_and]
end

/-- Of a job NEXT changes only the shadows. -/
theorem saveShadow_eq (l : Launch) (j : Job) (h : Hart) : saveShadow l j h = { j with
    shadowAx := (saveShadow l j h).shadowAx, shadowAf := (saveShadow l j h).shadowAf
    shadowBx := (saveShadow l j h).shadowBx, shadowBf := (saveShadow l j h).shadowBf } := by
  unfold saveShadow
  split
  next => rfl
  next =>
    dsimp only
    split <;> rfl

theorem saveShadow_of_single {l : Launch} (hp : l.pair = none) (j : Job) (h : Hart) : saveShadow l j h = j := by
  simp only [saveShadow, hp]

section
variable {s : State} {j : Job} {l : Launch} (hj : s.hart.job = some j) (hl : s.launchOf s.hart = some l) (hs : s.hart.hookSave = none)
include hj hl hs

/-- NEXT enters the body of the key's next run (R29, R222, R327). -/
theorem next_body {r : BodyRun} (hset : (j.inSetup && !j.inB && (setups l).contains true) = false)
    (hr : l.runFor s.hart.id j.key (l.keyState j.key).nextPos = some r) : ∃ c k, let t := (bodyEntered false r l (saveShadow l j s.hart)
        { s with freeCtr := k, hart := bodyEnded l j c s.hart }).retire
      exec .next s = .next (if s.hart.requestPending then preempt false false t.hart.pc 0 t else t) := by
  obtain ⟨c, k, hn⟩ := nextOp_run hj hl
  refine ⟨c, k, next_enters hs (hn.trans (nextFrom_body ?_ ?_ (enterRun_run false r rfl (launchOf_of rfl ?_))))⟩
  · rwa [saveShadow_eq]
  · rwa [saveShadow_eq]
  · rw [saveShadow_eq]
    exact (launchOf_eq hj hl : s.launches.get? j.launch = some l)

variable (hp : l.pair = none)
include hp

/-- With no key to take, NEXT retires the hart (R31, R327). -/
theorem next_last (hr : l.runFor s.hart.id j.key (l.keyState j.key).nextPos = none)
    (hkeys : ∀ key, key ≠ j.key → keyFree l s.hart.die key = false) : ∃ c k, exec .next s = .next (State.retire
      { State.retireFrom (.hart s.hart.id) j.launch { s with
          freeCtr := k, launches := (s.launches.put j.launch (l.passKey j.key)).put j.launch ((l.passKey j.key).passKey j.key) } with
        hart := (bodyEnded l j c s.hart).retired }) := by
  obtain ⟨c, k, hn⟩ := nextOp_run hj hl
  rw [saveShadow_of_single hp] at hn
  have hnone : (anotherKey (l.passKey j.key) s.hart.id s.hart.die).run { s with
      freeCtr := k, hart := bodyEnded l j c s.hart, launches := s.launches.put j.launch (l.passKey j.key) } = .ok none { s with
      freeCtr := k + 1, hart := bodyEnded l j c s.hart, launches := s.launches.put j.launch (l.passKey j.key) } := by
    rw [anotherKey_run]
    split
    next => rfl
    next hgo =>
      cases hfind : findKey (l.passKey j.key) s.hart.die _ _ (Config.freeChoice k 0) with
      | none => rfl
      | some key =>
        have hfree := keyFree_of_findKey hfind
        have hleft : s.hart.id ∉ l.left := fun hin => hgo (by simp [show (l.passKey j.key).left = l.left from rfl, hin])
        have hend : l.runFrom j.key (l.keyState j.key).nextPos = none := by simpa [Launch.runFor, hleft] using hr
        by_cases hkey : key = j.key
        · rw [hkey, keyFree_passKey_self hend] at hfree
          exact absurd hfree (by simp)
        · rw [keyFree_passKey_ne l s.hart.die hkey, hkeys key hkey] at hfree
          exact absurd hfree (by simp)
  refine ⟨c, k + 1, next_retires hs (hn.trans (nextFrom_retires (by rw [setups_of_single hp, Bool.and_false]) hr (launchOf_eq hj hl)
    hnone ?_))⟩
  refine (retireHart_run (j := j) ?_ (Tab.get?_put_self _ _ _)).trans rfl
  exact congrArg some (saveShadow_of_single hp j s.hart)

/-- NEXT begins another key that is free (R25, R327). -/
theorem next_another {i : Nat} (hend : l.runFrom j.key (l.keyState j.key).nextPos = none) (hgang : l.a.isGang = false)
    (hleft : s.hart.id ∉ l.left) (hi : i < keyCount l.a) (hfree : keyFree l s.hart.die (unflatten (spatial l.a) i) = true) :
    ∃ c k key, key ≠ j.key ∧ keyFree l s.hart.die key = true ∧ ∀ u, (startKey j.launch (l.passKey j.key) key j.slot).run { s with
        freeCtr := k, hart := bodyEnded l j c s.hart, launches := s.launches.put j.launch (l.passKey j.key) } = .ok () u →
      exec .next s = .next (if s.hart.requestPending then preempt false false u.retire.hart.pc 0 u.retire else u.retire) := by
  obtain ⟨c, k, hn⟩ := nextOp_run hj hl
  rw [saveShadow_of_single hp] at hn
  have hne : unflatten (spatial l.a) i ≠ j.key := fun he => by simp [keyFree, he, hend] at hfree
  have hsome : (findKey (l.passKey j.key) s.hart.die (keyCount l.a) (keyCount l.a) (Config.freeChoice k 0)).isSome = true :=
    findKey_isSome _ hi ((keyFree_passKey_ne l s.hart.die hne).trans hfree)
  obtain ⟨key, hkey⟩ := Option.isSome_iff_exists.mp hsome
  have hkfree := keyFree_of_findKey hkey
  have hkne : key ≠ j.key := fun he => by
    rw [he, keyFree_passKey_self hend] at hkfree
    exact absurd hkfree (by simp)
  refine ⟨c, k + 1, key, hkne, (keyFree_passKey_ne l s.hart.die hkne).symm.trans hkfree, fun u hu => next_enters hs (hn.trans
    (nextFrom_another (by rw [setups_of_single hp, Bool.and_false]) (by rw [Launch.runFor, hend, ite_self]) (launchOf_eq hj hl) ?_ hu))⟩
  rw [anotherKey_run]
  have hgo : ¬ ((l.passKey j.key).a.isGang || (l.passKey j.key).left.contains s.hart.id || decide (keyCount (l.passKey j.key).a = 0)) = true := by
    have h0 : keyCount l.a ≠ 0 := by omega
    simp [show (l.passKey j.key).a = l.a from rfl, show (l.passKey j.key).left = l.left from rfl, hgang, hleft, h0]
  rw [if_neg hgo]
  exact congrArg (fun o => EStateM.Result.ok o _) hkey

end

/-! ## END and YIELD -/

theorem end_retires {s : State} {j : Job} {l : Launch} (hj : s.hart.job = some j) (hl : s.launchOf s.hart = some l)
    (hs : s.hart.hookSave = none) : exec .endK s = .next
      { State.retireFrom (.hart s.hart.id) j.launch { s with
          launches := (s.launches.put j.launch { l with left := s.hart.id :: l.left }).put j.launch
            (({ l with left := s.hart.id :: l.left } : Launch).passKey j.key) } with hart := s.hart.retire.retired } := by
  change execEnd s = _
  have hjob : s.hart.retire.job = some j := by
    rw [Hart.retire_eq]
    exact hj
  rw [execEnd, hs, Option.isSome_none, if_neg Bool.false_ne_true]
  refine event_ok ?_
  simp only [endKernelOp, Op.run_bind, Op.run_getH, hj, modLaunch_run _ (launchOf_eq hj hl), Op.run_modH]
  refine (retireHart_run (s := { s with
    launches := s.launches.put j.launch { l with left := s.hart.id :: l.left }, hart := s.hart.retire }) hjob
    (Tab.get?_put_self _ _ _)).trans ?_
  rw [Hart.retire_eq]
  rfl

/-- The hart after YIELD (R388). -/
def yielded (c : Clause) (k : Nat) (h : Hart) : Hart := { h.lightState with
  vregs := .undef k, preds := .undef k, sf := .undef k, masks := .undef k, td := .undef (k + 1), tdAddr := .undef (k + 1)
  clause := some c, pc := h.pc + 4 }

theorem yield_outside {s : State} (h : s.hart.hookSave = none ∨ s.hart.mode = .m) : ∃ c,
    let u : State := ({ s with freeCtr := s.freeCtr + 3, hart := yielded c s.freeCtr s.hart } : State).retire
    exec .yield s = .next (if u.hart.requestPending then preempt false false u.hart.pc 0 u else u) := by
  have hout : ¬ (s.hart.hookSave.isSome = true ∧ s.hart.mode = .u) := by
    rcases h with h | h <;> simp [h]
  obtain ⟨c, hc⟩ := undefClause_run { s with freeCtr := s.freeCtr + 2, hart := { s.hart with
    vregs := .undef s.freeCtr, preds := .undef s.freeCtr, sf := .undef s.freeCtr, masks := .undef s.freeCtr
    td := .undef (s.freeCtr + 1), tdAddr := .undef (s.freeCtr + 1) } }
  have hrun : yieldOp.run s = .ok () { s with freeCtr := s.freeCtr + 3, hart := yielded c s.freeCtr s.hart } :=
    Op.bind_ok (undefAll_run s) (Op.bind_ok hc rfl)
  refine ⟨c, ?_⟩
  change execYield s = _
  rw [execYield, if_neg hout, hrun]

/-- Where a key begins does not depend on the other keys. -/
theorem begins_passKey {qu : Queue} {n : Nat} {l : Launch} {key key' : List Nat} {slot : Option Nat} {h : Hart} (hne : key ≠ key') :
    begins qu n (l.passKey key') key slot h ↔ begins qu n l key slot h := by
  have hat : startsAt (l.passKey key') key = startsAt l key := by
    unfold startsAt
    rw [l.keyState_passKey_ne hne]
    rfl
  have hin : startsIn (l.passKey key') key = startsIn l key := by
    unfold startsIn
    rw [l.keyState_passKey_ne hne]
    rfl
  unfold begins
  rw [hat, hin]
  rfl

/-! ## The clauses of O46 -/

/-- What a hart is that has entered a body by NEXT (R28, R29, R222, R327). -/
theorem bodyEntered_facts (r : BodyRun) (l : Launch) (j : Job) (s : State) : let t := (bodyEntered false r l j s).retire
    t.hart.mode = .u ∧ t.hart.pc = BitVec.ofNat 64 ((l.kernel r.inB).hdr + (l.kernel r.inB).entry) ∧ lightVector t.hart ∧
      t.hart.job.bind (·.iter) = some r.iter ∧ t.hart.job.map (·.inB) = some r.inB ∧
      t.hart.xr 10 = BitVec.ofNat 64 (l.kernel r.inB).param ∧ t.hart.xr 2 = stackTop (s.queue l.queue) l r.inB j.slot ∧
      (∀ x : BitVec 5, x ≠ 0 → x ≠ 2 → x ≠ 10 → (l.kernel r.inB).pmask.testBit x.toNat = true →
        t.hart.xr x = (kept l j r.inB s.hart).1.get x.toNat) ∧
      (∀ x : BitVec 5, (l.kernel r.inB).pmask.testBit (32 + x.toNat) = true → t.hart.fr x = (kept l j r.inB s.hart).2.get x.toNat) ∧
      hasIndex t.hart (l.kernel r.inB).exts r.iter ∧ t.hart.grant = s.hart.grant ∧ t.hart.hook = s.hart.hook ∧
      t.hart.pool = (clearSlot l r s.hart).pool ∧
      keyAt t j.launch j.key = some { key := j.key, nextPos := r.pos + 1, holder := some s.hart.id } := by
  have hkept : kept l j r.inB (clearSlot l r s.hart) = kept l j r.inB s.hart := by
    rw [clearSlot_eq]
    rfl
  have hgrant : (clearSlot l r s.hart).grant = s.hart.grant := by rw [clearSlot_eq]
  have hhook : (clearSlot l r s.hart).hook = s.hart.hook := by rw [clearSlot_eq]
  simp only [State.retire_hart, Hart.retire_mode, Hart.retire_pc, lightVector_retire, Hart.retire_job, Hart.retire_xr, Hart.retire_fr,
    hasIndex_retire, Hart.retire_grant, Hart.retire_hook, Hart.retire_pool, keyAt_retire, bodyEntered]
  refine ⟨rfl, rfl, enteredHart_lightVector .., rfl, rfl, enteredHart_xr_ten .., enteredHart_xr_two .., fun x h0 h2 h10 hm => ?_,
    fun x hm => ?_, enteredHart_hasIndex false r.inB (some r) l j _ _ _, hgrant, hhook, rfl,
    (keyAt_put (s := s) j.key).trans (congrArg some (l.keyState_setKey_self { key := j.key, nextPos := _, holder := _ }))⟩
  · rw [enteredHart_xr (h0 := h0) (h2 := h2) (h10 := h10), if_neg Bool.false_ne_true, get_keepX _ _ h0 h2 h10 hm, hkept]
  · rw [← hkept]
    exact get_keepF _ _ hm

section
variable {s : State} {j : Job} {l : Launch} (hj : s.hart.job = some j) (hl : s.launchOf s.hart = some l)
include hj hl

theorem iter_takesTheNextRun {rd : BitVec 5} {r : BodyRun} (hbody : j.inSetup = false) (hp : l.pair = none)
    (hr : l.runFor s.hart.id j.key (l.keyState j.key).nextPos = some r) :
    ∃ t, exec (.iter rd) s = .next t ∧ t = { s with hart := t.hart, launches := t.launches } ∧
      t.hart = (past { s.hart with
        x := t.hart.x, idx := t.hart.idx, idxlin := t.hart.idxlin, job := t.hart.job, freshConvoy := true }).retire ∧
      (rd ≠ 0 → t.hart.xr rd = 1) ∧ (∀ x, x ≠ rd → t.hart.xr x = s.hart.xr x) ∧ hasIndex t.hart l.a.exts r.iter ∧
      keyAt t j.launch j.key = some (.mk j.key (r.pos + 1) (some s.hart.id)) := by
  refine ⟨_, iter_takes hj hl hbody hp hr, rfl, ?_, ?_⟩
  · refine congrArg Hart.retire ?_
    simp only [Claims.onHart, State.retire]
    rw [Hart.retire_eq]
    rfl
  · simp only [Claims.onHart, State.retire_hart, Hart.retire_xr, hasIndex_retire, keyAt_retire]
    exact ⟨fun hrd => Hart.xr_setX_self _ _ _ hrd, fun x hx => Hart.xr_setX_ne _ _ _ _ hx, hasIndex_indicesOf rfl rfl,
      (keyAt_put (s := s) j.key).trans (congrArg some (l.keyState_setKey_self { key := j.key, nextPos := _, holder := _ }))⟩

theorem end_leaves (hs : s.hart.hookSave = none) : ∃ t, exec .endK s = .next t ∧ left t.hart ∧ t.mem = s.mem ∧ t.others = s.others ∧
    (keyAt t j.launch j.key).map (·.holder) = some none ∧
    ((t.launches.get? j.launch).map (·.left.contains s.hart.id)) = some true := by
  refine ⟨_, end_retires hj hl hs, ⟨rfl, rfl, rfl, rfl, rfl⟩, rfl, rfl, ?_, ?_⟩
  · refine (holder_of (Tab.get?_put_self _ _ _) _).trans ?_
    rw [Launch.keyState_passKey_self]
  · refine (congrArg (Option.map fun l : Launch => l.left.contains s.hart.id) (Tab.get?_put_self _ _ _)).trans ?_
    simp [Launch.passKey, Launch.setKey]

variable (hp : l.pair = none) (hs : s.hart.hookSave = none)
include hp hs

theorem next_entersTheBodyAgain {r : BodyRun} (hr : l.runFor s.hart.id j.key (l.keyState j.key).nextPos = some r) :
    ∃ t, exec .next s = .next (if s.hart.requestPending then preempt false false t.hart.pc 0 t else t) ∧
      t.hart.mode = .u ∧ t.hart.pc = BitVec.ofNat 64 (l.a.hdr + l.a.entry) ∧ lightVector t.hart ∧
      (preempt false false t.hart.pc 0 t).hart.mepc = t.hart.pc ∧
      (preempt false false t.hart.pc 0 t).hart.mcause = BitVec.ofNat 64 (2 ^ 63 + 16) ∧ t.hart.job.bind (·.iter) = some r.iter ∧
      t.hart.xr 10 = BitVec.ofNat 64 l.a.param ∧ t.hart.xr 2 = stackTop (s.queue l.queue) l false j.slot ∧
      (∀ x : BitVec 5, x ≠ 2 → x ≠ 10 → l.a.pmask.testBit x.toNat = true → t.hart.xr x = s.hart.xr x) ∧
      (∀ x : BitVec 5, l.a.pmask.testBit (32 + x.toNat) = true → t.hart.fr x = s.hart.fr x) ∧
      hasIndex t.hart l.a.exts r.iter ∧ t.hart.grant = s.hart.grant ∧ t.hart.hook = s.hart.hook ∧ t.hart.pool = s.hart.pool ∧
      keyAt t j.launch j.key = some (.mk j.key (r.pos + 1) (some s.hart.id)) ∧ t.mem = s.mem ∧ t.others = s.others := by
  have hB : r.inB = false := Launch.runFrom_inB hp (Launch.runFor_eq_some hr)
  obtain ⟨c, k, hrun⟩ := next_body hj hl hs (by rw [setups_of_single hp, Bool.and_false]) hr
  rw [saveShadow_of_single hp] at hrun
  obtain ⟨hmode, hpc, hvec, hit, -, hx10, hx2, hx, hf, hidx, hgrant, hhook, hpool, hkey⟩ :=
    bodyEntered_facts r l j { s with freeCtr := k, hart := bodyEnded l j c s.hart }
  have hkept : kept l j r.inB (bodyEnded l j c s.hart) = (s.hart.x, s.hart.f) := by simp only [kept, hp, bodyEnded]
  rw [l.kernel_of_single hp] at hpc hx10 hx hf hidx
  rw [hB] at hx2
  rw [hkept] at hx hf
  rw [clearSlot_of_single hp] at hpool
  refine ⟨_, hrun, hmode, hpc, hvec, preempt_mepc .., preempt_mcause .., hit, hx10, hx2, fun x h2 h10 hm => ?_, hf, hidx, hgrant, hhook,
    hpool, hkey, rfl, rfl⟩
  by_cases h0 : x = 0
  · rw [h0, Hart.xr_zero, Hart.xr_zero]
  · rw [hx x h0 h2 h10 hm, Hart.xr, if_neg h0]

theorem next_retiresTheHart (hr : l.runFor s.hart.id j.key (l.keyState j.key).nextPos = none)
    (hkeys : ∀ key, key ≠ j.key → keyFree l s.hart.die key = false) :
    ∃ t, exec .next s = .next t ∧ left t.hart ∧ t.hart.pool = s.hart.pool ∧ t.mem = s.mem ∧ t.others = s.others ∧
      (keyAt t j.launch j.key).map (·.holder) = some none := by
  obtain ⟨c, k, hrun⟩ := next_last hj hl hs hp hr hkeys
  refine ⟨_, hrun, ?_⟩
  simp only [State.retire_hart, left_retire, Hart.retire_pool, State.retire_mem, State.retire_others, keyAt_retire]
  refine ⟨⟨rfl, rfl, rfl, rfl, rfl⟩, rfl, rfl, rfl, (holder_of (Tab.get?_put_self _ _ _) _).trans ?_⟩
  rw [Launch.keyState_passKey_self]

theorem next_beginsAnotherKey {i : Nat} (hend : l.runFrom j.key (l.keyState j.key).nextPos = none) (hgang : l.a.isGang = false)
    (hleft : s.hart.id ∉ l.left) (hi : i < keyCount l.a) (hfree : keyFree l s.hart.die (unflatten (spatial l.a) i) = true)
    (hb : entryBanks l ≤ 63) :
    ∃ t key, exec .next s = .next (if s.hart.requestPending then preempt false false t.hart.pc 0 t else t) ∧ key ≠ j.key ∧
      keyFree l s.hart.die key = true ∧ begins (s.queue l.queue) j.launch l key j.slot t.hart ∧
      (t.hart.job.map (·.since)) = some s.time ∧ t.hart.preq = s.hart.preq ∧ (keyAt t j.launch j.key).map (·.holder) = some none ∧
      (keyAt t j.launch key).map (·.holder) = some (some s.hart.id) ∧ t.mem = s.mem ∧ t.others = s.others := by
  obtain ⟨c, k, key, hne, hkfree, hrun⟩ := next_another hj hl hs hp hend hgang hleft hi hfree
  have hstate := l.keyState_passKey_ne hne
  have hpos : ((l.passKey j.key).runFrom key ((l.passKey j.key).keyState key).nextPos).isSome = true := by
    rw [hstate]
    simp only [keyFree, Bool.and_eq_true] at hkfree
    exact hkfree.1.2
  obtain ⟨h, l', hstart, hbeg, hid, hpreq, hsince, hhold, hothers, -⟩ := startKey_run (s := { s with
    freeCtr := k, hart := bodyEnded l j c s.hart, launches := s.launches.put j.launch (l.passKey j.key) }) (n := j.launch) (slot := j.slot)
    (Tab.get?_put_self _ _ _) hpos hb
  refine ⟨_, key, hrun _ hstart, hne, hkfree, ?_⟩
  simp only [State.retire_hart, begins_retire, Hart.retire_job, Hart.retire_preq, keyAt_retire]
  refine ⟨(begins_passKey hne).mp hbeg, hsince, hpreq, (holder_of (Tab.get?_put_self _ _ _) _).trans ?_, (holder_of (Tab.get?_put_self _ _ _) _).trans ?_, rfl, rfl⟩
  · rw [hothers j.key hne.symm, Launch.keyState_passKey_self]
  · exact congrArg some hhold
end

end Sys2Proof.Machine

open Sys2Proof Sys2Proof.Machine Sys2Proof.Claims

/-- Settles O46: each instruction as the run of what it does with the hart's key, the entry that follows being the one of every launch. -/
theorem iterationInstructionsComplete : Obligations.IterationInstructionsComplete := by
  unfold Obligations.IterationInstructionsComplete
  refine ⟨fun rd s j l r hj hl hbody hp hr => iter_takesTheNextRun hj hl hbody hp hr, fun rd s h => iter_ends h,
    fun s j l r hj hl hp hs hr => next_entersTheBodyAgain hj hl hp hs hr,
    fun s j l hj hl hp hs hr hkeys => next_retiresTheHart hj hl hp hs hr hkeys,
    fun s j l i hj hl hp hs hend hgang hleft hi hfree hb => next_beginsAnotherKey hj hl hp hs hend hgang hleft hi hfree hb,
    fun s j l hj hl hs => end_leaves hj hl hs, ?yield, ?hook⟩
  case yield =>
    intro s h
    obtain ⟨c, hrun⟩ := yield_outside h
    obtain ⟨n, hn⟩ := State.retire_eq { s with freeCtr := s.freeCtr + 3, hart := yielded c s.freeCtr s.hart }
    rw [hn] at hrun
    exact ⟨_, hrun, ⟨rfl, rfl, rfl, rfl, rfl, rfl, rfl, _, _, rfl, rfl, rfl, rfl, rfl, rfl⟩, rfl, rfl, rfl, rfl, rfl, rfl, rfl, rfl, rfl,
      rfl, rfl⟩
  case hook =>
    intro s c h
    refine ⟨?_, ?_, fun hm => ?_⟩
    · change execNext s = _
      rw [execNext, h, Option.isSome_some, if_pos rfl]
    · change execEnd s = _
      rw [execEnd, h, Option.isSome_some, if_pos rfl]
    · change execYield s = _
      rw [execYield, h, Option.isSome_some, if_pos ⟨rfl, hm⟩]

end

section
/-!
SUPPORT. A tuple that is no key of a launch, for which the steps of R221 and the runs of the model part (R24, R221).
-/

namespace Sys2Proof.Machine
open Sys2Proof.Claims

/-- A kernel of one level over harts with one hart key. -/
def oneKeyKernel : Kernel where
  hdr := 0
  sysrel := false
  overlap := false
  nosplice := false
  param := 0
  trans := 0
  exts := [1]
  waitCtr := 0
  waitTgt := 0
  doneCtr := 0
  flags := 0
  profile := 0
  entry := 96
  setOff := 0
  nvreg := 32
  minRows := 1
  minLen := 1
  coreSp := 0
  clSpb := 0
  levels := [1]
  paramSz := 0
  pmask := 0
  feat := 0
  stack := 0
  maps := []

/-- An element map with no dimension. -/
def emptyMap : ElemMap where
  pidx := 0
  mode := 1
  dims := 0
  mat := []
  off := []
  box := []
  desc := 0
  descVa := 0
  owners := []

/-- Such kernels as a pair without lag. -/
def oneKeyPair : Pair := { b := oneKeyKernel, dist := 1, lag := 0, materialised := false, mapA := emptyMap, mapB := emptyMap }

def oneKeyLaunch : Launch := { queue := 0, recIdx := 0, a := oneKeyKernel, pair := some oneKeyPair, keys := [], left := [], ended := false }

/-- The step that R221's numbers give for the tuple `[1]`, which is no key of the launch: its index lies outside EXT. -/
def outsideStep : BodyRun := { pos := 0, inB := false, iter := [1], u := 0, j := 1 }

/-- A tuple outside the extents runs nothing. -/
theorem oneKeyLaunch_outside_runs_nothing : oneKeyLaunch.runFrom [1] 0 = none := by decide

theorem isStep_outsideStep : isStep oneKeyLaunch.a oneKeyPair [1] outsideStep := by
  unfold isStep
  rw [if_neg (by decide)]
  decide
end Sys2Proof.Machine

open Sys2Proof Sys2Proof.Machine Sys2Proof.Claims

/-- Refutes O50: its clause on the order of a key's steps holds of keys, and does not say that its tuple is one. Where the innermost level
is over harts, `isStep` gives kernel A a step at any tuple; the model's A, whose body runs inside its extents only, runs nothing at `[1]`
in a launch with the one key `[0]`. -/
theorem not_distributionCompletes : ¬ Obligations.DistributionCompletes := by
  unfold Obligations.DistributionCompletes
  intro h
  obtain ⟨-, hloop, -⟩ := h
  have hnone := hloop oneKeyLaunch oneKeyPair [1] 0 rfl (by decide) (by decide) (fun _ => rfl)
  rw [oneKeyLaunch_outside_runs_nothing] at hnone
  exact hnone outsideStep (Nat.le_refl 0) isStep_outsideStep
end

section
/-!
SUPPORT. The checks of Table 02-5: what a read that may fail answers, each check as its statement, and the validation of a record (R52).
-/

namespace Sys2Proof.Machine

open Sys2Proof.Claims

/-! ## Reads that may fail -/

section
variable {α : Type} {x : Op α} {s t : State}

theorem attempt_ok {a : α} (h : x.run s = .ok a t) : (attempt x).run s = .ok (some a) t := Op.tryCatch_ok (Op.bind_ok h rfl)

theorem attempt_trap {tr : Trap} (h : x.run s = .error (.trap tr) t) : (attempt x).run s = .ok none t :=
  Op.tryCatch_error (Op.bind_error h) rfl
end

/-! ## The record taken -/

section
variable {q i : Nat} {s u : State}

theorem recordTaken_unreadable (h : i ∈ (s.queue q).unreadable) : (recordTaken q i).run s = .ok none s := by
  simp only [recordTaken, Op.run_bind, Op.run_get, if_pos (List.contains_iff_mem.mpr h), Op.run_pure]

theorem recordTaken_taken {r : BitVec 512} (h : i ∉ (s.queue q).unreadable) (hr : (s.queue q).taken.get? i = some r) :
    (recordTaken q i).run s = .ok (some r) s := by
  simp only [recordTaken, Op.run_bind, Op.run_get, if_neg (mt List.contains_iff_mem.mp h), hr, Op.run_pure]

theorem recordTaken_reads (h : i ∉ (s.queue q).unreadable) (hr : (s.queue q).taken.get? i = none) : (recordTaken q i).run s =
    (attempt (do return BitVec.ofNat 512 (← qReadNat q ((s.queue q).recordAt i) 64))).run s := by
  simp only [recordTaken, Op.run_bind, Op.run_get, if_neg (mt List.contains_iff_mem.mp h), hr]

/-! ## Validation -/

theorem validate_untaken (h : (recordTaken q i).run s = .ok none u) : (validate q i).run s = .ok (.inl 6) u :=
  Op.bind_ok (Op.run_get s) (Op.bind_ok h rfl)

section
variable {rec : BitVec 512} {v : State} (hr : (recordTaken q i).run s = .ok (some rec) v)
include hr

theorem validate_unread {tr : Trap} (h : (readLaunch q ((s.queue q).recordAt i) rec).run v = .error (.trap tr) u) :
    (validate q i).run s = .ok (.inl 6) u :=
  Op.bind_ok (Op.run_get s) (Op.bind_ok hr (Op.bind_ok (attempt_trap h) rfl))

/-- A record that can be read is judged by the first check that fails. -/
theorem validate_read {r : RawLaunch} (h : (readLaunch q ((s.queue q).recordAt i) rec).run v = .ok r u) :
    (validate q i).run s = .ok ((firstFailure s (s.queue q) i r).elim (.inr r.k) .inl) u := by
  refine Op.bind_ok (Op.run_get s) (Op.bind_ok hr (Op.bind_ok (attempt_ok h) ?_))
  cases hf : firstFailure s (s.queue q) i r <;> simp only [hf] <;> rfl
end
end

/-! ## Each check as the table states it -/

theorem offsetOk_iff (n : Nat) : offsetOk n = true ↔ n % 2 = 0 ∧ 0x60 ≤ n := by simp [offsetOk]

theorem headerOk_iff (r : RawLaunch) : headerOk r = true ↔ headerFits r := by
  simp only [headerOk, headerFits, mapOk, Bool.and_eq_true, Bool.or_eq_true, offsetOk_iff, decide_eq_true_eq, List.all_eq_true,
    List.contains_iff_mem, and_assoc]

theorem profileMeets_iff {want have' : Nat} (hw : want < 256) (hh : have' < 256) :
    profileMeets want have' = true ↔ want / 16 = 0 ∨ want / 16 = have' / 16 ∧ want % 16 ≤ have' % 16 := by
  have h1 : want / 16 % 16 = want / 16 := by omega
  have h2 : have' / 16 % 16 = have' / 16 := by omega
  simp [profileMeets, h1, h2]

theorem profileOk_iff (k : Kernel) : profileOk k = true ↔ profileFits k := by
  have hd : ∀ i, i < 3 → deviceProfile / 2 ^ (8 * i) % 256 = [0x12, 0x11, 0x10].getD i 0 := by decide
  simp only [profileOk, profileFits, List.all_eq_true, List.mem_range]
  refine forall₂_congr fun i hi => ?_
  rw [profileMeets_iff (Nat.mod_lt _ (by decide)) (Nat.mod_lt _ (by decide)), hd i hi]

theorem touchesElided_iff (qu : Queue) (idx : Nat) (k : Kernel) : touchesElided qu idx k = true ↔ namesElided qu idx k := by
  simp only [touchesElided, namesElided, List.any_eq_true, Bool.and_eq_true, decide_eq_true_eq, and_assoc, ne_eq]

theorem minimumsMet_iff (k : Kernel) (banks : Nat) : minimumsMet k banks = true ↔ minimumsFit k banks := by
  simp only [minimumsMet, minimumsFit, Bool.and_eq_true, decide_eq_true_eq, and_assoc]
  rfl

theorem stackOk_iff (k : Kernel) (qu : Queue) : stackOk k qu = true ↔ k.stack = 0 ∨ qu.cstklog ≠ 0 ∧ k.stack ≤ 2 ^ qu.cstklog := by
  simp only [stackOk, Bool.or_eq_true, Bool.and_eq_true, decide_eq_true_eq]

theorem anyCore_iff (s : State) : s.anyCore = true ↔ coreRemains s := by
  simp only [State.anyCore, coreRemains, List.any_eq_true, List.mem_range, Bool.not_eq_true']

theorem resourceOk_iff (s : State) (qu : Queue) (k : Kernel) : resourceOk s qu k = true ↔ resourcesFit s qu k := by
  simp only [resourceOk, resourcesFit, banksFor, Bool.and_eq_true, minimumsMet_iff, stackOk_iff, anyCore_iff, and_assoc]

theorem privBarred_iff (k : Kernel) (qu : Queue) : (kPriv k && !qu.cpriv) = true ↔ k.flags.testBit 1 = true ∧ qu.cpriv = false := by
  simp only [kPriv, Bool.and_eq_true, Bool.not_eq_true']

/-- A check that its statement refutes answers false. -/
theorem eq_false_of_iff {b : Bool} {P : Prop} (h : b = true ↔ P) (hP : ¬ P) : b = false := by
  rw [← Bool.not_eq_true, h]
  exact hP

theorem recordChecksFollow : RecordChecksFollow := by
  refine ⟨fun q i s => ⟨recordTaken_unreadable, fun r => recordTaken_taken, fun bs u hi hr h => ?_, fun tr u hi hr h => ?_⟩,
    fun q i s u => validate_untaken, fun q i s rec v tr u hr h => validate_unread hr h, fun q i s rec v r u hr h => ?_⟩
  · rw [recordTaken_reads hi hr]
    exact attempt_ok (Op.bind_ok (Op.bind_ok h rfl) rfl)
  · rw [recordTaken_reads hi hr]
    exact attempt_trap (Op.bind_error (Op.bind_error h))
  · intro qu needsPriv answers
    have hjudged : ∀ {o : Option Nat}, firstFailure s qu i r = o → answers (o.elim (.inr r.k) .inl) := by
      rintro _ rfl
      exact validate_read hr h
    have header := headerOk_iff r
    have priv : _ ↔ needsPriv := privBarred_iff r.k qu
    have profile := profileOk_iff r.k
    have elided := touchesElided_iff qu i r.k
    have resources := resourceOk_iff s qu r.k
    have small : r.k.exts.prod < 2 ^ 48 → ¬ 2 ^ 48 ≤ r.k.product := Nat.not_le.mpr
    refine ⟨fun h1 => hjudged (o := some 1) ?_, fun h1 h2 => hjudged (o := some 7) ?_, fun h1 h2 h3 => hjudged (o := some 2) ?_,
      fun h1 h2 h3 h4 => hjudged (o := some 3) ?_, fun h1 h2 h3 h4 h5 => hjudged (o := some 5) ?_,
      fun h1 h2 h3 h4 h5 h6 => hjudged (o := some 4) ?_, fun h1 h2 h3 h4 h5 h6 => hjudged (o := none) ?_⟩
    · rw [firstFailure, eq_false_of_iff header h1]
      rfl
    · rw [firstFailure, header.mpr h1, priv.mpr h2]
      rfl
    · rw [firstFailure, header.mpr h1, eq_false_of_iff priv h2, eq_false_of_iff profile h3]
      rfl
    · rw [firstFailure, header.mpr h1, eq_false_of_iff priv h2, profile.mpr h3]
      exact if_pos h4
    · rw [firstFailure, header.mpr h1, eq_false_of_iff priv h2, profile.mpr h3, elided.mpr h5]
      exact if_neg (small h4)
    · rw [firstFailure, header.mpr h1, eq_false_of_iff priv h2, profile.mpr h3, eq_false_of_iff elided h5, eq_false_of_iff resources h6]
      exact if_neg (small h4)
    · rw [firstFailure, header.mpr h1, eq_false_of_iff priv h2, profile.mpr h3, eq_false_of_iff elided h5, resources.mpr h6]
      exact if_neg (small h4)

end Sys2Proof.Machine
end

section
/-!
SUPPORT. The Conjunction: each condition of Table 12-2 as its statement, the pair that they form, and the search of the window for the first
consumer (R216 to R219, R223, R227).
-/

namespace Sys2Proof.Machine

open Sys2Proof.Claims

/-! ## The maps on one tensor -/

theorem sameTensor_refl (d : BitVec 512) : sameTensor d d = true := by simp [sameTensor]

section
variable {a b : Kernel} {ma mb : ElemMap} {lag : Nat}

/-- Conditions 4 and 5: each kernel has one map entry on T, and of which kind it is. -/
theorem mapsOn_eq_some (hma : ma ∈ a.goodMaps) : mapsOn a b ma = some mb ↔
    (a.goodMaps.filter fun m => sameTensor m.desc ma.desc) = [ma] ∧ ma.mode = 2 ∧ a.trans.testBit ma.pidx = true ∧
    (b.goodMaps.filter fun m => sameTensor m.desc ma.desc) = [mb] ∧ mb.mode = 1 := by
  have hself : ma ∈ a.goodMaps.filter fun m => sameTensor m.desc ma.desc := List.mem_filter.mpr ⟨hma, sameTensor_refl _⟩
  unfold mapsOn
  simp only
  split
  next m n hm hn =>
    obtain rfl : ma = m := by simpa [hm] using hself
    rw [hm, hn]
    split
    next h =>
      simp only [Bool.and_eq_true, decide_eq_true_eq] at h
      obtain ⟨⟨h2, h1⟩, ht⟩ := h
      simp only [Option.some.injEq, List.cons.injEq, and_true, true_and, h2, ht]
      exact ⟨fun e => ⟨e, e ▸ h1⟩, And.left⟩
    next h =>
      simp only [Bool.and_eq_true, decide_eq_true_eq] at h
      refine iff_of_false (by simp) ?_
      rintro ⟨-, h2, ht, hn', h1⟩
      simp only [List.cons.injEq, and_true] at hn'
      exact h ⟨⟨h2, hn' ▸ h1⟩, ht⟩
  next hno =>
    refine iff_of_false (by simp) ?_
    rintro ⟨hm, -, -, hn, -⟩
    exact hno _ _ hm hn

theorem isTiling_iff (k : Kernel) (m' : ElemMap) : isTiling k m' = true ↔ tiles k m' := by
  simp only [isTiling, tiles, Bool.and_eq_true, List.all_eq_true, List.mem_range, decide_eq_true_eq, Bool.or_eq_true, and_assoc]
  refine and_congr Iff.rfl (and_congr (forall₂_congr fun l _ => ?_)
    ⟨fun h i j hi hj => h i hi j hj, fun h i hi j hj => h i j hi hj⟩)
  rw [← Nat.not_lt, ← imp_iff_not_or]

theorem isDense_iff (d' : BitVec 512) : isDense d' = true ↔ dense d' := by
  simp only [isDense, dense, Bool.and_eq_true, Bool.not_eq_true', List.all_eq_true, List.mem_range, decide_eq_true_eq, and_assoc]

/-- B's box is A's, longer by `n` slots in one dimension (Table 12-3). -/
def growsBy (a : Kernel) (ma mb : ElemMap) (n : Nat) : Prop :=
  ∃ i, i < ma.dims ∧ ma.coef i (a.levels.length - 1) ≠ 0 ∧
    (mb.box.getD i 0 : Int) = ma.coef i (a.levels.length - 1) * (1 + (n : Int)) ∧ mb.box = ma.box.set i (mb.box.getD i 0)

/-- A list that differs from another in one place only, and in a second place only, does not differ. -/
theorem eq_of_set_set {l l' : List Nat} {i j x y : Nat} (hij : i ≠ j) (hi : l' = l.set i x) (hj : l' = l.set j y) : l = l' := by
  refine List.ext_getElem? fun k => ?_
  by_cases hk : k = i
  · rw [hj, List.getElem?_set_ne (by omega)]
  · rw [hi, List.getElem?_set_ne (by omega)]

/-- A box that grows does so by one lag. -/
theorem growsBy_unique {m' n : Nat} (hbox : ma.box ≠ mb.box) (hm : growsBy a ma mb m') (hn : growsBy a ma mb n) : m' = n := by
  obtain ⟨i, -, hc, hi, hbi⟩ := hm
  obtain ⟨j, -, -, hj, hbj⟩ := hn
  by_cases hij : i = j
  · subst hij
    have := mul_left_cancel₀ hc (hi.symm.trans hj)
    omega
  · exact absurd (eq_of_set_set hij hbi hbj) hbox

/-- A search of 1 and 2 for what only one of them can be. -/
theorem find?_one_two {p : Nat → Bool} {G : Nat → Prop} (hp : ∀ n, p n = true ↔ G n) (huniq : ¬ (G 1 ∧ G 2)) (n : Nat) :
    [1, 2].find? p = some n ↔ (n = 1 ∨ n = 2) ∧ G n := by
  constructor
  · exact fun h => ⟨by simpa using List.mem_of_find?_eq_some h, (hp n).mp (List.find?_some h)⟩
  · rintro ⟨rfl | rfl, h⟩
    · rw [List.find?_cons_of_pos ((hp 1).mpr h)]
    · have h1 : ¬ p 1 = true := fun h1 => huniq ⟨(hp 1).mp h1, h⟩
      rw [List.find?_cons_of_neg h1, List.find?_cons_of_pos ((hp 2).mpr h)]

theorem pattern_eq_some : pattern a b ma mb = some lag ↔ composes a b ma mb lag := by
  unfold pattern composes
  simp only [Bool.or_eq_true, Bool.not_eq_true', decide_eq_true_eq]
  split
  next hform =>
    refine iff_of_false (by simp) ?_
    rintro ⟨h1, h2, h3, h4, -⟩
    simp [h1, h2, h3, h4] at hform
  next hform =>
    obtain ⟨h1, h2, h3, h4⟩ : a.levels = b.levels ∧ ma.mat = mb.mat ∧ ma.off = mb.off ∧ ma.dims = mb.dims := by
      simpa [and_assoc] using hform
    rw [and_iff_right h1, and_iff_right h2, and_iff_right h3, and_iff_right h4]
    by_cases hbox : ma.box = mb.box
    · rw [if_pos hbox]
      split
      next hall =>
        simp only [List.all_eq_true, decide_eq_true_eq] at hall
        simp only [hbox, ne_eq, not_true_eq_false, false_and, or_false, true_and, Option.some.injEq, eq_comm (a := 0)]
        exact (and_iff_left fun p hp => hall p hp).symm
      next hall =>
        simp only [List.all_eq_true, decide_eq_true_eq] at hall
        refine iff_of_false (by simp) ?_
        rintro (⟨-, -, h⟩ | ⟨h, -⟩)
        · exact hall fun p hp => h p hp
        · exact h hbox
    · rw [if_neg hbox]
      split
      next hbar =>
        refine iff_of_false (by simp) ?_
        rintro (⟨h, -⟩ | ⟨-, hexts, htemp, -⟩)
        · exact hbox h
        · exact hbar.elim (fun h => h hexts) fun h => decide_eq_false_iff_not.mp h htemp
      next hopen =>
        simp only [not_or, Bool.not_eq_false, not_not] at hopen
        obtain ⟨hexts, htemp⟩ := hopen
        have htemp : a.levels.getLastD 0 = 0 := decide_eq_true_iff.mp htemp
        rw [find?_one_two (G := growsBy a ma mb) (fun n => ?_) (fun h => absurd (growsBy_unique hbox h.1 h.2) (by omega))]
        · simp only [hbox, false_and, false_or, ne_eq, not_false_eq_true, hexts, htemp, true_and]
          rfl
        · simp only [growsBy, List.any_eq_true, List.mem_range, Bool.and_eq_true, decide_eq_true_eq, and_assoc]
end

/-! ## The other conditions of Table 12-2 -/

theorem mayPair_iff (k : Kernel) : mayPair k = true ↔ k.nosplice = false ∧ k.flags.testBit 0 = true ∧ k.flags.testBit 5 = false ∧
    k.flags.testBit 1 = false ∧ k.feat.testBit 3 = false ∧ k.isGang = false := by
  simp only [mayPair, kSplice, kPriv, kExt, Bool.and_eq_true, Bool.not_eq_true', and_assoc]

theorem waitOk_iff (a b : Kernel) (v : Option Nat) : waitOk a b v = true ↔
    b.waitCtr = 0 ∨ ∃ x, v = some x ∧ (b.waitTgt ≤ x ∨ b.waitCtr = a.doneCtr ∧ b.waitTgt ≤ x + 1) := by
  cases v <;> simp [waitOk]

theorem writes_iff (m' : ElemMap) : writes m' = true ↔ m'.mode = 2 ∨ m'.mode = 3 := by simp [writes]

/-- Does a record of the window name a range that meets T's, by a map entry of which `p` holds? -/
def meetsBy (ma : ElemMap) (w : WinRec) (p : ElemMap → Bool) : Bool :=
  match w.raw with
  | some k => k.rangeMaps.any fun m => p m && mapsMeet m ma
  | none => false

theorem meetsBy_iff (ma : ElemMap) (w : WinRec) (p : ElemMap → Bool) : meetsBy ma w p = true ↔
    ∃ k, w.raw = some k ∧ ∃ m ∈ k.rangeMaps, p m = true ∧ mapsMeet m ma = true := by
  unfold meetsBy
  cases w.raw <;> simp

theorem goodMaps_mode {k : Kernel} {m' : ElemMap} (h : m' ∈ k.goodMaps) : 1 ≤ m'.mode ∧ m'.mode ≤ 3 := by
  simp only [Kernel.goodMaps, List.mem_filter, mapOk, Bool.and_eq_true, decide_eq_true_eq, and_assoc] at h
  exact ⟨h.2.1, h.2.2.1⟩

theorem clash_false_iff (ms : List ElemMap) (b : Kernel) : clash ms b.goodMaps = false ↔
    ∀ m ∈ ms, ∀ n ∈ b.goodMaps, (m.mode = 2 ∨ m.mode = 3 ∨ 2 ≤ n.mode) → mapsMeet m n = false := by
  simp only [clash, List.any_eq_false, Bool.and_eq_true, Bool.or_eq_true, writes_iff, not_and, Bool.not_eq_true]
  refine forall₂_congr fun m' _ => forall₂_congr fun n hn => imp_congr_left ?_
  obtain ⟨-, h3⟩ := goodMaps_mode hn
  omega

theorem betweenOk_iff (ws : List WinRec) (b : Kernel) : betweenOk ws b = true ↔
    ∀ w ∈ ws, ∃ k, w.raw = some k ∧ w.tableOk = true ∧ k.flags.testBit 0 = true ∧
      ∀ m ∈ k.rangeMaps, ∀ n ∈ b.goodMaps, (m.mode = 2 ∨ m.mode = 3 ∨ 2 ≤ n.mode) → mapsMeet m n = false := by
  simp only [betweenOk, List.all_eq_true]
  refine forall₂_congr fun w _ => ?_
  cases w.raw with
  | none => simp
  | some k => simp only [Bool.and_eq_true, Bool.not_eq_true', clash_false_iff, kSplice, and_assoc, Option.some.injEq, exists_eq_left']

/-- Condition 10 on two maps: what A writes and B touches, what B writes and A reads. -/
theorem restPair_iff {m' n : ElemMap} (hm : 1 ≤ m'.mode ∧ m'.mode ≤ 3) (hn : 1 ≤ n.mode ∧ n.mode ≤ 3) (meet : Bool) :
    (!((writes m' && meet) || (writes n && reads m' && meet))) = true ↔
      (2 ≤ m'.mode → meet = false) ∧ (2 ≤ n.mode → m'.mode % 2 = 1 → meet = false) := by
  cases meet with
  | false => simp
  | true =>
    simp only [writes, reads, Bool.and_true, Bool.not_eq_true', Bool.or_eq_false_iff, Bool.and_eq_false_imp, Bool.or_eq_true,
      decide_eq_false_iff_not, decide_eq_true_eq, Bool.true_eq_false, imp_false]
    omega

theorem restOk_iff (a b : Kernel) (t : BitVec 512) : restOk a b t = true ↔
    ∀ m ∈ a.goodMaps, ∀ n ∈ b.goodMaps, sameTensor m.desc t = false → sameTensor n.desc t = false →
      (2 ≤ m.mode → mapsMeet m n = false) ∧ (2 ≤ n.mode → m.mode % 2 = 1 → mapsMeet m n = false) := by
  have hpair : ∀ m' ∈ a.goodMaps, ∀ n ∈ b.goodMaps, _ ↔ _ :=
    fun m' hm n hn => restPair_iff (goodMaps_mode hm) (goodMaps_mode hn) (mapsMeet m' n)
  simp only [restOk, List.all_eq_true, List.mem_filter, Bool.not_eq_true', and_imp] at hpair ⊢
  exact ⟨fun h m' hm n hn h1 h2 => (hpair m' hm n hn).mp (h m' hm h1 n hn h2),
    fun h m' hm h1 n hn h2 => (hpair m' hm n hn).mpr (h m' hm n hn h1 h2)⟩

theorem pairFits_iff (s : State) (qu : Queue) (a b : Kernel) (ma : ElemMap) (lag : Nat) : pairFits s qu a b ma lag = true ↔
    let banks := (a.coreSp + 16383) / 16384 + (b.coreSp + 16383) / 16384 + ((lag + 1) * ma.slotBytes + 16383) / 16384
    minimumsFit a banks ∧ minimumsFit b banks ∧ a.clSpb + b.clSpb ≤ 8388608 ∧
    (∀ k ∈ [a, b], k.stack = 0 ∨ qu.cstklog ≠ 0 ∧ 2 * k.stack ≤ 2 ^ qu.cstklog) ∧ coreRemains s := by
  simp only [pairFits, banksFor, Bool.and_eq_true, Bool.or_eq_true, decide_eq_true_eq, minimumsMet_iff, anyCore_iff, List.forall_mem_cons,
    List.not_mem_nil, false_imp_iff, implies_true, and_true]
  constructor
  · rintro ⟨⟨⟨⟨⟨⟨-, hcl⟩, ha⟩, hb⟩, hsa⟩, hsb⟩, hcore⟩
    exact ⟨ha, hb, hcl, ⟨hsa, hsb⟩, hcore⟩
  · rintro ⟨ha, hb, hcl, ⟨hsa, hsb⟩, hcore⟩
    exact ⟨⟨⟨⟨⟨⟨decide_eq_true ha.1, hcl⟩, ha⟩, hb⟩, hsa⟩, hsb⟩, hcore⟩

/-! ## The pair -/

section
variable {s : State} {qu : Queue} {a b : Kernel} {win : List WinRec} {idxB lag : Nat} {v : Option Nat} {ma mb : ElemMap}

/-- The pair of A and B on their maps of T. -/
def pairFormed (qu : Queue) (b : Kernel) (win : List WinRec) (idxB : Nat) (ma mb : ElemMap) (lag : Nat) : Pair where
  b := b
  dist := idxDist idxB qu.head.toNat
  lag := lag
  mapA := ma
  mapB := mb
  materialised := (win.filter (·.idx ≠ idxB)).any (fun w => meetsBy ma w fun _ => true) || 64 ≤ qu.elisions.length

/-- The conditions of Table 12-2 but those on the maps on T. -/
def restSplices (s : State) (qu : Queue) (a b : Kernel) (win : List WinRec) (idxB : Nat) (v : Option Nat) (ma : ElemMap) (lag : Nat) : Bool :=
  mayPair a && mayPair b && !(qu.barriers.any fun x => idxDist x qu.head.toNat ≠ 0 && idxDist x qu.head.toNat ≤ idxDist idxB qu.head.toNat)
    && waitOk a b v && a.pmask &&& b.pmask = 0 && !(win.any fun w => meetsBy ma w writes)
    && betweenOk ((win.filter (·.idx ≠ idxB)).filter fun w => idxDist w.idx qu.head.toNat < idxDist idxB qu.head.toNat) b
    && restOk a b ma.desc && pairFits s qu a b ma lag

theorem pairOn_eq_some {p : Pair} : pairOn s qu a win idxB b v ma = some p ↔
    ∃ mb lag, mapsOn a b ma = some mb ∧ (isTiling a ma = true ∧ isDense ma.desc = true ∧ isDense mb.desc = true) ∧
      pattern a b ma mb = some lag ∧ restSplices s qu a b win idxB v ma lag = true ∧ pairFormed qu b win idxB ma mb lag = p := by
  unfold pairOn
  cases hm : mapsOn a b ma with
  | none => simp
  | some mb =>
    simp only [Option.some.injEq, exists_and_left, exists_eq_left']
    rw [← and_assoc (b := isDense ma.desc = true), ← Bool.and_eq_true, ← Bool.and_eq_true]
    cases ht : isTiling a ma && isDense ma.desc && isDense mb.desc with
    | false => simp
    | true =>
      simp only [if_true, true_and]
      cases hp : pattern a b ma mb with
      | none => simp
      | some lag =>
        simp only [Option.some.injEq, exists_eq_left']
        change (if restSplices s qu a b win idxB v ma lag = true then some (pairFormed qu b win idxB ma mb lag) else none) = some p ↔ _
        split
        next h => simp [h]
        next h => simp [h]

theorem noneWrites_iff : (∀ w ∈ win, ¬ meetsBy ma w writes = true) ↔
    ∀ w ∈ win, ∀ k, w.raw = some k → ∀ m ∈ k.rangeMaps, (m.mode = 2 ∨ m.mode = 3) → mapsMeet m ma = false := by
  simp only [meetsBy_iff, writes_iff, not_exists, not_and, Bool.not_eq_true]

theorem restSplices_iff : restSplices s qu a b win idxB v ma lag = true ↔
    (∀ k ∈ [a, b], mayPair k = true) ∧
    (∀ x ∈ qu.barriers, ¬ (idxDist x qu.head.toNat ≠ 0 ∧ idxDist x qu.head.toNat ≤ idxDist idxB qu.head.toNat)) ∧
    waitOk a b v = true ∧ a.pmask &&& b.pmask = 0 ∧
    (∀ w ∈ win, ∀ k, w.raw = some k → ∀ m ∈ k.rangeMaps, (m.mode = 2 ∨ m.mode = 3) → mapsMeet m ma = false) ∧
    (∀ w ∈ win, w.idx ≠ idxB → idxDist w.idx qu.head.toNat < idxDist idxB qu.head.toNat → ∃ k, w.raw = some k ∧ w.tableOk = true ∧
      k.flags.testBit 0 = true ∧
      ∀ m ∈ k.rangeMaps, ∀ n ∈ b.goodMaps, (m.mode = 2 ∨ m.mode = 3 ∨ 2 ≤ n.mode) → mapsMeet m n = false) ∧
    restOk a b ma.desc = true ∧ pairFits s qu a b ma lag = true := by
  simp only [restSplices, Bool.and_eq_true, Bool.not_eq_true', noneWrites_iff, betweenOk_iff, List.any_eq_false, decide_eq_true_eq,
    List.mem_filter, List.forall_mem_cons, List.not_mem_nil, false_imp_iff, implies_true, and_true, and_assoc, and_imp]

theorem splices_iff (hma : ma ∈ a.goodMaps) : splices s qu a b win idxB v ma mb lag ↔
    mapsOn a b ma = some mb ∧ (isTiling a ma = true ∧ isDense ma.desc = true ∧ isDense mb.desc = true) ∧
      pattern a b ma mb = some lag ∧ restSplices s qu a b win idxB v ma lag = true := by
  rw [mapsOn_eq_some hma, isTiling_iff, isDense_iff, isDense_iff, pattern_eq_some, restSplices_iff, waitOk_iff, restOk_iff, pairFits_iff]
  constructor
  · rintro ⟨hpair, hbar, hwait, hmask, hA, h2, ht, hB, h1, hdA, hdB, htile, hcomp, hwin, hbtw, hrest, hfits⟩
    exact ⟨⟨hA, h2, ht, hB, h1⟩, ⟨htile, hdA, hdB⟩, hcomp, fun k hk => (mayPair_iff k).mpr (hpair k hk), hbar, hwait, hmask, hwin, hbtw,
      hrest, hfits⟩
  · rintro ⟨⟨hA, h2, ht, hB, h1⟩, ⟨htile, hdA, hdB⟩, hcomp, hpair, hbar, hwait, hmask, hwin, hbtw, hrest, hfits⟩
    exact ⟨fun k hk => (mayPair_iff k).mp (hpair k hk), hbar, hwait, hmask, hA, h2, ht, hB, h1, hdA, hdB, htile, hcomp, hwin, hbtw, hrest,
      hfits⟩

theorem formed_pairFormed : formed qu b win idxB ma mb lag (pairFormed qu b win idxB ma mb lag) := by
  refine ⟨rfl, rfl, rfl, rfl, rfl, ?_⟩
  simp only [pairFormed, Bool.or_eq_true, List.any_eq_true, List.mem_filter, decide_eq_true_eq, meetsBy_iff, true_and, and_assoc]
  exact or_comm
end

/-! ## The search of the window (R216) -/

section
variable {q : Nat} {a : Kernel} {win ws : List WinRec} {w : WinRec} {s u : State}

theorem findPair_fails {cause : Nat} (h : (validate q w.idx).run s = .ok (.inl cause) u) :
    (findPair q a win (w :: ws)).run s = (findPair q a win ws).run u := Op.bind_ok h rfl

/-- A record that passes is tried with its wait counter as it is read then. -/
theorem findPair_tries {b : Kernel} {v : Option Nat} {t : State} (h : (validate q w.idx).run s = .ok (.inr b) u)
    (hv : if b.waitCtr = 0 then v = none ∧ t = u else (readCounter q b.waitCtr).run u = .ok v t) :
    (findPair q a win (w :: ws)).run s = match a.goodMaps.findSome? (pairOn t (t.queue q) a win w.idx b v) with
      | some p => .ok (some p) t
      | none => (findPair q a win ws).run t := by
  have hread : (if b.waitCtr = 0 then return none else readCounter q b.waitCtr : Op (Option Nat)).run u = .ok v t := by
    rw [Op.run_ite]
    split at hv
    next h0 =>
      obtain ⟨rfl, rfl⟩ := hv
      rw [if_pos h0]
      rfl
    next h0 => rw [if_neg h0, hv]
  refine Op.bind_ok h (Op.bind_ok hread (Op.bind_ok (Op.run_get t) ?_))
  cases a.goodMaps.findSome? (pairOn t (t.queue q) a win w.idx b v) <;> rfl
end

theorem findSome?_append_cons {α β : Type} {f : α → Option β} {xs ys : List α} {x : α} {y : β} (hxs : ∀ x' ∈ xs, f x' = none)
    (hx : f x = some y) : (xs ++ x :: ys).findSome? f = some y := by
  rw [List.findSome?_append, List.findSome?_eq_none_iff.mpr hxs, Option.none_or, List.findSome?_cons, hx]

/-! ## The window -/

theorem mem_rangeMaps {k : Kernel} {m' : ElemMap} : m' ∈ k.rangeMaps ↔ m' ∈ k.maps ∧ 8 * m'.pidx + 8 ≤ k.paramSz ∧ 1 ≤ descRank m'.desc ∧
    descRank m'.desc ≤ 6 ∧ descEnc m'.desc ≠ 3 := by
  simp only [Kernel.rangeMaps, hasRange, List.mem_filter, Bool.and_eq_true, decide_eq_true_eq, and_assoc]

theorem mem_window {qu : Queue} {i : Nat} : i ∈ qu.window ↔ 1 ≤ idxDist i qu.head.toNat ∧ idxDist i qu.head.toNat ≤ 7 ∧ i < 2 ^ 32 ∧
    idxDist i qu.head.toNat < idxDist qu.tail.toNat qu.head.toNat := by
  simp only [Queue.window, List.mem_map, List.mem_filter, List.mem_range, decide_eq_true_eq, BitVec.toNat_add, BitVec.toNat_ofNat]
  have hh := qu.head.isLt
  generalize idxDist qu.tail.toNat qu.head.toNat = n
  simp only [idxDist, Nat.mod_eq_of_lt hh]
  constructor
  · rintro ⟨k, ⟨hk, hn⟩, rfl⟩
    omega
  · rintro ⟨h1, h7, hi, hn⟩
    exact ⟨(i + 2 ^ 32 - qu.head.toNat) % 2 ^ 32 - 1, ⟨by omega, by omega⟩, by omega⟩

theorem mem_candidates {qu : Queue} {win : List WinRec} {w : WinRec} : w ∈ qu.candidates win ↔ w ∈ win ∧ w.idx ∉ qu.consumed := by
  simp only [Queue.candidates, List.mem_filter, Bool.not_eq_true', ← Bool.not_eq_true, List.contains_iff_mem]

theorem pairsForm : PairsForm := by
  refine ⟨fun s qu a win idxB b v ma hma => ⟨fun p hp => ?_, fun mb lag h => ?_⟩, fun q a win s => rfl,
    fun q a win w ws s cause u h => findPair_fails h, fun q a win w ws s b u v t h hv => ⟨fun hnone => ?_, fun ms m' ns p hms hnone hp => ?_⟩,
    fun k m' => mem_rangeMaps, fun qu i => mem_window, fun qu win w => mem_candidates⟩
  · obtain ⟨mb, lag, hmaps, hshape, hpat, hrest, rfl⟩ := pairOn_eq_some.mp hp
    exact ⟨mb, lag, (splices_iff hma).mpr ⟨hmaps, hshape, hpat, hrest⟩, formed_pairFormed⟩
  · obtain ⟨hmaps, hshape, hpat, hrest⟩ := (splices_iff hma).mp h
    exact ⟨_, pairOn_eq_some.mpr ⟨mb, lag, hmaps, hshape, hpat, hrest, rfl⟩, formed_pairFormed⟩
  · rw [findPair_tries h hv, List.findSome?_eq_none_iff.mpr hnone]
  · rw [findPair_tries h hv, hms, findSome?_append_cons hnone hp]

end Sys2Proof.Machine
end

section
/-!
SUPPORT. What the reads of a queue's front end leave of the state: all but memory, where the walker sets A and D (R148, R150), whether they
complete or fail.
-/

namespace Sys2Proof.Machine

open Sys2Proof.Claims

/-- The state in which a run ends, whether it completes or stops. -/
def endState {α : Type} : EStateM.Result Stop State α → State
  | .ok _ t => t
  | .error _ t => t

/-- An operation that changes memory at most. -/
def Op.touchesMemory {α : Type} (x : Op α) : Prop := ∀ s, ∃ m, endState (x.run s) = { s with mem := m }

section
variable {α β : Type} {x : Op α}

theorem Op.touchesMemory.ok {s t : State} {a : α} (hx : x.touchesMemory) (h : x.run s = .ok a t) : t = { s with mem := t.mem } := by
  obtain ⟨m', hm⟩ := hx s
  rw [h] at hm
  obtain rfl : t = _ := hm
  rfl

theorem Op.touchesMemory.error {s t : State} {e : Stop} (hx : x.touchesMemory) (h : x.run s = .error e t) : t = { s with mem := t.mem } := by
  obtain ⟨m', hm⟩ := hx s
  rw [h] at hm
  obtain rfl : t = _ := hm
  rfl

theorem Op.touchesMemory_pure (a : α) : (pure a : Op α).touchesMemory := fun s => ⟨s.mem, rfl⟩
theorem Op.touchesMemory_throw (e : Stop) : (throw e : Op α).touchesMemory := fun s => ⟨s.mem, rfl⟩
theorem Op.touchesMemory_get : (get : Op State).touchesMemory := fun s => ⟨s.mem, rfl⟩

theorem Op.touchesMemory_bind {f : α → Op β} (hx : x.touchesMemory) (hf : ∀ a, (f a).touchesMemory) : (x >>= f).touchesMemory := by
  intro s
  rw [Op.run_bind]
  cases h : x.run s with
  | ok a t =>
    obtain ⟨m', hm⟩ := hf a t
    rw [hx.ok h] at hm ⊢
    exact ⟨m', hm⟩
  | error e t =>
    rw [hx.error h]
    exact ⟨_, rfl⟩

theorem Op.touchesMemory_ite {c : Prop} [Decidable c] {y : Op α} (hx : x.touchesMemory) (hy : y.touchesMemory) :
    (if c then x else y).touchesMemory := by
  split
  · exact hx
  · exact hy

theorem attempt_touchesMemory (hx : x.touchesMemory) : (attempt x).touchesMemory := by
  intro s
  cases h : x.run s with
  | ok a t =>
    rw [attempt_ok h, hx.ok h]
    exact ⟨_, rfl⟩
  | error e t =>
    have hend : endState ((attempt x).run s) = t := by
      unfold attempt
      rw [Op.run_tryCatch, Op.bind_error h]
      cases e <;> rfl
    rw [hend, hx.error h]
    exact ⟨_, rfl⟩
end

/-! ## The reads of the front end -/

section
variable {w : Who} {kind : AKind} {user write amo : Bool} {root q : Nat} {fa va : Word}

theorem translate_touchesMemory : (translate w kind user write amo root fa va).touchesMemory := by
  intro s
  unfold translate
  simp only [Op.run_bind, Op.run_get, Op.run_ite, fail, Op.run_raise]
  split
  · exact ⟨_, rfl⟩
  · split
    · exact ⟨_, rfl⟩
    · exact ⟨_, rfl⟩
    · simp only [Op.run_bind, Op.run_ite, Op.run_raise, Op.run_set, Op.run_pure]
      split_ifs <;> exact ⟨_, rfl⟩

theorem qTranslate_touchesMemory : (qTranslate q kind write amo va).touchesMemory :=
  Op.touchesMemory_bind Op.touchesMemory_get fun _ => Op.touchesMemory_ite (Op.touchesMemory_throw _) <|
    Op.touchesMemory_bind translate_touchesMemory fun _ => Op.touchesMemory_ite
      (Op.touchesMemory_ite (Op.touchesMemory_throw _) (Op.touchesMemory_throw _)) (Op.touchesMemory_pure _)

theorem mustTranslate_touchesMemory : (mustTranslate q kind write va).touchesMemory := by
  intro s
  cases h : (mustTranslate q kind write va).run s with
  | ok a t =>
    refine ⟨s.mem, ?_⟩
    simp only [mustTranslate, Op.run_bind, Op.run_get, Op.run_ite, fail, Op.run_raise] at h
    split at h
    · cases h
    · split at h
      · cases h
        rfl
      · cases h
  | error e t =>
    simp only [mustTranslate, Op.run_bind, Op.run_get, Op.run_ite, fail, Op.run_raise] at h
    split at h
    · cases h
      exact ⟨s.mem, rfl⟩
    · split at h
      · cases h
      · next e' t' ht =>
        cases h
        exact ⟨_, translate_touchesMemory.error ht⟩
end

section
variable {q : Nat}

theorem qRead_touchesMemory : ∀ {n : Nat} {va : Word}, (qRead q va n).touchesMemory
  | 0, _ => Op.touchesMemory_pure _
  | _ + 1, _ => Op.touchesMemory_bind qTranslate_touchesMemory fun _ => Op.touchesMemory_bind Op.touchesMemory_get fun _ =>
      Op.touchesMemory_bind qRead_touchesMemory fun _ => Op.touchesMemory_pure _

theorem qReadNat_touchesMemory {va : Word} {n : Nat} : (qReadNat q va n).touchesMemory :=
  Op.touchesMemory_bind qRead_touchesMemory fun _ => Op.touchesMemory_pure _

theorem readCounter_touchesMemory {va : Nat} : (readCounter q va).touchesMemory := attempt_touchesMemory qReadNat_touchesMemory

theorem mustAlign_touchesMemory {va : Word} {n : Nat} : (mustAlign va n).touchesMemory :=
  Op.touchesMemory_ite (Op.touchesMemory_pure _) (Op.touchesMemory_throw _)

theorem readOwners_touchesMemory : ∀ {n : Nat} {va : Word}, (readOwners q n va).touchesMemory
  | 0, _ => Op.touchesMemory_pure _
  | _ + 1, _ => Op.touchesMemory_bind qReadNat_touchesMemory fun _ =>
      Op.touchesMemory_bind readOwners_touchesMemory fun _ => Op.touchesMemory_pure _

theorem readLevels_touchesMemory : ∀ {n : Nat} {va : Word}, (readLevels q n va).touchesMemory
  | 0, _ => Op.touchesMemory_pure _
  | _ + 1, _ => Op.touchesMemory_bind qReadNat_touchesMemory fun _ =>
      Op.touchesMemory_bind readLevels_touchesMemory fun _ => Op.touchesMemory_pure _

section
variable {param : Word} {size : Nat}

theorem readMap_touchesMemory {va : Word} : (readMap q param size va).touchesMemory :=
  Op.touchesMemory_bind qRead_touchesMemory fun _ => Op.touchesMemory_ite
    (Op.touchesMemory_bind qReadNat_touchesMemory fun _ => Op.touchesMemory_bind mustAlign_touchesMemory fun _ =>
      Op.touchesMemory_bind qReadNat_touchesMemory fun _ => Op.touchesMemory_bind
        (Op.touchesMemory_ite readOwners_touchesMemory (Op.touchesMemory_pure _)) fun _ => Op.touchesMemory_pure _)
    (Op.touchesMemory_pure _)

theorem readMaps_touchesMemory : ∀ {n : Nat} {va : Word}, (readMaps q param size n va).touchesMemory
  | 0, _ => Op.touchesMemory_pure _
  | _ + 1, _ => Op.touchesMemory_bind readMap_touchesMemory fun _ =>
      Op.touchesMemory_bind readMaps_touchesMemory fun _ => Op.touchesMemory_pure _

theorem readSome_touchesMemory : ∀ {n : Nat} {va : Word}, (readSome q param size n va).touchesMemory
  | 0, _ => Op.touchesMemory_pure _
  | _ + 1, _ => Op.touchesMemory_bind (attempt_touchesMemory qRead_touchesMemory) fun _ =>
      Op.touchesMemory_bind (attempt_touchesMemory readMap_touchesMemory) fun _ =>
        Op.touchesMemory_bind readSome_touchesMemory fun _ => Op.touchesMemory_pure _
end

theorem readLaunch_touchesMemory {va : Word} {r : BitVec 512} : (readLaunch q va r).touchesMemory := by
  unfold readLaunch
  refine Op.touchesMemory_bind qRead_touchesMemory fun _ => Op.touchesMemory_bind mustAlign_touchesMemory fun _ =>
    Op.touchesMemory_bind mustAlign_touchesMemory fun _ => Op.touchesMemory_bind mustAlign_touchesMemory fun _ => ?_
  extract_lets tables done
  have htables : ∀ x, (tables x).touchesMemory := fun _ =>
    Op.touchesMemory_bind qRead_touchesMemory fun _ => Op.touchesMemory_bind readLevels_touchesMemory fun _ =>
      Op.touchesMemory_bind readMaps_touchesMemory fun _ => Op.touchesMemory_pure _
  have hdone : ∀ x, (done x).touchesMemory := fun _ =>
    Op.touchesMemory_ite (Op.touchesMemory_bind mustTranslate_touchesMemory htables) (htables ())
  exact Op.touchesMemory_ite (Op.touchesMemory_bind mustTranslate_touchesMemory hdone) (hdone ())

theorem recordTaken_touchesMemory {i : Nat} : (recordTaken q i).touchesMemory := by
  refine Op.touchesMemory_bind Op.touchesMemory_get fun s => Op.touchesMemory_ite (Op.touchesMemory_pure _) ?_
  split
  · exact Op.touchesMemory_pure _
  · exact attempt_touchesMemory (Op.touchesMemory_bind qReadNat_touchesMemory fun _ => Op.touchesMemory_pure _)

theorem validate_touchesMemory {i : Nat} : (validate q i).touchesMemory := by
  refine Op.touchesMemory_bind Op.touchesMemory_get fun s => Op.touchesMemory_bind recordTaken_touchesMemory fun r => ?_
  split
  · exact Op.touchesMemory_pure _
  · refine Op.touchesMemory_bind (attempt_touchesMemory readLaunch_touchesMemory) fun l => ?_
    split
    · exact Op.touchesMemory_pure _
    · split <;> exact Op.touchesMemory_pure _

theorem readHeader_touchesMemory {va : Word} {r : BitVec 512} : (readHeader q va r).touchesMemory :=
  Op.touchesMemory_bind qRead_touchesMemory fun _ => qRead_touchesMemory

theorem readRaw_touchesMemory {i : Nat} : (readRaw q i).touchesMemory := by
  refine Op.touchesMemory_bind Op.touchesMemory_get fun s => Op.touchesMemory_bind recordTaken_touchesMemory fun r => ?_
  split
  · exact Op.touchesMemory_pure _
  · refine Op.touchesMemory_bind (attempt_touchesMemory readHeader_touchesMemory) fun hb => ?_
    split
    · exact Op.touchesMemory_pure _
    · exact Op.touchesMemory_bind (attempt_touchesMemory readLevels_touchesMemory) fun _ =>
        Op.touchesMemory_bind readSome_touchesMemory fun _ => Op.touchesMemory_pure _

theorem readWindow_touchesMemory : ∀ {is : List Nat}, (readWindow q is).touchesMemory
  | [] => Op.touchesMemory_pure _
  | _ :: _ => Op.touchesMemory_bind readRaw_touchesMemory fun _ =>
      Op.touchesMemory_bind readWindow_touchesMemory fun _ => Op.touchesMemory_pure _

theorem findPair_touchesMemory {a : Kernel} {win : List WinRec} : ∀ {ws : List WinRec}, (findPair q a win ws).touchesMemory
  | [] => Op.touchesMemory_pure _
  | w :: ws => by
    refine Op.touchesMemory_bind validate_touchesMemory fun r => ?_
    split
    · exact findPair_touchesMemory
    · refine Op.touchesMemory_bind (Op.touchesMemory_ite (Op.touchesMemory_pure _) readCounter_touchesMemory) fun v => ?_
      refine Op.touchesMemory_bind Op.touchesMemory_get fun s => ?_
      split
      · exact Op.touchesMemory_pure _
      · exact findPair_touchesMemory
end

end Sys2Proof.Machine
end

section
/-!
SUPPORT. What becomes of a record: the head, the start of a launch, the additions of its completion, the release of its harts (R50 to R54,
R220, R228, R278, R318, R328).
-/

namespace Sys2Proof.Machine

open Sys2Proof.Claims

@[simp] theorem modQueue_run (q : Nat) (f : Queue → Queue) (s : State) :
    (modQueue q f).run s = .ok () (s.setQueue q (f (s.queue q))) := rfl

theorem frontEvent_wait {q : Nat} {x : Op Unit} {s t : State} (h : x.run s = .error .wait t) :
    frontEvent q x s = .next (s.answered q) := by simp only [frontEvent, h]

theorem State.answered_self (q : Nat) (s : State) : (s.answered q).queue q = { s.queue q with asked := none } := by
  unfold answered
  split
  next h => rw [← h]
  next => rw [State.setQueue_self]

theorem State.answered_ne {p q : Nat} (s : State) (h : p ≠ q) : (s.answered q).queue p = s.queue p := by
  unfold answered
  split
  · rfl
  · exact State.setQueue_ne _ _ _ _ h

theorem State.answered_queues (q : Nat) (s : State) : s.answered q = { s with queues := (s.answered q).queues } := by
  unfold answered
  split <;> rfl

/-! ## A record reaches the head (R52, R220) -/

section
variable {s : State} {q : Nat}

/-- What stands at the head is of the queue itself, or of the queue past a launch that overlaps. -/
theorem nextAtHead_cen {qu qu' : Queue} (h : s.nextAtHead qu = some qu') : qu'.cen = qu.cen := by
  unfold State.nextAtHead at h
  split at h
  · cases h
    rfl
  · split at h
    · split at h
      · cases h
        rfl
      · cases h
    · cases h
  · cases h

theorem atHead_eq_some {qu : Queue} : s.atHead q = some qu ↔ s.nextAtHead (s.queue q) = some qu ∧ qu.cen = true ∧ qu.head ≠ qu.tail ∧
    s.mayFollow qu = true ∧ s.firmware.update = .none := by
  unfold State.atHead
  cases s.nextAtHead (s.queue q) with
  | none => simp
  | some qu' =>
    simp only [Option.ite_none_right_eq_some, Option.some.injEq]
    constructor
    · rintro ⟨h, rfl⟩
      exact ⟨rfl, h⟩
    · rintro ⟨rfl, h⟩
      exact ⟨h, rfl⟩

theorem atHead_eq_none (h : ∀ qu, s.nextAtHead (s.queue q) = some qu → qu.cen = true → s.mayFollow qu = true →
    s.firmware.update ≠ .none) : s.atHead q = none := by
  rw [Option.eq_none_iff_forall_ne_some]
  intro qu hq
  obtain ⟨hn, hc, -, hm, hu⟩ := atHead_eq_some.mp hq
  exact h qu hn hc hm hu

theorem nextAtHead_waiting {qu : Queue} (h : qu.state = .waiting) : s.nextAtHead qu = some qu := by simp only [State.nextAtHead, h]

theorem nextAtHead_begun {qu : Queue} {n : Nat} {l : Launch} (h : qu.state = .begun n) (hl : s.launches.get? n = some l)
    (ho : mayOverlap l = false) : s.nextAtHead qu = none := by
  simp only [State.nextAtHead, h, hl, ho, Bool.false_and, Bool.false_eq_true, if_false]

/-- A launch of an earlier record that does not overlap bars the record at the head, and one of a pair the records between (R220). -/
theorem mayFollow_barred {qu : Queue} {n : Nat} {l : Launch} (hn : n ∈ qu.overlapped) (hl : s.launches.get? n = some l)
    (hearlier : idxAtLeast l.recIdx qu.head.toNat = false) (h : mayOverlap l = false ∨ idxDist qu.head.toNat l.recIdx < l.dist) :
    s.mayFollow qu = false := by
  rw [← Bool.not_eq_true, State.mayFollow, List.all_eq_true]
  intro hall
  have hthis := hall n hn
  simp only [hl, hearlier, Bool.false_or, Launch.between] at hthis
  rcases h with h | h <;> simp [h] at hthis

theorem mayOverlap_iff (l : Launch) : mayOverlap l = true ↔
    l.a.overlap = true ∧ (∀ p, l.pair = some p → p.b.overlap = true) ∧ l.distributed = true := by
  unfold mayOverlap
  cases l.pair <;> simp [and_assoc]

theorem headReached (q : Nat) (s : State) : let qu := s.queue q
    (s.firmware.update ≠ .none → s.atHead q = none) ∧ (qu.cen = false → s.atHead q = none) ∧
    (qu.state = .waiting → qu.cen = true → s.firmware.update = .none → qu.head ≠ qu.tail → qu.overlapped = [] → s.atHead q = some qu) ∧
    (∀ n l, qu.state = .begun n → s.launches.get? n = some l → mayOverlap l = false → s.atHead q = none) ∧
    (∀ n l, qu.state = .waiting → n ∈ qu.overlapped → s.launches.get? n = some l → idxAtLeast l.recIdx qu.head.toNat = false →
      (mayOverlap l = false ∨ idxDist qu.head.toNat l.recIdx < l.dist) → s.atHead q = none) ∧
    (∀ l : Launch, mayOverlap l = true ↔ l.a.overlap = true ∧ (∀ p, l.pair = some p → p.b.overlap = true) ∧ l.distributed = true) := by
  intro qu
  refine ⟨fun h => atHead_eq_none fun _ _ _ _ => h, fun h => atHead_eq_none fun qu' hn hc _ => ?_, fun hw hc hu hd ho => ?_,
    fun n l hb hl ho => atHead_eq_none fun qu' hn _ _ => ?_, fun n l hw hn hl he h => atHead_eq_none fun qu' hq _ hm => ?_, mayOverlap_iff⟩
  · rw [nextAtHead_cen hn, show (s.queue q).cen = false from h] at hc
    exact absurd hc Bool.false_ne_true
  · have hfollow : s.mayFollow qu = true := by simp [State.mayFollow, ho]
    exact atHead_eq_some.mpr ⟨nextAtHead_waiting hw, hc, hd, hfollow, hu⟩
  · rw [nextAtHead_begun hb hl ho] at hn
    exact absurd hn (by simp)
  · rw [nextAtHead_waiting hw] at hq
    cases hq
    rw [mayFollow_barred hn hl he h] at hm
    exact absurd hm Bool.false_ne_true
end

/-! ## The record at the head -/

section
variable {q : Nat} {s : State} {qu : Queue} (hq : s.atHead q = some qu)
include hq

theorem reachesHead_stops {cause : Nat} {u : State}
    (hv : (validate q qu.applyBarriers.head.toNat).run (s.setQueue q { qu.applyBarriers with state := .waiting }) = .ok (.inl cause) u) :
    exec (.recordReachesHead q) s = .next ((queueError q qu.applyBarriers.head.toNat 0 0 cause
      (u.setQueue q { u.queue q with state := .stopped 0 none })).answered q) := by
  refine frontEvent_ok (Op.bind_ok (Op.run_get s) ?_)
  simp only [hq]
  exact Op.bind_ok (Op.run_set _ s) (Op.bind_ok hv rfl)

/-- What the elision record gains when a pair is announced (R228). -/
def newElisions (h : Nat) : Option Pair → List Elision
  | some p => if p.materialised = true then [] else [{ desc := p.mapA.desc, owners := [], recIdx := h }]
  | none => []

omit hq in
theorem addElision_run (q : Nat) (p : Option Pair) (w : State) : ∃ t, (addElision q p).run w = .ok () t ∧
    t = { w with queues := t.queues } ∧
    t.queue q = { w.queue q with elisions := (w.queue q).elisions ++ newElisions (w.queue q).head.toNat p } := by
  cases p with
  | none => exact ⟨w, rfl, rfl, by simp [newElisions]⟩
  | some p =>
    by_cases hm : p.materialised = true
    · exact ⟨w, by simp [addElision, hm], rfl, by simp [newElisions, hm]⟩
    · exact ⟨w.setQueue q { w.queue q with elisions := (w.queue q).elisions ++ [⟨p.mapA.desc, [], (w.queue q).head.toNat⟩] },
        by simp [addElision, hm], rfl, by simp [newElisions, hm]⟩

theorem reachesHead_validated {k : Kernel} {u v w : State} {win : List WinRec} {p : Option Pair}
    (hv : (validate q qu.applyBarriers.head.toNat).run (s.setQueue q { qu.applyBarriers with state := .waiting }) = .ok (.inr k) u)
    (hwin : (readWindow q qu.applyBarriers.window).run u = .ok win v)
    (hp : (if mayPair k = true then findPair q k win (qu.applyBarriers.candidates win) else (pure none : Op (Option Pair))).run v = .ok p w)
    (hk : k.product ≠ 0) :
    ∃ t, exec (.recordReachesHead q) s = .next t ∧ (t.queue q).state = .validated k p ∧ t.mem = w.mem ∧ t.hart = w.hart ∧
      t.launches = w.launches ∧ (t.queue q).elisions = (w.queue q).elisions ++ newElisions qu.applyBarriers.head.toNat p := by
  obtain ⟨x, hx, hframe, hqueue⟩ := addElision_run q p w
  have hw : w.queue q = { qu.applyBarriers with state := .waiting } := by
    have h1 := validate_touchesMemory.ok hv
    have h2 := readWindow_touchesMemory.ok hwin
    have h3 := (Op.touchesMemory_ite findPair_touchesMemory (Op.touchesMemory_pure _)).ok hp
    rw [h3, h2, h1]
    exact State.setQueue_self ..
  have hanswered := State.answered_queues q (x.setQueue q { x.queue q with state := .validated k p })
  have hself := State.answered_self q (x.setQueue q { x.queue q with state := .validated k p })
  rw [State.setQueue_self] at hself
  refine ⟨(x.setQueue q { x.queue q with state := .validated k p }).answered q, frontEvent_ok (Op.bind_ok (Op.run_get s) ?_), ?_, ?_, ?_, ?_, ?_⟩
  · simp only [hq]
    exact Op.bind_ok (Op.run_set _ s) (Op.bind_ok hv (Op.bind_ok hwin (Op.bind_ok hp (Op.bind_ok hx
      (by rw [Op.run_ite, if_neg hk]; rfl)))))
  · rw [hself]
  · rw [hanswered, hframe]
    rfl
  · rw [hanswered, hframe]
    rfl
  · rw [hanswered, hframe]
    rfl
  · rw [hself, hqueue, hw]
end

/-! ## The start of a launch (R51) -/

theorem dispatchStarts {q : Nat} {s : State} {k : Kernel} {p : Option Pair} (hq : (s.queue q).state = .validated k p)
    (hu : s.firmware.update = .none) (hc : (s.queue q).cen = true)
    (hw : k.waitCtr = 0 ∨ ∃ v, (readCounter q k.waitCtr).run s = .ok (some v) s ∧ k.waitTgt ≤ v) :
    exec (.recordDispatchStart q) s = .next (State.answered q { s.setQueue q { s.queue q with state := .begun s.nextLaunch } with
      launches := s.launches.put s.nextLaunch (.mk q (s.queue q).head.toNat k p [] [] false), nextLaunch := s.nextLaunch + 1 }) := by
  have hmay : (decide (s.firmware.update = .none) && (s.queue q).cen) = true := by simp [hu, hc]
  refine frontEvent_ok (Op.bind_ok (Op.run_get s) ?_)
  simp only [hq, hmay, acquire, pure_bind, ite_self]
  refine Op.bind_ok (Op.run_onlyIf_true s) ?_
  rw [Op.run_ite]
  split
  · rfl
  next h =>
    obtain ⟨v, hread, hv⟩ := hw.resolve_left h
    refine Op.bind_ok hread ?_
    simp only [hv, decide_true]
    exact Op.bind_ok (Op.run_onlyIf_true s) rfl

/-! ## The additions of a completion (R32, R54, R278) -/

section
variable {n : Nat} {s : State} {l : Launch} (hl : s.launches.get? n = some l)
include hl

theorem queueOfLaunch_of_get? : s.queueOfLaunch n = l.queue := by simp only [State.queueOfLaunch, hl, Option.map_some, Option.getD_some]

theorem launchCompletes {u : State} (hp : l.pair = none) (hd : s.launchDone n l = true)
    (hc : (completeAt n (scopeOf l.a) l.queue l.a.doneCtr).run s = .ok true u) :
    exec (.launchComplete n) s = .next (((dropLaunch n l u).setQueue l.queue
      (((dropLaunch n l u).queue l.queue).completed n (scopeOf l.a) none)).answered l.queue) := by
  show frontEvent (s.queueOfLaunch n) _ s = _
  rw [queueOfLaunch_of_get? hl]
  refine frontEvent_ok (Op.bind_ok (Op.run_get s) ?_)
  simp only [hl, hp, hd, Option.isNone_none, Bool.and_self]
  exact Op.bind_ok (Op.run_onlyIf_true s) (Op.bind_ok hc rfl)

theorem launchComplete_waits (hp : l.pair = none) (hd : s.launchDone n l = true)
    (hc : (completeAt n (scopeOf l.a) l.queue l.a.doneCtr).run s = .error .wait s) :
    exec (.launchComplete n) s = .next (s.answered l.queue) := by
  show frontEvent (s.queueOfLaunch n) _ s = _
  rw [queueOfLaunch_of_get? hl]
  refine frontEvent_wait (t := s) (Op.bind_ok (Op.run_get s) ?_)
  simp only [hl, hp, hd, Option.isNone_none, Bool.and_self]
  exact Op.bind_ok (Op.run_onlyIf_true s) (Op.bind_error hc)

theorem pairCompletes {p : Pair} {u v : State} (hp : l.pair = some p) (hd : s.launchDone n l = true)
    (ha : (completeAt n (scopeOf l.a) l.queue l.a.doneCtr).run s = .ok true u)
    (hb : (completeAt n (scopeOf p.b) l.queue p.b.doneCtr).run u = .ok true v) :
    exec (.pairComplete n) s = .next (((dropLaunch n l v).setQueue l.queue
      (((dropLaunch n l v).queue l.queue).completed n (scopeOf p.b) (some p.dist))).answered l.queue) := by
  show frontEvent (s.queueOfLaunch n) _ s = _
  rw [queueOfLaunch_of_get? hl]
  refine frontEvent_ok (Op.bind_ok (Op.run_get s) ?_)
  simp only [hl, hp, hd]
  exact Op.bind_ok (Op.run_onlyIf_true s) (Op.bind_ok ha (Op.bind_ok hb rfl))
end

theorem completed_head {qu : Queue} {n : Nat} {sc : Scope} (hb : qu.state = .begun n) (hc : qu.consumed = []) :
    (qu.completed n sc none).head = qu.head + 1 ∧ (qu.completed n sc none).state = .waiting ∧
      (qu.completed n sc none).prevScope = some sc := by
  simp [Queue.completed, Queue.advanceHead, nextHead, hb, hc]

theorem LostWrite.pending_iff {w : LostWrite} {t : Nat} : w.pending t = true ↔ t < w.since + 4000 := decide_eq_true_iff
theorem LostWrite.not_pending_iff {w : LostWrite} {t : Nat} : w.pending t = false ↔ w.since + 4000 ≤ t := by
  rw [← Bool.not_eq_true, pending_iff, Nat.not_lt]

section
variable {n : Nat} {sc : Scope} {s : State}

theorem launchRelease_met (h : ¬ (sc = .sys ∧ ∃ l ∈ s.lost, l.writer = .launch n)) : (launchRelease n sc).run s = .ok true s := by
  refine Op.bind_ok (Op.run_get s) ?_
  rw [if_neg (by simpa using h)]
  rfl

theorem launchRelease_pending (h : sc = .sys ∧ ∃ l ∈ s.lost, l.writer = .launch n)
    (hp : ∃ l ∈ s.lost, l.writer = .launch n ∧ s.time < l.since + 4000) : (launchRelease n sc).run s = .error .wait s := by
  refine Op.bind_ok (Op.run_get s) ?_
  rw [if_pos (by simpa using h), if_pos (by simpa [LostWrite.pending_iff] using hp)]
  rfl

theorem launchRelease_late (h : sc = .sys ∧ ∃ l ∈ s.lost, l.writer = .launch n)
    (hp : ∀ l ∈ s.lost, l.writer = .launch n → l.since + 4000 ≤ s.time) :
    (launchRelease n sc).run s = .ok false { s with lost := s.lost.filter fun l => l.writer ≠ .launch n } := by
  refine Op.bind_ok (Op.run_get s) ?_
  rw [if_pos (by simpa using h), if_neg (by simpa [LostWrite.not_pending_iff] using hp)]
  rfl
end

theorem completionMade (n : Nat) (sc : Scope) (q va : Nat) (s : State) : let unmet := sc = .sys ∧ ∃ l ∈ s.lost, l.writer = .launch n
    (va = 0 → (completeAt n sc q va).run s = .ok true s) ∧
    (va ≠ 0 → ¬ unmet → (completeAt n sc q va).run s = (qAddOne q va).run s) ∧
    (va ≠ 0 → unmet → (∃ l ∈ s.lost, l.writer = .launch n ∧ s.time < l.since + 4000) →
      (completeAt n sc q va).run s = .error .wait s) ∧
    (va ≠ 0 → unmet → (∀ l ∈ s.lost, l.writer = .launch n → l.since + 4000 ≤ s.time) →
      (completeAt n sc q va).run s = .ok false { s with lost := s.lost.filter fun l => l.writer ≠ .launch n }) := by
  intro unmet
  unfold completeAt
  refine ⟨fun h => ?_, fun h hm => ?_, fun h hm hp => ?_, fun h hm hp => ?_⟩
  · rw [if_pos h]
    rfl
  · rw [if_neg h, Op.bind_ok (launchRelease_met hm) rfl, if_pos rfl, completionAdd, if_neg h]
  · rw [if_neg h]
    exact Op.bind_error (launchRelease_pending hm hp)
  · rw [if_neg h]
    exact Op.bind_ok (launchRelease_late hm hp) rfl

/-! ## The accesses of the front end (R134, R277) -/

section
variable {q : Nat} {kind : AKind} {write amo : Bool} {va : Word} {s : State}

theorem qTranslate_window (h : inWindow va.toNat = true) : trapsWith (qTranslate q kind write amo va) s s {} va kind.accessFault 0 :=
  ⟨_, Op.bind_ok (Op.run_get s) (by rw [if_pos h]; rfl), rfl, rfl, rfl, rfl⟩

theorem askedLong_iff : s.askedLong q = true ↔ ∃ t, (s.queue q).asked = some t ∧ t + 4000 ≤ s.time := by
  unfold State.askedLong
  cases (s.queue q).asked with
  | none => simp
  | some t => exact decide_eq_true_iff.trans (by simp [fabricTimeout])

theorem noAnswer_iff {p : Phys} : s.noAnswer p = true ↔ p.remote = true ∧ (s.linksUp = false ∨ Config.answers p.home s.time = false) := by
  simp [State.noAnswer]

theorem qTranslate_answers {p : Phys} {u : State} (hw : inWindow va.toNat = false)
    (ht : (translate {} kind false write amo (s.rootOf q) va va).run s = .ok p u) :
    let silent := p.remote = true ∧ (s.linksUp = false ∨ Config.answers p.home s.time = false)
    let late := ∃ t, (s.queue q).asked = some t ∧ t + 4000 ≤ s.time
    (¬ silent → (qTranslate q kind write amo va).run s = .ok p u) ∧
    (silent → ¬ late → (qTranslate q kind write amo va).run s = .error (.hold none) u) ∧
    (silent → late → trapsWith (qTranslate q kind write amo va) s u {} va kind.accessFault 0) := by
  intro silent late
  have hrun : ∀ {r}, ((if s.noAnswer p = true then (if s.askedLong q = true then fail {} kind.accessFault va else throw (.hold none))
      else pure p : Op Phys)).run u = r → (qTranslate q kind write amo va).run s = r := by
    intro r h
    refine Op.bind_ok (Op.run_get s) ?_
    rw [if_neg (by simp [hw])]
    refine Op.bind_ok ht ?_
    rw [← h]
    split <;> [split; skip] <;> rfl
  refine ⟨fun h => hrun ?_, fun h hl => hrun ?_, fun h hl => ⟨_, hrun (r := .error (.trap { cause := kind.accessFault, addr := some va }) u) ?_, rfl, rfl, rfl, rfl⟩⟩
  · rw [if_neg (noAnswer_iff.not.mpr h)]
    rfl
  · rw [if_pos (noAnswer_iff.mpr h), if_neg (askedLong_iff.not.mpr hl)]
    rfl
  · rw [if_pos (noAnswer_iff.mpr h), if_pos (askedLong_iff.mpr hl)]
    rfl
end

/-! ## Bytes written under an encryption key -/

section
variable {c : Option (BitVec 512)} {m' : List Host.Cell} (h : Memory.wf m' = true)
include h

/-- A byte of another sector stays as it stands in memory, whatever key is used. -/
theorem get_putUnder_sector {k a : Nat} (ha : sectorOf a ≠ sectorOf k) (b : Byte) : Memory.get (putUnder c m' k b) a = Memory.get m' a := by
  cases c with
  | none => exact Memory.get_put_ne h k a b fun hka => ha (congrArg sectorOf hka)
  | some v =>
    refine Memory.get_write_out h _ _ _ ?_
    simp only [toBytes_length, sectorBase]
    unfold sectorOf at ha
    omega

theorem byteUnder_write_out {k a : Nat} {bs : List Byte} (ha : a < k ∨ k + bs.length ≤ a) :
    byteUnder c (writeUnder c m' k bs) a = byteUnder c m' a := by
  induction bs generalizing m' k with
  | nil => rfl
  | cons b bs ih =>
    rw [List.length_cons] at ha
    exact (ih (wf_putUnder h k b) (k := k + 1) (by omega)).trans (byteUnder_put_ne h (by omega) b)

theorem get_write_sector {k a : Nat} {bs : List Byte} (ha : ∀ i, i < bs.length → sectorOf a ≠ sectorOf (k + i)) :
    Memory.get (writeUnder c m' k bs) a = Memory.get m' a := by
  induction bs generalizing m' k with
  | nil => rfl
  | cons b bs ih =>
    have hrest : ∀ i, i < bs.length → sectorOf a ≠ sectorOf (k + 1 + i) := fun i hi => by
      rw [show k + 1 + i = k + (i + 1) by omega]
      exact ha (i + 1) (by simpa using hi)
    exact (ih (wf_putUnder h k b) hrest).trans (get_putUnder_sector h (ha 0 (by simp)) b)

omit h in
theorem readUnder_succ (c : Option (BitVec 512)) (m' : List Host.Cell) (k n : Nat) :
    readUnder c m' k (n + 1) = byteUnder c m' k :: readUnder c m' (k + 1) n := by
  simp only [readUnder, List.range_succ_eq_map, List.map_cons, List.map_map, Function.comp_def, Nat.add_zero, Nat.succ_eq_add_one,
    Nat.add_assoc, Nat.add_comm 1]

theorem readUnder_write_self {k : Nat} {bs : List Byte} : readUnder c (writeUnder c m' k bs) k bs.length = bs := by
  induction bs generalizing m' k with
  | nil => rfl
  | cons b bs ih =>
    rw [List.length_cons, readUnder_succ, writeUnder, ih (wf_putUnder h k b), byteUnder_write_out (wf_putUnder h k b) (Or.inl (by omega)),
      byteUnder_put_self h]
end

/-- The addition of 1 is one number larger at its place, and no byte outside it reads otherwise (R32). -/
theorem qAddOne_adds {q va : Nat} {s u : State} {p : Phys} (ht : (qTranslate q .store true true (BitVec.ofNat 64 va)).run s = .ok p u)
    (hu : u.memOk) : ∃ t, (qAddOne q va).run s = .ok true t ∧ t.memOk ∧
      ofBytes (readUnder p.crypt t.mem p.key 8) = (ofBytes (readUnder p.crypt u.mem p.key 8) + 1) % 2 ^ 64 ∧
      (∀ a, a < p.key ∨ p.key + 8 ≤ a → byteUnder p.crypt t.mem a = byteUnder p.crypt u.mem a) ∧
      ∀ a, sectorOf a < sectorOf p.key ∨ sectorOf (p.key + 7) < sectorOf a → Memory.get t.mem a = Memory.get u.mem a := by
  let bs := toBytes 8 (ofBytes (readUnder p.crypt u.mem p.key 8) + 1)
  have hbs : bs.length = 8 := toBytes_length ..
  let v : State := { u with mem := writeUnder p.crypt u.mem p.key bs }
  obtain ⟨f, -, hbreak⟩ := breakReservations_mapHarts ((List.range 8).map (p.key + ·)) v
  refine ⟨v.mapHarts f, Op.bind_ok (attempt_ok (Op.bind_ok ht (Op.bind_ok (Op.run_get u) (Op.bind_ok (Op.run_set v u) hbreak)))) rfl,
    wf_writeUnder hu _ _, ?_, fun a ha => ?_, fun a ha => ?_⟩
  · have hread := readUnder_write_self (c := p.crypt) hu (k := p.key) (bs := bs)
    rw [hbs] at hread
    show ofBytes (readUnder p.crypt (writeUnder p.crypt u.mem p.key bs) p.key 8) = _
    rw [hread, ofBytes_toBytes]
    norm_num
  · exact byteUnder_write_out hu (by rwa [hbs])
  · refine get_write_sector hu fun i hi => ?_
    rw [hbs] at hi
    unfold sectorOf at ha ⊢
    omega

/-! ## A retired hart goes back to the distributor (R318) -/

theorem State.hartOf_id (s : State) (id : Nat) : (s.hartOf id).id = id := by
  unfold hartOf
  split
  · assumption
  · split
    next h hf => simpa using List.find?_some hf
    next => rfl

theorem find?_putHart (h : Hart) (hs : List Hart) : (putHart h hs).find? (·.id = h.id) = some h := by
  induction hs with
  | nil => simp [putHart]
  | cons g t ih =>
    unfold putHart
    split
    · simp
    next hne => rw [List.find?_cons_of_neg (by simpa using hne), ih]

theorem State.hartOf_setHart (s : State) (h : Hart) : (s.setHart h).hartOf h.id = h := by
  unfold setHart hartOf
  split
  · simp
  · simp [find?_putHart]

@[simp] theorem Hart.freed_id (h : Hart) : h.freed.id = h.id := rfl

theorem State.setHart_launches (s : State) (h : Hart) : (s.setHart h).launches = s.launches := by
  unfold setHart
  split <;> rfl

theorem State.setHart_queues (s : State) (h : Hart) : (s.setHart h).queues = s.queues := by
  unfold setHart
  split <;> rfl

theorem cleanEnded_of_not_ended {n : Nat} {s : State} {l : Launch} (hl : s.launches.get? n = some l) (he : l.ended = false) :
    cleanEnded n s = s := by simp only [cleanEnded, hl, he, Bool.not_false, true_or, if_true]

section
variable {id : Nat} {s : State} (hr : (s.hartOf id).status = .retired) (hb : s.scarabBusy (s.hartOf id) = false)
include hr hb

theorem release_noJob (hj : (s.hartOf id).job = none) : exec (.coreReservationRelease id) s = .next (s.setHart (s.hartOf id).freed) := by
  refine event_ok (Op.bind_ok (Op.run_get s) ?_)
  simp only [hr, hb, hj]
  exact Op.bind_ok (Op.run_onlyIf_true s) rfl

theorem release_job {j : Job} {l : Launch} (hj : (s.hartOf id).job = some j) (hl : s.launches.get? j.launch = some l)
    (he : l.ended = false) : ∃ t, exec (.coreReservationRelease id) s = .next t ∧ (t.hartOf id).status = .free ∧
      (t.hartOf id).job = none ∧ (∀ i, j.slot = some i → i ∉ (t.queue l.queue).slots) ∧ t.mem = s.mem := by
  let h := s.hartOf id
  let u := s.setQueue l.queue { s.queue l.queue with slots := releaseHart (s.queue l.queue).slots h }
  have hhart : (u.setHart h.freed).hartOf id = h.freed := by
    have hself := State.hartOf_setHart u h.freed
    rwa [Hart.freed_id, State.hartOf_id] at hself
  have hclean : cleanEnded j.launch (u.setHart h.freed) = u.setHart h.freed :=
    cleanEnded_of_not_ended (by rw [State.setHart_launches]; exact hl) he
  refine ⟨u.setHart h.freed, event_ok (Op.bind_ok (Op.run_get s) ?_), ?_, ?_, fun i hi => ?_, State.setHart_mem ..⟩
  · simp only [hr, hb, hj, hl]
    exact Op.bind_ok (Op.run_onlyIf_true s) (Op.bind_ok (t := u) rfl (congrArg _ hclean))
  · rw [hhart]
    rfl
  · rw [hhart]
    rfl
  · have hslots : ((u.setHart h.freed).queue l.queue).slots = releaseHart (s.queue l.queue).slots h := by
      rw [State.queue, State.setHart_queues]
      exact congrArg Queue.slots (State.setQueue_self ..)
    simp [hslots, releaseHart, h, hj, hi]
end

theorem recordsMove : RecordsMove :=
  ⟨headReached, fun _ _ _ hq => ⟨fun _ _ => reachesHead_stops hq, fun _ _ _ _ p _ hv hwin hp hk => by
      cases p <;> exact reachesHead_validated hq hv hwin hp hk⟩,
    fun _ _ _ _ => dispatchStarts, fun _ _ _ _ hl => launchCompletes hl,
    fun s q => ⟨State.answered_self q s, State.answered_queues q s, fun _ => State.answered_ne s⟩,
    fun _ _ _ hl => launchComplete_waits hl, fun _ _ _ _ _ _ hl => pairCompletes hl, fun _ _ _ => completed_head, completionMade,
    fun _ _ _ _ _ _ _ _ => qTranslate_answers, fun _ _ _ _ _ _ => qTranslate_window, fun _ _ _ _ _ => qAddOne_adds,
    fun _ _ => release_noJob, fun _ _ _ _ hr hb => release_job hr hb⟩

end Sys2Proof.Machine

open Sys2Proof Sys2Proof.Machine Sys2Proof.Claims

/-- Settles O49: what becomes of a record clause by clause, the checks of Table 02-5 by the order in which validation makes them, and the
pairs by the search over the candidates of the window. -/
theorem recordsComplete : Obligations.RecordsComplete := ⟨recordsMove, recordChecksFollow, pairsForm⟩
end

section
/-!
SUPPORT. An element-wise instruction over part of its elements: what the commit of a run of elements leaves in the register file, the flags
and the validity masks (R117, R121, R350), and where a forced pre-emption stops it (R59).
-/

namespace Sys2Proof.Machine

open Sys2Proof.Claims

/-! ## Bytes of the register file -/

theorem File.setBytes_get_out {f : File 8} {a b : Nat} {bs : List Byte} (h : b < a ∨ a + bs.length ≤ b) :
    (f.setBytes a bs).get b = f.get b := by
  induction bs generalizing f a with
  | nil => rfl
  | cons c bs ih =>
    rw [List.length_cons] at h
    rw [File.setBytes, ih (by omega), File.get_set_ne _ _ _ _ (by omega)]

theorem File.setBytes_get_in {f : File 8} {a i : Nat} {bs : List Byte} (h : i < bs.length) : (f.setBytes a bs).get (a + i) = bs[i] := by
  induction bs generalizing f a i with
  | nil => exact absurd h (by simp)
  | cons c bs ih =>
    rw [File.setBytes]
    cases i with
    | zero => rw [File.setBytes_get_out (Or.inl (by omega)), Nat.add_zero, File.get_set_self, List.getElem_cons_zero]
    | succ i =>
      rw [show a + (i + 1) = a + 1 + i by omega, ih (by simpa using h), List.getElem_cons_succ]

theorem Hart.elemAt_congr {g h : Hart} {cap v eb e : Nat}
    (hb : ∀ i, i < eb → g.vregs.get (v * cap + e * eb + i) = h.vregs.get (v * cap + e * eb + i)) :
    g.elemAt cap v eb e = h.elemAt cap v eb e :=
  congrArg ofBytes (List.map_congr_left fun i hi => hb i (List.mem_range.mp hi))

theorem Hart.elemAt_setElemAt_self (h : Hart) (cap v eb e val : Nat) :
    (h.setElemAt cap v eb e val).elemAt cap v eb e = val % 2 ^ (8 * eb) := by
  have hbytes : (List.range eb).map (fun i => (h.setElemAt cap v eb e val).vregs.get (v * cap + e * eb + i)) = toBytes eb val := by
    refine List.ext_getElem (by simp) fun i hi _ => ?_
    rw [List.getElem_map, List.getElem_range]
    exact File.setBytes_get_in (by simpa using hi)
  rw [Hart.elemAt, hbytes, ofBytes_toBytes, Nat.pow_mul]

theorem getLsbD_setBit (v : Word) {i j : Nat} (b : Bool) (hj : j < 64) :
    (setBit v i b).getLsbD j = if j = i then b else v.getLsbD j := by
  unfold setBit
  by_cases h : j = i
  · subst h
    cases b <;> simp [hj]
  · cases b
    · simp [hj, h]
    · simp [BitVec.getLsbD_twoPow, h, Ne.symm h]

/-! ## The commit of one element (R117, R121) -/

section
variable (x : VCtx) (pg : BitVec 3) (vd eb : Nat)

theorem commitElem_eq (e : Nat) (r : ElemRes) (h : Hart) : commitElem x pg vd eb e r h = { h with
    vregs := (commitElem x pg vd eb e r h).vregs, masks := (commitElem x pg vd eb e r h).masks
    vfflags := (commitElem x pg vd eb e r h).vfflags } := rfl

theorem commitElem_elemAt (e : Nat) (r : ElemRes) (h : Hart) :
    (commitElem x pg vd eb e r h).elemAt x.cap vd eb e = r.val % 2 ^ (8 * eb) := h.elemAt_setElemAt_self x.cap vd eb e r.val

theorem commitElem_vregs_out {e a : Nat} (r : ElemRes) (h : Hart)
    (ha : a < vd * x.cap + e * eb ∨ vd * x.cap + e * eb + eb ≤ a) : (commitElem x pg vd eb e r h).vregs.get a = h.vregs.get a :=
  File.setBytes_get_out (by rwa [toBytes_length])

theorem commitElem_vfflags (e : Nat) (r : ElemRes) (h : Hart) (k : Nat) :
    (commitElem x pg vd eb e r h).vfflags.getLsbD k = true ↔ h.vfflags.getLsbD k = true ∨ r.fl.getLsbD k = true := by
  have hk : r.fl.getLsbD k = true → k < 64 := fun hf => Nat.lt_trans (BitVec.lt_of_getLsbD hf) (by omega)
  show (h.vfflags ||| r.fl.setWidth 64).getLsbD k = true ↔ _
  simp only [BitVec.getLsbD_or, BitVec.getLsbD_setWidth, Bool.or_eq_true, Bool.and_eq_true, decide_eq_true_eq]
  exact or_congr_right ⟨And.right, fun hf => ⟨hk hf, hf⟩⟩

theorem commitElem_masks_ne {e v : Nat} (r : ElemRes) (h : Hart) (hv : v ≠ vd) :
    (commitElem x pg vd eb e r h).masks.get v = h.masks.get v := File.get_set_ne _ _ _ _ hv

theorem commitElem_valid {e b : Nat} (r : ElemRes) (h : Hart) (hb : b < 64) : (commitElem x pg vd eb e r h).valid vd b =
    if x.h.blk e = b then r.ok && (x.h.firstInBlock pg e || h.valid vd b) else h.valid vd b := by
  show ((File.set _ vd _).get vd).getLsbD b = _
  rw [File.get_set_self, getLsbD_setBit _ _ hb]
  by_cases hblk : x.h.blk e = b
  · rw [if_pos hblk.symm, if_pos hblk, hblk]
    rfl
  · rw [if_neg (Ne.symm hblk), if_neg hblk]
    rfl
end

/-! ## The commit of a run of elements -/

/-- Element `i` is one of the `n` from `e` up, and active. -/
def VCtx.commits (x : VCtx) (pg : BitVec 3) (e n i : Nat) : Prop := e ≤ i ∧ i < e + n ∧ x.h.active pg i = true

section
variable {x : VCtx} {pg : BitVec 3} {vd eb : Nat} {f : Nat → ElemRes}

theorem VCtx.commits_succ {e n i : Nat} : x.commits pg e (n + 1) i ↔ (i = e ∧ x.h.active pg e = true) ∨ x.commits pg (e + 1) n i := by
  unfold commits
  constructor
  · rintro ⟨h1, h2, h3⟩
    by_cases hi : i = e
    · exact .inl ⟨hi, hi ▸ h3⟩
    · exact .inr ⟨by omega, by omega, h3⟩
  · rintro (⟨rfl, h⟩ | ⟨h1, h2, h3⟩)
    · exact ⟨Nat.le_refl _, by omega, h⟩
    · exact ⟨by omega, by omega, h3⟩

theorem commitFrom_vregs_out {a : Nat} {n : Nat} : ∀ {e : Nat} {h : Hart},
    (∀ i, x.commits pg e n i → a < vd * x.cap + i * eb ∨ vd * x.cap + i * eb + eb ≤ a) →
    (commitFrom x pg vd eb f n e h).vregs.get a = h.vregs.get a := by
  induction n with
  | zero => exact fun _ => rfl
  | succ n ih =>
    intro e h ha
    rw [commitFrom, ih fun i hi => ha i (VCtx.commits_succ.mpr (.inr hi))]
    split
    next hact => exact commitElem_vregs_out x pg vd eb _ _ (ha e (VCtx.commits_succ.mpr (.inl ⟨rfl, hact⟩)))
    next => rfl

theorem commitFrom_elemAt {i n : Nat} : ∀ {e : Nat} {h : Hart}, x.commits pg e n i →
    (commitFrom x pg vd eb f n e h).elemAt x.cap vd eb i = (f i).val % 2 ^ (8 * eb) := by
  induction n with
  | zero => exact fun {e h} ⟨h1, h2, _⟩ => absurd h2 (by omega)
  | succ n ih =>
    intro e h hi
    rcases VCtx.commits_succ.mp hi with ⟨rfl, hact⟩ | hi
    · rw [commitFrom, if_pos hact, ← commitElem_elemAt x pg vd eb i (f i) h]
      refine Hart.elemAt_congr fun j hj => commitFrom_vregs_out fun i' hi' => .inl ?_
      have hmul : (i + 1) * eb ≤ i' * eb := Nat.mul_le_mul_right eb hi'.1
      rw [Nat.succ_mul] at hmul
      omega
    · exact ih hi

theorem commitFrom_vfflags {k n : Nat} : ∀ {e : Nat} {h : Hart}, (commitFrom x pg vd eb f n e h).vfflags.getLsbD k = true ↔
    h.vfflags.getLsbD k = true ∨ ∃ i, x.commits pg e n i ∧ (f i).fl.getLsbD k = true := by
  induction n with
  | zero => exact fun {e h} => ⟨.inl, fun h => h.resolve_right fun ⟨i, ⟨h1, h2, _⟩, _⟩ => absurd h2 (by omega)⟩
  | succ n ih =>
    intro e h
    rw [commitFrom, ih]
    simp only [VCtx.commits_succ, or_and_right, exists_or, and_assoc, exists_eq_left]
    split
    next hact => rw [commitElem_vfflags, or_assoc, and_iff_right hact]
    next hact => simp only [hact, false_and, false_or, Bool.false_eq_true]

theorem commitFrom_masks_ne {v n : Nat} (hv : v ≠ vd) : ∀ {e : Nat} {h : Hart},
    (commitFrom x pg vd eb f n e h).masks.get v = h.masks.get v := by
  induction n with
  | zero => exact rfl
  | succ n ih =>
    intro e h
    rw [commitFrom, ih]
    split
    next => exact commitElem_masks_ne x pg vd eb _ _ hv
    next => rfl

/-- An element is the first of its block when none below it in the block is active. -/
theorem firstInBlock_iff {h : Hart} {e : Nat} :
    h.firstInBlock pg e = true ↔ ∀ i, i < e → h.blk i = h.blk e → h.active pg i = false := by
  have hpos : 0 < 2 ^ h.blkLog := Nat.two_pow_pos _
  have hle : h.blockStart e ≤ e := Nat.div_mul_le_self e _
  simp only [Hart.firstInBlock, Bool.not_eq_true', List.any_eq_false, List.mem_range, Bool.not_eq_true]
  constructor
  · intro hall i hi hblk
    have hge : h.blockStart e ≤ i := by
      rw [Hart.blockStart, ← hblk]
      exact Nat.div_mul_le_self i _
    have hthis := hall (i - h.blockStart e) (by omega)
    rwa [Nat.add_sub_cancel' hge] at hthis
  · intro hall j hj
    refine hall _ (by omega) ?_
    have hlt : h.blockStart e + j < (h.blk e + 1) * 2 ^ h.blkLog := by
      have := Nat.lt_div_mul_add hpos (a := e)
      rw [Nat.succ_mul]
      simp only [Hart.blockStart, Hart.blk] at hj ⊢
      omega
    exact Nat.div_eq_of_lt_le (by rw [Hart.blockStart]; exact Nat.le_add_right _ _) hlt

/-- A block is valid at the end when all that was committed to it was, and it was before, or its first active element was committed. -/
theorem commitFrom_valid {b n : Nat} (hb : b < 64) : ∀ {e : Nat} {h : Hart}, (commitFrom x pg vd eb f n e h).valid vd b = true ↔
    (∀ i, x.commits pg e n i → x.h.blk i = b → (f i).ok = true) ∧
    (h.valid vd b = true ∨ ∃ i, x.commits pg e n i ∧ x.h.blk i = b ∧ x.h.firstInBlock pg i = true) := by
  induction n with
  | zero =>
    intro e h
    have hnone : ∀ i, ¬ x.commits pg e 0 i := fun i ⟨h1, h2, _⟩ => absurd h2 (by omega)
    simp [commitFrom, hnone]
  | succ n ih =>
    intro e h
    rw [commitFrom, ih]
    by_cases hact : x.h.active pg e = true
    · by_cases hblk : x.h.blk e = b
      · have hlater : ∀ i, x.commits pg (e + 1) n i → x.h.blk i = b → x.h.firstInBlock pg i = false := by
          intro i hi hib
          rw [← Bool.not_eq_true, firstInBlock_iff]
          intro hall
          rw [hall e (by have := hi.1; omega) (hblk.trans hib.symm)] at hact
          exact absurd hact Bool.false_ne_true
        rw [if_pos hact, commitElem_valid _ _ _ _ _ _ hb, if_pos hblk]
        simp only [Bool.and_eq_true, Bool.or_eq_true, VCtx.commits_succ]
        constructor
        · rintro ⟨hok, (⟨ho, hf⟩ | ⟨i, hi, hib, hf⟩)⟩
          · refine ⟨fun i hi hib => ?_, ?_⟩
            · rcases hi with ⟨rfl, -⟩ | hi
              · exact ho
              · exact hok i hi hib
            · exact hf.symm.imp_right fun hf => ⟨e, .inl ⟨rfl, hact⟩, hblk, hf⟩
          · rw [hlater i hi hib] at hf
            exact absurd hf Bool.false_ne_true
        · rintro ⟨hok, hv⟩
          refine ⟨fun i hi => hok i (.inr hi), .inl ⟨hok e (.inl ⟨rfl, hact⟩) hblk, ?_⟩⟩
          rcases hv with hv | ⟨i, ⟨rfl, -⟩ | hi, hib, hf⟩
          · exact .inr hv
          · exact .inl hf
          · rw [hlater i hi hib] at hf
            exact absurd hf Bool.false_ne_true
      · have hrest : ∀ i, x.h.blk i = b → (x.commits pg e (n + 1) i ↔ x.commits pg (e + 1) n i) := fun i hib =>
          VCtx.commits_succ.trans (or_iff_right fun hi => hblk (hi.1 ▸ hib))
        rw [if_pos hact, commitElem_valid _ _ _ _ _ _ hb, if_neg hblk]
        refine and_congr (forall_congr' fun i => ?_) (or_congr_right (exists_congr fun i => ?_))
        · exact ⟨fun h hi hib => h ((hrest i hib).mp hi) hib, fun h hi hib => h ((hrest i hib).mpr hi) hib⟩
        · exact ⟨fun ⟨hi, hib, hf⟩ => ⟨(hrest i hib).mpr hi, hib, hf⟩, fun ⟨hi, hib, hf⟩ => ⟨(hrest i hib).mp hi, hib, hf⟩⟩
    · simp only [VCtx.commits_succ, hact, and_false, false_or, Bool.false_eq_true, if_false]
end

/-! ## An element-wise instruction over its first elements -/

theorem finish_preempt {x : Op Unit} {s t : State} {pc : Word} {k : Nat} (h : x.run s = .error (.preempt pc k) t) :
    finish x s = .next (preempt true true pc k t) := by simp [finish, h]

theorem blurMasks_eq (k vd n : Nat) (h : Hart) : blurMasks k vd n h = { h with masks := (blurMasks k vd n h).masks } := by
  induction n generalizing h with
  | zero => rfl
  | succ n ih => rw [blurMasks, ih]

theorem blurMasks_masks_out {k vd n v : Nat} (hv : v ≤ vd ∨ vd + n < v) (h : Hart) :
    (blurMasks k vd n h).masks.get v = h.masks.get v := by
  induction n generalizing h with
  | zero => rfl
  | succ n ih => exact (ih (by omega) _).trans (File.get_set_ne _ _ _ _ (by omega))

theorem blurGroup_run (vd : BitVec 5) (written : Bool) (s : State) : ∃ k m, (blurGroup vd written).run s =
    .ok () { s with freeCtr := k, hart := { s.hart with masks := m } } ∧
      ∀ v, v ≤ vd.toNat ∨ vd.toNat + s.hart.grp ≤ v → m.get v = s.hart.masks.get v := by
  by_cases hw : written ∧ 1 < s.hart.grp
  · obtain ⟨-, hgrp⟩ := id hw
    refine ⟨s.freeCtr + 1, (blurMasks s.freeCtr vd.toNat (s.hart.grp - 1) s.hart).masks, ?_, fun v hv => blurMasks_masks_out (by omega) _⟩
    refine Op.bind_ok (Op.run_getH s) ?_
    rw [if_pos hw]
    exact congrArg (fun h => EStateM.Result.ok () { s with freeCtr := s.freeCtr + 1, hart := h }) (blurMasks_eq ..)
  · refine ⟨s.freeCtr, s.hart.masks, Op.bind_ok (Op.run_getH s) ?_, fun _ _ => rfl⟩
    rw [if_neg hw]
    rfl

/-- What an element-wise instruction does to its elements below `stop`. -/
def lanewiseBody (pg : BitVec 3) (vd : BitVec 5) (eb : Nat) (f : VCtx → Nat → ElemRes) (stop : Nat) : Op Unit := do
  let x ← vctx
  modH (commitFrom x pg vd.toNat eb (f x) (stop - x.h.vxi) x.h.vxi)
  blurGroup vd ((List.range (stop - x.h.vxi)).any fun i => x.h.active pg (x.h.vxi + i))

theorem lanewise_eq (unit : VUnit) (c : Bool) (pg : BitVec 3) (vd : BitVec 5) (regs : List (BitVec 5)) (eb ebMax : Nat)
    (suits : Hart → Bool) (f : VCtx → Nat → ElemRes) : lanewise unit c pg vd regs eb ebMax suits f = (do
      vecChecks unit c (vd :: regs) ebMax suits
      let h ← getH
      vecRun unit 1 h.nel h.pc (lanewiseBody pg vd eb f)) := rfl

section
variable {x : VCtx} {pg : BitVec 3} {vd eb : Nat} {f : Nat → ElemRes}

theorem commitFrom_eq {n : Nat} : ∀ {e : Nat} {h : Hart}, commitFrom x pg vd eb f n e h = { h with
    vregs := (commitFrom x pg vd eb f n e h).vregs, masks := (commitFrom x pg vd eb f n e h).masks
    vfflags := (commitFrom x pg vd eb f n e h).vfflags } := by
  induction n with
  | zero => exact rfl
  | succ n ih =>
    intro e h
    rw [commitFrom, ih]
    split
    · rw [commitElem_eq]
    · rfl

theorem commitFrom_grp {n e : Nat} {h : Hart} : (commitFrom x pg vd eb f n e h).grp = h.grp := by
  rw [commitFrom_eq]
  rfl
end

theorem lanewiseBody_run (pg : BitVec 3) (vd : BitVec 5) (eb : Nat) (f : VCtx → Nat → ElemRes) (n : Nat) (s : State) : ∃ k m,
    (lanewiseBody pg vd eb f n).run s = .ok () { s with
      freeCtr := k
      hart := { commitFrom (Claims.reads s) pg vd.toNat eb (f (Claims.reads s)) (n - s.hart.vxi) s.hart.vxi s.hart with masks := m } } ∧
    ∀ v, v ≤ vd.toNat ∨ vd.toNat + s.hart.grp ≤ v → m.get v =
      (commitFrom (Claims.reads s) pg vd.toNat eb (f (Claims.reads s)) (n - s.hart.vxi) s.hart.vxi s.hart).masks.get v := by
  obtain ⟨k, m, hrun, hout⟩ := blurGroup_run vd ((List.range (n - s.hart.vxi)).any fun i => s.hart.active pg (s.hart.vxi + i))
    { s with hart := commitFrom (Claims.reads s) pg vd.toNat eb (f (Claims.reads s)) (n - s.hart.vxi) s.hart.vxi s.hart }
  exact ⟨k, m, Op.bind_ok rfl (Op.bind_ok (Op.run_modH _ s) hrun), fun v hv => hout v (by rwa [commitFrom_grp])⟩

/-! ## Where a forced pre-emption stops it (R59) -/

theorem vecChecks_passes {s : State} {u : VUnit} {c : Bool} {regs : List (BitVec 5)} {widest : Nat} {suits : Hart → Bool}
    (h : checksPass s u c regs widest (suits s.hart)) :
    (vecChecks u c regs widest suits).run s = .ok () { s with hart := joined u c s.hart } := by
  obtain ⟨hr, hf, hs, hj⟩ := h
  have hfits : (s.hart.fits (s.capC s.hart) widest && suits s.hart) = true := by rw [hs, Bool.and_true]; exact decide_eq_true hf
  refine Op.bind_ok (Op.run_get s) ?_
  simp only [all_groupOk.mpr hr, hfits]
  exact Op.bind_ok (Op.run_illegalUnless_true s) (Op.bind_ok (Op.run_illegalUnless_true s) (joinConvoy_joins hj))

section
variable {unit : VUnit} {n k : Nat} {pc : Word} {body : Nat → Op Unit} {s t : State} (hd : s.forcedDue = true)
  (hst : s.hart.stopAt = some k)
include hd hst

theorem vecRun_stops (hup : s.hart.upsets = []) (hlow : s.hart.vxi < k) (hhigh : k < n) (hk : (body k).run s = .ok () t)
    (hnext : ∀ u, ∃ v, (body (min (k + 1) n)).run u = .ok () v) : (vecRun unit 1 n pc body).run s =
      .error (.preempt pc k) { t with hart := { t.hart with vxi := k, stopAt := none } } := by
  have hbefore : (stopBefore 1 n k pc body).run s = .error (.preempt pc k) { t with hart := { t.hart with vxi := k, stopAt := none } } := by
    have htraps : ∀ u, trapsBy (body (min (k + 1) n)) k u = false := fun u => by
      obtain ⟨v, hv⟩ := hnext u
      simp only [trapsBy, hv]
    refine Op.bind_ok hk (Op.bind_ok (Op.run_getH t) ?_)
    rw [if_neg (by simp [Hart.endedBelow])]
    refine Op.bind_ok (Op.run_modH _ t) (Op.bind_ok (Op.run_get _) ?_)
    simp only [htraps, Bool.false_eq_true, if_false]
    rfl
  have hchecked : (checkedRun unit 1 k pc body (stopBefore 1 n k pc body)).run s = (stopBefore 1 n k pc body).run s := by
    refine Op.bind_ok (Op.run_getH s) ?_
    rw [hup]
    exact congrArg (fun x : Op Unit => x.run s) (ite_self _)
  have hinside : (decide (1 ≠ 0) && decide (k % 1 = 0) && decide (s.hart.vxi < k) && decide (k < n)) = true := by
    simp [hlow, hhigh, Nat.mod_one]
  refine Op.bind_ok (Op.run_get s) ?_
  simp only [hd, hst, if_true]
  rw [if_pos hinside]
  exact Op.bind_error (hchecked.trans hbefore)

theorem vecRun_stops_before (h : ¬ (s.hart.vxi < k ∧ k < n)) :
    (vecRun unit 1 n pc body).run s = .error (.preempt pc s.hart.vxi) s := by
  have houtside : ¬ (decide (1 ≠ 0) && decide (k % 1 = 0) && decide (s.hart.vxi < k) && decide (k < n)) = true := by
    simpa [Nat.mod_one] using h
  refine Op.bind_ok (Op.run_get s) ?_
  simp only [hd, hst, if_true]
  rw [if_neg houtside]
  rfl
end

/-! ## What it has written then -/

section
variable {L : Lane} {s u : State} {k : Nat} (hwhole : L.whole = false) (hwrites : L.writes = fun _ => true) (hlow : s.hart.vxi < k)
  (hhigh : k < s.hart.nel)
include hwhole hwrites hlow hhigh

/-- The elements written before the stop are those from VXI up to it that are active. -/
theorem upto_acts_iff {e : Nat} : (L.upto k).acts s.hart e ↔ (Claims.reads s).commits L.pg s.hart.vxi (k - s.hart.vxi) e := by
  simp only [Lane.acts, Lane.upto, VCtx.commits, hwhole, hwrites, Bool.false_eq_true, false_or, Bool.true_and, decide_eq_true_eq]
  constructor
  · rintro ⟨-, hv, hact, hk⟩
    exact ⟨hv, by omega, hact⟩
  · rintro ⟨hv, hk, hact⟩
    exact ⟨by omega, hv, hact, by omega⟩

/-- The first active element of a block is one of those written exactly when no element of the block below VXI is active. -/
theorem upto_first_iff {e : Nat} (he : (L.upto k).acts s.hart e) :
    (∃ i, (L.upto k).acts s.hart i ∧ s.hart.blk i = s.hart.blk e ∧ s.hart.firstInBlock L.pg i = true) ↔
      ∀ e', e' < s.hart.vxi → s.hart.blk e' = s.hart.blk e → s.hart.active L.pg e' = false := by
  constructor
  · rintro ⟨i, hi, hblk, hfirst⟩ e' he' hblk'
    have hle : s.hart.vxi ≤ i := ((upto_acts_iff hwhole hwrites hlow hhigh).mp hi).1
    exact firstInBlock_iff.mp hfirst e' (by omega) (hblk'.trans hblk.symm)
  · intro hnone
    classical
    have hex : ∃ i, (L.upto k).acts s.hart i ∧ s.hart.blk i = s.hart.blk e := ⟨e, he, rfl⟩
    obtain ⟨hact, hblk⟩ := Nat.find_spec hex
    refine ⟨Nat.find hex, hact, hblk, firstInBlock_iff.mpr fun i hi hib => ?_⟩
    by_cases hv : i < s.hart.vxi
    · exact hnone i hv (hib.trans hblk)
    · rw [← Bool.not_eq_true]
      intro hia
      have hacts := (upto_acts_iff hwhole hwrites hlow hhigh).mp hact
      have hi' : (L.upto k).acts s.hart i := (upto_acts_iff hwhole hwrites hlow hhigh).mpr ⟨by omega, by have := hacts.2.1; omega, hia⟩
      exact Nat.find_min hex hi ⟨hi', hib.trans hblk⟩

theorem upto_wrote
    (hv : u.hart.vregs = (commitFrom (Claims.reads s) L.pg L.vd.toNat L.eb L.res (k - s.hart.vxi) s.hart.vxi s.hart).vregs)
    (hf : u.hart.vfflags = (commitFrom (Claims.reads s) L.pg L.vd.toNat L.eb L.res (k - s.hart.vxi) s.hart.vxi s.hart).vfflags)
    (hm : ∀ v, v ≤ L.vd.toNat ∨ L.vd.toNat + s.hart.grp ≤ v → u.hart.masks.get v =
      (commitFrom (Claims.reads s) L.pg L.vd.toNat L.eb L.res (k - s.hart.vxi) s.hart.vxi s.hart).masks.get v) :
    (L.upto k).Wrote s u := by
  have hacts := fun e => upto_acts_iff (e := e) hwhole hwrites hlow hhigh
  have hvalid : ∀ b, u.hart.valid L.vd.toNat b =
      (commitFrom (Claims.reads s) L.pg L.vd.toNat L.eb L.res (k - s.hart.vxi) s.hart.vxi s.hart).valid L.vd.toNat b := fun b => by
    rw [Hart.valid, hm _ (.inl (Nat.le_refl _))]
    rfl
  refine ⟨fun e he => ?_, fun a ha => ?_, fun j => ?_, fun b hb hno => ?_, fun e he hb => ?_, fun v hout => ?_⟩
  · show ofBytes ((List.range L.eb).map fun i => u.hart.vregs.get (L.vd.toNat * (Claims.reads s).cap + e * L.eb + i)) = _
    rw [hv]
    exact commitFrom_elemAt ((hacts e).mp he)
  · rw [hv]
    exact commitFrom_vregs_out fun e he => ha e ((hacts e).mpr he)
  · rw [hf, commitFrom_vfflags]
    exact or_congr_right (exists_congr fun e => and_congr_left' (hacts e).symm)
  · show u.hart.valid L.vd.toNat b = _
    rw [hvalid, Bool.eq_iff_iff, commitFrom_valid hb]
    constructor
    · rintro ⟨-, hval | ⟨i, hi, hib, -⟩⟩
      · exact hval
      · exact absurd hib (hno i ((hacts i).mpr hi))
    · exact fun hval => ⟨fun i hi hib => absurd hib (hno i ((hacts i).mpr hi)), .inl hval⟩
  · have hfirst := upto_first_iff hwhole hwrites hlow hhigh he
    show u.hart.valid L.vd.toNat _ = true ↔ _
    rw [hvalid, commitFrom_valid hb]
    refine and_congr (forall_congr' fun i => imp_congr_left (hacts i).symm) ?_
    rw [show (L.upto k).whole = false from hwhole]
    simp only [Bool.false_eq_true, false_or]
    exact or_congr_right ((exists_congr fun i => and_congr_left' (hacts i).symm).trans hfirst)
  · have hpos : 0 < s.hart.grp := Nat.two_pow_pos _
    have hne : v < L.vd.toNat ∨ L.vd.toNat + s.hart.grp ≤ v := hout
    exact (hm v (hne.imp_left Nat.le_of_lt)).trans (commitFrom_masks_ne (by omega))
end

/-- What a lane writes does not depend on the convoy that it joins. -/
theorem upto_wrote_joined {L : Lane} {s u : State} {k : Nat} {unit : VUnit} {c : Bool}
    (h : (L.upto k).Wrote { s with hart := joined unit c s.hart } u) : (L.upto k).Wrote s u := h

/-! ## The instruction as a whole -/

/-- The operation `x` is the element-wise instruction that the lane `L` describes. -/
structure Computes (L : Lane) (s : State) (x : Op Unit) : Prop where
  isElementwise : L.whole = false ∧ L.writes = fun _ => true
  runs : ∃ suits f, x.run s = (lanewise L.unit L.c L.pg L.vd L.regs L.eb L.widest suits f).run s ∧ suits s.hart = true ∧
    f (Claims.reads { s with hart := joined L.unit L.c s.hart }) = L.res

/-- Interrupt 16 ends the convoy, so it does not matter whether the instruction has joined it. -/
theorem takeInterrupt_joined (forced : Bool) (pc : Word) (k : Nat) (unit : VUnit) (c : Bool) (s : State) :
    takeInterrupt pc k forced { s with hart := joined unit c s.hart } = takeInterrupt pc k forced s := by
  have horigin : ({ s with hart := joined unit c s.hart } : State).korigin (joined unit c s.hart) = s.korigin s.hart := by
    unfold State.korigin
    rfl
  unfold takeInterrupt
  simp only [horigin]
  rfl

theorem preempt_joined (full forced : Bool) (pc : Word) (k : Nat) (unit : VUnit) (c : Bool) (s : State) :
    preempt full forced pc k { s with hart := joined unit c s.hart } = preempt full forced pc k s := by
  unfold preempt
  rw [takeInterrupt_joined]

section
variable {L : Lane} {s : State} {x : Op Unit} {k : Nat} (hx : Computes L s x) (hp : L.passes s) (hd : s.forcedDue = true)
  (hst : s.hart.stopAt = some k)
include hx hp hd hst

theorem computes_stops (hup : s.hart.upsets = []) (hlow : s.hart.vxi < k) (hhigh : k < s.hart.nel) :
    ∃ u, dispatch x s = .next (preempt true true s.hart.pc k u) ∧ (L.upto k).Wrote s u ∧ u = { s with hart := u.hart, freeCtr := u.freeCtr } := by
  obtain ⟨⟨hwhole, hwrites⟩, suits, f, hrun, hsuits, hres⟩ := hx
  let t : State := { s with hart := joined L.unit L.c s.hart }
  obtain ⟨n, m', hbody, hm⟩ := lanewiseBody_run L.pg L.vd L.eb f k t
  rw [hres] at hbody hm
  have hstop := vecRun_stops (unit := L.unit) (n := s.hart.nel) (pc := s.hart.pc) (body := lanewiseBody L.pg L.vd L.eb f) (s := t) hd hst hup
    hlow hhigh hbody fun u => ⟨_, (lanewiseBody_run L.pg L.vd L.eb f _ u).choose_spec.choose_spec.1⟩
  have hlane := (hrun.trans (congrArg (·.run s) (lanewise_eq ..))).trans
    (Op.bind_ok (vecChecks_passes ⟨hp.1, hp.2.1, hsuits, hp.2.2.2⟩) (Op.bind_ok (Op.run_getH t) hstop))
  exact ⟨_, finish_preempt (Op.bind_error hlane), upto_wrote_joined (upto_wrote hwhole hwrites hlow hhigh rfl rfl hm), rfl⟩

theorem computes_stops_before (h : ¬ (s.hart.vxi < k ∧ k < s.hart.nel)) :
    dispatch x s = .next (preempt true true s.hart.pc s.hart.vxi s) := by
  obtain ⟨-, suits, f, hrun, hsuits, -⟩ := hx
  let t : State := { s with hart := joined L.unit L.c s.hart }
  have hstop := vecRun_stops_before (unit := L.unit) (n := s.hart.nel) (pc := s.hart.pc) (body := lanewiseBody L.pg L.vd L.eb f) (s := t)
    hd hst h
  have hlane := (hrun.trans (congrArg (·.run s) (lanewise_eq ..))).trans
    (Op.bind_ok (vecChecks_passes ⟨hp.1, hp.2.1, hsuits, hp.2.2.2⟩) (Op.bind_ok (Op.run_getH t) hstop))
  exact (finish_preempt (Op.bind_error hlane)).trans (congrArg _ (preempt_joined ..))
end

/-! ## The families -/

section
variable (s : State) (unit : VUnit) (c : Bool)

theorem reads_joined : Claims.reads { s with hart := joined unit c s.hart } = { h := joined unit c s.hart, cap := s.capC s.hart } := rfl
theorem elem_joined (h : Hart) (cap : Nat) (v : BitVec 5) (e : Nat) :
    (VCtx.mk (joined unit c h) cap).elem v e = (VCtx.mk h cap).elem v e := rfl
theorem src_joined (h : Hart) (cap : Nat) (o : Cap) (b : Src2) (sg : Bool) (e : Nat) :
    (VCtx.mk (joined unit c h) cap).src o b sg e = (VCtx.mk h cap).src o b sg e := by
  cases b <;> rfl
theorem srcValid_joined (h : Hart) (cap : Nat) (b : Src2) (e : Nat) :
    (VCtx.mk (joined unit c h) cap).srcValid b e = (VCtx.mk h cap).srcValid b e := by
  cases b <;> rfl
theorem regValid_joined (h : Hart) (cap : Nat) (v : BitVec 5) (e : Nat) :
    (VCtx.mk (joined unit c h) cap).regValid v e = (VCtx.mk h cap).regValid v e := rfl
theorem w_joined (h : Hart) (cap : Nat) :
    (VCtx.mk (joined unit c h) cap).w = (VCtx.mk h cap).w := rfl
end
theorem vint_computes (s : State) (v : VOp) (sg : Bool) (f : Nat → Nat → Nat → Nat × FlagSet) :
    Computes (intLane s v sg f) s (vint v sg f (captureV v s.hart)) := by
  refine ⟨⟨rfl, rfl⟩, anyType, _, Op.bind_ok (Op.run_getH s) rfl, rfl, funext fun e => ?_⟩
  simp only [reads_joined, elem_joined, src_joined, srcValid_joined, regValid_joined, w_joined]
  rfl

theorem vcount_computes (s : State) (u : UOp) (f : Nat → Nat → Nat) : Computes (countLane s u f) s (vcount u f) := by
  refine ⟨⟨rfl, rfl⟩, anyType, _, Op.bind_ok (Op.run_getH s) rfl, rfl, funext fun e => ?_⟩
  simp only [reads_joined, elem_joined, regValid_joined, w_joined]
  rfl

theorem vfunnel_computes {s : State} {u : UOp} {f : Nat → Nat → Nat → Nat → Nat} (h : (funnelLane s u f).suits = true) :
    Computes (funnelLane s u f) s (vfunnel u f) := by
  refine ⟨⟨rfl, rfl⟩, anyType, _, Op.bind_ok (Op.run_get s) (Op.bind_ok (a := ()) (t := s) ?_ rfl), rfl, funext fun e => ?_⟩
  · exact (congrArg (fun b => (illegalUnless b).run s) h).trans (Op.run_illegalUnless_true s)
  · simp only [reads_joined, elem_joined, regValid_joined, w_joined]
    rfl

/-- A VFLT instruction whose function, on what it reads, is that of the lane. -/
theorem vflt_computes {s : State} {c : Bool} {pg : BitVec 3} {vd : BitVec 5} {regs : List (BitVec 5)} {g : VCtx → Nat → ElemRes}
    {res : Nat → ElemRes} (hf : isFloat s.hart.etype = true) (hg : ∀ e, g { h := joined .vflt c s.hart, cap := s.capC s.hart } e = res e) :
    Computes (.mk .vflt c pg vd regs s.hart.eb s.hart.eb (isFloat s.hart.etype) (fun _ => true) res false) s (vflt c pg vd regs g) :=
  ⟨⟨rfl, rfl⟩, floatType, g, Op.bind_ok (Op.run_getH s) rfl, hf, funext hg⟩

section
variable {s : State} (hf : isFloat s.hart.etype = true)
include hf

theorem vflt2_computes (v : VOp) (f : Rm → Fx → Fx → Fx × FlagSet) :
    Computes (fltLane s v false fun t rm a b _ => rounded t rm (f (effRm t rm) (fxOf t a) (fxOf t b))) s (vflt2 v f (captureV v s.hart)) := by
  refine vflt_computes hf fun e => ?_
  simp only [elem_joined, src_joined, srcValid_joined, regValid_joined, Bool.not_false, Bool.true_or, Bool.and_true, fxOf, if_pos hf]
  rfl
theorem vflt3_computes (v : VOp) (negP negD : Bool) :
    Computes (fltLane s v true fun t rm a b d => rounded t rm (fmaFx (effRm t rm) (if negP then (fxOf t a).neg else fxOf t a) (fxOf t b)
      (if negD then (fxOf t d).neg else fxOf t d))) s (vflt3 v negP negD (captureV v s.hart)) := by
  refine vflt_computes hf fun e => ?_
  simp only [elem_joined, src_joined, srcValid_joined, regValid_joined]
  rfl

theorem vflt1_computes (u : UOp) (f : Rm → Fx → Fx × FlagSet) :
    Computes (fltLane1 s u fun t rm a => rounded t rm (f rm (fxOf t a))) s (vflt1 u f) := by
  refine vflt_computes hf fun e => ?_
  simp only [elem_joined, regValid_joined]
  rfl

theorem vfminmax_computes (v : VOp) (isMax : Bool) :
    Computes (fltLane s v false fun t _ a b _ => minMaxF (fmtOf t) isMax a b) s (vfminmax v isMax (captureV v s.hart)) := by
  refine vflt_computes hf fun e => ?_
  simp only [elem_joined, src_joined, srcValid_joined, regValid_joined, Bool.not_false, Bool.true_or, Bool.and_true]
  rfl

theorem vfsgnj_computes (v : VOp) :
    Computes (fltLane s v false fun t _ a b _ => signOp t a (signOf t b)) s (vfsgnjBody v (captureV v s.hart)) := by
  refine vflt_computes hf fun e => ?_
  simp only [elem_joined, src_joined, srcValid_joined, regValid_joined, Bool.not_false, Bool.true_or, Bool.and_true]
  rfl

theorem vfscale_computes (v : VOp) :
    Computes (fltLane s v false fun t rm a b _ => scaleElem t rm a (toSigned (8 * s.hart.eb) b)) s (vfscaleBody v (captureV v s.hart)) := by
  refine vflt_computes hf fun e => ?_
  simp only [elem_joined, src_joined, srcValid_joined, regValid_joined, w_joined, Bool.not_false, Bool.true_or, Bool.and_true]
  rfl

theorem vfsign_computes (u : UOp) (f : Bool → Bool) :
    Computes (fltLane1 s u fun t _ a => signOp t a (f (signOf t a))) s (vfsign u f) := by
  refine vflt_computes hf fun e => ?_
  simp only [elem_joined, regValid_joined]
  rfl
end

theorem exec_vintLane {i : Instr} {s : State} {L : Lane} (h : vintLane s i = some L) (hL : L.passes s) :
    ∃ x, exec i s = dispatch x s ∧ Computes L s x := by
  unfold vintLane at h
  split at h
  case h_17 | h_18 => cases h; exact ⟨_, rfl, vcount_computes ..⟩
  case h_19 | h_20 => cases h; exact ⟨_, rfl, vfunnel_computes hL.2.2.1⟩
  case h_21 => exact absurd h (by simp)
  all_goals
    cases h
    exact ⟨_, rfl, vint_computes ..⟩

theorem exec_vfltLane {i : Instr} {s : State} {L : Lane} (h : vfltLane s i = some L) (hL : L.passes s) :
    ∃ x, exec i s = dispatch x s ∧ Computes L s x := by
  obtain ⟨-, -, hf, -⟩ := hL
  unfold vfltLane at h
  split at h
  case h_1 => cases h; exact ⟨_, rfl, vflt2_computes hf _ addFx⟩
  case h_2 => cases h; exact ⟨_, rfl, vflt2_computes hf _ subFx⟩
  case h_3 => cases h; exact ⟨_, rfl, vflt2_computes hf _ fun _ => mulFx⟩
  case h_4 => cases h; exact ⟨_, rfl, vflt2_computes hf _ fun _ => divFx⟩
  case h_5 => cases h; exact ⟨_, rfl, vflt3_computes hf _ false false⟩
  case h_6 => cases h; exact ⟨_, rfl, vflt3_computes hf _ false true⟩
  case h_7 => cases h; exact ⟨_, rfl, vflt3_computes hf _ true false⟩
  case h_8 | h_9 => cases h; exact ⟨_, rfl, vfminmax_computes hf ..⟩
  case h_10 => cases h; exact ⟨_, rfl, vfsgnj_computes hf _⟩
  case h_11 => cases h; exact ⟨_, rfl, vfscale_computes hf _⟩
  case h_12 => cases h; exact ⟨_, rfl, vfsign_computes hf _ fun _ => false⟩
  case h_13 => cases h; exact ⟨_, rfl, vfsign_computes hf _ (!·)⟩
  case h_14 => cases h; exact ⟨_, rfl, vflt1_computes hf _ fun _ => sqrtFx⟩
  case h_15 => cases h; exact ⟨_, rfl, vflt1_computes hf _ fun _ => exp2Fx⟩
  case h_16 => cases h; exact ⟨_, rfl, vflt1_computes hf _ rndFx⟩
  case h_17 => exact absurd h (by simp)

end Sys2Proof.Machine
end

section
/-!
SUPPORT. Priorities and requests: when a queue gains a level, when a request is due and what sends it, and what the deadline does (R55, R56,
R59, R200, R201, R212, R299, R391).
-/

namespace Sys2Proof.Machine

open Sys2Proof.Claims

/-! ## Ageing (R55) -/

theorem Queue.levelDue_iff (q : Queue) : q.levelDue = true ↔ 2000 ≤ q.age ∧ q.prio < 6 := by simp [levelDue]

theorem Queue.eff_eq (q : Queue) : q.eff = if 2000 ≤ q.age ∧ q.prio < 6 then q.prio + 1 else q.prio :=
  if_congr q.levelDue_iff rfl rfl

theorem queueAges {q : Nat} {s : State} (ha : 2000 ≤ (s.queue q).age) (hp : (s.queue q).prio < 6) :
    exec (.queueAgeing q) s = .next (s.setQueue q { s.queue q with prio := (s.queue q).prio + 1, age := 0 }) := by
  refine event_ok (Op.bind_ok (Op.run_get s) (Op.bind_ok (a := ()) (t := s) ?_ rfl))
  rw [(s.queue q).levelDue_iff.mpr ⟨ha, hp⟩]
  rfl

/-! ## Requests (R56, R200, R212) -/

section
variable {id : Nat} {s : State}

theorem sendRequest_run {j : Job} {l : Launch} (hj : (s.hartOf id).job = some j) (hl : s.launchOf (s.hartOf id) = some l) :
    (sendRequest id).run s = .ok () (if l.a.isGang then
        s.mapHarts fun g => if g.inLaunch j.launch && g.status = .running then asked s.time g else g
      else s.setHart (asked s.time (s.hartOf id))) := by
  rw [sendRequest, Op.run_modify]
  simp only [hj, hl]
  rfl

theorem preemptionRequest_sends {t : State} (hd : s.requestDue (s.hartOf id) = true) (hu : s.firmware.update = .none)
    (ht : (sendRequest id).run s = .ok () t) : exec (.preemptionRequest id) s = .next t := by
  refine event_ok (Op.bind_ok (Op.run_get s) (Op.bind_ok (a := ()) (t := s) ?_ ht))
  rw [hd, hu]
  rfl

theorem quantumExpiry_sends {t : State} (he : s.expired (s.hartOf id) = true) (hd : s.requestDue (s.hartOf id) = true)
    (hu : s.firmware.update = .none) (ht : (sendRequest id).run s = .ok () t) : exec (.quantumExpiry id) s = .next t := by
  refine event_ok (Op.bind_ok (Op.run_get s) (Op.bind_ok (a := ()) (t := s) ?_ ?_))
  · rw [he]
    rfl
  · rw [if_pos ⟨hu, hd⟩]
    exact ht

theorem quantumExpiry_none (he : s.expired (s.hartOf id) = true) (hd : s.requestDue (s.hartOf id) = false) :
    exec (.quantumExpiry id) s = .next s := by
  refine event_ok (Op.bind_ok (Op.run_get s) (Op.bind_ok (a := ()) (t := s) ?_ ?_))
  · rw [he]
    rfl
  · rw [if_neg fun h => by rw [hd] at h; exact Bool.false_ne_true h.2]
    rfl

theorem waitingAt_iff {own p : Nat} : s.waitingAt own p = true ↔
    ∃ q qu, (q, qu) ∈ s.queues ∧ q ≠ own ∧ s.runnable q = true ∧ p ≤ qu.eff := by
  simp only [State.waitingAt, List.any_eq_true, Prod.exists, Bool.and_eq_true, decide_eq_true_eq]
  exact exists_congr fun q => exists_congr fun qu => by tauto

theorem requestDue_iff {h : Hart} {q : Nat} (hq : s.queueOf h = some q) : s.requestDue h = true ↔ h.status = .running ∧
    bitAt h.preq 0 = false ∧ ∃ p qu, (p, qu) ∈ s.queues ∧ p ≠ q ∧ s.runnable p = true ∧
      ((s.queue q).eff < qu.eff ∨ s.expired h = true ∧ (s.queue q).eff ≤ qu.eff) := by
  simp only [State.requestDue, hq, Bool.and_eq_true, Bool.or_eq_true, Bool.not_eq_true', decide_eq_true_eq, waitingAt_iff, and_assoc]
  refine and_congr_right fun _ => and_congr_right fun _ => ?_
  constructor
  · rintro (⟨he, p, qu, hm, hne, hr, hle⟩ | ⟨p, qu, hm, hne, hr, hle⟩)
    · exact ⟨p, qu, hm, hne, hr, .inr ⟨he, hle⟩⟩
    · exact ⟨p, qu, hm, hne, hr, .inl hle⟩
  · rintro ⟨p, qu, hm, hne, hr, hlt | ⟨he, hle⟩⟩
    · exact .inr ⟨p, qu, hm, hne, hr, hlt⟩
    · exact .inl ⟨he, p, qu, hm, hne, hr, hle⟩
end

/-! ## The deadline (R59, R200, R201) -/

theorem forcedDue_iff (s : State) : s.forcedDue = true ↔ s.hart.mode = .u ∧ bitAt s.hart.preq 0 = true ∧ bitAt s.hart.mie 16 = true ∧
    (s.time % 2 ^ 32 + 2 ^ 32 - bits s.hart.preq 16 32) % 2 ^ 32 < 2 ^ 31 ∧ s.hart.cancel = none ∧ s.hart.boundaryWait = false := by
  simp only [State.forcedDue, Hart.requestPending, deadlinePassed, Bool.and_eq_true, decide_eq_true_eq, Option.isNone_iff_eq_none,
    Bool.not_eq_true']
  tauto

theorem selectHart_self {s : State} {id : Nat} (h : s.hart.id = id) : s.selectHart id = s := if_pos h

/-- An event of the present hart, which stays the present one. -/
theorem onHart_self {s t : State} {x : Op Unit} (hx : x.run s = .ok () t) (hid : t.hart.id = s.hart.id) :
    (Machine.onHart s.hart.id x).run s = .ok () t := by
  refine Op.bind_ok (Op.run_get s) (Op.bind_ok (Op.run_modify _ s) ?_)
  rw [selectHart_self rfl]
  refine Op.bind_ok hx ((Op.run_modify _ t).trans ?_)
  rw [selectHart_self hid]

theorem onHart_self_error {s t : State} {x : Op Unit} {e : Stop} (hx : x.run s = .error e t) :
    (Machine.onHart s.hart.id x).run s = .error e t := by
  refine Op.bind_ok (Op.run_get s) (Op.bind_ok (Op.run_modify _ s) ?_)
  rw [selectHart_self rfl]
  exact Op.bind_error hx

theorem preempt_id (full forced : Bool) (pc : Word) (k : Nat) (s : State) : (preempt full forced pc k s).hart.id = s.hart.id := by
  obtain ⟨p, g, st, h⟩ := preempt_hart full forced pc k s
  rw [h]
  rfl

theorem deadline_notDue {s : State} (hd : s.forcedDue = false) (e : Option Nat) : exec (.preemptDeadline s.hart.id e) s = .next s := by
  refine event_error (onHart_self_error (e := .wait) (t := s) (Op.bind_ok (Op.run_get s) (Op.bind_error ?_)))
  rw [hd, Bool.and_false, Bool.false_and]
  rfl

section
variable {s : State} (hr : s.hart.status = .running) (hd : s.forcedDue = true)
include hr hd

theorem deadline_waiting {i : Instr} (hi : s.instrHere = some i) (hw : isWaiting i = true) :
    exec (.preemptDeadline s.hart.id none) s = .next { s with hart := { s.hart with stopAt := none } } := by
  refine event_ok (onHart_self (Op.bind_ok (Op.run_get s) (Op.bind_ok (a := ()) (t := s) ?_ ?_)) rfl)
  · rw [hr, hd]
    rfl
  · simp only [hi, hw]
    rfl

theorem deadline_boundary (hi : ∀ i, s.instrHere = some i → isWaiting i = false) :
    exec (.preemptDeadline s.hart.id none) s = .next (preempt true true s.hart.pc s.hart.vxi s) := by
  refine event_ok (onHart_self (Op.bind_ok (Op.run_get s) (Op.bind_ok (a := ()) (t := s) ?_ ?_)) (preempt_id ..))
  · rw [hr, hd]
    rfl
  · cases hi' : s.instrHere with
    | none => rfl
    | some i =>
      simp only [hi i hi']
      rfl

theorem deadline_element (e : Nat) : exec (.preemptDeadline s.hart.id (some e)) s =
    .next (if s.hart.atOnce = true then s else { s with hart := { s.hart with stopAt := some e } }) := by
  split
  next ha =>
    refine event_error (onHart_self_error (e := .wait) (t := s) (Op.bind_ok (Op.run_get s) (Op.bind_error ?_)))
    rw [hr, hd, ha]
    rfl
  next ha =>
    refine event_ok (onHart_self (Op.bind_ok (Op.run_get s) (Op.bind_ok (a := ()) (t := s) ?_ rfl)) rfl)
    rw [hr, hd, eq_false_of_ne_true ha]
    rfl
end

/-! ## The step at which it falls (R59, R391) -/

section
variable {s u : State} {bs rest : List Byte} {i : Instr} (hd : s.forcedDue = true) (hst : s.hart.stopAt = none)
  (hs : s.hart.atStoppedClause = none) (hfetch : (fetchAt (s.fetchAccess s.hart.mode s.hart) s.hart.pc).run s = .ok bs u)
  (hdec : decode bs = .ok (i, rest))
include hd hst hs hfetch hdec

theorem runHart_forced : runHart s = takeForced i s { u with hart := { u.hart with ir := irOf bs } } := by
  rw [runHart, hs]
  simp only [runInstr, hfetch, hdec, hd, hst, Option.isNone_none, Bool.true_or, Bool.and_true, if_true]

theorem runHart_forced_boundary (hw : isWaiting i = false) : runHart s = .next (preempt true true s.hart.pc s.hart.vxi s) := by
  rw [runHart_forced hd hst hs hfetch hdec, takeForced]
  simp only [hw, Bool.false_eq_true, if_false]

theorem runHart_forced_waiting {v : State} (hw : isWaiting i = true) (hc : u.hart.clauseRuns = false)
    (hv : exec i { u with hart := { u.hart with ir := irOf bs } } = .next v) :
    runHart s = .next (if bitAt v.hart.preq 0 = false ∧ v.hart.mcause = BitVec.ofNat 64 (2 ^ 63 + 16) then v
      else preempt true true s.hart.pc s.hart.vxi s) := by
  have hperform : perform i { u with hart := { u.hart with ir := irOf bs } } = .next v := by
    rw [perform, if_neg fun h => ?_]
    · exact hv
    · rw [Bool.and_eq_true] at h
      exact absurd (hc.symm.trans h.1) Bool.false_ne_true
  rw [runHart_forced hd hst hs hfetch hdec, takeForced]
  simp only [hw, if_true, hperform]
  rw [apply_ite Host.Outcome.next]
  refine if_congr ?_ rfl rfl
  simp [Hart.tookRequest]
end

/-! ## Inside a vector instruction (R59) -/

theorem forced_inside {i : Instr} {s : State} {L : Lane} {k : Nat} (hL : vintLane s i = some L ∨ vfltLane s i = some L) (hp : L.passes s)
    (hd : s.forcedDue = true) (hst : s.hart.stopAt = some k) (hup : s.hart.upsets = []) :
    (s.hart.vxi < k → k < s.hart.nel → ∃ u, exec i s = .next (preempt true true s.hart.pc k u) ∧ (L.upto k).Wrote s u ∧
      u = { s with hart := u.hart, freeCtr := u.freeCtr }) ∧
    (¬ (s.hart.vxi < k ∧ k < s.hart.nel) → exec i s = .next (preempt true true s.hart.pc s.hart.vxi s)) := by
  obtain ⟨x, hexec, hx⟩ : ∃ x, exec i s = dispatch x s ∧ Computes L s x :=
    hL.elim (exec_vintLane · hp) (exec_vfltLane · hp)
  rw [hexec]
  exact ⟨fun hlow hhigh => computes_stops hx hp hd hst hup hlow hhigh, computes_stops_before hx hp hd hst⟩

theorem requestsAreSent : RequestsAreSent :=
  ⟨fun _ _ => queueAges, Queue.eff_eq, fun _ _ _ _ hj hl hd hu =>
      ⟨preemptionRequest_sends hd hu (sendRequest_run hj hl), fun he => quantumExpiry_sends he hd hu (sendRequest_run hj hl)⟩,
    fun _ _ => quantumExpiry_none, fun _ _ _ => requestDue_iff,
    fun _ hr => ⟨fun hd => ⟨fun ⟨_, hi, hw⟩ => deadline_waiting hr hd hi hw, deadline_boundary hr hd, deadline_element hr hd⟩, deadline_notDue⟩,
    fun _ _ _ _ _ ha h1 h2 hr hd hst hs hfetch hdec => ⟨fun hw => (step_runs ha h1 h2 hr).trans (runHart_forced_boundary hd hst hs hfetch hdec hw),
      fun hw hc _ hv => (step_runs ha h1 h2 hr).trans (runHart_forced_waiting hd hst hs hfetch hdec hw hc hv)⟩,
    forcedDue_iff, fun _ _ _ _ => forced_inside⟩

end Sys2Proof.Machine
end

section
/-!
SUPPORT. A write of the front end through a queue's translation, and what of the state decides it: memory, the queue's root and its patience,
and no other field of a queue (R53, R277; DESIGN CHOICE log 31 of the images it writes).
-/

namespace Sys2Proof.Machine

open Sys2Proof.Claims

/-! ## What a write leaves alone -/

/-- The state `t` is `s` but for memory, the record of poison, the draws and load reservations. -/
def frontWrote (s t : State) : Prop :=
  ∃ m p k f, reservationOnly f ∧ t = ({ s with mem := m, poison := p, freeCtr := k } : State).mapHarts f

theorem mapHarts_id (s : State) : s.mapHarts id = s := by simp [State.mapHarts]

theorem frontWrote.refl (s : State) : frontWrote s s := ⟨s.mem, s.poison, s.freeCtr, id, fun _ => rfl, (mapHarts_id s).symm⟩

theorem frontWrote.trans {s t u : State} (h : frontWrote s t) (k : frontWrote t u) : frontWrote s u := by
  obtain ⟨m1, p1, k1, f, hf, rfl⟩ := h
  obtain ⟨m2, p2, k2, g, hg, rfl⟩ := k
  refine ⟨m2, p2, k2, g ∘ f, fun h => ?_, ?_⟩
  · rw [Function.comp_apply, hg, hf]
  · simp [State.mapHarts]

section
variable {s t : State} (h : frontWrote s t)
include h

theorem frontWrote.eq : t = { s with
    hart := t.hart, others := t.others, mem := t.mem, poison := t.poison, freeCtr := t.freeCtr } := by
  obtain ⟨m', p, k, f, -, rfl⟩ := h
  rfl

theorem frontWrote.hart : t.hart = { s.hart with reservation := t.hart.reservation } := by
  obtain ⟨m', p, k, f, hf, rfl⟩ := h
  exact hf s.hart

theorem frontWrote.hartOf (id : Nat) : t.hartOf id = { s.hartOf id with reservation := (t.hartOf id).reservation } := by
  obtain ⟨m', p, k, f, hf, rfl⟩ := h
  exact hartOf_mapHarts hf _ id

theorem frontWrote.others_id : t.others.map (·.id) = s.others.map (·.id) := by
  obtain ⟨m', p, k, f, hf, rfl⟩ := h
  show (s.others.map f).map _ = _
  rw [List.map_map]
  exact List.map_congr_left fun g _ => by rw [Function.comp_apply, hf]
end

/-! ## The bytes stored -/

/-- Memory once bytes have been stored at places in it. -/
def placedMem (ps : List (Loc × Option Phys)) (bs : List Byte) (m : List Host.Cell) : List Host.Cell :=
  (ps.zip bs).foldl (fun m x => putUnder (cryptOf x.1.2) m x.1.1.offset x.2) m

theorem storeLoop_run {k : Nat} {xs : List ((Loc × Option Phys) × Byte)} (h : ∀ x ∈ xs, inMemory x.1) (s : State) :
    (forIn xs PUnit.unit fun x _ => do
      writeLoc k (cryptOf x.1.2) x.1.1 x.2
      match x.1.1, x.1.2 with
      | .mem _, _ => pure ()
      | _, some p => writeLoc k p.crypt (.mem p.key) x.2
      | _, none => pure ()
      pure (ForInStep.yield PUnit.unit) : Op PUnit).run s =
    .ok ⟨⟩ { s with mem := xs.foldl (fun m x => putUnder (cryptOf x.1.2) m x.1.1.offset x.2) s.mem } := by
  induction xs generalizing s with
  | nil => rfl
  | cons x xs ih =>
    obtain ⟨⟨loc, ph⟩, b⟩ := x
    obtain ⟨a, rfl : loc = .mem a⟩ := h _ List.mem_cons_self
    rw [List.forIn_cons]
    exact Op.bind_ok rfl (ih (fun y hy => h y (List.mem_cons_of_mem _ hy)) { s with mem := putUnder (cryptOf ph) s.mem a b })

theorem storePlaced_run {ps : List (Loc × Option Phys)} (h : ∀ p ∈ ps, inMemory p) (bs : List Byte) (s : State) : ∃ p f,
    reservationOnly f ∧ (storePlaced ps bs).run s =
      .ok () (({ s with mem := placedMem ps bs s.mem, poison := p, freeCtr := s.freeCtr + 1 } : State).mapHarts f) := by
  obtain ⟨p, hp⟩ := clearPoison_mem (allLocs_mem h) { s with mem := placedMem ps bs s.mem, freeCtr := s.freeCtr + 1 }
  obtain ⟨f, hf, hb⟩ := breakReservations_mapHarts (ps.map (·.1.resKey) ++ placedKeys ps)
    { s with mem := placedMem ps bs s.mem, poison := p, freeCtr := s.freeCtr + 1 }
  exact ⟨p, f, hf, Op.bind_ok (Op.run_draw s) (Op.bind_ok (storeLoop_run (fun x hx => h _ (List.of_mem_zip hx).1) _) (Op.bind_ok hp hb))⟩

/-! ## What decides a translation of the front end -/

/-- Two states that differ in their queues at most, and not in what an access of queue `q` reads of it. -/
def sameQueue (q : Nat) (s v : State) : Prop :=
  v = { s with queues := v.queues } ∧ (v.queue q).installed = (s.queue q).installed ∧ (v.queue q).asked = (s.queue q).asked

theorem sameQueue.refl (q : Nat) (s : State) : sameQueue q s s := ⟨rfl, rfl, rfl⟩

theorem sameQueue.withMem {q : Nat} {s v : State} (h : sameQueue q s v) (m' : List Host.Cell) :
    sameQueue q { s with mem := m' } { v with mem := m' } := by
  obtain ⟨hv, hi, ha⟩ := h
  refine ⟨?_, hi, ha⟩
  rw [hv]

/-- The result of a run that answers or stops in the state `t`. -/
def resultIn {α : Type} (r : Except Stop α) (t : State) : EStateM.Result Stop State α :=
  match r with
  | .ok a => .ok a t
  | .error e => .error e t

/-- An operation that changes memory at most, and goes one way in states that are the same for queue `q`. -/
def Op.sameFor {α : Type} (q : Nat) (x : Op α) : Prop := ∀ s v, sameQueue q s v → ∃ r m,
  x.run s = resultIn r { s with mem := m } ∧ x.run v = resultIn r { v with mem := m }

section
variable {α β : Type} {q : Nat} {x : Op α}

theorem Op.sameFor_pure (a : α) : (pure a : Op α).sameFor q := fun s _ h => ⟨.ok a, s.mem, rfl, by rw [h.1]; rfl⟩
theorem Op.sameFor_throw (e : Stop) : (throw e : Op α).sameFor q := fun s _ h => ⟨.error e, s.mem, rfl, by rw [h.1]; rfl⟩

theorem Op.sameFor_bind {f : α → Op β} (hx : x.sameFor q) (hf : ∀ a, (f a).sameFor q) : (x >>= f).sameFor q := by
  intro s v h
  obtain ⟨r, m', hs, hv⟩ := hx s v h
  cases r with
  | error e => exact ⟨.error e, m', Op.bind_error hs, Op.bind_error hv⟩
  | ok a =>
    obtain ⟨r, m'', hs', hv'⟩ := hf a _ _ (h.withMem m')
    exact ⟨r, m'', Op.bind_ok hs hs', Op.bind_ok hv hv'⟩
end

theorem walk_queues (s : State) (qs : Tab Queue) (va fuel : Nat) : ∀ table level,
    walk { s with queues := qs } va fuel table level = walk s va fuel table level := by
  induction fuel with
  | zero => exact fun _ _ => rfl
  | succ fuel ih =>
    intro table level
    simp only [walk, ih]
    rfl

theorem translate_sameFor {w : Who} {kind : AKind} {user write amo : Bool} {root q : Nat} {fa va : Word} :
    (translate w kind user write amo root fa va).sameFor q := by
  intro s v h
  obtain ⟨qs, rfl⟩ : ∃ qs, v = { s with queues := qs } := ⟨_, h.1⟩
  unfold translate
  simp only [Op.run_bind, Op.run_get, Op.run_ite, fail, Op.run_raise, walk_queues]
  split
  · exact ⟨.error _, s.mem, rfl, rfl⟩
  · cases walk s va.toNat 4 root 0 with
    | invalid => exact ⟨.error _, s.mem, rfl, rfl⟩
    | outside => exact ⟨.error _, s.mem, rfl, rfl⟩
    | leaf e a level =>
      have hkeys : ({ s with queues := qs } : State).keyLoaded = s.keyLoaded := rfl
      have hcrypt : ({ s with queues := qs } : State).cryptKey = s.cryptKey := rfl
      have hlimit : ({ s with queues := qs } : State).physLimit = s.physLimit := rfl
      simp only [Op.run_bind, Op.run_ite, Op.run_raise, Op.run_set, Op.run_pure, hkeys, hcrypt, hlimit]
      split
      · exact ⟨.error _, s.mem, rfl, rfl⟩
      split
      · exact ⟨.error _, s.mem, rfl, rfl⟩
      split
      · exact ⟨.error _, s.mem, rfl, rfl⟩
      split
      · exact ⟨.error _, s.mem, rfl, rfl⟩
      · exact ⟨.ok _, _, rfl, rfl⟩

theorem qTranslate_sameFor {q : Nat} {kind : AKind} {write amo : Bool} {va : Word} : (qTranslate q kind write amo va).sameFor q := by
  intro s v h
  have hmay : v.noAnswer = s.noAnswer ∧ v.askedLong q = s.askedLong q ∧ v.rootOf q = s.rootOf q := by
    obtain ⟨hv, hi, ha⟩ := h
    refine ⟨?_, ?_, ?_⟩
    · rw [hv]
      rfl
    · unfold State.askedLong
      rw [ha, hv]
    · rw [State.rootOf, hi]
      rfl
  obtain ⟨hn, hl, hroot⟩ := hmay
  unfold qTranslate
  by_cases hw : inWindow va.toNat = true
  · refine ⟨.error (.trap { cause := kind.accessFault, addr := some va }), s.mem, ?_, ?_⟩
    · exact Op.bind_ok (Op.run_get s) (by rw [if_pos hw]; rfl)
    · refine Op.bind_ok (Op.run_get v) ?_
      rw [if_pos hw, h.1]
      rfl
  · have hrest : ∀ p, (if s.noAnswer p = true then (if s.askedLong q = true then fail {} kind.accessFault va else throw (.hold none))
        else pure p : Op Phys).sameFor q := fun p => by
      split <;> [split; skip]
      · exact Op.sameFor_throw _
      · exact Op.sameFor_throw _
      · exact Op.sameFor_pure _
    obtain ⟨r, m', hs, hv⟩ := Op.sameFor_bind (translate_sameFor (w := {}) (kind := kind) (user := false) (write := write) (amo := amo)
      (root := s.rootOf q) (fa := va) (va := va)) hrest s v h
    refine ⟨r, m', Op.bind_ok (Op.run_get s) ?_, Op.bind_ok (Op.run_get v) ?_⟩
    · rw [if_neg hw]
      exact hs
    · rw [if_neg hw, hn, hl, hroot]
      exact hv

theorem qPlaces_sameFor (q : Nat) : ∀ n va, (qPlaces q va n).sameFor q
  | 0, _ => Op.sameFor_pure _
  | n + 1, va => Op.sameFor_bind qTranslate_sameFor fun _ => Op.sameFor_bind (qPlaces_sameFor q n (va + 1)) fun _ => Op.sameFor_pure _

/-! ## A write through a queue's translation, or none -/

/-- The places found are in memory, and finding them changes memory at most. -/
theorem qPlaces_ok {q n : Nat} {va : Word} {s t : State} {ps : List (Loc × Option Phys)} (h : (qPlaces q va n).run s = .ok ps t) :
    (∀ p ∈ ps, inMemory p) ∧ t = { s with mem := t.mem } := by
  refine ⟨(qPlaces_framed q n va s ps t h).2, ?_⟩
  obtain ⟨r, m', hs, -⟩ := qPlaces_sameFor q n va s s (.refl q s)
  rw [hs] at h
  cases r with
  | error e => cases h
  | ok a =>
    cases h
    rfl

theorem tryWrite_wrote (q : Nat) (va : Word) (bs : List Byte) (s : State) : frontWrote s (tryOp (qWrite q va bs) s).2 := by
  unfold tryOp qWrite
  cases hp : (qPlaces q va bs.length).run s with
  | error e t =>
    rw [Op.bind_error hp]
    exact .refl s
  | ok ps t =>
    obtain ⟨hmem, ht⟩ := qPlaces_ok hp
    obtain ⟨p, f, hf, hrun⟩ := storePlaced_run hmem bs t
    rw [Op.bind_ok hp hrun, ht]
    exact ⟨_, p, _, f, hf, rfl⟩

/-- What it leaves in memory is decided by what queue `q` shows the front end. -/
theorem tryWrite_mem {q : Nat} (va : Word) (bs : List Byte) {s v : State} (h : sameQueue q s v) :
    (tryOp (qWrite q va bs) v).2.mem = (tryOp (qWrite q va bs) s).2.mem := by
  obtain ⟨r, m', hs, hv⟩ := qPlaces_sameFor q bs.length va s v h
  unfold tryOp qWrite
  cases r with
  | error e =>
    rw [Op.bind_error hs, Op.bind_error hv, h.1]
  | ok ps =>
    obtain ⟨hmem, -⟩ := qPlaces_ok hs
    obtain ⟨p, f, -, hrun⟩ := storePlaced_run hmem bs { s with mem := m' }
    obtain ⟨p', f', -, hrun'⟩ := storePlaced_run hmem bs { v with mem := m' }
    rw [Op.bind_ok hs hrun, Op.bind_ok hv hrun']
    rfl

/-! ## The image of a context -/

theorem writeImage_run (c : Context) (off : Nat) (bs : List Byte) (s : State) : (writeImage c off bs).run s =
    .ok () (match s.imageAt c with
      | some (q, va) => (tryOp (qWrite q (va + BitVec.ofNat 64 off) bs) s).2
      | none => s) := by
  refine Op.bind_ok (Op.run_get s) ?_
  cases s.imageAt c <;> rfl

/-- A write of the image leaves memory as `imageWrote` says of a state that shows the front end the same. -/
theorem writeImage_ok {s v : State} {c d : Context} {off : Nat} {bs : List Byte} (hat : v.imageAt c = s.imageAt d)
    (hsame : ∀ q va, v.imageAt c = some (q, va) → sameQueue q v { v with queues := s.queues })
    (hk : v.keys = s.keys) (hid : v.domainId = s.domainId) (hst : v.status = s.status) (hl : v.linksUp = s.linksUp) (ht : v.time = s.time) :
    ∃ t, (writeImage c off bs).run v = .ok () t ∧ frontWrote v t ∧ imageWrote s d off bs v.mem t.mem := by
  refine ⟨_, writeImage_run c off bs v, ?_, ?_⟩
  · split
    · exact tryWrite_wrote ..
    · exact .refl v
  · unfold imageWrote
    rw [← hat]
    cases hq : v.imageAt c with
    | none => rfl
    | some p =>
      obtain ⟨q, va⟩ := p
      exact ⟨{ v with queues := s.queues }, rfl, rfl, hk, hid, hst, hl, ht, (tryWrite_mem _ bs (hsame q va hq)).symm⟩

end Sys2Proof.Machine
end

section
/-!
SUPPORT. Interrupt 16 and the save that it starts, and what a save that ends leaves: the hart, its blocks and the image of its context (R183,
R185, R200 to R204, R207, R208, R212, R236).
-/

namespace Sys2Proof.Machine

open Sys2Proof.Claims

/-! ## The hart that interrupt 16 takes -/

section
variable (full forced : Bool) (pc : Word) (k : Nat)

/-- The registers of a hart that has entered the handler of interrupt 16. -/
theorem preempt_registers (s : State) : let t := preempt full forced pc k s
    t.hart.mode = .m ∧ t.hart.mepc = pc ∧ t.hart.vxi = k ∧ t.hart.mcause = BitVec.ofNat 64 (2 ^ 63 + 16) ∧ t.hart.mtval = 0 ∧
    t.hart.kcause = 0 ∧ t.hart.faddr = 0 ∧ t.hart.korigin = s.korigin s.hart ∧ bitAt t.hart.preq 0 = false ∧ bitAt t.hart.preq 1 = forced ∧
    bitAt t.hart.mip 16 = false ∧ t.hart.pc = trapVector s.hart.mtvec true 16 ∧ t.hart.x = s.hart.x ∧ t.hart.f = s.hart.f := by
  intro t
  obtain ⟨p, g, st, h⟩ := preempt_hart full forced pc k s
  have hp : t.hart.preq = setBit (setBit s.hart.preq 0 false) 1 forced := by rw [h]; rfl
  have hm : t.hart.mip = setBit s.hart.mip 16 false := by rw [h]; rfl
  have hp0 : bitAt t.hart.preq 0 = false := by
    rw [hp, bitAt, getLsbD_setBit _ _ (by omega), if_neg (by omega), getLsbD_setBit _ _ (by omega), if_pos rfl]
  have hp1 : bitAt t.hart.preq 1 = forced := by rw [hp, bitAt, getLsbD_setBit _ _ (by omega), if_pos rfl]
  have hm16 : bitAt t.hart.mip 16 = false := by rw [hm, bitAt, getLsbD_setBit _ _ (by omega), if_pos rfl]
  refine ⟨?_, ?_, ?_, ?_, ?_, ?_, ?_, ?_, hp0, hp1, hm16, ?_, ?_, ?_⟩
  all_goals
    rw [h]
    rfl


theorem preempt_leaves (s : State) : (preempt full forced pc k s).mem = s.mem ∧ (preempt full forced pc k s).others = s.others := by
  cases hj : s.hart.job with
  | none =>
    rw [preempt_outside full forced pc k (.inl hj)]
    exact ⟨rfl, rfl⟩
  | some j =>
    cases hl : s.launchOf s.hart with
    | none =>
      rw [preempt_outside full forced pc k (.inr hl)]
      exact ⟨rfl, rfl⟩
    | some l =>
      rw [preempt_saves full forced pc k hj hl]
      simp only
      split <;> exact ⟨rfl, rfl⟩

/-! ## The context that is recorded (R203, R204, R208) -/

theorem liveBits_testBit (full grant coll : Bool) (b : Nat) : (liveBits full grant coll).testBit b = true ↔
    b ∈ [0, 3, 6] ∧ full = true ∨ b = 1 ∧ grant = true ∨ b = 2 ∧ coll = true := by
  have hsmall : ∀ full grant coll, ∀ b < 7, (liveBits full grant coll).testBit b = true ↔
      b ∈ [0, 3, 6] ∧ full = true ∨ b = 1 ∧ grant = true ∨ b = 2 ∧ coll = true := by
    intro full grant coll
    cases full <;> cases grant <;> cases coll <;> decide
  by_cases hb : b < 7
  · exact hsmall full grant coll b hb
  · have hlt : liveBits full grant coll < 2 ^ b := by
      have h7 : liveBits full grant coll < 2 ^ 7 := by cases full <;> cases grant <;> cases coll <;> decide
      exact lt_of_lt_of_le h7 (Nat.pow_le_pow_right (by omega) (by omega))
    rw [Nat.testBit_lt_two_pow hlt]
    simp only [List.mem_cons, List.not_mem_nil, or_false, Bool.false_eq_true, false_iff]
    omega

/-- A hart that interrupt 16 takes waits in no barrier of its cluster. -/
theorem withdraw_leaves (id : Nat) (c : Cluster) : ∀ g ∈ (withdraw id c).gens, id ∉ g.waiting := by
  intro g hg
  simp only [withdraw, List.mem_filter, List.mem_map] at hg
  obtain ⟨⟨g, -, rfl⟩, -⟩ := hg
  simp

theorem startClusterSave_gens (cl n : Nat) (s : State) : ((startClusterSave cl n s).cluster cl).gens = (s.cluster cl).gens := by
  show ((s.setCluster cl _).cluster cl).gens = _
  rw [State.setCluster_self]

theorem preempt_records {s : State} {j : Job} {l : Launch} (hj : s.hart.job = some j) (hl : s.launchOf s.hart = some l) :
    let t := preempt full forced pc k s
    t.hart.status = .saving ∧ t.hart.grant = none ∧ (∀ g ∈ (t.cluster s.hart.cluster).gens, s.hart.id ∉ g.waiting) ∧
      t.hart.pool = renewRange s.time s.hart.coreBlocks.1 s.hart.coreBlocks.2 s.hart.pool ∧
      t.contexts = s.contexts ++ [contextOf full j.launch (interrupted forced pc k s)] := by
  rw [preempt_saves full forced pc k hj hl]
  have hgens : ∀ g ∈ ((interrupted forced pc k s).cluster s.hart.cluster).gens, s.hart.id ∉ g.waiting := by
    rw [interrupted, show ((takeInterrupt pc k forced s).viewWrites bothViews).hart.cluster = s.hart.cluster from rfl, State.setCluster_self]
    exact withdraw_leaves _ _
  simp only
  split
  · refine ⟨rfl, rfl, ?_, rfl, rfl⟩
    rw [startClusterSave_gens]
    exact hgens
  · exact ⟨rfl, rfl, hgens, rfl, rfl⟩

theorem contextOf_live {s : State} (n b : Nat) : ((contextOf full n s).live.testBit b = true) ↔
    b ∈ [0, 3, 6] ∧ full = true ∨ b = 1 ∧ s.hart.grant.isSome = true ∨ b = 2 ∧ ∃ r ∈ s.regs, r.holder = some (.hart s.hart.id) ∧ r.launch = n := by
  rw [contextOf, liveBits_testBit]
  simp only [List.any_eq_true, Bool.and_eq_true, decide_eq_true_eq]
end

/-! ## Saves that begin and end (R203, R204, R207, R212) -/

theorem gangSaveStarts {n cl : Nat} {s : State} {l : Launch} (hl : s.launches.get? n = some l) (hg : l.a.isGang = true)
    (hc : s.contextClusters n = [cl]) (hr : ∀ h ∈ s.harts, h.inLaunch n = true → h.status ≠ .running) (hb : s.clusterBusy n cl = false)
    (hs : ∀ v ∈ s.clusterSaves, v.launch = n → v.cluster ≠ cl) : exec (.gangSaveStart n) s = .next (startClusterSave cl n s) := by
  have hnone : s.harts.any (fun h => h.inLaunch n && decide (h.status = .running)) = false := by simpa using hr
  have hnew : s.clusterSaves.any (fun v => decide (v.launch = n) && decide (v.cluster = cl)) = false := by simpa using hs
  refine event_ok (Op.bind_ok (Op.run_get s) ?_)
  simp only [hl, hc, hg, hnone, hb, hnew]
  exact Op.bind_ok (Op.run_onlyIf_true s) rfl

theorem mem_saveBlocks (time first count : Nat) (p : Tab Block) (b : SavedBlock) : b ∈ saveBlocks time first count p ↔
    ∃ k, (first + b.block, k) ∈ p ∧ b.block < count ∧ k.live = true ∧ b.content = if k.state time = .live then some k else none := by
  simp only [saveBlocks, List.mem_map, List.mem_filter, Prod.exists, Bool.and_eq_true, decide_eq_true_eq]
  constructor
  · rintro ⟨i, k, ⟨hm, ⟨hlo, hhi⟩, hlive⟩, rfl⟩
    exact ⟨k, by rwa [Nat.add_sub_cancel' hlo], by simp only; omega, hlive, rfl⟩
  · rintro ⟨k, hm, hlt, hlive, hcontent⟩
    refine ⟨first + b.block, k, ⟨hm, ⟨by omega, by omega⟩, hlive⟩, ?_⟩
    rw [Nat.add_sub_cancel_left, ← hcontent]

/-- The context whose save has ended. -/
def contextSaved (s : State) (c : Context) : Context :=
  let blocks := saveBlocks s.time s.hart.coreBlocks.1 s.hart.coreBlocks.2 s.hart.pool
  { c with saved := true, blocks := blocks, live := c.live + (if blocks = [] then 0 else 16) }

/-- The state in which the save of the present hart has ended, before its image is written. -/
def hartSaved (s : State) (c : Context) : State :=
  { State.rename (.hart s.hart.id) (.context c.id) { s with hart := { s.hart.freed with pool := [] } } with
    contexts := s.contexts.map fun (d : Context) => if d.id = c.id then contextSaved s c else d }

theorem saveHart_run {s : State} {c : Context} (hid : s.hart.id = c.hart.id) : ∃ t, (saveHart c).run s = .ok () t ∧
    frontWrote (hartSaved s c) t ∧ imageWrote s c 0 (contextSaved s c).image s.mem t.mem := by
  have hset : s.setHart { s.hart.freed with pool := [] } = { s with hart := { s.hart.freed with pool := [] } } := if_pos rfl
  have hhart : s.hartOf c.hart.id = s.hart := if_pos hid
  obtain ⟨t, hrun, hframe, hmem⟩ := writeImage_ok (s := s) (v := hartSaved s c) (c := contextSaved s c) (d := c) (off := 0)
    (bs := (contextSaved s c).image) rfl (fun _ _ _ => ⟨rfl, rfl, rfl⟩) rfl rfl rfl rfl rfl
  refine ⟨t, Op.bind_ok (Op.run_get s) ?_, hframe, hmem⟩
  simp only [hhart, hset]
  exact Op.bind_ok (Op.run_set _ s) hrun

theorem clusterSaveDue_none {s : State} {cl : Nat} (h : ∀ v ∈ s.clusterSaves, v.cluster ≠ cl) (n : Nat) : s.clusterSaveDue n cl = false := by
  have hnone : s.clusterSaves.any (fun v => decide (v.launch = n) && decide (v.cluster = cl) && !v.saved) = false := by
    rw [List.any_eq_false]
    intro v hv
    simp [h v hv]
  rw [State.clusterSaveDue, hnone, Bool.false_and]

theorem contextSaves {id : Nat} {s : State} {c : Context} (hc : s.contexts.find? (·.id = id) = some c) (hn : c.saved = false)
    (hid : s.hart.id = c.hart.id) (hs : ∀ v ∈ s.clusterSaves, v.cluster ≠ c.cluster) : ∃ t d, exec (.contextSaveComplete id) s = .next t ∧
      t.hart.status = .free ∧ t.hart.job = none ∧ t.hart.pool = [] ∧ d ∈ t.contexts ∧ d = { c with
        saved := true, blocks := saveBlocks s.time s.hart.coreBlocks.1 s.hart.coreBlocks.2 s.hart.pool, live := d.live } ∧
      d.live = c.live + (if d.blocks = [] then 0 else 16) ∧ imageWrote s c 0 d.image s.mem t.mem := by
  obtain ⟨t, hrun, hframe, hmem⟩ := saveHart_run (c := c) hid
  have hdue : ∀ n, t.clusterSaveDue n c.cluster = false := clusterSaveDue_none (by rw [hframe.eq]; exact hs)
  refine ⟨t, contextSaved s c, event_ok (Op.bind_ok (Op.run_get s) ?_), ?_, ?_, ?_, ?_, rfl, rfl, hmem⟩
  · simp only [hc, hn, Bool.not_false, Bool.true_or]
    refine Op.bind_ok (Op.run_onlyIf_true s) (Op.bind_ok hrun (Op.bind_ok (Op.run_get t) ?_))
    rw [hdue]
    rfl
  · rw [hframe.hart]
    rfl
  · rw [hframe.hart]
    rfl
  · rw [hframe.hart]
    rfl
  · rw [hframe.eq]
    exact List.mem_map.mpr ⟨c, List.mem_of_find?_eq_some hc, if_pos rfl⟩

/-! ## The header of an image (Table 09-7) -/

/-- Fields of given sizes, one after the other. -/
def fieldBytes (fs : List (Nat × Nat)) : List Byte := fs.flatMap fun p => toBytes p.1 p.2

theorem fieldBytes_length (fs : List (Nat × Nat)) : (fieldBytes fs).length = (fs.map (·.1)).sum := by
  simp [fieldBytes, List.length_flatMap]

theorem hdrField_fieldBytes {fs : List (Nat × Nat)} {i : Nat} {p : Nat × Nat} (h : fs[i]? = some p) (tail : List Byte) :
    hdrField (fieldBytes fs ++ tail) ((fs.take i).map (·.1)).sum p.1 = p.2 % 256 ^ p.1 := by
  have hsplit : fieldBytes fs ++ tail = fieldBytes (fs.take i) ++ (toBytes p.1 p.2 ++ (fieldBytes (fs.drop (i + 1)) ++ tail)) := by
    obtain ⟨hi, hp⟩ := List.getElem?_eq_some_iff.mp h
    conv_lhs => rw [← List.take_append_drop i fs, List.drop_eq_getElem_cons hi, hp]
    simp [fieldBytes]
  rw [hsplit, hdrField, ← fieldBytes_length, List.drop_left]
  rw [List.take_append_of_le_length (by rw [toBytes_length]), List.take_of_length_le (by rw [toBytes_length]), ofBytes_toBytes]

/-- The fields of an image's header, from offset 0 up (Table 09-7). -/
def Context.fields (c : Context) : List (Nat × Nat) :=
  [(4, 0x49585443), (2, 1), (1, if c.full then 1 else 0), (1, c.status), (8, 0x7F), (8, c.live), (8, c.missing), (4, c.profile), (4, 0),
    (8, c.hdr.toNat), (8, c.hart.mepc.toNat), (8, c.hart.vxi), (8, c.shape.toNat), (8, c.hart.idxlin.toNat), (8, c.sectionOff 0),
    (8, c.sectionOff 1), (8, c.sectionOff 2), (8, c.sectionOff 3), (8, 128 + c.sectionsBefore 4), (8, 0)]

/-- Their sizes. -/
def headerSizes : List Nat := [4, 2, 1, 1, 8, 8, 8, 4, 4, 8, 8, 8, 8, 8, 8, 8, 8, 8, 8, 8]

section
variable (c : Context)

theorem Context.header_eq : c.header = fieldBytes c.fields := by
  unfold header fields fieldBytes
  simp only [List.flatMap_cons, List.flatMap_nil, List.append_assoc, List.append_nil]

theorem Context.header_length : c.header.length = 128 := by
  unfold header
  simp only [List.length_append, toBytes_length]

/-- A field of the image as it is read back. -/
theorem Context.image_field (i : Nat) {off n v : Nat} (h : c.fields[i]? = some (n, v)) (hoff : (headerSizes.take i).sum = off) :
    hdrField c.image off n = v % 256 ^ n := by
  have hsizes : c.fields.map (·.1) = headerSizes := rfl
  rw [image, header_eq, ← hoff, ← hsizes, ← List.map_take]
  exact hdrField_fieldBytes h _

theorem Context.sectionOff_scalar : c.sectionOff 0 = 128 := by simp [sectionOff, sectionsBefore, sections]

theorem Context.sectionOff_dead {i : Nat} (h : i ∉ c.sections) : c.sectionOff i = 0 := by
  rw [sectionOff, if_neg (by simpa using h)]

theorem Context.image_length : c.image.length = 128 + c.sectionsBefore 4 := by
  have hall : c.sections.takeWhile (· ≠ 4) = c.sections := by
    rw [List.takeWhile_eq_self_iff]
    intro i hi
    have hlow : i ≠ 4 := by
      rintro rfl
      simp [sections] at hi
    simpa using hlow
  rw [image, List.length_append, header_length, sectionsBefore, hall, List.length_flatMap]

theorem Context.image_fields : c.header.length = 128 ∧
    let f off n := hdrField c.image off n
    f 0 4 = 0x49585443 ∧ f 4 2 = 1 ∧ f 6 1 = (if c.full then 1 else 0) ∧ f 7 1 = c.status % 256 ∧ f 8 8 = 0x7F ∧
    f 0x10 8 = c.live % 2 ^ 64 ∧ f 0x18 8 = c.missing % 2 ^ 64 ∧ f 0x20 4 = c.profile % 2 ^ 32 ∧ f 0x24 4 = 0 ∧
    f 0x28 8 = c.hdr.toNat ∧ f 0x30 8 = c.hart.mepc.toNat ∧ f 0x38 8 = c.hart.vxi % 2 ^ 64 ∧
    f 0x40 8 = (if c.full then c.hart.vshp.toNat else 0) ∧ f 0x48 8 = c.hart.idxlin.toNat ∧ f 0x50 8 = 128 ∧
    (c.live.testBit 0 = false → f 0x58 8 = 0) ∧ (c.live.testBit 4 = false → c.live.testBit 5 = false → f 0x60 8 = 0) ∧
    (c.live.testBit 1 = false → f 0x68 8 = 0) ∧ f 0x70 8 = c.image.length % 2 ^ 64 ∧ f 0x78 8 = 0 := by
  have hword : ∀ w : Word, w.toNat % 256 ^ 8 = w.toNat := fun w => Nat.mod_eq_of_lt (by have := w.isLt; omega)
  refine ⟨c.header_length, ?_, ?_, ?_, ?_, ?_, ?_, ?_, ?_, ?_, ?_, ?_, ?_, ?_, ?_, ?_, ?_, ?_, ?_, ?_, ?_⟩
  · exact c.image_field 0 rfl (by decide)
  · exact c.image_field 1 rfl (by decide)
  · exact (c.image_field 2 rfl (by decide)).trans (by split <;> rfl)
  · exact c.image_field 3 rfl (by decide)
  · exact c.image_field 4 rfl (by decide)
  · exact c.image_field 5 rfl (by decide)
  · exact c.image_field 6 rfl (by decide)
  · exact c.image_field 7 rfl (by decide)
  · exact c.image_field 8 rfl (by decide)
  · exact (c.image_field 9 rfl (by decide)).trans (hword _)
  · exact (c.image_field 10 rfl (by decide)).trans (hword _)
  · exact c.image_field 11 rfl (by decide)
  · refine (c.image_field 12 rfl (by decide)).trans ((hword _).trans ?_)
    rw [Context.shape]
    split <;> rfl
  · exact (c.image_field 13 rfl (by decide)).trans (hword _)
  · exact (c.image_field 14 rfl (by decide)).trans (by rw [c.sectionOff_scalar]; rfl)
  · exact fun h => (c.image_field 15 rfl (by decide)).trans (by rw [c.sectionOff_dead (by simp [sections, h])]; rfl)
  · exact fun h h' => (c.image_field 16 rfl (by decide)).trans (by rw [c.sectionOff_dead (by simp [sections, h, h'])]; rfl)
  · exact fun h => (c.image_field 17 rfl (by decide)).trans (by rw [c.sectionOff_dead (by simp [sections, h])]; rfl)
  · exact (c.image_field 18 rfl (by decide)).trans (by rw [c.image_length]; rfl)
  · exact c.image_field 19 rfl (by decide)
end

theorem savesComplete : SavesComplete := by
  refine ⟨fun full forced pc vxi s => ?_, fun _ _ _ _ => gangSaveStarts, fun _ _ _ hc hn hid _ => contextSaves hc hn hid, mem_saveBlocks,
    Context.image_fields⟩
  intro t
  obtain ⟨h1, h2, h3, h4, h5, h6, h7, h8, h9, h10, h11, h12, h13, h14⟩ := preempt_registers full forced pc vxi s
  obtain ⟨hmem, hothers⟩ := preempt_leaves full forced pc vxi s
  refine ⟨h1, h2, h3, h4, h5, h6, h7, h8, h9, h10, h11, h12, h13, h14, hmem, hothers, fun hj => ?_, fun j l hj hl => ?_⟩
  · rw [show t = interrupted forced pc vxi s from preempt_outside full forced pc vxi (.inl hj)]
    exact ⟨rfl, rfl⟩
  · obtain ⟨hst, hg, hgens, hpool, hctx⟩ := preempt_records full forced pc vxi hj hl
    exact ⟨hst, hg, hgens, hpool, contextOf full j.launch (interrupted forced pc vxi s), hctx, rfl, rfl, rfl, rfl, rfl, rfl, rfl, rfl, rfl,
      rfl, rfl, rfl, rfl, fun b => contextOf_live full j.launch b⟩

end Sys2Proof.Machine
end

section
/-!
SUPPORT. CONTEXT_RESUME: what makes an image restorable, the context that cannot be restored, and the hart that a context runs on again (R202,
R204, R205, R209, R210, R236).
-/

namespace Sys2Proof.Machine

open Sys2Proof.Claims

/-! ## What a restore checks (R209) -/

/-- Does the device have, in a version that suffices, the feature whose profile field is the `k`-th? -/
def profileHolds (i : ImageHead) (k : Nat) : Bool := profileMeets (i.profile / 2 ^ (8 * k) % 256) (deviceProfile / 2 ^ (8 * k) % 256)

theorem profileHolds_iff (i : ImageHead) {k : Nat} (hk : k < 3) : profileHolds i k = true ↔
    let w := i.profile / 2 ^ (8 * k) % 256
    w / 16 = 0 ∨ w / 16 = 1 ∧ w % 16 ≤ [2, 1, 0].getD k 0 := by
  have hhigh : i.profile / 2 ^ (8 * k) % 256 / 16 % 16 = i.profile / 2 ^ (8 * k) % 256 / 16 := by omega
  have hdev : deviceProfile / 2 ^ (8 * k) % 256 / 16 % 16 = 1 ∧ deviceProfile / 2 ^ (8 * k) % 256 % 16 = [2, 1, 0].getD k 0 := by
    interval_cases k <;> decide
  simp only [profileHolds, profileMeets, hhigh, hdev, Bool.or_eq_true, Bool.and_eq_true, decide_eq_true_eq]

theorem missingFeatures_eq_zero (i : ImageHead) : missingFeatures i = 0 ↔
    (i.live.testBit 0 = true → profileHolds i 0 = true) ∧ (i.live.testBit 1 = true → profileHolds i 1 = true) ∧
    (i.live.testBit 2 = true → profileHolds i 2 = true) ∧ (i.live.testBit 3 = true → profileHolds i 0 = true) ∧
    (i.live.testBit 6 = true → profileHolds i 0 = true) ∧ i.live < 128 := by
  have hbad : ∀ bit k, (if (i.live.testBit bit && !profileHolds i k) = true then 2 ^ bit else 0) = 0 ↔
      (i.live.testBit bit = true → profileHolds i k = true) := fun bit k => by
    cases i.live.testBit bit <;> cases profileHolds i k <;> simp
  have hlow : i.live / 128 * 128 = 0 ↔ i.live < 128 := by omega
  rw [← hbad 0 0, ← hbad 1 1, ← hbad 2 2, ← hbad 3 0, ← hbad 6 0, ← hlow]
  show _ + _ + _ + _ + _ + _ = 0 ↔ _
  simp only [Nat.add_eq_zero_iff, and_assoc]
  rfl

theorem lt_128_iff (n : Nat) : n < 128 ↔ ∀ b, n.testBit b = true → b < 7 := by
  constructor
  · intro h b hb
    by_contra hge
    have hlt : n < 2 ^ b := lt_of_lt_of_le h (Nat.pow_le_pow_right (n := 2) (by omega) (show 7 ≤ b by omega))
    rw [Nat.testBit_lt_two_pow hlt] at hb
    exact Bool.false_ne_true hb
  · intro h
    refine Nat.lt_pow_two_of_testBit (n := 7) n fun b hb => ?_
    rw [← Bool.not_eq_true]
    exact fun hbit => absurd (h b hbit) (by omega)

theorem featuresPresent_iff (i : ImageHead) : missingFeatures i = 0 ↔
    ∀ b, i.live.testBit b = true → b < 7 ∧ ∀ k, (b ∈ [0, 3, 6] ∧ k = 0 ∨ b = 1 ∧ k = 1 ∨ b = 2 ∧ k = 2) → profileHolds i k = true := by
  rw [missingFeatures_eq_zero, lt_128_iff]
  constructor
  · rintro ⟨h0, h1, h2, h3, h6, hlow⟩ b hb
    refine ⟨hlow b hb, fun k hk => ?_⟩
    rcases hk with ⟨hm, rfl⟩ | ⟨rfl, rfl⟩ | ⟨rfl, rfl⟩
    · simp only [List.mem_cons, List.not_mem_nil, or_false] at hm
      rcases hm with rfl | rfl | rfl
      · exact h0 hb
      · exact h3 hb
      · exact h6 hb
    · exact h1 hb
    · exact h2 hb
  · intro h
    refine ⟨fun hb => (h 0 hb).2 0 (by simp), fun hb => (h 1 hb).2 1 (by simp), fun hb => (h 2 hb).2 2 (by simp),
      fun hb => (h 3 hb).2 0 (by simp), fun hb => (h 6 hb).2 0 (by simp), fun b hb => (h b hb).1⟩

theorem shapeFits_iff (k : Kernel) (c : Context) (i : ImageHead) : shapeFits k c i = true ↔ (i.live.testBit 0 = true →
    let n := bits i.shape 16 16 * bits i.shape 0 16
    n ≤ 8192 ∧ n ≤ 8 * capacity k.nvreg c.hart.vbanks) := by
  cases h : i.live.testBit 0 <;> simp [shapeFits, h]

theorem clusterFits_iff (s : State) (n : Nat) (l : Launch) (c : Context) : s.clusterFits n l c = true ↔
    ∀ v ∈ s.clusterSaves, v.launch = n → v.cluster = c.cluster → ∀ b ∈ v.blocks, b.block < ((resvSizes l).map (·.2)).sum / 256 := by
  simp only [State.clusterFits, List.all_eq_true, Bool.or_eq_true, Bool.not_eq_true', Bool.and_eq_false_iff, decide_eq_false_iff_not,
    decide_eq_true_eq]
  refine forall₂_congr fun v _ => ⟨fun h hn hc => ?_, fun h => ?_⟩
  · rcases h with (h | h) | h
    · exact absurd hn h
    · exact absurd hc h
    · exact h
  · by_cases hn : v.launch = n
    · by_cases hc : v.cluster = c.cluster
      · exact .inr (h hn hc)
      · exact .inl (.inr hc)
    · exact .inl (.inl hn)

theorem restorable_iff (s : State) (n : Nat) (l : Launch) (c : Context) (i : ImageHead) : s.restorable n l c i = true ↔ i.version ≤ 1 ∧
    (∀ b, i.live.testBit b = true → b < 7 ∧ ∀ k, (b ∈ [0, 3, 6] ∧ k = 0 ∨ b = 1 ∧ k = 1 ∨ b = 2 ∧ k = 2) →
      let w := i.profile / 2 ^ (8 * k) % 256
      w / 16 = 0 ∨ w / 16 = 1 ∧ w % 16 ≤ [2, 1, 0].getD k 0) ∧
    (i.live.testBit 0 = true → let n := bits i.shape 16 16 * bits i.shape 0 16
      n ≤ 8192 ∧ n ≤ 8 * capacity (l.kernel ((c.hart.job.map (·.inB)).getD false)).nvreg c.hart.vbanks) ∧
    (i.live.testBit 5 = true → ∀ v ∈ s.clusterSaves, v.launch = n → v.cluster = c.cluster → ∀ b ∈ v.blocks,
      b.block < ((resvSizes l).map (·.2)).sum / 256) := by
  have hsection : (!i.live.testBit 5 || s.clusterFits n l c) = true ↔ (i.live.testBit 5 = true → s.clusterFits n l c = true) := by
    cases i.live.testBit 5 <;> simp
  rw [State.restorable, Bool.and_eq_true, Bool.and_eq_true, Bool.and_eq_true, hsection, clusterFits_iff, shapeFits_iff, decide_eq_true_eq,
    decide_eq_true_eq, featuresPresent_iff, and_assoc, and_assoc]
  refine and_congr_right fun _ => and_congr_left' (forall₂_congr fun b _ => and_congr_right fun _ => forall₂_congr fun k hk => ?_)
  exact profileHolds_iff i (by rcases hk with ⟨-, rfl⟩ | ⟨-, rfl⟩ | ⟨-, rfl⟩ <;> omega)

/-! ## The header that is read (DESIGN CHOICE log 31) -/

theorem imageHead_none {s : State} {c : Context} (h : s.imageAt c = none) :
    (imageHead c).run s = .ok (.mk 1 c.live c.profile (if c.full then c.hart.vshp else 0)) s := by
  refine Op.bind_ok (Op.run_get s) ?_
  simp only [h]
  rfl

theorem imageHead_touchesMemory (c : Context) : (imageHead c).touchesMemory := by
  refine Op.touchesMemory_bind Op.touchesMemory_get fun s => ?_
  cases s.imageAt c with
  | none => exact Op.touchesMemory_pure _
  | some p =>
    refine Op.touchesMemory_bind (attempt_touchesMemory qRead_touchesMemory) fun bs => ?_
    cases bs with
    | none => exact Op.touchesMemory_pure _
    | some bs => exact Op.touchesMemory_ite (Op.touchesMemory_pure _) (Op.touchesMemory_pure _)

/-! ## CONTEXT_RESUME of a context that is no gang's -/

theorem contextReady_iff {s : State} {n : Nat} {c : Context} {l : Launch} (hn : (c.hart.job.map (·.launch)) = some n)
    (hg : l.a.isGang = false) : s.contextReady n l c = true ↔ c.saved = true ∧ c.status ≠ 2 := by
  simp [State.contextReady, Hart.inLaunch, hn, hg]

theorem together_single {s : State} {n : Nat} {c : Context} {l : Launch} (hg : l.a.isGang = false) : s.together n l c = [c] := by
  simp [State.together, hg]

section
variable {id hart n : Nat} {s u : State} {c : Context} {l : Launch} {i : ImageHead} (hc : s.contexts.find? (·.id = id) = some c)
  (hn : (c.hart.job.map (·.launch)) = some n) (hl : s.launches.get? n = some l) (hg : l.a.isGang = false)
include hc hn hl hg

theorem contextResume_waits (h : ¬ (c.saved = true ∧ c.status ≠ 2 ∧ s.turnOf l.queue hart = true)) :
    (contextResumeOp id hart).run s = .error .wait s := by
  have hno : ([c].all (s.contextReady n l) && s.turnOf l.queue hart) = false := by
    rw [← Bool.not_eq_true, Bool.and_eq_true, List.all_cons, List.all_nil, Bool.and_true, contextReady_iff hn hg, and_assoc]
    exact h
  refine Op.bind_ok (Op.run_get s) ?_
  simp only [hc, hn, Option.getD_some, hl, together_single hg, hno]
  rfl

section
variable (hsaved : c.saved = true) (hst : c.status ≠ 2) (ht : s.turnOf l.queue hart = true) (hi : (imageHead c).run s = .ok i u)
include hsaved hst ht hi

theorem contextResume_reads {r : EStateM.Result Stop State Unit} (hr : (if s.restorable n l c i then resumeAll [(c, hart)] else
    markIncompat [(c, i)]).run u = r) : (contextResumeOp id hart).run s = r := by
  have hready : ([c].all (s.contextReady n l) && s.turnOf l.queue hart) = true := by
    rw [List.all_cons, List.all_nil, Bool.and_true, (contextReady_iff hn hg).mpr ⟨hsaved, hst⟩, ht]
    rfl
  have hheads : (imageHeads [c]).run s = .ok [(c, i)] u := Op.bind_ok hi rfl
  refine Op.bind_ok (Op.run_get s) ?_
  simp only [hc, hn, Option.getD_some, hl, together_single hg, hready]
  refine Op.bind_ok (Op.run_onlyIf_true s) (Op.bind_ok hheads ?_)
  rw [← hr, List.all_cons, List.all_nil, Bool.and_true]
  split
  · refine Op.bind_ok (a := ()) (t := u) ?_ rfl
    simp
  · rfl
end
end

/-- A context that waits for quarters stays as it is (R236). -/
theorem resume_waits_for_quarters {id hart n : Nat} {s u : State} {c : Context} {l : Launch} {i : ImageHead} {g : Grant}
    (hc : s.contexts.find? (·.id = id) = some c) (hn : (c.hart.job.map (·.launch)) = some n) (hl : s.launches.get? n = some l)
    (hg : l.a.isGang = false) (hi : (imageHead c).run s = .ok i u) (hr : s.restorable n l c i = true) (hgrant : c.hart.grant = some g)
    (hq : quartersFor (u.usedQuarters c.cluster) g.rows = none) :
    exec (.contextResume id hart) s = .next (s.answered (s.queueOfContext id)) := by
  by_cases hready : c.saved = true ∧ c.status ≠ 2 ∧ s.turnOf l.queue hart = true
  · obtain ⟨hsaved, hst, ht⟩ := hready
    refine frontEvent_wait (t := u) (contextResume_reads hc hn hl hg hsaved hst ht hi ?_)
    rw [if_pos hr]
    refine Op.bind_error (Op.bind_ok (Op.run_get u) ?_)
    have hlu : u.launches.get? n = some l := by
      rw [(imageHead_touchesMemory c).ok hi]
      exact hl
    simp only [regrant, hgrant, hq, Option.map_none, hn, Option.getD_some, hlu]
    rfl
  · exact frontEvent_wait (contextResume_waits hc hn hl hg hready)

/-! ## The context that cannot be restored (R209) -/

/-- The list of contexts with one of them marked. -/
def markContext (id missing : Nat) (cs : List Context) : List Context :=
  cs.map fun d => if d.id = id then { d with status := 2, missing := missing } else d

theorem markIncompat_run {s u : State} {c : Context} (i : ImageHead) (hu : u = { s with mem := u.mem }) : ∃ t m,
    (markIncompat [(c, i)]).run u = .ok () { t with msix := 1 :: t.msix } ∧
    frontWrote { u with contexts := markContext c.id (missingFeatures i) u.contexts } t ∧ imageWrote s c 7 [2] u.mem m ∧
    imageWrote s c 0x18 (toBytes 8 (missingFeatures i)) m t.mem := by
  obtain ⟨m', rfl⟩ : ∃ m, u = { s with mem := m } := ⟨_, hu⟩
  let v : State := { s with mem := m', contexts := markContext c.id (missingFeatures i) s.contexts }
  obtain ⟨t, hrun, hframe, hmem⟩ := writeImage_ok (s := s) (v := v) (c := c) (d := c) (off := 7) (bs := [2]) rfl
    (fun _ _ _ => ⟨rfl, rfl, rfl⟩) rfl rfl rfl rfl rfl
  have ht := hframe.eq
  obtain ⟨t', hrun', hframe', hmem'⟩ := writeImage_ok (s := s) (v := t) (c := c) (d := c) (off := 0x18)
    (bs := toBytes 8 (missingFeatures i)) (by rw [ht]; rfl) (fun _ _ _ => ⟨rfl, by rw [ht], by rw [ht]⟩) (by rw [ht]) (by rw [ht])
    (by rw [ht]) (by rw [ht]) (by rw [ht])
  exact ⟨t', t.mem, Op.bind_ok (Op.bind_ok (Op.bind_ok (Op.run_modify _ _) (Op.bind_ok hrun hrun')) rfl) rfl, hframe.trans hframe', hmem,
    hmem'⟩

theorem resume_marks {id hart n : Nat} {s u : State} {c : Context} {l : Launch} {i : ImageHead}
    (hc : s.contexts.find? (·.id = id) = some c) (hn : (c.hart.job.map (·.launch)) = some n) (hl : s.launches.get? n = some l)
    (hg : l.a.isGang = false) (hsaved : c.saved = true) (hst : c.status ≠ 2) (ht : s.turnOf l.queue hart = true)
    (hi : (imageHead c).run s = .ok i u) (hr : s.restorable n l c i = false) :
    ∃ t, exec (.contextResume id hart) s = .next t ∧ t.msix = 1 :: s.msix ∧
      t.hart = { s.hart with reservation := t.hart.reservation } ∧ t.others.map (·.id) = s.others.map (·.id) ∧
      t.contexts = s.contexts.map (fun d => if d.id = id then { d with status := 2, missing := missingFeatures i } else d) ∧
      (∃ d ∈ t.contexts, d = { c with status := 2, missing := missingFeatures i }) ∧
      (∀ q, (t.queue q).error = (s.queue q).error) ∧
      ∃ m, imageWrote s c 7 [2] u.mem m ∧ imageWrote s c 0x18 (toBytes 8 (missingFeatures i)) m t.mem := by
  have hu : u = { s with mem := u.mem } := (imageHead_touchesMemory c).ok hi
  have hid : c.id = id := by simpa using List.find?_some hc
  obtain ⟨t, m', hrun, hframe, hmem1, hmem2⟩ := markIncompat_run (c := c) i hu
  have hctx : t.contexts = markContext id (missingFeatures i) s.contexts := by
    rw [hframe.eq, hid, hu]
  have hanswered := State.answered_queues (s.queueOfContext id) { t with msix := 1 :: t.msix }
  refine ⟨_, frontEvent_ok (contextResume_reads hc hn hl hg hsaved hst ht hi (by rw [hr]; exact hrun)), ?_, ?_, ?_, ?_, ?_, fun q => ?_, m',
    hmem1, ?_⟩
  · rw [hanswered, hframe.eq, hu]
  · rw [hanswered]
    exact hframe.hart.trans (by rw [hu])
  · rw [hanswered]
    exact hframe.others_id.trans (by rw [hu])
  · rw [hanswered]
    exact hctx
  · rw [hanswered]
    refine ⟨_, ?_, rfl⟩
    show _ ∈ t.contexts
    rw [hctx]
    exact List.mem_map.mpr ⟨c, List.mem_of_find?_eq_some hc, if_pos hid⟩
  · have hqueue : (t.queue q).error = (s.queue q).error := by
      rw [hframe.eq, hu]
      rfl
    by_cases hq : q = s.queueOfContext id
    · rw [hq, State.answered_self, ← hq]
      exact hqueue
    · rw [State.answered_ne _ hq]
      exact hqueue
  · rw [hanswered]
    exact hmem2

/-! ## The hart on which it runs again (R202, R205, R210, R236) -/

/-- The hart `h` holds what the context `c` restores, but for its grant. -/
def resumedAs (c : Context) (h : Hart) : Prop :=
  h.status = .running ∧ h.mode = .u ∧ h.pc = c.hart.mepc ∧
  h.x = c.hart.x ∧ h.f = c.hart.f ∧ h.fcsr = c.hart.fcsr ∧ h.vfflags = c.hart.vfflags ∧ h.vpoiscnt = c.hart.vpoiscnt ∧
  h.preq = c.hart.preq ∧ h.hook = c.hart.hook ∧ h.hookSave = c.hart.hookSave ∧ h.idx = c.hart.idx ∧ h.idxlin = c.hart.idxlin ∧
  h.poolv = c.hart.poolv ∧ h.pools = c.hart.pools ∧ h.poolc = c.hart.poolc ∧ h.bd = c.hart.bd ∧ h.chstep = c.hart.chstep ∧
  (c.full = true → h.vregs = c.hart.vregs ∧ h.preds = c.hart.preds ∧ h.sf = c.hart.sf ∧ h.masks = c.hart.masks ∧
    h.td = c.hart.td ∧ h.vtype = c.hart.vtype ∧ h.mfc = c.hart.mfc ∧ h.vshp = c.hart.vshp ∧ h.vxi = c.hart.vxi ∧
    h.vcbytes = c.hart.vcbytes ∧ h.vhint = c.hart.vhint ∧ h.vvsel = c.hart.vvsel ∧ h.rotation = c.hart.rotation ∧
    h.clause = c.hart.clause) ∧
  (c.full = false → lightVector h)

theorem restoreLight_run (s : State) : ∃ c m n, restoreLight.run s = .ok () { s with
    freeCtr := m
    hart := { ({ s.hart with clause := c } : Hart).lightState with
      vregs := .undef n, preds := .undef n, sf := .undef n, masks := .undef n, td := .undef (n + 1), tdAddr := .undef (n + 1) } } := by
  cases hc : s.hart.clause with
  | none =>
    refine ⟨none, s.freeCtr + 2, s.freeCtr, Op.bind_ok (Op.run_getH s) ?_⟩
    rw [hc, Option.isSome_none, if_neg Bool.false_ne_true, ← hc]
    rfl
  | some c =>
    obtain ⟨c', hu⟩ := undefClause_run s
    refine ⟨some c', s.freeCtr + 3, s.freeCtr + 1, Op.bind_ok (Op.run_getH s) ?_⟩
    rw [hc, Option.isSome_some, if_pos rfl]
    exact Op.bind_ok hu rfl

/-- The hart of a context before what is its vector unit's. -/
def restoredHart (time k : Nat) (c : Context) (g : Option Grant) (h : Hart) : Hart := { restoreScalar time c.hart h with
  grant := g, clause := c.hart.clause
  pool := restoreBlocks time k (restoreScalar time c.hart h).coreBlocks.1 (restoreScalar time c.hart h).coreBlocks.2 c.blocks [] }

theorem restoreAt_run (time k : Nat) (c : Context) (g : Option Grant) (s : State) : ∃ h m,
    (restoreAt time k c g).run s = .ok () { s with hart := h, freeCtr := m } ∧ h.id = s.hart.id ∧ h.grant = g ∧ resumedAs c h := by
  let s1 : State := { s with hart := restoredHart time k c g s.hart }
  cases hf : c.full with
  | true =>
    refine ⟨restoreVector c.hart s1.hart, s.freeCtr, ?_, rfl, rfl, rfl, rfl, rfl, rfl, rfl, rfl, rfl, rfl, rfl, rfl, rfl, rfl, rfl, rfl, rfl,
      rfl, rfl, rfl, fun _ => ?_, fun h => ?_⟩
    · refine Op.bind_ok (Op.run_modH _ s) (Op.bind_ok (Op.run_modH _ _) ?_)
      rw [hf]
      rfl
    · exact ⟨rfl, rfl, rfl, rfl, rfl, rfl, rfl, rfl, rfl, rfl, rfl, rfl, rfl, rfl⟩
    · exact absurd (hf.symm.trans h) (by simp)
  | false =>
    obtain ⟨cl, m', n, hrun⟩ := restoreLight_run s1
    refine ⟨_, m', Op.bind_ok (Op.run_modH _ s) (Op.bind_ok (Op.run_modH _ _) (Eq.trans ?_ hrun)), rfl, rfl, rfl, rfl, rfl, rfl, rfl, rfl, rfl,
      rfl, rfl, rfl, rfl, rfl, rfl, rfl, rfl, rfl, rfl, rfl, fun h => ?_, fun _ => ?_⟩
    · rw [hf]
      rfl
    · exact absurd (hf.symm.trans h) (by simp)
    · exact ⟨rfl, rfl, rfl, rfl, rfl, rfl, rfl, n, n + 1, rfl, rfl, rfl, rfl, rfl, rfl⟩

/-- The present hart after another hart's turn, and that hart in the list. -/
theorem hartOf_selectHart (t : State) (id : Nat) : (t.selectHart id).hartOf t.hart.id = t.hart := by
  unfold State.selectHart
  split
  · exact if_pos rfl
  next h =>
    have hne : ¬ (t.hartOf id).id = t.hart.id := by rw [State.hartOf_id]; exact Ne.symm h
    rw [State.hartOf, if_neg hne]
    simp only [find?_putHart]

theorem selectHart_present (s : State) (id : Nat) : (s.selectHart id).hart.id = id := by
  unfold State.selectHart
  split
  · assumption
  · exact State.hartOf_id s id

theorem State.selectHart_eq (s : State) (id : Nat) : s.selectHart id = { s with
    hart := (s.selectHart id).hart, others := (s.selectHart id).others } := by
  unfold selectHart
  split <;> rfl

/-- An event of another hart, in its turn. -/
theorem onHart_run {id : Nat} {x : Op Unit} {s t : State} (hx : x.run (s.selectHart id) = .ok () t) :
    (Machine.onHart id x).run s = .ok () (t.selectHart s.hart.id) :=
  Op.bind_ok (Op.run_get s) (Op.bind_ok (Op.run_modify _ s) (Op.bind_ok hx rfl))

/-- A context is restored on a hart, whose turn it is only for that. -/
theorem restoreOn_run (time k : Nat) (c : Context) (g : Option Grant) (id : Nat) (s : State) : ∃ t,
    (Machine.onHart id (restoreAt time k c g)).run s = .ok () t ∧
    t = { s with hart := t.hart, others := t.others, freeCtr := t.freeCtr } ∧ (t.hartOf id).grant = g ∧ resumedAs c (t.hartOf id) := by
  obtain ⟨h, m', hrun, hid, hgrant, hres⟩ := restoreAt_run time k c g (s.selectHart id)
  let v : State := { s.selectHart id with hart := h, freeCtr := m' }
  rw [selectHart_present] at hid
  have hhart : (v.selectHart s.hart.id).hartOf id = h := by
    have hv := hartOf_selectHart v s.hart.id
    rwa [show v.hart.id = id from hid] at hv
  have hframe : v.selectHart s.hart.id = { s with
      hart := (v.selectHart s.hart.id).hart, others := (v.selectHart s.hart.id).others, freeCtr := m' } := by
    rw [State.selectHart_eq v]
    show ({ s.selectHart id with hart := _, others := _, freeCtr := m' } : State) = _
    rw [State.selectHart_eq s]
  refine ⟨v.selectHart s.hart.id, onHart_run hrun, ?_, ?_, ?_⟩
  · rw [hframe]
  · rw [hhart]
    exact hgrant
  · rw [hhart]
    exact hres

/-- The grant that a resumption gives, on quarters that are free (R236, R301). -/
def grantAgain (s : State) (cl : Nat) (g : Option Grant) : Option Grant :=
  g.map fun g => { g with quarters := (quartersFor (s.usedQuarters cl) g.rows).getD [], checkCol := 0 }

theorem regrant_some {s : State} {cl : Nat} {g : Option Grant} (h : ∀ g', g = some g' → quartersFor (s.usedQuarters cl) g'.rows ≠ none) :
    regrant s cl g = some (grantAgain s cl g) := by
  cases g with
  | none => rfl
  | some g =>
    obtain ⟨q, hq⟩ := Option.ne_none_iff_exists'.mp (h g rfl)
    simp only [regrant, grantAgain, hq, Option.map_some, Option.getD_some]

theorem placeResvs_placed {s : State} {cl n : Nat} (base : Nat) (l : Launch) (hp : s.savePending n cl = false)
    (hr : (s.cluster cl).resvs.any (·.launch = n) = true) : (placeResvs cl n base l).run s = .ok () s := by
  refine Op.bind_ok (Op.run_get s) ?_
  simp only [hp, hr]
  exact Op.bind_ok (Op.run_onlyIf_true s) rfl

/-- The state in which a context's queue has received the hart. -/
def queueServed (q : Nat) (s : State) : State := { s.setQueue q (s.queue q).received with freeCtr := s.freeCtr + 1, lastServed := q }

theorem queueServed_queue (q p : Nat) (s : State) : ((queueServed q s).queue p).installed = (s.queue p).installed ∧
    ((queueServed q s).queue p).asked = (s.queue p).asked := by
  by_cases hp : p = q
  · have hself : (queueServed q s).queue p = (s.queue q).received := by
      rw [hp]
      exact State.setQueue_self ..
    rw [hself, hp]
    exact ⟨rfl, rfl⟩
  · have hne : (queueServed q s).queue p = s.queue p := State.setQueue_ne _ _ _ _ hp
    rw [hne]
    exact ⟨rfl, rfl⟩

/-- The launch of a context whose hart runs again holds its key. -/
def keyHeld (c : Context) (id : Nat) (l : Launch) : Launch :=
  match c.hart.job with
  | some j => l.setKey { l.keyState j.key with holder := some id }
  | none => l

theorem keyHeld_queue (c : Context) (id : Nat) (l : Launch) : (keyHeld c id l).queue = l.queue := by
  unfold keyHeld
  split <;> rfl

/-- Where the image of a context of launch `n` lies is decided by the launch's queue. -/
theorem imageAt_congr {s t : State} {c : Context} {n : Nat} {l l' : Launch} (hn : (c.hart.job.map (·.launch)) = some n)
    (hs : s.launches.get? n = some l) (ht : t.launches.get? n = some l') (hq : l'.queue = l.queue)
    (hi : (t.queue l.queue).installed = (s.queue l.queue).installed) : t.imageAt c = s.imageAt c := by
  obtain ⟨j, hj, rfl⟩ := Option.map_eq_some_iff.mp hn
  simp only [State.imageAt, hj, Option.bind_some, hs, ht, hq, hi]

theorem resumeOne_run {s u : State} {c : Context} {n hart : Nat} {l : Launch} (hu : u = { s with mem := u.mem })
    (hn : (c.hart.job.map (·.launch)) = some n) (hl : s.launches.get? n = some l) (hend : l.ended = false) (hsaved : c.saved = true)
    (hst : c.status ≠ 2) (hq : ∀ g, c.hart.grant = some g → quartersFor (u.usedQuarters c.cluster) g.rows ≠ none)
    (hfree : s.hartFree hart = true) (hcl : hart / 4 = c.cluster) (hr : (s.cluster c.cluster).resvs.any (·.launch = n) = true)
    (hp : s.savePending n c.cluster = false) : ∃ t, (resumeOne c hart).run u = .ok () t ∧ resumedAs c (t.hartOf hart) ∧
      (t.hartOf hart).grant = grantAgain u c.cluster c.hart.grant ∧ imageWrote s c 7 [1] u.mem t.mem ∧ ∀ d ∈ t.contexts, d.id ≠ c.id := by
  have hregrant := regrant_some hq
  obtain ⟨m', rfl⟩ : ∃ m, u = { s with mem := m } := ⟨_, hu⟩
  let u : State := { s with mem := m' }
  obtain ⟨v, hrun, hframe, hgrant, hres⟩ := restoreOn_run s.time s.freeCtr c (grantAgain u c.cluster c.hart.grant) hart (queueServed l.queue u)
  let w : State := { v with launches := v.launches.put n (keyHeld c hart l) }
  have hlv : v.launches.get? n = some l := by
    rw [hframe]
    exact hl
  have hqueues : ∀ q, (w.queue q).installed = (s.queue q).installed ∧ (w.queue q).asked = (s.queue q).asked := fun q => by
    have hwq : w.queue q = (queueServed l.queue u).queue q := by
      show v.queue q = _
      rw [hframe]
      rfl
    rw [hwq]
    exact queueServed_queue l.queue q u
  obtain ⟨x, hwrite, hwrote, himage⟩ := writeImage_ok (s := s) (v := w) (c := c) (d := c) (off := 7) (bs := [1])
    (imageAt_congr hn hl (Tab.get?_put_self ..) (keyHeld_queue c hart l) (hqueues l.queue).1)
    (fun q _ _ => ⟨rfl, (hqueues q).1.symm, (hqueues q).2.symm⟩) (by show v.keys = s.keys; rw [hframe]; rfl)
    (by show v.domainId = s.domainId; rw [hframe]; rfl) (by show v.status = s.status; rw [hframe]; rfl)
    (by show v.linksUp = s.linksUp; rw [hframe]; rfl) (by show v.time = s.time; rw [hframe]; rfl)
  have hok : (c.saved && decide (c.status ≠ 2) && !l.ended && u.hartFree hart && decide (hart / 4 = c.cluster) && u.roomFor c.cluster n l) =
      true := by
    have hroom : u.roomFor c.cluster n l = true := by
      show (!s.savePending n c.cluster && ((s.cluster c.cluster).resvs.any (·.launch = n) || _)) = true
      rw [hp, hr]
      rfl
    rw [hsaved, hend, hroom, show u.hartFree hart = true from hfree]
    simp [hst, hcl]
  have hold : x.hartOf hart = { v.hartOf hart with reservation := (x.hartOf hart).reservation } := hwrote.hartOf hart
  refine ⟨{ State.rename (.context c.id) (.hart hart) x with contexts := x.contexts.filter (·.id ≠ c.id) }, ?_, ?_, ?_, ?_, fun d hd => ?_⟩
  · refine Op.bind_ok (Op.run_get _) ?_
    simp only [hn, Option.getD_some, hl, hregrant]
    refine Op.bind_ok (t := u) (by rw [hok]; exact Op.run_onlyIf_true u) (Op.bind_ok (placeResvs_placed _ l hp hr) ?_)
    refine Op.bind_ok (Op.run_draw u) (Op.bind_ok (t := queueServed l.queue u) rfl (Op.bind_ok hrun ?_))
    exact Op.bind_ok (t := w) (modLaunch_run _ hlv) (Op.bind_ok hwrite rfl)
  · exact hold ▸ hres
  · exact hold ▸ hgrant
  · rw [show u.mem = w.mem by show _ = v.mem; rw [hframe]; rfl]
    exact himage
  · simpa using (List.mem_filter.mp hd).2

/-- A context that can be restored runs where it was saved (R202, R205, R210, R236). -/
theorem resume_runs {id hart n : Nat} {s u : State} {c : Context} {l : Launch} {i : ImageHead}
    (hc : s.contexts.find? (·.id = id) = some c) (hn : (c.hart.job.map (·.launch)) = some n) (hl : s.launches.get? n = some l)
    (hg : l.a.isGang = false) (hend : l.ended = false) (hsaved : c.saved = true) (hst : c.status ≠ 2)
    (hq : ∀ g, c.hart.grant = some g → quartersFor (u.usedQuarters c.cluster) g.rows ≠ none) (hfree : s.hartFree hart = true)
    (hcl : hart / 4 = c.cluster) (ht : s.turnOf l.queue hart = true) (hi : (imageHead c).run s = .ok i u)
    (hr : s.restorable n l c i = true) (hresv : (s.cluster c.cluster).resvs.any (·.launch = n) = true)
    (hp : s.savePending n c.cluster = false) : ∃ t, exec (.contextResume id hart) s = .next t ∧ resumedAs c (t.hartOf hart) ∧
      (t.hartOf hart).grant = grantAgain u c.cluster c.hart.grant ∧ imageWrote s c 7 [1] u.mem t.mem ∧ ∀ d ∈ t.contexts, d.id ≠ id := by
  have hid : c.id = id := by simpa using List.find?_some hc
  have hu := (imageHead_touchesMemory c).ok hi
  obtain ⟨t, hrun, hres, hgrant, himage, hctx⟩ := resumeOne_run hu hn hl hend hsaved hst hq hfree hcl hresv hp
  refine ⟨t.answered (s.queueOfContext id), frontEvent_ok (contextResume_reads hc hn hl hg hsaved hst ht hi ?_), ?_⟩
  · rw [if_pos hr]
    exact Op.bind_ok hrun rfl
  · rw [State.answered_queues, ← hid]
    exact ⟨hres, hgrant, himage, hctx⟩

theorem resumesComplete : ResumesComplete := by
  refine ⟨fun id hart s c n l i u hc hn hl hg hend hsaved hst hq hfree hcl ht hi hr hresv hp => ?_,
    fun id hart s c n l i u g hc hn hl hg hi hr hgrant hq => resume_waits_for_quarters hc hn hl hg hi hr hgrant hq,
    fun id hart s c n l i u hc hn hl hg hsaved hst ht hi hr => resume_marks hc hn hl hg hsaved hst ht hi hr, restorable_iff,
    fun _ _ => imageHead_none⟩
  obtain ⟨t, hexec, ⟨h1, h2, h3, h4, h5, h6, h7, h8, h9, h10, h11, h12, h13, h14, h15, h16, h17, h18, hfull, hlight⟩, hgrant, hrest⟩ :=
    resume_runs hc hn hl hg hend hsaved hst hq hfree hcl ht hi hr hresv hp
  exact ⟨t, hexec, h1, h2, h3, h4, h5, h6, h7, h8, h9, h10, h11, h12, h13, h14, h15, h16, h17, h18, hfull, hlight, hgrant, hrest⟩

end Sys2Proof.Machine

open Sys2Proof Sys2Proof.Machine Sys2Proof.Claims

/-- Settles O51: what one step of the clock asks of the harts, what a hart asked does, and the operations of a save and of a resumption, each
run to its end; a write of the front end into an image is decided by what its queue shows the front end. -/
theorem schedulingCompletes : Obligations.SchedulingCompletes := ⟨requestsAreSent, savesComplete, resumesComplete⟩
end

section
/-!
SUPPORT. The round trip of the encoder, over all forms (R91, R93, R95 to R100).
-/

namespace Sys2Proof.Machine
open Sys2Proof.Claims

/-- Every well-formed instruction reads back from its bytes: each form by its own law of the encoder. -/
theorem roundTrip : ∀ i : Instr, Laws.RoundTrip.Statement i
  | .vshape rd rs1 rs2 => Laws.RoundTrip.vshape rd rs1 rs2
  | .vsett rd rs1 => Laws.RoundTrip.vsett rd rs1
  | .iter rd => Laws.RoundTrip.iter rd
  | .next => Laws.RoundTrip.next
  | .endK => Laws.RoundTrip.endK
  | .yield => Laws.RoundTrip.yield
  | .clput rd rs1 rs2 => Laws.RoundTrip.clput rd rs1 rs2
  | .clwait rd rs1 => Laws.RoundTrip.clwait rd rs1
  | .clause xm xt nm1 => Laws.RoundTrip.clause xm xt nm1
  | .fenceSv s => Laws.RoundTrip.fenceSv s
  | .fenceVs s => Laws.RoundTrip.fenceVs s
  | .fenceVv s => Laws.RoundTrip.fenceVv s
  | .fenceAll s => Laws.RoundTrip.fenceAll s
  | .bar rs1 => Laws.RoundTrip.bar rs1
  | .spalloc rs1 rs2 => Laws.RoundTrip.spalloc rs1 rs2
  | .spfree rs1 rs2 => Laws.RoundTrip.spfree rs1 rs2
  | .renew rs1 rs2 => Laws.RoundTrip.renew rs1 rs2
  | .spage rd rs1 => Laws.RoundTrip.spage rd rs1
  | .pin rd rs1 rs2 => Laws.RoundTrip.pin rd rs1 rs2
  | .unpin rs1 => Laws.RoundTrip.unpin rs1
  | .stream o rs1 rs2 => Laws.RoundTrip.stream o rs1 rs2
  | .streamu o rs1 rs2 => Laws.RoundTrip.streamu o rs1 rs2
  | .cwait aq s rs1 rs2 => Laws.RoundTrip.cwait aq s rs1 rs2
  | .cadd s rs1 rs2 => Laws.RoundTrip.cadd s rs1 rs2
  | .rclaim rd rs1 rs2 => Laws.RoundTrip.rclaim rd rs1 rs2
  | .rcommit rs1 rs2 => Laws.RoundTrip.rcommit rs1 rs2
  | .rawait rd rs1 rs2 => Laws.RoundTrip.rawait rd rs1 rs2
  | .rretire rs1 rs2 => Laws.RoundTrip.rretire rs1 rs2
  | .attach rd rs1 => Laws.RoundTrip.attach rd rs1
  | .detach => Laws.RoundTrip.detach
  | .mld o mt rs1 rs2 => Laws.RoundTrip.mld o mt rs1 rs2
  | .mldx o rs1 vs => Laws.RoundTrip.mldx o rs1 vs
  | .mlsc o mt rs1 => Laws.RoundTrip.mlsc o mt rs1
  | .mma acc a b => Laws.RoundTrip.mma acc a b
  | .mrpt acc a rs2 => Laws.RoundTrip.mrpt acc a rs2
  | .msld acc a rs2 => Laws.RoundTrip.msld acc a rs2
  | .mst o acc rs1 rs2 => Laws.RoundTrip.mst o acc rs1 rs2
  | .mzero acc => Laws.RoundTrip.mzero acc
  | .bdset n rs1 => Laws.RoundTrip.bdset n rs1
  | .chnrun o rs1 rs2 => Laws.RoundTrip.chnrun o rs1 rs2
  | .chnstep o rs1 rs2 => Laws.RoundTrip.chnstep o rs1 rs2
  | .coll o rs1 rs2 => Laws.RoundTrip.coll o rs1 rs2
  | .ccancel rd rs1 => Laws.RoundTrip.ccancel rd rs1
  | .cstat rd rs1 => Laws.RoundTrip.cstat rd rs1
  | .launch rs1 rs2 => Laws.RoundTrip.launch rs1 rs2
  | .splbar rs1 => Laws.RoundTrip.splbar rs1
  | .tdld td rs1 => Laws.RoundTrip.tdld td rs1
  | .bany ps off => Laws.RoundTrip.bany ps off
  | .ball ps off => Laws.RoundTrip.ball ps off
  | .bnone ps off => Laws.RoundTrip.bnone ps off
  | .bnall ps off => Laws.RoundTrip.bnall ps off
  | .pand pd ps1 ps2 => Laws.RoundTrip.pand pd ps1 ps2
  | .por pd ps1 ps2 => Laws.RoundTrip.por pd ps1 ps2
  | .pxor pd ps1 ps2 => Laws.RoundTrip.pxor pd ps1 ps2
  | .pandn pd ps1 ps2 => Laws.RoundTrip.pandn pd ps1 ps2
  | .pnot pd ps1 => Laws.RoundTrip.pnot pd ps1
  | .pmov pd ps1 => Laws.RoundTrip.pmov pd ps1
  | .psetn pd rs => Laws.RoundTrip.psetn pd rs
  | .pwhile cond pd rsa rsb => Laws.RoundTrip.pwhile cond pd rsa rsb
  | .ppopc rd ps => Laws.RoundTrip.ppopc rd ps
  | .pfirst rd ps => Laws.RoundTrip.pfirst rd ps
  | .psum rd ps => Laws.RoundTrip.psum rd ps
  | .vadd v => Laws.RoundTrip.vadd v
  | .vsub v => Laws.RoundTrip.vsub v
  | .vmul v => Laws.RoundTrip.vmul v
  | .vmulh v => Laws.RoundTrip.vmulh v
  | .vmin v => Laws.RoundTrip.vmin v
  | .vmax v => Laws.RoundTrip.vmax v
  | .vminu v => Laws.RoundTrip.vminu v
  | .vmaxu v => Laws.RoundTrip.vmaxu v
  | .vand v => Laws.RoundTrip.vand v
  | .vor v => Laws.RoundTrip.vor v
  | .vxor v => Laws.RoundTrip.vxor v
  | .vsll v => Laws.RoundTrip.vsll v
  | .vsrl v => Laws.RoundTrip.vsrl v
  | .vsra v => Laws.RoundTrip.vsra v
  | .vsadd v => Laws.RoundTrip.vsadd v
  | .vbfx v => Laws.RoundTrip.vbfx v
  | .vpopc u => Laws.RoundTrip.vpopc u
  | .vclz u => Laws.RoundTrip.vclz u
  | .vfshl u => Laws.RoundTrip.vfshl u
  | .vfshr u => Laws.RoundTrip.vfshr u
  | .vfadd v => Laws.RoundTrip.vfadd v
  | .vfsub v => Laws.RoundTrip.vfsub v
  | .vfmul v => Laws.RoundTrip.vfmul v
  | .vfdiv v => Laws.RoundTrip.vfdiv v
  | .vfma v => Laws.RoundTrip.vfma v
  | .vfms v => Laws.RoundTrip.vfms v
  | .vfnma v => Laws.RoundTrip.vfnma v
  | .vfmin v => Laws.RoundTrip.vfmin v
  | .vfmax v => Laws.RoundTrip.vfmax v
  | .vfsgnj v => Laws.RoundTrip.vfsgnj v
  | .vfscale v => Laws.RoundTrip.vfscale v
  | .vfscl v => Laws.RoundTrip.vfscl v
  | .vfsqrt u => Laws.RoundTrip.vfsqrt u
  | .vfexp2 u => Laws.RoundTrip.vfexp2 u
  | .vfabs u => Laws.RoundTrip.vfabs u
  | .vfneg u => Laws.RoundTrip.vfneg u
  | .vfrnd u => Laws.RoundTrip.vfrnd u
  | .vcmpeq v => Laws.RoundTrip.vcmpeq v
  | .vcmpne v => Laws.RoundTrip.vcmpne v
  | .vcmplt v => Laws.RoundTrip.vcmplt v
  | .vcmple v => Laws.RoundTrip.vcmple v
  | .vcmpltu v => Laws.RoundTrip.vcmpltu v
  | .vcmpleu v => Laws.RoundTrip.vcmpleu v
  | .vfcmplt v => Laws.RoundTrip.vfcmplt v
  | .vfcmple v => Laws.RoundTrip.vfcmple v
  | .vcompress u ps => Laws.RoundTrip.vcompress u ps
  | .vslideup v => Laws.RoundTrip.vslideup v
  | .vslidedn v => Laws.RoundTrip.vslidedn v
  | .vgather v => Laws.RoundTrip.vgather v
  | .vredsum u => Laws.RoundTrip.vredsum u
  | .vredmax u => Laws.RoundTrip.vredmax u
  | .vredmin u => Laws.RoundTrip.vredmin u
  | .vfredsum u => Laws.RoundTrip.vfredsum u
  | .vfredmax u => Laws.RoundTrip.vfredmax u
  | .vcvt u t => Laws.RoundTrip.vcvt u t
  | .vmv v => Laws.RoundTrip.vmv v
  | .viota u => Laws.RoundTrip.viota u
  | .vid u => Laws.RoundTrip.vid u
  | .vtrans u => Laws.RoundTrip.vtrans u
  | .vld m => Laws.RoundTrip.vld m
  | .vst m => Laws.RoundTrip.vst m
  | .vldc m => Laws.RoundTrip.vldc m
  | .vlsc m => Laws.RoundTrip.vlsc m
  | .vssc m => Laws.RoundTrip.vssc m
  | .vamoadd m => Laws.RoundTrip.vamoadd m
  | .vamomax m => Laws.RoundTrip.vamomax m
  | .vamomin m => Laws.RoundTrip.vamomin m
  | .rv op half => Laws.RoundTrip.rv op half
  | .mret => Laws.RoundTrip.mret
  | .hookset => Laws.RoundTrip.hookset
  | .hookret => Laws.RoundTrip.hookret
  | .abort => Laws.RoundTrip.abort
  | .ecallUnknown => Laws.RoundTrip.ecallUnknown
  | .vtypeWrite a => Laws.RoundTrip.vtypeWrite a
  | .mfcWrite a => Laws.RoundTrip.mfcWrite a
  | .vxiWrite a => Laws.RoundTrip.vxiWrite a
  | .poolBoundaryWrite which a => Laws.RoundTrip.poolBoundaryWrite which a
  | .vvalidWrite a => Laws.RoundTrip.vvalidWrite a
  | .bdCsrWrite n a => Laws.RoundTrip.bdCsrWrite n a
  | .registerWrite t => Laws.RoundTrip.registerWrite t
  | .doorbellWrite q t => Laws.RoundTrip.doorbellWrite q t
  | .hostBar2Access b => Laws.RoundTrip.hostBar2Access b
  | .qconfig q => Laws.RoundTrip.qconfig q
  | .shootdown q va len => Laws.RoundTrip.shootdown q va len
  | .elideclr q idx => Laws.RoundTrip.elideclr q idx
  | .commset table count => Laws.RoundTrip.commset table count
  | .powerlimit watts => Laws.RoundTrip.powerlimit watts
  | .domainid id => Laws.RoundTrip.domainid id
  | .aperture base => Laws.RoundTrip.aperture base
  | .fwstage slot addr len => Laws.RoundTrip.fwstage slot addr len
  | .fwswitch => Laws.RoundTrip.fwswitch
  | .qresume q action => Laws.RoundTrip.qresume q action
  | .mailboxUnknownCode code => Laws.RoundTrip.mailboxUnknownCode code
  | .fwHeartbeat accepts => Laws.RoundTrip.fwHeartbeat accepts
  | .fwHeartbeatTimeout => Laws.RoundTrip.fwHeartbeatTimeout
  | .spdmGetVersion => Laws.RoundTrip.spdmGetVersion
  | .spdmGetCapabilities => Laws.RoundTrip.spdmGetCapabilities
  | .spdmNegotiateAlgorithms => Laws.RoundTrip.spdmNegotiateAlgorithms
  | .spdmGetDigests => Laws.RoundTrip.spdmGetDigests
  | .spdmGetCertificate off len => Laws.RoundTrip.spdmGetCertificate off len
  | .spdmChallenge nonce => Laws.RoundTrip.spdmChallenge nonce
  | .spdmGetMeasurements index nonce => Laws.RoundTrip.spdmGetMeasurements index nonce
  | .spdmKeyExchange peerShare => Laws.RoundTrip.spdmKeyExchange peerShare
  | .spdmFinish mac => Laws.RoundTrip.spdmFinish mac
  | .spdmEndSession => Laws.RoundTrip.spdmEndSession
  | .keyLoad k key => Laws.RoundTrip.keyLoad k key
  | .keyClear k => Laws.RoundTrip.keyClear k
  | .deviceReset => Laws.RoundTrip.deviceReset
  | .bootComplete slot0 slot1 => Laws.RoundTrip.bootComplete slot0 slot1
  | .hbmTrainingComplete => Laws.RoundTrip.hbmTrainingComplete
  | .thermalThrottle die => Laws.RoundTrip.thermalThrottle die
  | .thermalTrip => Laws.RoundTrip.thermalTrip
  | .powerLimitEnforce die => Laws.RoundTrip.powerLimitEnforce die
  | .clockStretch die => Laws.RoundTrip.clockStretch die
  | .recordReachesHead q => Laws.RoundTrip.recordReachesHead q
  | .recordDispatchStart q => Laws.RoundTrip.recordDispatchStart q
  | .hartAssign hart launch key slot resv => Laws.RoundTrip.hartAssign hart launch key slot resv
  | .gangDispatch launch harts slots resv => Laws.RoundTrip.gangDispatch launch harts slots resv
  | .launchComplete launch => Laws.RoundTrip.launchComplete launch
  | .pairComplete launch => Laws.RoundTrip.pairComplete launch
  | .coreReservationRelease hart => Laws.RoundTrip.coreReservationRelease hart
  | .queueAgeing q => Laws.RoundTrip.queueAgeing q
  | .quantumExpiry hart => Laws.RoundTrip.quantumExpiry hart
  | .preemptionRequest hart => Laws.RoundTrip.preemptionRequest hart
  | .preemptDeadline hart elem => Laws.RoundTrip.preemptDeadline hart elem
  | .gangSaveStart launch => Laws.RoundTrip.gangSaveStart launch
  | .contextSaveComplete ctx => Laws.RoundTrip.contextSaveComplete ctx
  | .contextResume ctx hart => Laws.RoundTrip.contextResume ctx hart
  | .sweeperVisit core owner block => Laws.RoundTrip.sweeperVisit core owner block
  | .renewalPerform core owner => Laws.RoundTrip.renewalPerform core owner
  | .ringBlockRenewal hart => Laws.RoundTrip.ringBlockRenewal hart
  | .l1DirtyWriteback hart line => Laws.RoundTrip.l1DirtyWriteback hart line
  | .extensionBankRenewal hart bank => Laws.RoundTrip.extensionBankRenewal hart bank
  | .l2LineRetention die line => Laws.RoundTrip.l2LineRetention die line
  | .sectorPoisonDetect place owner sector => Laws.RoundTrip.sectorPoisonDetect place owner sector
  | .scarabCommandBegin cluster hart => Laws.RoundTrip.scarabCommandBegin cluster hart
  | .scarabPrefixAdvance cluster cmd upto => Laws.RoundTrip.scarabPrefixAdvance cluster cmd upto
  | .scarabFault cluster cmd => Laws.RoundTrip.scarabFault cluster cmd
  | .scarabCommandComplete cluster cmd => Laws.RoundTrip.scarabCommandComplete cluster cmd
  | .ordinalRegistration m => Laws.RoundTrip.ordinalRegistration m
  | .ordinalDeferredNumber comm tag => Laws.RoundTrip.ordinalDeferredNumber comm tag
  | .ordinalStartReport num rank => Laws.RoundTrip.ordinalStartReport num rank
  | .ordinalCancellation comm tag rank => Laws.RoundTrip.ordinalCancellation comm tag rank
  | .collectiveNotice comm tag num prev void aborted => Laws.RoundTrip.collectiveNotice comm tag num prev void aborted
  | .collectiveBegin num seq => Laws.RoundTrip.collectiveBegin num seq
  | .collectiveEnd num seq status peers => Laws.RoundTrip.collectiveEnd num seq status peers
  | .collectiveEngineFault num seq cause addr => Laws.RoundTrip.collectiveEngineFault num seq cause addr
  | .collectiveTimeout num => Laws.RoundTrip.collectiveTimeout num
  | .ccancelAnswerTimeout hart => Laws.RoundTrip.ccancelAnswerTimeout hart
  | .ordinalElection primary standby => Laws.RoundTrip.ordinalElection primary standby
  | .ordinalHeartbeat => Laws.RoundTrip.ordinalHeartbeat
  | .ordinalStandbyAckTimeout => Laws.RoundTrip.ordinalStandbyAckTimeout
  | .ordinalFailover => Laws.RoundTrip.ordinalFailover
  | .ethernetRecordReceive peer seqNum rec => Laws.RoundTrip.ethernetRecordReceive peer seqNum rec
  | .sessionRekey peer => Laws.RoundTrip.sessionRekey peer
  | .remoteAccessAtHome op pa key => Laws.RoundTrip.remoteAccessAtHome op pa key
  | .remoteReadTimeout hart kind elem va => Laws.RoundTrip.remoteReadTimeout hart kind elem va
  | .remoteWriteUndeliverable writer va => Laws.RoundTrip.remoteWriteUndeliverable writer va
  | .supplyRecovery die => Laws.RoundTrip.supplyRecovery die
  | .domainFault => Laws.RoundTrip.domainFault
  | .ordinalReplication entry => Laws.RoundTrip.ordinalReplication entry
  | .sessionKeyExchange peer share => Laws.RoundTrip.sessionKeyExchange peer share
  | .ethernetRetransmission peer seqNum => Laws.RoundTrip.ethernetRetransmission peer seqNum

end Sys2Proof.Machine

open Sys2Proof Sys2Proof.Machine Sys2Proof.Claims

/-- Settles O7: form by form, as the laws of the encoder give it. -/
theorem decodeInvertsEncode : Obligations.DecodeInvertsEncode :=
  fun i bs rest hwf hhalf henc => roundTrip i hwf hhalf bs rest henc
end

section
/-!
SUPPORT. Operations that keep memory in its canonical form: the rules for how they are put together, the writes of memory, and the
functions of the state that leave it (R109, R149).
-/

namespace Sys2Proof.Machine

/-- The state that a run leaves, however it ends. -/
def endOf {α : Type} : EStateM.Result Stop State α → State
  | .ok _ t => t
  | .error _ t => t

/-- An operation that begins with memory in its canonical form ends so, whether it answers or stops. -/
structure Op.keepsMem {α : Type} (x : Op α) : Prop where
  memOk : ∀ s : State, s.memOk → (endOf (x.run s)).memOk

section
variable {α β : Type} {x : Op α} {f : α → Op β} {s t : State}

theorem Op.keepsMem.ok {a : α} (hx : x.keepsMem) (hs : s.memOk) (h : x.run s = .ok a t) : t.memOk := by
  simpa [h, endOf] using hx.memOk s hs
theorem Op.keepsMem.error {e : Stop} (hx : x.keepsMem) (hs : s.memOk) (h : x.run s = .error e t) : t.memOk := by
  simpa [h, endOf] using hx.memOk s hs

@[simp] theorem Op.keepsMem_pure (a : α) : (pure a : Op α).keepsMem := ⟨fun _ hs => hs⟩
@[simp] theorem Op.keepsMem_throw (e : Stop) : (throw e : Op α).keepsMem := ⟨fun _ hs => hs⟩
@[simp] theorem Op.keepsMem_get : (get : Op State).keepsMem := ⟨fun _ hs => hs⟩
@[simp] theorem Op.keepsMem_raise (t : Trap) : (raise t : Op α).keepsMem := ⟨fun _ hs => hs⟩

theorem Op.keepsMem_bind (hx : x.keepsMem) (hf : ∀ a, (f a).keepsMem) : (x >>= f).keepsMem := ⟨fun s hs => by
  rw [Op.run_bind]
  cases h : x.run s with
  | ok a t => exact (hf a).memOk t (hx.ok hs h)
  | error e t => exact hx.error hs h⟩

theorem Op.keepsMem_get_bind {g : State → Op β} (h : ∀ s : State, s.memOk → (g s).keepsMem) : (get >>= g).keepsMem :=
  ⟨fun s hs => (h s hs).memOk s hs⟩

theorem Op.keepsMem_set (h : t.memOk) : (set t : Op PUnit).keepsMem := ⟨fun _ _ => h⟩
theorem Op.keepsMem_modify {g : State → State} (h : ∀ s : State, s.memOk → (g s).memOk) : (modify g : Op PUnit).keepsMem :=
  ⟨fun s hs => h s hs⟩

theorem Op.keepsMem_tryCatch {g : Stop → Op α} (hx : x.keepsMem) (hg : ∀ e, (g e).keepsMem) : (tryCatch x g).keepsMem := ⟨fun s hs => by
  rw [Op.run_tryCatch]
  cases h : x.run s with
  | ok a t => exact hx.ok hs h
  | error e t => exact (hg e).memOk t (hx.error hs h)⟩

theorem Op.keepsMem_forIn {γ δ : Type} {l : List γ} {g : γ → δ → Op (ForInStep δ)} (h : ∀ c d, (g c d).keepsMem) :
    ∀ d, (forIn l d g).keepsMem := by
  induction l with
  | nil => exact fun d => Op.keepsMem_pure d
  | cons c l ih =>
    intro d
    rw [List.forIn_cons]
    refine Op.keepsMem_bind (h c d) fun r => ?_
    cases r with
    | done d => exact Op.keepsMem_pure d
    | yield d => exact ih d

theorem Op.keepsMem_forM {γ : Type} {g : γ → Op PUnit} (h : ∀ c, (g c).keepsMem) : ∀ l : List γ, (l.forM g).keepsMem
  | [] => Op.keepsMem_pure _
  | c :: l => Op.keepsMem_bind (h c) fun _ => Op.keepsMem_forM h l

theorem Op.keepsMem_ite {c : Prop} [Decidable c] {y : Op α} (hx : c → x.keepsMem) (hy : ¬ c → y.keepsMem) :
    (if c then x else y).keepsMem := by
  split
  · exact hx ‹_›
  · exact hy ‹_›

@[simp] theorem Op.keepsMem_throw_bind (e : Stop) (f : α → Op β) : (throw e >>= f).keepsMem := ⟨fun _ hs => hs⟩
@[simp] theorem Op.keepsMem_raise_bind (e : Trap) (f : α → Op β) : (raise e >>= f).keepsMem := ⟨fun _ hs => hs⟩
@[simp] theorem Op.keepsMem_fail_bind (w : Who) (c : Nat) (va : Word) (n : Nat) (f : α → Op β) :
    (fail w c va n >>= f).keepsMem := ⟨fun _ hs => hs⟩
@[simp] theorem Op.keepsMem_engine_bind (n : Nat) (va : Option Word) (f : α → Op β) : (engine n va >>= f).keepsMem := ⟨fun _ hs => hs⟩
@[simp] theorem Op.keepsMem_illegal_bind (f : α → Op β) : (illegal >>= f).keepsMem := ⟨fun _ hs => hs⟩

/-- An operation keeps memory canonical when the parts of its definition do. -/
theorem Op.keepsMem.of {y : Op α} (h : x = y) (hy : y.keepsMem := by
    try dsimp only
    repeat' first
      | with_reducible assumption
      | with_reducible exact Op.keepsMem_pure _
      | with_reducible exact Op.keepsMem_throw_bind ..
      | with_reducible exact Op.keepsMem_raise_bind ..
      | with_reducible exact Op.keepsMem_fail_bind ..
      | with_reducible exact Op.keepsMem_engine_bind ..
      | with_reducible exact Op.keepsMem_illegal_bind ..
      | with_reducible refine Op.keepsMem_ite (fun _ => ?_) fun _ => ?_
      | with_reducible refine Op.keepsMem_get_bind fun _ _ => ?_
      | with_reducible refine Op.keepsMem_bind ?_ fun _ => ?_
      | with_reducible refine Op.keepsMem_tryCatch ?_ fun _ => ?_
      | with_reducible refine Op.keepsMem_set ?_
      | with_reducible refine Op.keepsMem_modify fun _ _ => ?_
      | with_reducible refine Op.keepsMem_forIn (fun _ _ => ?_) _
      | with_reducible refine Op.keepsMem_forM (fun _ => ?_) _
      | with_reducible refine checkedRun_keepsMem (fun _ => ?_) ?_
      | with_reducible refine vecRun_keepsMem fun _ => ?_
      | with_reducible refine eachActive_keepsMem (fun _ => ?_) _ _
      | with_reducible refine scaleBody_keepsMem fun _ _ => ?_
      | with_reducible refine inMode_keepsMem ?_
      | with_reducible refine scratchRange_keepsMem fun _ _ => ?_
      | with_reducible refine ringOp_keepsMem fun _ _ _ => ?_
      | with_reducible refine trapOf_keepsMem ?_
      | with_reducible refine uncounted_keepsMem ?_
      | with_reducible refine cuCommand_keepsMem ?_
      | with_reducible refine ordered_keepsMem ?_
      | with_reducible refine attempt_keepsMem ?_
      | with_reducible refine onHart_keepsMem ?_
      | with_reducible refine command_keepsMem ?_
      | with_reducible refine quietly_keepsMem ?_
      | with_reducible exact vbody_keepsMem (by assumption) _
      | split
      | (simp [*]; done)
      | (simp only [State.memOk] at *; simp [*]; done)) : x.keepsMem := h ▸ hy
end

/-! ## The writes of memory -/

@[simp] theorem Memory.write_wf {m : List Host.Cell} (h : Memory.wf m = true) (a : Nat) (bs : List Byte) :
    Memory.wf (Memory.write m a bs) = true :=
  Memory.wf_write h a bs
@[simp] theorem putUnder_wf {m : List Host.Cell} (h : Memory.wf m = true) (c : Option (BitVec 512)) (k : Nat) (b : Byte) :
    Memory.wf (putUnder c m k b) = true := wf_putUnder h k b
@[simp] theorem writeUnder_wf {m : List Host.Cell} (h : Memory.wf m = true) (c : Option (BitVec 512)) (k : Nat) (bs : List Byte) :
    Memory.wf (writeUnder c m k bs) = true := wf_writeUnder h k bs

/-! ## Functions of the state that leave memory -/

@[simp] theorem State.mem_ite {c : Prop} [Decidable c] (s t : State) : (if c then s else t).mem = if c then s.mem else t.mem :=
  apply_ite ..
@[simp] theorem State.foldl_mem {α : Type} {f : State → α → State} (h : ∀ s a, (f s a).mem = s.mem) (l : List α) (s : State) :
    (l.foldl f s).mem = s.mem := by
  induction l generalizing s with
  | nil => rfl
  | cons a l ih => rw [List.foldl_cons, ih, h]

section
variable (s : State)
@[simp] theorem State.setHart_leaves_mem (h : Hart) : (s.setHart h).mem = s.mem := s.setHart_mem h
@[simp] theorem State.selectHart_leaves_mem (i : Nat) : (s.selectHart i).mem = s.mem := s.selectHart_mem i
@[simp] theorem State.setBlock_mem (l : Loc) (v : Block) : (s.setBlock l v).mem = s.mem := by cases l <;> simp [State.setBlock]
@[simp] theorem State.unpoison_mem (l : Loc) : (s.unpoison l).mem = s.mem := by
  unfold State.unpoison
  split
  · rfl
  · split <;> simp
@[simp] theorem State.setPoison_mem (l : Loc) (p : PoisonSite) : (s.setPoison l p).mem = s.mem := by
  unfold State.setPoison
  split
  · rfl
  · split <;> simp
@[simp] theorem clearVxi_mem : (clearVxi s).mem = s.mem := by simp [clearVxi]
@[simp] theorem cleanEnded_mem (n : Nat) : (cleanEnded n s).mem = s.mem := by
  unfold cleanEnded
  split <;> simp
@[simp] theorem State.resumed_mem : s.resumed.mem = s.mem := rfl
@[simp] theorem State.leave_mem (w : Writer) : (s.leave w).mem = s.mem := rfl
@[simp] theorem State.retireFrom_mem (w : Writer) (n : Nat) : (s.retireFrom w n).mem = s.mem := rfl
@[simp] theorem startClusterSave_mem (cl n : Nat) : (startClusterSave cl n s).mem = s.mem := rfl
@[simp] theorem preempt_mem (full forced : Bool) (pc : Word) (vxi : Nat) : (preempt full forced pc vxi s).mem = s.mem := by
  unfold preempt
  dsimp only
  split <;> simp
@[simp] theorem State.answered_mem (q : Nat) : (s.answered q).mem = s.mem := by simp [State.answered]
@[simp] theorem State.setLane_mem (h : Nat) (v : Word) : (s.setLane h v).mem = s.mem := rfl
end

@[simp] theorem fail_keepsMem {α} (w c a s) : (fail w c a s : Op α).keepsMem := ⟨fun _ hs => hs⟩
@[simp] theorem getH_keepsMem : getH.keepsMem := ⟨fun _ hs => hs⟩
@[simp] theorem modH_keepsMem (f) : (modH f).keepsMem := ⟨fun _ hs => hs⟩
@[simp] theorem illegal_keepsMem {α} : (illegal : Op α).keepsMem := ⟨fun _ hs => hs⟩
@[simp] theorem engine_keepsMem {α} (n va) : (engine n va : Op α).keepsMem := ⟨fun _ hs => hs⟩
@[simp] theorem illegalUnless_keepsMem (b) : (illegalUnless b).keepsMem := .of (illegalUnless.eq_def ..)
@[simp] theorem waitFor_keepsMem (b) : (waitFor b).keepsMem := .of (waitFor.eq_def ..)
@[simp] theorem onlyIf_keepsMem (b) : (onlyIf b).keepsMem := .of (onlyIf.eq_def ..)

end Sys2Proof.Machine
end

section
/-!
SUPPORT. Every operation of the model keeps memory in its canonical form, file by file, each because the parts of its definition do.
-/

namespace Sys2Proof.Machine

-- Elaborated in order: the tactic of `Op.keepsMem.of` waits for every declaration before it, so that elaborating them at once only
-- leaves threads waiting.
set_option Elab.async false

/-! ## Parts of the operations -/

@[simp] theorem readX_keepsMem (r : BitVec 5) : (readX r).keepsMem := .of (readX.eq_def ..)
@[simp] theorem writeX_keepsMem (r : BitVec 5) (v : Word) : (writeX r v).keepsMem := .of (writeX.eq_def ..)
@[simp] theorem advance_keepsMem (n : Nat) : (advance n).keepsMem := .of (advance.eq_def ..)
@[simp] theorem setPc_keepsMem (v : Word) : (setPc v).keepsMem := .of (setPc.eq_def ..)
@[simp] theorem draw_keepsMem : draw.keepsMem := .of (draw.eq_def ..)
@[simp] theorem modCluster_keepsMem (c : Nat) (f : Cluster → Cluster) : (modCluster c f).keepsMem := .of (modCluster.eq_def ..)
@[simp] theorem modQueue_keepsMem (q : Nat) (f : Queue → Queue) : (modQueue q f).keepsMem := .of (modQueue.eq_def ..)
@[simp] theorem release_keepsMem (by' : Agent) (sc : Scope) : (release by' sc).keepsMem := .of (release.eq_def ..)
@[simp] theorem acquire_keepsMem (u0 : Scope) : (acquire u0).keepsMem := .of (acquire.eq_def ..)
@[simp] theorem raiseMsix_keepsMem (v : Nat) : (raiseMsix v).keepsMem := .of (raiseMsix.eq_def ..)

/-! ## Accesses of memory -/

@[simp] theorem translate_keepsMem (w : Who) (kind : AKind) (user : Bool) (write amo : Bool) (root : Nat) (fa va : Word) :
    (translate w kind user write amo root fa va).keepsMem := .of (translate.eq_def ..)
@[simp] theorem placePlain_keepsMem (w : Who) (v : Option Via) (kind : AKind) (user write amo : Bool) (fa va : Word) :
    (placePlain w v kind user write amo fa va).keepsMem := .of (placePlain.eq_def ..)
@[simp] theorem placeByte_keepsMem (w : Who) (v : Option Via) (kind : AKind) (user write amo : Bool) (fa va : Word) :
    (placeByte w v kind user write amo fa va).keepsMem := .of (placeByte.eq_def ..)
@[simp] theorem placeQueue_keepsMem (w : Who) (q : Nat) (kind : AKind) (write amo : Bool) (fa va : Word) :
    (placeQueue w q kind write amo fa va).keepsMem := .of (placeQueue.eq_def ..)
@[simp] theorem placeOne_keepsMem (w : Who) (a : Access) (kind : AKind) (write amo : Bool) (fa va : Word) :
    (placeOne w a kind write amo fa va).keepsMem := .of (placeOne.eq_def ..)
@[simp] theorem placeBytes_keepsMem (w : Who) (a : Access) (kind : AKind) (write amo : Bool) (fa : Word) :
    ∀ (n : Nat) (k : Word), (placeBytes w a kind write amo fa k n).keepsMem
  | 0, _ => .of (placeBytes.eq_def ..)
  | n + 1, _ => by
    have ih := placeBytes_keepsMem w a kind write amo fa n
    exact .of (placeBytes.eq_def ..)
@[simp] theorem checkRemote_keepsMem (w : Who) (kind : AKind) (fa : Word) (ps : List (Loc × Option Phys)) :
    (checkRemote w kind fa ps).keepsMem := .of (checkRemote.eq_def ..)
@[simp] theorem readChecks_keepsMem (w : Who) (pol : PoisonPolicy) (fa : Word) (ps : List (Loc × Option Phys)) :
    (readChecks w pol fa ps).keepsMem := .of (readChecks.eq_def ..)
@[simp] theorem countPoison_keepsMem : countPoison.keepsMem := .of (countPoison.eq_def ..)
@[simp] theorem placeParts_keepsMem (w : Who) (a : Access) (kind : AKind) (write amo : Bool) (pol : PoisonPolicy) (fa : Word) :
    ∀ (ls : List Nat) (k : Word), (placeParts w a kind write amo pol fa k ls).keepsMem
  | [], _ => .of (placeParts.eq_def ..)
  | _ :: ns, _ => by
    have ih := placeParts_keepsMem w a kind write amo pol fa ns
    exact .of (placeParts.eq_def ..)
@[simp] theorem readUncounted_keepsMem (w : Who) (a : Access) (kind : AKind) (pol : PoisonPolicy) (va : Word) (n : Nat) :
    (readUncounted w a kind pol va n).keepsMem := .of (readUncounted.eq_def ..)
@[simp] theorem readBytes_keepsMem (w : Who) (a : Access) (kind : AKind) (pol : PoisonPolicy) (va : Word) (n : Nat) :
    (readBytes w a kind pol va n).keepsMem := .of (readBytes.eq_def ..)
@[simp] theorem writeLoc_keepsMem (k : Nat) (c : Option (BitVec 512)) (l : Loc) (b : Byte) : (writeLoc k c l b).keepsMem :=
  .of (writeLoc.eq_def ..)
@[simp] theorem clearPoison_keepsMem (ls : List Loc) : (clearPoison ls).keepsMem := .of (clearPoison.eq_def ..)
@[simp] theorem breakReservations_keepsMem (keys : List Nat) : (breakReservations keys).keepsMem := .of (breakReservations.eq_def ..)
@[simp] theorem breakRange_keepsMem (key n : Nat) : (breakRange key n).keepsMem := .of (breakRange.eq_def ..)
@[simp] theorem storePlaced_keepsMem (ps : List (Loc × Option Phys)) (bs : List Byte) : (storePlaced ps bs).keepsMem :=
  .of (storePlaced.eq_def ..)
@[simp] theorem writeAs_keepsMem (wr : Writer) (views : List Agent) (va : Word) (ps : List (Loc × Option Phys)) (bs : List Byte) :
    (writeAs wr views va ps bs).keepsMem := .of (writeAs.eq_def ..)
@[simp] theorem writePlaced_keepsMem (w : Who) (va : Word) (ps : List (Loc × Option Phys)) (bs : List Byte) :
    (writePlaced w va ps bs).keepsMem := .of (writePlaced.eq_def ..)

@[simp] theorem writeBytes_keepsMem (w : Who) (a : Access) (va : Word) (bs : List Byte) : (writeBytes w a va bs).keepsMem :=
  .of (writeBytes.eq_def ..)
@[simp] theorem memRead_keepsMem (w : Who) (va : Word) (n : Nat) : (memRead w va n).keepsMem := .of (memRead.eq_def ..)
@[simp] theorem memReadUncounted_keepsMem (w : Who) (va : Word) (n : Nat) : (memReadUncounted w va n).keepsMem :=
  .of (memReadUncounted.eq_def ..)
@[simp] theorem memWrite_keepsMem (w : Who) (va : Word) (n v : Nat) : (memWrite w va n v).keepsMem := .of (memWrite.eq_def ..)
@[simp] theorem memAmo_keepsMem (w : Who) (va : Word) (n : Nat) (f : Nat → Nat) : (memAmo w va n f).keepsMem := .of (memAmo.eq_def ..)

/-! ## Fetch -/

@[simp] theorem fetchHalf_keepsMem (a : Access) (pc va : Word) : (fetchHalf a pc va).keepsMem := .of (fetchHalf.eq_def ..)
@[simp] theorem fetchAt_keepsMem (a : Access) (pc : Word) : (fetchAt a pc).keepsMem := .of (fetchAt.eq_def ..)

/-! ## The front end's accesses and the runtime -/

@[simp] theorem qTranslate_keepsMem (q : Nat) (kind : AKind) (write amo : Bool) (va : Word) : (qTranslate q kind write amo va).keepsMem :=
  .of (qTranslate.eq_def ..)
@[simp] theorem qRead_keepsMem (q : Nat) : ∀ (n : Nat) (va : Word), (qRead q va n).keepsMem
  | 0, _ => .of (qRead.eq_def ..)
  | n + 1, _ => by
    have ih := qRead_keepsMem q n
    exact .of (qRead.eq_def ..)
@[simp] theorem qPlaces_keepsMem (q : Nat) : ∀ (n : Nat) (va : Word), (qPlaces q va n).keepsMem
  | 0, _ => .of (qPlaces.eq_def ..)
  | n + 1, _ => by
    have ih := qPlaces_keepsMem q n
    exact .of (qPlaces.eq_def ..)
@[simp] theorem qWrite_keepsMem (q : Nat) (va : Word) (bs : List Byte) : (qWrite q va bs).keepsMem := .of (qWrite.eq_def ..)

/-! ## Ends of launches and traps -/

theorem tryOp_memOk {α : Type} {x : Op α} {s : State} (hx : x.keepsMem) (hs : s.memOk) : (tryOp x s).2.memOk := by
  unfold tryOp
  split
  · exact hx.ok hs ‹_›
  · exact hs
@[simp] theorem tryOp_wf {α : Type} {x : Op α} {s : State} (hx : x.keepsMem) (hs : Memory.wf s.mem = true) :
    Memory.wf (tryOp x s).2.mem = true := tryOp_memOk hx hs

section
variable {s : State} (hs : Memory.wf s.mem = true)
include hs
@[simp] theorem queueError_wf (q i p c d : Nat) : Memory.wf (queueError q i p c d s).mem = true := by
  unfold queueError
  dsimp only
  split
  · exact hs
  · exact tryOp_memOk (qWrite_keepsMem ..) hs
@[simp] theorem endLaunch_wf (n c : Nat) : Memory.wf (endLaunch n c s).mem = true := by
  unfold endLaunch
  split
  · exact hs
  · refine queueError_wf ?_ ..
    have hleave : ∀ (ws : List Writer) (u : State), (ws.foldl (fun s w => s.leave w) u).mem = u.mem := State.foldl_mem fun _ _ => rfl
    exact (congrArg Memory.wf (hleave _ _)).trans hs
@[simp] theorem endOwnLaunch_wf (c : Nat) : Memory.wf (endOwnLaunch c s).mem = true := by
  unfold endOwnLaunch
  split <;> simp [hs]
@[simp] theorem serveHookret_wf : Memory.wf (serveHookret s).mem = true := by
  unfold serveHookret
  split <;> simp [hs]
@[simp] theorem serveAbort_wf : Memory.wf (serveAbort s).mem = true := by
  unfold serveAbort
  split <;> simp [hs]
end
@[simp] theorem serveHookset_mem (s : State) : (serveHookset s).mem = s.mem := by simp [serveHookset]
@[simp] theorem serve_wf {s t : State} (hs : Memory.wf s.mem = true) (ht : Memory.wf t.mem = true) : Memory.wf (serve s t).mem = true := by
  unfold serve
  split <;> simp [hs, ht, serveUnknown]
@[simp] theorem deliver_wf {s : State} (hs : Memory.wf s.mem = true) (e : Trap) : Memory.wf (deliver e s).mem = true := by
  unfold deliver
  dsimp only
  split
  · split <;> simp [hs]
  · split <;> simp [hs]

/-! ## Elements of the vector unit -/

@[simp] theorem blurGroup_keepsMem (vd : BitVec 5) (written : Bool) : (blurGroup vd written).keepsMem := .of (blurGroup.eq_def ..)
@[simp] theorem coreOut_keepsMem (pc : Word) (k : Nat) : (coreOut pc k).keepsMem := .of (coreOut.eq_def ..)
@[simp] theorem stopBefore_keepsMem {body : Nat → Op Unit} (hb : ∀ k, (body k).keepsMem) (step n k : Nat) (pc : Word) :
    (stopBefore step n k pc body).keepsMem := .of (stopBefore.eq_def ..)
theorem weevil_keepsMem {body : Nat → Op Unit} (hb :
    ∀ k, (body k).keepsMem) {run : Op Unit} (hr : run.keepsMem) {step n : Nat} {pc : Word} :
    ∀ fuel low, (weevil step n pc body run fuel low).keepsMem
  | 0, _ => hr
  | fuel + 1, _ => by
    have ih := weevil_keepsMem hb hr (step := step) (n := n) (pc := pc) fuel
    exact .of (weevil.eq_def ..)
theorem checkedRun_keepsMem {body : Nat → Op Unit} (hb :
    ∀ k, (body k).keepsMem) {run : Op Unit} (hr : run.keepsMem) {unit : VUnit} {step n : Nat}
    {pc : Word} : (checkedRun unit step n pc body run).keepsMem := by
  have hw := weevil_keepsMem hb hr (step := step) (n := n) (pc := pc)
  exact .of (checkedRun.eq_def ..)
theorem vecRun_keepsMem {body : Nat → Op Unit} (hb : ∀ k, (body k).keepsMem) {unit : VUnit} {step n : Nat} {pc : Word} :
    (vecRun unit step n pc body).keepsMem := .of (vecRun.eq_def ..)
@[simp] theorem joinConvoy_keepsMem (unit : VUnit) (c : Bool) : (joinConvoy unit c).keepsMem := .of (joinConvoy.eq_def ..)
@[simp] theorem vecChecks_keepsMem (unit : VUnit) (c : Bool) (regs : List (BitVec 5)) (eb : Nat) (suits : Hart → Bool) :
    (vecChecks unit c regs eb suits).keepsMem := .of (vecChecks.eq_def ..)
@[simp] theorem vctx_keepsMem : vctx.keepsMem := .of (vctx.eq_def ..)
@[simp] theorem lanewise_keepsMem (unit : VUnit) (c : Bool) (pg : BitVec 3) (vd : BitVec 5) (regs : List (BitVec 5)) (eb ebMax : Nat)
    (suits : Hart → Bool) (f : VCtx → Nat → ElemRes) :
    (lanewise unit c pg vd regs eb ebMax suits f).keepsMem := .of (lanewise.eq_def ..)
@[simp] theorem wholewise_keepsMem (unit : VUnit) (c : Bool) (pg : BitVec 3) (vd : BitVec 5) (regs : List (BitVec 5))
    (suits : Hart → Bool) (f : VCtx → Nat → ElemRes) (writes : VCtx → Nat → Bool) :
    (wholewise unit c pg vd regs suits f writes).keepsMem := .of (wholewise.eq_def ..)

/-! ## VFLT -/

@[simp] theorem vflt_keepsMem (cb : Bool) (pg : BitVec 3) (vd : BitVec 5) (regs : List (BitVec 5)) (g : VCtx → Nat → ElemRes) :
    (vflt cb pg vd regs g).keepsMem := .of (vflt.eq_def ..)
@[simp] theorem vflt2_keepsMem (v : VOp) (f : Rm → Fx → Fx → Fx × FlagSet) (c : Cap) : (vflt2 v f c).keepsMem := .of (vflt2.eq_def ..)
@[simp] theorem vfaddBody_keepsMem (v : VOp) (a0 : Cap) : (vfaddBody v a0).keepsMem := vflt2_keepsMem ..
@[simp] theorem vfsubBody_keepsMem (v : VOp) (a0 : Cap) : (vfsubBody v a0).keepsMem := vflt2_keepsMem ..
@[simp] theorem vfmulBody_keepsMem (v : VOp) (a0 : Cap) : (vfmulBody v a0).keepsMem := vflt2_keepsMem ..
@[simp] theorem vfdivBody_keepsMem (v : VOp) (a0 : Cap) : (vfdivBody v a0).keepsMem := vflt2_keepsMem ..
@[simp] theorem vflt3_keepsMem (v : VOp) (negP negD : Bool) (c : Cap) : (vflt3 v negP negD c).keepsMem := .of (vflt3.eq_def ..)
@[simp] theorem vfmaBody_keepsMem (v : VOp) (a0 : Cap) : (vfmaBody v a0).keepsMem := vflt3_keepsMem ..
@[simp] theorem vfmsBody_keepsMem (v : VOp) (a0 : Cap) : (vfmsBody v a0).keepsMem := vflt3_keepsMem ..
@[simp] theorem vfnmaBody_keepsMem (v : VOp) (a0 : Cap) : (vfnmaBody v a0).keepsMem := vflt3_keepsMem ..
@[simp] theorem vfminmax_keepsMem (v : VOp) (isMax : Bool) (c : Cap) : (vfminmax v isMax c).keepsMem := .of (vfminmax.eq_def ..)
@[simp] theorem vfminBody_keepsMem (v : VOp) (a0 : Cap) : (vfminBody v a0).keepsMem := vfminmax_keepsMem ..
@[simp] theorem vfmaxBody_keepsMem (v : VOp) (a0 : Cap) : (vfmaxBody v a0).keepsMem := vfminmax_keepsMem ..
@[simp] theorem vfsgnjBody_keepsMem (v : VOp) (c : Cap) : (vfsgnjBody v c).keepsMem := .of (vfsgnjBody.eq_def ..)
@[simp] theorem vfsign_keepsMem (u : UOp) (f : Bool → Bool) : (vfsign u f).keepsMem := .of (vfsign.eq_def ..)
@[simp] theorem vfabsBody_keepsMem (u : UOp) : (vfabsBody u).keepsMem := .of (vfabsBody.eq_def ..)
@[simp] theorem vfnegBody_keepsMem (u : UOp) : (vfnegBody u).keepsMem := .of (vfnegBody.eq_def ..)
@[simp] theorem vfscaleBody_keepsMem (v : VOp) (c : Cap) : (vfscaleBody v c).keepsMem := .of (vfscaleBody.eq_def ..)
@[simp] theorem vflt1_keepsMem (u : UOp) (f : Rm → Fx → Fx × FlagSet) : (vflt1 u f).keepsMem := .of (vflt1.eq_def ..)
@[simp] theorem vfsqrtBody_keepsMem (u : UOp) : (vfsqrtBody u).keepsMem := .of (vfsqrtBody.eq_def ..)
@[simp] theorem vfexp2Body_keepsMem (u : UOp) : (vfexp2Body u).keepsMem := .of (vfexp2Body.eq_def ..)
@[simp] theorem vfrndBody_keepsMem (u : UOp) : (vfrndBody u).keepsMem := .of (vfrndBody.eq_def ..)
@[simp] theorem vfsclBody_keepsMem (v : VOp) (c : Cap) : (vfsclBody v c).keepsMem := .of (vfsclBody.eq_def ..)

/-! ## VINT -/

@[simp] theorem vint_keepsMem (v : VOp) (sg : Bool) (f : Nat → Nat → Nat → Nat × FlagSet) (c : Cap) : (vint v sg f c).keepsMem :=
  .of (y := do
    let h ← getH
    lanewise .vint v.c v.pg v.vd (v.vs2 :: srcRegs v.b) h.eb h.eb anyType _) rfl
@[simp] theorem vaddBody_keepsMem (v : VOp) (a0 : Cap) : (vaddBody v a0).keepsMem := vint_keepsMem ..
@[simp] theorem vsubBody_keepsMem (v : VOp) (a0 : Cap) : (vsubBody v a0).keepsMem := vint_keepsMem ..
@[simp] theorem vmulBody_keepsMem (v : VOp) (a0 : Cap) : (vmulBody v a0).keepsMem := vint_keepsMem ..
@[simp] theorem vmulhBody_keepsMem (v : VOp) (a0 : Cap) : (vmulhBody v a0).keepsMem := vint_keepsMem ..
@[simp] theorem vminBody_keepsMem (v : VOp) (a0 : Cap) : (vminBody v a0).keepsMem := vint_keepsMem ..
@[simp] theorem vmaxBody_keepsMem (v : VOp) (a0 : Cap) : (vmaxBody v a0).keepsMem := vint_keepsMem ..
@[simp] theorem vminuBody_keepsMem (v : VOp) (a0 : Cap) : (vminuBody v a0).keepsMem := vint_keepsMem ..
@[simp] theorem vmaxuBody_keepsMem (v : VOp) (a0 : Cap) : (vmaxuBody v a0).keepsMem := vint_keepsMem ..
@[simp] theorem vandBody_keepsMem (v : VOp) (a0 : Cap) : (vandBody v a0).keepsMem := vint_keepsMem ..
@[simp] theorem vorBody_keepsMem (v : VOp) (a0 : Cap) : (vorBody v a0).keepsMem := vint_keepsMem ..
@[simp] theorem vxorBody_keepsMem (v : VOp) (a0 : Cap) : (vxorBody v a0).keepsMem := vint_keepsMem ..
@[simp] theorem vsllBody_keepsMem (v : VOp) (a0 : Cap) : (vsllBody v a0).keepsMem := vint_keepsMem ..
@[simp] theorem vsrlBody_keepsMem (v : VOp) (a0 : Cap) : (vsrlBody v a0).keepsMem := vint_keepsMem ..
@[simp] theorem vsraBody_keepsMem (v : VOp) (a0 : Cap) : (vsraBody v a0).keepsMem := vint_keepsMem ..
@[simp] theorem vsaddBody_keepsMem (v : VOp) (a0 : Cap) : (vsaddBody v a0).keepsMem := vint_keepsMem ..
@[simp] theorem vbfxBody_keepsMem (v : VOp) (a0 : Cap) : (vbfxBody v a0).keepsMem := vint_keepsMem ..
@[simp] theorem vcount_keepsMem (u : UOp) (f : Nat → Nat → Nat) : (vcount u f).keepsMem := .of (vcount.eq_def ..)
@[simp] theorem vpopcBody_keepsMem (u : UOp) : (vpopcBody u).keepsMem := .of (vpopcBody.eq_def ..)
@[simp] theorem vclzBody_keepsMem (u : UOp) : (vclzBody u).keepsMem := .of (vclzBody.eq_def ..)
@[simp] theorem vfunnel_keepsMem (u : UOp) (f : Nat → Nat → Nat → Nat → Nat) : (vfunnel u f).keepsMem := .of (vfunnel.eq_def ..)
@[simp] theorem vfshlBody_keepsMem (u : UOp) : (vfshlBody u).keepsMem := .of (vfshlBody.eq_def ..)
@[simp] theorem vfshrBody_keepsMem (u : UOp) : (vfshrBody u).keepsMem := .of (vfshrBody.eq_def ..)

/-! ## VPRM -/

@[simp] theorem compare_keepsMem (v : VOp) (signedImm : Bool) (suits : Hart → Bool) (f : VCtx → Nat → Nat → Bool × FlagSet) (c : Cap) :
    (compare v signedImm suits f c).keepsMem := .of (compare.eq_def ..)
@[simp] theorem intCompare_keepsMem (v : VOp) (signedImm : Bool) (f : Nat → Nat → Nat → Bool) (c : Cap) :
    (intCompare v signedImm f c).keepsMem := .of (intCompare.eq_def ..)
@[simp] theorem vcmpeqBody_keepsMem (v : VOp) (a0 : Cap) : (vcmpeqBody v a0).keepsMem := intCompare_keepsMem ..
@[simp] theorem vcmpneBody_keepsMem (v : VOp) (a0 : Cap) : (vcmpneBody v a0).keepsMem := intCompare_keepsMem ..
@[simp] theorem vcmpltBody_keepsMem (v : VOp) (a0 : Cap) : (vcmpltBody v a0).keepsMem := intCompare_keepsMem ..
@[simp] theorem vcmpleBody_keepsMem (v : VOp) (a0 : Cap) : (vcmpleBody v a0).keepsMem := intCompare_keepsMem ..
@[simp] theorem vcmpltuBody_keepsMem (v : VOp) (a0 : Cap) : (vcmpltuBody v a0).keepsMem := intCompare_keepsMem ..
@[simp] theorem vcmpleuBody_keepsMem (v : VOp) (a0 : Cap) : (vcmpleuBody v a0).keepsMem := intCompare_keepsMem ..
@[simp] theorem vfcmpltBody_keepsMem (v : VOp) (a0 : Cap) : (vfcmpltBody v a0).keepsMem := compare_keepsMem ..
@[simp] theorem vfcmpleBody_keepsMem (v : VOp) (a0 : Cap) : (vfcmpleBody v a0).keepsMem := compare_keepsMem ..
@[simp] theorem vcompressBody_keepsMem (u : UOp) (ps : BitVec 5) : (vcompressBody u ps).keepsMem := .of (vcompressBody.eq_def ..)
@[simp] theorem vslideupBody_keepsMem (v : VOp) (c : Cap) : (vslideupBody v c).keepsMem := .of (vslideupBody.eq_def ..)
@[simp] theorem vslidednBody_keepsMem (v : VOp) (c : Cap) : (vslidednBody v c).keepsMem := .of (vslidednBody.eq_def ..)
@[simp] theorem vgatherBody_keepsMem (v : VOp) (c : Cap) : (vgatherBody v c).keepsMem := .of (vgatherBody.eq_def ..)
@[simp] theorem vtransBody_keepsMem (u : UOp) : (vtransBody u).keepsMem := .of (vtransBody.eq_def ..)
@[simp] theorem viotaBody_keepsMem (u : UOp) : (viotaBody u).keepsMem := .of (viotaBody.eq_def ..)
@[simp] theorem vidBody_keepsMem (u : UOp) : (vidBody u).keepsMem := .of (vidBody.eq_def ..)
@[simp] theorem vmvBody_keepsMem (v : VOp) (c : Cap) : (vmvBody v c).keepsMem := .of (vmvBody.eq_def ..)
@[simp] theorem vcvtBody_keepsMem (u : UOp) (t : EType) : (vcvtBody u t).keepsMem := .of (vcvtBody.eq_def ..)
@[simp] theorem reduce_keepsMem (u : UOp) (suits : Hart → Bool) (op : VCtx → Nat → Nat → Nat × FlagSet) : (reduce u suits op).keepsMem :=
  .of (reduce.eq_def ..)
@[simp] theorem vredsumBody_keepsMem (u : UOp) : (vredsumBody u).keepsMem := .of (vredsumBody.eq_def ..)
@[simp] theorem vredmaxBody_keepsMem (u : UOp) : (vredmaxBody u).keepsMem := .of (vredmaxBody.eq_def ..)
@[simp] theorem vredminBody_keepsMem (u : UOp) : (vredminBody u).keepsMem := .of (vredminBody.eq_def ..)
@[simp] theorem vfredsumBody_keepsMem (u : UOp) : (vfredsumBody u).keepsMem := .of (vfredsumBody.eq_def ..)
@[simp] theorem vfredmaxBody_keepsMem (u : UOp) : (vfredmaxBody u).keepsMem := .of (vfredmaxBody.eq_def ..)

/-! ## VMEM -/

@[simp] theorem tensorAddr_keepsMem (e : Nat) (d : BitVec 512) (dva : Word) (g : List Nat) : (tensorAddr e d dva g).keepsMem :=
  .of (tensorAddr.eq_def ..)
@[simp] theorem elemAddr_keepsMem (x : VCtx) (c : Cap) (m : VMode) (mb e : Nat) : (elemAddr x c m mb e).keepsMem := .of (elemAddr.eq_def ..)
theorem eachActive_keepsMem {act : Nat → Bool} {f : Nat → Op Unit} (hf : ∀ e, (f e).keepsMem) : ∀ n e, (eachActive act f n e).keepsMem
  | 0, _ => .of (eachActive.eq_def ..)
  | n + 1, _ => by
    have ih := eachActive_keepsMem (act := act) hf n
    exact .of (eachActive.eq_def ..)
@[simp] theorem loadElem_keepsMem (x : VCtx) (m : MOp) (c : Cap) (e : Nat) : (loadElem x m c e).keepsMem := .of (loadElem.eq_def ..)
@[simp] theorem vldBody_keepsMem (m : MOp) (c : Cap) : (vldBody m c).keepsMem := .of (vldBody.eq_def ..)
@[simp] theorem writeElem_keepsMem (w : Who) (act : Nat → Bool) (addr : Nat → Op (Option Word)) (mb e : Nat) (va : Word) (v : Nat) :
    (writeElem w act addr mb e va v).keepsMem := .of (writeElem.eq_def ..)
@[simp] theorem storeElem_keepsMem (x : VCtx) (m : MOp) (c : Cap) (e : Nat) : (storeElem x m c e).keepsMem := .of (storeElem.eq_def ..)
@[simp] theorem vstBody_keepsMem (m : MOp) (c : Cap) : (vstBody m c).keepsMem := .of (vstBody.eq_def ..)
@[simp] theorem streamRead_keepsMem (q : Nat) (va : Word) (n : Nat) : (streamRead q va n).keepsMem := .of (streamRead.eq_def ..)
@[simp] theorem streamUsed_keepsMem (base : Word) (mb budget at' : Nat) :
    ∀ (n : Nat) (k : Nat) (i : Nat), (streamUsed base mb budget at' n k i).keepsMem
  | 0, _, _ => .of (streamUsed.eq_def ..)
  | n + 1, _, _ => by
    have ih := streamUsed_keepsMem base mb budget at' n
    exact .of (streamUsed.eq_def ..)
@[simp] theorem groupReads_keepsMem (q mb mask : Nat) (skip : Nat → Bool) :
    ∀ (n : Nat) (k : Nat) (i : Word), (groupReads q mb mask skip n k i).keepsMem
  | 0, _, _ => .of (groupReads.eq_def ..)
  | n + 1, _, _ => by
    have ih := groupReads_keepsMem q mb mask skip n
    exact .of (groupReads.eq_def ..)
@[simp] theorem setVcbytes_keepsMem (used q : Nat) : (setVcbytes used q).keepsMem := .of (setVcbytes.eq_def ..)
@[simp] theorem streamGroups_keepsMem (x : VCtx) (m : MOp) (c : Cap) (stop : Nat) :
    ∀ (n : Nat) (k : Nat) (i : Nat), (streamGroups x m c stop n k i).keepsMem
  | 0, _, _ => .of (streamGroups.eq_def ..)
  | n + 1, _, _ => by
    have ih := streamGroups_keepsMem x m c stop n
    exact .of (streamGroups.eq_def ..)
@[simp] theorem vldcBody_keepsMem (m : MOp) (c : Cap) : (vldcBody m c).keepsMem := .of (vldcBody.eq_def ..)
theorem scaleBody_keepsMem {f : Nat → Word → Op Unit} (hf : ∀ b a, (f b a).keepsMem) {m : SOp} {c : Cap} : (scaleBody m c f).keepsMem :=
  .of (scaleBody.eq_def ..)
@[simp] theorem vlscBody_keepsMem (m : SOp) (c : Cap) : (vlscBody m c).keepsMem := .of (vlscBody.eq_def ..)
@[simp] theorem vsscBody_keepsMem (m : SOp) (c : Cap) : (vsscBody m c).keepsMem := .of (vsscBody.eq_def ..)
@[simp] theorem vamoElem_keepsMem (a : VAmo) (x : VCtx) (m : MOp) (c : Cap) (e : Nat) : (vamoElem a x m c e).keepsMem :=
  .of (vamoElem.eq_def ..)
@[simp] theorem vamoBody_keepsMem (a : VAmo) (m : MOp) (c : Cap) : (vamoBody a m c).keepsMem := .of (vamoBody.eq_def ..)
@[simp] theorem vamoaddBody_keepsMem (m : MOp) (a0 : Cap) : (vamoaddBody m a0).keepsMem := vamoBody_keepsMem ..
@[simp] theorem vamomaxBody_keepsMem (m : MOp) (a0 : Cap) : (vamomaxBody m a0).keepsMem := vamoBody_keepsMem ..
@[simp] theorem vamominBody_keepsMem (m : MOp) (a0 : Cap) : (vamominBody m a0).keepsMem := vamoBody_keepsMem ..

/-! ## PRED -/

@[simp] theorem predWrite_keepsMem (pd : BitVec 6) (f : Hart → Nat → Bool) : (predWrite pd f).keepsMem := .of (predWrite.eq_def ..)
@[simp] theorem pandBody_keepsMem (pd ps1 ps2 : BitVec 6) : (pandBody pd ps1 ps2).keepsMem := .of (pandBody.eq_def ..)
@[simp] theorem porBody_keepsMem (pd ps1 ps2 : BitVec 6) : (porBody pd ps1 ps2).keepsMem := .of (porBody.eq_def ..)
@[simp] theorem pxorBody_keepsMem (pd ps1 ps2 : BitVec 6) : (pxorBody pd ps1 ps2).keepsMem := .of (pxorBody.eq_def ..)
@[simp] theorem pandnBody_keepsMem (pd ps1 ps2 : BitVec 6) : (pandnBody pd ps1 ps2).keepsMem := .of (pandnBody.eq_def ..)
@[simp] theorem pnotBody_keepsMem (pd ps1 : BitVec 6) : (pnotBody pd ps1).keepsMem := .of (pnotBody.eq_def ..)
@[simp] theorem pmovBody_keepsMem (pd ps1 : BitVec 6) : (pmovBody pd ps1).keepsMem := .of (pmovBody.eq_def ..)
@[simp] theorem psetnBody_keepsMem (pd : BitVec 6) (c : Cap) : (psetnBody pd c).keepsMem := .of (psetnBody.eq_def ..)
@[simp] theorem pwhileBody_keepsMem (cond : WhileCond) (pd : BitVec 6) (c : Cap) : (pwhileBody cond pd c).keepsMem :=
  .of (pwhileBody.eq_def ..)
@[simp] theorem predRead_keepsMem (rd : BitVec 5) (f : Hart → Word) : (predRead rd f).keepsMem := .of (predRead.eq_def ..)
@[simp] theorem predBranch_keepsMem (ps : BitVec 6) (off : BitVec 16) (test : Nat → Nat → Bool) : (predBranch ps off test).keepsMem :=
  .of (predBranch.eq_def ..)

/-! ## Clauses -/

theorem vbody_keepsMem {i : Instr} {f : Cap → Op Unit} (h : vbody i = some f) (c : Cap) : (f c).keepsMem := by
  unfold vbody at h
  split at h
  case h_76 => cases h
  all_goals
    cases h
    simp
@[simp] theorem captureWord_keepsMem (clausePc va : Word) : (captureWord clausePc va).keepsMem := .of (captureWord.eq_def ..)
@[simp] theorem captureWords_keepsMem (pc : Word) : ∀ (n : Nat) (k : Nat), (captureWords pc n k).keepsMem
  | 0, _ => .of (captureWords.eq_def ..)
  | n + 1, _ => by
    have ih := captureWords_keepsMem pc n
    exact .of (captureWords.eq_def ..)
@[simp] theorem clauseOp_keepsMem (xm xt nm1 : BitVec 5) : (clauseOp xm xt nm1).keepsMem := .of (clauseOp.eq_def ..)
@[simp] theorem modClause_keepsMem (f : Clause → Clause) : (modClause f).keepsMem := .of (modClause.eq_def ..)
@[simp] theorem bodyWord_keepsMem (c : Clause) (o : ClauseOp) (k : Nat) : (bodyWord c o k).keepsMem := .of (bodyWord.eq_def ..)
@[simp] theorem bodyFrom_keepsMem (c : Clause) : ∀ (ls : List ClauseOp) (k : Nat), (bodyFrom c ls k).keepsMem
  | [], _ => .of (bodyFrom.eq_def ..)
  | _ :: os, _ => by
    have ih := bodyFrom_keepsMem c os
    exact .of (bodyFrom.eq_def ..)
theorem inMode_keepsMem {x : Op Unit} (hx : x.keepsMem) {m : Mode} : (inMode m x).keepsMem := .of (inMode.eq_def ..)
@[simp] theorem clausePass_keepsMem (cont : Word) : (clausePass cont).keepsMem := .of (clausePass.eq_def ..)
@[simp] theorem clausePasses_keepsMem : ∀ (n : Nat), (clausePasses n).keepsMem
  | 0 => .of (clausePasses.eq_def ..)
  | n + 1 => by
    have ih := clausePasses_keepsMem n
    exact .of (clausePasses.eq_def ..)
@[simp] theorem clputOp_keepsMem (rd rs1 rs2 : BitVec 5) : (clputOp rd rs1 rs2).keepsMem := .of (clputOp.eq_def ..)
@[simp] theorem clwaitOp_keepsMem (rd rs1 : BitVec 5) : (clwaitOp rd rs1).keepsMem := .of (clwaitOp.eq_def ..)

/-! ## Engines -/

/-! ## CSRs -/

@[simp] theorem undefVector_keepsMem : undefVector.keepsMem := .of (undefVector.eq_def ..)
@[simp] theorem undefMasks_keepsMem : undefMasks.keepsMem := .of (undefMasks.eq_def ..)
@[simp] theorem undefDescriptors_keepsMem : undefDescriptors.keepsMem := .of (undefDescriptors.eq_def ..)
@[simp] theorem setBoundaries_keepsMem (v c s vm : Nat) : (setBoundaries v c s vm).keepsMem := .of (setBoundaries.eq_def ..)
@[simp] theorem writeBoundaries_keepsMem (v c s vm : Nat) : (writeBoundaries v c s vm).keepsMem := .of (writeBoundaries.eq_def ..)
@[simp] theorem writeVtype_keepsMem (v : Word) : (writeVtype v).keepsMem := .of (writeVtype.eq_def ..)
@[simp] theorem writeMfc_keepsMem (v : Word) : (writeMfc v).keepsMem := .of (writeMfc.eq_def ..)
@[simp] theorem writeVxi_keepsMem (v : Word) : (writeVxi v).keepsMem := .of (writeVxi.eq_def ..)
@[simp] theorem writeVvalid_keepsMem (v : Word) : (writeVvalid v).keepsMem := .of (writeVvalid.eq_def ..)
@[simp] theorem writeBd_keepsMem (n : Nat) (v : Word) : (writeBd n v).keepsMem := .of (writeBd.eq_def ..)
@[simp] theorem writePoolv_keepsMem (v : Word) : (writePoolv v).keepsMem := .of (writePoolv.eq_def ..)
@[simp] theorem writePools_keepsMem (v : Word) : (writePools v).keepsMem := .of (writePools.eq_def ..)
@[simp] theorem writePoolc_keepsMem (v : Word) : (writePoolc v).keepsMem := .of (writePoolc.eq_def ..)
@[simp] theorem writeMinstret_keepsMem (v : Word) : (writeMinstret v).keepsMem := .of (writeMinstret.eq_def ..)
@[simp] theorem csrWrite_keepsMem (a : Nat) (v : Word) : (csrWrite a v).keepsMem := .of (csrWrite.eq_def ..)
@[simp] theorem csrInstr_keepsMem (a : Nat) (acc : CsrAcc) : (csrInstr a acc).keepsMem := .of (csrInstr.eq_def ..)
@[simp] theorem csrReadOp_keepsMem (rd : BitVec 5) (a : Nat) : (csrReadOp rd a).keepsMem := .of (csrReadOp.eq_def ..)

/-! ## Scalar floating point -/

@[simp] theorem writeF_keepsMem (f : FFmt) (r : BitVec 5) (v : Nat) : (writeF f r v).keepsMem := .of (writeF.eq_def ..)
@[simp] theorem accrueScalar_keepsMem (fl : FlagSet) : (accrueScalar fl).keepsMem := .of (accrueScalar.eq_def ..)
@[simp] theorem needFs_keepsMem : needFs.keepsMem := .of (needFs.eq_def ..)
@[simp] theorem roundingMode_keepsMem (rm : BitVec 3) : (roundingMode rm).keepsMem := .of (roundingMode.eq_def ..)
@[simp] theorem writeRounded_keepsMem (f : FFmt) (r : BitVec 5) (m : Rm) (x : Fx × FlagSet) : (writeRounded f r m x).keepsMem :=
  .of (writeRounded.eq_def ..)
@[simp] theorem farith_keepsMem (op : FOp) (f : FFmt) (rm : BitVec 3) (rd rs1 rs2 : BitVec 5) : (farith op f rm rd rs1 rs2).keepsMem :=
  .of (farith.eq_def ..)
@[simp] theorem fsqrtOp_keepsMem (f : FFmt) (rm : BitVec 3) (rd rs1 : BitVec 5) : (fsqrtOp f rm rd rs1).keepsMem := .of (fsqrtOp.eq_def ..)
@[simp] theorem fmaOp_keepsMem (op : FmaOp) (f : FFmt) (rm : BitVec 3) (rd rs1 rs2 rs3 : BitVec 5) :
    (fmaOp op f rm rd rs1 rs2 rs3).keepsMem := .of (fmaOp.eq_def ..)
@[simp] theorem fsgnjOp_keepsMem (op : FSgn) (f : FFmt) (rd rs1 rs2 : BitVec 5) : (fsgnjOp op f rd rs1 rs2).keepsMem :=
  .of (fsgnjOp.eq_def ..)
@[simp] theorem fminmaxOp_keepsMem (isMax : Bool) (f : FFmt) (rd rs1 rs2 : BitVec 5) : (fminmaxOp isMax f rd rs1 rs2).keepsMem :=
  .of (fminmaxOp.eq_def ..)
@[simp] theorem fcmpOp_keepsMem (op : FCmp) (f : FFmt) (rd rs1 rs2 : BitVec 5) : (fcmpOp op f rd rs1 rs2).keepsMem := .of (fcmpOp.eq_def ..)
@[simp] theorem fclassOp_keepsMem (f : FFmt) (rd rs1 : BitVec 5) : (fclassOp f rd rs1).keepsMem := .of (fclassOp.eq_def ..)
@[simp] theorem fcvtFFOp_keepsMem (dst src : FFmt) (rm : BitVec 3) (rd rs1 : BitVec 5) : (fcvtFFOp dst src rm rd rs1).keepsMem :=
  .of (fcvtFFOp.eq_def ..)
@[simp] theorem fcvtIFOp_keepsMem (dst : IFmt) (f : FFmt) (rm : BitVec 3) (rd rs1 : BitVec 5) : (fcvtIFOp dst f rm rd rs1).keepsMem :=
  .of (fcvtIFOp.eq_def ..)
@[simp] theorem fcvtFIOp_keepsMem (f : FFmt) (src : IFmt) (rm : BitVec 3) (rd rs1 : BitVec 5) : (fcvtFIOp f src rm rd rs1).keepsMem :=
  .of (fcvtFIOp.eq_def ..)
@[simp] theorem fmvXFOp_keepsMem (f : FFmt) (rd rs1 : BitVec 5) : (fmvXFOp f rd rs1).keepsMem := .of (fmvXFOp.eq_def ..)
@[simp] theorem fmvFXOp_keepsMem (f : FFmt) (rd rs1 : BitVec 5) : (fmvFXOp f rd rs1).keepsMem := .of (fmvFXOp.eq_def ..)
@[simp] theorem floadOp_keepsMem (f : FFmt) (rd rs1 : BitVec 5) (imm : BitVec 12) : (floadOp f rd rs1 imm).keepsMem :=
  .of (floadOp.eq_def ..)
@[simp] theorem fstoreOp_keepsMem (f : FFmt) (rs1 rs2 : BitVec 5) (imm : BitVec 12) : (fstoreOp f rs1 rs2 imm).keepsMem :=
  .of (fstoreOp.eq_def ..)

/-! ## Scalar instructions -/

@[simp] theorem amoOp_keepsMem (op : AmoOp) (dbl aq rl : Bool) (rd rs1 rs2 : BitVec 5) : (amoOp op dbl aq rl rd rs1 rs2).keepsMem :=
  .of (amoOp.eq_def ..)
@[simp] theorem lrOp_keepsMem (dbl aq rl : Bool) (rd rs1 : BitVec 5) : (lrOp dbl aq rl rd rs1).keepsMem := .of (lrOp.eq_def ..)
@[simp] theorem scOp_keepsMem (dbl aq rl : Bool) (rd rs1 rs2 : BitVec 5) : (scOp dbl aq rl rd rs1 rs2).keepsMem := .of (scOp.eq_def ..)
@[simp] theorem jumpTo_keepsMem (rd : BitVec 5) (link target : Word) : (jumpTo rd link target).keepsMem := .of (jumpTo.eq_def ..)
@[simp] theorem rvOp_keepsMem (op : Rv) (n : Nat) : (rvOp op n).keepsMem := .of (rvOp.eq_def ..)
@[simp] theorem mretOp_keepsMem : mretOp.keepsMem := .of (mretOp.eq_def ..)

/-! ## Control -/

@[simp] theorem undefAll_keepsMem : undefAll.keepsMem := .of (undefAll.eq_def ..)
@[simp] theorem vshapeOp_keepsMem (rd rs1 rs2 : BitVec 5) : (vshapeOp rd rs1 rs2).keepsMem := .of (vshapeOp.eq_def ..)
@[simp] theorem vsettOp_keepsMem (rd rs1 : BitVec 5) : (vsettOp rd rs1).keepsMem := .of (vsettOp.eq_def ..)
@[simp] theorem undefClause_keepsMem : undefClause.keepsMem := .of (undefClause.eq_def ..)
@[simp] theorem yieldOp_keepsMem : yieldOp.keepsMem := .of (yieldOp.eq_def ..)
@[simp] theorem fenceOp_keepsMem (pairs : List (Agent × Agent)) : (fenceOp pairs).keepsMem := .of (fenceOp.eq_def ..)
@[simp] theorem barJoin_keepsMem (launch n : Nat) : (barJoin launch n).keepsMem := .of (barJoin.eq_def ..)
@[simp] theorem barOp_keepsMem (rs1 : BitVec 5) : (barOp rs1).keepsMem := .of (barOp.eq_def ..)
@[simp] theorem readDesc_keepsMem (w : Who) (va : Word) : (readDesc w va).keepsMem := .of (readDesc.eq_def ..)
@[simp] theorem engineUncounted_keepsMem {α : Type} (cnt : Word) (sub : Nat) (addr : Word) :
    (engineUncounted cnt sub addr : Op α).keepsMem :=
  .of (engineUncounted.eq_def ..)
@[simp] theorem tdldOp_keepsMem (td : BitVec 4) (rs1 : BitVec 5) : (tdldOp td rs1).keepsMem := .of (tdldOp.eq_def ..)

/-! ## Scratchpads, counters and rings -/

@[simp] theorem State.modScratch_mem (s : State) (l : Loc) (f : Tab Block → Tab Block) : (s.modScratch l f).mem = s.mem := by
  cases l <;> simp [State.modScratch]
theorem scratchRange_keepsMem {k : Loc → Nat → Op Unit} (hk :
    ∀ l n, (k l n).keepsMem) {rs1 rs2 : BitVec 5} : (scratchRange rs1 rs2 k).keepsMem :=
  .of (scratchRange.eq_def ..)
@[simp] theorem freeRange_keepsMem (l : Loc) (n : Nat) : (freeRange l n).keepsMem := .of (freeRange.eq_def ..)
@[simp] theorem spallocOp_keepsMem (rs1 rs2 : BitVec 5) : (spallocOp rs1 rs2).keepsMem := .of (spallocOp.eq_def ..)
@[simp] theorem renewQueue_keepsMem (l : Loc) (n : Nat) : (renewQueue l n).keepsMem := .of (renewQueue.eq_def ..)
@[simp] theorem spageOp_keepsMem (rd rs1 : BitVec 5) : (spageOp rd rs1).keepsMem := .of (spageOp.eq_def ..)
@[simp] theorem pinPages_keepsMem (root : Nat) (user : Bool) : ∀ (n : Nat) (k : Word), (pinPages root user n k).keepsMem
  | 0, _ => .of (pinPages.eq_def ..)
  | n + 1, _ => by
    have ih := pinPages_keepsMem root user n
    exact .of (pinPages.eq_def ..)
@[simp] theorem pinOp_keepsMem (rd rs1 rs2 : BitVec 5) : (pinOp rd rs1 rs2).keepsMem := .of (pinOp.eq_def ..)
@[simp] theorem unpinOp_keepsMem (rs1 : BitVec 5) : (unpinOp rs1).keepsMem := .of (unpinOp.eq_def ..)
@[simp] theorem caddOp_keepsMem (sc : Scope) (rs1 rs2 : BitVec 5) : (caddOp sc rs1 rs2).keepsMem := .of (caddOp.eq_def ..)
@[simp] theorem cwaitOp_keepsMem (aq : Bool) (sc : Scope) (rs1 rs2 : BitVec 5) : (cwaitOp aq sc rs1 rs2).keepsMem := .of (cwaitOp.eq_def ..)
theorem ringOp_keepsMem {k : Ring → Nat → Window → Op Unit} (hk : ∀ r n w, (k r n w).keepsMem) {rs1 rs2 : BitVec 5} :
    (ringOp rs1 rs2 k).keepsMem := .of (ringOp.eq_def ..)
@[simp] theorem ringPut_keepsMem (rs1 : BitVec 5) (w : Window) (off v : Nat) : (ringPut rs1 w off v).keepsMem := .of (ringPut.eq_def ..)
@[simp] theorem rclaimOp_keepsMem (rd rs1 rs2 : BitVec 5) : (rclaimOp rd rs1 rs2).keepsMem := .of (rclaimOp.eq_def ..)
@[simp] theorem rcommitOp_keepsMem (rs1 rs2 : BitVec 5) : (rcommitOp rs1 rs2).keepsMem := .of (rcommitOp.eq_def ..)
@[simp] theorem rawaitOp_keepsMem (rd rs1 rs2 : BitVec 5) : (rawaitOp rd rs1 rs2).keepsMem := .of (rawaitOp.eq_def ..)
@[simp] theorem rretireOp_keepsMem (rs1 rs2 : BitVec 5) : (rretireOp rs1 rs2).keepsMem := .of (rretireOp.eq_def ..)

/-! ## Scarab -/

@[simp] theorem readCommand_keepsMem (va : Word) : (readCommand va).keepsMem := .of (readCommand.eq_def ..)
@[simp] theorem streamOp_keepsMem (unfold : Bool) (o : Order) (rs1 rs2 : BitVec 5) : (streamOp unfold o rs1 rs2).keepsMem :=
  .of (streamOp.eq_def ..)
@[simp] theorem engineRead_keepsMem (a : Access) (since : Nat) : ∀ (n : Nat) (k : Word), (engineRead a since k n).keepsMem
  | 0, _ => .of (engineRead.eq_def ..)
  | n + 1, _ => by
    have ih := engineRead_keepsMem a since n
    exact .of (engineRead.eq_def ..)
@[simp] theorem enginePlace_keepsMem (a : Access) (amo : Bool) : ∀ (n : Nat) (k : Word), (enginePlace a amo k n).keepsMem
  | 0, _ => .of (enginePlace.eq_def ..)
  | n + 1, _ => by
    have ih := enginePlace_keepsMem a amo n
    exact .of (enginePlace.eq_def ..)
@[simp] theorem scarabPoison_keepsMem (c : ScarabCmd) (n : Nat) (bs : List ScarabByte) : (scarabPoison c n bs).keepsMem :=
  .of (scarabPoison.eq_def ..)
@[simp] theorem elemBytes_keepsMem (c : ScarabCmd) (k : Nat) : (elemBytes c k).keepsMem := .of (elemBytes.eq_def ..)
@[simp] theorem landBytes_keepsMem (c : ScarabCmd) (n k : Nat) (bs : List ScarabByte) : (landBytes c n k bs).keepsMem :=
  .of (landBytes.eq_def ..)
@[simp] theorem copyElem_keepsMem (c : ScarabCmd) (k : Nat) : (copyElem c k).keepsMem := .of (copyElem.eq_def ..)
@[simp] theorem copyElems_keepsMem : ∀ (n : Nat) (c : ScarabCmd) (k : Nat), (copyElems c n k).keepsMem
  | 0, _, _ => .of (copyElems.eq_def ..)
  | n + 1, _, _ => by
    have ih := copyElems_keepsMem n
    exact .of (copyElems.eq_def ..)
@[simp] theorem engineAmo_keepsMem (a : Access) (since : Nat) (w : Writer) (va : Word) (f : Nat → Nat) :
    (engineAmo a since w va f).keepsMem := .of (engineAmo.eq_def ..)
theorem trapOf_keepsMem {x : Op Unit} (hx : x.keepsMem) : (trapOf x).keepsMem := .of (trapOf.eq_def ..)
@[simp] theorem addCounter_keepsMem (c : ScarabCmd) (n : Nat) : (addCounter c n).keepsMem := .of (addCounter.eq_def ..)
@[simp] theorem setBit63_keepsMem (c : ScarabCmd) : (setBit63 c).keepsMem := .of (setBit63.eq_def ..)
@[simp] theorem writeStatus_keepsMem (c : ScarabCmd) (done cause sub : Nat) (fva : Word) : (writeStatus c done cause sub fva).keepsMem :=
  .of (writeStatus.eq_def ..)
@[simp] theorem putCommand_keepsMem (cl : Nat) (c : ScarabCmd) : (putCommand cl c).keepsMem := .of (putCommand.eq_def ..)
@[simp] theorem dropCommand_keepsMem (cl : Nat) (c : ScarabCmd) : (dropCommand cl c).keepsMem := .of (dropCommand.eq_def ..)
@[simp] theorem endOnCounter_keepsMem (cl : Nat) (c : ScarabCmd) (done : Nat) (t : Trap) : (endOnCounter cl c done t).keepsMem :=
  .of (endOnCounter.eq_def ..)
@[simp] theorem lostBelow_keepsMem (c : ScarabCmd) (final : Bool) (n : Nat) : (lostBelow c final n).keepsMem := .of (lostBelow.eq_def ..)
@[simp] theorem releasedLost_keepsMem (c : ScarabCmd) (final : Bool) : (releasedLost c final).keepsMem := .of (releasedLost.eq_def ..)
@[simp] theorem endOnFault_keepsMem (cl : Nat) (c : ScarabCmd) (final : Bool) (k : Nat) (t : Trap) : (endOnFault cl c final k t).keepsMem :=
  .of (endOnFault.eq_def ..)
@[simp] theorem scarabBeginOp_keepsMem (cl hart : Nat) : (scarabBeginOp cl hart).keepsMem := .of (scarabBeginOp.eq_def ..)
@[simp] theorem scarabAdvanceOp_keepsMem (cl id upto : Nat) : (scarabAdvanceOp cl id upto).keepsMem := .of (scarabAdvanceOp.eq_def ..)
@[simp] theorem scarabCompleteOp_keepsMem (cl id : Nat) : (scarabCompleteOp cl id).keepsMem := .of (scarabCompleteOp.eq_def ..)
@[simp] theorem landAbove_keepsMem (d f : Nat) : ∀ (n : Nat) (c : ScarabCmd) (k : Nat), (landAbove c d f n k).keepsMem
  | 0, _, _ => .of (landAbove.eq_def ..)
  | n + 1, _, _ => by
    have ih := landAbove_keepsMem d f n
    exact .of (landAbove.eq_def ..)
@[simp] theorem remoteSource_keepsMem (c : ScarabCmd) (k : Nat) : (remoteSource c k).keepsMem := .of (remoteSource.eq_def ..)
@[simp] theorem unanswered_keepsMem (c : ScarabCmd) (d : Nat) : (unanswered c d).keepsMem := .of (unanswered.eq_def ..)
@[simp] theorem scarabFaultOp_keepsMem (cl id : Nat) : (scarabFaultOp cl id).keepsMem := .of (scarabFaultOp.eq_def ..)

/-! ## The contraction unit -/

theorem uncounted_keepsMem {x : Op Unit} (hx : x.keepsMem) : (uncounted x).keepsMem := .of (uncounted.eq_def ..)
theorem cuCommand_keepsMem {x : Op Unit} (hx : x.keepsMem) : (cuCommand x).keepsMem := .of (cuCommand.eq_def ..)
@[simp] theorem needGrant_keepsMem : needGrant.keepsMem := .of (needGrant.eq_def ..)
@[simp] theorem engineUnless_keepsMem (b : Bool) (sub : Nat) : (engineUnless b sub).keepsMem := .of (engineUnless.eq_def ..)
@[simp] theorem modGrant_keepsMem (f : Grant → Grant) : (modGrant f).keepsMem := .of (modGrant.eq_def ..)
@[simp] theorem attachOp_keepsMem (rd rs1 : BitVec 5) : (attachOp rd rs1).keepsMem := .of (attachOp.eq_def ..)
@[simp] theorem detachOp_keepsMem : detachOp.keepsMem := .of (detachOp.eq_def ..)
@[simp] theorem bdsetOp_keepsMem (n : BitVec 4) (rs1 : BitVec 5) : (bdsetOp n rs1).keepsMem := .of (bdsetOp.eq_def ..)
@[simp] theorem readElems_keepsMem (es : Nat) : ∀ (n : Nat) (k : Word), (readElems es n k).keepsMem
  | 0, _ => .of (readElems.eq_def ..)
  | n + 1, _ => by
    have ih := readElems_keepsMem es n
    exact .of (readElems.eq_def ..)
@[simp] theorem readRows_keepsMem (es : Nat) (pitch : Word) : ∀ (n : Nat) (k : Word), (readRows es pitch n k).keepsMem
  | 0, _ => .of (readRows.eq_def ..)
  | n + 1, _ => by
    have ih := readRows_keepsMem es pitch n
    exact .of (readRows.eq_def ..)
theorem ordered_keepsMem {x : Op Unit} (hx : x.keepsMem) {o : Order} : (ordered o x).keepsMem := .of (ordered.eq_def ..)
@[simp] theorem mldOp_keepsMem (o : Order) (mt : BitVec 3) (rs1 rs2 : BitVec 5) : (mldOp o mt rs1 rs2).keepsMem := .of (mldOp.eq_def ..)
@[simp] theorem gatherRows_keepsMem (h : Hart) (cap : Nat) (vs : Nat) (es : Nat) (base : Word) :
    ∀ (n : Nat) (k : Nat), (gatherRows h cap vs es base n k).keepsMem
  | 0, _ => .of (gatherRows.eq_def ..)
  | n + 1, _ => by
    have ih := gatherRows_keepsMem h cap vs es base n
    exact .of (gatherRows.eq_def ..)
@[simp] theorem mldxOp_keepsMem (o : Order) (rs1 vs : BitVec 5) : (mldxOp o rs1 vs).keepsMem := .of (mldxOp.eq_def ..)
@[simp] theorem mlscOp_keepsMem (o : Order) (mt : BitVec 3) (rs1 : BitVec 5) : (mlscOp o mt rs1).keepsMem := .of (mlscOp.eq_def ..)
@[simp] theorem checkBlock_keepsMem (q : Nat) : (checkBlock q).keepsMem := .of (checkBlock.eq_def ..)
@[simp] theorem checkBlocks_keepsMem (n : Nat) : (checkBlocks n).keepsMem := .of (checkBlocks.eq_def ..)
@[simp] theorem arrayOp_keepsMem (acc : Nat) (a : AOperand) (bs : List Nat) (t : TileTy) (f : Grant → Nat → TileRef → TileRef → List
    (BitVec 40)) :
    (arrayOp acc a bs t f).keepsMem := .of (arrayOp.eq_def ..)
@[simp] theorem mmaOp_keepsMem (acc : BitVec 2) (a : AOperand) (b : BitVec 3) : (mmaOp acc a b).keepsMem := .of (mmaOp.eq_def ..)
@[simp] theorem mrptOp_keepsMem (acc : BitVec 2) (a : AOperand) (rs2 : BitVec 5) : (mrptOp acc a rs2).keepsMem := .of (mrptOp.eq_def ..)
@[simp] theorem msldOp_keepsMem (acc : BitVec 2) (a : AOperand) (rs2 : BitVec 5) : (msldOp acc a rs2).keepsMem := .of (msldOp.eq_def ..)
@[simp] theorem mstElems_keepsMem (g : Grant) (acc t es : Nat) (base pitch : Word) :
    ∀ (n : Nat) (k : Nat), (mstElems g acc t es base pitch n k).keepsMem
  | 0, _ => .of (mstElems.eq_def ..)
  | n + 1, _ => by
    have ih := mstElems_keepsMem g acc t es base pitch n
    exact .of (mstElems.eq_def ..)
@[simp] theorem mstOp_keepsMem (o : Order) (acc : BitVec 2) (rs1 rs2 : BitVec 5) : (mstOp o acc rs1 rs2).keepsMem := .of (mstOp.eq_def ..)
@[simp] theorem mzeroOp_keepsMem (acc : BitVec 2) : (mzeroOp acc).keepsMem :=
  Op.keepsMem_bind needGrant_keepsMem fun _ => Op.keepsMem_bind (engineUnless_keepsMem ..) fun _ => modGrant_keepsMem _

/-! ## Chains -/

@[simp] theorem readStruct_keepsMem (va : Word) (n : Nat) : (readStruct va n).keepsMem := .of (readStruct.eq_def ..)
@[simp] theorem readSteps_keepsMem (prog : Word) : ∀ (n : Nat) (k : Nat), (readSteps prog n k).keepsMem
  | 0, _ => .of (readSteps.eq_def ..)
  | n + 1, _ => by
    have ih := readSteps_keepsMem prog n
    exact .of (readSteps.eq_def ..)
@[simp] theorem chainChecks_keepsMem (prog cdVa : Word) (k : Nat) : (chainChecks prog cdVa k).keepsMem := .of (chainChecks.eq_def ..)
@[simp] theorem readValues_keepsMem (es : Nat) : ∀ (n : Nat) (k : Word), (readValues es n k).keepsMem
  | 0, _ => .of (readValues.eq_def ..)
  | n + 1, _ => by
    have ih := readValues_keepsMem es n
    exact .of (readValues.eq_def ..)
@[simp] theorem readTileRows_keepsMem (cols : Nat) : ∀ (n : Nat) (k : Word), (readTileRows cols n k).keepsMem
  | 0, _ => .of (readTileRows.eq_def ..)
  | n + 1, _ => by
    have ih := readTileRows_keepsMem cols n
    exact .of (readTileRows.eq_def ..)
@[simp] theorem readTiles_keepsMem (e : StepEnv) (tc : Nat) : ∀ (n : Nat) (k : Nat), (readTiles e tc n k).keepsMem
  | 0, _ => .of (readTiles.eq_def ..)
  | n + 1, _ => by
    have ih := readTiles_keepsMem e tc n
    exact .of (readTiles.eq_def ..)
@[simp] theorem writeValues_keepsMem (base : Word) : ∀ (ls : List Nat) (k : Nat), (writeValues base ls k).keepsMem
  | [], _ => .of (writeValues.eq_def ..)
  | _ :: vs, _ => by
    have ih := writeValues_keepsMem base vs
    exact .of (writeValues.eq_def ..)
@[simp] theorem chainStep_keepsMem (prog cd : Word) (k : Nat) (stop : Option Nat) : (chainStep prog cd k stop).keepsMem :=
  .of (chainStep.eq_def ..)
@[simp] theorem chainLoop_keepsMem (prog cd : Word) (single : Bool) (stop : Option Nat) :
    ∀ (n : Nat), (chainLoop prog cd single stop n).keepsMem
  | 0 => .of (chainLoop.eq_def ..)
  | fuel + 1 => by
    have ih := chainLoop_keepsMem prog cd single stop fuel
    exact .of (chainLoop.eq_def ..)
@[simp] theorem chainOp_keepsMem (single : Bool) (o : Order) (rs1 rs2 : BitVec 5) : (chainOp single o rs1 rs2).keepsMem :=
  .of (chainOp.eq_def ..)

/-! ## The front end -/

@[simp] theorem dropLaunch_mem (n : Nat) (l : Launch) (s : State) : (dropLaunch n l s).mem = s.mem := rfl
@[simp] theorem mustTranslate_keepsMem (q : Nat) (kind : AKind) (write : Bool) (va : Word) : (mustTranslate q kind write va).keepsMem :=
  .of (mustTranslate.eq_def ..)
@[simp] theorem mustAlign_keepsMem (va : Word) (n : Nat) : (mustAlign va n).keepsMem := .of (mustAlign.eq_def ..)
@[simp] theorem qReadNat_keepsMem (q : Nat) (va : Word) (n : Nat) : (qReadNat q va n).keepsMem := .of (qReadNat.eq_def ..)
@[simp] theorem readOwners_keepsMem (q : Nat) : ∀ (n : Nat) (k : Word), (readOwners q n k).keepsMem
  | 0, _ => .of (readOwners.eq_def ..)
  | n + 1, _ => by
    have ih := readOwners_keepsMem q n
    exact .of (readOwners.eq_def ..)
@[simp] theorem readMap_keepsMem (q : Nat) (param : Word) (paramSz : Nat) (va : Word) : (readMap q param paramSz va).keepsMem :=
  .of (readMap.eq_def ..)
@[simp] theorem readMaps_keepsMem (q : Nat) (param : Word) (paramSz : Nat) : ∀ (n : Nat) (k : Word), (readMaps q param paramSz n k).keepsMem
  | 0, _ => .of (readMaps.eq_def ..)
  | n + 1, _ => by
    have ih := readMaps_keepsMem q param paramSz n
    exact .of (readMaps.eq_def ..)
@[simp] theorem readLevels_keepsMem (q : Nat) : ∀ (n : Nat) (k : Word), (readLevels q n k).keepsMem
  | 0, _ => .of (readLevels.eq_def ..)
  | n + 1, _ => by
    have ih := readLevels_keepsMem q n
    exact .of (readLevels.eq_def ..)
@[simp] theorem readLaunch_keepsMem (q : Nat) (recVa : Word) (r : BitVec 512) : (readLaunch q recVa r).keepsMem :=
  .of (readLaunch.eq_def ..)
theorem attempt_keepsMem {α : Type} {x : Op α} (hx : x.keepsMem) : (attempt x).keepsMem := .of (attempt.eq_def ..)
@[simp] theorem recordTaken_keepsMem (q idx : Nat) : (recordTaken q idx).keepsMem := .of (recordTaken.eq_def ..)
@[simp] theorem validate_keepsMem (q idx : Nat) : (validate q idx).keepsMem := .of (validate.eq_def ..)
@[simp] theorem stopHead_keepsMem (q pair cause : Nat) (failed : Option (Nat × Nat × Nat)) (recIdx : Nat) :
    (stopHead q pair cause failed recIdx).keepsMem := .of (stopHead.eq_def ..)
@[simp] theorem beginLaunch_keepsMem (q : Nat) (k : Kernel) (p : Option Pair) : (beginLaunch q k p).keepsMem := .of (beginLaunch.eq_def ..)
@[simp] theorem readCounter_keepsMem (q : Nat) (va : Nat) : (readCounter q va).keepsMem := .of (readCounter.eq_def ..)
@[simp] theorem dispatchStartOp_keepsMem (q : Nat) : (dispatchStartOp q).keepsMem := .of (dispatchStartOp.eq_def ..)
@[simp] theorem qAdd_keepsMem (q : Nat) (va : Nat) : (qAdd q va).keepsMem := .of (qAdd.eq_def ..)
@[simp] theorem qAddOne_keepsMem (q : Nat) (va : Nat) : (qAddOne q va).keepsMem := .of (qAddOne.eq_def ..)
@[simp] theorem completionAdd_keepsMem (q va : Nat) : (completionAdd q va).keepsMem := .of (completionAdd.eq_def ..)
@[simp] theorem launchRelease_keepsMem (n : Nat) (sc : Scope) : (launchRelease n sc).keepsMem := .of (launchRelease.eq_def ..)
@[simp] theorem completeAt_keepsMem (n : Nat) (sc : Scope) (q va : Nat) : (completeAt n sc q va).keepsMem := .of (completeAt.eq_def ..)
@[simp] theorem stopAfter_keepsMem (q n recIdx pair ctr : Nat) : (stopAfter q n recIdx pair ctr).keepsMem := .of (stopAfter.eq_def ..)
@[simp] theorem launchCompleteOp_keepsMem (n : Nat) : (launchCompleteOp n).keepsMem := .of (launchCompleteOp.eq_def ..)
@[simp] theorem pairCompleteOp_keepsMem (n : Nat) : (pairCompleteOp n).keepsMem := .of (pairCompleteOp.eq_def ..)

/-! ## Splices -/

@[simp] theorem readSome_keepsMem (q : Nat) (param : Word) (paramSz : Nat) : ∀ (n : Nat) (k : Word), (readSome q param paramSz n k).keepsMem
  | 0, _ => .of (readSome.eq_def ..)
  | n + 1, _ => by
    have ih := readSome_keepsMem q param paramSz n
    exact .of (readSome.eq_def ..)
@[simp] theorem readHeader_keepsMem (q : Nat) (recVa : Word) (r : BitVec 512) : (readHeader q recVa r).keepsMem :=
  .of (readHeader.eq_def ..)
@[simp] theorem readRaw_keepsMem (q idx : Nat) : (readRaw q idx).keepsMem := .of (readRaw.eq_def ..)
@[simp] theorem readWindow_keepsMem (q : Nat) : ∀ (ls : List Nat), (readWindow q ls).keepsMem
  | [] => .of (readWindow.eq_def ..)
  | _ :: is => by
    have ih := readWindow_keepsMem q is
    exact .of (readWindow.eq_def ..)
@[simp] theorem findPair_keepsMem (q : Nat) (a : Kernel) (win : List WinRec) : ∀ (ls : List WinRec), (findPair q a win ls).keepsMem
  | [] => .of (findPair.eq_def ..)
  | _ :: ws => by
    have ih := findPair_keepsMem q a win ws
    exact .of (findPair.eq_def ..)
@[simp] theorem addElision_keepsMem (q : Nat) (p : Option Pair) : (addElision q p).keepsMem := .of (addElision.eq_def ..)
@[simp] theorem reachesHeadOp_keepsMem (q : Nat) : (reachesHeadOp q).keepsMem := .of (reachesHeadOp.eq_def ..)

/-! ## The scheduler -/

section
variable (s : State)
@[simp] theorem countDoorbad_mem : (countDoorbad s).mem = s.mem := rfl
@[simp] theorem bar0Byte_mem (off : Nat) (b : Byte) : (bar0Byte off b s).mem = s.mem := by
  unfold bar0Byte
  split
  · rfl
  · split
    · rfl
    · split <;> rfl
@[simp] theorem bar0Bytes_mem : ∀ (bs : List Byte) (off : Nat) (s : State), (bar0Bytes off bs s).mem = s.mem
  | [], _, _ => rfl
  | _ :: bs, _, _ => (bar0Bytes_mem bs _ _).trans (bar0Byte_mem ..)
@[simp] theorem mailboxStatus_mem (v : Nat) : (mailboxStatus v s).mem = s.mem := rfl
@[simp] theorem issueCommand_mem : (issueCommand s).mem = s.mem := by
  unfold issueCommand
  split
  · rfl
  · split <;> rfl
@[simp] theorem endCommand_mem (v : Nat) : (endCommand v s).mem = s.mem := rfl
@[simp] theorem setStatus_mem (f : StatusBlock → StatusBlock) : (setStatus f s).mem = s.mem := rfl
@[simp] theorem resetDevice_mem : (resetDevice s).mem = [] := rfl
@[simp] theorem bootedFrom_mem (i : Nat) (slots : List (List (List Byte))) : (bootedFrom i slots s).mem = s.mem := rfl
@[simp] theorem endUpdate_mem (v : Nat) : (endUpdate v s).mem = s.mem := rfl
@[simp] theorem restartPrevious_mem (since : Nat) : (restartPrevious since s).mem = s.mem := rfl
@[simp] theorem putSession_mem (v : Session) : (putSession v s).mem = s.mem := rfl
@[simp] theorem answerHarts_mem (reg answer : Nat) : (answerHarts reg answer s).mem = s.mem := rfl
@[simp] theorem acceptedAbroad_mem (num seq rank : Nat) : (acceptedAbroad num seq rank s).mem = s.mem := rfl
@[simp] theorem answeredAbroad_mem (reg answer : Nat) : (answeredAbroad reg answer s).mem = s.mem := rfl
@[simp] theorem decideHere_mem (e : OrdEntry) (num status : Nat) : (decideHere e num status s).mem = s.mem := rfl
@[simp] theorem endEntry_mem (e : OrdEntry) (num status : Nat) : (endEntry e num status s).mem = s.mem := rfl
@[simp] theorem endRegistration_mem (r : Registration) (num status : Nat) : (endRegistration r num status s).mem = s.mem := rfl
@[simp] theorem performed_mem (comm : Nat) (k : ReplicaKind) : (performed comm k s).mem = s.mem := by
  unfold performed
  split
  · rfl
  · split <;> rfl
  · rfl
  · rfl
@[simp] theorem replicate_mem (comm tag : Nat) (k : ReplicaKind) : (replicate comm tag k s).mem = s.mem := by
  unfold replicate
  dsimp only
  split
  · exact performed_mem ..
  · rfl
@[simp] theorem numberEntry_mem (e : OrdEntry) : (numberEntry e s).mem = s.mem := replicate_mem ..
@[simp] theorem voidEntry_mem (e : OrdEntry) : (voidEntry e s).mem = s.mem := by
  unfold voidEntry
  dsimp only
  split
  · exact numberEntry_mem ..
  · rfl
@[simp] theorem performAll_mem (rs : List Replica) : (performAll rs s).mem = s.mem := by
  simp [performAll]
@[simp] theorem ordinalEnded_mem (num seq : Nat) (here : Bool) : (ordinalEnded num seq here s).mem = s.mem := by
  unfold ordinalEnded
  split
  · split <;> rfl
  · rfl
@[simp] theorem memberFault_mem (e : OrdEntry) (num rank : Nat) : (memberFault e num rank s).mem = s.mem := by
  unfold memberFault
  split
  · rfl
  · dsimp only
    split <;> rfl
end

@[simp] theorem takeRecord_wf {s : State} (hs : Memory.wf s.mem = true) (q i : Nat) : Memory.wf (takeRecord q i s).mem = true := by
  unfold takeRecord
  split
  next r t h => exact ((qReadNat_keepsMem ..).ok hs h : t.memOk)
  · exact hs
  next e t _ h => exact ((qReadNat_keepsMem ..).error hs h : t.memOk)
@[simp] theorem takeRecords_wf : ∀ (n q : Nat) {s : State}, Memory.wf s.mem = true → Memory.wf (takeRecords q n s).mem = true
  | 0, _, _, hs => hs
  | n + 1, q, _, hs => takeRecords_wf n q (takeRecord_wf hs q _)

@[simp] theorem Memory.wf_nil : Memory.wf [] = true := rfl
theorem foldl_wf {α : Type} {f : List Host.Cell → α → List Host.Cell} (h : ∀ m a, Memory.wf m = true → Memory.wf (f m a) = true) :
    ∀ (l : List α) {m : List Host.Cell}, Memory.wf m = true → Memory.wf (l.foldl f m) = true
  | [], _, hm => hm
  | _ :: l, _, hm => foldl_wf h l (h _ _ hm)
@[simp] theorem loseSectors_wf {m : List Host.Cell} (h : Memory.wf m = true) (k : Nat) (secs : List Nat) :
    Memory.wf (loseSectors k secs m) = true :=
  foldl_wf (fun _ _ h => Memory.write_wf h ..) _ h
theorem quarantineTable_wf (own frame : Nat) : ∀ (fuel level table : Nat) {m : List Host.Cell}, Memory.wf m = true →
    Memory.wf (quarantineTable own frame fuel level table m) = true
  | 0, _, _, _, h => h
  | fuel + 1, _, _, _, h => by
    refine foldl_wf (fun m i hm => ?_) _ h
    dsimp only
    split
    · exact Memory.write_wf hm ..
    · split
      · exact quarantineTable_wf own frame fuel _ _ hm
      · exact hm

theorem onHart_keepsMem {x : Op Unit} (hx : x.keepsMem) {id : Nat} : (onHart id x).keepsMem := .of (onHart.eq_def ..)
@[simp] theorem enter_keepsMem (first inB : Bool) (run : Option BodyRun) : (enter first inB run).keepsMem := .of (enter.eq_def ..)
@[simp] theorem modLaunch_keepsMem (n : Nat) (f : Launch → Launch) : (modLaunch n f).keepsMem := .of (modLaunch.eq_def ..)
@[simp] theorem enterRun_keepsMem (first : Bool) (r : BodyRun) : (enterRun first r).keepsMem := .of (enterRun.eq_def ..)
@[simp] theorem startKey_keepsMem (n : Nat) (l : Launch) (key : List Nat) (slot : Option Nat) : (startKey n l key slot).keepsMem :=
  .of (startKey.eq_def ..)
@[simp] theorem anotherKey_keepsMem (l : Launch) (hart die : Nat) : (anotherKey l hart die).keepsMem := .of (anotherKey.eq_def ..)
@[simp] theorem retireHart_keepsMem : retireHart.keepsMem := .of (retireHart.eq_def ..)
@[simp] theorem nextOp_keepsMem : nextOp.keepsMem := .of (nextOp.eq_def ..)
@[simp] theorem endKernelOp_keepsMem : endKernelOp.keepsMem := .of (endKernelOp.eq_def ..)
@[simp] theorem iterOp_keepsMem (rd : BitVec 5) : (iterOp rd).keepsMem := .of (iterOp.eq_def ..)
@[simp] theorem placeResvs_keepsMem (cl n base : Nat) (l : Launch) : (placeResvs cl n base l).keepsMem := .of (placeResvs.eq_def ..)
@[simp] theorem takeSlot_keepsMem (q : Nat) (l : Launch) (slot : Nat) : (takeSlot q l slot).keepsMem := .of (takeSlot.eq_def ..)
@[simp] theorem serveQueue_keepsMem (q : Nat) : (serveQueue q).keepsMem := .of (serveQueue.eq_def ..)
@[simp] theorem giveHart_keepsMem (id n : Nat) (key : List Nat) (slot base : Nat) : (giveHart id n key slot base).keepsMem :=
  .of (giveHart.eq_def ..)
@[simp] theorem hartAssignOp_keepsMem (id n : Nat) (key : List Nat) (slot base : Nat) : (hartAssignOp id n key slot base).keepsMem :=
  .of (hartAssignOp.eq_def ..)
@[simp] theorem giveGang_keepsMem (n base : Nat) : ∀ (ls : List Nat) (k : List Nat) (i : List (List Nat)), (giveGang n base ls k i).keepsMem
  | [], _, _ => .of (giveGang.eq_def ..)
  | _ :: hs, _, _ => by
    have ih := giveGang_keepsMem n base hs
    exact .of (giveGang.eq_def ..)
@[simp] theorem gangDispatchOp_keepsMem (n : Nat) (harts slots : List Nat) (base : Nat) : (gangDispatchOp n harts slots base).keepsMem :=
  .of (gangDispatchOp.eq_def ..)
@[simp] theorem coreReleaseOp_keepsMem (id : Nat) : (coreReleaseOp id).keepsMem := .of (coreReleaseOp.eq_def ..)
@[simp] theorem queueAgeingOp_keepsMem (q : Nat) : (queueAgeingOp q).keepsMem := .of (queueAgeingOp.eq_def ..)
@[simp] theorem sendRequest_keepsMem (id : Nat) : (sendRequest id).keepsMem := .of (sendRequest.eq_def ..)
@[simp] theorem quantumExpiryOp_keepsMem (id : Nat) : (quantumExpiryOp id).keepsMem := .of (quantumExpiryOp.eq_def ..)
@[simp] theorem preemptionRequestOp_keepsMem (id : Nat) : (preemptionRequestOp id).keepsMem := .of (preemptionRequestOp.eq_def ..)
@[simp] theorem preemptDeadlineOp_keepsMem (id : Nat) (elem : Option Nat) : (preemptDeadlineOp id elem).keepsMem :=
  .of (preemptDeadlineOp.eq_def ..)

/-! ## Saves, resumptions and retention -/

@[simp] theorem gangSaveStartOp_keepsMem (n : Nat) : (gangSaveStartOp n).keepsMem := .of (gangSaveStartOp.eq_def ..)
@[simp] theorem writeImage_keepsMem (c : Context) (off : Nat) (bs : List Byte) : (writeImage c off bs).keepsMem :=
  .of (writeImage.eq_def ..)
@[simp] theorem writeImages_keepsMem : ∀ (ls : List Context), (writeImages ls).keepsMem
  | [] => .of (writeImages.eq_def ..)
  | _ :: cs => by
    have ih := writeImages_keepsMem cs
    exact .of (writeImages.eq_def ..)
@[simp] theorem saveHart_keepsMem (c : Context) : (saveHart c).keepsMem := .of (saveHart.eq_def ..)
@[simp] theorem saveCluster_keepsMem (n cl : Nat) : (saveCluster n cl).keepsMem := .of (saveCluster.eq_def ..)
@[simp] theorem saveCompleteOp_keepsMem (id : Nat) : (saveCompleteOp id).keepsMem := .of (saveCompleteOp.eq_def ..)
@[simp] theorem imageHead_keepsMem (c : Context) : (imageHead c).keepsMem := .of (imageHead.eq_def ..)
@[simp] theorem imageHeads_keepsMem : ∀ (ls : List Context), (imageHeads ls).keepsMem
  | [] => .of (imageHeads.eq_def ..)
  | _ :: cs => by
    have ih := imageHeads_keepsMem cs
    exact .of (imageHeads.eq_def ..)
@[simp] theorem restoreLight_keepsMem : restoreLight.keepsMem := .of (restoreLight.eq_def ..)
@[simp] theorem restoreAt_keepsMem (time k : Nat) (c : Context) (g : Option Grant) : (restoreAt time k c g).keepsMem :=
  .of (restoreAt.eq_def ..)
@[simp] theorem resumeOne_keepsMem (c : Context) (id : Nat) : (resumeOne c id).keepsMem := .of (resumeOne.eq_def ..)
@[simp] theorem resumeAll_keepsMem : ∀ (ls : List (Context × Nat)), (resumeAll ls).keepsMem
  | [] => .of (resumeAll.eq_def ..)
  | _ :: t => by
    have ih := resumeAll_keepsMem t
    exact .of (resumeAll.eq_def ..)
@[simp] theorem markOne_keepsMem (c : Context) (i : ImageHead) : (markOne c i).keepsMem := .of (markOne.eq_def ..)
@[simp] theorem markAll_keepsMem : ∀ (ls : List (Context × ImageHead)), (markAll ls).keepsMem
  | [] => .of (markAll.eq_def ..)
  | _ :: cs => by
    have ih := markAll_keepsMem cs
    exact .of (markAll.eq_def ..)
@[simp] theorem markIncompat_keepsMem (cs : List (Context × ImageHead)) : (markIncompat cs).keepsMem := .of (markIncompat.eq_def ..)
@[simp] theorem contextResumeOp_keepsMem (id hart : Nat) : (contextResumeOp id hart).keepsMem := .of (contextResumeOp.eq_def ..)
@[simp] theorem sweeperOp_keepsMem (core : Bool) (owner block : Nat) : (sweeperOp core owner block).keepsMem := .of (sweeperOp.eq_def ..)
@[simp] theorem renewalOp_keepsMem (core : Bool) (owner : Nat) : (renewalOp core owner).keepsMem := .of (renewalOp.eq_def ..)
@[simp] theorem ringRenewalOp_keepsMem (id : Nat) : (ringRenewalOp id).keepsMem := .of (ringRenewalOp.eq_def ..)
@[simp] theorem quarantine_keepsMem (frame : Nat) : (quarantine frame).keepsMem :=
  Op.keepsMem_modify fun _ hs => foldl_wf (fun _ _ h => quarantineTable_wf _ _ _ _ _ h) _ hs
@[simp] theorem poisonOp_keepsMem (place owner sector : Nat) : (poisonOp place owner sector).keepsMem := .of (poisonOp.eq_def ..)

/-! ## Issue of launches and collectives -/

@[simp] theorem writeRecord_keepsMem (q : Nat) (r : BitVec 512) : (writeRecord q r).keepsMem := by
  have hw := fun a bs => qWrite_keepsMem q a bs
  refine Op.keepsMem_get_bind fun s hs => ?_
  dsimp only
  split
  next t h => exact Op.keepsMem_bind (Op.keepsMem_set ((hw ..).ok hs h)) fun _ => modQueue_keepsMem ..
  · exact modQueue_keepsMem ..
@[simp] theorem launchOp_keepsMem (rs1 rs2 : BitVec 5) : (launchOp rs1 rs2).keepsMem := .of (launchOp.eq_def ..)
@[simp] theorem splbarOp_keepsMem (rs1 : BitVec 5) : (splbarOp rs1).keepsMem := .of (splbarOp.eq_def ..)
@[simp] theorem collOp_keepsMem (o : Order) (rs1 rs2 : BitVec 5) : (collOp o rs1 rs2).keepsMem := .of (collOp.eq_def ..)
@[simp] theorem cstatOp_keepsMem (rd rs1 : BitVec 5) : (cstatOp rd rs1).keepsMem := .of (cstatOp.eq_def ..)
@[simp] theorem modRegs_keepsMem (f : Registration → Registration) : (modRegs f).keepsMem := .of (modRegs.eq_def ..)
@[simp] theorem ccancelOp_keepsMem (rd rs1 : BitVec 5) : (ccancelOp rd rs1).keepsMem := .of (ccancelOp.eq_def ..)
@[simp] theorem ccancelTimeoutOp_keepsMem (id : Nat) : (ccancelTimeoutOp id).keepsMem := .of (ccancelTimeoutOp.eq_def ..)

/-! ## The host's accesses -/

@[simp] theorem doorbellOp_keepsMem (q : Nat) (t : BitVec 32) : (doorbellOp q t).keepsMem := .of (doorbellOp.eq_def ..)
@[simp] theorem bar0Write_keepsMem (off : Nat) (bs : List Byte) : (bar0Write off bs).keepsMem := .of (bar0Write.eq_def ..)
@[simp] theorem hostWrite_keepsMem (a : Nat) (bs : List Byte) : (hostWrite a bs).keepsMem := .of (hostWrite.eq_def ..)
@[simp] theorem bar2Op_keepsMem (b : Bar2) : (bar2Op b).keepsMem := .of (bar2Op.eq_def ..)

/-! ## Mailbox commands -/

theorem command_keepsMem {x : Op Nat} (hx : x.keepsMem) {code : Nat} {args : List Nat} : (command code args x).keepsMem :=
  .of (command.eq_def ..)
@[simp] theorem clearError_keepsMem (q : Nat) : (clearError q).keepsMem := .of (clearError.eq_def ..)
@[simp] theorem installEntry_keepsMem (q : Nat) : (installEntry q).keepsMem := .of (installEntry.eq_def ..)
@[simp] theorem qconfigStatus_keepsMem (q : Nat) : (qconfigStatus q).keepsMem := .of (qconfigStatus.eq_def ..)
@[simp] theorem shootdownStatus_keepsMem (q va len : Nat) : (shootdownStatus q va len).keepsMem := .of (shootdownStatus.eq_def ..)
@[simp] theorem elideclrStatus_keepsMem (q idx : Nat) : (elideclrStatus q idx).keepsMem := .of (elideclrStatus.eq_def ..)
@[simp] theorem commsetStatus_keepsMem (table count : Nat) : (commsetStatus table count).keepsMem := .of (commsetStatus.eq_def ..)
@[simp] theorem powerlimitStatus_keepsMem (watts : Nat) : (powerlimitStatus watts).keepsMem := .of (powerlimitStatus.eq_def ..)
@[simp] theorem domainidStatus_keepsMem (id : Nat) : (domainidStatus id).keepsMem := .of (domainidStatus.eq_def ..)
@[simp] theorem apertureStatus_keepsMem (base : Nat) : (apertureStatus base).keepsMem := .of (apertureStatus.eq_def ..)
@[simp] theorem qresumeStatus_keepsMem (q action : Nat) : (qresumeStatus q action).keepsMem := .of (qresumeStatus.eq_def ..)

/-! ## Firmware -/

@[simp] theorem bootOp_keepsMem (slot0 slot1 : List (List Byte)) : (bootOp slot0 slot1).keepsMem := .of (bootOp.eq_def ..)
@[simp] theorem trainingOp_keepsMem : trainingOp.keepsMem := .of (trainingOp.eq_def ..)
@[simp] theorem fwstageStatus_keepsMem (slot addr len : Nat) : (fwstageStatus slot addr len).keepsMem := .of (fwstageStatus.eq_def ..)
@[simp] theorem fwswitchOp_keepsMem : fwswitchOp.keepsMem := .of (fwswitchOp.eq_def ..)
@[simp] theorem fwHeartbeatOp_keepsMem (accepts : Bool) : (fwHeartbeatOp accepts).keepsMem := .of (fwHeartbeatOp.eq_def ..)
@[simp] theorem fwTimeoutOp_keepsMem : fwTimeoutOp.keepsMem := .of (fwTimeoutOp.eq_def ..)

/-! ## Power and clocks -/

@[simp] theorem modClock_keepsMem (die : Nat) (f : DieClock → DieClock) : (modClock die f).keepsMem := .of (modClock.eq_def ..)
@[simp] theorem throttleOp_keepsMem (die : Nat) : (throttleOp die).keepsMem := .of (throttleOp.eq_def ..)
@[simp] theorem tripOp_keepsMem : tripOp.keepsMem := .of (tripOp.eq_def ..)
@[simp] theorem powerOp_keepsMem (die : Nat) : (powerOp die).keepsMem := .of (powerOp.eq_def ..)

/-! ## SPDM and keys -/

@[simp] theorem spdmRequest_keepsMem (ok : SpdmPhase → Bool) (code : Byte) (args : List Byte) (f : Spdm → Spdm) :
    (spdmRequest ok code args f).keepsMem := .of (spdmRequest.eq_def ..)
@[simp] theorem challengeOp_keepsMem (nonce : BitVec 256) : (challengeOp nonce).keepsMem := .of (challengeOp.eq_def ..)
@[simp] theorem measurementsOp_keepsMem (index : Nat) (nonce : BitVec 256) : (measurementsOp index nonce).keepsMem :=
  .of (measurementsOp.eq_def ..)
@[simp] theorem keyExchangeOp_keepsMem (peerShare : BitVec 512) : (keyExchangeOp peerShare).keepsMem := .of (keyExchangeOp.eq_def ..)
@[simp] theorem keyMessage_keepsMem (k : Nat) (f : Tab (Option (BitVec 512)) → Tab (Option (BitVec 512))) : (keyMessage k f).keepsMem :=
  .of (keyMessage.eq_def ..)

/-! ## The fabric -/

@[simp] theorem homeWrite_keepsMem (pa key : Nat) (bs : List Byte) : (homeWrite pa key bs).keepsMem := .of (homeWrite.eq_def ..)
@[simp] theorem remoteAtHomeOp_keepsMem (op : RemoteOp) (pa key : Nat) : (remoteAtHomeOp op pa key).keepsMem :=
  .of (remoteAtHomeOp.eq_def ..)
@[simp] theorem remoteTimeoutOp_keepsMem (hart : Nat) (kind : RemoteKind) (elem : Nat) (va : Word) :
    (remoteTimeoutOp hart kind elem va).keepsMem := .of (remoteTimeoutOp.eq_def ..)
@[simp] theorem undeliverableOp_keepsMem (w : Writer) (va : Word) : (undeliverableOp w va).keepsMem := .of (undeliverableOp.eq_def ..)
@[simp] theorem sessionKeyOp_keepsMem (peer : Nat) (share : BitVec 512) : (sessionKeyOp peer share).keepsMem := .of (sessionKeyOp.eq_def ..)
@[simp] theorem rekeyOp_keepsMem (peer : Nat) : (rekeyOp peer).keepsMem := .of (rekeyOp.eq_def ..)
@[simp] theorem recordReceiveOp_keepsMem (peer n : Nat) (bytes : List Byte) : (recordReceiveOp peer n bytes).keepsMem :=
  .of (recordReceiveOp.eq_def ..)
@[simp] theorem retransmitOp_keepsMem (peer n : Nat) : (retransmitOp peer n).keepsMem := .of (retransmitOp.eq_def ..)

/-! ## The Ordinal -/

@[simp] theorem registrationOp_keepsMem (m : RegMsg) : (registrationOp m).keepsMem := .of (registrationOp.eq_def ..)
@[simp] theorem deferredOp_keepsMem (comm tag : Nat) : (deferredOp comm tag).keepsMem := .of (deferredOp.eq_def ..)
@[simp] theorem startReportOp_keepsMem (num seq rank : Nat) : (startReportOp num seq rank).keepsMem := .of (startReportOp.eq_def ..)
@[simp] theorem decideCancel_keepsMem (comm tag rank : Nat) (e : Option OrdEntry) (reg : Option Nat) :
    (decideCancel comm tag rank e reg).keepsMem := .of (decideCancel.eq_def ..)
@[simp] theorem cancellationOp_keepsMem (comm tag rank : Nat) : (cancellationOp comm tag rank).keepsMem := .of (cancellationOp.eq_def ..)
@[simp] theorem timeoutOp_keepsMem (num : Nat) : (timeoutOp num).keepsMem := .of (timeoutOp.eq_def ..)
@[simp] theorem electionOp_keepsMem (primary standby : Nat) : (electionOp primary standby).keepsMem := .of (electionOp.eq_def ..)
@[simp] theorem heartbeatOp_keepsMem : heartbeatOp.keepsMem := .of (heartbeatOp.eq_def ..)
@[simp] theorem ackTimeoutOp_keepsMem : ackTimeoutOp.keepsMem := .of (ackTimeoutOp.eq_def ..)
@[simp] theorem failoverOp_keepsMem : failoverOp.keepsMem := .of (failoverOp.eq_def ..)
@[simp] theorem replicationOp_keepsMem (m : ReplicaMsg) : (replicationOp m).keepsMem := .of (replicationOp.eq_def ..)
@[simp] theorem domainFaultOp_keepsMem : domainFaultOp.keepsMem := .of (domainFaultOp.eq_def ..)

/-! ## Collectives -/

@[simp] theorem setByte_wf {s : State} (hs : Memory.wf s.mem = true) (c : Option (BitVec 512)) (l : Loc) (b : Byte) :
    Memory.wf (setByte c l b s).mem = true := by
  cases l with
  | mem a => exact putUnder_wf hs ..
  | _ =>
    simp only [setByte]
    split
    · split <;> simp [hs]
    · exact hs
@[simp] theorem noticeOp_keepsMem (comm tag num : Nat) (prev : Option Nat) (void aborted : Bool) :
    (noticeOp comm tag num prev void aborted).keepsMem := .of (noticeOp.eq_def ..)
@[simp] theorem beginOp_keepsMem (num seq : Nat) : (beginOp num seq).keepsMem := .of (beginOp.eq_def ..)
@[simp] theorem collRead_keepsMem (a : Access) (since : Nat) (base : Word) (es : Nat) :
    ∀ (n : Nat) (k : Nat), (collRead a since base es n k).keepsMem
  | 0, _ => .of (collRead.eq_def ..)
  | n + 1, _ => by
    have ih := collRead_keepsMem a since base es n
    exact .of (collRead.eq_def ..)
@[simp] theorem placeElems_keepsMem (a : Access) (base : Word) (es : Nat) : ∀ (ls : List OutElem), (placeElems a base es ls).keepsMem
  | [] => .of (placeElems.eq_def ..)
  | _ :: t => by
    have ih := placeElems_keepsMem a base es t
    exact .of (placeElems.eq_def ..)
@[simp] theorem writeElems_keepsMem (w : Writer) (base : Word) (es : Nat) (ps : List (List (Loc × Option Phys))) (os : List OutElem) :
    (writeElems w base es ps os).keepsMem := .of (writeElems.eq_def ..)
@[simp] theorem engineRelease_keepsMem (w : Writer) (since code : Nat) : (engineRelease w since code).keepsMem :=
  .of (engineRelease.eq_def ..)
theorem quietly_keepsMem {x : Op Unit} (hx : x.keepsMem) : (quietly x).keepsMem := .of (quietly.eq_def ..)
@[simp] theorem writeRecordOf_keepsMem (r : Registration) (bs : List Byte) : (writeRecordOf r bs).keepsMem := .of (writeRecordOf.eq_def ..)
@[simp] theorem addToCounter_keepsMem (r : Registration) : (addToCounter r).keepsMem := .of (addToCounter.eq_def ..)
@[simp] theorem endColl_keepsMem (r : Registration) (num status cause faddr : Nat) (mask : List Nat) :
    (endColl r num status cause faddr mask).keepsMem := .of (endColl.eq_def ..)
@[simp] theorem undefBytes_keepsMem (a : Access) (k : Nat) (base : Word) : ∀ (n : Nat), (undefBytes a k base n).keepsMem
  | 0 => .of (undefBytes.eq_def ..)
  | n + 1 => by
    have ih := undefBytes_keepsMem a k base n
    exact .of (undefBytes.eq_def ..)
@[simp] theorem undefUnseen_keepsMem (a : Access) (k : Nat) (base : Word) : ∀ (n : Nat), (undefUnseen a k base n).keepsMem
  | 0 => .of (undefUnseen.eq_def ..)
  | n + 1 => by
    have ih := undefUnseen_keepsMem a k base n
    exact .of (undefUnseen.eq_def ..)
theorem undefBuffers_keepsMem {f : Access → Nat → Word → Nat → Op Unit} (hf : ∀ a k base n, (f a k base n).keepsMem) (r : Registration)
    (m : Comm) : (undefBuffers f r m).keepsMem := .of (undefBuffers.eq_def ..)
@[simp] theorem undefBuffers_undefBytes_keepsMem (r : Registration) (m : Comm) : (undefBuffers undefBytes r m).keepsMem :=
  undefBuffers_keepsMem undefBytes_keepsMem r m
@[simp] theorem undefBuffers_undefUnseen_keepsMem (r : Registration) (m : Comm) : (undefBuffers undefUnseen r m).keepsMem :=
  undefBuffers_keepsMem undefUnseen_keepsMem r m
@[simp] theorem sealTo_keepsMem (m : Comm) (ranks : List Nat) (bytes : Nat) : (sealTo m ranks bytes).keepsMem := .of (sealTo.eq_def ..)
@[simp] theorem writeResult_keepsMem (r : Registration) (m : Comm) (peers : List Contribution) : (writeResult r m peers).keepsMem :=
  .of (writeResult.eq_def ..)
@[simp] theorem endDone_keepsMem (r : Registration) (m : Comm) (num : Nat) (peers : List Contribution) : (endDone r m num peers).keepsMem :=
  .of (endDone.eq_def ..)
@[simp] theorem endOp_keepsMem (num seq status : Nat) (peers : List Contribution) : (endOp num seq status peers).keepsMem :=
  .of (endOp.eq_def ..)
@[simp] theorem accessTrap_keepsMem (r : Registration) (a : Access) (x : CollAccess) : (accessTrap r a x).keepsMem :=
  .of (accessTrap.eq_def ..)
@[simp] theorem faultsWith_keepsMem (r : Registration) (a : Access) (cause addr : Nat) :
    ∀ (ls : List CollAccess), (faultsWith r a cause addr ls).keepsMem
  | [] => .of (faultsWith.eq_def ..)
  | _ :: t => by
    have ih := faultsWith_keepsMem r a cause addr t
    exact .of (faultsWith.eq_def ..)
@[simp] theorem releaseFails_keepsMem (r : Registration) (m : Comm) (addr : Nat) : (releaseFails r m addr).keepsMem :=
  .of (releaseFails.eq_def ..)
@[simp] theorem collReadSome_keepsMem (a : Access) (since : Nat) (base : Word) (es : Nat) :
    ∀ (n : Nat) (k : Nat), (collReadSome a since base es n k).keepsMem
  | 0, _ => .of (collReadSome.eq_def ..)
  | n + 1, _ => by
    have ih := collReadSome_keepsMem a since base es n
    exact .of (collReadSome.eq_def ..)
@[simp] theorem writeSome_keepsMem (w : Writer) (a : Access) (base : Word) (es k : Nat) (l : List (OutElem × Bool)) :
    ∀ (ls : List Nat), (writeSome w a base es k l ls).keepsMem
  | [] => .of (writeSome.eq_def ..)
  | _ :: vs => by
    have ih := writeSome_keepsMem w a base es k l vs
    exact .of (writeSome.eq_def ..)
@[simp] theorem writeWords_keepsMem (w : Writer) (a : Access) (base : Word) (es k : Nat) (l : List (OutElem × Bool)) :
    (writeWords w a base es k l).keepsMem := .of (writeWords.eq_def ..)
@[simp] theorem writePart_keepsMem (r : Registration) (m : Comm) (num : Nat) (peers : List Contribution) :
    (writePart r m num peers).keepsMem := .of (writePart.eq_def ..)
@[simp] theorem faultResult_keepsMem (r : Registration) (m : Comm) (num : Nat) (peers : List Contribution) (atEnd : Bool) :
    (faultResult r m num peers atEnd).keepsMem := .of (faultResult.eq_def ..)
@[simp] theorem ownFault_keepsMem (r : Registration) (m : Comm) (num cause : Nat) (pt : FaultPoint) (atEnd : Bool) :
    (ownFault r m num cause pt atEnd).keepsMem := .of (ownFault.eq_def ..)
@[simp] theorem otherFault_keepsMem (num seq : Nat) : (otherFault num seq).keepsMem := .of (otherFault.eq_def ..)
@[simp] theorem engineFaultOp_keepsMem (num seq cause : Nat) (pt : FaultPoint) : (engineFaultOp num seq cause pt).keepsMem :=
  .of (engineFaultOp.eq_def ..)

end Sys2Proof.Machine
end

section
/-!
SUPPORT. Outcomes keep memory canonical: those of operations, of every instruction and event, and of one step.
-/

namespace Sys2Proof.Machine

/-! ## Outcomes -/

/-- The state that an outcome leaves, if any, has memory in its canonical form. -/
def nextOk : Outcome → Prop
  | .next t => t.memOk
  | _ => True

theorem preempt_memOk {s : State} (hs : s.memOk) (full forced : Bool) (pc : Word) (vxi : Nat) : (preempt full forced pc vxi s).memOk :=
  (congrArg Memory.wf (preempt_mem ..)).trans hs
theorem deliver_memOk {s : State} (hs : s.memOk) (e : Trap) : (deliver e s).memOk := deliver_wf hs e
theorem State.holding_memOk {s : State} (hs : s.memOk) (r : Option (RemoteKind × Nat × Word)) : (s.holding r).memOk := by
  cases r <;> exact hs
theorem State.answered_memOk {s : State} (hs : s.memOk) (q : Nat) : (s.answered q).memOk := (congrArg Memory.wf (s.answered_mem q)).trans hs
theorem State.retire_memOk {s : State} (hs : s.memOk) : s.retire.memOk := hs
theorem memOk_ite {c : Prop} [Decidable c] {s t : State} (hs : s.memOk) (ht : t.memOk) : (if c then s else t).memOk := by
  split <;> assumption

section
variable {x : Op Unit} {s : State} (hx : x.keepsMem) (hs : s.memOk)
include hx hs

theorem finish_memOk : nextOk (finish x s) := by
  unfold finish
  split
  next t h => exact State.retire_memOk (hx.ok hs h)
  next t h => exact deliver_memOk (hx.error hs h) _
  next t h => exact preempt_memOk (hx.error hs h) ..
  next t h => exact (hx.error hs h : t.memOk)
  · exact State.holding_memOk hs _

theorem finishWaiting_memOk : nextOk (finishWaiting x s) := by
  unfold finishWaiting
  split
  next t h => exact State.retire_memOk (hx.ok hs h)
  next t h => exact deliver_memOk (hx.error hs h) _
  next t h => exact preempt_memOk (hx.error hs h) ..
  next t h => exact memOk_ite (preempt_memOk (hx.error hs h) ..) (hx.error hs h)
  · exact memOk_ite (preempt_memOk hs ..) (State.holding_memOk hs _)

theorem event_memOk : nextOk (event x s) := by
  unfold event
  split
  next t h => exact (hx.ok hs h : t.memOk)
  · exact hs

theorem frontEvent_memOk {q : Nat} : nextOk (frontEvent q x s) := by
  unfold frontEvent
  split
  next t h => exact State.answered_memOk (hx.ok hs h) q
  · exact hs
  · exact State.answered_memOk hs q

theorem dispatch_memOk : nextOk (dispatch x s) := finish_memOk (Op.keepsMem_bind hx fun _ => advance_keepsMem 4) hs
end

section
variable {s : State} (hs : s.memOk)
include hs

theorem ecallRow_memOk (fn : Nat → Bool) : nextOk (ecallRow fn s) := by
  unfold ecallRow
  split
  · exact deliver_memOk hs _
  · exact hs

theorem endOwnLaunch_memOk (c : Nat) : (endOwnLaunch c s).memOk := endOwnLaunch_wf hs c

theorem execVshape_memOk (rd rs1 rs2 : BitVec 5) : nextOk (execVshape rd rs1 rs2 s) := by
  unfold execVshape
  split
  · exact preempt_memOk hs ..
  · exact finish_memOk (by simp) hs

theorem execNext_memOk : nextOk (execNext s) := by
  unfold execNext
  split
  · exact endOwnLaunch_memOk hs 8
  · split
    next t h =>
      have ht := State.retire_memOk (nextOp_keepsMem.ok hs h)
      exact memOk_ite (preempt_memOk ht ..) ht
    next t h => exact (nextOp_keepsMem.error hs h : t.memOk)

theorem execEnd_memOk : nextOk (execEnd s) := by
  unfold execEnd
  split
  · exact endOwnLaunch_memOk hs 8
  · exact event_memOk (by simp) hs

theorem execYield_memOk : nextOk (execYield s) := by
  unfold execYield
  split
  · exact endOwnLaunch_memOk hs 8
  · split
    next t h =>
      have ht := State.retire_memOk (yieldOp_keepsMem.ok hs h)
      exact memOk_ite (preempt_memOk ht ..) ht
    next t h => exact (yieldOp_keepsMem.error hs h : t.memOk)

theorem execCcancel_memOk (rd rs1 : BitVec 5) : nextOk (execCcancel rd rs1 s) := by
  unfold execCcancel
  split
  · exact deliver_memOk hs _
  · split
    · exact preempt_memOk hs ..
    · exact finish_memOk (by simp) hs

theorem execAbort_memOk : nextOk (execAbort s) := by
  unfold execAbort
  split
  · exact endOwnLaunch_memOk hs _
  · exact ecallRow_memOk hs _

theorem execRegisterWrite_memOk (t : RegTarget) : nextOk (execRegisterWrite t s) := by
  unfold execRegisterWrite
  split
  · exact finish_memOk (by simp) hs
  · exact event_memOk (by simp) hs

theorem execMailboxUnknownCode_memOk (code : Byte) : nextOk (execMailboxUnknownCode code s) :=
  event_memOk (Op.keepsMem_bind (onlyIf_keepsMem _) fun _ => command_keepsMem (Op.keepsMem_pure 3)) hs

/-- Every instruction and event keeps memory canonical: each by the operation it runs. -/
theorem exec_memOk (i : Instr) : nextOk (exec i s) := by
  cases hv : vbody i with
  | some f =>
    rw [exec_vbody hv]
    exact dispatch_memOk (vbody_keepsMem hv _) hs
  | none =>
    cases i
    case vshape => exact execVshape_memOk hs ..
    case next => exact execNext_memOk hs
    case endK => exact execEnd_memOk hs
    case yield => exact execYield_memOk hs
    case ccancel => exact execCcancel_memOk hs ..
    case abort => exact execAbort_memOk hs
    case registerWrite => exact execRegisterWrite_memOk hs _
    case mailboxUnknownCode => exact execMailboxUnknownCode_memOk hs _
    case deviceReset => exact Memory.wf_nil
    case l1DirtyWriteback | extensionBankRenewal | l2LineRetention => exact hs
    case hookset => exact ecallRow_memOk hs (· = 0x100)
    case hookret => exact ecallRow_memOk hs (· = 0x101)
    case ecallUnknown => exact ecallRow_memOk hs fun n => n < 0x100 || 0x102 < n
    case ppopc | pfirst | psum => exact dispatch_memOk (by simp) hs
    case vsett | iter | clput | clause | spalloc | spfree | spage | pin | unpin | cadd | rcommit | rretire | cstat | launch | tdld |
      bany | ball | bnone | bnall | rv | mret | vtypeWrite | mfcWrite | vxiWrite | poolBoundaryWrite | vvalidWrite | bdCsrWrite =>
      exact finish_memOk (by simp) hs
    case attach | detach | mld | mldx | mlsc | mma | mrpt | msld | mst | mzero | bdset | chnrun | chnstep =>
      exact finish_memOk (by simp [cuCommand_keepsMem]) hs
    case clwait | fenceSv | fenceVs | fenceVv | fenceAll | bar | stream | streamu | cwait | rclaim | rawait | coll | splbar =>
      dsimp only [exec]
      exact finishWaiting_memOk (by simp) hs
    case renew => exact finishWaiting_memOk (scratchRange_keepsMem renewQueue_keepsMem) hs
    case qconfig | shootdown | elideclr | commset | powerlimit | domainid | aperture | fwstage =>
      exact event_memOk (by simp [command_keepsMem]) hs
    case qresume => exact frontEvent_memOk (by simp [command_keepsMem]) hs
    case recordReachesHead | recordDispatchStart | launchComplete | pairComplete | contextResume =>
      exact frontEvent_memOk (by simp) hs
    case doorbellWrite | hostBar2Access | fwswitch | fwHeartbeat | fwHeartbeatTimeout | spdmGetVersion | spdmGetCapabilities |
      spdmNegotiateAlgorithms | spdmGetDigests | spdmGetCertificate | spdmChallenge | spdmGetMeasurements | spdmKeyExchange |
      spdmFinish | spdmEndSession | keyLoad | keyClear | bootComplete | hbmTrainingComplete | thermalThrottle | thermalTrip |
      powerLimitEnforce | clockStretch | hartAssign | gangDispatch | coreReservationRelease | queueAgeing | quantumExpiry |
      preemptionRequest | preemptDeadline | gangSaveStart | contextSaveComplete | sweeperVisit | renewalPerform | ringBlockRenewal |
      sectorPoisonDetect | scarabCommandBegin | scarabPrefixAdvance | scarabFault | scarabCommandComplete | ordinalRegistration |
      ordinalDeferredNumber | ordinalStartReport | ordinalCancellation | collectiveNotice | collectiveBegin | collectiveEnd |
      collectiveEngineFault | collectiveTimeout | ccancelAnswerTimeout | ordinalElection | ordinalHeartbeat |
      ordinalStandbyAckTimeout | ordinalFailover | ethernetRecordReceive | sessionRekey | remoteAccessAtHome | remoteReadTimeout |
      remoteWriteUndeliverable | supplyRecovery | domainFault | ordinalReplication | sessionKeyExchange | ethernetRetransmission =>
      dsimp only [exec]
      exact event_memOk (by simp) hs
    all_goals cases hv

/-! ## One step -/

theorem runPass_memOk (cont : Word) : nextOk (runPass cont s) := by
  have hx := clausePass_keepsMem cont
  unfold runPass
  split
  next t h => exact (hx.ok hs h : t.memOk)
  next t h => exact deliver_memOk (hx.error hs h) _
  next t h => exact preempt_memOk (hx.error hs h) ..
  next t h => exact (hx.error hs h : t.memOk)
  · exact State.holding_memOk hs _

theorem perform_memOk (i : Instr) : nextOk (perform i s) := by
  unfold perform
  split
  · split
    · exact preempt_memOk hs ..
    · exact runPass_memOk hs _
  · exact exec_memOk hs i

theorem takeForced_memOk {t : State} (ht : t.memOk) (i : Instr) : nextOk (takeForced i s t) := by
  have hp := perform_memOk ht i
  unfold takeForced
  dsimp only
  split
  · split
    next u h =>
      split
      · exact (h ▸ hp : nextOk (.next u))
      · exact preempt_memOk hs ..
    · exact preempt_memOk hs ..
  · exact preempt_memOk hs ..

theorem runInstr_memOk : nextOk (runInstr s) := by
  have hx := fetchAt_keepsMem (s.fetchAccess s.hart.mode s.hart) s.hart.pc
  unfold runInstr
  split
  next t h => exact memOk_ite (preempt_memOk hs ..) (deliver_memOk (hx.error hs h) _)
  · exact memOk_ite (preempt_memOk hs ..) (State.holding_memOk hs _)
  next t _ _ h => exact (hx.error hs h : t.memOk)
  next bs t h =>
    have ht : State.memOk { t with hart := { t.hart with ir := irOf bs } } := (hx.ok hs h : t.memOk)
    dsimp only
    split
    · exact memOk_ite (preempt_memOk hs ..) (deliver_memOk ht _)
    · split
      · exact takeForced_memOk hs ht _
      · exact perform_memOk ht _

theorem runHart_memOk : nextOk (runHart s) := by
  unfold runHart
  split
  · split
    · exact preempt_memOk hs ..
    · exact runPass_memOk hs _
  · exact runInstr_memOk hs

theorem bring_memOk (a : Agenda) : nextOk (bring a s) := by
  have hx := clausePasses_keepsMem
  cases a with
  | event i =>
    simp only [bring]
    split
    · exact exec_memOk hs i
    · exact hs
  | elapse ticks cycles => exact memOk_ite hs hs
  | select h => exact memOk_ite ((congrArg Memory.wf (s.selectHart_mem h)).trans hs) hs
  | clausePasses n =>
    simp only [bring]
    split
    · split
      next t h => exact ((hx n).ok hs h : t.memOk)
      next t h => exact deliver_memOk ((hx n).error hs h) _
      next t h => exact preempt_memOk ((hx n).error hs h) ..
      next t h => exact ((hx n).error hs h : t.memOk)
      · exact State.holding_memOk hs _
    · exact hs
  | upset u => exact hs

theorem step_memOk : nextOk (step s) := by
  unfold step stepPackage
  split
  next a t _ => exact bring_memOk (s := { s with agenda := t }) hs a
  · split
    · trivial
    · split
      · trivial
      · split
        · exact runHart_memOk hs
        · exact hs
end

end Sys2Proof.Machine

open Sys2Proof Sys2Proof.Machine Sys2Proof.Claims

/-- Settles O3: an operation keeps memory canonical when its parts do, each write of memory does, and every outcome is one of an operation. -/
theorem stepKeepsMemoryCanonical : Obligations.StepKeepsMemoryCanonical := by
  intro s t hs h
  exact (h ▸ step_memOk hs : nextOk (.next t))
end

section
/-!
SUPPORT. What a step does with the bytes at the pc, and the length that the low bits of an instruction give (R91, R99, R101, R102).
-/

namespace Sys2Proof.Machine
open Sys2Proof.Claims

/-! ## The next instruction -/

/-- Where no active clause comes first, an instruction executes. -/
theorem perform_executes {i : Instr} {s : State} (h : s.hart.clauseRuns = false ∨ waitsForClause s.hart i = false) :
    perform i s = exec i s := by
  have hfree : ¬ (s.hart.clauseRuns && waitsForClause s.hart i) = true := by
    rcases h with h | h <;> simp [h]
  exact if_neg hfree

/-- Bytes that decode to nothing trap, unless a forced pre-emption or a stopped clause comes first (R102). -/
theorem runHart_refuses {s u : State} {bs : List Byte} {r : Reject} (hf : s.forcedDue = false) (hs : s.hart.atStoppedClause = none)
    (hfetch : (fetchAt (s.fetchAccess s.hart.mode s.hart) s.hart.pc).run s = .ok bs u) (hd : decode bs = .error r) :
    runHart s = .next (deliver { cause := 2 } { u with hart := { u.hart with ir := irOf bs } }) := by
  rw [runHart, hs]
  simp only [runInstr, hfetch, hd, hf, Bool.false_and, Bool.false_eq_true, if_false]

/-- No hook and no service takes an illegal instruction: it stays at the handler. -/
theorem deliver_illegal (s : State) : deliver { cause := 2 } s = takeTrap { cause := 2 } s := by
  unfold deliver
  dsimp only
  rw [if_neg (by simp [isHookCause]), if_neg (by simp)]

/-! ## The length of an instruction -/

/-- A field of the first byte is one of every word that begins with it. -/
theorem fld_append_low {n : Nat} (hi : BitVec n) (b : Byte) (at' : Nat) (k : Nat) (h : at' + k ≤ 8) : fld (hi ++ b) at' k = fld b at' k := by
  ext i hi'
  simp only [fld, BitVec.getElem_extractLsb', BitVec.getLsbD_append]
  rw [if_pos (by omega)]

theorem isHalf_iff (b1 b0 : Byte) : isHalf (b1 ++ b0) = true ↔ b0 &&& 3#8 ≠ 3#8 := by
  have hbits : ∀ b : Byte, fld b 0 2 ≠ 3#2 ↔ b &&& 3#8 ≠ 3#8 := by decide +kernel
  rw [← hbits b0, isHalf, fld_append_low b1 b0 0 2 (by decide), decide_eq_true_iff]

/-- No four-byte word that the decoder accepts has bits [4:2] = 0b111 (R99). -/
theorem decodeWord_bits {w : BitVec 32} {i : Instr} (h : decodeWord w = .ok i) : fld w 2 3 ≠ 7 := by
  intro h7
  rw [decodeWord, if_pos h7] at h
  cases h

end Sys2Proof.Machine

open Sys2Proof Sys2Proof.Machine Sys2Proof.Claims

/-- Settles O5: the step is the running hart's, and the hart performs the instruction that it fetched. -/
theorem stepRunsTheDecodedInstruction : Obligations.StepRunsTheDecodedInstruction := by
  intro s u bs rest i ha h1 h2 hr hf hs hfetch hd hfree
  rw [step_runs ha h1 h2 hr, runHart_performs hf hs hfetch hd]
  exact perform_executes hfree

/-- Settles O6: the trap of cause 2, which no hook and no service takes. -/
theorem undefinedWordTraps : Obligations.UndefinedWordTraps := by
  intro s u bs r ha h1 h2 hr hf hs hfetch hd
  refine ⟨_, (step_runs ha h1 h2 hr).trans (runHart_refuses hf hs hfetch hd), ?_⟩
  rw [deliver_illegal]
  exact ⟨rfl, rfl, rfl, rfl, rfl, rfl, rfl, rfl, rfl⟩

/-- Settles O8: by the two lengths that the decoder tells apart. -/
theorem decoderFollowsTheLengthRule : Obligations.DecoderFollowsTheLengthRule := by
  intro b0 b1 rest out i h
  have hbits : ∀ b : Byte, fld b 2 3 ≠ 7 → b &&& 0x1C#8 ≠ 0x1C#8 := by decide +kernel
  simp only [decode] at h
  split at h
  next hhalf =>
    have hout : out = rest := by
      split at h <;> cases h
      rfl
    exact ⟨fun _ => hout, fun hfull => absurd hfull ((isHalf_iff b1 b0).mp hhalf)⟩
  next hfull =>
    refine ⟨fun hhalf => absurd ((isHalf_iff b1 b0).mpr hhalf) hfull, fun _ => ?_⟩
    split at h
    next b2 b3 rest' =>
      split at h
      next hw =>
        cases h
        have hfld := decodeWord_bits hw
        rw [fld_append_low (b3 ++ b2 ++ b1) b0 2 3 (by decide)] at hfld
        exact ⟨hbits b0 hfld, b2, b3, rfl⟩
      next => cases h
    next => cases h

/-- Settles O9: the decoder reads each of the printed words as the spec does. -/
theorem wordsOfTheSpecDecode : Obligations.WordsOfTheSpecDecode := by
  unfold Obligations.WordsOfTheSpecDecode
  decide +kernel
end

section
/-!
SUPPORT. Scalar instructions of the integer unit: the moves of their destination and pc, and the corners of their operations (R103).
-/

namespace Sys2Proof.Machine
open Sys2Proof.Claims

/-- The low 32 bits of a sum, sign-extended, are the sum of the low 32 bits. -/
theorem sextN_32_add (x i : Word) : sextN 32 (x + i).toNat = (x.setWidth 32 + i.setWidth 32).signExtend 64 := by
  rw [← BitVec.setWidth_add x i (by decide), ← sextN_toNat]
  simp [sextN, toSigned]

theorem setWidth_signExtend_low {k n m : Nat} (x : BitVec k) (h : n ≤ m) : (x.signExtend m).setWidth n = x.signExtend n := by
  ext i hi
  simp [BitVec.getElem_signExtend, Nat.lt_of_lt_of_le hi h]

/-- A register instruction writes its destination and moves on. -/
theorem exec_arith {op : Rv} {s : State} {rd : BitVec 5} {v : Word} (h : arith s.hart op = some (rd, v)) (half : Option (BitVec 16)) :
    exec (.rv op half) s = .next (Claims.onHart s { s.hart.setX rd v with pc := s.hart.pc + BitVec.ofNat 64 (rvLen half) }) := by
  cases op
  case addiw rd a imm =>
    cases h
    have hsum : ((s.hart.xr a).setWidth 32 + imm.signExtend 32).signExtend 64 = sextN 32 (s.hart.xr a + imm.signExtend 64).toNat := by
      rw [sextN_32_add, setWidth_signExtend_low imm (by decide)]
    rw [hsum]
    rfl
  all_goals
    cases h
  all_goals rfl

theorem exec_rv_ok {op : Rv} {half : Option (BitVec 16)} {s t : State} (h : (rvOp op (rvLen half)).run s = .ok () t) :
    exec (.rv op half) s = .next t.retire := finish_ok h

theorem needFs_run {s : State} (h : s.hart.fsOn = true) : needFs.run s = .ok () s := by
  simp [needFs, h]

/-! ## Corners of the operations -/

theorem and_low_toNat (b : Word) (k : Nat) (h : k ≤ 63) : (b &&& BitVec.ofNat 64 (2 ^ k - 1)).toNat = b.toNat % 2 ^ k := by
  have hlt : 2 ^ k - 1 < 2 ^ 64 := Nat.lt_of_le_of_lt (Nat.sub_le ..) (Nat.pow_lt_pow_right (by decide) (by omega))
  rw [BitVec.toNat_and, BitVec.toNat_ofNat, Nat.mod_eq_of_lt hlt, Nat.and_two_pow_sub_one_eq_mod]

/-- A shift takes the low six or five bits of its count. -/
theorem shift_low_bits (a b : Word) : aluValue .sll a b = aluValue .sll a (b &&& 63) ∧ aluWValue .sllw a b = aluWValue .sllw a (b &&& 31) := by
  have h63 : (b &&& 63).toNat = b.toNat % 64 := and_low_toNat b 6 (by decide)
  have h31 : (b &&& 31).toNat = b.toNat % 32 := and_low_toNat b 5 (by decide)
  simp only [aluValue, aluWValue, h63, h31, Nat.mod_mod, and_self]

/-- A 32-bit result is sign-extended. -/
theorem aluWValue_sext (op : AluWOp) (a b : Word) : aluWValue op a b = ((aluWValue op a b).setWidth 32).signExtend 64 := by
  unfold aluWValue
  rw [setWidth_signExtend_low _ (by decide), BitVec.signExtend_eq]

theorem mulHigh_toNat {m n : Nat} (hm : m < 2 ^ 64) (hn : n < 2 ^ 64) : (mulHigh m n).toNat = m * n / 2 ^ 64 := by
  have hlt : m * n / 2 ^ 64 < 2 ^ 64 := Nat.div_lt_of_lt_mul (Nat.mul_lt_mul'' hm hn)
  rw [mulHigh, ← Int.natCast_mul, show ((2 : Int) ^ 64) = ((2 ^ 64 : Nat) : Int) from rfl, ← Int.natCast_ediv, BitVec.ofInt_natCast,
    BitVec.toNat_ofNat, Nat.mod_eq_of_lt hlt]

theorem abs_toInt_le (a : Word) : |a.toInt| ≤ 2 ^ 63 :=
  abs_le.mpr ⟨a.le_toInt, Int.le_of_lt a.toInt_lt⟩

/-- The high half of a signed product fits. -/
theorem mulHigh_toInt (a b : Word) : (mulHigh a.toInt b.toInt).toInt = a.toInt * b.toInt / 2 ^ 64 := by
  have habs : |a.toInt * b.toInt| ≤ 2 ^ 63 * 2 ^ 63 := by
    rw [abs_mul]
    exact mul_le_mul (abs_toInt_le a) (abs_toInt_le b) (abs_nonneg _) (by decide)
  obtain ⟨hlow, hhigh⟩ := abs_le.mp habs
  rw [mulHigh, BitVec.toInt_ofInt, Int.bmod_eq_of_le] <;> omega

/-- Division by zero answers all ones, and the dividend as the remainder. -/
theorem div_by_zero (a : Word) : aluValue .div a 0 = BitVec.allOnes 64 ∧ aluValue .divu a 0 = BitVec.allOnes 64 ∧ aluValue .rem a 0 = a ∧
    aluValue .remu a 0 = a := ⟨rfl, rfl, rfl, rfl⟩

theorem divu_remu_toNat (a : Word) {b : Word} (h : b ≠ 0) :
    (aluValue .divu a b).toNat = a.toNat / b.toNat ∧ (aluValue .remu a b).toNat = a.toNat % b.toNat := by
  simp only [aluValue, divU, remU, if_neg h]
  exact ⟨BitVec.toNat_udiv, BitVec.toNat_umod⟩

end Sys2Proof.Machine

open Sys2Proof Sys2Proof.Machine Sys2Proof.Claims

/-- Settles O10: each register instruction writes its destination and moves on, over its own length. -/
theorem scalarArithmeticCompletes : Obligations.ScalarArithmeticCompletes :=
  fun _ half _ _ _ h => exec_arith h half

/-- Settles O11: each corner by its operation. -/
theorem scalarOperationCorners : Obligations.ScalarOperationCorners :=
  ⟨div_by_zero, by decide +kernel, by decide +kernel, fun a _ => divu_remu_toNat a, fun a b => mulHigh_toNat a.isLt b.isLt, mulHigh_toInt,
    aluWValue_sext, shift_low_bits, by decide +kernel, by decide +kernel, by decide +kernel, by decide +kernel⟩

/-- Settles O12: each form by its operation. -/
theorem scalarJumpsComplete : Obligations.ScalarJumpsComplete := by
  refine ⟨fun op half s link target h => ?_, fun a b c half s => rfl⟩
  cases op <;> cases h
  all_goals rfl

/-- Settles O13: what follows the access, in each of the four forms. -/
theorem scalarLoadsAndStoresComplete : Obligations.ScalarLoadsAndStoresComplete := by
  refine ⟨fun op rd rs1 imm half s v t h => exec_rv_ok ?_, fun op rs1 rs2 imm half s t h => exec_rv_ok ?_,
    fun f rd rs1 imm half s v t hfs h => exec_rv_ok ?_, fun f rs1 rs2 imm half s t hfs h => exec_rv_ok ?_⟩
  · exact Op.bind_ok (Op.run_getH s) (Op.bind_ok h rfl)
  · exact Op.bind_ok (Op.run_getH s) (Op.bind_ok h rfl)
  · have hload : (floadOp f rd rs1 imm).run s = .ok () { t with hart := (t.hart.setF rd (boxed f v)).fsDirty } :=
      Op.bind_ok (needFs_run hfs) (Op.bind_ok (Op.run_getH s) (Op.bind_ok h rfl))
    exact Op.bind_ok (Op.run_getH s) (Op.bind_ok hload rfl)
  · have hstore : (fstoreOp f rs1 rs2 imm).run s = .ok () t :=
      Op.bind_ok (needFs_run hfs) (Op.bind_ok (Op.run_getH s) h)
    exact Op.bind_ok (Op.run_getH s) (Op.bind_ok hstore rfl)
end

section
/-!
SUPPORT. The CSRs that there are, who accesses them, and what a write leaves of the registers that have no row of their own (R4, R8, R104,
R200).
-/

namespace Sys2Proof.Machine
open Sys2Proof.Claims

/-! ## The CSRs, and who accesses them -/

/-- The CSRs that have a value are those that exist. -/
theorem csrValue_isSome (s : State) (a : Nat) : (csrValue s a).isSome = csrNamed a := by
  unfold csrValue
  split
  case h_50 =>
    have hlist : csrNamed a = decide ((0x810 ≤ a ∧ a < 0x820) ∨ (0xCC2 ≤ a ∧ a < 0xCC8) ∨
        (0xC03 ≤ a ∧ a < 0xC20) ∨ (0xB03 ≤ a ∧ a < 0xB20) ∨ (0x323 ≤ a ∧ a < 0x340)) := by
      simp_all [csrNamed]
    rw [hlist]
    split
    · simp [*]
    · split
      · simp [*]
      · split <;> simp_all
  all_goals rfl

section
variable {s : State} {a : Nat} {w : Bool}

theorem csrAllowed_unnamed (h : csrNamed a = false) : csrAllowed s a w = false := by
  simp [csrAllowed, csrValue_isSome, h]

theorem csrAllowed_readOnly (h : csrReadOnly s.hart.mode a = true) : csrAllowed s a true = false := by
  simp [csrAllowed, h]

/-- Only its own address, and for VXI the mode, make a CSR read-only. -/
theorem csrReadOnly_iff (m : Mode) : csrReadOnly m a = true ↔
    0xC00 ≤ a ∨ a ∈ [0x808, 0x820, 0x824, 0x828, 0x82C] ∨ a = 0x802 ∧ m = .u := by
  simp [csrReadOnly]
  tauto

theorem csrAllowed_machine (hm : s.hart.mode = .m) (hn : csrNamed a = true) (hfs : a ∈ [0x001, 0x002, 0x003] → s.hart.fsOn = true)
    (hw : w = true → csrReadOnly .m a = false) : csrAllowed s a w = true := by
  have hfloat : (decide (a = 0) || decide (3 < a) || s.hart.fsOn) = true := by
    by_cases ha : a = 0 ∨ 3 < a
    · simp [ha]
    · simp [hfs (by simp; omega)]
  have hwrite : (w && csrReadOnly s.hart.mode a) = false := by
    cases w <;> simp [hm, hw]
  simp only [csrAllowed, csrValue_isSome, hn, hwrite, hfloat]
  rw [hm]
  rfl

theorem csrAllowed_fsOff (ha : a ∈ [0x001, 0x002, 0x003]) (hfs : s.hart.fsOn = false) : csrAllowed s a w = false := by
  have hlow : a ≠ 0 ∧ a ≤ 3 := by
    simp at ha
    omega
  simp [csrAllowed, hfs, hlow]

/-- What U-mode may access of the CSRs that are not floating-point ones (R4, R105). -/
theorem csrAllowed_user (hm : s.hart.mode = .u) (ha : 3 < a) (hn : csrNamed a = true) (hro : (w && csrReadOnly .u a) = false) :
    csrAllowed s a w = if 0x7C0 ≤ a ∧ a ≤ 0x7C2 then s.flag s.hart 1
      else if 0xC00 ≤ a ∧ a < 0xC20 then s.hart.mcounteren.getLsbD (a - 0xC00) else decide (a / 256 % 4 = 0) := by
  simp [csrAllowed, csrValue_isSome, hn, hm, hro, ha]

theorem csrAllowed_privileged (hm : s.hart.mode = .u) (h4096 : a < 4096) (hp : a / 256 % 4 = 3) (ha : a < 0x7C0 ∨ 0x7C2 < a) :
    csrAllowed s a w = false := by
  have hpool : ¬ (0x7C0 ≤ a ∧ a ≤ 0x7C2) := by omega
  have hctr : ¬ (0xC00 ≤ a ∧ a < 0xC20) := by omega
  simp [csrAllowed, hm, hpool, hctr, hp]
end

/-! ## Writes of the CSRs without a row of their own -/

theorem testBit_bits {w : Nat} (v : BitVec w) (lo len i : Nat) : (bits v lo len).testBit i = (decide (i < len) && v.getLsbD (i + lo)) := by
  rw [bits, Nat.testBit_mod_two_pow, Nat.testBit_div_two_pow]
  rfl

/-- The bits of fcsr made of its two fields. -/
theorem getLsbD_fcsr {hi lo i : Nat} (hlo : lo < 2 ^ 5) (h : i < 8) :
    (BitVec.ofNat 8 (hi * 32 + lo)).getLsbD i = if i < 5 then lo.testBit i else hi.testBit (i - 5) := by
  rw [BitVec.getLsbD_ofNat, show hi * 32 + lo = 2 ^ 5 * hi + lo by omega, Nat.testBit_two_pow_mul_add _ hlo]
  simp [h]

theorem bits_lt {w : Nat} (v : BitVec w) (lo len : Nat) : bits v lo len < 2 ^ len := Nat.mod_lt _ (Nat.two_pow_pos len)

theorem fcsr_flags (f : BitVec 8) (v : Word) : BitVec.ofNat 8 (bits f 5 3 * 32 + bits v 0 5) = f &&& 0xE0#8 ||| v.setWidth 8 &&& 0x1F#8 := by
  have hhigh : ∀ i < 8, (0xE0#8).getLsbD i = !decide (i < 5) := by decide
  have hlow : ∀ i < 8, (0x1F#8).getLsbD i = decide (i < 5) := by decide
  refine BitVec.eq_of_getLsbD_eq fun i hi => ?_
  rw [getLsbD_fcsr (bits_lt ..) hi]
  simp only [BitVec.getLsbD_or, BitVec.getLsbD_and, BitVec.getLsbD_setWidth, hhigh i hi, hlow i hi, testBit_bits]
  by_cases h5 : i < 5
  · simp [h5, hi]
  · simp [h5, show i - 5 < 3 by omega, Nat.sub_add_cancel (Nat.not_lt.mp h5)]

theorem fcsr_frm (f : BitVec 8) (v : Word) : BitVec.ofNat 8 (bits v 0 3 * 32 + bits f 0 5) = f &&& 0x1F#8 ||| v.setWidth 8 <<< 5 := by
  have hlow : ∀ i < 8, (0x1F#8).getLsbD i = decide (i < 5) := by decide
  refine BitVec.eq_of_getLsbD_eq fun i hi => ?_
  rw [getLsbD_fcsr (bits_lt ..) hi]
  simp only [BitVec.getLsbD_or, BitVec.getLsbD_and, BitVec.getLsbD_shiftLeft, BitVec.getLsbD_setWidth, hlow i hi, testBit_bits]
  by_cases h5 : i < 5
  · simp [h5]
  · simp [h5, hi, show i - 5 < 3 by omega, show i - 5 < 8 by omega]

/-- A legal value of such a CSR: the register takes it. -/
theorem csrWrite_takes {s : State} {a : Nat} {v : Word} {h : Hart} (ht : csrTakes s.hart v a = some h) (hr : ¬ csrReserved a v) :
    scalarCsrOk a v = true ∧ (csrWrite a v).run s = .ok () { s with hart := h } := by
  simp only [csrReserved, not_or, not_and, not_lt] at hr
  obtain ⟨hfrm, hfcsr, hmpp, hmode, hunit⟩ := hr
  unfold csrTakes at ht
  split at ht
  case h_1 =>
    cases ht
    exact ⟨rfl, by rw [← fcsr_flags]; rfl⟩
  case h_2 =>
    cases ht
    exact ⟨decide_eq_true (hfrm rfl), by rw [← fcsr_frm]; rfl⟩
  case h_3 =>
    cases ht
    exact ⟨decide_eq_true (hfcsr rfl), rfl⟩
  case h_4 =>
    cases ht
    have hlt := bits_lt v 11 2
    have hboth := hmpp rfl
    exact ⟨by simp [scalarCsrOk]; omega, rfl⟩
  case h_6 =>
    cases ht
    exact ⟨decide_eq_true (hmode rfl), rfl⟩
  case h_14 =>
    cases ht
    exact ⟨rfl, Op.bind_ok (by rw [decide_eq_true (hunit rfl)]; exact Op.run_illegalUnless_true s) rfl⟩
  case h_22 =>
    split at ht
    next hzero =>
      cases ht
      rcases hzero with rfl | rfl | rfl | ⟨hlow, hhigh⟩ | ⟨hlow, hhigh⟩
      case inr.inr.inr.inl | inr.inr.inr.inr => interval_cases a <;> exact ⟨rfl, rfl⟩
      all_goals exact ⟨rfl, rfl⟩
    · cases ht
  all_goals
    cases ht
    exact ⟨rfl, rfl⟩

/-- A reserved value is refused, before or in the write. -/
theorem csrInstr_reserved {s : State} {a : Nat} {acc : CsrAcc} (hallow : csrAllowed s a true = true)
    (hr : csrReserved a (newValue s a acc)) : finish (csrInstr a acc) s = .next (deliver { cause := 2 } s) := by
  have hearly : scalarCsrOk a (newValue s a acc) = false → (csrInstr a acc).refuses s := fun hbad =>
    Op.bind_ok (Op.run_get s) (Op.bind_ok (by rw [hallow]; exact Op.run_illegalUnless_true s) (Op.refuses_illegalUnless hbad))
  rcases hr with ⟨rfl, h⟩ | ⟨rfl, h⟩ | ⟨rfl, h⟩ | ⟨rfl, h⟩ | ⟨rfl, h⟩
  · exact finish_trap (hearly (decide_eq_false (Nat.not_le.mpr h)))
  · exact finish_trap (hearly (decide_eq_false (Nat.not_le.mpr h)))
  · exact finish_trap (hearly (by rcases h with h | h <;> simp [scalarCsrOk, h]))
  · exact finish_trap (hearly (decide_eq_false (Nat.not_le.mpr h)))
  · exact csrInstr_illegal hallow rfl (Op.refuses_illegalUnless (decide_eq_false (Nat.not_le.mpr h)))

theorem exec_csr (a : BitVec 12) (acc : CsrAcc) (s : State) : exec (.registerWrite (.csr a acc)) s = finish (csrInstr a.toNat acc) s := rfl

/-- The write of minstret undoes its own count. -/
theorem exec_minstret {acc : CsrAcc} {s : State} (ha : csrAllowed s 0xB02 true = true) (hc : bitAt s.hart.mcountinhibit 2 = false) :
    exec (.registerWrite (.csr 0xB02 acc)) s = .next { s with hart := past (({ s.hart with
      minstret := newValue s 0xB02 acc } : Hart).setX acc.rd s.hart.minstret) } := by
  have hw : (csrWrite 0xB02 (newValue s 0xB02 acc)).run s =
      .ok () { s with hart := { s.hart with minstret := newValue s 0xB02 acc - 1 } } := by
    simp only [csrWrite, writeMinstret, Op.run_modH, hc, Bool.false_eq_true, if_false]
  refine (csrInstr_ok ha rfl hw).trans ?_
  simp [State.retire, Hart.retire, past, Hart.setX, hc, csrValue]

theorem csrWritesComplete : CsrWritesComplete := by
  refine ⟨fun a acc s h ha ht hr => ?_, fun acc s ha hc => ?_, fun a acc s ha hr => csrInstr_reserved ha hr,
    fun a acc s ha => finish_trap (csrInstr_denied ha), fun s a w h => csrAllowed_unnamed h,
    fun s a h => csrAllowed_readOnly ((csrReadOnly_iff ..).mpr h), fun s a hm hn hfs => ⟨?_, fun hlt hlist => ?_⟩,
    fun s a w ha hfs => csrAllowed_fsOff ha hfs, fun s a w hm h4096 hp ha => csrAllowed_privileged hm h4096 hp ha,
    fun s a w hm h1 h2 => ?_, fun s a hm h1 h2 => ?_, fun s a hm hn h1 h2 => ?_⟩
  · obtain ⟨hok, hw⟩ := csrWrite_takes ht hr
    rw [exec_csr, csrInstr_ok ha hok hw]
    rfl
  · exact exec_minstret ha hc
  · exact csrAllowed_machine hm hn hfs nofun
  · refine csrAllowed_machine hm hn hfs fun _ => Bool.eq_false_iff.mpr fun hro => ?_
    rcases (csrReadOnly_iff ..).mp hro with h | h | ⟨_, h⟩
    · omega
    · exact hlist h
    · cases h
  · have hn : csrNamed a = true := by interval_cases a <;> rfl
    have hro : csrReadOnly .u a = false := by interval_cases a <;> rfl
    rw [csrAllowed_user hm (by omega) hn (by rw [hro, Bool.and_false]), if_pos ⟨h1, h2⟩]
  · have hn : csrNamed a = true := by interval_cases a <;> rfl
    rw [csrAllowed_user hm (by omega) hn rfl, if_neg (by omega), if_pos ⟨h1, h2⟩]
  · have hlow : a < 0x900 := by
      simp [csrNamed] at hn
      omega
    rw [csrAllowed_user hm (by omega) hn rfl, if_neg (by omega), if_neg (by omega)]
    exact decide_eq_true (by omega)

theorem csrReadOp_run {s : State} {a : Nat} (h : csrAllowed s a false = true) (rd : BitVec 5) :
    (csrReadOp rd a).run s = .ok () { s with hart := past (s.hart.setX rd ((csrValue s a).getD 0)) } :=
  Op.bind_ok (Op.run_get s) (Op.bind_ok (by rw [h]; exact Op.run_illegalUnless_true s) rfl)

theorem csrReadOp_refuses {s : State} {a : Nat} (h : csrAllowed s a false = false) (rd : BitVec 5) : (csrReadOp rd a).refuses s :=
  Op.bind_ok (Op.run_get s) (Op.refuses_illegalUnless h)

theorem csrReadsComplete : CsrReadsComplete := by
  refine ⟨fun op imm rd a half s h => exec_rv_ok (Op.bind_ok (Op.run_getH s) (csrReadOp_run h rd)),
    fun op imm rd a half s h => finish_trap (Op.bind_ok (Op.run_getH s) (csrReadOp_refuses h rd)), fun half s hm => exec_rv_ok ?_,
    fun half s hm => finish_trap ?_⟩
  · exact Op.bind_ok (Op.run_getH s) (Op.bind_ok (by rw [decide_eq_true hm]; exact Op.run_illegalUnless_true s) rfl)
  · exact Op.bind_ok (Op.run_getH s) (Op.refuses_illegalUnless (by simp [hm]))

end Sys2Proof.Machine

open Sys2Proof Sys2Proof.Machine Sys2Proof.Claims

/-- Settles O20: who accesses which CSR, and each read and write by its operation. -/
theorem csrAccessesComplete : Obligations.CsrAccessesComplete := ⟨csrReadsComplete, csrWritesComplete⟩

end

section
/-!
SUPPORT. The trap that no hook takes, and the services that an ECALL from U-mode asks for (R103, R183, R255).
-/

namespace Sys2Proof.Machine
open Sys2Proof.Claims

/-- A trap that is neither a hook's nor an ECALL from U-mode stays at the handler (R183). -/
theorem deliver_takes {e : Trap} (s : State) (hhook : isHookCause e.cause = false) (h8 : e.cause ≠ 8) : deliver e s = takeTrap e s := by
  unfold deliver
  dsimp only
  rw [if_neg (by simp [hhook]), if_neg (by simp [h8])]

theorem exec_rv_trap {op : Rv} {half : Option (BitVec 16)} {s t : State} {e : Trap} (h : (rvOp op (rvLen half)).run s = .error (.trap e) t) :
    exec (.rv op half) s = .next (deliver e t) := finish_trap h

theorem ecall_run {s : State} (n : Nat) :
    (rvOp .ecall n).run s = .error (.trap { cause := match s.hart.mode with | .u => 8 | .m => 11 }) s := rfl

section
variable {s : State} (hm : s.hart.mode = .u)
include hm

/-- An ECALL from U-mode is served in the same step (R255). -/
theorem deliver_serves : deliver { cause := 8 } s = serve s (takeTrap { cause := 8 } s) := by
  unfold deliver
  dsimp only
  rw [if_neg (by simp [isHookCause]), if_pos ⟨hm, rfl⟩]

theorem exec_ecall_user (half : Option (BitVec 16)) : exec (.rv .ecall half) s = .next (serve s (takeTrap { cause := 8 } s)) := by
  rw [exec_rv_trap (ecall_run _), hm]
  exact congrArg _ (deliver_serves hm)

/-- The row of an ECALL whose x17 names one of its functions does what the ECALL does. -/
theorem ecallRow_serves {fn : Nat → Bool} (hf : fn (s.hart.xr 17).toNat = true) :
    ecallRow fn s = .next (serve s (takeTrap { cause := 8 } s)) := by
  rw [← deliver_serves hm]
  exact if_pos ⟨hm, hf⟩

theorem execAbort_user : execAbort s = ecallRow (· = 0x102) s := if_neg (by simp [Hart.trapped, hm])
end

theorem serve_unknown {s t : State} (h : (s.hart.xr 17).toNat < 0x100 ∨ 0x102 < (s.hart.xr 17).toNat) : serve s t = endOwnLaunch 8 t := by
  unfold serve
  split <;> first | omega | rfl

theorem endOwnLaunch_eq {s : State} {j : Job} (h : s.hart.job = some j) (c : Nat) : endOwnLaunch c s = endLaunch j.launch c s := by
  rw [endOwnLaunch, h]

theorem clearVxi_cases (s : State) : clearVxi s = s ∨ clearVxi s = { s with hart := { s.hart with vxi := 0, skipped := [] } } := by
  unfold clearVxi
  split
  · exact .inl rfl
  · split
    · exact .inl rfl
    · exact .inr rfl

theorem ecallAndEbreakTrap : EcallAndEbreakTrap := by
  refine ⟨fun half s => ⟨takeTrap { cause := 3 } s, ?_, rfl, rfl, rfl, rfl, rfl⟩,
    fun half s hm => ⟨takeTrap { cause := 11 } s, ?_, rfl, rfl, rfl, rfl, rfl⟩⟩
  · rw [← deliver_takes s rfl (by decide)]
    exact exec_rv_trap rfl
  · rw [exec_rv_trap (ecall_run _), hm]
    exact congrArg _ (deliver_takes s rfl (by decide))

/-- HOOKSET sets, clears or refuses the hook (R255, R257). -/
theorem serveHookset_eq (s : State) :
    let a := s.hart.xr 10
    let refused := a.toNat % 4 ≠ 0
    serveHookset s = { s with hart := { s.hart with
      x := s.hart.x.set 10 (if refused then BitVec.allOnes 64 else 0)
      hook := if refused then s.hart.hook else if a = 0 then none else some a
      pc := s.hart.pc + 4, convoy := [], freshConvoy := true, stopAt := none, pollPoison := false, boundaryWait := false
      remoteFault := none, atOnce := (serveHookset s).forcedDue } } := by
  dsimp only
  unfold serveHookset
  dsimp only
  split <;> rfl

theorem hooksetServes {s : State} (hm : s.hart.mode = .u) (hx : (s.hart.xr 17).toNat = 0x100) :
    exec .hookset s = .next (serveHookset s) ∧ exec (.rv .ecall none) s = .next (serveHookset s) := by
  have hserve : serve s (takeTrap { cause := 8 } s) = serveHookset s := by simp only [serve, hx]
  rw [← hserve]
  exact ⟨ecallRow_serves (fn := (· = 0x100)) hm (decide_eq_true hx), exec_ecall_user hm none⟩

/-- HOOKRET restores the copy, and with it the context that the hook's trap stopped (R256). -/
theorem hookretServes {s : State} {c : HookSave} (hm : s.hart.mode = .u) (hx : (s.hart.xr 17).toNat = 0x101) (hc : s.hart.hookSave = some c) :
    let t := State.resumed (clearVxi { s with hart := leaveHook c (takeTrap { cause := 8 } s).hart })
    exec .hookret s = .next t ∧ exec (.rv .ecall none) s = .next t := by
  have hserve : serve s (takeTrap { cause := 8 } s) = State.resumed (clearVxi { s with hart := leaveHook c (takeTrap { cause := 8 } s).hart }) := by
    simp only [serve, hx, serveHookret, takeTrap_hookSave, hc]
    rfl
  dsimp only
  rw [← hserve]
  exact ⟨ecallRow_serves (fn := (· = 0x101)) hm (decide_eq_true hx), exec_ecall_user hm none⟩

theorem ecallServicesComplete : EcallServicesComplete := by
  refine ⟨fun s hm hx => ⟨_, (hooksetServes hm hx).1, (hooksetServes hm hx).2, serveHookset_eq s⟩, fun s c hm hx hc => ?_,
    fun s j hm hj hx => ?_, fun s j hm hj hx => ?_⟩
  · obtain ⟨hrow, hcall⟩ := hookretServes hm hx hc
    refine ⟨_, hrow, hcall, ?_⟩
    rcases clearVxi_cases { s with hart := leaveHook c (takeTrap { cause := 8 } s).hart } with h | h
    · rw [h]
      exact ⟨rfl, rfl, rfl, rfl, rfl, rfl, rfl, rfl, .inl rfl, rfl, rfl⟩
    · rw [h]
      exact ⟨rfl, rfl, rfl, rfl, rfl, rfl, rfl, rfl, .inr rfl, rfl, rfl⟩
  · have hserve : serve s (takeTrap { cause := 8 } s) = serveAbort (takeTrap { cause := 8 } s) := by
      simp only [serve, hx]
    refine ⟨_, (execAbort_user hm).trans (ecallRow_serves hm (decide_eq_true hx)), exec_ecall_user hm none, ?_⟩
    rw [hserve, serveAbort, takeTrap_hookSave]
    cases s.hart.hookSave <;> exact endOwnLaunch_eq ((takeTrap_job ..).trans hj) _
  · have hserve : serve s (takeTrap { cause := 8 } s) = endLaunch j.launch 8 (takeTrap { cause := 8 } s) :=
      (serve_unknown hx).trans (endOwnLaunch_eq ((takeTrap_job ..).trans hj) 8)
    rw [← hserve]
    exact ⟨ecallRow_serves (fn := fun n => n < 0x100 || 0x102 < n) hm (by simpa using hx), exec_ecall_user hm none⟩

end Sys2Proof.Machine

open Sys2Proof Sys2Proof.Machine Sys2Proof.Claims

/-- Settles O23: the two traps, and each service by the function that x17 names. -/
theorem environmentCallsComplete : Obligations.EnvironmentCallsComplete := ⟨ecallAndEbreakTrap, ecallServicesComplete⟩

end

section
/-!
SUPPORT. The compares of the vector unit: what a run of predicate bits leaves, and each compare by it (R93, R358).
-/

namespace Sys2Proof.Machine
open Sys2Proof.Claims

/-! ## Bits of a predicate -/

theorem getLsbD_setPbit (p : BitVec 8192) (e : Nat) (b : Bool) {i : Nat} (hi : i < 8192) :
    (setPbit p e b).getLsbD i = if i = e then b else p.getLsbD i := by
  unfold setPbit
  by_cases hie : i = e
  · cases b <;> simp [hie, hie ▸ hi]
  · cases b <;> simp [hie, hi]

theorem getLsbD_clearFrom (p : BitVec 8192) (n : Nat) {i : Nat} (hi : i < 8192) :
    (clearFrom p n).getLsbD i = if n ≤ i then false else p.getLsbD i := by
  rw [clearFrom, BitVec.getLsbD_ofNat, Nat.testBit_mod_two_pow]
  by_cases hn : n ≤ i
  · simp [hn]
  · simp [hn, hi, Nat.lt_of_not_le hn, BitVec.getLsbD]

theorem Hart.accrue_vfflags (h : Hart) (fl : FlagSet) (k : Nat) :
    (h.accrue fl).vfflags.getLsbD k = true ↔ h.vfflags.getLsbD k = true ∨ fl.getLsbD k = true := by
  have hk : fl.getLsbD k = true → k < 64 := fun hf => Nat.lt_trans (BitVec.lt_of_getLsbD hf) (by omega)
  simp only [Hart.accrue, BitVec.getLsbD_or, BitVec.getLsbD_setWidth, Bool.or_eq_true, Bool.and_eq_true, decide_eq_true_eq]
  exact or_congr_right ⟨And.right, fun hf => ⟨hk hf, hf⟩⟩

theorem Hart.retire_vfflags (h : Hart) : h.retire.vfflags = h.vfflags := by
  rw [h.retire_eq]

/-! ## A run of bits -/

section
variable {x : VCtx} {pg : BitVec 3} {pd : Nat} {f : Nat → Bool × FlagSet}

/-- Bits and flags are all that a run writes. -/
theorem commitBits_eq (n : Nat) : ∀ {e : Nat} {h : Hart}, commitBits x pg pd f n e h = { h with
    preds := (commitBits x pg pd f n e h).preds, vfflags := (commitBits x pg pd f n e h).vfflags } := by
  induction n with
  | zero => exact rfl
  | succ n ih =>
    intro e h
    rw [commitBits, ih]
    split
    · rw [Hart.accrue, Hart.setP_eq]
    · rfl

theorem commitBits_get_ne {p : Nat} (hp : pd = 0 ∨ p ≠ pd) (n : Nat) : ∀ {e : Nat} {h : Hart},
    (commitBits x pg pd f n e h).preds.get p = h.preds.get p := by
  induction n with
  | zero => exact rfl
  | succ n ih =>
    intro e h
    rw [commitBits, ih]
    split
    · exact h.setP_get_ne _ hp
    · rfl

theorem commitBits_get_self (hpd : pd ≠ 0) {i : Nat} (hi : i < 8192) (n : Nat) : ∀ {e : Nat} {h : Hart},
    ((commitBits x pg pd f n e h).preds.get pd).getLsbD i =
      if e ≤ i ∧ i < e + n ∧ x.h.active pg i = true then (f i).1 else (h.preds.get pd).getLsbD i := by
  induction n with
  | zero =>
    intro e h
    rw [if_neg (by omega)]
    rfl
  | succ n ih =>
    intro e h
    have hwrite : ((h.setP pd (setPbit (h.pr pd) e (f e).1)).accrue (f e).2).preds.get pd = setPbit (h.preds.get pd) e (f e).1 := by
      rw [← if_neg hpd (t := BitVec.allOnes 8192) (e := h.preds.get pd)]
      exact h.setP_get_self _ hpd
    rw [commitBits, ih]
    by_cases hie : i = e
    · subst hie
      rw [if_neg (by omega)]
      by_cases ha : x.h.active pg i = true
      · rw [if_pos ha, hwrite, getLsbD_setPbit _ _ _ hi, if_pos rfl, if_pos ⟨Nat.le_refl i, by omega, ha⟩]
      · rw [if_neg ha, if_neg fun h => ha h.2.2]
    · have hrange : (e + 1 ≤ i ∧ i < e + 1 + n ∧ x.h.active pg i = true) ↔ (e ≤ i ∧ i < e + (n + 1) ∧ x.h.active pg i = true) :=
        ⟨fun ⟨h1, h2, h3⟩ => ⟨by omega, by omega, h3⟩, fun ⟨h1, h2, h3⟩ => ⟨by omega, by omega, h3⟩⟩
      simp only [hrange]
      congr 1
      split
      · rw [hwrite, getLsbD_setPbit _ _ _ hi, if_neg hie]
      · rfl

theorem commitBits_vfflags {k : Nat} (n : Nat) : ∀ {e : Nat} {h : Hart}, (commitBits x pg pd f n e h).vfflags.getLsbD k = true ↔
    h.vfflags.getLsbD k = true ∨ ∃ i, x.commits pg e n i ∧ (f i).2.getLsbD k = true := by
  induction n with
  | zero => exact fun {e h} => ⟨.inl, fun h => h.resolve_right fun ⟨i, ⟨h1, h2, _⟩, _⟩ => absurd h2 (by omega)⟩
  | succ n ih =>
    intro e h
    rw [commitBits, ih]
    simp only [VCtx.commits_succ, or_and_right, exists_or, and_assoc, exists_eq_left]
    split
    next hact =>
      rw [Hart.accrue_vfflags, Hart.setP_eq, or_assoc, and_iff_right hact]
    next hact => simp only [hact, false_and, false_or, Bool.false_eq_true]
end

/-! ## A compare -/

/-- The hart behind the run of a compare: the bits from nel() up cleared, the active elements' bits and flags written. -/
def compared (x : VCtx) (v : VOp) (f : Nat → Bool × FlagSet) : Hart :=
  commitBits x v.pg v.vd.toNat f (x.h.nel - x.h.vxi) x.h.vxi (x.h.setP v.vd.toNat (clearFrom (x.h.pr v.vd.toNat) x.h.nel))

section
variable {x : VCtx} {v : VOp} {f : Nat → Bool × FlagSet}

theorem compared_eq : compared x v f = { x.h with preds := (compared x v f).preds, vfflags := (compared x v f).vfflags } := by
  rw [compared, commitBits_eq, Hart.setP_eq]

theorem compared_get_self (hv : v.vd ≠ 0) {e : Nat} (he : e < 8192) : ((compared x v f).preds.get v.vd.toNat).getLsbD e =
    if x.h.nel ≤ e then false
    else if x.h.vxi ≤ e ∧ x.h.active v.pg e = true then (f e).1 else (x.h.preds.get v.vd.toNat).getLsbD e := by
  have hpd : v.vd.toNat ≠ 0 := fun h => hv (BitVec.eq_of_toNat_eq h)
  rw [compared, commitBits_get_self hpd he, Hart.setP_get_self _ _ hpd, getLsbD_clearFrom _ _ he, Hart.pr, if_neg hpd]
  by_cases hn : x.h.nel ≤ e
  · rw [if_neg (by omega), if_pos hn, if_pos hn]
  · have hrun : (x.h.vxi ≤ e ∧ e < x.h.vxi + (x.h.nel - x.h.vxi) ∧ x.h.active v.pg e = true) ↔
        (x.h.vxi ≤ e ∧ x.h.active v.pg e = true) :=
      ⟨fun ⟨h1, _, h3⟩ => ⟨h1, h3⟩, fun ⟨h1, h3⟩ => ⟨h1, by omega, h3⟩⟩
    simp only [hrun, if_neg hn]

theorem compared_get_ne {p : Nat} (hp : v.vd = 0 ∨ p ≠ v.vd.toNat) : (compared x v f).preds.get p = x.h.preds.get p := by
  have hp' : v.vd.toNat = 0 ∨ p ≠ v.vd.toNat := hp.imp_left fun h => by rw [h]; rfl
  rw [compared, commitBits_get_ne hp', Hart.setP_get_ne _ _ hp']

theorem compared_vfflags (k : Nat) : (compared x v f).vfflags.getLsbD k = true ↔ x.h.vfflags.getLsbD k = true ∨
    ∃ e, x.h.vxi ≤ e ∧ e < x.h.nel ∧ x.h.active v.pg e = true ∧ (f e).2.getLsbD k = true := by
  rw [compared, commitBits_vfflags, Hart.setP_eq]
  refine or_congr_right (exists_congr fun e => ?_)
  constructor
  · rintro ⟨⟨h1, h2, h3⟩, h4⟩
    exact ⟨h1, by omega, h3, h4⟩
  · rintro ⟨h1, h2, h3, h4⟩
    exact ⟨⟨h1, by omega, h3⟩, h4⟩
end

theorem Hart.vectorDone_eq {h : Hart} (hst : h.stopAt = none) {unit : VUnit} (hu : unit ≠ .pred) :
    h.vectorDone unit = { h with vxi := 0, skipped := [], rotation := h.rotation + 1 } := by
  rw [Hart.vectorDone, if_neg hu, ← hst]

/-- What a compare runs up to position `stop`. -/
def compareBody (v : VOp) (sg : Bool) (f : VCtx → Nat → Nat → Bool × FlagSet) (c : Cap) (stop : Nat) : Op Unit := do
  let x ← vctx
  modH fun h => h.setP v.vd.toNat (clearFrom (h.pr v.vd.toNat) x.h.nel)
  modH (commitBits x v.pg v.vd.toNat (fun e => f x (x.elem v.vs2 e) (x.src c v.b sg e)) (stop - x.h.vxi) x.h.vxi)

theorem compare_eq (v : VOp) (sg : Bool) (suits : Hart → Bool) (f : VCtx → Nat → Nat → Bool × FlagSet) (c : Cap) :
    compare v sg suits f c = (do
      let h ← getH
      vecChecks .vprm v.c (v.vs2 :: srcRegs v.b) h.eb suits
      vecRun .vprm 1 h.nel h.pc (compareBody v sg f c)) := rfl

/-- A compare whose checks pass and that nothing disturbs runs to its end. -/
theorem compare_completes {v : VOp} {sg : Bool} {suits : Hart → Bool} {f : VCtx → Nat → Nat → Bool × FlagSet} {c : Cap} {s : State}
    {g : Nat → Bool × FlagSet} (hc : checksPass s .vprm v.c (v.vs2 :: srcRegs v.b) s.hart.eb (suits s.hart)) (hu : undisturbed s.hart)
    (hg : ∀ e, let x : VCtx := { h := joined .vprm v.c s.hart, cap := s.capC s.hart }
      f x (x.elem v.vs2 e) (x.src c v.b sg e) = g e) :
    dispatch (compare v sg suits f c) s = .next (Claims.onHart s (past { compared { h := joined .vprm v.c s.hart, cap := s.capC s.hart } v g with
      vxi := 0, skipped := [], rotation := s.hart.rotation + 1 })) := by
  have hstop : (compared { h := joined .vprm v.c s.hart, cap := s.capC s.hart } v g).stopAt = none := by
    rw [compared_eq]
    exact hu.2
  have hrot : (compared { h := joined .vprm v.c s.hart, cap := s.capC s.hart } v g).rotation = s.hart.rotation := by
    rw [compared_eq]
    rfl
  have hbody : (compareBody v sg f c s.hart.nel).run { s with hart := joined .vprm v.c s.hart } =
      .ok () { s with hart := compared { h := joined .vprm v.c s.hart, cap := s.capC s.hart } v g } := by
    rw [← funext hg]
    rfl
  have hrun := vecRun_undisturbed (unit := .vprm) (step := 1) (pc := s.hart.pc) hbody (undisturbed_joined hu .vprm v.c)
  rw [Hart.vectorDone_eq hstop (by decide), hrot] at hrun
  rw [compare_eq]
  exact finish_ok (Op.bind_ok (Op.bind_ok (Op.run_getH s) (Op.bind_ok (vecChecks_passes (suits := suits) hc) hrun)) rfl)

/-- What the state of a running compare is to leave. -/
def comparesTo (i : Instr) (s : State) (v : VOp) (f : Nat → Bool × FlagSet) : Prop :=
  exec i s = .next (Claims.onHart s (past { compared { h := joined .vprm v.c s.hart, cap := s.capC s.hart } v f with
    vxi := 0, skipped := [], rotation := s.hart.rotation + 1 }))

section
variable {i : Instr} {s : State} {v : VOp} {sg : Bool}

theorem intCompare_comparesTo {g : Nat → Nat → Nat → Bool} (hi : exec i s = dispatch (intCompare v sg g (captureV v s.hart)) s)
    (hc : checksPass s .vprm v.c (v.vs2 :: srcRegs v.b) s.hart.eb true) (hu : undisturbed s.hart) :
    comparesTo i s v fun e => (g (8 * s.hart.eb) ((Claims.reads s).elem v.vs2 e) ((Claims.reads s).src (captureV v s.hart) v.b sg e), 0) := by
  refine hi.trans (compare_completes (suits := anyType) hc hu fun e => ?_)
  simp only [elem_joined, src_joined, w_joined]
  rfl

theorem fltCompare_comparesTo {orEq : Bool}
    (hi : exec i s = dispatch (compare v true floatType (fun x => fltCond x.h.etype orEq) (captureV v s.hart)) s)
    (hc : checksPass s .vprm v.c (v.vs2 :: srcRegs v.b) s.hart.eb (isFloat s.hart.etype)) (hu : undisturbed s.hart) :
    comparesTo i s v fun e => fltCond s.hart.etype orEq ((Claims.reads s).elem v.vs2 e) ((Claims.reads s).src (captureV v s.hart) v.b true e) := by
  refine hi.trans (compare_completes (suits := floatType) hc hu fun e => ?_)
  simp only [elem_joined, src_joined]
  rfl

theorem fltCond_lt (t a b : Nat) : fltCond t false a b = if (fxOf t a).isNan || (fxOf t b).isNan then (false, flNV)
    else (decide (cmpFx (fxOf t a) (fxOf t b) = .lt), 0) := by
  simp only [fltCond]
  cases cmpFx (fxOf t a) (fxOf t b) <;> simp

theorem fltCond_le (t a b : Nat) : fltCond t true a b = if (fxOf t a).isNan || (fxOf t b).isNan then (false, flNV)
    else (decide (cmpFx (fxOf t a) (fxOf t b) ≠ .gt), 0) := by
  simp only [fltCond]
  cases cmpFx (fxOf t a) (fxOf t b) <;> simp
end

theorem compareOf_comparesTo {i : Instr} {s : State} {v : VOp} {suits : Bool} {f : Nat → Bool × FlagSet}
    (h : compareOf s i = some (v, suits, f)) (hc : checksPass s .vprm v.c (v.vs2 :: srcRegs v.b) s.hart.eb suits)
    (hu : undisturbed s.hart) : comparesTo i s v f := by
  unfold compareOf at h
  split at h
  case h_7 =>
    cases h
    have hrun := fltCompare_comparesTo (i := .vfcmplt v) (orEq := false) rfl hc hu
    simp only [fltCond_lt] at hrun
    exact hrun
  case h_8 =>
    cases h
    have hrun := fltCompare_comparesTo (i := .vfcmple v) (orEq := true) rfl hc hu
    simp only [fltCond_le] at hrun
    exact hrun
  case h_9 => exact absurd h (by simp)
  case h_1 => cases h; exact intCompare_comparesTo (g := eqC) rfl hc hu
  case h_2 => cases h; exact intCompare_comparesTo (g := neC) rfl hc hu
  case h_3 => cases h; exact intCompare_comparesTo (g := ltC) rfl hc hu
  case h_4 => cases h; exact intCompare_comparesTo (g := leC) rfl hc hu
  case h_5 => cases h; exact intCompare_comparesTo (g := ltuC) rfl hc hu
  case h_6 => cases h; exact intCompare_comparesTo (g := leuC) rfl hc hu

end Sys2Proof.Machine

open Sys2Proof Sys2Proof.Machine Sys2Proof.Claims

/-- Settles O31: every compare runs to its end, and leaves what its run of bits leaves. -/
theorem vectorComparesComplete : Obligations.VectorComparesComplete := by
  intro i s v suits f h hregs hfits hsuits hjoins hu
  refine ⟨_, compareOf_comparesTo h ⟨hregs, hfits, hsuits, hjoins⟩ hu, rfl, ?_, fun hv e he => ?_, fun p hp => ?_, fun k => ?_⟩
  · simp only [Claims.onHart, State.retire, Hart.retire_preds, Hart.retire_vfflags]
    rw [compared_eq]
    rfl
  · simp only [Claims.onHart, State.retire, Hart.retire_preds]
    exact compared_get_self hv he
  · simp only [Claims.onHart, State.retire, Hart.retire_preds]
    exact compared_get_ne hp
  · simp only [Claims.onHart, State.retire, Hart.retire_vfflags]
    exact compared_vfflags k
end

section
/-!
SUPPORT. The scalar floating-point instructions: what their operations write, and the exact arithmetic that they round (R103).
-/

namespace Sys2Proof.Machine
open Sys2Proof.Claims

/-! ## Parts of the operations -/

theorem roundingMode_run {s : State} {rm : BitVec 3} {m : Rm} (h : rmNamed s.hart rm = some m) : (roundingMode rm).run s = .ok m s := by
  unfold rmNamed at h
  refine Op.bind_ok (Op.run_getH s) ?_
  rw [h]
  rfl

theorem roundingMode_refuses {s : State} {rm : BitVec 3} (h : rmNamed s.hart rm = none) : (roundingMode rm).refuses s := by
  unfold rmNamed at h
  refine Op.bind_ok (Op.run_getH s) ?_
  rw [h]
  rfl

theorem needFs_refuses {s : State} (h : s.hart.fsOn = false) : needFs.refuses s :=
  Op.bind_ok (Op.run_getH s) (by rw [h]; rfl)

/-- No flag leaves fcsr; the flags accrue. -/
theorem fcsrWith_zero (h : Hart) : fcsrWith h 0 = h.fcsr := by simp [fcsrWith]

theorem accrueScalar_run (fl : FlagSet) (s : State) : (accrueScalar fl).run s = .ok () { s with hart := { s.hart with
    fcsr := fcsrWith s.hart fl, mstatus := if fl = 0 then s.hart.mstatus else s.hart.mstatus ||| 0x6000#64 } } := by
  unfold accrueScalar
  split
  next h =>
    subst h
    rw [fcsrWith_zero]
    rfl
  · rfl

theorem Hart.fsDirty_twice (h : Hart) : h.mstatus ||| 0x6000#64 ||| 0x6000#64 = h.mstatus ||| 0x6000#64 := by
  rw [BitVec.or_assoc, BitVec.or_self]

/-- The state after an f register has been written, with flags accrued. -/
def fpDone (s : State) (rd : BitVec 5) (r : Word × FlagSet) : State :=
  { s with hart := { (s.hart.setF rd r.1).fsDirty with fcsr := fcsrWith s.hart r.2 } }

theorem accrueScalar_written (s : State) (rd : BitVec 5) (v : Word) (fl : FlagSet) :
    (accrueScalar fl).run { s with hart := (s.hart.setF rd v).fsDirty } = .ok () (fpDone s rd (v, fl)) := by
  have hdirty : (if fl = 0 then (s.hart.setF rd v).fsDirty.mstatus else (s.hart.setF rd v).fsDirty.mstatus ||| 0x6000#64) =
      s.hart.mstatus ||| 0x6000#64 := by
    split
    · rfl
    · exact s.hart.fsDirty_twice
  rw [accrueScalar_run, hdirty]
  rfl

theorem writeF_run (f : FFmt) (r : BitVec 5) (v : Nat) (s : State) : (writeF f r v).run s = .ok () (fpDone s r (boxed f v, 0)) := by
  unfold fpDone
  rw [fcsrWith_zero]
  rfl

theorem writeRounded_run (f : FFmt) (r : BitVec 5) (m : Rm) (x : Fx × FlagSet) (s : State) :
    (writeRounded f r m x).run s = .ok () (fpDone s r (fpRounded f m x)) :=
  Op.bind_ok rfl (accrueScalar_written s r _ _)

/-- An operation that rounds under a named mode. -/
theorem rounding_run {s t : State} {rm : BitVec 3} {m : Rm} {g : Rm → Hart → Op Unit} (hfs : s.hart.fsOn = true)
    (hm : rmNamed s.hart rm = some m) (hg : (g m s.hart).run s = .ok () t) :
    (do needFs; let m ← roundingMode rm; let h ← getH; g m h : Op Unit).run s = .ok () t :=
  Op.bind_ok (needFs_run hfs) (Op.bind_ok (roundingMode_run hm) (Op.bind_ok (Op.run_getH s) hg))

/-- An operation that needs no mode. -/
theorem plain_run {s t : State} {g : Hart → Op Unit} (hfs : s.hart.fsOn = true) (hg : (g s.hart).run s = .ok () t) :
    (do needFs; let h ← getH; g h : Op Unit).run s = .ok () t :=
  Op.bind_ok (needFs_run hfs) (Op.bind_ok (Op.run_getH s) hg)

theorem fWithSign_eq (f : FFmt) (v : Nat) (b : Bool) : fWithSign f v b =
    v % 2 ^ ((fmtOfF f).width - 1) + (if b then 2 ^ ((fmtOfF f).width - 1) else 0) := by
  cases f <;> rfl

/-- An operation on f registers writes its result (Table 04-14). -/
theorem fpOp_run {op : Rv} {x : Op Unit} {s : State} {m : Rm} {r : Word × FlagSet} (hx : fpOp op = some x) (hfs : s.hart.fsOn = true)
    (hm : rmNamed s.hart (fpRm op) = some m) (hr : fpResult s.hart m op = some r) : x.run s = .ok () (fpDone s (fpDest op) r) := by
  cases op
  case farith op f rm rd a b =>
    cases hx; cases hr
    exact rounding_run hfs hm (writeRounded_run ..)
  case fsqrt f rm rd a =>
    cases hx; cases hr
    exact rounding_run hfs hm (writeRounded_run ..)
  case fma op f rm rd a b c =>
    cases hx; cases hr
    refine rounding_run hfs hm ?_
    cases op <;> exact writeRounded_run ..
  case fsgnj op f rd a b =>
    cases hx; cases hr
    refine plain_run hfs ?_
    rw [← fWithSign_eq]
    cases op <;> exact writeF_run ..
  case fminmax mx f rd a b =>
    cases hx; cases hr
    exact plain_run hfs (Op.bind_ok rfl (accrueScalar_written ..))
  case fcvtFF dst src rm rd a =>
    cases hx; cases hr
    exact rounding_run hfs hm (writeRounded_run ..)
  case fcvtFI f src rm rd a =>
    cases hx; cases hr
    exact rounding_run hfs hm (writeRounded_run ..)
  case fmvFX f rd a =>
    cases hx; cases hr
    exact plain_run hfs (writeF_run ..)
  all_goals cases hx

/-- Such an operation is all that its instruction does, but for the pc. -/
theorem rvOp_fpOp {op : Rv} {x : Op Unit} (hx : fpOp op = some x) (n : Nat) :
    rvOp op n = (do let h ← getH; x; setPc (h.pc + BitVec.ofNat 64 n)) := by
  cases op <;> cases hx <;> rfl

theorem fpResult_fpOp {op : Rv} {h : Hart} {m : Rm} {r : Word × FlagSet} (hr : fpResult h m op = some r) : ∃ x, fpOp op = some x := by
  cases op <;> cases hr <;> exact ⟨_, rfl⟩

theorem exec_fpOp {op : Rv} {half : Option (BitVec 16)} {s : State} {m : Rm} {v : Word} {fl : FlagSet} (hfs : s.hart.fsOn = true)
    (hm : rmNamed s.hart (fpRm op) = some m) (hr : fpResult s.hart m op = some (v, fl)) :
    exec (.rv op half) s = .next (Claims.onHart s { (s.hart.setF (fpDest op) v).fsDirty with
      fcsr := fcsrWith s.hart fl, pc := s.hart.pc + BitVec.ofNat 64 (rvLen half) }) := by
  obtain ⟨x, hx⟩ := fpResult_fpOp hr
  refine exec_rv_ok ?_
  rw [rvOp_fpOp hx]
  exact Op.bind_ok (Op.run_getH s) (Op.bind_ok (fpOp_run hx hfs hm hr) rfl)

/-! ## Results in x registers -/

theorem ofInt_setWidth (v : Int) : (BitVec.ofInt 64 v).setWidth 32 = BitVec.ofInt 32 v := by
  refine BitVec.eq_of_toNat_eq ?_
  rw [BitVec.toNat_setWidth, BitVec.toNat_ofInt, BitVec.toNat_ofInt]
  omega

theorem sextN_32 (v : Word) : sextN 32 v.toNat = (v.setWidth 32).signExtend 64 := by
  rw [← sextN_toNat]
  simp [sextN, toSigned]

theorem intInX_eq (i : IFmt) (v : Int) : intInX i v = match i with
    | .w | .wu => sextN 32 (BitVec.ofInt 64 v).toNat
    | _ => BitVec.ofInt 64 v := by
  cases i <;> simp only [intInX, sextN_32, ofInt_setWidth]

theorem exec_fcvtIF {i : IFmt} {f : FFmt} {rm : BitVec 3} {rd a : BitVec 5} {half : Option (BitVec 16)} {s : State} {m : Rm}
    (hfs : s.hart.fsOn = true) (hm : rmNamed s.hart rm = some m) :
    let r := toIntFx m (ifmtLimits i).1 (ifmtLimits i).2 (ifmtLimits i).2 (s.hart.frVal f a)
    exec (.rv (.fcvtIF i f rm rd a) half) s = .next (Claims.onHart s { s.hart.setX rd (intInX i r.1) with
      fcsr := fcsrWith s.hart r.2, mstatus := if r.2 = 0 then s.hart.mstatus else s.hart.mstatus ||| 0x6000#64
      pc := s.hart.pc + BitVec.ofNat 64 (rvLen half) }) := by
  dsimp only
  rw [intInX_eq]
  refine exec_rv_ok (Op.bind_ok (Op.run_getH s) (Op.bind_ok (rounding_run hfs hm (Op.bind_ok rfl (accrueScalar_run ..))) rfl))

/-- What a comparison answers, and whether it is invalid. -/
theorem exec_fcmp {op : FCmp} {f : FFmt} {rd a b : BitVec 5} {half : Option (BitVec 16)} {s : State} (hfs : s.hart.fsOn = true) :
    let x := s.hart.frVal f a
    let y := s.hart.frVal f b
    let invalid := if op = .eq then x.isSnan || y.isSnan else x.isNan || y.isNan
    exec (.rv (.fcmp op f rd a b) half) s =
      .next (Claims.onHart s { s.hart.setX rd (if !x.isNan && !y.isNan && (match op with
            | .eq => cmpFx x y = .eq
            | .lt => cmpFx x y = .lt
            | .le => cmpFx x y ≠ .gt) then 1 else 0) with
        fcsr := fcsrWith s.hart (if invalid then flNV else 0)
        mstatus := if invalid then s.hart.mstatus ||| 0x6000#64 else s.hart.mstatus
        pc := s.hart.pc + BitVec.ofNat 64 (rvLen half) }) := by
  dsimp only
  have hdirty : ∀ inv : Bool, (if inv then s.hart.mstatus ||| 0x6000#64 else s.hart.mstatus) =
      if (if inv then flNV else 0) = 0 then s.hart.mstatus else s.hart.mstatus ||| 0x6000#64 := fun inv => by cases inv <;> rfl
  simp only [hdirty, ← Bool.not_or]
  cases op
  all_goals exact exec_rv_ok (Op.bind_ok (Op.run_getH s) (Op.bind_ok (plain_run hfs (Op.bind_ok rfl (accrueScalar_run ..))) rfl))

theorem exec_fmvXF {f : FFmt} {rd a : BitVec 5} {half : Option (BitVec 16)} {s : State} (hfs : s.hart.fsOn = true) :
    exec (.rv (.fmvXF f rd a) half) s = .next (Claims.onHart s { s.hart.setX rd (match f with
      | .d => s.hart.fr a
      | .s => ((s.hart.fr a).setWidth 32).signExtend 64) with pc := s.hart.pc + BitVec.ofNat 64 (rvLen half) }) := by
  rw [← sextN_32]
  exact exec_rv_ok (Op.bind_ok (Op.run_getH s) (Op.bind_ok (plain_run hfs (Op.run_writeX ..)) rfl))

theorem exec_fclass {f : FFmt} {rd a : BitVec 5} {half : Option (BitVec 16)} {s : State} (hfs : s.hart.fsOn = true) :
    exec (.rv (.fclass f rd a) half) s = .next (Claims.onHart s { s.hart.setX rd (1#64 <<< fclassBit f (s.hart.frBits f a)) with
      pc := s.hart.pc + BitVec.ofNat 64 (rvLen half) }) := by
  have hbit : ∀ k, 1#64 <<< k = BitVec.ofNat 64 (2 ^ k) := fun k => BitVec.eq_of_toNat_eq (by simp [Nat.shiftLeft_eq])
  rw [hbit]
  exact exec_rv_ok (Op.bind_ok (Op.run_getH s) (Op.bind_ok (plain_run hfs (Op.run_writeX ..)) rfl))

/-! ## Exact arithmetic -/

theorem finValue_eq (neg : Bool) (m : Nat) (e : Int) : finValue neg m e = signedMant neg m * (2 : Rat) ^ e := by
  cases neg <;> simp [finValue, signedMant]

/-- A mantissa aligned to a smaller exponent. -/
theorem aligned_value (v : Int) {e e' : Int} (h : e' ≤ e) : ((v * 2 ^ (e - e').toNat : Int) : Rat) * (2 : Rat) ^ e' = v * (2 : Rat) ^ e := by
  have hexp : ((e - e').toNat : Int) + e' = e := by omega
  rw [Int.cast_mul, Int.cast_pow, Int.cast_ofNat, mul_assoc, ← zpow_natCast, ← zpow_add₀ (by decide), hexp]

theorem signedMant_natAbs (v : Int) : signedMant (decide (v < 0)) v.natAbs = v := by
  unfold signedMant
  by_cases h : v < 0
  · simp only [h, decide_true, if_true]
    omega
  · simp only [h, decide_false, Bool.false_eq_true, if_false]
    omega

/-- The sum of finite numbers is exact. -/
theorem addFx_exact (rm : Rm) (a : Bool) (m : Nat) (b : Bool) (n : Nat) (e e' : Int) : ∃ k m' f,
    addFx rm (.fin a m e) (.fin b n e') = (.fin k m' f, 0) ∧ finValue k m' f = finValue a m e + finValue b n e' := by
  have hsum := congrArg₂ (· + ·) (aligned_value (signedMant a m) (Int.min_le_left e e')) (aligned_value (signedMant b n) (Int.min_le_right e e'))
  simp only [← add_mul, ← Int.cast_add, ← finValue_eq] at hsum
  rw [← hsum]
  simp only [addFx]
  split
  next h =>
    refine ⟨_, _, _, rfl, ?_⟩
    rw [h]
    simp [finValue]
  next h =>
    refine ⟨_, _, _, rfl, ?_⟩
    rw [finValue_eq, signedMant_natAbs]

theorem mulFx_exact (a : Bool) (m : Nat) (b : Bool) (n : Nat) (e e' : Int) :
    finValue (a != b) (m * n) (e + e') = finValue a m e * finValue b n e' := by
  have hsign : signedMant (a != b) (m * n) = signedMant a m * signedMant b n := by
    cases a <;> cases b <;> simp [signedMant]
  rw [finValue_eq, finValue_eq, finValue_eq, hsign, zpow_add₀ (by decide), Int.cast_mul]
  ring

/-- Every operation on a NaN answers one. -/
theorem nan_operand (m : Rm) (q : Bool) (x : Fx) : (addFx m (.nan q) x).1 = .nan false ∧ (mulFx x (.nan q)).1 = .nan false ∧
    (divFx (.nan q) x).1 = .nan false ∧ (sqrtFx (.nan q)).1 = .nan false := by
  cases x <;> exact ⟨rfl, rfl, rfl, rfl⟩

theorem fpRounded_nan {f : FFmt} {m : Rm} {x : Fx × FlagSet} (h : x.1 = .nan false) : (fpRounded f m x).1 = boxed f (canonicalNan (fmtOfF f)) := by
  rw [fpRounded, h]
  cases f <;> rfl

theorem ifmtLimits_ordered (i : IFmt) : (ifmtLimits i).1 ≤ (ifmtLimits i).2 := by
  cases i <;> decide

/-- A conversion to integers clamps. -/
theorem toIntFx_clamps {lo hi : Int} (h : lo ≤ hi) (m : Rm) (x : Fx) : lo ≤ (toIntFx m lo hi hi x).1 ∧ (toIntFx m lo hi hi x).1 ≤ hi := by
  cases x with
  | nan q => exact ⟨h, Int.le_refl hi⟩
  | inf n => cases n <;> simp [toIntFx, h]
  | fin neg k e =>
    simp only [toIntFx]
    split
    · exact ⟨Int.le_refl lo, h⟩
    · split
      · exact ⟨h, Int.le_refl hi⟩
      · exact ⟨by omega, by omega⟩

theorem toIntFx_nan {lo hi : Int} (m : Rm) {x : Fx} (h : x.isNan = true) : toIntFx m lo hi hi x = (hi, flNV) := by
  cases x with
  | nan q => rfl
  | inf n => cases h
  | fin neg k e => cases h

/-! ## Refusals -/

/-- An instruction whose operation refuses. -/
theorem exec_rv_refuses {op : Rv} {half : Option (BitVec 16)} {s : State} {x : Op Unit}
    (hx : rvOp op (rvLen half) = (do let h ← getH; x; setPc (h.pc + BitVec.ofNat 64 (rvLen half)))) (hr : x.refuses s) :
    exec (.rv op half) s = .next (deliver { cause := 2 } s) := by
  refine exec_rv_trap ?_
  rw [hx]
  exact Op.bind_ok (Op.run_getH s) (Op.bind_error hr)

/-- Every operation on f registers needs FS (PRESUMED log 7). -/
theorem fpOp_fsOff {op : Rv} {x : Op Unit} {s : State} (hx : fpOp op = some x) (hfs : s.hart.fsOn = false) : x.refuses s := by
  cases op <;> cases hx <;> exact Op.bind_error (needFs_refuses hfs)

/-- An operation that rounds refuses a reserved mode. -/
theorem fpOp_reserved {op : Rv} {x : Op Unit} {s : State} (hx : fpOp op = some x) (hfs : s.hart.fsOn = true)
    (hm : rmNamed s.hart (fpRm op) = none) : x.refuses s := by
  cases op
  case farith | fsqrt | fma | fcvtFF | fcvtFI =>
    cases hx
    exact Op.bind_ok (needFs_run hfs) (Op.bind_error (roundingMode_refuses hm))
  case fsgnj | fminmax | fmvFX => cases hm
  all_goals cases hx

theorem exec_fsOff {op : Rv} {half : Option (BitVec 16)} {s : State} (h : (fpOp op).isSome = true ∨ (∃ o f rd a b, op = .fcmp o f rd a b) ∨
    (∃ i f rm rd a, op = .fcvtIF i f rm rd a) ∨ (∃ f rd a, op = .fmvXF f rd a ∨ op = .fclass f rd a) ∨
    (∃ f rd a imm, op = .fload f rd a imm ∨ op = .fstore f rd a imm)) (hfs : s.hart.fsOn = false) :
    exec (.rv op half) s = .next (deliver { cause := 2 } s) := by
  have hneeds : ∀ k : Unit → Op Unit, (needFs >>= k).refuses s := fun k => Op.bind_error (needFs_refuses hfs)
  rcases h with h | ⟨o, f, rd, a, b, rfl⟩ | ⟨i, f, rm, rd, a, rfl⟩ | ⟨f, rd, a, rfl | rfl⟩ | ⟨f, rd, a, imm, rfl | rfl⟩
  · obtain ⟨x, hx⟩ := Option.isSome_iff_exists.mp h
    exact exec_rv_refuses (rvOp_fpOp hx _) (fpOp_fsOff hx hfs)
  all_goals exact exec_rv_refuses rfl (hneeds _)

end Sys2Proof.Machine

open Sys2Proof Sys2Proof.Machine Sys2Proof.Claims

/-- Settles O17: each instruction by its operation, the exact arithmetic by the values of its results. -/
theorem scalarFloatCompletes : Obligations.ScalarFloatCompletes := by
  refine ⟨fun op half s m v fl hfs hm hr => exec_fpOp hfs hm hr, fun op f rd a b half s hfs => exec_fcmp hfs,
    fun i f rm rd a half s m hfs hm => exec_fcvtIF hfs hm, fun f rd a half s hfs => ⟨exec_fmvXF hfs, exec_fclass hfs⟩,
    fun rm a m b n e e' => ?_, fun a m b e e' hm => ⟨?_, ?_⟩, fun f m q x => ?_,
    fun i m x => ⟨(toIntFx_clamps (ifmtLimits_ordered i) m x).1, (toIntFx_clamps (ifmtLimits_ordered i) m x).2, toIntFx_nan m⟩,
    fun op half s h hfs => exec_fsOff h hfs, fun op half s h hfs hm => ?_, fun i f rm rd a half s hfs hm => ?_⟩
  · obtain ⟨k, m', f, hadd, hval⟩ := addFx_exact rm a m b n e e'
    exact ⟨k, m', f, hadd, hval, rfl, mulFx_exact a m b n e e'⟩
  · simp [divFx, hm]
  · simp [sqrtFx, hm]
  · obtain ⟨hadd, hmul, hdiv, hsqrt⟩ := nan_operand m q x
    exact ⟨fpRounded_nan hadd, fpRounded_nan hmul, fpRounded_nan hdiv, fpRounded_nan hsqrt⟩
  · obtain ⟨x, hx⟩ := Option.isSome_iff_exists.mp h
    exact exec_rv_refuses (rvOp_fpOp hx _) (fpOp_reserved hx hfs hm)
  · exact exec_rv_refuses (x := fcvtIFOp i f rm rd a) rfl (Op.bind_ok (needFs_run hfs) (Op.bind_error (roundingMode_refuses hm)))
end

section
/-!
SUPPORT. What a write of placed bytes leaves: the rules for a block of a scratchpad (R135, R136), for one byte written at a place, and for
the bytes of a whole access, of memory under the key of a page or of a scratchpad (R109, R151, R196).
-/

namespace Sys2Proof.Machine
open Sys2Proof.Claims

/-! ## Blocks -/

/-- Two bytes of one scratchpad block, or of 256 bytes of memory. -/
def Loc.sameBlock (l l' : Loc) : Prop := l.offset / 256 = l'.offset / 256 ∧ l = l'.move l.offset

theorem find?_putHart_ne {h : Hart} {id : Nat} (hne : id ≠ h.id) (hs : List Hart) :
    (putHart h hs).find? (·.id = id) = hs.find? (·.id = id) := by
  have hh : ¬ h.id = id := fun e => hne e.symm
  induction hs with
  | nil => simp [putHart, hh]
  | cons g t ih =>
    unfold putHart
    split
    next hg => simp [hg, hh]
    next => simp [List.find?_cons, ih]

theorem State.hartOf_setHart_ne {h : Hart} {id : Nat} (hne : id ≠ h.id) (s : State) : (s.setHart h).hartOf id = s.hartOf id := by
  have hh : ¬ h.id = id := fun e => hne e.symm
  unfold State.setHart State.hartOf
  split
  next hs => simp [hs, hh]
  next => simp [find?_putHart_ne hne]

theorem State.setHart_cluster (s : State) (h : Hart) (c : Nat) : (s.setHart h).cluster c = s.cluster c := by
  unfold State.setHart
  split <;> rfl

section
variable {s : State} {l l' : Loc} {v : Block}

theorem State.block_sameBlock (h : l'.sameBlock l) (s : State) : s.block l' = s.block l := by
  obtain ⟨ho, hm⟩ := h
  rw [hm]
  cases l with
  | mem a => rfl
  | core i o => exact congrArg (fun q => some (((s.hartOf i).pool.get? q).getD .unwritten)) ho
  | cluster c o => exact congrArg (fun q => some (((s.cluster c).spad.get? q).getD .unwritten)) ho

theorem State.block_setBlock_same (hs : (s.block l).isSome = true) (h : l'.sameBlock l) : (s.setBlock l v).block l' = some v := by
  obtain ⟨ho, hm⟩ := h
  cases l with
  | mem k => simp [State.block] at hs
  | core i b =>
    obtain ⟨b', rfl⟩ : ∃ b', l' = .core i b' := ⟨_, hm⟩
    have hb : b' / 256 = b / 256 := ho
    have := State.hartOf_setHart s { s.hartOf i with pool := (s.hartOf i).pool.put (b / 256) v }
    rw [show ({ s.hartOf i with pool := (s.hartOf i).pool.put (b / 256) v } : Hart).id = i from State.hartOf_id s i] at this
    simp [State.block, State.setBlock, this, hb, Tab.get?_put_self]
  | cluster c b =>
    obtain ⟨b', rfl⟩ : ∃ b', l' = .cluster c b' := ⟨_, hm⟩
    have hb : b' / 256 = b / 256 := ho
    simp [State.block, State.setBlock, hb, Tab.get?_put_self]

theorem State.block_setBlock_other (h : ¬ l'.sameBlock l) : (s.setBlock l v).block l' = s.block l' := by
  cases l with
  | mem k => rfl
  | core i b =>
    cases l' with
    | mem k => rfl
    | cluster c b' => simp [State.block, State.setBlock, State.setHart_cluster]
    | core i' b' =>
      have hid : ({ s.hartOf i with pool := (s.hartOf i).pool.put (b / 256) v } : Hart).id = i := State.hartOf_id s i
      by_cases hi : i' = i
      · subst hi
        have hb : b' / 256 ≠ b / 256 := fun hb => h ⟨hb, rfl⟩
        have := State.hartOf_setHart s { s.hartOf i' with pool := (s.hartOf i').pool.put (b / 256) v }
        rw [hid] at this
        simp [State.block, State.setBlock, this, Tab.get?_put_ne _ _ _ _ hb]
      · have := State.hartOf_setHart_ne (h := { s.hartOf i with pool := (s.hartOf i).pool.put (b / 256) v }) (hid.symm ▸ hi) s
        simp [State.block, State.setBlock, this]
  | cluster c b =>
    cases l' with
    | mem k => rfl
    | core i b' => rfl
    | cluster c' b' =>
      by_cases hc : c' = c
      · subst hc
        have hb : b' / 256 ≠ b / 256 := fun hb => h ⟨hb, rfl⟩
        simp [State.block, State.setBlock, Tab.get?_put_ne _ _ _ _ hb]
      · simp [State.block, State.setBlock, State.setCluster_ne _ _ _ _ hc]
end

/-! ## What every write of placed bytes leaves alone -/

/-- `t` differs from `u` in memory, poison, scratchpad blocks and reservations at most. -/
def storeFrame (u t : State) : Prop :=
  t = { u with hart := t.hart, others := t.others, clusters := t.clusters, mem := t.mem, poison := t.poison } ∧
  t.hart = { u.hart with pool := t.hart.pool, reservation := t.hart.reservation }

theorem storeFrame.refl (s : State) : storeFrame s s := ⟨rfl, rfl⟩

theorem storeFrame.trans {s t u : State} (h : storeFrame s t) (h' : storeFrame t u) : storeFrame s u := by
  obtain ⟨ht, hh⟩ := h
  obtain ⟨ht', hh'⟩ := h'
  refine ⟨?_, ?_⟩
  · rw [ht'] ; conv_lhs => rw [ht]
  · rw [hh'] ; conv_lhs => rw [hh]

theorem storeFrame.time {s t : State} (h : storeFrame s t) : t.time = s.time := by rw [h.1]

theorem State.setHart_pool_frame (s : State) (i : Nat) (p : Tab Block) : storeFrame s (s.setHart { s.hartOf i with pool := p }) := by
  unfold State.setHart
  split
  next h =>
    have hi : s.hartOf i = s.hart := by
      have := h.trans (State.hartOf_id s i)
      simp [State.hartOf, this]
    rw [hi]
    exact ⟨rfl, rfl⟩
  next => exact ⟨rfl, rfl⟩

theorem State.setBlock_frame (s : State) (l : Loc) (v : Block) : storeFrame s (s.setBlock l v) := by
  cases l with
  | mem k => exact .refl s
  | core i b => exact State.setHart_pool_frame ..
  | cluster c b => exact ⟨rfl, rfl⟩

theorem State.setBlock_poison (s : State) (l : Loc) (v : Block) : (s.setBlock l v).poison = s.poison := by
  cases l with
  | mem k => rfl
  | core i b =>
    simp only [State.setBlock, State.setHart]
    split <;> rfl
  | cluster c b => rfl

/-! ## One byte -/

section
variable (b : Block) (time k off : Nat) (v : Byte)

theorem Block.write_state : (b.write time k off v).state time = .live := by
  have hage : (b.write time k off v).age time = 0 := by
    simp only [Block.age, Block.write, BitVec.toNat_ofNat]
    omega
  simp only [Block.state, hage]
  rfl

theorem Block.write_get_self : (b.write time k off v).data.get off = v := File.get_set_self ..

theorem Block.write_get_ne {o : Nat} (hb : b.state time = .live) (ho : o ≠ off) : (b.write time k off v).data.get o = b.data.get o := by
  simp only [Block.write, hb, if_true]
  exact File.get_set_ne _ _ _ _ ho
end

/-- The state once one byte has been written at a place. -/
def wroteByte (k : Nat) (s : State) (x : (Loc × Option Phys) × Byte) : State :=
  match x.1.1 with
  | .mem a => { s with mem := putUnder (cryptOf x.1.2) s.mem a x.2 }
  | l => match s.block l with
    | some b => s.setBlock l (b.write s.time k (l.offset % 256) x.2)
    | none => s

theorem writeLoc_run (k : Nat) (p : Loc × Option Phys) (b : Byte) (s : State) :
    (writeLoc k (cryptOf p.2) p.1 b).run s = .ok ⟨⟩ (wroteByte k s (p, b)) := by
  obtain ⟨l, ph⟩ := p
  cases l <;> rfl

/-- The bytes that `xs` holds are stored, the others read as before, and blocks that hold none of them are as they were. -/
structure Wrote (u t : State) (xs : List ((Loc × Option Phys) × Byte)) : Prop where
  memOk : t.memOk
  frame : storeFrame u t
  poison : t.poison = u.poison
  held : ∀ x ∈ xs, t.byteAt x.1 = x.2
  fresh : ∀ x ∈ xs, t.staleSub x.1.1 = none
  kept : ∀ l ph, (∀ x ∈ xs, x.1.1 ≠ l ∧ cryptOf x.1.2 = cryptOf ph) → u.staleSub l = none →
    t.byteAt (l, ph) = u.byteAt (l, ph) ∧ t.staleSub l = none
  sector : ∀ k, (∀ x ∈ xs, ∀ a, x.1.1 = .mem a → sectorOf k ≠ sectorOf a) → Memory.get t.mem k = Memory.get u.mem k
  touched : ∀ l, (∃ x ∈ xs, l.sameBlock x.1.1) → ∀ b, t.block l = some b →
    b.live = true ∧ b.expired = false ∧ b.stamp = BitVec.ofNat 10 u.time
  blockPoison : ∀ l, (blockAt t l).poison = (blockAt u l).poison
  untouched : ∀ l, (∀ x ∈ xs, ¬ l.sameBlock x.1.1) → t.block l = u.block l

theorem State.byteAt_block {s : State} {l : Loc} {b : Block} (h : s.block l = some b) (ph : Option Phys) :
    s.byteAt (l, ph) = b.data.get (l.offset % 256) := by
  cases l with
  | mem k => simp [State.block] at h
  | core i o => simp only [State.byteAt, h]
  | cluster c o => simp only [State.byteAt, h]

theorem State.staleSub_none_iff {s : State} {l : Loc} : s.staleSub l = none ↔ ∀ b, s.block l = some b → b.state s.time = .live := by
  unfold State.staleSub
  cases s.block l with
  | none => simp
  | some b => simp only [Option.some.injEq, forall_eq']; cases b.state s.time <;> simp

theorem State.byteAt_congr {s t : State} {l : Loc} (hm : t.mem = s.mem) (hb : t.block l = s.block l) (ph : Option Phys) :
    t.byteAt (l, ph) = s.byteAt (l, ph) := by
  cases l <;> simp [State.byteAt, hm, hb]

theorem State.staleSub_congr {s t : State} {l : Loc} (ht : t.time = s.time) (hb : t.block l = s.block l) :
    t.staleSub l = s.staleSub l := by
  simp [State.staleSub, ht, hb]

theorem Loc.eq_of_sameBlock {l l' : Loc} (h : l.sameBlock l') (ho : l.offset % 256 = l'.offset % 256) : l = l' := by
  obtain ⟨hq, hm⟩ := h
  have : l.offset = l'.offset := by omega
  rw [hm, this]
  cases l' <;> rfl

theorem wroteByte_mem (k a : Nat) (ph : Option Phys) (b : Byte) {s : State} (hs : s.memOk) :
    Wrote s (wroteByte k s ((.mem a, ph), b)) [((.mem a, ph), b)] where
  memOk := wf_putUnder hs ..
  frame := ⟨rfl, rfl⟩
  poison := rfl
  held x hx := by
    rw [List.mem_singleton.mp hx]
    exact byteUnder_put_self hs ..
  fresh x hx := by rw [List.mem_singleton.mp hx]; rfl
  kept l ph' hl hst := by
    obtain ⟨hne, hc⟩ := hl _ (List.mem_singleton_self _)
    refine ⟨?_, hst⟩
    cases l with
    | mem k' =>
      have hk : k' ≠ a := fun e => hne (by rw [e])
      show byteUnder (cryptOf ph') (putUnder (cryptOf ph) s.mem a b) k' = byteUnder (cryptOf ph') s.mem k'
      rw [← hc]
      exact byteUnder_put_ne hs hk b
    | core i o => rfl
    | cluster c o => rfl
  sector k' hk' := get_putUnder_sector hs (hk' _ (List.mem_singleton_self _) a rfl) b
  touched l hl b' hb' := by
    obtain ⟨x, hx, hl⟩ := hl
    rw [List.mem_singleton.mp hx] at hl
    rw [hl.2] at hb'
    cases hb'
  blockPoison l := rfl
  untouched l hl := rfl

theorem wroteByte_block (k : Nat) {l : Loc} (ph : Option Phys) (v : Byte) {s : State} (hs : s.memOk) {b : Block} (hb : s.block l = some b) :
    Wrote s (s.setBlock l (b.write s.time k (l.offset % 256) v)) [((l, ph), v)] := by
  have hsome : (s.block l).isSome = true := by rw [hb]; rfl
  have htime : ∀ b', (s.setBlock l b').time = s.time := fun b' => (State.setBlock_frame s l b').time
  have hsame : ∀ l', l'.sameBlock l → (s.setBlock l (b.write s.time k (l.offset % 256) v)).block l' =
      some (b.write s.time k (l.offset % 256) v) := fun l' h => State.block_setBlock_same hsome h
  have hself : l.sameBlock l := ⟨rfl, by cases l <;> rfl⟩
  have hold : ∀ l', l'.sameBlock l → s.block l' = some b := fun l' h => (State.block_sameBlock h s).trans hb
  constructor
  case memOk => exact (congrArg (Memory.wf · = true) (State.setBlock_mem ..)).mpr hs
  case frame => exact State.setBlock_frame ..
  case poison => exact State.setBlock_poison ..
  case held =>
    intro x hx
    rw [List.mem_singleton.mp hx, State.byteAt_block (hsame l hself)]
    exact Block.write_get_self ..
  case fresh =>
    intro x hx
    rw [List.mem_singleton.mp hx, State.staleSub_none_iff]
    intro b' hb'
    rw [hsame l hself] at hb'
    rw [htime, ← Option.some.inj hb']
    exact Block.write_state ..
  case kept =>
    intro l' ph' hl' hst
    obtain ⟨hne, -⟩ := hl' _ (List.mem_singleton_self _)
    by_cases h : l'.sameBlock l
    · have hlive := State.staleSub_none_iff.mp hst b (hold l' h)
      refine ⟨?_, State.staleSub_none_iff.mpr fun b' hb' => ?_⟩
      · rw [State.byteAt_block (hsame l' h), State.byteAt_block (hold l' h)]
        exact Block.write_get_ne b _ _ _ _ hlive fun ho => hne (Loc.eq_of_sameBlock h ho).symm
      · rw [hsame l' h] at hb'
        rw [htime, ← Option.some.inj hb']
        exact Block.write_state ..
    · have hother := State.block_setBlock_other (s := s) (v := b.write s.time k (l.offset % 256) v) h
      exact ⟨State.byteAt_congr (State.setBlock_mem ..) hother ph', (State.staleSub_congr (htime _) hother).trans hst⟩
  case sector =>
    intro k' _
    rw [State.setBlock_mem]
  case touched =>
    rintro l' ⟨x, hx, h⟩ b' hb'
    rw [List.mem_singleton.mp hx] at h
    rw [hsame l' h] at hb'
    rw [← Option.some.inj hb']
    exact ⟨rfl, rfl, rfl⟩
  case blockPoison =>
    intro l'
    by_cases h : l'.sameBlock l
    · rw [blockAt, blockAt, hsame l' h, hold l' h]
      rfl
    · rw [blockAt, blockAt, State.block_setBlock_other h]
  case untouched =>
    intro l' hl'
    exact State.block_setBlock_other (hl' _ (List.mem_singleton_self _))

theorem wroteByte_wrote (k : Nat) (x : (Loc × Option Phys) × Byte) {s : State} (hs : s.memOk) : Wrote s (wroteByte k s x) [x] := by
  obtain ⟨⟨l, ph⟩, v⟩ := x
  cases l with
  | mem a => exact wroteByte_mem k a ph v hs
  | core i o => exact wroteByte_block k ph v hs (l := .core i o) rfl
  | cluster c o => exact wroteByte_block k ph v hs (l := .cluster c o) rfl

theorem Wrote.nil {s : State} (hs : s.memOk) : Wrote s s [] where
  memOk := hs
  frame := .refl s
  poison := rfl
  held _ hx := absurd hx List.not_mem_nil
  fresh _ hx := absurd hx List.not_mem_nil
  kept _ _ _ hst := ⟨rfl, hst⟩
  sector _ _ := rfl
  touched _ hl := by
    obtain ⟨x, hx, -⟩ := hl
    exact absurd hx List.not_mem_nil
  blockPoison _ := rfl
  untouched _ _ := rfl

/-- Bytes written one after the other at places of their own, under one key. -/
theorem Wrote.cons {s t u : State} {x : (Loc × Option Phys) × Byte} {xs : List ((Loc × Option Phys) × Byte)} (h : Wrote s t [x])
    (h' : Wrote t u xs) (hne : ∀ y ∈ xs, y.1.1 ≠ x.1.1 ∧ cryptOf y.1.2 = cryptOf x.1.2) : Wrote s u (x :: xs) where
  memOk := h'.memOk
  frame := h.frame.trans h'.frame
  poison := h'.poison.trans h.poison
  held := List.forall_mem_cons.mpr
    ⟨(h'.kept _ _ hne (h.fresh x (List.mem_singleton_self x))).1.trans (h.held x (List.mem_singleton_self x)), h'.held⟩
  fresh := List.forall_mem_cons.mpr ⟨(h'.kept _ x.1.2 hne (h.fresh x (List.mem_singleton_self x))).2, h'.fresh⟩
  kept l ph hl hst := by
    obtain ⟨hx, hxs⟩ := List.forall_mem_cons.mp hl
    obtain ⟨hb, hst'⟩ := h.kept l ph (by simpa using hx) hst
    obtain ⟨hb', hst''⟩ := h'.kept l ph hxs hst'
    exact ⟨hb'.trans hb, hst''⟩
  sector k hk := by
    obtain ⟨hx, hxs⟩ := List.forall_mem_cons.mp hk
    exact (h'.sector k hxs).trans (h.sector k (by simpa using hx))
  touched l hl b hb := by
    by_cases hxs : ∃ y ∈ xs, l.sameBlock y.1.1
    · rw [← h.frame.time]
      exact h'.touched l hxs b hb
    · have hx : l.sameBlock x.1.1 := by
        obtain ⟨y, hy, hly⟩ := hl
        rcases List.mem_cons.mp hy with rfl | hy
        · exact hly
        · exact absurd ⟨y, hy, hly⟩ hxs
      rw [h'.untouched l fun y hy hly => hxs ⟨y, hy, hly⟩] at hb
      exact h.touched l ⟨x, List.mem_singleton_self x, hx⟩ b hb
  blockPoison l := (h'.blockPoison l).trans (h.blockPoison l)
  untouched l hl := by
    obtain ⟨hx, hxs⟩ := List.forall_mem_cons.mp hl
    exact (h'.untouched l hxs).trans (h.untouched l (by simpa using hx))

/-- Bytes at places of their own, all under one key. -/
def apart (ps : List (Loc × Option Phys)) : Prop :=
  ps.Pairwise fun p q => q.1 ≠ p.1 ∧ cryptOf q.2 = cryptOf p.2

theorem foldl_wroteByte (k : Nat) : ∀ (xs : List ((Loc × Option Phys) × Byte)) (s : State),
    xs.Pairwise (fun x y => y.1.1 ≠ x.1.1 ∧ cryptOf y.1.2 = cryptOf x.1.2) → s.memOk → Wrote s (xs.foldl (wroteByte k) s) xs
  | [], _, _, hs => .nil hs
  | x :: xs, s, h, hs => by
    obtain ⟨hx, hxs⟩ := List.pairwise_cons.mp h
    have h1 := wroteByte_wrote k x hs
    exact h1.cons (foldl_wroteByte k xs _ hxs h1.memOk) hx

/-! ## Poison -/

/-- `t` differs from `s` in reservations and in the poison of memory and of the blocks of `ls` at most. -/
structure Cleared (s t : State) (ls : List Loc) : Prop where
  frame : storeFrame s t
  mem : t.mem = s.mem
  block : ∀ l, ∃ p, t.block l = (s.block l).map fun b => { b with poison := p }
  untouched : ∀ l, (∀ l' ∈ ls, ¬ l.sameBlock l') → t.block l = s.block l

theorem Cleared.refl (s : State) (ls : List Loc) : Cleared s s ls where
  frame := .refl s
  mem := rfl
  block l := by
    cases h : s.block l with
    | none => exact ⟨[], rfl⟩
    | some b => exact ⟨b.poison, rfl⟩
  untouched _ _ := rfl

theorem Cleared.trans {s t u : State} {ls : List Loc} (h : Cleared s t ls) (h' : Cleared t u ls) : Cleared s u ls where
  frame := h.frame.trans h'.frame
  mem := h'.mem.trans h.mem
  block l := by
    obtain ⟨p, hp⟩ := h.block l
    obtain ⟨p', hp'⟩ := h'.block l
    exact ⟨p', by rw [hp', hp, Option.map_map]; rfl⟩
  untouched l hl := (h'.untouched l hl).trans (h.untouched l hl)

theorem unpoison_cleared (s : State) {l : Loc} {ls : List Loc} (hl : l ∈ ls) : Cleared s (s.unpoison l) ls := by
  have hscratch : ∀ b p, s.block l = some b → Cleared s (s.setBlock l { b with poison := p }) ls := by
    intro b p hb
    have hsome : (s.block l).isSome = true := by rw [hb]; rfl
    refine ⟨State.setBlock_frame .., State.setBlock_mem .., fun l' => ?_, fun l' hl' => State.block_setBlock_other (hl' l hl)⟩
    by_cases h : l'.sameBlock l
    · refine ⟨p, ?_⟩
      rw [State.block_setBlock_same hsome h, State.block_sameBlock h, hb]
      rfl
    · rw [State.block_setBlock_other h]
      exact (Cleared.refl s ls).block l'
  cases l with
  | mem a => exact ⟨⟨rfl, rfl⟩, rfl, (Cleared.refl s ls).block, fun _ _ => rfl⟩
  | core i o => exact hscratch _ _ rfl
  | cluster c o => exact hscratch _ _ rfl

theorem clearPoison_cleared (ls : List Loc) (s : State) : ∃ t, (clearPoison ls).run s = .ok () t ∧ Cleared s t ls := by
  refine ⟨_, rfl, List.foldlRecOn (motive := fun t => Cleared s t ls) ls _ (.refl s ls) fun t ht l hl => ?_⟩
  split
  · exact ht
  · dsimp only
    split
    · exact ht.trans (unpoison_cleared t hl)
    · exact ht

/-- Fewer than 32 bytes cover no sector. -/
theorem not_covers_sector {ls : List Loc} (h : ls.length < 32) (l : Loc) (n : Nat) :
    ((List.range 32).all fun i => ls.contains (l.move (n + i))) = false := by
  by_contra hall
  rw [Bool.not_eq_false, List.all_eq_true] at hall
  have hinj : Function.Injective fun i => l.move (n + i) := by
    intro i j hij
    cases l <;> simp [Loc.move] at hij <;> exact hij
  have hsub : ((List.range 32).map fun i => l.move (n + i)) ⊆ ls := by
    intro l' hl'
    obtain ⟨i, hi, rfl⟩ := List.mem_map.mp hl'
    simpa using hall i hi
  have := (List.subperm_of_subset (List.nodup_range.map hinj) hsub).length_le
  simp at this
  omega

theorem clearPoison_few {ls : List Loc} (h : ls.length < 32) (s : State) : (clearPoison ls).run s = .ok () s := by
  simp only [clearPoison, Op.run_modify, EStateM.Result.ok.injEq, true_and]
  refine List.foldlRecOn (motive := fun t => t = s) ls _ rfl ?_
  rintro t rfl l -
  rw [not_covers_sector h]
  simp

/-! ## The bytes of one access -/

/-- A place that is not a ring byte of a materialised tensor. -/
def plainPlace (p : Loc × Option Phys) : Prop := inMemory p ∨ p.2 = none

theorem storeLoop_plain {k : Nat} {xs : List ((Loc × Option Phys) × Byte)} (h : ∀ x ∈ xs, plainPlace x.1) (s : State) :
    (forIn xs PUnit.unit fun x _ => do
      writeLoc k (cryptOf x.1.2) x.1.1 x.2
      match x.1.1, x.1.2 with
      | .mem _, _ => pure ()
      | _, some p => writeLoc k p.crypt (.mem p.key) x.2
      | _, none => pure ()
      pure (ForInStep.yield PUnit.unit) : Op PUnit).run s = .ok ⟨⟩ (xs.foldl (wroteByte k) s) := by
  induction xs generalizing s with
  | nil => rfl
  | cons x xs ih =>
    have hrest := ih (fun y hy => h y (List.mem_cons_of_mem _ hy)) (wroteByte k s x)
    obtain ⟨⟨loc, ph⟩, b⟩ := x
    rw [List.forIn_cons]
    rcases h _ List.mem_cons_self with ⟨a, rfl : loc = .mem a⟩ | (rfl : ph = none)
    · exact Op.bind_ok rfl hrest
    · cases loc <;> exact Op.bind_ok (Op.bind_ok (writeLoc_run k (_, none) b s) rfl) hrest

theorem allLocs_plain {ps : List (Loc × Option Phys)} (h : ∀ p ∈ ps, plainPlace p) : allLocs ps = ps.map (·.1) := by
  induction ps with
  | nil => rfl
  | cons p ps ih =>
    have hrest := ih fun q hq => h q (List.mem_cons_of_mem _ hq)
    obtain ⟨l, ph⟩ := p
    rcases h _ List.mem_cons_self with ⟨a, rfl : l = .mem a⟩ | (rfl : ph = none)
    · exact congrArg (Loc.mem a :: ·) hrest
    · cases l <;> exact congrArg (_ :: ·) hrest

theorem mapHarts_cleared {f : Hart → Hart} (hf : reservationOnly f) (s : State) (ls : List Loc) : Cleared s (s.mapHarts f) ls := by
  have hblock : ∀ l, (s.mapHarts f).block l = s.block l := by
    intro l
    cases l with
    | mem a => rfl
    | cluster c o => rfl
    | core i o => simp only [State.block]; rw [hartOf_mapHarts hf]
  refine ⟨⟨rfl, ?_⟩, rfl, fun l => ?_, fun l _ => hblock l⟩
  · show f s.hart = { s.hart with pool := (f s.hart).pool, reservation := (f s.hart).reservation }
    rw [hf s.hart]
  · rw [hblock]
    exact (Cleared.refl s ls).block l

theorem mapHarts_blockAt {f : Hart → Hart} (hf : reservationOnly f) (s : State) (l : Loc) : (s.mapHarts f).block l = s.block l :=
  (mapHarts_cleared hf s []).untouched l fun _ h => nomatch h

theorem Cleared.byteAt {s t : State} {ls : List Loc} (h : Cleared s t ls) (p : Loc × Option Phys) : t.byteAt p = s.byteAt p := by
  obtain ⟨l, ph⟩ := p
  obtain ⟨q, hq⟩ := h.block l
  cases hb : s.block l with
  | none =>
    rw [hb] at hq
    exact State.byteAt_congr h.mem (hq.trans hb.symm) ph
  | some b =>
    rw [hb] at hq
    rw [State.byteAt_block hq, State.byteAt_block hb]

/-- What a write of placed bytes runs through: the bytes one by one, then poison and reservations. -/
theorem storePlaced_plain {ps : List (Loc × Option Phys)} (h : ∀ p ∈ ps, plainPlace p) {bs : List Byte} (hb : bs.length = ps.length)
    (ha : apart ps) {u : State} (hu : u.memOk) :
    ∃ v t, Wrote { u with freeCtr := u.freeCtr + 1 } v (ps.zip bs) ∧ Cleared v t (ps.map (·.1)) ∧
      (ps.length < 32 → t.poison = v.poison ∧ ∀ l, t.block l = v.block l) ∧ (storePlaced ps bs).run u = .ok () t := by
  let v := (ps.zip bs).foldl (wroteByte u.freeCtr) { u with freeCtr := u.freeCtr + 1 }
  have hpair : (ps.zip bs).Pairwise fun x y => y.1.1 ≠ x.1.1 ∧ cryptOf y.1.2 = cryptOf x.1.2 := by
    have hfst : (ps.zip bs).map Prod.fst = ps := List.map_fst_zip hb.ge
    exact List.pairwise_map.mp (hfst.symm ▸ ha)
  have hw : Wrote { u with freeCtr := u.freeCtr + 1 } v (ps.zip bs) := foldl_wroteByte u.freeCtr _ _ hpair hu
  obtain ⟨v', hv', hc⟩ := clearPoison_cleared (ps.map (·.1)) v
  obtain ⟨f, hf, hbreak⟩ := breakReservations_mapHarts (ps.map (·.1.resKey) ++ placedKeys ps) v'
  refine ⟨v, v'.mapHarts f, hw, hc.trans (mapHarts_cleared hf v' _), fun hn => ?_, ?_⟩
  · have hsame : v' = v := by
      have := clearPoison_few (ls := ps.map (·.1)) (by simpa using hn) v
      rw [hv'] at this
      exact (EStateM.Result.ok.inj this).2
    rw [hsame]
    exact ⟨rfl, mapHarts_blockAt hf v⟩
  · rw [← allLocs_plain h] at hv'
    exact Op.bind_ok (Op.run_draw u)
      (Op.bind_ok (storeLoop_plain (fun x hx => h _ (List.of_mem_zip hx).1) _) (Op.bind_ok hv' hbreak))

/-- Bytes placed apart, under one key and not in a materialised ring, are stored as `stores` says. -/
theorem storePlaced_stores {ps : List (Loc × Option Phys)} (h : ∀ p ∈ ps, plainPlace p) {bs : List Byte} (hb : bs.length = ps.length)
    (ha : apart ps) {u : State} (hu : u.memOk) : ∃ t, (storePlaced ps bs).run u = .ok () t ∧ stores u t ps bs := by
  obtain ⟨v, t, hw, hc, hfew, hrun⟩ := storePlaced_plain h hb ha hu
  have hfst : (ps.zip bs).map Prod.fst = ps := List.map_fst_zip hb.ge
  have hsnd : (ps.zip bs).map Prod.snd = bs := List.map_snd_zip hb.le
  have hmem : ∀ p ∈ ps, ∃ x ∈ ps.zip bs, x.1 = p := fun p hp => List.mem_map.mp (hfst.symm ▸ hp)
  have hin : ∀ x ∈ ps.zip bs, x.1 ∈ ps := fun x hx => (List.of_mem_zip hx).1
  have hframe := hw.frame.trans hc.frame
  refine ⟨t, hrun, (congrArg (Memory.wf · = true) hc.mem).mpr hw.memOk, hframe.1, hframe.2, ?_, ?_, ?_, ?_, ?_, ?_⟩
  · calc ps.map t.byteAt = (ps.zip bs).map fun x => t.byteAt x.1 := by
          conv_lhs => rw [← hfst, List.map_map]
          rfl
      _ = (ps.zip bs).map Prod.snd := List.map_congr_left fun x hx => (hc.byteAt x.1).trans (hw.held x hx)
      _ = bs := hsnd
  · intro l ph hl hcrypt hst
    rw [hc.byteAt]
    exact (hw.kept l ph (fun x hx => ⟨fun e => hl (List.mem_map.mpr ⟨x.1, hin x hx, e⟩), hcrypt x.1 (hin x hx)⟩) hst).1
  · intro k hk
    rw [hc.mem]
    exact hw.sector k fun x hx => hk x.1 (hin x hx)
  · intro p hp b hblock
    obtain ⟨x, hx, rfl⟩ := hmem p hp
    have hself : x.1.1.sameBlock x.1.1 := ⟨rfl, by cases x.1.1 <;> rfl⟩
    obtain ⟨q, hq⟩ := hc.block x.1.1
    rw [hblock] at hq
    obtain ⟨b', hb', rfl⟩ := Option.map_eq_some_iff.mp hq.symm
    obtain ⟨hlive, hexp, hstamp⟩ := hw.touched x.1.1 ⟨x, hx, hself⟩ b' hb'
    refine ⟨hlive, hexp, hstamp, fun hn => ?_⟩
    have hpoison := hw.blockPoison x.1.1
    rw [blockAt, ← (hfew hn).2, hblock] at hpoison
    exact hpoison
  · intro l hl
    have hno : ∀ p ∈ ps, ¬ l.sameBlock p.1 := fun p hp hsb => (hl p hp).elim (fun h => h hsb.1) fun h => h hsb.2
    rw [hc.untouched l (List.forall_mem_map.mpr hno)]
    exact hw.untouched l fun x hx => hno x.1 (hin x hx)
  · intro hn
    exact (hfew hn).1.trans hw.poison
end Sys2Proof.Machine
end

section
/-!
SUPPORT. Where the bytes of a permitted access are placed: the page walk before and after the leaf is marked (R148 to R150), and one byte
of bare memory, of a scratchpad window and of a page, for reads, writes and atomics alike (R109, R134).
-/

namespace Sys2Proof.Machine
open Sys2Proof.Claims

/-! ## A leaf with A set, and D for a write -/

def markedPte (e : Nat) (write : Bool) : Nat := e ||| 32 ||| (if write then 64 else 0)

theorem marks_lt (write : Bool) : 32 ||| (if write then 64 else 0) < 2 ^ 7 := by cases write <;> decide

theorem markedPte_eq (e : Nat) (write : Bool) : markedPte e write = e ||| (32 ||| (if write then 64 else 0)) := Nat.lor_assoc ..

theorem markedPte_testBit {i : Nat} (h5 : i ≠ 5) (h6 : i ≠ 6) (e : Nat) (write : Bool) : (markedPte e write).testBit i = e.testBit i := by
  have h32 : Nat.testBit 32 i = false := by rw [show (32 : Nat) = 2 ^ 5 from rfl, Nat.testBit_two_pow_of_ne h5.symm]
  have h64 : Nat.testBit 64 i = false := by rw [show (64 : Nat) = 2 ^ 6 from rfl, Nat.testBit_two_pow_of_ne h6.symm]
  cases write <;> simp [markedPte, Nat.testBit_or, h32, h64]

theorem markedPte_div {n : Nat} (hn : 7 ≤ n) (e : Nat) (write : Bool) : markedPte e write / 2 ^ n = e / 2 ^ n := by
  rw [markedPte_eq, Nat.or_div_two_pow, Nat.div_eq_of_lt ((marks_lt write).trans_le (Nat.pow_le_pow_right (by decide) hn)), Nat.or_zero]

theorem markedPte_lt {e : Nat} (he : e < 2 ^ 64) (write : Bool) : markedPte e write < 2 ^ 64 := by
  rw [markedPte_eq]
  exact Nat.or_lt_two_pow he ((marks_lt write).trans (by decide))

theorem markedPte_idem (e : Nat) (write : Bool) : markedPte (markedPte e write) write = markedPte e write := by
  rw [markedPte_eq, markedPte_eq e, Nat.lor_assoc, Nat.or_self]

section
variable (e : Nat) (write : Bool)
@[simp] theorem ptePpn_marked : ptePpn (markedPte e write) = ptePpn e := by simp only [ptePpn, markedPte_div (n := 31) (by decide)]
@[simp] theorem pteHome_marked : pteHome (markedPte e write) = pteHome e := by simp only [pteHome, markedPte_div (n := 23) (by decide)]
@[simp] theorem pteKey_marked : pteKey (markedPte e write) = pteKey e := by simp only [pteKey, markedPte_div (n := 10) (by decide)]
@[simp] theorem pteMt_marked : pteMt (markedPte e write) = pteMt e := by simp only [pteMt, markedPte_div (n := 7) (by decide)]
@[simp] theorem pteV_marked : pteV (markedPte e write) = pteV e := markedPte_testBit (by decide) (by decide) e write
@[simp] theorem pteLeaf_marked : pteLeaf (markedPte e write) = pteLeaf e := by
  simp only [pteLeaf, markedPte_testBit (i := 1) (by decide) (by decide), markedPte_testBit (i := 2) (by decide) (by decide),
    markedPte_testBit (i := 3) (by decide) (by decide)]
end

/-! ## The walk -/

theorem Memory.read_congr {m m' : List Host.Cell} : ∀ {n a : Nat}, (∀ i, i < n → get m' (a + i) = get m (a + i)) → read m' a n = read m a n
  | 0, _, _ => rfl
  | n + 1, a, h => by
    have hrest : ∀ i, i < n → get m' (a + 1 + i) = get m (a + 1 + i) := fun i hi => by
      rw [show a + 1 + i = a + (i + 1) by omega]
      exact h (i + 1) (by omega)
    rw [read, read, read_congr hrest, show get m' a = get m a from h 0 (by omega)]

/-- A byte written where it stands already changes nothing. -/
theorem Memory.put_same {a : Nat} {v : Byte} : ∀ {m : List Host.Cell}, wf m = true → get m a = v → put m a v = m
  | [], _, h => if_pos h.symm
  | (k, b) :: t, hm, h => by
    have hb : b ≠ unlistedByte := wf_head hm
    rw [get] at h
    rw [put]
    by_cases hk : a = k
    · rw [if_pos hk] at h
      subst hk h
      simp [hb]
    · rw [if_neg hk] at h
      by_cases hlt : a < k
      · rw [if_pos hlt] at h
        simp [hlt, h]
      · rw [if_neg hlt] at h
        rw [if_neg hlt, if_neg hk, put_same (wf_tail hm) h]

theorem Memory.write_same : ∀ {bs : List Byte} {a : Nat} {m : List Host.Cell}, wf m = true →
    (∀ i (hi : i < bs.length), get m (a + i) = bs[i]) → write m a bs = m
  | [], _, _, _, _ => rfl
  | b :: bs, a, m, hm, h => by
    rw [write, show put m a b = m from put_same hm (h 0 (by simp))]
    refine write_same hm fun i hi => ?_
    rw [show a + 1 + i = a + (i + 1) by omega]
    exact h (i + 1) (by simpa using hi)

theorem Memory.write_write_same {m : List Host.Cell} (hm : wf m = true) (a : Nat) (bs : List Byte) :
    write (write m a bs) a bs = write m a bs :=
  write_same (wf_write hm a bs) fun i hi => get_write_in hm a bs i hi

theorem State.readPhys_lt (s : State) (a n : Nat) : s.readPhys a n < 256 ^ n := by
  have := ofBytes_lt (Memory.read s.mem a n)
  rwa [Memory.read_length] at this

/-- The address of the entry that a walk reads in a table. -/
def entryAddr (va table level : Nat) : Nat := table + 8 * (va / 2 ^ (39 - 9 * level) % 512)

/-- A walk finds a leaf in the table, or a table's entry there and the leaf below it. -/
theorem walk_leaf_iff {s : State} {va fuel table level e a l : Nat} :
    walk s va (fuel + 1) table level = .leaf e a l ↔
      let a' := entryAddr va table level
      let e' := s.readPhys a' 8
      a' < s.physLimit ∧ pteV e' = true ∧
        (pteLeaf e' = true ∧ level ≠ 0 ∧ e' = e ∧ a' = a ∧ level = l ∨
          pteLeaf e' = false ∧ level ≠ 3 ∧ walk s va fuel (ptePpn e' % 2 ^ 28 * 4096) (level + 1) = .leaf e a l) := by
  simp only [walk, entryAddr]
  generalize table + 8 * (va / 2 ^ (39 - 9 * level) % 512) = a'
  generalize s.readPhys a' 8 = e'
  by_cases hp : s.physLimit ≤ a'
  · simp [hp]
  by_cases hv : pteV e' = true
  · by_cases hl : pteLeaf e' = true
    · by_cases h0 : level = 0 <;> simp [hp, hv, hl, h0, Nat.not_le.mp hp]
    · by_cases h3 : level = 3 <;> simp [hp, hv, hl, h3, Nat.not_le.mp hp]
  · simp [hp, hv]

/-- The leaf that a walk finds is an entry of an aligned table. -/
theorem walk_leaf_entry {s : State} {va e a l : Nat} : ∀ {fuel table level : Nat}, table % 8 = 0 → fuel + level = 4 →
    walk s va fuel table level = .leaf e a l → a % 8 = 0 ∧ e = s.readPhys a 8 ∧ pteLeaf e = true ∧ l < 4
  | 0, _, _, _, _, h => by cases h
  | fuel + 1, table, level, ht, hf, h => by
    obtain ⟨-, -, ⟨hl, -, rfl, rfl, rfl⟩ | ⟨-, -, h'⟩⟩ := walk_leaf_iff.mp h
    · exact ⟨by rw [entryAddr]; omega, rfl, hl, by omega⟩
    · exact walk_leaf_entry (by omega) (by omega) h'

/-- The state with an entry's bytes stored. -/
def State.withPte (s : State) (a e : Nat) : State := { s with mem := Memory.write s.mem a (toBytes 8 e) }

section
variable {s : State} (hs : s.memOk) {a e : Nat}
include hs

theorem readPhys_withPte_self (he : e < 2 ^ 64) : (s.withPte a e).readPhys a 8 = e := by
  have h := Memory.read_write_self hs a (toBytes 8 e)
  rw [toBytes_length] at h
  show ofBytes (Memory.read (Memory.write s.mem a (toBytes 8 e)) a 8) = e
  rw [h, ofBytes_toBytes, Nat.mod_eq_of_lt (by simpa using he)]

theorem readPhys_withPte_ne {a' : Nat} (h : a % 8 = 0) (h' : a' % 8 = 0) (hne : a' ≠ a) : (s.withPte a e).readPhys a' 8 = s.readPhys a' 8 := by
  refine congrArg ofBytes (Memory.read_congr fun i hi => Memory.get_write_out hs a _ _ ?_)
  rw [toBytes_length]
  omega

/-- A walk finds the leaf again once it is marked: no table's entry on the way is the leaf's. -/
theorem walk_marked {va l : Nat} (write : Bool) : ∀ {fuel table level : Nat}, table % 8 = 0 → fuel + level = 4 →
    walk s va fuel table level = .leaf e a l →
    walk (s.withPte a (markedPte e write)) va fuel table level = .leaf (markedPte e write) a l
  | 0, _, _, _, _, h => by cases h
  | fuel + 1, table, level, ht, hf, h => by
    obtain ⟨ha, he, hleaf, -⟩ := walk_leaf_entry ht hf h
    have hlt : markedPte e write < 2 ^ 64 := markedPte_lt (he ▸ s.readPhys_lt a 8) write
    obtain ⟨hp, hv, hcase⟩ := walk_leaf_iff.mp h
    rw [walk_leaf_iff]
    rcases hcase with ⟨hl, h0, rfl, rfl, rfl⟩ | ⟨hl, h3, h'⟩
    · dsimp only
      rw [readPhys_withPte_self hs hlt, pteV_marked, pteLeaf_marked]
      exact ⟨hp, hv, .inl ⟨hl, h0, rfl, rfl, rfl⟩⟩
    · have hne : entryAddr va table level ≠ a := by
        rintro rfl
        rw [← he, hleaf] at hl
        cases hl
      dsimp only
      rw [readPhys_withPte_ne hs ha (by rw [entryAddr]; omega) hne]
      exact ⟨hp, hv, .inr ⟨hl, h3, walk_marked write (by omega) (by omega) h'⟩⟩
end

/-- The walk reads the page number of an address only. -/
theorem walk_samePage {s : State} {va va' : Nat} (h : va' / 4096 = va / 4096) : ∀ {fuel table level : Nat}, fuel + level = 4 →
    walk s va' fuel table level = walk s va fuel table level
  | 0, _, _, _ => rfl
  | fuel + 1, table, level, hf => by
    have hdiv : va' / 2 ^ (39 - 9 * level) = va / 2 ^ (39 - 9 * level) := by
      rw [show 39 - 9 * level = 12 + (27 - 9 * level) by omega, pow_add, ← Nat.div_div_eq_div_mul, ← Nat.div_div_eq_div_mul]
      exact congrArg (· / _) h
    rw [walk, walk, hdiv]
    simp only [walk_samePage h (show fuel + (level + 1) = 4 by omega)]

/-! ## One page -/

/-- A byte `i` further on, in the same 4,096 bytes. -/
structure SamePage (va : Word) (i : Nat) : Prop where
  toNat : (va + BitVec.ofNat 64 i).toNat = va.toNat + i
  page : (va.toNat + i) / 4096 = va.toNat / 4096

theorem samePage_of_aligned {va : Word} {n i : Nat} (hn : 4096 % n = 0) (ha : va.toNat % n = 0) (hi : i < n) : SamePage va i := by
  obtain ⟨k, hk⟩ := Nat.dvd_of_mod_eq_zero hn
  have hmod : va.toNat % 4096 % n = 0 := by rw [Nat.mod_mod_of_dvd _ ⟨k, hk⟩, ha]
  have hlt : va.toNat % 4096 < 4096 := Nat.mod_lt _ (by decide)
  obtain ⟨q, hq⟩ := Nat.dvd_of_mod_eq_zero hmod
  have hqk : q < k := by
    by_contra hge
    have := Nat.mul_le_mul_left n (Nat.not_lt.mp hge)
    omega
  have hend : va.toNat % 4096 + n ≤ 4096 := by
    have := Nat.mul_le_mul_left n (show q + 1 ≤ k by omega)
    rw [Nat.mul_succ] at this
    omega
  have := va.isLt
  refine ⟨?_, by omega⟩
  rw [BitVec.toNat_add, BitVec.toNat_ofNat]
  omega

theorem canonical_iff {va : Word} : sextN 48 va.toNat = va ↔ va.toNat < 2 ^ 47 ∨ 2 ^ 64 - 2 ^ 47 ≤ va.toNat := by
  have hlt := va.isLt
  rw [← BitVec.toNat_inj, sextN, toSigned, BitVec.toNat_ofInt]
  split <;> omega

theorem pageAddr_add {e level va i : Nat} (hl : level < 4) (h : (va + i) / 4096 = va / 4096) :
    pageAddr e level (va + i) = pageAddr e level va + i := by
  unfold pageAddr pageSize
  rw [show 39 - 9 * level = 12 + (27 - 9 * level) by omega, pow_add]
  rw [show (2 : Nat) ^ 12 = 4096 from rfl, Nat.mod_mul, Nat.mod_mul, h]
  omega

theorem inCoreWindow_iff {n : Nat} : inCoreWindow n = true ↔ coreWindow ≤ n ∧ n < coreWindow + 0x100000 := by
  simp [inCoreWindow]

theorem inClusterWindow_iff {n : Nat} : inClusterWindow n = true ↔ clusterWindow ≤ n ∧ n < clusterWindow + 0x800000 := by
  simp [inClusterWindow]

theorem inWindow_iff {n : Nat} : inWindow n = true ↔
    0x7E0000000000 ≤ n ∧ n < 0x7E0000100000 ∨ 0x7E0001000000 ≤ n ∧ n < 0x7E0001800000 := by
  rw [inWindow, Bool.or_eq_true, inCoreWindow_iff, inClusterWindow_iff]
  rfl

namespace SamePage
variable {va : Word} {i : Nat} (h : SamePage va i)
include h

theorem canonical (hc : sextN 48 va.toNat = va) : sextN 48 (va + BitVec.ofNat 64 i).toNat = va + BitVec.ofNat 64 i := by
  have hp := h.page
  rw [canonical_iff] at hc ⊢
  rw [h.toNat]
  omega

theorem not_inWindow (hw : inWindow va.toNat = false) : inWindow (va + BitVec.ofNat 64 i).toNat = false := by
  have hp := h.page
  rw [← Bool.not_eq_true, inWindow_iff] at hw ⊢
  rw [h.toNat]
  omega
end SamePage

/-! ## The way of an ordinary launch's bytes -/

section
variable {s : State} (hp : plainLaunch s) (w : Who) (kind : AKind) (user write amo : Bool) (fa va : Word)

theorem launchOf_via (s : State) : ((s.via s.hart).bind fun v => s.launches.get? v.launch) = s.launchOf s.hart := by
  unfold State.via State.launchOf
  cases s.hart.job <;> rfl

theorem hartOf_via (s : State) : s.hartOf (((s.via s.hart).map (·.hart)).getD s.hart.id) = s.hart := by
  unfold State.via
  cases s.hart.job <;> simp [State.hartOf]

include hp in
theorem overlayAt_ordinary : s.overlayAt (s.via s.hart) kind amo va = .plain := by
  have hl := launchOf_via s
  unfold State.overlayAt
  cases hv : s.via s.hart with
  | none => cases kind <;> rfl
  | some v =>
    rw [hv] at hl
    cases hg : s.launches.get? v.launch with
    | none => cases kind <;> simp [hg]
    | some l =>
      have hpair := (hp l (hl.symm.trans hg)).1
      cases kind <;> simp [hg, hpair]

include hp in
/-- Without a pair, a byte is placed as an ordinary one (R224). -/
theorem placeByte_ordinary : (placeByte w (s.via s.hart) kind user write amo fa va).run s =
    (placePlain w (s.via s.hart) kind user write amo fa va).run s := by
  simp only [placeByte, Op.run_bind, Op.run_get, overlayAt_ordinary hp]

include hp in
theorem coreWindowOf_ordinary (inB : Bool) (h : Hart) :
    coreWindowOf (s.launchOf s.hart) inB h = ((64 - h.sbanks) * 16384, h.sbanks * 16384) := by
  unfold coreWindowOf
  cases hl : s.launchOf s.hart with
  | none => rfl
  | some l => simp [(hp l hl).1]

include hp in
theorem clusterLimit_ordinary {l : Launch} (hl : s.launchOf s.hart = some l) (inB : Bool) :
    clusterLimit l inB = (l.a.clSpb + 255) / 256 * 256 := by
  unfold clusterLimit
  rw [(hp l hl).1]
  cases inB <;> rfl

include hp in
/-- With nothing elided, a byte outside the windows is translated under the queue's root (R134, R148). -/
theorem placePlain_page (hw : inWindow va.toNat = false) : (placePlain w (s.via s.hart) kind user write amo fa va).run s =
    ((fun p => (Loc.mem p.key, some p)) <$> translate w kind user write amo (rootFor s) fa va).run s := by
  obtain ⟨hcore, hcluster⟩ : inCoreWindow va.toNat = false ∧ inClusterWindow va.toNat = false := by
    unfold inWindow at hw
    simpa using hw
  unfold placePlain rootFor
  simp only [Op.run_bind, Op.run_get, launchOf_via]
  cases hl : s.launchOf s.hart with
  | none => cases kind <;> simp [hcore, hcluster]
  | some l =>
    have he : inElided (s.queue l.queue) va = false := by simp [inElided, (hp l hl).2.2]
    cases kind <;> simp [hcore, hcluster, he]
end

/-! ## The scratchpad windows -/

section
variable {s : State} (hp : plainLaunch s) (w : Who) {kind : AKind} (user write amo : Bool) (fa : Word) {va : Word}

/-- Nothing of an ordinary launch is elided (R228). -/
theorem not_elided (hp : plainLaunch s) {l : Launch} (hl : s.launchOf s.hart = some l) (va : Word) : inElided (s.queue l.queue) va = false := by
  simp [inElided, (hp l hl).2.2]

/-- The window of the core scratchpad that the running body has (R134). -/
def State.coreWin (s : State) : Window :=
  { lo := coreWindow, size := s.hart.sbanks * 16384, first := .core s.hart.id ((64 - s.hart.sbanks) * 16384) }

/-- The window of the cluster scratchpad that a launch's reservation gives the running body (R134). -/
def State.clusterWin (s : State) (l : Launch) (r : Resv) : Window :=
  { lo := clusterWindow, size := (l.a.clSpb + 255) / 256 * 256, first := .cluster s.hart.cluster r.base }

def Window.has (w : Window) (n : Nat) : Prop := w.lo ≤ n ∧ n < w.lo + w.size

/-- The reservation whose bytes the running body's cluster window reaches. -/
def State.resvNow (s : State) (l : Launch) (r : Resv) : Prop :=
  s.launchOf s.hart = some l ∧ ∃ j, s.hart.job = some j ∧ s.resvOf s.hart.cluster j.launch j.inB = some r

/-- An address lies in the core window, or in the cluster window that a reservation gives. -/
theorem windowOf_cases (hp : plainLaunch s) {n : Nat} {win : Window} (h : s.windowOf s.hart n = some win) :
    win = s.coreWin ∧ win.has n ∨ ∃ l r, s.resvNow l r ∧ win = s.clusterWin l r ∧ win.has n := by
  have hhas : win.has n := by simpa [Window.has] using List.find?_some h
  have hmem := List.mem_of_find?_eq_some h
  simp only [State.windows, coreWindowOf_ordinary hp] at hmem
  cases hl : s.launchOf s.hart with
  | none =>
    simp only [hl, List.mem_singleton] at hmem
    exact .inl ⟨hmem, hhas⟩
  | some l =>
    cases hj : s.hart.job with
    | none =>
      simp only [hl, hj, List.mem_singleton] at hmem
      exact .inl ⟨hmem, hhas⟩
    | some j =>
      simp only [hl, hj, Option.map_some, Option.getD_some] at hmem
      cases hr : s.resvOf s.hart.cluster j.launch j.inB with
      | none =>
        simp only [hr, List.mem_singleton] at hmem
        exact .inl ⟨hmem, hhas⟩
      | some r =>
        simp only [hr, List.mem_cons, List.not_mem_nil, or_false, clusterLimit_ordinary hp hl] at hmem
        rcases hmem with rfl | rfl
        · exact .inl ⟨rfl, hhas⟩
        · exact .inr ⟨l, r, ⟨hl, j, hj, hr⟩, rfl, hhas⟩

include hp in
theorem placePlain_core (hb : s.hart.sbanks ≤ 64) (hk : kind ≠ .fetch) (hw : s.coreWin.has va.toNat) :
    (placePlain w (s.via s.hart) kind user write amo fa va).run s = .ok (s.coreWin.loc va.toNat, none) s := by
  obtain ⟨hlo, hhi⟩ : coreWindow ≤ va.toNat ∧ va.toNat < coreWindow + s.hart.sbanks * 16384 := hw
  have hcore : inCoreWindow va.toNat = true := by
    rw [inCoreWindow_iff]
    omega
  have hin : ¬ s.hart.sbanks * 16384 ≤ va.toNat - coreWindow := by omega
  unfold placePlain
  simp only [Op.run_bind, Op.run_get, launchOf_via, hartOf_via, coreWindowOf_ordinary hp]
  cases hl : s.launchOf s.hart with
  | none =>
    cases kind with
    | fetch => exact absurd rfl hk
    | load | store => simp [hcore, hin]; rfl
  | some l =>
    cases kind with
    | fetch => exact absurd rfl hk
    | load | store => simp [hcore, hin, not_elided hp hl]; rfl

include hp in
theorem placePlain_cluster {l : Launch} {r : Resv} (hr : s.resvNow l r) (hk : kind ≠ .fetch) (hw : (s.clusterWin l r).has va.toNat) :
    (placePlain w (s.via s.hart) kind user write amo fa va).run s = .ok ((s.clusterWin l r).loc va.toNat, none) s := by
  obtain ⟨hl, j, hj, hr⟩ := hr
  have hsmall := (hp l hl).2.1
  obtain ⟨hlo, hhi⟩ : clusterWindow ≤ va.toNat ∧ va.toNat < clusterWindow + (l.a.clSpb + 255) / 256 * 256 := hw
  have hcore : inCoreWindow va.toNat = false := by
    rw [← Bool.not_eq_true, inCoreWindow_iff]
    unfold coreWindow
    unfold clusterWindow at hlo
    omega
  have hcluster : inClusterWindow va.toNat = true := by
    rw [inClusterWindow_iff]
    omega
  have hin : ¬ (l.a.clSpb + 255) / 256 * 256 ≤ va.toNat - clusterWindow := by omega
  have hvia : s.via s.hart = some { hart := s.hart.id, launch := j.launch, inB := j.inB, key := j.key, iter := j.iter, inSetup := j.inSetup } := by
    simp [State.via, hj]
  unfold placePlain
  simp only [Op.run_bind, Op.run_get, launchOf_via, hartOf_via, hl]
  rw [hvia]
  simp only [Option.map_some, Option.getD_some, clusterLimit_ordinary hp hl]
  cases kind with
  | fetch => exact absurd rfl hk
  | load | store => simp [hcore, hcluster, hin, hr, not_elided hp hl]; rfl
end

/-! ## One byte of a permitted access -/

/-- A leaf that permits a byte of U-mode's access (R148, R149). -/
def leafAllows (s : State) (va : Nat) (write : Bool) (e level : Nat) : Prop :=
  e.testBit 4 = true ∧ e.testBit 1 = true ∧ (write = true → e.testBit 2 = true) ∧ e.testBit 9 = false ∧ pteMt e ≠ 3 ∧
  ptePpn e < 2 ^ 28 ∧ ptePpn e * 4096 % pageSize level = 0 ∧ s.keyLoaded (pteHome e) (pteKey e) = true ∧
  (pteHome e = s.domainId → pageAddr e level va < s.physLimit)

/-- Where a page's byte lies. -/
def pagePhys (s : State) (e level va : Nat) : Phys :=
  { key := memKey s.domainId (pteHome e) (pageAddr e level va), mt := pteMt e, remote := pteHome e ≠ s.domainId, home := pteHome e,
    crypt := s.cryptKey (pteHome e) (pteKey e) }

theorem translate_leaf {s : State} {kind : AKind} {write : Bool} {root e a level : Nat} {va : Word} (hc : sextN 48 va.toNat = va)
    (hw : walk s va.toNat 4 root 0 = .leaf e a level) (hk : kind ≠ .fetch) (h : leafAllows s va.toNat write e level) (w : Who) (amo : Bool)
    (fa : Word) : (translate w kind true write amo root fa va).run s = .ok (pagePhys s e level va.toNat) (s.withPte a (markedPte e write)) := by
  obtain ⟨hu, hr, hwr, hq, hmt, hppn, hal, hkey, hpa⟩ := h
  have hlim : ¬ (pteHome e = s.domainId ∧ s.physLimit ≤ ptePpn e * 4096 + va.toNat % pageSize level) := fun h => by
    have := hpa h.1
    unfold pageAddr at this
    omega
  unfold translate
  simp only [Op.run_bind, Op.run_get, hc, ne_eq, not_true_eq_false, if_false, hw]
  rw [if_neg (by simp [hr, hmt, hal]; exact hppn), if_neg (by simp [hu, hr, hk]; exact hwr), if_neg (by simp [hq])]
  rw [if_neg (by simp [hkey]; exact fun h => by have := fun hle => hlim ⟨h, hle⟩; omega)]
  rfl

/-- A byte lies at a site, and nothing forbids its access. -/
def covers (x : Site) (s : State) (va : Word) (write : Bool) : Prop :=
  match x with
  | .bare => bare s ∧ va.toNat < s.physLimit
  | .window win => s.hart.mode = .u ∧ plainLaunch s ∧ s.hart.sbanks ≤ 64 ∧ s.windowOf s.hart va.toNat = some win
  | .page e a level => s.hart.mode = .u ∧ plainLaunch s ∧ sextN 48 va.toNat = va ∧ inWindow va.toNat = false ∧ rootFor s % 8 = 0 ∧
      walk s va.toNat 4 (rootFor s) 0 = .leaf e a level ∧ leafAllows s va.toNat write e level

/-- Where one byte of a site lies. -/
def placeAt (x : Site) (s : State) (va : Nat) : Loc × Option Phys :=
  match x with
  | .bare => (.mem va, none)
  | .window win => (win.loc va, none)
  | .page e _ level => (.mem (pagePhys s e level va).key, some (pagePhys s e level va))

/-- The site once its leaf is marked. -/
def marked (x : Site) (write : Bool) : Site :=
  match x with
  | .page e a level => .page (markedPte e write) a level
  | x => x

theorem places_eq (x : Site) (s : State) (va n : Nat) : x.places s va n = (List.range n).map fun i => placeAt x s (va + i) := by
  cases x <;> rfl

theorem placeAt_marked (x : Site) (s : State) (va : Nat) (write : Bool) :
    placeAt (marked x write) (x.after s write) va = placeAt x s va := by
  cases x with
  | bare => rfl
  | window win => rfl
  | page e a level =>
    simp only [placeAt, marked, pagePhys, pageAddr, ptePpn_marked, pteHome_marked, pteKey_marked, pteMt_marked]
    rfl

theorem after_marked {x : Site} {s : State} (hs : s.memOk) (write : Bool) :
    (marked x write).after (x.after s write) write = x.after s write := by
  cases x with
  | bare => rfl
  | window win => rfl
  | page e a level =>
    show ((s.withPte a (markedPte e write)).withPte a (markedPte (markedPte e write) write)) = s.withPte a (markedPte e write)
    rw [markedPte_idem]
    exact congrArg (fun m => { s with mem := m }) (Memory.write_write_same hs a _)

theorem covers_marked {x : Site} {s : State} (hs : s.memOk) {va : Word} {write : Bool} (h : covers x s va write) :
    covers (marked x write) (x.after s write) va write := by
  cases x with
  | bare => exact h
  | window win => exact h
  | page e a level =>
    obtain ⟨hm, hp, hc, hw, hroot, hwalk, hu, hr, hwr, hq, hmt, hppn, hal, hkey, hpa⟩ := h
    refine ⟨hm, hp, hc, hw, hroot, walk_marked hs write hroot rfl hwalk, ?_⟩
    unfold leafAllows pageAddr
    simp only [ptePpn_marked, pteHome_marked, pteKey_marked, pteMt_marked, markedPte_testBit (i := 4) (by decide) (by decide),
      markedPte_testBit (i := 1) (by decide) (by decide), markedPte_testBit (i := 2) (by decide) (by decide),
      markedPte_testBit (i := 9) (by decide) (by decide)]
    exact ⟨hu, hr, hwr, hq, hmt, hppn, hal, hkey, hpa⟩

theorem access_bare {s : State} (h : bare s) : s.access s.hart = .phys := by
  obtain ⟨hm, hprv⟩ := h
  unfold State.access
  rw [hm]
  exact if_neg hprv

theorem access_user {s : State} (h : s.hart.mode = .u) : s.access s.hart = .virt (s.via s.hart) true := by
  unfold State.access
  rw [h]

/-- A permitted byte is placed where its site says, and its page's leaf marked (R109, R134, R148, R150). -/
theorem placeOne_covers {x : Site} {s : State} {va : Word} {write : Bool} {kind : AKind} (h : covers x s va write) (hk : kind ≠ .fetch)
    (w : Who) (amo : Bool) (fa : Word) :
    (placeOne w (s.access s.hart) kind write amo fa va).run s = .ok (placeAt x s va.toNat) (x.after s write) := by
  cases x with
  | bare =>
    rw [access_bare h.1]
    exact placeOne_phys h.2
  | window win =>
    obtain ⟨hm, hp, hb, hw⟩ := h
    rw [access_user hm]
    refine (placeByte_ordinary hp ..).trans ?_
    obtain ⟨rfl, hhas⟩ | ⟨l, r, hr, rfl, hhas⟩ := windowOf_cases hp hw
    · exact placePlain_core hp w true write amo fa hb hk hhas
    · exact placePlain_cluster hp w true write amo fa hr hk hhas
  | page e a level =>
    obtain ⟨hm, hp, hc, hw, -, hwalk, hallow⟩ := h
    rw [access_user hm]
    refine (placeByte_ordinary hp ..).trans ((placePlain_page hp _ _ _ _ _ _ _ hw).trans ?_)
    rw [Op.run_map, translate_leaf hc hwalk hk hallow]
    rfl

/-! ## The bytes of a permitted access -/

theorem windowRange_iff {s : State} {h : Hart} {a n : Nat} {win : Window} :
    s.windowRange h a n = .inl win ↔ s.windowOf h a = some win ∧ a + n ≤ win.lo + win.size := by
  unfold State.windowRange
  cases s.windowOf h a with
  | none => simp
  | some v =>
    dsimp only
    split
    next hv => simp only [Sum.inl.injEq, Option.some.injEq]; exact ⟨fun e => ⟨e, e ▸ hv⟩, fun e => e.1⟩
    next hv => simp only [reduceCtorEq, Option.some.injEq, false_iff]; rintro ⟨rfl, hle⟩; exact hv hle

/-- A window that holds an address holds those between it and another byte of the window. -/
theorem windowOf_between {s : State} (hp : plainLaunch s) (hb : s.hart.sbanks ≤ 64) {n m : Nat} {win : Window}
    (h : s.windowOf s.hart n = some win) (hle : n ≤ m) (hm : m < win.lo + win.size) : s.windowOf s.hart m = some win := by
  have hwin : win ∈ s.windows s.hart := List.mem_of_find?_eq_some h
  have hhas : win.has m := by
    have : win.has n := by simpa [Window.has] using List.find?_some h
    exact ⟨this.1.trans hle, hm⟩
  cases hf : s.windowOf s.hart m with
  | none =>
    have := List.find?_eq_none.mp hf win hwin
    simp [hhas.1, hhas.2] at this
  | some win' =>
    obtain ⟨hlo, hhi⟩ := hhas
    obtain ⟨rfl, -⟩ | ⟨l, r, hr, rfl, -⟩ := windowOf_cases hp h <;> obtain ⟨rfl, hlo', hhi'⟩ | ⟨l', r', hr', rfl, hlo', hhi'⟩ := windowOf_cases hp hf
    · rfl
    · simp only [State.coreWin, State.clusterWin, coreWindow, clusterWindow] at *
      omega
    · simp only [State.coreWin, State.clusterWin, coreWindow, clusterWindow] at *
      omega
    · obtain ⟨hl, j, hj, hr⟩ := hr
      obtain ⟨hl', j', hj', hr'⟩ := hr'
      obtain rfl : l = l' := Option.some.inj (hl.symm.trans hl')
      obtain rfl : j = j' := Option.some.inj (hj.symm.trans hj')
      obtain rfl : r = r' := Option.some.inj (hr.symm.trans hr')
      rfl

/-- Every byte of a permitted access is one of its site. -/
theorem covers_byte {x : Site} {s : State} {va : Word} {n i : Nat} {write : Bool} (h : x.holds s va n write) (hi : i < n) :
    (va + BitVec.ofNat 64 i).toNat = va.toNat + i ∧ covers x s (va + BitVec.ofNat 64 i) write := by
  obtain ⟨-, halign, h⟩ := h
  have hadd : va.toNat + i < 2 ^ 64 → (va + BitVec.ofNat 64 i).toNat = va.toNat + i := fun hlt => by
    rw [BitVec.toNat_add, BitVec.toNat_ofNat]
    omega
  cases x with
  | bare =>
    obtain ⟨hbare, hl⟩ := h
    have hlim := physLimit_le s
    have hto := hadd (by omega)
    exact ⟨hto, hbare, by omega⟩
  | window win =>
    obtain ⟨hm, hp, hb, hr⟩ := h
    obtain ⟨hw, hend⟩ := windowRange_iff.mp hr
    have hlt : va.toNat + i < 2 ^ 64 := by
      obtain ⟨rfl, -⟩ | ⟨l, r, hres, rfl, -⟩ := windowOf_cases hp hw
      · simp only [State.coreWin, coreWindow] at hend
        omega
      · have := (hp l hres.1).2.1
        simp only [State.clusterWin, clusterWindow] at hend
        omega
    have hto := hadd hlt
    refine ⟨hto, hm, hp, hb, ?_⟩
    rw [hto]
    exact windowOf_between hp hb hw (by omega) (by omega)
  | page e a level =>
    obtain ⟨hm, hp, hn, hc, hw, hroot, hwalk, hu, hr, hwr, hq, hmt, hppn, hal, hkey, hpa, -⟩ := h
    have hpage := samePage_of_aligned hn halign hi
    obtain ⟨-, -, -, hlevel⟩ := walk_leaf_entry hroot rfl hwalk
    refine ⟨hpage.toNat, hm, hp, hpage.canonical hc, hpage.not_inWindow hw, hroot, ?_, hu, hr, hwr, hq, hmt, hppn, hal, hkey, fun hhome => ?_⟩
    · rw [hpage.toNat, walk_samePage hpage.page rfl, hwalk]
    · rw [hpage.toNat, pageAddr_add hlevel hpage.page]
      have := hpa hhome
      omega

/-- Bytes are placed one after the other; from the second on the placing changes nothing. -/
theorem placeBytes_steps {w : Who} {a : Access} {kind : AKind} {write amo : Bool} {fa : Word} {u : State} : ∀ {n : Nat} {va : Word} {s : State}
    {place : Nat → Loc × Option Phys}, (placeOne w a kind write amo fa va).run s = .ok (place 0) u →
    (∀ i, i < n → (placeOne w a kind write amo fa (va + BitVec.ofNat 64 (i + 1))).run u = .ok (place (i + 1)) u) →
    (placeBytes w a kind write amo fa va (n + 1)).run s = .ok ((List.range (n + 1)).map place) u
  | 0, va, s, place, h, _ => Op.bind_ok h rfl
  | n + 1, va, s, place, h, hs => by
    have hadd : ∀ i, va + 1 + BitVec.ofNat 64 i = va + BitVec.ofNat 64 (i + 1) := fun i => by
      rw [BitVec.add_assoc, BitVec.ofNat_add, BitVec.add_comm 1]
      rfl
    have hrest := placeBytes_steps (n := n) (va := va + 1) (s := u) (place := fun i => place (i + 1)) (hs 0 (by omega)) fun i hi => by
      rw [hadd]
      exact hs (i + 1) (by omega)
    refine (Op.bind_ok h (Op.bind_ok hrest rfl)).trans ?_
    rw [List.range_succ_eq_map (n := n + 1), List.map_cons, List.map_map]
    rfl

theorem access_after (x : Site) (s : State) (write : Bool) : (x.after s write).access (x.after s write).hart = s.access s.hart := by
  cases x <;> rfl

/-- The bytes of an access that a site covers are placed where it says, and its page's leaf marked (R109, R134, R148, R150). -/
theorem placeBytes_covers {x : Site} {s : State} {n : Nat} {va : Word} {write : Bool} {kind : AKind} (hs : s.memOk) (hn : 0 < n)
    (h : ∀ i, i < n → (va + BitVec.ofNat 64 i).toNat = va.toNat + i ∧ covers x s (va + BitVec.ofNat 64 i) write) (hk : kind ≠ .fetch)
    (w : Who) (amo : Bool) (fa : Word) :
    (placeBytes w (s.access s.hart) kind write amo fa va n).run s = .ok (x.places s va.toNat n) (x.after s write) := by
  obtain ⟨m, rfl⟩ : ∃ m, n = m + 1 := Nat.exists_eq_succ_of_ne_zero hn.ne'
  rw [places_eq]
  refine placeBytes_steps (placeOne_covers (by simpa using (h 0 hn).2) hk w amo fa) fun i hi => ?_
  obtain ⟨hto, hcov⟩ := h (i + 1) (by omega)
  have := placeOne_covers (covers_marked hs hcov) hk w amo fa
  rwa [access_after, placeAt_marked, after_marked hs, hto] at this

theorem placeBytes_site {x : Site} {s : State} {n : Nat} {va : Word} {write : Bool} {kind : AKind} (hs : s.memOk) (h : x.holds s va n write)
    (hk : kind ≠ .fetch) (w : Who) (amo : Bool) (fa : Word) :
    (placeBytes w (s.access s.hart) kind write amo fa va n).run s = .ok (x.places s va.toNat n) (x.after s write) :=
  placeBytes_covers hs h.1 (fun _ hi => covers_byte h hi) hk w amo fa

/-! ## The places of an access -/

section
variable (x : Site) (s : State) (va n : Nat)

theorem places_plain : ∀ p ∈ x.places s va n, plainPlace p := by
  intro p hp
  rw [places_eq] at hp
  obtain ⟨i, -, rfl⟩ := List.mem_map.mp hp
  cases x with
  | bare => exact .inr rfl
  | window win => exact .inr rfl
  | page e a level => exact .inl ⟨_, rfl⟩

theorem places_length : (x.places s va n).length = n := by simp [places_eq]
end

/-- The bytes of a permitted access lie at places of their own, under one key. -/
theorem places_apart {x : Site} {s : State} {n : Nat} {va : Word} {write : Bool} (h : x.holds s va n write) :
    apart (x.places s va.toNat n) := by
  rw [places_eq, apart, List.pairwise_map]
  refine List.Pairwise.imp_of_mem ?_ List.pairwise_lt_range
  intro i j hi hj hij
  have hi := List.mem_range.mp hi
  have hj := List.mem_range.mp hj
  obtain ⟨-, halign, h⟩ := h
  cases x with
  | bare => exact ⟨fun e => by have := Loc.mem.inj e; omega, rfl⟩
  | window win =>
    obtain ⟨hm, hp, hb, hr⟩ := h
    obtain ⟨hw, -⟩ := windowRange_iff.mp hr
    refine ⟨fun e => ?_, rfl⟩
    obtain ⟨rfl, hlo, -⟩ | ⟨l, r, -, rfl, hlo, -⟩ := windowOf_cases hp hw
    · have := (Loc.core.inj e).2
      simp only [State.coreWin, Loc.offset] at this hlo
      omega
    · have := (Loc.cluster.inj e).2
      simp only [State.clusterWin, Loc.offset] at this hlo
      omega
  | page e a level =>
    obtain ⟨hm, hp, hn, hc, hw, hroot, hwalk, -⟩ := h
    obtain ⟨-, -, -, hlevel⟩ := walk_leaf_entry hroot rfl hwalk
    refine ⟨fun he => ?_, rfl⟩
    have hkey : memKey s.domainId (pteHome e) (pageAddr e level (va.toNat + j)) = memKey s.domainId (pteHome e) (pageAddr e level (va.toNat + i)) :=
      Loc.mem.inj he
    rw [pageAddr_add hlevel (samePage_of_aligned hn halign hi).page, pageAddr_add hlevel (samePage_of_aligned hn halign hj).page] at hkey
    unfold memKey at hkey
    split at hkey <;> omega

end Sys2Proof.Machine
end

section
/-!
SUPPORT. The accesses of the present hart, assembled from the placing of their bytes (R109): what a read checks (R137, R196), what it
answers, what a write stores, and the traps that come before a byte is placed (R149).
-/

namespace Sys2Proof.Machine
open Sys2Proof.Claims

/-! ## The checks of a read -/

section
variable {w : Who} {fa : Word} {ps : List (Loc × Option Phys)} {u : State}

/-- The trap of an access at its address. -/
def memTrap (w : Who) (cause : Nat) (fa : Word) (sub : Nat) : Trap :=
  { cause := cause, elem := w.elem, addr := some fa, sub := sub, unit := w.unit, lane := w.lane, cu := w.cu, mtvalAddr := w.mtvalAddr }

theorem fail_run {α : Type} (w : Who) (cause : Nat) (fa : Word) (sub : Nat) (s : State) :
    (fail w cause fa sub : Op α).run s = .error (.trap (memTrap w cause fa sub)) s := rfl

theorem readChecks_poison {sub : Nat} (h : poisonIn u ps = some sub) (hf : u.flag u.hart 2 = true) :
    (readChecks w .running fa ps).run u = .error (.trap (memTrap w 25 fa sub)) u := by
  have h' : ps.findSome? (fun p => u.poisonSub p.1) = some sub := h
  simp [readChecks, h', hf, fail_run]

theorem readChecks_stale {sub : Nat} (h : staleIn u ps = some sub) (hp : poisonIn u ps = none ∨ u.flag u.hart 2 = false) :
    (readChecks w .running fa ps).run u = .error (.trap (memTrap w 24 fa sub)) u := by
  have h' : ps.findSome? (fun p => u.staleSub p.1) = some sub := h
  have hp' : ps.findSome? (fun p => u.poisonSub p.1) = none ∨ u.flag u.hart 2 = false := hp
  cases hq : ps.findSome? (fun p => u.poisonSub p.1) with
  | none => simp [readChecks, hq, h', fail_run]
  | some q =>
    have hf : u.flag u.hart 2 = false := hp'.resolve_left (by simp [hq])
    simp [readChecks, hq, h', hf, fail_run]

theorem readChecks_live (h : staleIn u ps = none) (hp : poisonIn u ps = none ∨ u.flag u.hart 2 = false) :
    (readChecks w .running fa ps).run u = .ok (poisonIn u ps).isSome u := by
  have h' : ps.findSome? (fun p => u.staleSub p.1) = none := h
  have hp' : ps.findSome? (fun p => u.poisonSub p.1) = none ∨ u.flag u.hart 2 = false := hp
  unfold poisonIn
  cases hq : ps.findSome? (fun p => u.poisonSub p.1) with
  | none => simp [readChecks, hq, h']
  | some q =>
    have hf : u.flag u.hart 2 = false := hp'.resolve_left (by simp [hq])
    simp [readChecks, hq, h', hf]
end

/-! ## One part -/

section
variable {s : State} {a : Access} (h : s.pairOf a = none) (kind : AKind) (amo : Bool) (va : Word)
include h

/-- Without a pair an access has one part (R224). -/
theorem parts_one (n : Nat) : s.parts a kind amo va n = [n] := by
  unfold State.parts
  rw [h]
  cases a <;> rfl

theorem partPolicy_same (pol : PoisonPolicy) : s.partPolicy a kind amo pol va = pol := by
  unfold State.partPolicy
  rw [h]
  cases a <;> rfl
end

theorem pairOf_user {s : State} (hp : plainLaunch s) : s.pairOf (.virt (s.via s.hart) true) = none := by
  have hl := launchOf_via s
  unfold State.pairOf
  cases hv : s.via s.hart with
  | none => rfl
  | some v =>
    rw [hv] at hl
    have hl : s.launches.get? v.launch = s.launchOf s.hart := hl
    dsimp only
    rw [hl]
    cases hg : s.launchOf s.hart with
    | none => rfl
    | some l => exact (hp l hg).1

section
variable {w : Who} {a : Access} {kind : AKind} {write amo : Bool} {fa va : Word} {n : Nat} {s u : State} {ps : List (Loc × Option Phys)}
  (hpair : s.pairOf a = none) (hplace : (placeBytes w a kind write amo fa va n).run s = .ok ps u)
  (hremote : (checkRemote w kind fa ps).run u = .ok () u)
include hpair hplace hremote

theorem placeParts_ok {zero : Bool} (h : (readChecks w .running fa ps).run u = .ok zero u) :
    (placeParts w a kind write amo .running fa va [n]).run s = .ok (ps, zero) u := by
  rw [placeParts]
  refine Op.bind_ok (Op.run_get s) (Op.bind_ok hplace (Op.bind_ok hremote ?_))
  rw [partPolicy_same hpair]
  have hnone : (placeParts w a kind write amo .running fa (va + BitVec.ofNat 64 n) []).run u = .ok ([], false) u := rfl
  refine (Op.bind_ok h (Op.bind_ok hnone rfl)).trans ?_
  simp

theorem placeParts_trap {e : Trap} (h : (readChecks w .running fa ps).run u = .error (.trap e) u) :
    (placeParts w a kind write amo .running fa va [n]).run s = .error (.trap e) u := by
  rw [placeParts]
  refine Op.bind_ok (Op.run_get s) (Op.bind_ok hplace (Op.bind_ok hremote ?_))
  rw [partPolicy_same hpair]
  exact Op.bind_error h
end

/-- A trap at the first byte is the access's. -/
theorem placeBytes_trap {w : Who} {a : Access} {kind : AKind} {write amo : Bool} {fa va : Word} {n : Nat} {s u : State} {e : Stop} (hn : 0 < n)
    (h : (placeOne w a kind write amo fa va).run s = .error e u) : (placeBytes w a kind write amo fa va n).run s = .error e u := by
  obtain ⟨m, rfl⟩ : ∃ m, n = m + 1 := Nat.exists_eq_succ_of_ne_zero hn.ne'
  exact Op.bind_error h

theorem placeParts_placing {w : Who} {a : Access} {kind : AKind} {write amo : Bool} {pol : PoisonPolicy} {fa va : Word} {n : Nat} {ns : List Nat}
    {s u : State} {e : Stop} (h : (placeBytes w a kind write amo fa va n).run s = .error e u) :
    (placeParts w a kind write amo pol fa va (n :: ns)).run s = .error e u := by
  rw [placeParts]
  exact Op.bind_ok (Op.run_get s) (Op.bind_error h)

/-! ## Reads -/

theorem ofBytes_zeros (n : Nat) : ofBytes (List.replicate n 0#8) = 0 := by
  induction n with
  | zero => rfl
  | succ n ih => simp [List.replicate_succ, ofBytes, ih]

section
variable {w : Who} {va : Word} {n : Nat} {s u : State} (ha : va.toNat % n = 0)
include ha

theorem memRead_aligned : (memRead w va n).run s =
    ((fun bs => ofBytes bs) <$> readBytes w (s.access s.hart) .load .running va n).run s := by
  unfold memRead
  simp [ha]

variable (hpair : s.pairOf (s.access s.hart) = none)
include hpair

theorem memRead_error {e : Stop} (h : (placeParts w (s.access s.hart) .load false false .running va va [n]).run s = .error e u) :
    (memRead w va n).run s = .error e u := by
  rw [memRead_aligned ha, Op.run_map]
  have hread : (readBytes w (s.access s.hart) .load .running va n).run s = .error e u := by
    refine Op.bind_error (Op.bind_ok (Op.run_get s) ?_)
    rw [parts_one hpair]
    exact Op.bind_error h
  rw [hread]

theorem memRead_ok {ps : List (Loc × Option Phys)} {zero : Bool}
    (h : (placeParts w (s.access s.hart) .load false false .running va va [n]).run s = .ok (ps, zero) u) :
    (memRead w va n).run s = if zero then .ok 0 { u with hart := u.hart.countPoison } else .ok (ofBytes (ps.map u.byteAt)) u := by
  rw [memRead_aligned ha, Op.run_map]
  have huncounted : (readUncounted w (s.access s.hart) .load .running va n).run s =
      .ok (if zero then List.replicate n 0 else ps.map u.byteAt, zero) u := by
    refine Op.bind_ok (Op.run_get s) ?_
    rw [parts_one hpair]
    exact Op.bind_ok h rfl
  have hread : (readBytes w (s.access s.hart) .load .running va n).run s =
      .ok (if zero then List.replicate n 0 else ps.map u.byteAt) (if zero then { u with hart := u.hart.countPoison } else u) := by
    refine Op.bind_ok huncounted ?_
    cases zero <;> rfl
  rw [hread]
  cases zero
  · rfl
  · simp [ofBytes_zeros]
end

theorem readsAt_of_placed {w : Who} {va : Word} {n : Nat} {s u : State} {ps : List (Loc × Option Phys)} (ha : va.toNat % n = 0)
    (hpair : s.pairOf (s.access s.hart) = none) (hplace : (placeBytes w (s.access s.hart) .load false false va va n).run s = .ok ps u)
    (hremote : (checkRemote w .load va ps).run u = .ok () u) (hflag : u.flag u.hart 2 = s.flag s.hart 2) : readsAt s u w va n ps := by
  have htrap := fun e h => memRead_error ha hpair (placeParts_trap (e := e) hpair hplace hremote h)
  have hok := fun z h => memRead_ok ha hpair (placeParts_ok (zero := z) hpair hplace hremote h)
  refine ⟨fun sub hp hf => ?_, fun sub hst hp => ?_, fun hst hp => ?_, fun hst hp hf => ?_⟩
  · exact ⟨_, htrap _ (readChecks_poison hp (hflag.trans hf)), rfl, rfl, rfl, rfl⟩
  · exact ⟨_, htrap _ (readChecks_stale hst (by rwa [hflag])), rfl, rfl, rfl, rfl⟩
  · rw [hok _ (readChecks_live hst (.inl hp)), hp]
    rfl
  · rw [hok _ (readChecks_live hst (.inr (hflag.trans hf))), Option.isSome_iff_ne_none.mpr hp]
    rfl

/-! ## Permitted accesses -/

section
variable {x : Site} {s : State} {va : Word} {n : Nat} {write : Bool} (h : x.holds s va n write)
include h

theorem pairOf_site : s.pairOf (s.access s.hart) = none := by
  cases x with
  | bare =>
    rw [access_bare h.2.2.1]
    rfl
  | window win =>
    rw [access_user h.2.2.1]
    exact pairOf_user h.2.2.2.1
  | page e a level =>
    rw [access_user h.2.2.1]
    exact pairOf_user h.2.2.2.1

/-- Where a permitted access reaches another package, the fabric answers and delivers it. -/
theorem site_delivers (hr : (x.places s va.toNat n).any isRemote = true) :
    s.hart.remoteFault = none ∧ s.loses (.hart s.hart.id) va = false := by
  obtain ⟨p, hp, hremote⟩ := List.any_eq_true.mp hr
  rw [places_eq] at hp
  obtain ⟨i, -, rfl⟩ := List.mem_map.mp hp
  cases x with
  | bare => cases hremote
  | window win => cases hremote
  | page e a level =>
    obtain ⟨-, -, -, -, -, -, -, -, -, -, -, -, -, -, -, -, -, -, hfabric⟩ := h
    exact hfabric (of_decide_eq_true hremote)

theorem checkRemote_site (w : Who) (kind : AKind) :
    (checkRemote w kind va (x.places s va.toNat n)).run (x.after s write) = .ok () (x.after s write) := by
  cases hr : (x.places s va.toNat n).any isRemote with
  | false => exact checkRemote_local hr
  | true =>
    obtain ⟨hfault, hloses⟩ := site_delivers h hr
    have hlinks : s.linksUp = true := by
      unfold State.loses at hloses
      simpa using (Bool.or_eq_false_iff.mp hloses).1
    have hfault' : (x.after s write).hart.remoteFault = none := by
      cases x <;> exact hfault
    have hlinks' : (x.after s write).linksUp = true := by
      cases x <;> exact hlinks
    simp [checkRemote, hr, Hart.unanswered, hfault', hlinks']

theorem writePlaced_site (w : Who) (bs : List Byte) :
    (writePlaced w va (x.places s va.toNat n) bs).run (x.after s write) = (storePlaced (x.places s va.toNat n) bs).run (x.after s write) := by
  have hkept : ((x.places s va.toNat n).any isRemote && (x.after s write).loses (.hart (x.after s write).hart.id) va) = false := by
    cases hr : (x.places s va.toNat n).any isRemote with
    | false => rfl
    | true =>
      cases x <;> exact (site_delivers h hr).2
  refine (Op.bind_ok (Op.run_getH _) (Op.bind_ok (Op.run_get _) ?_))
  rw [hkept]
  rfl
end

theorem memOk_after {s : State} (hs : s.memOk) (x : Site) (write : Bool) : (x.after s write).memOk := by
  cases x with
  | bare => exact hs
  | window win => exact hs
  | page e a level => exact Memory.wf_write hs ..

theorem flag_after (x : Site) (s : State) (write : Bool) (i : Nat) : (x.after s write).flag (x.after s write).hart i = s.flag s.hart i := by
  cases x <;> rfl

theorem storePlaced_site {x : Site} {s : State} {va : Word} {n : Nat} {write : Bool} (h : x.holds s va n write) {u : State} (hu : u.memOk)
    {bs : List Byte} (hb : bs.length = n) :
    ∃ t, (storePlaced (x.places s va.toNat n) bs).run u = .ok () t ∧ stores u t (x.places s va.toNat n) bs :=
  storePlaced_stores (places_plain x s va.toNat n) (hb.trans (places_length x s va.toNat n).symm) (places_apart h) hu

theorem memWrite_placed {w : Who} {va : Word} {n v : Nat} {s u : State} {ps : List (Loc × Option Phys)} (ha : va.toNat % n = 0)
    (hplace : (placeBytes w (s.access s.hart) .store true false va va n).run s = .ok ps u) :
    (memWrite w va n v).run s = (writePlaced w va ps (toBytes n v)).run u := by
  unfold memWrite writeBytes
  simp [ha, hplace]

theorem permittedAccesses : PermittedAccesses := by
  intro x s w va n hs
  refine ⟨fun h => ?_, fun h v => ?_⟩
  · exact readsAt_of_placed h.2.1 (pairOf_site h) (placeBytes_site hs h (by decide) w false va) (checkRemote_site h w .load) (flag_after x s false 2)
  · obtain ⟨t, hrun, hstores⟩ := storePlaced_site h (memOk_after hs x true) (toBytes_length n v)
    refine ⟨t, ?_, hstores⟩
    rw [memWrite_placed h.2.1 (placeBytes_site hs h (by decide) w false va), writePlaced_site h]
    exact hrun

/-! ## Forbidden accesses -/

theorem memWrite_error {w : Who} {va : Word} {n v : Nat} {s u : State} {e : Stop} (ha : va.toNat % n = 0)
    (h : (placeBytes w (s.access s.hart) .store true false va va n).run s = .error e u) : (memWrite w va n v).run s = .error e u := by
  unfold memWrite writeBytes
  simp [ha, h]

theorem placeOne_outside {s : State} (hb : bare s) {va : Word} (hl : s.physLimit ≤ va.toNat) (w : Who) (kind : AKind) (write amo : Bool)
    (fa : Word) : (placeOne w (s.access s.hart) kind write amo fa va).run s = .error (.trap (memTrap w kind.accessFault fa 0)) s := by
  rw [access_bare hb]
  simp [placeOne, hl, fail_run]

theorem translate_missing {s : State} {root : Nat} {va : Word} (h : sextN 48 va.toNat ≠ va ∨ walk s va.toNat 4 root 0 = .invalid)
    (w : Who) (kind : AKind) (user write amo : Bool) (fa : Word) :
    (translate w kind user write amo root fa va).run s = .error (.trap (memTrap w kind.pageFault fa 0)) s := by
  unfold translate
  by_cases hc : sextN 48 va.toNat = va
  · simp [hc, h.resolve_left (not_not_intro hc), fail_run]
  · simp [hc, fail_run]

theorem placeOne_missing {s : State} (hm : s.hart.mode = .u) (hp : plainLaunch s) {va : Word} (hw : inWindow va.toNat = false)
    (h : sextN 48 va.toNat ≠ va ∨ walk s va.toNat 4 (rootFor s) 0 = .invalid) (w : Who) (kind : AKind) (write amo : Bool) (fa : Word) :
    (placeOne w (s.access s.hart) kind write amo fa va).run s = .error (.trap (memTrap w kind.pageFault fa 0)) s := by
  rw [access_user hm]
  refine (placeByte_ordinary hp ..).trans ((placePlain_page hp _ _ _ _ _ _ _ hw).trans ?_)
  rw [Op.run_map, translate_missing h]

theorem pairOf_bare {s : State} (hb : bare s) : s.pairOf (s.access s.hart) = none := by
  rw [access_bare hb]
  rfl

/-- An access whose first byte is not placed traps there, and changes nothing. -/
theorem access_traps {s : State} {w : Who} {va : Word} {n : Nat} (hn : 0 < n) (ha : va.toNat % n = 0)
    (hpair : s.pairOf (s.access s.hart) = none) {c : AKind → Nat}
    (h : ∀ kind write amo, (placeOne w (s.access s.hart) kind write amo va va).run s = .error (.trap (memTrap w (c kind) va 0)) s) (v : Nat) :
    trapsWith (memRead w va n) s s w va (c .load) 0 ∧ trapsWith (memWrite w va n v) s s w va (c .store) 0 :=
  ⟨⟨_, memRead_error ha hpair (placeParts_placing (placeBytes_trap hn (h ..))), rfl, rfl, rfl, rfl⟩,
    ⟨_, memWrite_error ha (placeBytes_trap hn (h ..)), rfl, rfl, rfl, rfl⟩⟩

theorem forbiddenAccesses : ForbiddenAccesses := by
  refine ⟨fun s w va n v hn ha => ⟨⟨memTrap w 4 va 0, ?_, rfl, rfl, rfl, rfl⟩, ⟨memTrap w 6 va 0, ?_, rfl, rfl, rfl, rfl⟩⟩,
    fun s w va n v hn ha hb hl => ?_, fun s w va n v hn ha hm hp hw h => ?_⟩
  · simp [memRead, ha, fail_run]
  · simp [memWrite, ha, fail_run]
  · exact access_traps (c := AKind.accessFault) hn ha (pairOf_bare hb) (fun kind write amo => placeOne_outside hb hl w kind write amo va) v
  · exact access_traps (c := AKind.pageFault) hn ha (by rw [access_user hm]; exact pairOf_user hp)
      (fun kind write amo => placeOne_missing hm hp hw h w kind write amo va) v

/-! ## The states of a block -/

theorem Block.state_unwritten_iff {b : Block} {time : Nat} : b.state time = .unwritten ↔ b.live = false := by
  unfold Block.state
  cases b.live with
  | false => simp
  | true => by_cases h : b.expired = false ∧ b.age time < 256 <;> simp [h]

theorem Block.state_expired_iff {b : Block} {time : Nat} :
    b.state time = .expired ↔ b.live = true ∧ (b.expired = true ∨ 256 ≤ b.age time) := by
  unfold Block.state
  cases b.live with
  | false => simp
  | true =>
    cases b.expired with
    | true => simp
    | false => by_cases h : b.age time < 256 <;> simp [h, Nat.not_lt.mp, Nat.not_le.mpr]

theorem blockStates : BlockStates := by
  intro s l b hb
  have hpoison : s.poisonSub l = if l.offset % 256 / 32 ∈ b.poison then some 2 else none := by
    cases l with
    | mem k => cases hb
    | core i o => simp only [State.poisonSub, hb]
    | cluster c o => simp only [State.poisonSub, hb]
  refine ⟨?_, ?_, hpoison⟩
  · rw [← Block.state_unwritten_iff (time := s.time), State.staleSub, hb]
    cases hst : b.state s.time <;> simp [hst]
  · rw [← Block.state_expired_iff, State.staleSub, hb]
    cases hst : b.state s.time <;> simp [hst]

end Sys2Proof.Machine

open Sys2Proof Sys2Proof.Machine Sys2Proof.Claims

/-- Settles O14: the bytes of a permitted access are placed where its site says, the reads and writes are those of placed bytes, and an
access that is misaligned or whose first byte is not placed traps before anything changes. -/
theorem accessesOfMemory : Obligations.AccessesOfMemory := ⟨permittedAccesses, forbiddenAccesses, blockStates⟩
end

section
/-!
SUPPORT. The atomic accesses of the scalar core (R103, R173, R306, R353): one atomic update of placed bytes, LR and its reservation, SC
with it and without it.
-/

namespace Sys2Proof.Machine
open Sys2Proof.Claims

/-! ## One atomic update -/

section
variable {w : Who} {va : Word} {n : Nat} {f : Nat → Nat} {s u : State} (ha : va.toNat % n = 0) (hpair : s.pairOf (s.access s.hart) = none)
include ha hpair

theorem memAmo_error {e : Stop} (h : (placeParts w (s.access s.hart) .store true true .running va va [n]).run s = .error e u) :
    (memAmo w va n f).run s = .error e u := by
  unfold memAmo
  simp [ha, parts_one hpair, h]

/-- The update of bytes of which none reads zero for its poison. -/
theorem memAmo_clean {ps : List (Loc × Option Phys)} {t : State}
    (h : (placeParts w (s.access s.hart) .store true true .running va va [n]).run s = .ok (ps, false) u)
    (hstore : (storePlaced ps (toBytes n (f (ofBytes (ps.map u.byteAt))))).run u = .ok () t) :
    (memAmo w va n f).run s = .ok (ofBytes (ps.map u.byteAt)) t := by
  unfold memAmo
  simp [ha, parts_one hpair, h, hstore]

/-- The update of a poisoned operand that the drop policy makes zero, and counts (R198). -/
theorem memAmo_counted {ps : List (Loc × Option Phys)} {t : State}
    (h : (placeParts w (s.access s.hart) .store true true .running va va [n]).run s = .ok (ps, true) u)
    (hstore : (storePlaced ps (toBytes n (f 0))).run { u with hart := u.hart.countPoison } = .ok () t) :
    (memAmo w va n f).run s = .ok 0 t := by
  unfold memAmo
  simp [ha, parts_one hpair, h, countPoison, hstore]
end

theorem atomicAt_site {x : Site} {s : State} {va : Word} {n : Nat} (hs : s.memOk) (h : x.holds s va n true) (w : Who) (f : Nat → Nat) :
    atomicAt s (x.after s true) w va n f (x.places s va.toNat n) := by
  have ha := h.2.1
  have hpair := pairOf_site h
  have hplace := placeBytes_site hs h (kind := .store) (by decide) w true va
  have hremote := checkRemote_site h w .store
  have hflag := flag_after x s true 2
  have hmem := memOk_after hs x true
  have htrap := fun e he => memAmo_error (f := f) ha hpair (placeParts_trap (e := e) hpair hplace hremote he)
  refine ⟨fun sub hp hf => ?_, fun sub hst hp => ?_, fun hst hp => ?_, fun hst hp hf => ?_⟩
  · exact ⟨_, htrap _ (readChecks_poison hp (hflag.trans hf)), rfl, rfl, rfl, rfl⟩
  · exact ⟨_, htrap _ (readChecks_stale hst (by rwa [hflag])), rfl, rfl, rfl, rfl⟩
  · have hchecks := readChecks_live (w := w) (fa := va) hst (.inl hp)
    rw [hp] at hchecks
    obtain ⟨t, hrun, hstores⟩ := storePlaced_site h hmem (toBytes_length n (f (ofBytes ((x.places s va.toNat n).map (x.after s true).byteAt))))
    exact ⟨t, memAmo_clean ha hpair (placeParts_ok hpair hplace hremote hchecks) hrun, hstores⟩
  · have hchecks := readChecks_live (w := w) (fa := va) hst (.inr (hflag.trans hf))
    rw [Option.isSome_iff_ne_none.mpr hp] at hchecks
    obtain ⟨t, hrun, hstores⟩ := storePlaced_site h (u := { x.after s true with hart := (x.after s true).hart.countPoison }) hmem
      (toBytes_length n (f 0))
    exact ⟨t, memAmo_counted ha hpair (placeParts_ok hpair hplace hremote hchecks) hrun, hstores⟩

theorem memAmo_traps {s : State} {w : Who} {va : Word} {n : Nat} {f : Nat → Nat} (hn : 0 < n) (ha : va.toNat % n = 0)
    (hpair : s.pairOf (s.access s.hart) = none) {c : Nat}
    (h : (placeOne w (s.access s.hart) .store true true va va).run s = .error (.trap (memTrap w c va 0)) s) :
    trapsWith (memAmo w va n f) s s w va c 0 :=
  ⟨_, memAmo_error ha hpair (placeParts_placing (placeBytes_trap hn h)), rfl, rfl, rfl, rfl⟩

theorem atomicsOfMemory : AtomicsOfMemory := by
  refine ⟨fun x s w va n f hs h => atomicAt_site hs h w f, fun s w va n f hn ha => ⟨memTrap w 6 va 0, ?_, rfl, rfl, rfl, rfl⟩,
    fun s w va n f hn ha hb hl => memAmo_traps hn ha (pairOf_bare hb) (placeOne_outside hb hl w .store true true va),
    fun s w va n f hn ha hm hp hw h => memAmo_traps hn ha ?_ (placeOne_missing hm hp hw h w .store true true va)⟩
  · simp [memAmo, ha, fail_run]
  · rw [access_user hm]
    exact pairOf_user hp

/-! ## The instructions -/

/-- At package scope a release has nothing to wait for (R172, DESIGN CHOICE log 9). -/
theorem release_pkg_run (a : Agent) (s : State) : (release a .pkg).run s = .ok () s := rfl

theorem acquire_run (sc : Scope) (s : State) : (acquire sc).run s = .ok () s := rfl

theorem amoOp_run {op : AmoOp} {dbl aq rl : Bool} {rd rs1 rs2 : BitVec 5} {s t : State} {old : Nat}
    (h : (memAmo {} (s.hart.xr rs1) (amoBytes dbl) fun v => amoValue op (8 * amoBytes dbl) v (s.hart.xr rs2).toNat).run s = .ok old t) :
    (amoOp op dbl aq rl rd rs1 rs2).run s = .ok () { t with hart := t.hart.setX rd (sextN (8 * amoBytes dbl) old) } := by
  unfold amoOp
  cases rl <;> cases aq <;> simp [release_pkg_run, acquire_run, h]

theorem lrOp_run {dbl aq rl : Bool} {rd rs1 : BitVec 5} {s t : State} {v : Nat} {ps : List (Loc × Option Phys)}
    (h : (memRead {} (s.hart.xr rs1) (amoBytes dbl)).run s = .ok v t)
    (hp : (placeBytes {} (t.access t.hart) .load false false (s.hart.xr rs1) (s.hart.xr rs1) (amoBytes dbl)).run t = .ok ps t) :
    (lrOp dbl aq rl rd rs1).run s = .ok () { t with hart := ({ t.hart with
      reservation := ps.head?.map fun p => (p.1.resKey, amoBytes dbl) } : Hart).setX rd (sextN (8 * amoBytes dbl) v) } := by
  unfold lrOp
  cases rl <;> cases aq <;> simp [release_pkg_run, acquire_run, h, hp]

theorem amoBytes_pos (dbl : Bool) : 0 < amoBytes dbl := by cases dbl <;> decide

theorem head?_places (x : Site) (s : State) (va : Nat) {n : Nat} (hn : 0 < n) :
    ∃ p, (x.places s va n).head? = some p ∧ reservedKey (x.places s va n) = p.1.resKey := by
  cases hps : x.places s va n with
  | nil => exact absurd (places_length x s va n) (by rw [hps]; exact hn.ne)
  | cons p ps => exact ⟨p, rfl, rfl⟩

/-- A permitted read that completes leaves the marked leaf, and at most counts poison. -/
theorem memRead_ok_state {x : Site} {s t : State} {w : Who} {va : Word} {n v : Nat} (hs : s.memOk) (h : x.holds s va n false)
    (hr : (memRead w va n).run s = .ok v t) :
    t = x.after s false ∨ t = { x.after s false with hart := (x.after s false).hart.countPoison } := by
  obtain ⟨hpoison, hstale, hclean, hzero⟩ := (permittedAccesses x s w va n hs).1 h
  have htrap : ∀ c sub, ¬ trapsWith (memRead w va n) s (x.after s false) w va c sub := by
    rintro c sub ⟨e, he, -⟩
    rw [hr] at he
    cases he
  cases hst : staleIn (x.after s false) (x.places s va.toNat n) with
  | some sub =>
    cases hp : poisonIn (x.after s false) (x.places s va.toNat n) with
    | none => exact (htrap _ _ (hstale sub hst (.inl hp))).elim
    | some q =>
      cases hf : s.flag s.hart 2 with
      | true => exact (htrap _ _ (hpoison q hp hf)).elim
      | false => exact (htrap _ _ (hstale sub hst (.inr hf))).elim
  | none =>
    cases hp : poisonIn (x.after s false) (x.places s va.toNat n) with
    | none =>
      rw [hclean hst hp] at hr
      exact .inl (EStateM.Result.ok.inj hr).2.symm
    | some q =>
      cases hf : s.flag s.hart 2 with
      | true => exact (htrap _ _ (hpoison q hp hf)).elim
      | false =>
        rw [hzero hst (by rw [hp]; exact Option.some_ne_none q) hf] at hr
        exact .inr (EStateM.Result.ok.inj hr).2.symm

theorem covers_counted {x : Site} {s : State} {va : Word} {write : Bool} (h : covers x s va write) :
    covers x { s with hart := s.hart.countPoison } va write := by
  cases x with
  | bare => exact h
  | window win => exact h
  | page e a level =>
    obtain ⟨hm, hp, hc, hw, hroot, hwalk, hallow⟩ := h
    exact ⟨hm, hp, hc, hw, hroot, (walk_congr (s := s) rfl rfl ..).trans hwalk, hallow⟩

/-- Once a read has been made its bytes are placed again where they were, and nothing changes. -/
theorem placeBytes_again {x : Site} {s t : State} {va : Word} {n v : Nat} {w : Who} (hs : s.memOk) (h : x.holds s va n false)
    (hr : (memRead w va n).run s = .ok v t) (w' : Who) :
    (placeBytes w' (t.access t.hart) .load false false va va n).run t = .ok (x.places s va.toNat n) t := by
  have hmem := memOk_after hs x false
  have hcov := fun i hi => covers_byte (i := i) h hi
  have hplaces : (marked x false).places (x.after s false) va.toNat n = x.places s va.toNat n := by
    simp only [places_eq, placeAt_marked]
  rcases memRead_ok_state hs h hr with rfl | rfl
  · have := placeBytes_covers hmem h.1 (fun i hi => ⟨(hcov i hi).1, covers_marked hs (hcov i hi).2⟩) (kind := .load) (by decide) w' false va
    rwa [hplaces, after_marked hs] at this
  · have := placeBytes_covers (s := { x.after s false with hart := (x.after s false).hart.countPoison }) hmem h.1
      (fun i hi => ⟨(hcov i hi).1, covers_counted (covers_marked hs (hcov i hi).2)⟩) (kind := .load) (by decide) w' false va
    have hafter : (marked x false).after { x.after s false with hart := (x.after s false).hart.countPoison } false =
        { x.after s false with hart := (x.after s false).hart.countPoison } := by
      have hm := congrArg State.mem (after_marked (x := x) hs false)
      cases x with
      | bare => rfl
      | window win => rfl
      | page e a level => exact congrArg (fun m => { s with mem := m, hart := s.hart.countPoison }) hm
    have hsame : (marked x false).places { x.after s false with hart := (x.after s false).hart.countPoison } va.toNat n =
        (marked x false).places (x.after s false) va.toNat n := by cases x <;> rfl
    rwa [hafter, hsame, hplaces] at this

/-! ## SC -/

theorem scOp_order (dbl aq rl : Bool) (rd rs1 rs2 : BitVec 5) (s : State) :
    (scOp dbl aq rl rd rs1 rs2).run s = (scOp dbl false false rd rs1 rs2).run s := by
  cases rl <;> cases aq <;> rfl

section
variable {x : Site} {dbl aq rl : Bool} {rd rs1 rs2 : BitVec 5} {s : State} (hs : s.memOk) (h : x.holds s (s.hart.xr rs1) (amoBytes dbl) true)
include hs h

/-- SC where the reservation covers its bytes stores them and answers 0. -/
theorem scOp_covered {t : State} {k m : Nat} (hr : s.hart.reservation = some (k, m))
    (hlo : k ≤ reservedKey (x.places s (s.hart.xr rs1).toNat (amoBytes dbl)))
    (hhi : reservedKey (x.places s (s.hart.xr rs1).toNat (amoBytes dbl)) + amoBytes dbl ≤ k + m)
    (hstore : (storePlaced (x.places s (s.hart.xr rs1).toNat (amoBytes dbl)) (toBytes (amoBytes dbl) (s.hart.xr rs2).toNat)).run
      (x.after s true) = .ok () t) :
    (scOp dbl aq rl rd rs1 rs2).run s = .ok () { t with hart := ({ t.hart with reservation := none } : Hart).setX rd 0 } := by
  have ha := h.2.1
  obtain ⟨p, hhead, hkey⟩ := head?_places x s (s.hart.xr rs1).toNat (amoBytes_pos dbl)
  rw [hkey] at hlo hhi
  rw [scOp_order, scOp]
  simp [ha, placeBytes_site hs h (kind := .store) (by decide), checkRemote_site h, hr, hhead, hlo, hhi, hstore, boolW]

/-- SC without it stores nothing and answers 1. -/
theorem scOp_uncovered (hr : ∀ k m, s.hart.reservation = some (k, m) →
    ¬ (k ≤ reservedKey (x.places s (s.hart.xr rs1).toNat (amoBytes dbl)) ∧
      reservedKey (x.places s (s.hart.xr rs1).toNat (amoBytes dbl)) + amoBytes dbl ≤ k + m)) :
    (scOp dbl aq rl rd rs1 rs2).run s =
      .ok () { x.after s true with hart := ({ s.hart with reservation := none } : Hart).setX rd 1 } := by
  have ha := h.2.1
  obtain ⟨p, hhead, hkey⟩ := head?_places x s (s.hart.xr rs1).toNat (amoBytes_pos dbl)
  have hhart : (x.after s true).hart = s.hart := by cases x <;> rfl
  rw [scOp_order, scOp]
  cases hres : s.hart.reservation with
  | none => simp [ha, placeBytes_site hs h (kind := .store) (by decide), checkRemote_site h, hres, hhart, boolW]
  | some r =>
    obtain ⟨k, m⟩ := r
    have hno := hr k m hres
    rw [hkey] at hno
    have hshort : k ≤ p.1.resKey → ¬ p.1.resKey + amoBytes dbl ≤ k + m := fun hlo hhi => hno ⟨hlo, hhi⟩
    by_cases hlo : k ≤ p.1.resKey <;>
      simp [ha, placeBytes_site hs h (kind := .store) (by decide), checkRemote_site h, hres, hhead, hhart, hlo, hshort, boolW]
end

end Sys2Proof.Machine

open Sys2Proof Sys2Proof.Machine Sys2Proof.Claims

/-- Settles O16: the update, LR and SC rest on the placing of the bytes of a permitted access, which a second placing repeats. -/
theorem scalarAtomicsComplete : Obligations.ScalarAtomicsComplete := by
  refine ⟨atomicsOfMemory, fun op dbl aq rl rd rs1 rs2 half s old t h => exec_rv_ok ?_,
    fun x dbl aq rl rd rs1 half s v t hs hx h => exec_rv_ok ?_, fun x dbl aq rl rd rs1 rs2 half s hs hx => ⟨?_, fun hno => exec_rv_ok ?_⟩⟩
  · exact Op.bind_ok (Op.run_getH s) (Op.bind_ok (amoOp_run h) rfl)
  · obtain ⟨p, hhead, hkey⟩ := head?_places x s (s.hart.xr rs1).toNat (amoBytes_pos dbl)
    have hlr := lrOp_run (aq := aq) (rl := rl) (rd := rd) h (placeBytes_again hs hx h {})
    rw [hhead] at hlr
    rw [hkey]
    exact Op.bind_ok (Op.run_getH s) (Op.bind_ok hlr rfl)
  · rintro ⟨k, m, hr, hlo, hhi⟩
    obtain ⟨t, hrun, hstores⟩ := storePlaced_site hx (memOk_after hs x true) (toBytes_length (amoBytes dbl) (s.hart.xr rs2).toNat)
    exact ⟨t, hstores, exec_rv_ok (Op.bind_ok (Op.run_getH s) (Op.bind_ok (scOp_covered hs hx hr hlo hhi hrun) rfl))⟩
  · exact Op.bind_ok (Op.run_getH s) (Op.bind_ok (scOp_uncovered hs hx fun k m hr hc => hno ⟨k, m, hr, hc⟩) rfl)
end

section
/-!
SUPPORT. The element-wise instructions that nothing disturbs: each writes its active elements from VXI to nel() and runs to its end (R34,
R117, R121, R350).
-/

namespace Sys2Proof.Machine
open Sys2Proof.Claims

/-! ## What a completed run has written -/

/-- An element-wise lane writes the active elements from VXI up to nel(). -/
theorem acts_iff_commits {L : Lane} {s : State} (hL : L.whole = false ∧ L.writes = fun _ => true) (e : Nat) :
    L.acts s.hart e ↔ (Claims.reads s).commits L.pg s.hart.vxi (s.hart.nel - s.hart.vxi) e := by
  simp only [Lane.acts, VCtx.commits, hL.1, hL.2, Bool.false_eq_true, false_or, and_true]
  constructor
  · rintro ⟨hn, hv, hact⟩
    exact ⟨hv, by omega, hact⟩
  · rintro ⟨hv, hn, hact⟩
    exact ⟨by omega, hv, hact⟩

/-- A block into which a run commits begins in that run exactly when no element of it below VXI is active. -/
theorem commits_first_iff {x : VCtx} {pg : BitVec 3} {n e : Nat} (he : x.commits pg x.h.vxi n e) :
    (∃ i, x.commits pg x.h.vxi n i ∧ x.h.blk i = x.h.blk e ∧ x.h.firstInBlock pg i = true) ↔
      ∀ e', e' < x.h.vxi → x.h.blk e' = x.h.blk e → x.h.active pg e' = false := by
  constructor
  · rintro ⟨i, ⟨hle, -, -⟩, hblk, hfirst⟩ e' he' hblk'
    exact firstInBlock_iff.mp hfirst e' (by omega) (hblk'.trans hblk.symm)
  · intro hbelow
    classical
    have hex : ∃ i, x.commits pg x.h.vxi n i ∧ x.h.blk i = x.h.blk e := ⟨e, he, rfl⟩
    obtain ⟨⟨hle, hlt, hact⟩, hblk⟩ := Nat.find_spec hex
    refine ⟨Nat.find hex, ⟨hle, hlt, hact⟩, hblk, firstInBlock_iff.mpr fun i hi hib => ?_⟩
    by_cases hv : i < x.h.vxi
    · exact hbelow i hv (hib.trans hblk)
    · rw [← Bool.not_eq_true]
      exact fun hia => Nat.find_min hex hi ⟨⟨by omega, by omega, hia⟩, hib.trans hblk⟩

/-- The hart behind the commit of a lane's elements from VXI to nel(). -/
def committedLane (L : Lane) (s : State) : Hart :=
  commitFrom (Claims.reads s) L.pg L.vd.toNat L.eb L.res (s.hart.nel - s.hart.vxi) s.hart.vxi s.hart

/-- A state with the registers and flags of that hart, and its masks but for the group's other registers, holds what the lane writes. -/
theorem wrote_of_committed {L : Lane} {s u : State} (hL : L.whole = false ∧ L.writes = fun _ => true)
    (hv : u.hart.vregs = (committedLane L s).vregs) (hf : u.hart.vfflags = (committedLane L s).vfflags)
    (hm : ∀ v, v ≤ L.vd.toNat ∨ L.vd.toNat + s.hart.grp ≤ v → u.hart.masks.get v = (committedLane L s).masks.get v) : L.Wrote s u := by
  have hacts := acts_iff_commits (s := s) hL
  have hvalid : ∀ b, u.hart.valid L.vd.toNat b = (committedLane L s).valid L.vd.toNat b := fun b => by
    rw [Hart.valid, hm _ (.inl (Nat.le_refl _))]
    rfl
  simp only [Lane.Wrote, hacts, hvalid, hf, hL.1, Bool.false_eq_true, false_or]
  refine ⟨fun e he => ?elements, fun a ha => ?otherBytes, fun k => commitFrom_vfflags, fun b hb hno => ?otherBlocks,
    fun e he hb => ?blocks, fun v hout => ?otherMasks⟩
  case elements =>
    rw [Hart.elemAt_congr (h := committedLane L s) fun i _ => by rw [hv]]
    exact commitFrom_elemAt he
  case otherBytes =>
    rw [hv]
    exact commitFrom_vregs_out ha
  case otherBlocks =>
    rw [Bool.eq_iff_iff, committedLane, commitFrom_valid hb]
    constructor
    · rintro ⟨-, hval | ⟨i, hi, hib, -⟩⟩
      · exact hval
      · exact absurd hib (hno i hi)
    · exact fun hval => ⟨fun i hi hib => absurd hib (hno i hi), .inl hval⟩
  case blocks =>
    rw [committedLane, commitFrom_valid hb]
    exact and_congr_right' (or_congr_right (commits_first_iff (x := Claims.reads s) he))
  case otherMasks =>
    have hpos : 0 < s.hart.grp := Nat.two_pow_pos _
    have hne : v ≠ L.vd.toNat := by omega
    exact (hm v (hout.imp_left Nat.le_of_lt)).trans (commitFrom_masks_ne hne)

/-! ## The instruction as a whole -/

/-- The state in which a lane's instruction has joined its convoy. -/
def begun (L : Lane) (s : State) : State := { s with hart := joined L.unit L.c s.hart }

/-- The hart of a completed lane, with the masks `m`. -/
def laneDone (L : Lane) (s : State) (m : File 64) : Hart :=
  { joined L.unit L.c s.hart with
    vregs := (committedLane L (begun L s)).vregs, masks := m, vfflags := (committedLane L (begun L s)).vfflags, vxi := 0, skipped := []
    rotation := s.hart.rotation + 1 }

theorem vectorDone_committed {L : Lane} {s : State} (hst : s.hart.stopAt = none) (hunit : L.unit ≠ .pred) (m : File 64) :
    ({ committedLane L (begun L s) with masks := m } : Hart).vectorDone L.unit = laneDone L s m := by
  have heq : committedLane L (begun L s) = { joined L.unit L.c s.hart with
      vregs := (committedLane L (begun L s)).vregs, masks := (committedLane L (begun L s)).masks
      vfflags := (committedLane L (begun L s)).vfflags } := commitFrom_eq
  rw [heq]
  refine Hart.vectorDone_eq ?_ hunit
  exact hst

/-- Where its checks pass and nothing disturbs it, it commits its elements and moves on. -/
theorem computes_runs {L : Lane} {s : State} {x : Op Unit} (hx : Computes L s x) (hunit : L.unit ≠ .pred) (hp : L.passes s)
    (hu : undisturbed s.hart) : ∃ k m, dispatch x s = .next (Claims.onHart { s with freeCtr := k } (past (laneDone L s m))) ∧
      ∀ v, v ≤ L.vd.toNat ∨ L.vd.toNat + s.hart.grp ≤ v → m.get v = (committedLane L (begun L s)).masks.get v := by
  obtain ⟨-, suits, f, hrun, hsuits, hres⟩ := hx
  obtain ⟨hregs, hfits, -, hjoins⟩ := hp
  obtain ⟨k, m, hbody, hm⟩ := lanewiseBody_run L.pg L.vd L.eb f s.hart.nel (begun L s)
  rw [begun, hres] at hbody hm
  have hdone := vecRun_undisturbed (unit := L.unit) (step := 1) (pc := s.hart.pc) hbody (undisturbed_joined hu L.unit L.c)
  have hlane := (hrun.trans (congrArg (·.run s) (lanewise_eq ..))).trans
    (Op.bind_ok (vecChecks_passes ⟨hregs, hfits, hsuits, hjoins⟩) (Op.bind_ok (Op.run_getH (begun L s)) hdone))
  refine ⟨k, m, ?_, hm⟩
  rw [← vectorDone_committed hu.2 hunit]
  exact finish_ok (Op.bind_ok hlane rfl)

/-- An element-wise instruction whose checks pass and that nothing disturbs completes. -/
theorem computes_completes {L : Lane} {s : State} {x : Op Unit} (hx : Computes L s x) (hunit : L.unit ≠ .pred) (hp : L.passes s)
    (hu : undisturbed s.hart) : ∃ t, dispatch x s = .next t ∧ L.Left s t := by
  obtain ⟨k, m, hrun, hm⟩ := computes_runs hx hunit hp hu
  have hmasks : ∀ v, (past (laneDone L s m)).retire.masks.get v = m.get v := fun v => congrArg (·.get v) (Hart.retire_masks _)
  have hwrote : L.Wrote (begun L s) (Claims.onHart { s with freeCtr := k } (past (laneDone L s m))) :=
    wrote_of_committed hx.isElementwise (Hart.retire_vregs _) (Hart.retire_vfflags _) fun v hv => (hmasks v).trans (hm v hv)
  refine ⟨_, hrun, rfl, ?_, hwrote⟩
  simp only [Claims.onHart, State.retire, Hart.retire_vregs, Hart.retire_masks, Hart.retire_vfflags]
  rfl

theorem vintLane_unit {s : State} {i : Instr} {L : Lane} (h : vintLane s i = some L) : L.unit = .vint := by
  unfold vintLane at h
  split at h
  case h_21 => exact absurd h (by simp)
  all_goals
    cases h
    rfl

theorem vfltLane_unit {s : State} {i : Instr} {L : Lane} (h : vfltLane s i = some L) : L.unit = .vflt := by
  unfold vfltLane at h
  split at h
  case h_17 => exact absurd h (by simp)
  all_goals
    cases h
    rfl

end Sys2Proof.Machine

open Sys2Proof Sys2Proof.Machine Sys2Proof.Claims

/-- Settles O26: every VINT instruction is element-wise, and an element-wise one runs to its end. -/
theorem vintCompletes : Obligations.VintCompletes := by
  intro i s L h hp hu
  obtain ⟨x, hexec, hx⟩ := exec_vintLane h hp
  rw [hexec]
  exact computes_completes hx (by rw [vintLane_unit h]; decide) hp hu

/-- Settles O28: every VFLT instruction but VFSCL is element-wise, its element function that of its lane. -/
theorem vfltCompletes : Obligations.VfltCompletes := by
  intro i s L h hp hu
  obtain ⟨x, hexec, hx⟩ := exec_vfltLane h hp
  rw [hexec]
  exact computes_completes hx (by rw [vfltLane_unit h]; decide) hp hu
end

section
/-!
SUPPORT. The one rounding on values that the format holds: they are kept exactly, and packed into the pattern that encodes them (R112, R113,
R115).
-/

namespace Sys2Proof.Machine

/-! ## The finite patterns of a format -/

/-- The sign, exponent and fraction fields of a pattern (R112). -/
def signField (f : FloatFmt) (v : Nat) : Bool := decide (v / 2 ^ (f.fbits + f.ebits) % 2 = 1)
def expField (f : FloatFmt) (v : Nat) : Nat := v / 2 ^ f.fbits % 2 ^ f.ebits
def fracField (f : FloatFmt) (v : Nat) : Nat := v % 2 ^ f.fbits

/-- The largest exponent field of a finite pattern: all ones belongs to the finite numbers only where the format has no others (R113). -/
def expTop (f : FloatFmt) : Int := if f.finite then f.expMax else (f.expMax : Int) - 1

theorem fields_pack {f : FloatFmt} {v : Nat} (hv : v < 2 ^ f.width) :
    signBit f (signField f v) + (expField f v * 2 ^ f.fbits + fracField f v) = v := by
  have hsign : signBit f (signField f v) = v / 2 ^ (f.fbits + f.ebits) * 2 ^ (f.fbits + f.ebits) := by
    have hlt : v / 2 ^ (f.fbits + f.ebits) < 2 := by
      rw [Nat.div_lt_iff_lt_mul (Nat.two_pow_pos _), ← Nat.pow_succ']
      rwa [show f.width = (f.fbits + f.ebits).succ by unfold FloatFmt.width; omega] at hv
    rw [signBit, signField]
    generalize v / 2 ^ (f.fbits + f.ebits) = b at hlt ⊢
    interval_cases b <;> simp
  have hlow : v % 2 ^ (f.fbits + f.ebits) = expField f v * 2 ^ f.fbits + fracField f v := by
    rw [Nat.pow_add, Nat.mod_mul, expField, fracField, Nat.mul_comm, Nat.add_comm]
  rw [hsign, ← hlow, Nat.div_add_mod']

theorem decodeF_eq (f : FloatFmt) (v : Nat) : decodeF f v =
    if expField f v = 0 then .fin (signField f v) (fracField f v) (f.emin - f.fbits)
    else if expField f v = f.expMax ∧ !f.finite then
      (if fracField f v = 0 then .inf (signField f v) else .nan (fracField f v < 2 ^ (f.fbits - 1)))
    else .fin (signField f v) (2 ^ f.fbits + fracField f v) ((expField f v : Int) - f.bias - f.fbits) := rfl

/-- A finite value is subnormal (or zero), with the exponent of the smallest normal, or normal, with the leading one. -/
theorem decodeF_fin {f : FloatFmt} {v m : Nat} {neg : Bool} {e : Int} (h : decodeF f v = .fin neg m e) : neg = signField f v ∧
    (expField f v = 0 ∧ m = fracField f v ∧ e = f.emin - f.fbits ∨
      0 < expField f v ∧ (expField f v : Int) ≤ expTop f ∧ m = 2 ^ f.fbits + fracField f v ∧
        e = (expField f v : Int) - f.bias - f.fbits) := by
  have hmax : expField f v ≤ f.expMax := Nat.le_sub_one_of_lt (Nat.mod_lt _ (Nat.two_pow_pos _))
  rw [decodeF_eq] at h
  split at h
  next hzero =>
    obtain ⟨rfl, rfl, rfl⟩ := Fx.fin.inj h
    exact ⟨rfl, .inl ⟨hzero, rfl, rfl⟩⟩
  next hpos =>
    split at h
    next => split at h <;> cases h
    next htop =>
      obtain ⟨rfl, rfl, rfl⟩ := Fx.fin.inj h
      refine ⟨rfl, .inr ⟨Nat.pos_of_ne_zero hpos, ?_, rfl, rfl⟩⟩
      unfold expTop
      cases hf : f.finite
      · have hne : expField f v ≠ f.expMax := fun heq => htop ⟨heq, by simp [hf]⟩
        simp only [Bool.false_eq_true, if_false]
        omega
      · simp only [if_true]
        omega

/-! ## Rounding -/

theorem roundAt_self (rm : Rm) (neg : Bool) (m : Nat) (e : Int) : roundAt rm neg m e e = (m, false) := by
  simp [roundAt]

/-- The exponent field of the value `m` · 2^`e` where it is kept: 0 without the leading one. -/
def roundedExp (f : FloatFmt) (m : Nat) (e : Int) : Int := if m < 2 ^ f.fbits then 0 else e + f.fbits + f.bias

/-- A value that is a multiple of its own last place within the format's range is kept, without a flag. -/
theorem roundFinite_exact {f : FloatFmt} (rm : Rm) (neg : Bool) {m : Nat} {e : Int}
    (hplace : max (e + (Nat.log2 m : Int)) f.emin - f.fbits = e) (hm : m < 2 ^ (f.fbits + 1)) (htop : roundedExp f m e ≤ expTop f) :
    roundFinite f rm neg m e = (signBit f neg + (if roundedExp f m e ≤ 0 then m
      else (roundedExp f m e).toNat * 2 ^ f.fbits + (m - 2 ^ f.fbits)), 0) := by
  have hkept : ¬ 2 ^ (f.fbits + 1) ≤ m := Nat.not_le_of_lt hm
  have hin : ¬ expTop f < roundedExp f m e := Int.not_lt.mpr htop
  unfold expTop roundedExp at hin
  simp only [roundFinite, hplace, roundAt_self, ge_iff_le, if_neg hkept, if_neg hin]
  rfl

section
variable {f : FloatFmt} (rm : Rm) (neg : Bool)

/-- A subnormal value is packed as its multiple of the smallest one. -/
theorem roundFinite_subnormal {m : Nat} (hf : 0 < f.ebits) (hpos : m ≠ 0) (hm : m < 2 ^ f.fbits) :
    roundFinite f rm neg m (f.emin - f.fbits) = (signBit f neg + m, 0) := by
  have hlog : Nat.log2 m < f.fbits := (Nat.log2_lt hpos).mpr hm
  have hexp : roundedExp f m (f.emin - f.fbits) = 0 := if_pos hm
  have hones : 1 ≤ f.expMax := Nat.le_sub_of_add_le (Nat.pow_le_pow_right (n := 2) (by decide) hf)
  have htop : 0 ≤ expTop f := by
    unfold expTop
    split <;> omega
  rw [roundFinite_exact rm neg (by omega) (by rw [Nat.pow_succ]; omega) (hexp.symm ▸ htop), hexp]
  rfl

/-- A normal value is packed as its exponent and its fraction. -/
theorem roundFinite_normal {x r : Nat} (hx : 0 < x) (htop : (x : Int) ≤ expTop f) (hr : r < 2 ^ f.fbits) :
    roundFinite f rm neg (2 ^ f.fbits + r) ((x : Int) - f.bias - f.fbits) = (signBit f neg + (x * 2 ^ f.fbits + r), 0) := by
  have hlog : Nat.log2 (2 ^ f.fbits + r) = f.fbits :=
    (Nat.log2_eq_iff (by have := Nat.two_pow_pos f.fbits; omega)).mpr ⟨by omega, by rw [Nat.pow_succ]; omega⟩
  have hexp : roundedExp f (2 ^ f.fbits + r) ((x : Int) - f.bias - f.fbits) = x := by
    rw [roundedExp, if_neg (by omega)]
    omega
  have hemin : f.emin = 1 - (f.bias : Int) := rfl
  rw [roundFinite_exact rm neg (by rw [hlog]; omega) (by rw [Nat.pow_succ]; omega) (hexp.symm ▸ htop), hexp, if_neg (by omega),
    Int.toNat_natCast, Nat.add_sub_cancel_left]

/-- Zero keeps its sign; any other finite value goes through the one rounding, in a mode of the format's own (R116). -/
theorem roundFx_fin (m : Nat) (e : Int) : roundFx f rm (.fin neg m e) =
    if m = 0 then (signBit f neg, 0) else roundFinite f (if f.finite then .rne else rm) neg m e := by
  unfold roundFx
  cases f.finite <;> rfl
end

/-- In every format with an exponent field, the value of a finite pattern rounds to the pattern. -/
theorem roundFx_decodeF {f : FloatFmt} (hf : 0 < f.ebits) (rm : Rm) {v m : Nat} {neg : Bool} {e : Int} (hv : v < 2 ^ f.width)
    (h : decodeF f v = .fin neg m e) : roundFx f rm (.fin neg m e) = (v, 0) := by
  have hfrac : fracField f v < 2 ^ f.fbits := Nat.mod_lt _ (Nat.two_pow_pos _)
  have hpack := fields_pack hv
  rw [roundFx_fin]
  obtain ⟨rfl, ⟨hzero, rfl, rfl⟩ | ⟨hpos, htop, rfl, rfl⟩⟩ := decodeF_fin h
  · rw [hzero, Nat.zero_mul, Nat.zero_add] at hpack
    split
    next h0 =>
      rw [h0, Nat.add_zero] at hpack
      rw [hpack]
    next h0 => rw [roundFinite_subnormal _ _ hf h0 hfrac, hpack]
  · rw [if_neg (by have := Nat.two_pow_pos f.fbits; omega), roundFinite_normal _ _ hpos htop hfrac, hpack]

end Sys2Proof.Machine

open Sys2Proof Sys2Proof.Machine Sys2Proof.Claims

/-- Settles O18: each of the formats has an exponent field, which is all that the general fact needs. -/
theorem representableValuesRoundToThemselves : Obligations.RepresentableValuesRoundToThemselves := by
  intro f hf rm v neg m e hv h
  have hexp : ∀ g ∈ [Fmt.f8, Fmt.bf16, Fmt.f16, Fmt.f32, Fmt.a40, Fmt.f64], 0 < g.ebits := by decide
  exact roundFx_decodeF (hexp f hf) rm hv h
end

section
/-!
SUPPORT. Device reset (R130): the harts that nothing has touched yet.
-/

namespace Sys2Proof.Machine

/-- After reset a hart that nothing has touched differs from the running one in its status and its cycle count at most (R130). -/
theorem hartOf_reset (id : Nat) : ∃ st c, State.reset.hartOf id = { Hart.reset id with status := st, mcycle := c } := by
  unfold State.hartOf
  split
  next h =>
    have hid : id = 0 := h.symm
    exact ⟨.running, 0, by rw [hid]; rfl⟩
  next => exact ⟨.free, _, rfl⟩

end Sys2Proof.Machine

open Sys2Proof Sys2Proof.Machine Sys2Proof.Claims

/-- Settles O1: every hart is one that reset has left, and no queue has been written. -/
theorem resetLeavesTheGivenValues : Obligations.ResetLeavesTheGivenValues := by
  refine ⟨fun id => ?_, rfl, rfl, rfl, rfl, fun q => ⟨rfl, rfl, rfl⟩⟩
  obtain ⟨st, c, h⟩ := hartOf_reset id
  rw [h]
  exact ⟨rfl, rfl, rfl, rfl, rfl, rfl, rfl, rfl, rfl, rfl, rfl⟩
end

section
/-!
SUPPORT. The scratchpads: tables whose values change in place, the blocks that an operation on one scratchpad leaves, and the
instructions on a range of blocks and on one block (R134, R140 to R142, R341 to R343).
-/

namespace Sys2Proof.Machine
open Sys2Proof.Claims

/-! ## Tables of blocks -/

section
variable {α : Type}

theorem Tab.get?_mapValues (f : Nat → α → α) (t : Tab α) (i : Nat) :
    Tab.get? (t.map fun p => (p.1, f p.1 p.2)) i = (t.get? i).map (f i) := by
  induction t with
  | nil => rfl
  | cons p t ih =>
    simp only [List.map_cons, Tab.get?, ih]
    split
    next h => rw [h]; rfl
    next => split <;> rfl

theorem Tab.sorted_mapValues (f : Nat → α → α) (t : Tab α) : Tab.sorted (t.map fun p => (p.1, f p.1 p.2)) = t.sorted := by
  induction t with
  | nil => rfl
  | cons p t ih =>
    cases t with
    | nil => rfl
    | cons q t => exact congrArg (decide (p.1 < q.1) && ·) ih

theorem Tab.sorted_tail {p : Nat × α} {t : Tab α} (h : Tab.sorted (p :: t) = true) : t.sorted = true := by
  cases t with
  | nil => rfl
  | cons q t => exact (Bool.and_eq_true_iff.mp h).2

theorem Tab.get?_le_first {p : Nat × α} {t : Tab α} (h : Tab.sorted (p :: t) = true) {i : Nat} (hi : i ≤ p.1) : t.get? i = none := by
  cases t with
  | nil => rfl
  | cons q t =>
    have hlt : p.1 < q.1 := of_decide_eq_true (Bool.and_eq_true_iff.mp h).1
    rw [Tab.get?, if_neg (by omega), if_pos (by omega)]

/-- In a table that is in order an entry that is filtered out is gone: none of its key stands behind it. -/
theorem Tab.get?_filterValues (keep : α → Bool) (i : Nat) : ∀ {t : Tab α}, t.sorted = true →
    Tab.get? (t.filter fun p => keep p.2) i = (t.get? i).filter keep
  | [], _ => rfl
  | (k, a) :: t, h => by
    have ih := get?_filterValues keep i (sorted_tail h)
    by_cases ha : keep a = true
    · rw [List.filter_cons_of_pos (p := fun p => keep p.2) (a := (k, a)) ha, Tab.get?, Tab.get?, ih]
      split
      next => rw [Option.filter_some_pos ha]
      next => split <;> rfl
    · rw [List.filter_cons_of_neg (p := fun p => keep p.2) (a := (k, a)) ha, ih, Tab.get?]
      split
      next hi => rw [get?_le_first h (Nat.le_of_eq hi), Option.filter_some_neg (Bool.eq_false_iff.mpr ha)]; rfl
      next => split
              next hi => rw [get?_le_first h (Nat.le_of_lt hi)]
              next => rfl
end

/-- The block of a table, unwritten where nothing is listed. -/
def blockIn (t : Tab Block) (i : Nat) : Block := (t.get? i).getD .unwritten

/-- Freeing a range of blocks makes each of them unwritten and leaves every other block (R140). -/
theorem freeBlocks_block {t : Tab Block} (ht : t.sorted = true) (b n i : Nat) :
    blockIn (freeBlocks b n t) i = if b ≤ i ∧ i < b + n then (blockIn t i).freed else blockIn t i := by
  let f (i : Nat) (k : Block) : Block := if b ≤ i && i < b + n then k.freed else k
  have hget : (freeBlocks b n t).get? i = ((t.get? i).map (f i)).filter fun k => decide (k ≠ .unwritten) := by
    rw [← Tab.get?_mapValues]
    exact Tab.get?_filterValues (fun k => decide (k ≠ .unwritten)) i ((Tab.sorted_mapValues f t).trans ht)
  have hgetD : ∀ o : Option Block, (o.filter fun k => decide (k ≠ .unwritten)).getD .unwritten = o.getD .unwritten := by
    intro o
    cases o with
    | none => rfl
    | some k => by_cases hk : k = .unwritten <;> simp [Option.filter, hk]
  rw [blockIn, hget, hgetD, blockIn]
  by_cases hi : b ≤ i ∧ i < b + n
  · rw [if_pos hi]
    cases t.get? i with
    | none => rfl
    | some k => exact if_pos (by simpa using hi)
  · rw [if_neg hi]
    cases t.get? i with
    | none => rfl
    | some k => exact if_neg (by simpa using hi)

/-! ## An operation on one scratchpad -/

/-- The blocks of the scratchpad that holds a byte. -/
def State.pad (s : State) : Loc → Tab Block
  | .mem _ => []
  | .core h _ => (s.hartOf h).pool
  | .cluster c _ => (s.cluster c).spad

theorem State.blockAt_pad (s : State) (l : Loc) : blockAt s l = blockIn (s.pad l) (l.offset / 256) := by
  cases l <;> rfl

theorem State.pad_move (s : State) (l : Loc) (o : Nat) : s.pad (l.move o) = s.pad l := by
  cases l <;> rfl

theorem State.pad_sorted {s : State} (h : padsSorted s) (l : Loc) : (s.pad l).sorted = true := by
  cases l with
  | mem k => rfl
  | core i b => exact h.1 i
  | cluster c b => exact h.2 c

section
variable (s : State) (f : Tab Block → Tab Block)

theorem State.hartOf_setPool (i : Nat) (p : Tab Block) (j : Nat) :
    (s.setHart { s.hartOf i with pool := p }).hartOf j = if j = i then { s.hartOf i with pool := p } else s.hartOf j := by
  have hid : ({ s.hartOf i with pool := p } : Hart).id = i := s.hartOf_id i
  by_cases hj : j = i
  · subst hj
    have h := s.hartOf_setHart { s.hartOf j with pool := p }
    rw [hid] at h
    rw [if_pos rfl, h]
  · rw [if_neg hj, State.hartOf_setHart_ne (hid.symm ▸ hj)]

theorem State.modScratch_frame (l : Loc) : storeFrame s (s.modScratch l f) := by
  cases l with
  | mem k => exact .refl s
  | core i b => exact State.setHart_pool_frame ..
  | cluster c b => exact ⟨rfl, rfl⟩

theorem State.pad_modScratch_self {l : Loc} (hl : f [] = []) (o : Nat) : (s.modScratch l f).pad (l.move o) = f (s.pad l) := by
  cases l with
  | mem k => exact hl.symm
  | core i b => simp [State.modScratch, State.pad, Loc.move, State.hartOf_setPool]
  | cluster c b => simp [State.modScratch, State.pad, Loc.move]

theorem State.block_modScratch_other {l l' : Loc} (h : ∀ o, l' ≠ l.move o) : (s.modScratch l f).block l' = s.block l' := by
  cases l with
  | mem k => rfl
  | core i b =>
    cases l' with
    | mem k => rfl
    | cluster c o => simp [State.modScratch, State.block, State.setHart_cluster]
    | core j o =>
      have hj : j ≠ i := fun e => h o (by rw [e]; rfl)
      simp [State.modScratch, State.block, State.hartOf_setPool, hj]
  | cluster c b =>
    cases l' with
    | mem k => rfl
    | core j o => rfl
    | cluster d o =>
      have hd : d ≠ c := fun e => h o (by rw [e]; rfl)
      simp [State.modScratch, State.block, State.setCluster_ne _ _ _ _ hd]

/-- The blocks of all scratchpads stay when the present hart changes outside its pool. -/
theorem State.block_withHart {h : Hart} (hid : h.id = s.hart.id) (hpool : h.pool = s.hart.pool) (l : Loc) :
    ({ s with hart := h } : State).block l = s.block l := by
  cases l with
  | mem k => rfl
  | cluster c o => rfl
  | core i o =>
    have hp : (({ s with hart := h } : State).hartOf i).pool = (s.hartOf i).pool := by
      unfold State.hartOf
      rw [show ({ s with hart := h } : State).hart.id = s.hart.id from hid]
      split
      · exact hpool
      · rfl
    simp only [State.block, hp]
end

/-! ## The checks of a range (R140) -/

theorem advance_past (s : State) : (advance 4).run s = .ok () { s with hart := past s.hart } := rfl

theorem breakRange_mapHarts (key n : Nat) (s : State) :
    ∃ f, reservationOnly f ∧ (breakRange key n).run s = .ok () (s.mapHarts f) := by
  refine ⟨_, fun h => ?_, rfl⟩
  split
  · split <;> rfl
  · rfl

section
variable {rs1 rs2 : BitVec 5} {s : State} (k : Loc → Nat → Op Unit)

theorem scratchRange_none (hn : (s.hart.xr rs2).toNat = 0) :
    (scratchRange rs1 rs2 k).run s = .ok () { s with hart := past s.hart } := by
  simp [scratchRange, hn, past]

variable (hn : (s.hart.xr rs2).toNat ≠ 0)
include hn

theorem scratchRange_misaligned (h : (s.hart.xr rs1).toNat % 256 ≠ 0 ∨ (s.hart.xr rs2).toNat % 256 ≠ 0) :
    (scratchRange rs1 rs2 k).run s = .error (.trap { cause := 6, addr := some (s.hart.xr rs1) }) s := by
  simp [scratchRange, hn, h, fail]

variable (ha : (s.hart.xr rs1).toNat % 256 = 0) (hm : (s.hart.xr rs2).toNat % 256 = 0)
include ha hm

theorem scratchRange_outside {bad : Nat} (hw : s.windowRange s.hart (s.hart.xr rs1).toNat (s.hart.xr rs2).toNat = .inr bad) :
    (scratchRange rs1 rs2 k).run s = .error (.trap { cause := 7, addr := some (BitVec.ofNat 64 bad) }) s := by
  simp [scratchRange, hn, ha, hm, hw, fail]

theorem scratchRange_inside {w : Window} (hw : s.windowRange s.hart (s.hart.xr rs1).toNat (s.hart.xr rs2).toNat = .inl w) :
    (scratchRange rs1 rs2 k).run s = (do k (w.loc (s.hart.xr rs1).toNat) (s.hart.xr rs2).toNat; advance 4 : Op Unit).run s := by
  simp [scratchRange, hn, ha, hm, hw]
end

/-! ## SPALLOC and SPFREE -/

/-- The state in which a range of blocks is unwritten and the reservations that `f` breaks have ended. -/
def rangeFreed (l : Loc) (n : Nat) (f : Hart → Hart) (s : State) : State :=
  (s.modScratch l (freeBlocks (l.offset / 256) (n / 256))).mapHarts f

theorem freeRange_run (l : Loc) (n : Nat) (s : State) :
    ∃ f, reservationOnly f ∧ (freeRange l n).run s = .ok () (rangeFreed l n f s) := by
  obtain ⟨f, hf, hrun⟩ := breakRange_mapHarts l.resKey n (s.modScratch l (freeBlocks (l.offset / 256) (n / 256)))
  exact ⟨f, hf, Op.bind_ok (Op.run_modify _ s) hrun⟩

section
variable {l : Loc} {n : Nat} {f : Hart → Hart} (hf : reservationOnly f) (s : State)
include hf

theorem rangeFreed_hart : (rangeFreed l n f s).hart = { s.hart with
    pool := (s.modScratch l (freeBlocks (l.offset / 256) (n / 256))).hart.pool, reservation := (rangeFreed l n f s).hart.reservation } := by
  obtain ⟨-, hhart⟩ := s.modScratch_frame (freeBlocks (l.offset / 256) (n / 256)) l
  exact (hf _).trans (congrArg (fun h : Hart => { h with reservation := (rangeFreed l n f s).hart.reservation }) hhart)

theorem rangeFreed_block_inside (hs : padsSorted s) {o : Nat} (hlo : l.offset / 256 ≤ o / 256)
    (hhi : o / 256 < l.offset / 256 + n / 256) : blockAt (rangeFreed l n f s) (l.move o) = (blockAt s (l.move o)).freed := by
  have hoff : (l.move o).offset = o := by cases l <;> rfl
  rw [blockAt, rangeFreed, mapHarts_blockAt hf, ← blockAt, State.blockAt_pad, State.pad_modScratch_self _ _ rfl,
    State.blockAt_pad, State.pad_move, hoff, freeBlocks_block (State.pad_sorted hs l), if_pos ⟨hlo, hhi⟩]

theorem rangeFreed_block_outside (hs : padsSorted s) {l' : Loc}
    (h : (∀ o, l' ≠ l.move o) ∨ l'.offset / 256 < l.offset / 256 ∨ l.offset / 256 + n / 256 ≤ l'.offset / 256) :
    (rangeFreed l n f s).block l' = s.block l' := by
  rw [rangeFreed, mapHarts_blockAt hf]
  by_cases hown : ∀ o, l' ≠ l.move o
  · exact State.block_modScratch_other s _ hown
  · obtain ⟨o, rfl⟩ : ∃ o, l' = l.move o := by simpa using hown
    have hoff : (l.move o).offset = o := by cases l <;> rfl
    rw [hoff] at h
    have hout : ¬ (l.offset / 256 ≤ o / 256 ∧ o / 256 < l.offset / 256 + n / 256) := by
      have := h.resolve_left hown
      omega
    have hat : blockAt (s.modScratch l (freeBlocks (l.offset / 256) (n / 256))) (l.move o) = blockAt s (l.move o) := by
      rw [State.blockAt_pad, State.pad_modScratch_self _ _ rfl, State.blockAt_pad, State.pad_move, hoff,
        freeBlocks_block (State.pad_sorted hs l), if_neg hout]
    cases l with
    | mem k => rfl
    | core i b => exact congrArg some hat
    | cluster c b => exact congrArg some hat
end

theorem exec_spalloc_or_spfree {i : Instr} {rs1 rs2 : BitVec 5} (hi : i = .spalloc rs1 rs2 ∨ i = .spfree rs1 rs2) (s : State) :
    exec i s = finish (scratchRange rs1 rs2 freeRange) s := by
  rcases hi with rfl | rfl <;> rfl

/-- SPALLOC and SPFREE on a range within a window free its blocks, and move on. -/
theorem spalloc_frees {i : Instr} {rs1 rs2 : BitVec 5} {s : State} {w : Window} (hi : i = .spalloc rs1 rs2 ∨ i = .spfree rs1 rs2)
    (hn : (s.hart.xr rs2).toNat ≠ 0) (ha : (s.hart.xr rs1).toNat % 256 = 0) (hm : (s.hart.xr rs2).toNat % 256 = 0)
    (hw : s.windowRange s.hart (s.hart.xr rs1).toNat (s.hart.xr rs2).toNat = .inl w) :
    let u f := rangeFreed (w.loc (s.hart.xr rs1).toNat) (s.hart.xr rs2).toNat f s
    ∃ f, reservationOnly f ∧ exec i s = .next (Claims.onHart (u f) (past (u f).hart)) := by
  obtain ⟨f, hf, hrun⟩ := freeRange_run (w.loc (s.hart.xr rs1).toNat) (s.hart.xr rs2).toNat s
  refine ⟨f, hf, ?_⟩
  rw [exec_spalloc_or_spfree hi]
  exact finish_ok ((scratchRange_inside _ hn ha hm hw).trans (Op.bind_ok hrun (advance_past _)))

theorem block_onHart_past (s : State) (l : Loc) : (Claims.onHart s (past s.hart)).block l = s.block l := by
  have hid : (past s.hart).retire.id = s.hart.id := by
    rw [Hart.retire_eq]
    rfl
  exact State.block_withHart s hid (Hart.retire_pool _) l

/-! ## A range that the checks stop -/

/-- A range instruction whose checks do not end in a wait answers as `finish` and `finishWaiting` both do. -/
theorem exec_range {i : Instr} {rs1 rs2 : BitVec 5} (hi : i = .spalloc rs1 rs2 ∨ i = .spfree rs1 rs2 ∨ i = .renew rs1 rs2) (s : State) :
    ∃ k, (∀ t, (scratchRange rs1 rs2 k).run s = .ok () t → exec i s = .next t.retire) ∧
      ∀ e t, (scratchRange rs1 rs2 k).run s = .error (.trap e) t → exec i s = .next (deliver e t) := by
  rcases hi with rfl | rfl | rfl
  · exact ⟨freeRange, fun _ h => finish_ok h, fun _ _ h => finish_trap h⟩
  · exact ⟨freeRange, fun _ h => finish_ok h, fun _ _ h => finish_trap h⟩
  · exact ⟨renewQueue, fun _ h => finishWaiting_ok h, fun _ _ h => finishWaiting_trap h⟩

/-! ## RENEW -/

theorem waitFor_holds {p : Prop} [Decidable p] (h : p) (s : State) : (waitFor (decide p)).run s = .ok () s := by
  rw [decide_eq_true h, Op.run_waitFor_true]

theorem waitFor_fails {p : Prop} [Decidable p] (h : ¬ p) (s : State) : (waitFor (decide p)).run s = .error .wait s := by
  rw [decide_eq_false h, Op.run_waitFor_false]

theorem renewQueue_core {id b n : Nat} {s : State} (h : s.hart.renewQ.length < 8) :
    (renewQueue (.core id b) n).run s = .ok () { s with hart := { s.hart with
      renewQ := s.hart.renewQ ++ [{ blocks := liveBlocks s.time (b / 256) (n / 256) s.hart.pool, since := s.time }] } } :=
  Op.bind_ok (Op.run_get s) (Op.bind_ok (waitFor_holds h s) (Op.run_modH _ s))

theorem renewQueue_cluster {c b n : Nat} {s : State} (h : (s.cluster c).renewQ.length < 8) :
    (renewQueue (.cluster c b) n).run s = .ok () (s.setCluster c { s.cluster c with
      renewQ := (s.cluster c).renewQ ++ [{ blocks := liveBlocks s.time (b / 256) (n / 256) (s.cluster c).spad, since := s.time }] }) :=
  Op.bind_ok (Op.run_get s) (Op.bind_ok (waitFor_holds h s) (Op.run_modify _ s))

theorem renewQueue_waits {l : Loc} {n : Nat} {s : State}
    (h : (∃ id b, l = .core id b ∧ 8 ≤ s.hart.renewQ.length) ∨ ∃ c b, l = .cluster c b ∧ 8 ≤ (s.cluster c).renewQ.length) :
    (renewQueue l n).run s = .error .wait s := by
  rcases h with ⟨id, b, rfl, h⟩ | ⟨c, b, rfl, h⟩
  · exact Op.bind_ok (Op.run_get s) (Op.bind_error (waitFor_fails (Nat.not_lt.mpr h) s))
  · exact Op.bind_ok (Op.run_get s) (Op.bind_error (waitFor_fails (Nat.not_lt.mpr h) s))

theorem finishWaiting_waits {x : Op Unit} {s : State} (h : x.run s = .error .wait s) :
    (s.hart.requestPending = false → finishWaiting x s = .next s) ∧
    (s.hart.requestPending = true → finishWaiting x s = .next (preempt true false s.hart.pc 0 s)) :=
  ⟨finishWaiting_wait h, fun hr => by simp [finishWaiting, h, hr]⟩

/-! ## SPAGE -/

theorem spageOp_inside {rd rs1 : BitVec 5} {s : State} {w : Window} (hw : s.windowOf s.hart (s.hart.xr rs1).toNat = some w) :
    (spageOp rd rs1).run s = .ok () { s with hart := past (s.hart.setX rd
      (spageValue (blockAt s (w.loc (s.hart.xr rs1).toNat)) s.time)) } := by
  simp [spageOp, hw, past, blockAt]

theorem spageOp_outside {rd rs1 : BitVec 5} {s : State} (hw : s.windowOf s.hart (s.hart.xr rs1).toNat = none) :
    (spageOp rd rs1).run s = .error (.trap { cause := 5, addr := some (s.hart.xr rs1) }) s := by
  simp [spageOp, hw, fail]

end Sys2Proof.Machine

open Sys2Proof Sys2Proof.Machine Sys2Proof.Claims

/-- Settles O39: each instruction by the checks of its range and what it does with the one scratchpad that holds it. -/
theorem scratchpadInstructionsComplete : Obligations.ScratchpadInstructionsComplete := by
  refine ⟨?frees, ?stopped, ?renew, ?age, fun rd rs1 s hw => finish_trap (spageOp_outside hw)⟩
  case frees =>
    intro i rs1 rs2 s w hi hs a n hn ha hm hw
    obtain ⟨f, hf, hexec⟩ := spalloc_frees hi hn ha hm hw
    have hhart := rangeFreed_hart (l := w.loc a) (n := n) hf s
    have hmove : ∀ o, w.first.move o = (w.loc a).move o := fun o => by
      rw [Window.loc]
      cases w.first <;> rfl
    refine ⟨_, hexec, State.modScratch_mem .., ?_, ?_, ?_, fun o hlo hhi => ?_, fun l hl => ?_⟩
    · rw [Claims.onHart, State.retire, Hart.retire_eq, hhart]
      rfl
    · rw [Claims.onHart, State.retire, Hart.retire_eq, hhart]
      rfl
    · rw [Claims.onHart, State.retire, Hart.retire_eq, hhart]
      rfl
    · rw [blockAt, block_onHart_past, hmove]
      exact rangeFreed_block_inside hf s hs hlo hhi
    · rw [block_onHart_past]
      exact rangeFreed_block_outside hf s hs (by simpa only [hmove] using hl)
  case stopped =>
    intro i rs1 rs2 s hi
    obtain ⟨k, hok, htrap⟩ := exec_range hi s
    exact ⟨fun hn => hok _ (scratchRange_none k hn), fun hn h => htrap _ _ (scratchRange_misaligned k hn h),
      fun bad hn ha hm hw => htrap _ _ (scratchRange_outside k hn ha hm hw)⟩
  case renew =>
    intro rs1 rs2 s w a n hn ha hm hw
    have hrun := scratchRange_inside renewQueue hn ha hm hw
    refine ⟨fun id b hl hq => ?_, fun c b hl hq => ?_, fun h => finishWaiting_waits (hrun.trans (Op.bind_error (renewQueue_waits h)))⟩
    · rw [hl] at hrun
      exact finishWaiting_ok (hrun.trans (Op.bind_ok (renewQueue_core hq) (advance_past _)))
    · rw [hl] at hrun
      exact finishWaiting_ok (hrun.trans (Op.bind_ok (renewQueue_cluster hq) (advance_past _)))
  case age =>
    intro rd rs1 s w hw
    exact finish_ok (spageOp_inside hw)
end

section
/-!
SUPPORT. On-chip retention and poison: the sweeper, the renewals, the record of a poisoned sector, and the quarantine of a frame in the
tables of every queue in use (R138, R141, R143, R196, R197, R224).
-/

namespace Sys2Proof.Machine
open Sys2Proof.Claims

/-! ## The sweeper (R138, R143) -/

def sweptBlocks (time block : Nat) (t : Tab Block) : Tab Block := t.map fun p => (p.1, if p.1 = block then p.2.swept time else p.2)

theorem exec_sweeperVisit (core : Bool) (owner block : Nat) (s : State) :
    exec (.sweeperVisit core owner block) s = .next (s.modScratch (scratchAt core owner) (sweptBlocks s.time block)) := rfl

theorem sweptBlocks_get? (time block : Nat) (t : Tab Block) (i : Nat) : (sweptBlocks time block t).get? i =
    (t.get? i).map fun b => if i = block ∧ b.live = true ∧ 256 ≤ b.age time then { b with expired := true } else b := by
  refine (Tab.get?_mapValues (fun i b => if i = block then b.swept time else b) t i).trans ?_
  congr 1
  funext b
  by_cases hi : i = block <;> simp [hi, Block.swept]

/-! ## Renewals (R141, R224) -/

def renewedBlocks (time : Nat) (blocks : List Nat) (t : Tab Block) : Tab Block :=
  t.map fun p => (p.1, if blocks.contains p.1 then p.2.renewed time else p.2)

theorem renewedBlocks_get? (time : Nat) (blocks : List Nat) (t : Tab Block) (i : Nat) : (renewedBlocks time blocks t).get? i =
    (t.get? i).map fun b => if i ∈ blocks ∧ b.state time = .live then { b with stamp := BitVec.ofNat 10 time } else b := by
  refine (Tab.get?_mapValues (fun i b => if blocks.contains i then b.renewed time else b) t i).trans ?_
  congr 1
  funext b
  by_cases hi : i ∈ blocks <;> simp [hi, Block.renewed]

/-- The queue once its first range is served: the next range reaches the front now. -/
def nextRanges (time : Nat) : List RenewRange → List RenewRange
  | q :: qs => { q with since := time } :: qs
  | [] => []

section
variable {owner : Nat} {s : State} {r : RenewRange} {rs : List RenewRange}

theorem exec_renewal_core (h : (s.hartOf owner).renewQ = r :: rs) : exec (.renewalPerform true owner) s =
    let u := s.modScratch (.core owner 0) (renewedBlocks s.time r.blocks)
    .next (u.setHart { u.hartOf owner with renewQ := nextRanges s.time rs }) := by
  refine event_ok ?_
  simp only [renewalOp, Op.run_bind, Op.run_get, State.renewals, if_true, h]
  cases rs <;> rfl

theorem exec_renewal_cluster (h : (s.cluster owner).renewQ = r :: rs) : exec (.renewalPerform false owner) s =
    let u := s.modScratch (.cluster owner 0) (renewedBlocks s.time r.blocks)
    .next (u.setCluster owner { u.cluster owner with renewQ := nextRanges s.time rs }) := by
  refine event_ok ?_
  simp only [renewalOp, Op.run_bind, Op.run_get, State.renewals, Bool.false_eq_true, if_false, h]
  cases rs <;> rfl

theorem renewal_core (h : (s.hartOf owner).renewQ = r :: rs) : ∃ t, exec (.renewalPerform true owner) s = .next t ∧ t.mem = s.mem ∧
    t.hartOf owner = { s.hartOf owner with
      pool := renewedBlocks s.time r.blocks (s.hartOf owner).pool, renewQ := nextRanges s.time rs } := by
  refine ⟨_, exec_renewal_core h, ?_, ?_⟩
  · rw [State.setHart_mem, State.modScratch_mem]
  · have hown := State.hartOf_setPool s owner (renewedBlocks s.time r.blocks (s.hartOf owner).pool) owner
    rw [if_pos rfl] at hown
    rw [State.modScratch, hown]
    have hset := State.hartOf_setHart (s.setHart { s.hartOf owner with pool := renewedBlocks s.time r.blocks (s.hartOf owner).pool })
      { s.hartOf owner with pool := renewedBlocks s.time r.blocks (s.hartOf owner).pool, renewQ := nextRanges s.time rs }
    rwa [show ({ s.hartOf owner with pool := renewedBlocks s.time r.blocks (s.hartOf owner).pool
                                     renewQ := nextRanges s.time rs } : Hart).id = owner from s.hartOf_id owner] at hset
end

theorem exec_ringBlockRenewal {id : Nat} {s : State} {l : Launch} {p : Pair} (hl : s.launchOf (s.hartOf id) = some l)
    (hp : l.pair = some p) (hr : (s.hartOf id).status = .running) : exec (.ringBlockRenewal id) s = .next (s.setHart { s.hartOf id with
      pool := renewRange s.time (ringBlocks l p (s.hartOf id)).1 ((ringBlocks l p (s.hartOf id)).2 * (p.lag + 1)) (s.hartOf id).pool }) := by
  refine event_ok ?_
  simp [ringRenewalOp, hl, hp, hr]

/-! ## A poisoned sector is recorded (R196) -/

/-- The state in which the bytes of a sector of memory are lost. -/
def sectorLost (sector : Nat) (s : State) : State :=
  { s with freeCtr := s.freeCtr + 1, mem := Memory.write s.mem (32 * sector) (lostBytes s.freeCtr) }

theorem poisonOp_recorded {owner sector : Nat} {s : State} (hl : 32 * sector < s.physLimit)
    (hr : s.poisonRecord (controllerOf sector) < 512) :
    (poisonOp 0 owner sector).run s = .ok () ((sectorLost sector s).setPoison (.mem (32 * sector)) .hbm) := by
  have hroom : ¬ 512 ≤ State.poisonRecord { s with freeCtr := s.freeCtr + 1 } (controllerOf sector) := Nat.not_le.mpr hr
  have hlimit : 32 * sector < State.physLimit { s with freeCtr := s.freeCtr + 1 } := hl
  simp [poisonOp, hroom, hlimit, sectorLost]

theorem State.setPoison_mem_poisonOf (s : State) (k : Nat) (site : PoisonSite) (a : Nat) :
    (s.setPoison (.mem k) site).poisonOf a = if sectorOf a = sectorOf k then some site else s.poisonOf a := by
  by_cases ha : sectorOf a = sectorOf k
  · simp [State.setPoison, State.poisonOf, ha]
  · have hkeep : ∀ p : Nat × PoisonSite, (!decide (p.1 = sectorOf k) && decide (p.1 = sectorOf a)) = decide (p.1 = sectorOf a) := by
      intro p
      by_cases hp : p.1 = sectorOf a
      · simp [hp, ha]
      · simp [hp]
    simp [State.setPoison, State.poisonOf, Ne.symm ha, ha, List.find?_filter, hkeep]

theorem lostBytes_length (k : Nat) : (lostBytes k).length = 32 := by simp [lostBytes]

/-- A poisoned sector of a core's pool is marked in its block. -/
theorem poisonOp_pool {owner sector : Nat} {s : State} (ho : owner < 512) (hs : sector < 32768) :
    ∃ t, (poisonOp 2 owner sector).run s = .ok () t ∧ t.mem = s.mem ∧
      (blockAt t (.core owner (32 * sector))).poison.contains (sector % 8) = true := by
  let l : Loc := .core owner (32 * sector)
  let u : State := { s with freeCtr := s.freeCtr + 1 }
  let b : Block := { blockAt u l with data := (blockAt u l).data.putRange (32 * (sector % 8)) (lostBytes s.freeCtr) }
  have hrun : (poisonOp 2 owner sector).run s = .ok () ((u.setBlock l b).setPoison l .l2) := by
    simp [poisonOp, ho, hs]
    rfl
  have hblock : (u.setBlock l b).block l = some b := State.block_setBlock_same rfl ⟨rfl, rfl⟩
  have hset : (u.setBlock l b).setPoison l .l2 = (u.setBlock l b).setBlock l
      { b with poison := if sector % 8 ∈ b.poison then b.poison else sector % 8 :: b.poison } := by
    have hsec : 32 * sector % 256 / 32 = sector % 8 := by omega
    simp only [State.setPoison, l, hblock, Loc.offset, hsec]
  refine ⟨_, hrun, ?_, ?_⟩
  · rw [State.setPoison_mem, State.setBlock_mem]
  · rw [hset, blockAt, State.block_setBlock_same (l := l) (l' := l) (by rw [hblock]; rfl) ⟨rfl, rfl⟩, Option.getD_some]
    by_cases hb : sector % 8 ∈ b.poison <;> simp [hb]

/-! ## The mark Q of a page-table entry (R197) -/

/-- The entry with Q set. -/
def quarantinedPte (e : Nat) : Nat := e ||| 512

theorem quarantinedPte_testBit {i : Nat} (hi : i ≠ 9) (e : Nat) : (quarantinedPte e).testBit i = e.testBit i := by
  rw [quarantinedPte, Nat.testBit_or, show (512 : Nat) = 2 ^ 9 from rfl, Nat.testBit_two_pow_of_ne hi.symm, Bool.or_false]

theorem quarantinedPte_marked (e : Nat) : (quarantinedPte e).testBit 9 = true := by
  rw [quarantinedPte, Nat.testBit_or, show (512 : Nat) = 2 ^ 9 from rfl, Nat.testBit_two_pow_self, Bool.or_true]

theorem quarantinedPte_idem (e : Nat) : quarantinedPte (quarantinedPte e) = quarantinedPte e := by
  rw [quarantinedPte, quarantinedPte, Nat.lor_assoc, Nat.or_self]

theorem quarantinedPte_div {n : Nat} (hn : 10 ≤ n) (e : Nat) : quarantinedPte e / 2 ^ n = e / 2 ^ n := by
  rw [quarantinedPte, Nat.or_div_two_pow, Nat.div_eq_of_lt (a := 512), Nat.or_zero]
  exact Nat.lt_of_lt_of_le (by decide : 512 < 2 ^ 10) (Nat.pow_le_pow_right (by decide) hn)

section
variable (e : Nat)
theorem ptePpn_quarantined : ptePpn (quarantinedPte e) = ptePpn e := by simp only [ptePpn, quarantinedPte_div (n := 31) (by decide)]
theorem pteHome_quarantined : pteHome (quarantinedPte e) = pteHome e := by simp only [pteHome, quarantinedPte_div (n := 23) (by decide)]
theorem pteV_quarantined : pteV (quarantinedPte e) = pteV e := quarantinedPte_testBit (by decide) e
theorem pteLeaf_quarantined : pteLeaf (quarantinedPte e) = pteLeaf e := by
  simp only [pteLeaf, quarantinedPte_testBit (i := 1) (by decide), quarantinedPte_testBit (i := 2) (by decide),
    quarantinedPte_testBit (i := 3) (by decide)]
end

/-! ## Memory in which entries have been marked -/

/-- The entry of eight bytes at an address. -/
def entryAt (m : List Host.Cell) (a : Nat) : Nat := ofBytes (Memory.read m a 8)

theorem entryAt_lt (m : List Host.Cell) (a : Nat) : entryAt m a < 2 ^ 64 := by
  have h := ofBytes_lt (Memory.read m a 8)
  rwa [Memory.read_length] at h

/-- Every aligned entry of `m'` is that of `m`, or that with Q set. -/
def onlyMarks (m m' : List Host.Cell) : Prop := Memory.wf m' = true ∧
  ∀ a, a % 8 = 0 → entryAt m' a = entryAt m a ∨ entryAt m' a = quarantinedPte (entryAt m a)

theorem onlyMarks.refl {m : List Host.Cell} (h : Memory.wf m = true) : onlyMarks m m := ⟨h, fun _ _ => .inl rfl⟩

theorem onlyMarks.trans {m m' m'' : List Host.Cell} (h : onlyMarks m m') (h' : onlyMarks m' m'') : onlyMarks m m'' := by
  refine ⟨h'.1, fun a ha => ?_⟩
  rcases h.2 a ha with h1 | h1 <;> rcases h'.2 a ha with h2 | h2 <;> rw [h1] at h2
  · exact .inl h2
  · exact .inr h2
  · exact .inr h2
  · exact .inr (h2.trans (quarantinedPte_idem _))

/-- A mark stays. -/
theorem onlyMarks.keeps_mark {m m' : List Host.Cell} (h : onlyMarks m m') {a : Nat} (ha : a % 8 = 0)
    (hq : (entryAt m a).testBit 9 = true) : (entryAt m' a).testBit 9 = true := by
  rcases h.2 a ha with h' | h' <;> rw [h']
  · exact hq
  · exact quarantinedPte_marked _

section
variable {m : List Host.Cell} (hm : Memory.wf m = true) {a : Nat}
include hm

theorem entryAt_marked : entryAt (Memory.write m a (toBytes 8 (quarantinedPte (entryAt m a)))) a = quarantinedPte (entryAt m a) := by
  have h := Memory.read_write_self hm a (toBytes 8 (quarantinedPte (entryAt m a)))
  rw [toBytes_length] at h
  have hlt : quarantinedPte (entryAt m a) < 2 ^ 64 := Nat.or_lt_two_pow (entryAt_lt m a) (by decide)
  rw [entryAt, h, ofBytes_toBytes, Nat.mod_eq_of_lt (by simpa using hlt)]

theorem onlyMarks_write (ha : a % 8 = 0) : onlyMarks m (Memory.write m a (toBytes 8 (quarantinedPte (entryAt m a)))) := by
  refine ⟨Memory.wf_write hm _ _, fun b hb => ?_⟩
  by_cases hab : b = a
  · subst hab
    exact .inr (entryAt_marked hm)
  · refine .inl (congrArg ofBytes (Memory.read_congr fun i hi => Memory.get_write_out hm a _ _ ?_))
    rw [toBytes_length]
    omega
end

section
variable {β : Type} {step : List Host.Cell → β → List Host.Cell} {l : List β}
  (hstep : ∀ m, ∀ b ∈ l, Memory.wf m = true → onlyMarks m (step m b))
include hstep

theorem foldl_onlyMarks {m : List Host.Cell} (hm : Memory.wf m = true) : onlyMarks m (l.foldl step m) := by
  refine List.foldlRecOn (motive := onlyMarks m) l step (.refl hm) fun m' h b hb => h.trans (hstep m' b hb h.1)

/-- Each step of a run of marks is made on some memory on the way, and what it marks stays marked. -/
theorem foldl_passes {m : List Host.Cell} (hm : Memory.wf m = true) {b : β} (hb : b ∈ l) :
    ∃ m', onlyMarks m m' ∧ onlyMarks (step m' b) (l.foldl step m) := by
  obtain ⟨pre, post, rfl⟩ := List.append_of_mem hb
  have hpre := foldl_onlyMarks (l := pre) (fun m b hb => hstep m b (List.mem_append_left _ hb)) hm
  refine ⟨_, hpre, ?_⟩
  rw [List.foldl_append, List.foldl_cons]
  exact foldl_onlyMarks (fun m b hb => hstep m b (List.mem_append_right _ (List.mem_cons_of_mem _ hb)))
    (hstep _ b hb hpre.1).1
end

/-! ## The tables that are marked -/

/-- What the quarantine does with entry `i` of a table. -/
def quarantineEntry (own frame fuel level table : Nat) (m : List Host.Cell) (i : Nat) : List Host.Cell :=
  let a := table + 8 * i
  let e := entryAt m a
  if mapsFrame own frame level e then Memory.write m a (toBytes 8 (quarantinedPte e))
  else if pteV e && !pteLeaf e then quarantineTable own frame fuel (level + 1) (ptePpn e % 2 ^ 28 * 4096) m
  else m

theorem quarantineTable_succ (own frame fuel level table : Nat) (m : List Host.Cell) : quarantineTable own frame (fuel + 1) level table m =
    (List.range 512).foldl (quarantineEntry own frame fuel level table) m := rfl

section
variable {own frame : Nat}

theorem quarantineTable_onlyMarks : ∀ {fuel level table : Nat}, table % 8 = 0 → ∀ {m}, Memory.wf m = true →
    onlyMarks m (quarantineTable own frame fuel level table m)
  | 0, _, _, _, _, hm => .refl hm
  | fuel + 1, level, table, ht, m, hm => by
    rw [quarantineTable_succ]
    refine foldl_onlyMarks (fun m' i _ hm' => ?_) hm
    unfold quarantineEntry
    dsimp only
    split
    · exact onlyMarks_write hm' (by omega)
    · split
      · exact quarantineTable_onlyMarks (by omega) hm'
      · exact .refl hm'

theorem quarantineEntry_onlyMarks {fuel level table i : Nat} (ht : table % 8 = 0) {m : List Host.Cell} (hm : Memory.wf m = true) :
    onlyMarks m (quarantineEntry own frame fuel level table m i) := by
  unfold quarantineEntry
  dsimp only
  split
  · exact onlyMarks_write hm (by omega)
  · split
    · exact quarantineTable_onlyMarks (by omega) hm
    · exact .refl hm

/-- What decides the way of a walk is the same in an entry and in its mark. -/
theorem onlyMarks.sameWay {m m' : List Host.Cell} (h : onlyMarks m m') {a : Nat} (ha : a % 8 = 0) :
    pteV (entryAt m' a) = pteV (entryAt m a) ∧ pteLeaf (entryAt m' a) = pteLeaf (entryAt m a) ∧
      ptePpn (entryAt m' a) = ptePpn (entryAt m a) ∧ pteHome (entryAt m' a) = pteHome (entryAt m a) := by
  rcases h.2 a ha with h' | h' <;> rw [h']
  · exact ⟨rfl, rfl, rfl, rfl⟩
  · exact ⟨pteV_quarantined _, pteLeaf_quarantined _, ptePpn_quarantined _, pteHome_quarantined _⟩

/-- Does a leaf found at a level map the frame? -/
def leafMaps (own frame e level : Nat) : Prop := pteHome e = own ∧ ptePpn e % 2 ^ 28 ≤ frame ∧ frame < ptePpn e % 2 ^ 28 + pageSize level / 4096

/-- A leaf that a walk through a marked table finds has Q set, where it maps the frame, whatever else has been marked since. -/
theorem walk_finds_marked {t : State} {va e a l fuel : Nat} (he : leafMaps own frame e l) : ∀ {level table : Nat}, table % 8 = 0 →
    ∀ {m}, Memory.wf m = true → onlyMarks (quarantineTable own frame fuel level table m) t.mem →
      walk t va fuel table level = .leaf e a l → e.testBit 9 = true := by
  induction fuel with
  | zero => intro _ _ _ _ _ _ h; cases h
  | succ fuel ih =>
    intro level table ht m hm hafter h
    obtain ⟨i, hi, haddr⟩ : ∃ i, i < 512 ∧ entryAddr va table level = table + 8 * i := ⟨_, Nat.mod_lt _ (by decide), rfl⟩
    have haligned : (table + 8 * i) % 8 = 0 := by omega
    obtain ⟨m', hbefore, hstep⟩ := foldl_passes (step := quarantineEntry own frame fuel level table)
      (fun m i _ hm => quarantineEntry_onlyMarks ht hm) hm (List.mem_range.mpr hi)
    have hrest : onlyMarks (quarantineEntry own frame fuel level table m' i) t.mem := hstep.trans hafter
    obtain ⟨hsv, hsl, hsp, hsh⟩ := ((quarantineEntry_onlyMarks ht hbefore.1).trans hrest).sameWay haligned
    have hread : t.readPhys (table + 8 * i) 8 = entryAt t.mem (table + 8 * i) := rfl
    rw [walk_leaf_iff] at h
    dsimp only at h
    rw [haddr, hread, hsv, hsl, hsp] at h
    obtain ⟨-, hv, ⟨hl, h0, rfl, -, rfl⟩ | ⟨hl, -, hwalk⟩⟩ := h
    · obtain ⟨hhome, hlo, hhi⟩ := he
      rw [hsh] at hhome
      rw [hsp] at hlo hhi
      have hmaps : mapsFrame own frame level (entryAt m' (table + 8 * i)) = true := by
        simp only [mapsFrame, hv, hl, h0, hhome, Bool.and_eq_true, decide_eq_true_eq, ne_eq, not_false_eq_true, and_self, true_and]
        exact ⟨hlo, hhi⟩
      refine hrest.keeps_mark haligned ?_
      rw [quarantineEntry, if_pos hmaps, entryAt_marked hbefore.1]
      exact quarantinedPte_marked _
    · have hnot : ¬ mapsFrame own frame level (entryAt m' (table + 8 * i)) = true := by simp [mapsFrame, hl]
      rw [quarantineEntry, if_neg hnot, if_pos (by simp [hv, hl])] at hrest
      exact ih (by omega) hbefore.1 hrest hwalk
end

/-! ## The quarantine of a frame (R197) -/

/-- The roots of the queues in use. -/
def State.rootsInUse (s : State) : List Nat :=
  ((s.queues.filter fun p => s.usesRoot p.1 p.2).map fun p => field512 p.2.installed 8 0 40).dedup

def frameQuarantined (frame : Nat) (s : State) : State := { s with
  mem := s.rootsInUse.foldl (fun m r => quarantineTable s.domainId frame 4 0 r m) s.mem
  poison := s.poison.filter fun p => p.1 / 128 ≠ frame
  pins := s.pins.map fun p => (p.1, p.2.map fun x => x.map fun v => { v with pas := v.pas.filter (· ≠ frame) })
  status := { s.status with qframes := s.status.qframes + 1 } }

theorem quarantine_run (frame : Nat) (s : State) : (quarantine frame).run s = .ok () (frameQuarantined frame s) := rfl

theorem poisonOp_quarantines {owner sector : Nat} {s : State} (hl : 32 * sector < s.physLimit)
    (hp : s.poisonOf (32 * sector) ≠ some .hbm) (hr : 512 ≤ s.poisonRecord (controllerOf sector)) :
    (poisonOp 0 owner sector).run s = .ok () (frameQuarantined (sector / 128) (sectorLost sector s)) := by
  have hfull : 512 ≤ State.poisonRecord { s with freeCtr := s.freeCtr + 1 } (controllerOf sector) := hr
  have hlimit : 32 * sector < State.physLimit { s with freeCtr := s.freeCtr + 1 } := hl
  have hnew : ¬ State.poisonOf { s with freeCtr := s.freeCtr + 1 } (32 * sector) = some .hbm := hp
  simp [poisonOp, hfull, hlimit, hnew, quarantine_run, sectorLost]

/-- Every leaf that maps a quarantined frame in the tables of a queue in use has Q set. -/
theorem frameQuarantined_marks {frame : Nat} {s : State} (hs : s.memOk)
    (hroots : ∀ q qu, (q, qu) ∈ s.queues → field512 qu.installed 8 0 40 % 8 = 0) {q va e a level : Nat} {qu : Queue}
    (hq : (q, qu) ∈ s.queues) (hu : s.usesRoot q qu = true)
    (hw : walk (frameQuarantined frame s) va 4 (field512 qu.installed 8 0 40) 0 = .leaf e a level)
    (he : leafMaps s.domainId frame e level) : e.testBit 9 = true := by
  have hmem : field512 qu.installed 8 0 40 ∈ s.rootsInUse :=
    List.mem_dedup.mpr (List.mem_map.mpr ⟨(q, qu), List.mem_filter.mpr ⟨hq, hu⟩, rfl⟩)
  have haligned : ∀ r ∈ s.rootsInUse, r % 8 = 0 := by
    intro r hr
    obtain ⟨⟨q', qu'⟩, hin, rfl⟩ := List.mem_map.mp (List.mem_dedup.mp hr)
    exact hroots q' qu' (List.mem_filter.mp hin).1
  obtain ⟨m, hbefore, hafter⟩ := foldl_passes (step := fun m r => quarantineTable s.domainId frame 4 0 r m)
    (fun m r hr hm => quarantineTable_onlyMarks (haligned r hr) hm) hs hmem
  exact walk_finds_marked he (haligned _ hmem) hbefore.1 hafter hw

/-! ## The events together -/

theorem exec_sectorPoisonDetect {place owner sector : Nat} {s t : State} (h : (poisonOp place owner sector).run s = .ok () t) :
    exec (.sectorPoisonDetect place owner sector) s = .next t := event_ok h

/-- Losing a sector draws free values and changes the bytes of the sector; memory stays canonical. -/
theorem sectorLost_eq (sector : Nat) (s : State) : ∃ n m, sectorLost sector s = { s with freeCtr := n, mem := m } ∧
    (s.memOk → Memory.wf m = true ∧ ∀ a, a < 32 * sector ∨ 32 * sector + 32 ≤ a → Memory.get m a = Memory.get s.mem a) := by
  refine ⟨s.freeCtr + 1, Memory.write s.mem (32 * sector) (lostBytes s.freeCtr), by rw [sectorLost], fun hs => ⟨?_, fun a ha => ?_⟩⟩
  · exact Memory.wf_write hs (32 * sector) (lostBytes s.freeCtr)
  · exact Memory.get_write_out hs (32 * sector) (lostBytes s.freeCtr) a (by rwa [lostBytes_length])

theorem retentionAndPoison : RetentionAndPoison := by
  refine ⟨?sweepCore, ?sweepCluster, ?renewCore, ?renewCluster, ?ring, ?unseen, ?recorded, ?pool, ?quarantined⟩
  case ring => exact fun id s l p hl hp hr => exec_ringBlockRenewal hl hp hr
  case sweepCore =>
    intro owner block s
    obtain ⟨-, hhart⟩ := s.modScratch_frame (sweptBlocks s.time block) (scratchAt true owner)
    refine ⟨_, exec_sweeperVisit true owner block s, State.modScratch_mem .., by rw [hhart], fun _ i => ?_, fun id hid => ?_⟩
    · exact (congrArg (Tab.get? · i) (State.pad_modScratch_self s _ (l := .core owner 0) rfl 0)).trans (sweptBlocks_get? ..)
    · exact congrArg Hart.pool ((State.hartOf_setPool s owner _ id).trans (if_neg hid))
  case sweepCluster =>
    intro owner block s
    refine ⟨_, exec_sweeperVisit false owner block s, rfl, rfl, fun _ i => ?_, fun c hc => State.setCluster_ne s owner _ c hc⟩
    exact (congrArg (Tab.get? · i) (State.pad_modScratch_self s _ (l := .cluster owner 0) rfl 0)).trans (sweptBlocks_get? ..)
  case renewCore =>
    intro owner s r rs h
    obtain ⟨t, hexec, hmem, hown⟩ := renewal_core h
    refine ⟨t, hexec, ?_, hmem, fun _ i => ?_⟩
    · rw [hown]
      cases rs <;> rfl
    · rw [hown]
      exact renewedBlocks_get? ..
  case renewCluster =>
    intro owner s r rs h
    refine ⟨_, exec_renewal_cluster h, ?_, rfl, rfl, rfl, fun _ i => ?_, fun c hc => ?_⟩
    · rw [State.setCluster_self]
      cases rs <;> rfl
    · rw [State.setCluster_self]
      exact (congrArg (Tab.get? · i) (State.pad_modScratch_self s _ (l := .cluster owner 0) rfl 0)).trans (renewedBlocks_get? ..)
    · rw [State.setCluster_ne _ _ _ _ hc]
      exact State.setCluster_ne s owner _ c hc
  case unseen =>
    intro i a b s hi
    rcases List.mem_cons.mp hi with rfl | hi
    · rfl
    rcases List.mem_cons.mp hi with rfl | hi
    · rfl
    rcases List.mem_cons.mp hi with rfl | hi
    · rfl
    · cases hi
  case recorded =>
    intro sector s hl hs hr
    obtain ⟨n, m, hlost, hm⟩ := sectorLost_eq sector s
    obtain ⟨hwf, hget⟩ := hm hs
    have hexec := exec_sectorPoisonDetect (poisonOp_recorded (owner := 0) hl hr)
    rw [hlost] at hexec
    refine ⟨_, hexec, hwf, ?_, fun a ha => ⟨hget a ha, ?_⟩, rfl, rfl⟩
    · rw [State.setPoison_mem_poisonOf, if_pos rfl]
    · have hsec : ¬ sectorOf a = sectorOf (32 * sector) := by
        unfold sectorOf
        omega
      rw [State.setPoison_mem_poisonOf, if_neg hsec]
      rfl
  case pool =>
    intro owner sector s ho hs
    obtain ⟨t, hrun, hmem, hpoison⟩ := poisonOp_pool (s := s) ho hs
    exact ⟨t, exec_sectorPoisonDetect hrun, hmem, hpoison⟩
  case quarantined =>
    intro sector s hl hp hr
    obtain ⟨n, m, hlost, hm⟩ := sectorLost_eq sector s
    have hexec := exec_sectorPoisonDetect (poisonOp_quarantines (owner := 0) hl hp hr)
    rw [hlost] at hexec
    refine ⟨_, hexec, rfl, fun hs hroots q qu va e a level hq hu hw hhome hlo hhi => ?_, fun p => ?_, rfl, rfl⟩
    · exact frameQuarantined_marks (s := { s with freeCtr := n, mem := m }) (hm hs).1 hroots hq hu hw ⟨hhome, hlo, hhi⟩
    · exact List.mem_filter.trans (and_congr_right' decide_eq_true_iff)

end Sys2Proof.Machine
end

section
/-!
SUPPORT. What the element functions of the VINT and VFLT families are taken from: VTYPE and the operands of their own element (R350 to
R366), so that a result is the same after other elements of the instruction have been committed (R117, R121).
-/

namespace Sys2Proof.Machine
open Sys2Proof.Claims

/-! ## Element functions -/

/-- On whatever registers it finds, the element function `f` takes the results of lane `L` from VTYPE and the operands of the element, and
their validity from that of some of the operands. -/
structure ReadsElements (L : Lane) (s : State) (f : VCtx → Nat → ElemRes) : Prop where
  computes : ∀ x e, x.h.vtype = s.hart.vtype → (∀ r ∈ L.vd :: L.regs, x.elem r e = (Claims.reads s).elem r e) →
    (f x e).val = (L.res e).val ∧ (f x e).fl = (L.res e).fl
  validity : ∃ V : List (BitVec 5), (∀ r ∈ V, r ∈ L.vd :: L.regs) ∧ (∀ x e, x.h.vtype = s.hart.vtype → (f x e).ok = V.all (x.regValid · e)) ∧
    ∀ e, (L.res e).ok = V.all ((Claims.reads s).regValid · e)

/-- Only what it does under the VTYPE of the lane counts. -/
theorem ReadsElements.of_eq {L : Lane} {s : State} {f g : VCtx → Nat → ElemRes} (hf : ReadsElements L s f)
    (h : ∀ x e, x.h.vtype = s.hart.vtype → g x e = f x e) : ReadsElements L s g := by
  obtain ⟨V, hV, hok, hres⟩ := hf.validity
  refine ⟨fun x e ht hr => ?_, V, hV, fun x e ht => ?_, hres⟩
  · rw [h x e ht]
    exact hf.computes x e ht hr
  · rw [h x e ht]
    exact hok x e ht

section
variable {x y : VCtx} {e : Nat}

theorem etype_of_vtype (h : x.h.vtype = y.h.vtype) : x.h.etype = y.h.etype := by rw [Hart.etype, h, Hart.etype]
theorem rm_of_vtype (h : x.h.vtype = y.h.vtype) : x.h.rm = y.h.rm := by rw [Hart.rm, Hart.rmCode, h, Hart.rm, Hart.rmCode]
theorem w_of_vtype (h : x.h.vtype = y.h.vtype) : x.w = y.w := by rw [VCtx.w, Hart.eb, etype_of_vtype h, VCtx.w, Hart.eb]

theorem src_of_elem (hw : x.w = y.w) (c : Cap) (b : Src2) (sg : Bool) (h : ∀ r ∈ srcRegs b, x.elem r e = y.elem r e) :
    x.src c b sg e = y.src c b sg e := by
  cases b with
  | vv r => exact h r (List.mem_singleton.mpr rfl)
  | vx r => rw [VCtx.src, hw, VCtx.src]
  | vi i => rw [VCtx.src, hw, VCtx.src]

theorem srcValid_eq_all (x : VCtx) (b : Src2) (e : Nat) : x.srcValid b e = (srcRegs b).all (x.regValid · e) := by
  cases b with
  | vv r => exact (Bool.and_true _).symm
  | vx r => rfl
  | vi i => rfl
end

theorem intLane_readsElements (s : State) (v : VOp) (sg : Bool) (f : Nat → Nat → Nat → Nat × FlagSet) :
    ReadsElements (intLane s v sg f) s fun x e =>
      let r := f x.w (x.elem v.vs2 e) (x.src (captureV v s.hart) v.b sg e)
      { val := r.1, fl := r.2, ok := x.regValid v.vs2 e && x.srcValid v.b e } := by
  refine ⟨fun x e ht hr => ?_, v.vs2 :: srcRegs v.b, fun r hr => List.mem_cons_of_mem _ hr, fun x e _ => ?_, fun e => ?_⟩
  · have hw : x.w = (Claims.reads s).w := w_of_vtype ht
    have hsrc := src_of_elem (e := e) hw (captureV v s.hart) v.b sg fun r h => hr r (List.mem_cons_of_mem _ (List.mem_cons_of_mem _ h))
    have hvs2 := hr v.vs2 (List.mem_cons_of_mem _ (List.mem_cons_self ..))
    dsimp only
    rw [hw, hvs2, hsrc]
    exact ⟨rfl, rfl⟩
  · rw [List.all_cons, ← srcValid_eq_all]
  · rw [List.all_cons, ← srcValid_eq_all]
    rfl

theorem countLane_readsElements (s : State) (u : UOp) (f : Nat → Nat → Nat) :
    ReadsElements (countLane s u f) s fun x e => { val := f x.w (x.elem u.vs2 e), fl := 0, ok := x.regValid u.vs2 e } := by
  refine ⟨fun x e ht hr => ?_, [u.vs2], fun r hr => List.mem_cons_of_mem _ hr, fun x e _ => (Bool.and_true _).symm,
    fun e => (Bool.and_true _).symm⟩
  have hw : x.w = (Claims.reads s).w := w_of_vtype ht
  dsimp only
  rw [hw, hr u.vs2 (List.mem_cons_of_mem _ (List.mem_cons_self ..))]
  exact ⟨rfl, rfl⟩

theorem funnelLane_readsElements (s : State) (u : UOp) (f : Nat → Nat → Nat → Nat → Nat) :
    let low : BitVec 5 := u.vs2 + BitVec.ofNat 5 s.hart.grp
    ReadsElements (funnelLane s u f) s fun x e =>
      { val := f x.w (x.elem u.vs2 e) (x.elem low e) (x.elem u.vd e % x.w), fl := 0
        ok := x.regValid u.vs2 e && x.regValid low e && x.regValid u.vd e } := by
  intro low
  have hall : ∀ (x : VCtx) e, (x.regValid u.vs2 e && x.regValid low e && x.regValid u.vd e) =
      [u.vs2, low, u.vd].all (x.regValid · e) := fun x e => by simp [Bool.and_assoc]
  refine ⟨fun x e ht hr => ?_, [u.vs2, low, u.vd], fun r hr => ?_, fun x e _ => hall x e, fun e => hall _ e⟩
  · have hw : x.w = (Claims.reads s).w := w_of_vtype ht
    have hvs2 := hr u.vs2 (by simp [funnelLane])
    have hlow := hr low (by simp [funnelLane, low])
    have hvd := hr u.vd (by simp [funnelLane])
    dsimp only
    rw [hw, hvs2, hlow, hvd]
    exact ⟨rfl, rfl⟩
  · simp only [List.mem_cons, List.not_mem_nil, or_false] at hr
    rcases hr with rfl | rfl | rfl <;> simp [funnelLane, low]

theorem fltLane_readsElements (s : State) (v : VOp) (usesD : Bool) (f : Nat → Rm → Nat → Nat → Nat → Nat × FlagSet) :
    ReadsElements (fltLane s v usesD f) s fun x e =>
      let r := f x.h.etype x.h.rm (x.elem v.vs2 e) (x.src (captureV v s.hart) v.b true e) (x.elem v.vd e)
      { val := r.1, fl := r.2, ok := x.regValid v.vs2 e && x.srcValid v.b e && (!usesD || x.regValid v.vd e) } := by
  have hall : ∀ (x : VCtx) e, (x.regValid v.vs2 e && x.srcValid v.b e && (!usesD || x.regValid v.vd e)) =
      (v.vs2 :: srcRegs v.b ++ if usesD then [v.vd] else []).all (x.regValid · e) := fun x e => by
    rw [srcValid_eq_all]
    cases usesD <;> simp [List.all_append, Bool.and_assoc]
  refine ⟨fun x e ht hr => ?_, _, fun r hr => ?_, fun x e _ => hall x e, fun e => hall _ e⟩
  · have hw : x.w = (Claims.reads s).w := w_of_vtype ht
    have hsrc := src_of_elem (e := e) hw (captureV v s.hart) v.b true fun r h => hr r (List.mem_cons_of_mem _ (List.mem_cons_of_mem _ h))
    have hvs2 := hr v.vs2 (List.mem_cons_of_mem _ (List.mem_cons_self ..))
    have hvd := hr v.vd (List.mem_cons_self ..)
    have het : x.h.etype = s.hart.etype := etype_of_vtype (y := Claims.reads s) ht
    have hrm : x.h.rm = s.hart.rm := rm_of_vtype (y := Claims.reads s) ht
    dsimp only
    rw [hvs2, hsrc, hvd, het, hrm]
    exact ⟨rfl, rfl⟩
  · rcases List.mem_append.mp hr with hr | hr
    · exact List.mem_cons_of_mem _ hr
    · cases usesD with
      | false => cases hr
      | true =>
        rw [List.mem_singleton.mp hr]
        exact List.mem_cons_self ..

theorem fltLane1_readsElements (s : State) (u : UOp) (f : Nat → Rm → Nat → Nat × FlagSet) :
    ReadsElements (fltLane1 s u f) s fun x e =>
      let r := f x.h.etype x.h.rm (x.elem u.vs2 e)
      { val := r.1, fl := r.2, ok := x.regValid u.vs2 e } := by
  refine ⟨fun x e ht hr => ?_, [u.vs2], fun r hr => List.mem_cons_of_mem _ hr, fun x e _ => (Bool.and_true _).symm,
    fun e => (Bool.and_true _).symm⟩
  have het : x.h.etype = s.hart.etype := etype_of_vtype (y := Claims.reads s) ht
  have hrm : x.h.rm = s.hart.rm := rm_of_vtype (y := Claims.reads s) ht
  dsimp only
  rw [hr u.vs2 (List.mem_cons_of_mem _ (List.mem_cons_self ..)), het, hrm]
  exact ⟨rfl, rfl⟩

/-! ## The instructions -/

theorem captureV_of_x {g h : Hart} (hx : g.x = h.x) (v : VOp) : captureV v g = captureV v h := by
  unfold captureV Hart.xr
  rw [hx]

/-- The state with other mismatches to come and other words of the status block. -/
def disturbed (us : List Upset) (st : StatusBlock) (s : State) : State := { s with hart := { s.hart with upsets := us }, status := st }

/-- Whatever mismatches are to come, the instruction runs the element function `f` as lane `L` says. -/
structure RunsLane (L : Lane) (s : State) (i : Instr) (suits : Hart → Bool) (f : VCtx → Nat → ElemRes) : Prop where
  isElementwise : L.whole = false ∧ L.writes = fun _ => true
  sizes : L.eb = s.hart.eb ∧ L.widest = s.hart.eb
  reads : ReadsElements L s f
  suitable : ∀ h : Hart, h.vtype = s.hart.vtype → suits h = true
  runs : ∀ us st, ∃ x, exec i (disturbed us st s) = dispatch x (disturbed us st s) ∧ x.run (disturbed us st s) =
    (lanewise L.unit L.c L.pg L.vd L.regs L.eb L.widest suits f).run (disturbed us st s)

section
variable {s : State} {i : Instr}

theorem vint_runsLane {v : VOp} {sg : Bool} {f : Nat → Nat → Nat → Nat × FlagSet}
    (hi : ∀ t, t.hart.x = s.hart.x → exec i t = dispatch (vint v sg f (captureV v s.hart)) t) :
    ∃ suits g, RunsLane (intLane s v sg f) s i suits g :=
  ⟨anyType, _, ⟨rfl, rfl⟩, ⟨rfl, rfl⟩, intLane_readsElements s v sg f, fun _ _ => rfl, fun us st =>
    ⟨_, hi (disturbed us st s) rfl, Op.bind_ok (Op.run_getH _) rfl⟩⟩

theorem vcount_runsLane {u : UOp} {f : Nat → Nat → Nat} (hi : ∀ t, exec i t = dispatch (vcount u f) t) :
    ∃ suits g, RunsLane (countLane s u f) s i suits g :=
  ⟨anyType, _, ⟨rfl, rfl⟩, ⟨rfl, rfl⟩, countLane_readsElements s u f, fun _ _ => rfl, fun _ _ => ⟨_, hi _, Op.bind_ok (Op.run_getH _) rfl⟩⟩

theorem vfunnel_runsLane {u : UOp} {f : Nat → Nat → Nat → Nat → Nat} (hi : ∀ t, exec i t = dispatch (vfunnel u f) t)
    (h : (funnelLane s u f).suits = true) : ∃ suits g, RunsLane (funnelLane s u f) s i suits g := by
  refine ⟨anyType, _, ⟨rfl, rfl⟩, ⟨rfl, rfl⟩, funnelLane_readsElements s u f, fun _ _ => rfl, fun us st => ⟨_, hi _, ?_⟩⟩
  refine Op.bind_ok (Op.run_get _) (Op.bind_ok (a := ()) (t := disturbed us st s) ?_ rfl)
  exact (congrArg (fun b => (illegalUnless b).run (disturbed us st s)) h).trans (Op.run_illegalUnless_true _)

theorem floatType_of_vtype (hf : isFloat s.hart.etype = true) (h : Hart) (hv : h.vtype = s.hart.vtype) : floatType h = true := by
  rw [floatType, Hart.etype, hv]
  exact hf

/-- A two-source VFLT instruction: its element function need be that of the lane under a float type only. -/
theorem fltLane_runsLane {v : VOp} {regs : List (BitVec 5)} {g : VCtx → Nat → ElemRes} (usesD : Bool)
    (f : Nat → Rm → Nat → Nat → Nat → Nat × FlagSet) (hf : isFloat s.hart.etype = true) (hregs : (fltLane s v usesD f).regs = regs)
    (hi : ∀ t, t.hart.x = s.hart.x → exec i t = dispatch (vflt v.c v.pg v.vd regs g) t)
    (hg : ∀ x : VCtx, ∀ e, isFloat x.h.etype = true → x.w = 8 * s.hart.eb → g x e =
      let r := f x.h.etype x.h.rm (x.elem v.vs2 e) (x.src (captureV v s.hart) v.b true e) (x.elem v.vd e)
      { val := r.1, fl := r.2, ok := x.regValid v.vs2 e && x.srcValid v.b e && (!usesD || x.regValid v.vd e) }) :
    ∃ suits g, RunsLane (fltLane s v usesD f) s i suits g := by
  subst hregs
  refine ⟨floatType, g, ⟨rfl, rfl⟩, ⟨rfl, rfl⟩, (fltLane_readsElements s v usesD f).of_eq fun x e ht => ?_, floatType_of_vtype hf, fun us st =>
    ⟨_, hi (disturbed us st s) rfl, Op.bind_ok (Op.run_getH _) rfl⟩⟩
  refine hg x e ?_ (w_of_vtype (y := Claims.reads s) ht)
  rw [etype_of_vtype (y := Claims.reads s) ht]
  exact hf

/-- A one-source VFLT instruction. -/
theorem fltLane1_runsLane {u : UOp} {g : VCtx → Nat → ElemRes} (f : Nat → Rm → Nat → Nat × FlagSet) (hf : isFloat s.hart.etype = true)
    (hi : ∀ t, exec i t = dispatch (vflt u.c u.pg u.vd [u.vs2] g) t)
    (hg : ∀ x e, g x e = let r := f x.h.etype x.h.rm (x.elem u.vs2 e); { val := r.1, fl := r.2, ok := x.regValid u.vs2 e }) :
    ∃ suits g, RunsLane (fltLane1 s u f) s i suits g :=
  ⟨floatType, g, ⟨rfl, rfl⟩, ⟨rfl, rfl⟩, (fltLane1_readsElements s u f).of_eq fun x e _ => hg x e, floatType_of_vtype hf, fun us st =>
    ⟨_, hi (disturbed us st s), Op.bind_ok (Op.run_getH _) rfl⟩⟩

theorem vintLane_runsLane {L : Lane} (h : vintLane s i = some L) (hL : L.passes s) : ∃ suits f, RunsLane L s i suits f := by
  obtain ⟨-, -, hsuits, -⟩ := hL
  unfold vintLane at h
  split at h
  case h_17 | h_18 => cases h; exact vcount_runsLane fun _ => rfl
  case h_19 | h_20 => cases h; exact vfunnel_runsLane (fun _ => rfl) hsuits
  case h_21 => exact absurd h (by simp)
  all_goals
    cases h
    exact vint_runsLane fun t ht => by rw [← captureV_of_x ht _]; rfl

section
variable (hf : isFloat s.hart.etype = true)
include hf

theorem vflt2_runsLane {v : VOp} {f : Rm → Fx → Fx → Fx × FlagSet}
    (hi : ∀ t, t.hart.x = s.hart.x → exec i t = dispatch (vflt2 v f (captureV v s.hart)) t) : ∃ suits g,
      RunsLane (fltLane s v false fun t rm a b _ => rounded t rm (f (effRm t rm) (fxOf t a) (fxOf t b))) s i suits g :=
  fltLane_runsLane false _ hf rfl hi fun x e hf _ => by
    simp only [Bool.not_false, Bool.true_or, Bool.and_true, fxOf, if_pos hf]
    rfl

theorem vflt3_runsLane {v : VOp} {negP negD : Bool}
    (hi : ∀ t, t.hart.x = s.hart.x → exec i t = dispatch (vflt3 v negP negD (captureV v s.hart)) t) : ∃ suits g,
      RunsLane (fltLane s v true fun t rm a b d => rounded t rm (fmaFx (effRm t rm) (if negP then (fxOf t a).neg else fxOf t a) (fxOf t b)
        (if negD then (fxOf t d).neg else fxOf t d))) s i suits g :=
  fltLane_runsLane true _ hf rfl hi fun _ _ _ _ => rfl

theorem vflt1_runsLane {u : UOp} {f : Rm → Fx → Fx × FlagSet} (hi : ∀ t, exec i t = dispatch (vflt1 u f) t) :
    ∃ suits g, RunsLane (fltLane1 s u fun t rm a => rounded t rm (f rm (fxOf t a))) s i suits g :=
  fltLane1_runsLane _ hf hi fun _ _ => rfl

theorem vfminmax_runsLane {v : VOp} {isMax : Bool}
    (hi : ∀ t, t.hart.x = s.hart.x → exec i t = dispatch (vfminmax v isMax (captureV v s.hart)) t) :
    ∃ suits g, RunsLane (fltLane s v false fun t _ a b _ => minMaxF (fmtOf t) isMax a b) s i suits g :=
  fltLane_runsLane false _ hf rfl hi fun x e _ _ => by
    simp only [Bool.not_false, Bool.true_or, Bool.and_true]

theorem vfsgnj_runsLane {v : VOp} (hi : ∀ t, t.hart.x = s.hart.x → exec i t = dispatch (vfsgnjBody v (captureV v s.hart)) t) :
    ∃ suits g, RunsLane (fltLane s v false fun t _ a b _ => signOp t a (signOf t b)) s i suits g :=
  fltLane_runsLane false _ hf rfl hi fun x e _ _ => by
    simp only [Bool.not_false, Bool.true_or, Bool.and_true]

theorem vfscale_runsLane {v : VOp} (hi : ∀ t, t.hart.x = s.hart.x → exec i t = dispatch (vfscaleBody v (captureV v s.hart)) t) :
    ∃ suits g, RunsLane (fltLane s v false fun t rm a b _ => scaleElem t rm a (toSigned (8 * s.hart.eb) b)) s i suits g :=
  fltLane_runsLane false _ hf rfl hi fun x e _ hw => by
    simp only [Bool.not_false, Bool.true_or, Bool.and_true, ← hw]

theorem vfsign_runsLane {u : UOp} {f : Bool → Bool} (hi : ∀ t, exec i t = dispatch (vfsign u f) t) :
    ∃ suits g, RunsLane (fltLane1 s u fun t _ a => signOp t a (f (signOf t a))) s i suits g :=
  fltLane1_runsLane _ hf hi fun _ _ => rfl
end

theorem vfltLane_runsLane {L : Lane} (h : vfltLane s i = some L) (hL : L.passes s) : ∃ suits f, RunsLane L s i suits f := by
  obtain ⟨-, -, hf, -⟩ := hL
  unfold vfltLane at h
  split at h
  case h_17 => exact absurd h (by simp)
  all_goals cases h
  case h_1 => exact vflt2_runsLane hf (f := addFx) fun t ht => by rw [← captureV_of_x ht _]; rfl
  case h_2 => exact vflt2_runsLane hf (f := subFx) fun t ht => by rw [← captureV_of_x ht _]; rfl
  case h_3 => exact vflt2_runsLane hf (f := fun _ => mulFx) fun t ht => by rw [← captureV_of_x ht _]; rfl
  case h_4 => exact vflt2_runsLane hf (f := fun _ => divFx) fun t ht => by rw [← captureV_of_x ht _]; rfl
  case h_5 => exact vflt3_runsLane hf (negP := false) (negD := false) fun t ht => by rw [← captureV_of_x ht _]; rfl
  case h_6 => exact vflt3_runsLane hf (negP := false) (negD := true) fun t ht => by rw [← captureV_of_x ht _]; rfl
  case h_7 => exact vflt3_runsLane hf (negP := true) (negD := false) fun t ht => by rw [← captureV_of_x ht _]; rfl
  case h_8 | h_9 => exact vfminmax_runsLane hf fun t ht => by rw [← captureV_of_x ht _]; rfl
  case h_10 => exact vfsgnj_runsLane hf fun t ht => by rw [← captureV_of_x ht _]; rfl
  case h_11 => exact vfscale_runsLane hf fun t ht => by rw [← captureV_of_x ht _]; rfl
  case h_12 => exact vfsign_runsLane hf (f := fun _ => false) fun _ => rfl
  case h_13 => exact vfsign_runsLane hf (f := (!·)) fun _ => rfl
  case h_14 => exact vflt1_runsLane hf (f := fun _ => sqrtFx) fun _ => rfl
  case h_15 => exact vflt1_runsLane hf (f := fun _ => exp2Fx) fun _ => rfl
  case h_16 => exact vflt1_runsLane hf (f := rndFx) fun _ => rfl

end

end Sys2Proof.Machine
end

section
/-!
SUPPORT. An element-wise instruction that stops between two elements and goes on from there writes what it would have written in one
run (R34, R117, R121): the elements and the validity that it still reads are as they were.
-/

namespace Sys2Proof.Machine
open Sys2Proof.Claims

/-! ## Runs of commits -/

section
variable {x y : VCtx} {pg : BitVec 3} {vd eb : Nat} {f g : Nat → ElemRes}

/-- What a commit takes from what the instruction reads: the capacity of a register, VTYPE, the predicates and the elements passed over. -/
structure VCtx.CommitsAs (x y : VCtx) : Prop where
  cap : x.cap = y.cap
  vtype : x.h.vtype = y.h.vtype
  preds : x.h.preds = y.h.preds
  skipped : x.h.skipped = y.h.skipped

theorem VCtx.CommitsAs.active (h : x.CommitsAs y) (pg : BitVec 3) (e : Nat) : x.h.active pg e = y.h.active pg e := by
  simp only [Hart.active, Hart.pr, Hart.isSkipped, h.preds, h.skipped]

theorem VCtx.CommitsAs.blkLog (h : x.CommitsAs y) : x.h.blkLog = y.h.blkLog := by
  simp only [Hart.blkLog, h.vtype]

theorem VCtx.CommitsAs.commitElem (h : x.CommitsAs y) (e : Nat) (r : ElemRes) (k : Hart) :
    commitElem x pg vd eb e r k = Machine.commitElem y pg vd eb e r k := by
  have hblk : x.h.blk e = y.h.blk e := by rw [Hart.blk, h.blkLog, Hart.blk]
  have hfirst : x.h.firstInBlock pg e = y.h.firstInBlock pg e := by
    simp only [Hart.firstInBlock, Hart.blockStart, hblk, h.blkLog, h.active]
  simp only [Machine.commitElem, h.cap, hblk, hfirst]

/-- A run of commits depends on no more than that, and on the results of its own elements. -/
theorem commitFrom_congr (h : x.CommitsAs y) {n : Nat} : ∀ {e : Nat} {k : Hart}, (∀ i, e ≤ i → i < e + n → f i = g i) →
    commitFrom x pg vd eb f n e k = commitFrom y pg vd eb g n e k := by
  induction n with
  | zero => exact fun _ => rfl
  | succ n ih =>
    intro e k hfg
    rw [commitFrom, commitFrom, h.active, h.commitElem, hfg e (Nat.le_refl _) (by omega)]
    exact ih fun i h1 h2 => hfg i (by omega) (by omega)

theorem commitFrom_add {m n : Nat} : ∀ {e : Nat} {k : Hart},
    commitFrom x pg vd eb f (m + n) e k = commitFrom x pg vd eb f n (e + m) (commitFrom x pg vd eb f m e k) := by
  induction m with
  | zero => intro e k; rw [Nat.zero_add]; rfl
  | succ m ih =>
    intro e k
    rw [Nat.succ_add, commitFrom, ih, commitFrom, Nat.add_right_comm e 1 m]
    rfl

/-- Two harts hold the same registers and flags, and the same masks but for those of a group's other registers. -/
structure SameOutside (vd grp : Nat) (g h : Hart) : Prop where
  vregs : g.vregs = h.vregs
  vfflags : g.vfflags = h.vfflags
  masks : ∀ v, v ≤ vd ∨ vd + grp ≤ v → g.masks.get v = h.masks.get v

theorem SameOutside.commitElem {grp : Nat} {k l : Hart} (h : SameOutside vd grp k l) (e : Nat) (r : ElemRes) :
    SameOutside vd grp (commitElem x pg vd eb e r k) (Machine.commitElem x pg vd eb e r l) := by
  have hvd : k.masks.get vd = l.masks.get vd := h.masks vd (.inl (Nat.le_refl _))
  refine ⟨?_, ?_, fun v hv => ?_⟩
  · exact congrArg (fun m => (({ l with vregs := m } : Hart).setElemAt x.cap vd eb e r.val).vregs) h.vregs
  · exact congrArg (· ||| r.fl.setWidth 64) h.vfflags
  · by_cases hne : v = vd
    · subst hne
      refine (File.get_set_self ..).trans (Eq.trans ?_ (File.get_set_self ..).symm)
      exact congrArg (fun m : BitVec 64 => setBit m (x.h.blk e) (r.ok && (x.h.firstInBlock pg e || m.getLsbD (x.h.blk e)))) hvd
    · rw [commitElem_masks_ne _ _ _ _ _ _ hne, commitElem_masks_ne _ _ _ _ _ _ hne]
      exact h.masks v hv

theorem SameOutside.commitFrom {grp n : Nat} : ∀ {e : Nat} {k l : Hart}, SameOutside vd grp k l →
    SameOutside vd grp (commitFrom x pg vd eb f n e k) (Machine.commitFrom x pg vd eb f n e l) := by
  induction n with
  | zero => exact fun h => h
  | succ n ih =>
    intro e k l h
    refine ih ?_
    split
    · exact h.commitElem e _
    · exact h
end

/-! ## What the later elements still read -/

/-- The hart behind the commit of a lane's elements from VXI to `n`. -/
def committedTo (L : Lane) (s : State) (n : Nat) : Hart :=
  commitFrom (Claims.reads s) L.pg L.vd.toNat L.eb L.res (n - s.hart.vxi) s.hart.vxi s.hart

/-- What instructions read of two harts of one VTYPE and one capacity is the same where the bytes of the element are. -/
theorem VCtx.elem_congr {x y : VCtx} (hcap : x.cap = y.cap) (hv : x.h.vtype = y.h.vtype) {r : BitVec 5} {e : Nat}
    (hb : ∀ j, j < y.h.eb → x.h.vregs.get (r.toNat * y.cap + e * y.h.eb + j) = y.h.vregs.get (r.toNat * y.cap + e * y.h.eb + j)) :
    x.elem r e = y.elem r e := by
  have heb : x.h.eb = y.h.eb := by rw [Hart.eb, etype_of_vtype hv, Hart.eb]
  rw [VCtx.elem, hcap, heb]
  exact Hart.elemAt_congr hb

theorem blk_of_vtype {g h : Hart} (hv : g.vtype = h.vtype) (e : Nat) : g.blk e = h.blk e := by
  simp only [Hart.blk, Hart.blkLog, hv]

theorem VCtx.regValid_congr {x y : VCtx} (hv : x.h.vtype = y.h.vtype) {r : BitVec 5}
    (hm : x.h.masks.get r.toNat = y.h.masks.get r.toNat) (e : Nat) : x.regValid r e = y.regValid r e := by
  simp only [VCtx.regValid, Hart.valid, hm, blk_of_vtype hv]

section
variable {L : Lane} {s : State} {k : Nat}

/-- The registers of an operand group lie in one group of the destination's size: the same, or one apart from it. -/
theorem group_apart {g a b : Nat} (ha : a % g = 0) (hb : b % g = 0) (hne : a ≠ b) : a + g ≤ b ∨ b + g ≤ a := by
  obtain ⟨i, rfl⟩ := Nat.dvd_of_mod_eq_zero ha
  obtain ⟨j, rfl⟩ := Nat.dvd_of_mod_eq_zero hb
  rcases Nat.lt_trichotomy i j with h | h | h
  · exact .inl (Nat.mul_succ g i ▸ Nat.mul_le_mul_left g h)
  · exact absurd (h ▸ rfl) hne
  · exact .inr (Nat.mul_succ g j ▸ Nat.mul_le_mul_left g h)

variable (hp : L.passes s) (heb : L.eb = s.hart.eb ∧ L.widest = s.hart.eb)
include hp heb

/-- The bytes of an element that is yet to come are no bytes of an element committed. -/
theorem committedTo_later_byte {r : BitVec 5} (hr : r ∈ L.vd :: L.regs) {e j : Nat} (hk : k ≤ e) (he : e < s.hart.nel)
    (hj : j < s.hart.eb) : (committedTo L s k).vregs.get (r.toNat * s.capC s.hart + e * s.hart.eb + j) =
      s.hart.vregs.get (r.toNat * s.capC s.hart + e * s.hart.eb + j) := by
  obtain ⟨hgroups, hfits, -, -⟩ := hp
  obtain ⟨heb, hwidest⟩ := heb
  rw [hwidest] at hfits
  refine commitFrom_vregs_out fun i hi => ?_
  have hik : i < e := by
    obtain ⟨h1, h2, -⟩ := hi
    omega
  rw [heb]
  show _ < L.vd.toNat * s.capC s.hart + _ ∨ L.vd.toNat * s.capC s.hart + _ + _ ≤ _
  have hi : (i + 1) * s.hart.eb ≤ e * s.hart.eb := Nat.mul_le_mul_right _ hik
  have he : (e + 1) * s.hart.eb ≤ s.hart.nel * s.hart.eb := Nat.mul_le_mul_right _ he
  rw [Nat.succ_mul] at hi he
  by_cases hne : r.toNat = L.vd.toNat
  · rw [hne]
    omega
  · rcases group_apart (hgroups r hr).1 (hgroups L.vd (List.mem_cons_self ..)).1 hne with h | h
    · have := Nat.mul_le_mul_right (s.capC s.hart) h
      rw [Nat.add_mul] at this
      omega
    · have := Nat.mul_le_mul_right (s.capC s.hart) h
      rw [Nat.add_mul] at this
      omega

variable {f : VCtx → Nat → ElemRes} (hf : ReadsElements L s f) {x : VCtx} (hcap : x.cap = (Claims.reads s).cap)
  (hv : x.h.vtype = s.hart.vtype) (hx : SameOutside L.vd.toNat s.hart.grp x.h (committedTo L s k))
include hf hcap hv hx

omit heb hf hcap in
/-- An operand in another group than the destination's is as valid as it was. -/
theorem committedTo_regValid_ne {r : BitVec 5} (hr : r ∈ L.vd :: L.regs) (hne : r ≠ L.vd) (e : Nat) :
    x.regValid r e = (Claims.reads s).regValid r e := by
  obtain ⟨hgroups, -, -, -⟩ := hp
  have hne : r.toNat ≠ L.vd.toNat := fun h => hne (BitVec.eq_of_toNat_eq h)
  have hgrp : 0 < s.hart.grp := Nat.two_pow_pos _
  have hapart := group_apart (hgroups r hr).1 (hgroups L.vd (List.mem_cons_self ..)).1 hne
  refine VCtx.regValid_congr hv ?_ e
  rw [hx.masks _ (by omega)]
  exact commitFrom_masks_ne hne

omit heb hf hcap in
/-- The validity that a later element takes from its operands is what it was: a block of the destination that has been written is valid
when all that was taken into it was, of which the block itself is part where it is read. -/
theorem committedTo_allValid {V : List (BitVec 5)} (hV : ∀ r ∈ V, r ∈ L.vd :: L.regs)
    (hres : ∀ e, (L.res e).ok = V.all ((Claims.reads s).regValid · e)) (e : Nat) :
    V.all (x.regValid · e) = V.all ((Claims.reads s).regValid · e) := by
  have hother : ∀ r ∈ V, r ≠ L.vd → x.regValid r e = (Claims.reads s).regValid r e := fun r hr hne =>
    committedTo_regValid_ne hp hv hx (hV r hr) hne e
  have hsame : (x.regValid L.vd e = (Claims.reads s).regValid L.vd e) →
      V.all (x.regValid · e) = V.all ((Claims.reads s).regValid · e) := fun hvd => by
    refine Bool.eq_iff_iff.mpr ?_
    simp only [List.all_eq_true]
    refine forall₂_congr fun r hr => ?_
    by_cases hne : r = L.vd
    · rw [hne, hvd]
    · rw [hother r hr hne]
  have hblk : x.h.blk e = s.hart.blk e := blk_of_vtype hv e
  have hmask : x.h.masks.get L.vd.toNat = (committedTo L s k).masks.get L.vd.toNat := hx.masks _ (.inl (Nat.le_refl _))
  have hvd : x.regValid L.vd e = (committedTo L s k).valid L.vd.toNat (s.hart.blk e) := by
    rw [VCtx.regValid, hblk, Hart.valid, hmask, Hart.valid]
  by_cases hb : s.hart.blk e < 64
  · have hvalid := commitFrom_valid (x := Claims.reads s) (pg := L.pg) (vd := L.vd.toNat) (eb := L.eb) (f := L.res) hb
      (n := k - s.hart.vxi) (e := s.hart.vxi) (h := s.hart)
    by_cases hex : ∃ i, (Claims.reads s).commits L.pg s.hart.vxi (k - s.hart.vxi) i ∧ s.hart.blk i = s.hart.blk e
    · obtain ⟨i, hi, hib⟩ := hex
      have hok : ∀ i, s.hart.blk i = s.hart.blk e → (L.res i).ok = V.all ((Claims.reads s).regValid · e) := fun i hib => by
        rw [hres]
        exact congrArg V.all (funext fun r => congrArg (s.hart.valid r.toNat) hib)
      refine Bool.eq_iff_iff.mpr ⟨fun hall => ?_, fun hall => List.all_eq_true.mpr fun r hr => ?_⟩
      · by_cases hmem : L.vd ∈ V
        · rw [← hok i hib]
          exact (hvalid.mp (hvd ▸ List.all_eq_true.mp hall L.vd hmem)).1 i hi hib
        · refine List.all_eq_true.mpr fun r hr => ?_
          rw [← hother r hr fun h => hmem (h ▸ hr)]
          exact List.all_eq_true.mp hall r hr
      · by_cases hne : r = L.vd
        · subst hne
          rw [hvd]
          exact hvalid.mpr ⟨fun i _ hib => (hok i hib).trans hall, .inl (List.all_eq_true.mp hall L.vd hr)⟩
        · rw [hother r hr hne]
          exact List.all_eq_true.mp hall r hr
    · refine hsame ?_
      rw [hvd, Bool.eq_iff_iff]
      refine hvalid.trans ⟨fun ⟨_, h⟩ => h.resolve_right fun ⟨i, hi, hib, _⟩ => hex ⟨i, hi, hib⟩,
        fun h => ⟨fun i hi hib => absurd ⟨i, hi, hib⟩ hex, .inl h⟩⟩
  · refine hsame ?_
    rw [hvd]
    exact (BitVec.getLsbD_of_ge _ _ (Nat.le_of_not_lt hb)).trans (BitVec.getLsbD_of_ge _ _ (Nat.le_of_not_lt hb)).symm

/-- So the later elements give the results that the lane says, on the registers that the earlier ones have left. -/
theorem committedTo_res_later {e : Nat} (hk : k ≤ e) (he : e < s.hart.nel) : f x e = L.res e := by
  obtain ⟨V, hV, hok, hres⟩ := hf.validity
  obtain ⟨hval, hfl⟩ := hf.computes x e hv fun r hr => VCtx.elem_congr hcap hv fun j hj => by
    rw [hx.vregs]
    exact committedTo_later_byte hp heb hr hk he hj
  have hvalid : (f x e).ok = (L.res e).ok := by rw [hok x e hv, hres, committedTo_allValid hp hv hx hV hres]
  cases hfx : f x e
  cases hlx : L.res e
  simp_all

/-- Committed up to element `n` from where another run has stopped, the lane has written what one run writes. -/
theorem committedTo_resumed (hpreds : x.h.preds = s.hart.preds) (hskipped : x.h.skipped = s.hart.skipped) {n : Nat} (hlow : s.hart.vxi ≤ k)
    (hkn : k ≤ n ∨ k = s.hart.vxi) (hn : n ≤ s.hart.nel) : SameOutside L.vd.toNat s.hart.grp
      (commitFrom x L.pg L.vd.toNat L.eb (f x) (n - k) k x.h) (committedTo L s n) := by
  have hsplit : committedTo L s n = commitFrom (Claims.reads s) L.pg L.vd.toNat L.eb L.res (n - k) k (committedTo L s k) := by
    rw [committedTo, show n - s.hart.vxi = (k - s.hart.vxi) + (n - k) by omega, commitFrom_add, Nat.add_sub_cancel' hlow]
    rfl
  rw [hsplit, commitFrom_congr (y := Claims.reads s) (g := L.res) ⟨hcap, hv, hpreds, hskipped⟩ fun i h1 h2 =>
    committedTo_res_later hp heb hf hcap hv hx h1 (by omega)]
  exact hx.commitFrom
end

/-! ## The state of an instruction on its way -/

/-- The state `t` of an instruction of lane `L` that began in `s` and has committed the elements below `k`, where VXI stands. -/
structure Partway (L : Lane) (s : State) (k : Nat) (t : State) : Prop where
  others : t = { s with hart := t.hart, freeCtr := t.freeCtr }
  hart : t.hart = { joined L.unit L.c s.hart with
    vregs := t.hart.vregs, masks := t.hart.masks, vfflags := t.hart.vfflags, vxi := t.hart.vxi }
  committed : SameOutside L.vd.toNat s.hart.grp t.hart (committedTo L s k)

theorem begun_partway (L : Lane) (s : State) : Partway L s s.hart.vxi (begun L s) := by
  refine ⟨rfl, rfl, ?_⟩
  rw [committedTo, Nat.sub_self]
  exact ⟨rfl, rfl, fun _ _ => rfl⟩

section
variable {L : Lane} {s t u : State} {k n : Nat}

/-- Where VXI stands, no element below it is written, so what an interrupted run has written is what its commits have. -/
theorem upto_wrote_vxi (hL : L.whole = false) (hu : SameOutside L.vd.toNat s.hart.grp u.hart s.hart) : (L.upto s.hart.vxi).Wrote s u := by
  have hno : ∀ e, ¬ (L.upto s.hart.vxi).acts s.hart e := fun e he => by
    simp [Lane.acts, Lane.upto, hL] at he
    omega
  refine ⟨fun e he => absurd he (hno e), fun a _ => by rw [hu.vregs], fun j => ?_, fun b _ _ => ?_, fun e he => absurd he (hno e),
    fun v hv => ?_⟩
  · rw [hu.vfflags]
    exact ⟨.inl, fun h => h.resolve_right fun ⟨e, he, _⟩ => hno e he⟩
  · exact congrArg (·.getLsbD b) (hu.masks _ (.inl (Nat.le_refl _)))
  · exact hu.masks v (hv.imp_left Nat.le_of_lt)

theorem upto_wrote_of_sameOutside (hL : L.whole = false ∧ L.writes = fun _ => true) (ht : SameOutside L.vd.toNat s.hart.grp u.hart (committedTo L s k))
    (hlow : s.hart.vxi ≤ k) (hhigh : k < s.hart.nel) : (L.upto k).Wrote s u := by
  rcases Nat.lt_or_eq_of_le hlow with hlow | rfl
  · exact upto_wrote hL.1 hL.2 hlow hhigh ht.vregs ht.vfflags ht.masks
  · rw [committedTo, Nat.sub_self] at ht
    exact upto_wrote_vxi hL.1 ht

variable {f : VCtx → Nat → ElemRes} (hp : L.passes s) (heb : L.eb = s.hart.eb ∧ L.widest = s.hart.eb) (hf : ReadsElements L s f)
include hp heb hf

/-- The body goes on from there up to element `n`, and neither traps nor stops. -/
theorem Partway.body_run (ht : Partway L s k t) (hk : t.hart.vxi = k) (hlow : s.hart.vxi ≤ k) (hkn : k ≤ n ∨ k = s.hart.vxi)
    (hn : n ≤ s.hart.nel) :
    ∃ u, (lanewiseBody L.pg L.vd L.eb f n).run t = .ok () u ∧ Partway L s n u ∧ u.hart.vxi = k := by
  obtain ⟨hothers, hhart, hsame⟩ := ht
  obtain ⟨c, m, hrun, hm⟩ := lanewiseBody_run L.pg L.vd L.eb f n t
  have hcap : (Claims.reads t).cap = (Claims.reads s).cap := by
    rw [hothers, hhart]
    rfl
  have hgrp : t.hart.grp = s.hart.grp := by
    rw [hhart]
    rfl
  have hdone := committedTo_resumed hp heb hf hcap (x := Claims.reads t) (by rw [Claims.reads, hhart]; rfl) hsame
    (by rw [Claims.reads, hhart]; rfl) (by rw [Claims.reads, hhart]; rfl) hlow hkn hn
  rw [hgrp] at hm
  rw [hk] at hrun hm
  have hframe := commitFrom_eq (x := Claims.reads t) (pg := L.pg) (vd := L.vd.toNat) (eb := L.eb) (f := f (Claims.reads t)) (n := n - k)
    (e := k) (h := t.hart)
  change SameOutside _ _ (commitFrom (Claims.reads t) L.pg L.vd.toNat L.eb (f (Claims.reads t)) (n - k) k t.hart) _ at hdone
  generalize commitFrom (Claims.reads t) L.pg L.vd.toNat L.eb (f (Claims.reads t)) (n - k) k t.hart = g at *
  refine ⟨_, hrun, ⟨?_, ?_, ⟨hdone.vregs, hdone.vfflags, fun v hv => (hm v hv).trans (hdone.masks v hv)⟩⟩, ?_⟩
  · rw [hothers]
  · rw [hframe, hhart]
  · rw [hframe]
    exact hk
end

end Sys2Proof.Machine
end

section
/-!
SUPPORT. The Weevil lane's check of an instruction whose positions commit one by one (R189 to R192): what becomes of each mismatch that
it meets.
-/

namespace Sys2Proof.Machine
open Sys2Proof.Claims

/-! ## Operations that always answer -/

/-- The operation never waits for an answer of another package. -/
def Op.Answers {α : Type} (x : Op α) : Prop := ∀ s r t, x.run s ≠ .error (.hold r) t

theorem Op.Answers.bind {α β : Type} {x : Op α} {f : α → Op β} (hx : x.Answers) (hf : ∀ a, (f a).Answers) : (x >>= f).Answers := by
  intro s r t h
  rw [Op.run_bind] at h
  split at h
  next a u hxu => exact hf a u r t h
  next e u hxu =>
    cases h
    exact hx s r t hxu

theorem Op.Answers.ite {α : Type} {c : Prop} [Decidable c] {x y : Op α} (hx : x.Answers) (hy : y.Answers) :
    (if c then x else y).Answers := by
  split
  · exact hx
  · exact hy

theorem Op.answers_get : (get : Op State).Answers := fun _ _ _ h => by cases h
theorem Op.answers_set (t : State) : (set t : Op PUnit).Answers := fun _ _ _ h => by cases h
theorem Op.answers_modify (f : State → State) : (modify f : Op PUnit).Answers := fun _ _ _ h => by cases h
theorem Op.answers_modH (f : Hart → Hart) : (modH f).Answers := fun _ _ _ h => by cases h
theorem Op.answers_raise {α : Type} (t : Trap) : (raise t : Op α).Answers := fun _ _ _ h => by cases h
theorem Op.answers_wait {α : Type} : (throw .wait : Op α).Answers := fun _ _ _ h => by cases h
theorem Op.answers_preempt {α : Type} (pc : Word) (k : Nat) : (throw (.preempt pc k) : Op α).Answers := fun _ _ _ h => by cases h

theorem coreOut_answers (pc : Word) (k : Nat) : (coreOut pc k).Answers := by
  refine Op.answers_get.bind fun s => (Op.answers_set _).bind fun _ => ?_
  exact Op.Answers.ite ((Op.answers_modify _).bind fun _ => Op.answers_wait) (Op.Answers.ite (Op.answers_modH _) (Op.answers_preempt _ _))

/-- Where two operations that answer give the same, they have the same outcome. -/
theorem finish_congr {x y : Op Unit} {s t : State} (h : x.run s = y.run t) (hy : y.Answers) : finish x s = finish y t := by
  unfold finish
  rw [h]
  split <;> try rfl
  next r u hr => exact absurd hr (hy t r u)

/-! ## The lane-health word of a hart (Table 09-2) -/

theorem lane_laneSet (s : State) (v : Word) (us : List Upset) : (laneSet s v us).lane s.hart.id = v := by
  simp [laneSet, State.lane, State.setLane, Tab.get?_put_self]

theorem lane_setLane_ne {s : State} {v : Word} {i j : Nat} (h : j ≠ i) : (s.setLane i v).lane j = s.lane j := by
  simp [State.lane, State.setLane, Tab.get?_put_ne _ _ _ _ h]

theorem setLane_setLane (s : State) (i : Nat) (v w : Word) : (s.setLane i v).setLane i w = s.setLane i w := by
  simp [State.setLane, Tab.put_put]

theorem isOff_laneOff (v : Word) : isOff (laneOff v) = true := by
  simp [isOff, laneOff, bitAt]

/-- Has the cluster another core in service? -/
theorem anyInService_iff (s : State) : s.anyInService s.hart = true ↔
    ∃ k, k < 4 ∧ 4 * (s.hart.id / 4) + k ≠ s.hart.id ∧ isOff (s.lane (4 * (s.hart.id / 4) + k)) = false := by
  simp only [State.anyInService, Hart.cluster, List.any_eq_true, List.mem_range, Bool.and_eq_true, Bool.not_eq_true']
  exact exists_congr fun k => and_congr_right fun _ => and_congr_left' decide_eq_true_iff

/-! ## A core that goes out of service (R192) -/

section
variable {s : State} {pc : Word} {k : Nat}

theorem coreOut_preempts (hany : s.anyInService s.hart = true) (hm : s.hart.mode = .u) :
    (coreOut pc k).run s = .error (.preempt pc k) (s.setLane s.hart.id (laneOff (s.lane s.hart.id))) := by
  refine Op.bind_ok (Op.run_get s) (Op.bind_ok (Op.run_set _ s) ?_)
  rw [hany, hm]
  rfl

theorem coreOut_asks (hany : s.anyInService s.hart = true) (hm : s.hart.mode = .m) : (coreOut pc k).run s =
    .ok () { s.setLane s.hart.id (laneOff (s.lane s.hart.id)) with hart := s.hart.requestAt s.time } := by
  refine Op.bind_ok (Op.run_get s) (Op.bind_ok (Op.run_set _ s) ?_)
  rw [hany, hm]
  rfl

theorem coreOut_ends (hany : s.anyInService s.hart = false) : (coreOut pc k).run s =
    .error .wait (endOwnLaunch 29 (s.setLane s.hart.id (laneOff (s.lane s.hart.id)))) := by
  refine Op.bind_ok (Op.run_get s) (Op.bind_ok (Op.run_set _ s) ?_)
  rw [hany]
  rfl
end

/-! ## One mismatch -/

/-- The operation raises no trap. -/
def Op.Trapless (x : Op Unit) : Prop := ∀ m s, trapsBy x m s = false

theorem endsBelow_one (n k : Nat) (body : Nat → Op Unit) (s : State) : endsBelow 1 n k body s = false := by
  unfold endsBelow
  split <;> rfl

theorem stopPos_one (e : Nat) : stopPos 1 e = e := by simp [stopPos]

section
variable {n low fuel : Nat} {pc : Word} {body : Nat → Op Unit} {run : Op Unit} {s : State} {u : Upset}

theorem weevil_answers (hbody : ∀ k, (body k).Answers) (hrun : run.Answers) : (weevil 1 n pc body run fuel low).Answers := by
  induction fuel generalizing low with
  | zero => exact hrun
  | succ fuel ih =>
    refine Op.answers_get.bind fun s => ?_
    dsimp only
    split
    · exact hrun
    · refine Op.Answers.ite hrun ((Op.answers_modH _).bind fun _ => Op.Answers.ite hrun (Op.Answers.ite ?_
        (Op.Answers.ite ((Op.answers_modify _).bind fun _ => ih) ((Op.answers_modify _).bind fun _ => ?_))))
      · exact (Op.answers_modify _).bind fun _ => (hbody _).bind fun _ => (Op.answers_modH _).bind fun _ =>
          (coreOut_answers _ _).bind fun _ => hrun
      · exact Op.Answers.ite ((hbody _).bind fun _ => Op.answers_raise _) ih

theorem weevil_meets_none (h : nextUpset s.hart (hasRemap (s.lane s.hart.id)) low n = none) :
    (weevil 1 n pc body run fuel low).run s = run.run s := by
  cases fuel with
  | zero => rfl
  | succ fuel =>
    refine Op.bind_ok (Op.run_get s) ?_
    simp only [h]

section
variable (hrun : run.Trapless)
include hrun

/-- A transient mismatch counts (R190). -/
theorem weevil_meets_transient (hr : hasRemap (s.lane s.hart.id) = false) (hu : nextUpset s.hart false low n = some u)
    (hp : u.persistent = false) :
    (weevil 1 n pc body run (fuel + 1) low).run s =
      (weevil 1 n pc body run fuel (u.elem + 1)).run (laneSet s (laneTransient (s.lane s.hart.id)) s.hart.upsets.tail) := by
  refine Op.bind_ok (Op.run_get s) ?_
  simp only [hu, endsBelow_one, hrun _ _, hr, hp, Bool.false_eq_true, if_false, Bool.not_false, if_true]
  exact Op.bind_ok (Op.run_modH _ s) (Op.bind_ok (Op.run_modify _ _) rfl)

/-- A persistent one counts and remaps the lane (R191). -/
theorem weevil_meets_persistent (hr : hasRemap (s.lane s.hart.id) = false) (hu : nextUpset s.hart false low n = some u)
    (hp : u.persistent = true) (hf : s.flag s.hart 3 = false) :
    (weevil 1 n pc body run (fuel + 1) low).run s = (weevil 1 n pc body run fuel (u.elem + 1)).run
      (laneSet s (laneRemap (lanePersistent (s.lane s.hart.id)) s.hart.rotation.toNat) s.hart.upsets.tail) := by
  refine Op.bind_ok (Op.run_get s) ?_
  simp only [hu, endsBelow_one, hrun _ _, hr, hp, hf, Bool.false_eq_true, if_false, Bool.not_true]
  exact Op.bind_ok (Op.run_modH _ s) (Op.bind_ok (Op.run_modify _ _) rfl)

/-- With LCTRAP it traps at its element (R191). -/
theorem weevil_meets_trapping {t : State} (hr : hasRemap (s.lane s.hart.id) = false) (hu : nextUpset s.hart false low n = some u)
    (hp : u.persistent = true) (hf : s.flag s.hart 3 = true)
    (hbody : (body u.elem).run (laneSet s (laneRemap (lanePersistent (s.lane s.hart.id)) s.hart.rotation.toNat) s.hart.upsets.tail) =
      .ok () t) : (weevil 1 n pc body run (fuel + 1) low).run s =
        .error (.trap { cause := 29, elem := u.elem, sub := 1, unit := 1, lane := s.hart.rotation.toNat }) t := by
  refine Op.bind_ok (Op.run_get s) ?_
  simp only [hu, endsBelow_one, hrun _ _, hr, hp, hf, stopPos_one, Bool.false_eq_true, if_false, if_true, Bool.not_true]
  exact Op.bind_ok (Op.run_modH _ s) (Op.bind_ok (Op.run_modify _ _) (Op.bind_ok hbody rfl))

/-- On a remapped lane the core goes out of service there (R192). -/
theorem weevil_meets_second {t : State} (hr : hasRemap (s.lane s.hart.id) = true) (hu : nextUpset s.hart true low n = some u)
    (hbody : (body u.elem).run (laneSet s (lanePersistent (s.lane s.hart.id)) s.hart.upsets.tail) = .ok () t) :
    (weevil 1 n pc body run (fuel + 1) low).run s =
      (do coreOut pc u.elem; run : Op Unit).run { t with hart := { t.hart with vxi := u.elem } } := by
  refine Op.bind_ok (Op.run_get s) ?_
  simp only [hu, endsBelow_one, hrun _ _, hr, stopPos_one, Bool.false_eq_true, if_false, if_true, one_ne_zero, ne_eq, not_false_eq_true]
  exact Op.bind_ok (Op.run_modH _ s) (Op.bind_ok (Op.run_modify _ _) (Op.bind_ok hbody (Op.bind_ok (Op.run_modH _ t) rfl)))
end

/-- Where the search for the next mismatch begins counts only against the element of that one. -/
theorem weevil_low {low' : Nat} (h : ∀ w ∈ s.hart.upsets.head?, w.elem < low ↔ w.elem < low') :
    (weevil 1 n pc body run fuel low).run s = (weevil 1 n pc body run fuel low').run s := by
  cases fuel with
  | zero => rfl
  | succ fuel =>
    have hnext : ∀ b, nextUpset s.hart b low n = nextUpset s.hart b low' n := fun b => by
      unfold nextUpset
      cases hup : s.hart.upsets with
      | nil => rfl
      | cons w ws => simp only [h w (by rw [hup]; rfl)]
    refine Op.bind_ok (Op.run_get s) (Eq.symm (Op.bind_ok (Op.run_get s) ?_))
    simp only [hnext]
end

end Sys2Proof.Machine
end

section
/-!
SUPPORT. An element-wise instruction of VINT or VFLT whose checks pass, whatever mismatches are to come: how it runs up to the one that it
meets, and what it leaves at its end.
-/

namespace Sys2Proof.Machine
open Sys2Proof.Claims

theorem Op.bind_congr {α β : Type} {x y : Op α} {f : α → Op β} {s t : State} (h : x.run s = y.run t) :
    (x >>= f).run s = (y >>= f).run t := by rw [Op.run_bind, h, Op.run_bind]

theorem lanewiseBody_answers (pg : BitVec 3) (vd : BitVec 5) (eb : Nat) (f : VCtx → Nat → ElemRes) (n : Nat) :
    (lanewiseBody pg vd eb f n).Answers := by
  intro s r t h
  obtain ⟨k, m, hrun, -⟩ := lanewiseBody_run pg vd eb f n s
  cases hrun.symm.trans h

theorem lanewiseBody_trapless (pg : BitVec 3) (vd : BitVec 5) (eb : Nat) (f : VCtx → Nat → ElemRes) (n : Nat) :
    (lanewiseBody pg vd eb f n).Trapless := by
  intro m s
  obtain ⟨k, m, hrun, -⟩ := lanewiseBody_run pg vd eb f n s
  simp only [trapsBy, hrun]

/-- What lane `L` does once its checks have passed, with `fuel` mismatches at most. -/
def checkedLane (L : Lane) (f : VCtx → Nat → ElemRes) (s : State) (fuel : Nat) : Op Unit :=
  weevil 1 s.hart.nel s.hart.pc (lanewiseBody L.pg L.vd L.eb f) (lanewiseBody L.pg L.vd L.eb f s.hart.nel) fuel s.hart.vxi

/-- And the instruction's end. -/
def laneRun (L : Lane) (f : VCtx → Nat → ElemRes) (s : State) (fuel : Nat) : Op Unit := do
  checkedLane L f s fuel
  modH (Hart.vectorDone L.unit)
  advance 4

theorem laneRun_answers (L : Lane) (f : VCtx → Nat → ElemRes) (s : State) (fuel : Nat) : (laneRun L f s fuel).Answers :=
  (weevil_answers (fun n => lanewiseBody_answers L.pg L.vd L.eb f n) (lanewiseBody_answers L.pg L.vd L.eb f s.hart.nel)).bind fun _ =>
    (Op.answers_modH _).bind fun _ => Op.answers_modH _

theorem finish_laneRun {L : Lane} {f : VCtx → Nat → ElemRes} {s t u : State} {fuel : Nat} (h : (checkedLane L f s fuel).run t = .ok () u) :
    finish (laneRun L f s fuel) t = .next (State.retire { u with hart := past (u.hart.vectorDone L.unit) }) :=
  finish_ok (Op.bind_ok h (Op.bind_ok (Op.run_modH _ u) (advance_past _)))

section
variable {L : Lane} {s : State} {i : Instr} {suits : Hart → Bool} {f : VCtx → Nat → ElemRes} (hr : RunsLane L s i suits f) (hp : L.passes s)
include hr hp

/-- Once the checks have passed, the instruction runs as `vecRun` says. -/
theorem RunsLane.checks_pass (us : List Upset) (st : StatusBlock) : ∃ x, exec i (disturbed us st s) = dispatch x (disturbed us st s) ∧
    x.run (disturbed us st s) = (vecRun L.unit 1 s.hart.nel s.hart.pc (lanewiseBody L.pg L.vd L.eb f)).run (begun L (disturbed us st s)) := by
  obtain ⟨x, hexec, hrun⟩ := hr.runs us st
  obtain ⟨hgroups, hfits, -, hjoins⟩ := hp
  refine ⟨x, hexec, hrun.trans ((congrArg (·.run (disturbed us st s)) (lanewise_eq ..)).trans ?_)⟩
  exact Op.bind_ok (vecChecks_passes ⟨hgroups, hfits, hr.suitable _ rfl, hjoins⟩) (Op.bind_ok (Op.run_getH _) rfl)

theorem RunsLane.exec_disturbed (hunit : L.unit ≠ .pred) (hst : s.hart.stopAt = none) (us : List Upset) (st : StatusBlock) :
    exec i (disturbed us st s) = finish (laneRun L f s us.length) (begun L (disturbed us st s)) := by
  obtain ⟨x, hexec, hrun⟩ := hr.checks_pass hp us st
  rw [hexec]
  refine finish_congr ?_ (laneRun_answers L f s us.length)
  have hvec : (vecRun L.unit 1 s.hart.nel s.hart.pc (lanewiseBody L.pg L.vd L.eb f)).run (begun L (disturbed us st s)) =
      (do checkedLane L f s us.length; modH (Hart.vectorDone L.unit) : Op Unit).run (begun L (disturbed us st s)) := by
    have hnone : (begun L (disturbed us st s)).hart.stopAt = none := hst
    refine Op.bind_ok (Op.run_get _) ?_
    simp only [hnone, ite_self]
    refine Op.bind_congr (Op.bind_ok (Op.run_getH _) ?_)
    rw [if_neg hunit]
    rfl
  refine (Op.bind_congr (hrun.trans hvec)).trans ?_
  simp only [laneRun, bind_assoc]

end

/-! ## An instruction to its end -/

/-- What reads the elements of a state reads those of the state with other mismatches to come. -/
theorem ReadsElements.disturbed {L : Lane} {s : State} {f : VCtx → Nat → ElemRes} (hf : ReadsElements L s f) (us : List Upset)
    (st : StatusBlock) : ReadsElements L (disturbed us st s) f := ⟨hf.computes, hf.validity⟩

/-- The hart at the end of a lane's instruction, behind it. -/
def laneEnd (h : Hart) : Hart := past { h with vxi := 0, skipped := [], rotation := h.rotation + 1 }

theorem Partway.left {L : Lane} {b u : State} (hL : L.whole = false ∧ L.writes = fun _ => true) (hunit : L.unit ≠ .pred)
    (hst : b.hart.stopAt = none) (hu : Partway L b b.hart.nel u) :
    L.Left b (State.retire { u with hart := past (u.hart.vectorDone L.unit) }) := by
  obtain ⟨hothers, hhart, hsame⟩ := hu
  have hdone : past (u.hart.vectorDone L.unit) = laneEnd u.hart := by
    rw [Hart.vectorDone_eq (by rw [hhart]; exact hst) hunit, laneEnd]
  rw [hdone]
  have hmasks : ∀ v, (laneEnd u.hart).retire.masks.get v = u.hart.masks.get v := fun v => congrArg (·.get v) (Hart.retire_masks _)
  have hwrote : L.Wrote b (State.retire { u with hart := laneEnd u.hart }) :=
    wrote_of_committed hL ((Hart.retire_vregs _).trans hsame.vregs) ((Hart.retire_vfflags _).trans hsame.vfflags) fun v hv =>
      (hmasks v).trans (hsame.masks v hv)
  refine ⟨?_, ?_, hwrote⟩
  · rw [hothers]
    rfl
  · simp only [State.retire, Hart.retire_vregs, Hart.retire_masks, Hart.retire_vfflags]
    exact congrArg (fun h => (laneEnd h).retire) hhart

/-! ## What the lane meets -/

/-- The lane checks this mismatch: it is in a column, in the range, and on a lane of this state. -/
theorem nextUpset_eq_some {h : Hart} {u : Upset} {us : List Upset} {b : Bool} {low n : Nat} (hup : h.upsets = u :: us)
    (hcol : u.column = false) (hlow : low ≤ u.elem) (hn : u.elem < n)
    (hb : b = true ∧ u.persistent = true ∨ b = false ∧ h.vl ≠ 0 ∧ (u.elem % h.vl) % 32 = h.rotation.toNat) :
    nextUpset h b low n = some u := by
  have hin : ¬ (u.column = true ∨ u.elem < low ∨ n ≤ u.elem) := by simp [hcol]; omega
  simp only [nextUpset, hup, if_neg hin]
  rcases hb with ⟨rfl, hp⟩ | ⟨rfl, hmeets⟩
  · rw [hp]
    rfl
  · rw [if_neg Bool.false_ne_true, if_pos hmeets]

theorem nextUpset_eq_none {h : Hart} {u : Upset} {us : List Upset} {b : Bool} {low n : Nat} (hup : h.upsets = u :: us)
    (hout : u.column = true ∨ u.elem < low ∨ n ≤ u.elem ∨ (b = true ∧ u.persistent = false) ∨
      (b = false ∧ h.vl ≠ 0 ∧ (u.elem % h.vl) % 32 ≠ h.rotation.toNat)) : nextUpset h b low n = none := by
  simp only [nextUpset, hup]
  rcases hout with hc | hc | hc | ⟨rfl, hp⟩ | ⟨rfl, -, hm⟩
  · simp [hc]
  · simp [hc]
  · simp [hc]
  · simp [hp]
  · simp [hm]

theorem nextUpset_nil {h : Hart} (hup : h.upsets = []) (b : Bool) (low n : Nat) : nextUpset h b low n = none := by
  simp only [nextUpset, hup]

section
variable {L : Lane} {s : State} {i : Instr} {suits : Hart → Bool} {f : VCtx → Nat → ElemRes} (hr : RunsLane L s i suits f) (hp : L.passes s)
include hr hp

/-- From where it begins, whatever mismatches are to come, the body runs up to element `n`. -/
theorem RunsLane.body_run (us : List Upset) (st : StatusBlock) {n : Nat} (hn : n ≤ s.hart.nel) :
    ∃ u, (lanewiseBody L.pg L.vd L.eb f n).run (begun L (disturbed us st s)) = .ok () u ∧ Partway L (disturbed us st s) n u ∧
      u.hart.vxi = s.hart.vxi :=
  (begun_partway L (disturbed us st s)).body_run hp hr.sizes (hr.reads.disturbed us st) rfl (Nat.le_refl _) (.inr rfl) hn

variable (hunit : L.unit ≠ .pred) (hst : s.hart.stopAt = none)
include hunit hst

/-- Where the lane meets no mismatch, the instruction goes on to its end. -/
theorem RunsLane.completes (us : List Upset) (st : StatusBlock) (hnone : nextUpset (disturbed us st s).hart
      (hasRemap ((disturbed us st s).lane s.hart.id)) s.hart.vxi s.hart.nel = none) :
    ∃ t, exec i (disturbed us st s) = .next t ∧ L.Left (disturbed us st s) t := by
  obtain ⟨u, hrun, hu, -⟩ := hr.body_run hp us st (Nat.le_refl _)
  have hchecked : (checkedLane L f s us.length).run (begun L (disturbed us st s)) = .ok () u :=
    (weevil_meets_none (s := begun L (disturbed us st s)) hnone).trans hrun
  exact ⟨_, (hr.exec_disturbed hp hunit hst us st).trans (finish_laneRun hchecked), hu.left hr.isElementwise hunit hst⟩

/-- After a mismatch that only counts, the instruction does what it does where that has counted already. -/
theorem RunsLane.exec_counted {u : Upset} {us : List Upset} {v : Word} (hup : s.hart.upsets = u :: us) (hlow : s.hart.vxi ≤ u.elem)
    (hnext : ∀ w ∈ us.head?, u.elem < w.elem)
    (hmeets : (checkedLane L f s (us.length + 1)).run (begun L s) = (weevil 1 s.hart.nel s.hart.pc (lanewiseBody L.pg L.vd L.eb f)
      (lanewiseBody L.pg L.vd L.eb f s.hart.nel) us.length (u.elem + 1)).run (begun L (laneSet s v us))) :
    exec i s = exec i (laneSet s v us) := by
  have hself : disturbed s.hart.upsets s.status s = s := rfl
  have hset : laneSet s v us = disturbed us (s.setLane s.hart.id v).status s := rfl
  have hleft := hr.exec_disturbed hp hunit hst s.hart.upsets s.status
  rw [hself, hup, List.length_cons] at hleft
  rw [hleft, hset, hr.exec_disturbed hp hunit hst, ← hset]
  refine finish_congr (Op.bind_congr (hmeets.trans ?_)) (laneRun_answers L f s us.length)
  refine weevil_low fun w hw => ?_
  have hlt := hnext w hw
  omega
end

/-! ## A mismatch that counts (R190, R191) -/

section
variable {L : Lane} {s : State} {i : Instr} {suits : Hart → Bool} {f : VCtx → Nat → ElemRes} (hr : RunsLane L s i suits f) (hp : L.passes s)
  (hunit : L.unit ≠ .pred) (hst : s.hart.stopAt = none) {u : Upset} {us : List Upset} (hup : s.hart.upsets = u :: us)

include hup in
/-- An instruction meets the next mismatch where that falls into it, up to element `n` at least. -/
theorem nextUpset_of_meetsLane (hm : meetsLane s u) {n : Nat} (hn : u.elem < n) : nextUpset (begun L s).hart false s.hart.vxi n = some u := by
  obtain ⟨hcol, hlow, -, hvl, hlane⟩ := hm
  exact nextUpset_eq_some hup hcol hlow hn (.inr ⟨rfl, hvl, hlane⟩)

theorem lt_nel_of_meetsLane (hm : meetsLane s u) : u.elem < s.hart.nel := hm.2.2.1

include hup in
theorem begun_tail (L : Lane) : (begun L s).hart.upsets.tail = us := congrArg List.tail hup

section
include hr hp hunit hst hup

theorem RunsLane.exec_transient (hm : meetsLane s u) (hr49 : bitAt (s.lane s.hart.id) 49 = false) (hnext : ∀ w ∈ us.head?, u.elem < w.elem)
    (ht : u.persistent = false) : exec i s = exec i (laneSet s (laneTransient (s.lane s.hart.id)) us) := by
  refine hr.exec_counted hp hunit hst hup hm.2.1 hnext ?_
  have hmet := weevil_meets_transient (s := begun L s) (pc := s.hart.pc) (fuel := us.length) (body := lanewiseBody L.pg L.vd L.eb f)
    (lanewiseBody_trapless L.pg L.vd L.eb f s.hart.nel) hr49 (nextUpset_of_meetsLane hup hm (lt_nel_of_meetsLane hm)) ht
  rw [begun_tail hup] at hmet
  exact hmet

theorem RunsLane.exec_persistent (hm : meetsLane s u) (hr49 : bitAt (s.lane s.hart.id) 49 = false)
    (hnext : ∀ w ∈ us.head?, u.elem < w.elem) (ht : u.persistent = true) (hflag : s.flag s.hart 3 = false) :
    exec i s = exec i (laneSet s (laneRemap (lanePersistent (s.lane s.hart.id)) s.hart.rotation.toNat) us) := by
  refine hr.exec_counted hp hunit hst hup hm.2.1 hnext ?_
  have hmet := weevil_meets_persistent (s := begun L s) (pc := s.hart.pc) (fuel := us.length) (body := lanewiseBody L.pg L.vd L.eb f)
    (lanewiseBody_trapless L.pg L.vd L.eb f s.hart.nel) hr49 (nextUpset_of_meetsLane hup hm (lt_nel_of_meetsLane hm)) ht hflag
  rw [begun_tail hup] at hmet
  exact hmet

/-- With LCTRAP the persistent one traps, the elements below it committed (R191). -/
theorem RunsLane.exec_trapping (hm : meetsLane s u) (hr49 : bitAt (s.lane s.hart.id) 49 = false) (ht : u.persistent = true)
    (hflag : s.flag s.hart 3 = true) : ∃ t, (L.upto u.elem).Wrote s t ∧
      t = { (laneSet s (laneRemap (lanePersistent (s.lane s.hart.id)) s.hart.rotation.toNat) us) with hart := t.hart, freeCtr := t.freeCtr } ∧
      t.hart.upsets = us ∧
      exec i s = .next (deliver { cause := 29, elem := u.elem, sub := 1, unit := 1, lane := s.hart.rotation.toNat } t) := by
  let v := laneRemap (lanePersistent (s.lane s.hart.id)) s.hart.rotation.toNat
  obtain ⟨t, hrun, hu, -⟩ := hr.body_run hp us (laneSet s v us).status (Nat.le_of_lt (lt_nel_of_meetsLane hm))
  have hmet := weevil_meets_trapping (s := begun L s) (pc := s.hart.pc) (fuel := us.length) (body := lanewiseBody L.pg L.vd L.eb f) (t := t)
    (lanewiseBody_trapless L.pg L.vd L.eb f s.hart.nel) hr49 (nextUpset_of_meetsLane hup hm (lt_nel_of_meetsLane hm)) ht hflag (by
      rw [begun_tail hup]
      exact hrun)
  have hexec := hr.exec_disturbed hp hunit hst s.hart.upsets s.status
  rw [hup, List.length_cons] at hexec
  have hwrote : (L.upto u.elem).Wrote (laneSet s v us) t :=
    upto_wrote_of_sameOutside hr.isElementwise hu.committed hm.2.1 (lt_nel_of_meetsLane hm)
  refine ⟨t, hwrote, hu.others, ?_, ?_⟩
  · rw [hu.hart]
    rfl
  · rw [← hup] at hexec
    exact hexec.trans (finish_trap (Op.bind_error hmet))
end
end

/-! ## A second persistent mismatch (R192) -/

/-- States that differ in nothing that a lane commits from or to: what it commits is the same. -/
theorem committedTo_same {L : Lane} {a b : State} (h : (Claims.reads a).CommitsAs (Claims.reads b)) (hvxi : a.hart.vxi = b.hart.vxi)
    (hvregs : a.hart.vregs = b.hart.vregs) (hfl : a.hart.vfflags = b.hart.vfflags) (hm : a.hart.masks = b.hart.masks) (grp k : Nat) :
    SameOutside L.vd.toNat grp (committedTo L a k) (committedTo L b k) := by
  rw [committedTo, committedTo, hvxi, commitFrom_congr h fun _ _ _ => rfl]
  exact SameOutside.commitFrom ⟨hvregs, hfl, fun _ _ => by rw [hm]⟩

theorem SameOutside.trans {vd grp : Nat} {g h k : Hart} (h1 : SameOutside vd grp g h) (h2 : SameOutside vd grp h k) :
    SameOutside vd grp g k :=
  ⟨h1.vregs.trans h2.vregs, h1.vfflags.trans h2.vfflags, fun v hv => (h1.masks v hv).trans (h2.masks v hv)⟩

section
variable {L : Lane} {s t : State} {k : Nat}

/-- VXI does not count in what an instruction has committed on its way. -/
theorem Partway.withVxi (h : Partway L s k t) (x : Nat) : Partway L s k { t with hart := { t.hart with vxi := x } } := by
  obtain ⟨hothers, hhart, hsame⟩ := h
  refine ⟨?_, ?_, ⟨hsame.vregs, hsame.vfflags, hsame.masks⟩⟩
  · rw [hothers]
  · exact congrArg (fun h : Hart => { h with vxi := x }) hhart

/-- The state of an instruction on its way, its own part apart. -/
theorem Partway.shape (h : Partway L s k t) : ∃ c r m fl x, t = { s with freeCtr := c, hart := { joined L.unit L.c s.hart with
    vregs := r, masks := m, vfflags := fl, vxi := x } } := by
  obtain ⟨hothers, hhart, -⟩ := h
  refine ⟨t.freeCtr, t.hart.vregs, t.hart.masks, t.hart.vfflags, t.hart.vxi, ?_⟩
  rw [← hhart]
  exact hothers

theorem Partway.id_eq (h : Partway L s k t) : t.hart.id = s.hart.id := by
  obtain ⟨c, r, m, fl, x, rfl⟩ := h.shape
  rfl

theorem Partway.mode_eq (h : Partway L s k t) : t.hart.mode = s.hart.mode := by
  obtain ⟨c, r, m, fl, x, rfl⟩ := h.shape
  rfl

/-- The hart after the device has asked it for its core (R192). -/
def askedOut (time : Nat) (h : Hart) : Hart := { h with
  upsets := [], atOnce := false, mip := setBit h.mip 16 true
  preq := BitVec.ofNat 64 (time % 2 ^ 32 * 65536 + bits h.preq 1 1 * 2 + 1) }

theorem setLane_again {s t : State} {v w : Word} (h : t = { laneSet s v [] with hart := t.hart, freeCtr := t.freeCtr })
    (hid : t.hart.id = s.hart.id) (g : Hart) :
    { t.setLane t.hart.id w with hart := g } = { laneSet s w [] with hart := g, freeCtr := t.freeCtr } := by
  obtain ⟨k, c, rfl⟩ : ∃ k c, t = { laneSet s v [] with hart := k, freeCtr := c } := ⟨_, _, h⟩
  have hput : (s.status.lanes.put s.hart.id v).put k.id w = s.status.lanes.put s.hart.id w := by
    rw [show k.id = s.hart.id from hid]
    exact Tab.put_put ..
  exact congrArg (fun T => { s with status := { s.status with lanes := T }, hart := g, freeCtr := c }) hput

/-- A request that a hart in M-mode finds due is one of the state it goes on from. -/
theorem Partway.asked {v w : Word} (h : Partway L (laneSet s v []) k t) :
    Partway L { laneSet s w [] with hart := askedOut s.time s.hart } k
      { t.setLane t.hart.id w with hart := t.hart.requestAt t.time } := by
  have hsame : SameOutside L.vd.toNat s.hart.grp (committedTo L (laneSet s v []) k)
      (committedTo L { laneSet s w [] with hart := askedOut s.time s.hart } k) := by
    refine committedTo_same ⟨?_, ?_, ?_, ?_⟩ ?_ ?_ ?_ ?_ _ _ <;> rfl
  have hcommitted := SameOutside.trans h.committed hsame
  have htime : t.time = s.time := by
    rw [h.others]
    rfl
  refine ⟨setLane_again h.others h.id_eq _, ?_, ⟨hcommitted.vregs, hcommitted.vfflags, hcommitted.masks⟩⟩
  rw [htime]
  exact congrArg (Hart.requestAt s.time) h.hart

theorem Partway.lane_eq (h : Partway L s k t) (j : Nat) : t.lane j = s.lane j := by
  obtain ⟨c, r, m, fl, x, rfl⟩ := h.shape
  rfl

/-- Another core of the cluster is in service when one is in the state it began in. -/
theorem Partway.anyInService_iff {v : Word} {us : List Upset} (h : Partway L (laneSet s v us) k t) : t.anyInService t.hart = true ↔
    ∃ k, k < 4 ∧ 4 * (s.hart.id / 4) + k ≠ s.hart.id ∧ isOff (s.lane (4 * (s.hart.id / 4) + k)) = false := by
  rw [Machine.anyInService_iff, h.id_eq]
  refine exists_congr fun j => and_congr_right fun _ => and_congr_right fun hne => ?_
  rw [h.lane_eq]
  exact iff_of_eq (congrArg (fun w => isOff w = false) (lane_setLane_ne hne))
end

section
variable {L : Lane} {s : State} {i : Instr} {suits : Hart → Bool} {f : VCtx → Nat → ElemRes} (hr : RunsLane L s i suits f) (hp : L.passes s)
  {u : Upset} {us : List Upset} (hup : s.hart.upsets = u :: us)
include hr hp hup

/-- The lane runs up to the mismatch, counts it, and the core is to go out of service there. -/
theorem RunsLane.second_run (hcol : u.column = false) (hlow : s.hart.vxi ≤ u.elem) (hhigh : u.elem < s.hart.nel)
    (hr49 : bitAt (s.lane s.hart.id) 49 = true) (ht : u.persistent = true) : ∃ t,
      Partway L (laneSet s (lanePersistent (s.lane s.hart.id)) us) u.elem t ∧ t.hart.vxi = u.elem ∧
      (checkedLane L f s (us.length + 1)).run (begun L s) =
        (do coreOut s.hart.pc u.elem; lanewiseBody L.pg L.vd L.eb f s.hart.nel : Op Unit).run t := by
  obtain ⟨t, hrun, hu, -⟩ := hr.body_run hp us (laneSet s (lanePersistent (s.lane s.hart.id)) us).status (Nat.le_of_lt hhigh)
  refine ⟨_, Partway.withVxi hu u.elem, rfl, ?_⟩
  exact weevil_meets_second (s := begun L s) (pc := s.hart.pc) (fuel := us.length) (body := lanewiseBody L.pg L.vd L.eb f) (t := t)
    (lanewiseBody_trapless L.pg L.vd L.eb f s.hart.nel) hr49 (nextUpset_eq_some hup hcol hlow hhigh (.inl ⟨rfl, ht⟩)) (by
      rw [begun_tail hup]
      exact hrun)
end

/-! ## A forced stop behind a mismatch (R59) -/

theorem stopBefore_preempts {body : Nat → Op Unit} {n k : Nat} {pc : Word} {s t : State} (hk : (body k).run s = .ok () t)
    (hbody : ∀ n, (body n).Trapless) : (stopBefore 1 n k pc body).run s =
      .error (.preempt pc k) { t with hart := { t.hart with vxi := k, stopAt := none } } := by
  refine Op.bind_ok hk (Op.bind_ok (Op.run_getH t) ?_)
  rw [if_neg (by simp [Hart.endedBelow])]
  refine Op.bind_ok (Op.run_modH _ t) (Op.bind_ok (Op.run_get _) ?_)
  simp only [hbody _ _ _, Bool.false_eq_true, if_false]
  rfl

theorem stopBefore_trapless {body : Nat → Op Unit} {n k : Nat} {pc : Word} (hk : ∀ s, ∃ t, (body k).run s = .ok () t)
    (hbody : ∀ n, (body n).Trapless) : (stopBefore 1 n k pc body).Trapless := by
  intro m s
  obtain ⟨t, ht⟩ := hk s
  simp only [trapsBy, stopBefore_preempts ht hbody]

/-- A forced stop inside the instruction ends its run there, once the mismatches below have been checked. -/
theorem vecRun_stopped {unit : VUnit} {body : Nat → Op Unit} {n k : Nat} {pc : Word} {s t : State} {e : Stop} (hunit : unit ≠ .pred)
    (hd : s.forcedDue = true) (hst : s.hart.stopAt = some k) (hlow : s.hart.vxi < k) (hhigh : k < n)
    (h : (weevil 1 k pc body (stopBefore 1 n k pc body) s.hart.upsets.length s.hart.vxi).run s = .error e t) :
    (vecRun unit 1 n pc body).run s = .error e t := by
  have hinside : (decide (1 ≠ 0) && decide (k % 1 = 0) && decide (s.hart.vxi < k) && decide (k < n)) = true := by
    simp [hlow, hhigh, Nat.mod_one]
  refine Op.bind_ok (Op.run_get s) ?_
  simp only [hd, hst, if_true]
  rw [if_pos hinside]
  refine Op.bind_error (Op.bind_ok (Op.run_getH s) ?_)
  rw [if_neg hunit]
  exact h

section
variable {L : Lane} {s : State} {i : Instr} {suits : Hart → Bool} {f : VCtx → Nat → ElemRes} (hr : RunsLane L s i suits f) (hp : L.passes s)
  (hunit : L.unit ≠ .pred) {u : Upset}
include hr hp hunit

theorem RunsLane.exec_stopped {k : Nat} (hd : s.forcedDue = true) (hst : s.hart.stopAt = some k) (hup : s.hart.upsets = [u])
    (hm : meetsLane s u) (ht : u.persistent = false) (hr49 : bitAt (s.lane s.hart.id) 49 = false) (hlow : u.elem < k)
    (hhigh : k < s.hart.nel) : ∃ t, exec i s = .next (preempt true true s.hart.pc k t) ∧ (L.upto k).Wrote s t ∧
      t = { (laneSet s (laneTransient (s.lane s.hart.id)) []) with hart := t.hart, freeCtr := t.freeCtr } ∧ t.hart.upsets = [] := by
  have hvxi : s.hart.vxi < k := Nat.lt_of_le_of_lt hm.2.1 hlow
  have htrapless := lanewiseBody_trapless L.pg L.vd L.eb f
  obtain ⟨x, hexec, hx⟩ := hr.checks_pass hp s.hart.upsets s.status
  obtain ⟨t, hrun, hu, -⟩ := hr.body_run hp [] (laneSet s (laneTransient (s.lane s.hart.id)) []).status (Nat.le_of_lt hhigh)
  have hmet := weevil_meets_transient (s := begun L s) (n := k) (pc := s.hart.pc) (fuel := 0) (body := lanewiseBody L.pg L.vd L.eb f)
    (stopBefore_trapless (n := s.hart.nel) (k := k) (pc := s.hart.pc)
      (fun s => ⟨_, (lanewiseBody_run L.pg L.vd L.eb f k s).choose_spec.choose_spec.1⟩) htrapless)
    hr49 (nextUpset_of_meetsLane hup hm hlow) ht
  rw [begun_tail hup] at hmet
  have hstop : (weevil 1 k s.hart.pc (lanewiseBody L.pg L.vd L.eb f) (stopBefore 1 s.hart.nel k s.hart.pc (lanewiseBody L.pg L.vd L.eb f))
      (begun L s).hart.upsets.length s.hart.vxi).run (begun L s) =
        .error (.preempt s.hart.pc k) { t with hart := { t.hart with vxi := k, stopAt := none } } := by
    rw [show (begun L s).hart.upsets.length = 1 from congrArg List.length hup]
    exact hmet.trans (stopBefore_preempts hrun htrapless)
  have hvec := vecRun_stopped (s := begun L s) hunit hd hst hvxi hhigh hstop
  have hwrote : (L.upto k).Wrote (laneSet s (laneTransient (s.lane s.hart.id)) []) { t with hart := { t.hart with vxi := k, stopAt := none } } :=
    upto_wrote_of_sameOutside hr.isElementwise ⟨hu.committed.vregs, hu.committed.vfflags, hu.committed.masks⟩ (Nat.le_of_lt hvxi) hhigh
  refine ⟨_, hexec.trans (finish_preempt (Op.bind_error (hx.trans hvec))), hwrote, ?_, ?_⟩
  · rw [hu.others]
    rfl
  · show t.hart.upsets = []
    rw [hu.hart]
    rfl

/-! ## The core out of service -/

/-- The state that a hart in M-mode goes on from, a request at once due. -/
def goesOn (s : State) : State :=
  { laneSet s (laneOff (lanePersistent (s.lane s.hart.id))) [] with hart := askedOut s.time s.hart }

variable (hst : s.hart.stopAt = none)
include hst

omit hunit hst in
/-- A hart in M-mode runs to its end from there. -/
theorem RunsLane.asked_run {t : State} {pc : Word} {k : Nat} (hu : Partway L (laneSet s (lanePersistent (s.lane s.hart.id)) []) k t)
    (hvxi : t.hart.vxi = k) (hlow : s.hart.vxi ≤ k) (hhigh : k < s.hart.nel)
    (hlane : t.lane t.hart.id = lanePersistent (s.lane s.hart.id)) (hany : t.anyInService t.hart = true) (hm : t.hart.mode = .m) :
    ∃ w, (do coreOut pc k; lanewiseBody L.pg L.vd L.eb f s.hart.nel : Op Unit).run t = .ok () w ∧ Partway L (goesOn s) s.hart.nel w := by
  have hasked : Partway L (goesOn s) k { t.setLane t.hart.id (laneOff (t.lane t.hart.id)) with hart := t.hart.requestAt t.time } := by
    rw [hlane]
    exact Partway.asked hu
  have hreads : ReadsElements L (goesOn s) f := ⟨hr.reads.computes, hr.reads.validity⟩
  have hpasses : L.passes (goesOn s) := hp
  have hnel : s.hart.nel ≤ (goesOn s).hart.nel := Nat.le_refl _
  obtain ⟨w, hrest, hw, -⟩ := hasked.body_run hpasses hr.sizes hreads hvxi hlow (.inl (Nat.le_of_lt hhigh)) hnel
  exact ⟨w, Op.bind_ok (coreOut_asks hany hm) hrest, hw⟩

variable {us : List Upset} (hup : s.hart.upsets = u :: us)
include hup

theorem RunsLane.exec_second (hcol : u.column = false) (hlow : s.hart.vxi ≤ u.elem) (hhigh : u.elem < s.hart.nel)
    (hr49 : bitAt (s.lane s.hart.id) 49 = true) (ht : u.persistent = true) :
    ∃ t, (L.upto u.elem).Wrote s t ∧ t.hart.vxi = u.elem ∧ isOff (t.lane s.hart.id) = true ∧ t.mem = s.mem ∧
      ((∃ k, k < 4 ∧ 4 * (s.hart.id / 4) + k ≠ s.hart.id ∧ isOff (s.lane (4 * (s.hart.id / 4) + k)) = false) →
        (s.hart.mode = .u → exec i s = .next (preempt true true s.hart.pc u.elem t)) ∧
        (s.hart.mode = .m → us = [] → ∃ w, exec i s = .next w ∧
          L.Left (goesOn s) w)) ∧
      ((∀ k, k < 4 → 4 * (s.hart.id / 4) + k ≠ s.hart.id → isOff (s.lane (4 * (s.hart.id / 4) + k)) = true) →
        exec i s = .next (endOwnLaunch 29 t)) := by
  obtain ⟨t, hu, hvxi, hrun⟩ := hr.second_run hp hup hcol hlow hhigh hr49 ht
  have hexec := hr.exec_disturbed hp hunit hst s.hart.upsets s.status
  rw [hup, List.length_cons, ← hup] at hexec
  replace hexec : exec i s = finish (laneRun L f s (us.length + 1)) (begun L s) := hexec
  have hid : t.hart.id = s.hart.id := hu.id_eq
  have hmode : t.hart.mode = s.hart.mode := hu.mode_eq
  have hlane : t.lane t.hart.id = lanePersistent (s.lane s.hart.id) := by
    rw [hid, hu.lane_eq]
    exact lane_laneSet ..
  have hwrote : (L.upto u.elem).Wrote (laneSet s (lanePersistent (s.lane s.hart.id)) us)
      (t.setLane t.hart.id (laneOff (t.lane t.hart.id))) :=
    upto_wrote_of_sameOutside hr.isElementwise hu.committed hlow hhigh
  refine ⟨t.setLane t.hart.id (laneOff (t.lane t.hart.id)), hwrote, hvxi, ?_, ?_, fun hother => ⟨fun hmu => ?_, fun hmm hus => ?_⟩,
    fun hnone => ?_⟩
  · rw [← hid]
    exact (congrArg isOff (lane_laneSet t _ [])).trans (isOff_laneOff _)
  · rw [State.setLane_mem, hu.others]
    rfl
  · have hout := coreOut_preempts (pc := s.hart.pc) (k := u.elem) (hu.anyInService_iff.mpr hother) (hmode.trans hmu)
    rw [hexec]
    exact finish_preempt (Op.bind_error (hrun.trans (Op.bind_error hout)))
  · subst hus
    obtain ⟨w, hrest, hw⟩ := hr.asked_run hp (pc := s.hart.pc) hu hvxi hlow hhigh hlane (hu.anyInService_iff.mpr hother)
      (hmode.trans hmm)
    rw [hexec]
    exact ⟨_, finish_laneRun (hrun.trans hrest), Partway.left (b := goesOn s) hr.isElementwise hunit hst hw⟩
  · have hnot : t.anyInService t.hart = false := by
      rw [← Bool.not_eq_true, hu.anyInService_iff]
      rintro ⟨k, hk, hne, hoff⟩
      rw [hnone k hk hne] at hoff
      exact absurd hoff (by decide)
    have hout := coreOut_ends (pc := s.hart.pc) (k := u.elem) hnot
    rw [hexec]
    exact finish_wait (Op.bind_error (hrun.trans (Op.bind_error hout)))
end

end Sys2Proof.Machine
end

section
/-!
SUPPORT. The Weevil lane's check, put together, and what settles the retention events (R189 to R192).
-/

namespace Sys2Proof.Machine
open Sys2Proof.Claims

theorem lane_runsLane {s : State} {i : Instr} {L : Lane} (h : vintLane s i = some L ∨ vfltLane s i = some L) (hp : L.passes s) :
    (∃ suits f, RunsLane L s i suits f) ∧ L.unit ≠ .pred := by
  rcases h with h | h
  · exact ⟨vintLane_runsLane h hp, by rw [vintLane_unit h]; decide⟩
  · exact ⟨vfltLane_runsLane h hp, by rw [vfltLane_unit h]; decide⟩

section
variable {L : Lane} {s : State} {i : Instr} {suits : Hart → Bool} {f : VCtx → Nat → ElemRes} (hr : RunsLane L s i suits f) (hp : L.passes s)
  (hunit : L.unit ≠ .pred) (hst : s.hart.stopAt = none)
include hr hp hunit hst

/-- Where no mismatch is to come any more, it goes on to its end, whatever the lane-health word. -/
theorem RunsLane.completes_laneSet (v : Word) : ∃ t, exec i (laneSet s v []) = .next t ∧ L.Left (laneSet s v []) t :=
  hr.completes hp hunit hst [] (laneSet s v []).status (nextUpset_nil rfl _ _ _)

/-- A mismatch that does not fall into the instruction, or that a remapped lane takes no notice of, changes nothing. -/
theorem RunsLane.completes_unmet {u : Upset} {us : List Upset} (hup : s.hart.upsets = u :: us)
    (hout : u.column = true ∨ u.elem < s.hart.vxi ∨ s.hart.nel ≤ u.elem ∨ (bitAt (s.lane s.hart.id) 49 = true ∧ u.persistent = false) ∨
      (bitAt (s.lane s.hart.id) 49 = false ∧ s.hart.vl ≠ 0 ∧ (u.elem % s.hart.vl) % 32 ≠ s.hart.rotation.toNat)) :
    ∃ t, exec i s = .next t ∧ L.Left s t :=
  hr.completes hp hunit hst s.hart.upsets s.status (nextUpset_eq_none hup hout)

/-- After the last mismatch, which only counts, it completes. -/
theorem RunsLane.completes_counted {u : Upset} (hup : s.hart.upsets = [u]) (hm : meetsLane s u)
    (hr49 : bitAt (s.lane s.hart.id) 49 = false) :
    ∃ t, (u.persistent = false → exec i s = .next t ∧ L.Left (laneSet s (laneTransient (s.lane s.hart.id)) []) t) ∧
      (u.persistent = true → s.flag s.hart 3 = false → exec i s = .next t ∧
        L.Left (laneSet s (laneRemap (lanePersistent (s.lane s.hart.id)) s.hart.rotation.toNat) []) t) := by
  have hlast : ∀ w ∈ ([] : List Upset).head?, u.elem < w.elem := fun w hw => by cases hw
  cases ht : u.persistent
  · obtain ⟨t, hexec, hleft⟩ := hr.completes_laneSet hp hunit hst (laneTransient (s.lane s.hart.id))
    exact ⟨t, fun _ => ⟨(hr.exec_transient hp hunit hst hup hm hr49 hlast ht).trans hexec, hleft⟩, fun h => absurd h (by decide)⟩
  · obtain ⟨t, hexec, hleft⟩ :=
      hr.completes_laneSet hp hunit hst (laneRemap (lanePersistent (s.lane s.hart.id)) s.hart.rotation.toNat)
    exact ⟨t, fun h => absurd h (by decide), fun _ hflag =>
      ⟨(hr.exec_persistent hp hunit hst hup hm hr49 hlast ht hflag).trans hexec, hleft⟩⟩
end

/-- The lane's check: forced stops, the mismatches that count, the second persistent one, and those not met. -/
theorem weevilCheckFollows : WeevilCheckFollows := by
  refine ⟨fun i s L u k hL hp hd hst hup hm ht hr49 hlow hhigh => ?_, fun i s L u us hL hp hst hup => ?_⟩
  · obtain ⟨⟨suits, f, hr⟩, hunit⟩ := lane_runsLane hL hp
    exact hr.exec_stopped hp hunit hd hst hup hm ht hr49 hlow hhigh
  · obtain ⟨⟨suits, f, hr⟩, hunit⟩ := lane_runsLane hL hp
    refine ⟨fun hm hr49 => ⟨fun hnext => ⟨?_, ?_⟩, ?_, ?_⟩, ?_, hr.completes_unmet hp hunit hst hup⟩
    · exact hr.exec_transient hp hunit hst hup hm hr49 hnext
    · exact hr.exec_persistent hp hunit hst hup hm hr49 hnext
    · rintro rfl
      exact hr.completes_counted hp hunit hst hup hm hr49
    · exact hr.exec_trapping hp hunit hst hup hm hr49
    · exact hr.exec_second hp hunit hst hup

end Sys2Proof.Machine

open Sys2Proof Sys2Proof.Machine Sys2Proof.Claims

/-- Settles O52: retention is one event at a time; an instruction that the Weevil lane's check interrupts goes on with the elements and the
validity that it would have read in one run. -/
theorem retentionEventsComplete : Obligations.RetentionEventsComplete := ⟨retentionAndPoison, weevilCheckFollows⟩
end
